-- ==== Sys2Proof/Word.lean ====
section
/-! DEFINITION. The word, byte and line types of the device and their plainest arithmetic (R3, R4, R25). -/

namespace Sys2Proof

/-- A 64-bit register value or virtual address. -/
abbrev Word := BitVec 64

/-- One byte of memory. -/
abbrev Byte := BitVec 8

/-- One 32-bit lane, accumulator cell or instruction word. -/
abbrev Half := BitVec 32

end Sys2Proof
end

