-- ==== Sys2Proof/Config.lean ====
section
/-! DEFINITION. What the device's spec leaves to the implementation or to the world outside it: free values.
Each is an opaque constant with no body, so that no proof can use a value of it. -/

namespace Sys2Proof

/-- Free: the SHAKE256 digest of a byte string, 64 bytes, byte by byte (R291, R292 name the function and give no images;
assumption log 17). -/
opaque Config.shake256 : List Byte → Nat → Byte

/-- Free: the Falcon-1024 signature made with the device identity key over a digest, byte by byte (R292; log 17). -/
opaque Config.falconSign : List Byte → Nat → Byte

/-- Free: the length in bytes of that signature (R292; log 17). -/
opaque Config.falconLen : List Byte → Nat

/-- Free: the 64-bit serial number of the device (R292; log 17). -/
opaque Config.serial : Word

/-- Free: the firmware images that bring-up measures: image id and version in the low 64 bits of entry `n`, and their
number (R291; log 17). -/
opaque Config.image : Nat → Word

/-- Free: how many images bring-up logs (R291, R292: at most 64; log 17). -/
opaque Config.imageCount : Nat

/-- Free: bytes that another device gives an engine that reads its page, applied to the state's free-value counter (R286; log 16). -/
opaque Config.freeByte : Nat → Byte

/-- Free: what came with a strand shipped from a peer of its launch's packet there: device, launch number, and which field (R102, R175,
R288; log 16). -/
opaque Config.peerLaunch : Nat → Nat → Nat → Nat

/-- Free: whether a racing read or a choice among outcomes that R1 leaves to the device takes the first or the second
outcome; applied to the state's free-value counter (log 6). -/
opaque Config.freeBit : Nat → Bool

end Sys2Proof
end

