-- ==== Sys2Proof/Syntax.lean ====
section
/-! DEFINITION. The instruction set: operand types and the one inductive `Instr`, one constructor per row of
spec/opcode_table.json (R105 to R114), the 71 device events of the table among them. -/

namespace Sys2Proof

/-- A register specifier (R107). Specifier 31 is reserved and names no register. -/
inductive Reg where
  | m (n : Fin 16) | s (n : Fin 6) | l (n : Fin 2)
  | z | nq | st (n : Fin 4) | id
deriving DecidableEq, Repr

/-- A guard: predicate p0 to p7, negated or not (R104). -/
structure Guard where
  neg : Bool
  p   : Fin 8
deriving DecidableEq, Repr

/-- The float types of FALU, FMA and FCMP (R109). -/
inductive FType where | f32 | f16 | bf16
deriving DecidableEq, Repr

/-- The number types of CVT (R109). -/
inductive NumType where
  | i8 | i16 | i32 | i64 | n8 | n16 | n32 | n64 | f32 | f16 | bf16 | t8 | t6
deriving DecidableEq, Repr

/-- The destinations of CVTE and VCVTE (R93, R185). -/
inductive NarrowType where | i8 | f16 | bf16 | t8 | t6
deriving DecidableEq, Repr

/-- Rounding modes as encoded (R88). -/
inductive Rnd where | rne | rtz | rup | rdn | rna | dyn
deriving DecidableEq, Repr

/-- The five scopes (R65, R109). -/
inductive Scope where | s | c | k | d | y
deriving DecidableEq, Repr

/-- An engine's acquire or release flag (R73, R109). -/
abbrev Flag := Option Scope

/-- Integer conditions (R109). -/
inductive ICond where | eq | ne | lt | ge | ltn | gen
deriving DecidableEq, Repr

/-- Float conditions (R109, R123). -/
inductive FCond where | eq | ne | lt | le | un
deriving DecidableEq, Repr

/-- How a compare combines into its predicate (R109, R122). -/
inductive Combine where | set | and | or
deriving DecidableEq, Repr

/-- Widths of SEXT and ZEXT (R111). -/
inductive ExtW where | w8 | w16 | w32
deriving DecidableEq, Repr

/-- Modes of LDX (R113). -/
inductive LdMode where | pred | stay | go | y | acq
deriving DecidableEq, Repr

/-- Modes of STX (R113). -/
inductive StMode where | pred | stay | go | y | rel
deriving DecidableEq, Repr

/-- Modes of ATOM (R110). -/
inductive AtMode where | dev | y | acq | rel
deriving DecidableEq, Repr

/-- Gang sizes (R167). -/
inductive GangN where | two | four | eight
deriving DecidableEq, Repr

/-- Control registers that CRD and CWR name (R175). -/
inductive CtrlReg where
  | tmode | tdom | flags | tepc | tcause | taddr | tvec | tfut | strandid | cycle
deriving DecidableEq, Repr

/-- Lane types (R114). -/
inductive LType where | f32 | i32 | n32
deriving DecidableEq, Repr

/-- The other type of VCVT (R185). -/
inductive VType where | f32 | i32 | n32 | f16 | bf16 | t8 | t6 | i8 | i16 | n8 | n16
deriving DecidableEq, Repr

/-- Element sizes of vector memory (R189). -/
inductive ElSize where | b4 | b2 | b1
deriving DecidableEq, Repr

/-- Key sources of ATTN (R235). -/
inductive KeySrc where | rope | window | sp
deriving DecidableEq, Repr

/-- The queues of engines (R283). -/
inductive EngUnit where | matrix | xfer (ch : Fin 2) | walker | consol
deriving DecidableEq, Repr

/-- A BAR window access of the host (R284, R76): a store of bytes or a read of a byte count. -/
inductive HostAcc where
  | store (bytes : List Byte)
  | load  (n : Nat)
deriving DecidableEq, Repr

/-- Operations of ATOM (R144). -/
inductive AtomOp where | add | min | max | minn | maxn | and | or | xor | swap | cas | fadd
deriving DecidableEq, Repr

/-- What a device asks of a peer, or a peer of this device (R286, R76): loads, stores, atomics (with the compared value of
`cas`), the atomic fill of a future (R162) and the clearing of its full word by FORK (R160), a strand's context shipped to its owner (R286,
R288), a wake, of a strand of a launch where one names it (R166, R332), and news of a strand shipped there: that it has ended, or has made another of its block (R288; log 16). -/
inductive PeerOp where
  | load (size : Nat)
  | store (bytes : List Byte)
  | bits (mask v : Byte)
  | atom (op : AtomOp) (size : Nat) (b c : Word)
  | cupd (op : AtomOp) (size : Nat) (b : Word)
  | fget
  | fput (v : Word)
  | ship (line : List Byte)
  | wake (id : BitVec 32) (launch : Option (BitVec 16))
  | recall (id : BitVec 32)
  | clear
  | ended (id : BitVec 32)
  | born (parent child : BitVec 32)
deriving DecidableEq, Repr

/-- What a peer answers a request: the value read (0 for a store), or the trap that the request's access takes. -/
inductive PeerAns where
  | value (v : Word)
  | fault (cause info : Nat)
deriving DecidableEq, Repr

/-- One constructor per row of spec/opcode_table.json. Instruction words carry their guard `g`; `w` is `.w`; `d`, `a`,
`b` are the register fields; `q` and `r` are the acquire and release flags. The constructors after `dictionaryCode`, and those
standing among the words with no guard, are the table's device events, whose operands say where the event happens. -/
inductive Instr where
  -- ALU (R118)
  | add (g : Guard) (w : Bool) (d a b : Reg)
  | sub (g : Guard) (w : Bool) (d a b : Reg)
  | and (g : Guard) (w : Bool) (d a b : Reg)
  | or (g : Guard) (w : Bool) (d a b : Reg)
  | xor (g : Guard) (w : Bool) (d a b : Reg)
  | andn (g : Guard) (w : Bool) (d a b : Reg)
  | orn (g : Guard) (w : Bool) (d a b : Reg)
  | sll (g : Guard) (w : Bool) (d a b : Reg)
  | srl (g : Guard) (w : Bool) (d a b : Reg)
  | sra (g : Guard) (w : Bool) (d a b : Reg)
  | rol (g : Guard) (w : Bool) (d a b : Reg)
  | ror (g : Guard) (w : Bool) (d a b : Reg)
  | min (g : Guard) (w : Bool) (d a b : Reg)
  | max (g : Guard) (w : Bool) (d a b : Reg)
  | minn (g : Guard) (w : Bool) (d a b : Reg)
  | maxn (g : Guard) (w : Bool) (d a b : Reg)
  | mul (g : Guard) (w : Bool) (d a b : Reg)
  | mulh (g : Guard) (w : Bool) (d a b : Reg)
  | mulhn (g : Guard) (w : Bool) (d a b : Reg)
  | clz (g : Guard) (w : Bool) (d a : Reg)
  | ctz (g : Guard) (w : Bool) (d a : Reg)
  | popc (g : Guard) (w : Bool) (d a : Reg)
  | brev (g : Guard) (w : Bool) (d a : Reg)
  | bswap (g : Guard) (w : Bool) (d a : Reg)
  | sext (g : Guard) (w : Bool) (n : ExtW) (d a : Reg)
  | zext (g : Guard) (w : Bool) (n : ExtW) (d a : Reg)
  -- immediates (R119 to R121)
  | addi (g : Guard) (d a : Reg) (i : BitVec 12)
  | andi (g : Guard) (d a : Reg) (i : BitVec 12)
  | ori (g : Guard) (d a : Reg) (i : BitVec 12)
  | xori (g : Guard) (d a : Reg) (i : BitVec 12)
  | shiSll (g : Guard) (w : Bool) (d a : Reg) (i : BitVec 6)
  | shiSrl (g : Guard) (w : Bool) (d a : Reg) (i : BitVec 6)
  | shiSra (g : Guard) (w : Bool) (d a : Reg) (i : BitVec 6)
  | shiRol (g : Guard) (w : Bool) (d a : Reg) (i : BitVec 6)
  | shiRor (g : Guard) (w : Bool) (d a : Reg) (i : BitVec 6)
  | li (g : Guard) (d : Reg) (i : BitVec 17)
  | lis (g : Guard) (d : Reg) (i : BitVec 17)
  -- predicates (R122 to R125)
  | cmp (g : Guard) (c : Combine) (n : ICond) (w : Bool) (p : Fin 16) (a b : Reg)
  | cmpi (g : Guard) (c : Combine) (n : ICond) (w : Bool) (p : Fin 16) (a : Reg) (i : BitVec 7)
  | pand (g : Guard) (d a b : Fin 16)
  | por (g : Guard) (d a b : Fin 16)
  | pxor (g : Guard) (d a b : Fin 16)
  | pnot (g : Guard) (d a : Fin 16)
  | pget (g : Guard) (d : Reg)
  | pset (g : Guard) (a : Reg)
  | sel (g : Guard) (p : Fin 16) (d a b : Reg)
  -- logic and bit fields (R126, R127)
  | tern (g : Guard) (t : BitVec 8) (d a b : Reg)
  | bfx (g : Guard) (d a b : Reg)
  | bfxs (g : Guard) (d a b : Reg)
  | bfi (g : Guard) (d a b : Reg)
  -- division (R128)
  | div (g : Guard) (w : Bool) (d a b : Reg)
  | divn (g : Guard) (w : Bool) (d a b : Reg)
  | rem (g : Guard) (w : Bool) (d a b : Reg)
  | remn (g : Guard) (w : Bool) (d a b : Reg)
  | divideComplete (core : Nat)
  -- branches (R129)
  | br (g : Guard) (o : BitVec 22)
  | bl (g : Guard) (o : BitVec 22)
  | jmp (g : Guard) (a : Reg)
  | jmpl (g : Guard) (d a : Reg)
  -- floating point (R130 to R133)
  | fadd (g : Guard) (r : Rnd) (t : FType) (d a b : Reg)
  | fsub (g : Guard) (r : Rnd) (t : FType) (d a b : Reg)
  | fmul (g : Guard) (r : Rnd) (t : FType) (d a b : Reg)
  | fmin (g : Guard) (t : FType) (d a b : Reg)
  | fmax (g : Guard) (t : FType) (d a b : Reg)
  | fabs (g : Guard) (t : FType) (d a : Reg)
  | fneg (g : Guard) (t : FType) (d a : Reg)
  | fcpys (g : Guard) (t : FType) (d a b : Reg)
  | fclass (g : Guard) (t : FType) (d a : Reg)
  | fma (g : Guard) (r : Rnd) (t : FType) (d a b : Reg)
  | fcmp (g : Guard) (c : Combine) (n : FCond) (t : FType) (p : Fin 16) (a b : Reg)
  -- conversions (R134, R135)
  | cvt (g : Guard) (r : Rnd) (x s : NumType) (d a : Reg)
  | cvte (g : Guard) (r : Rnd) (x : NarrowType) (d a b : Reg)
  -- special functions (R136)
  | rcp (g : Guard) (d a : Reg)
  | rsq (g : Guard) (d a : Reg)
  | sqrt (g : Guard) (d a : Reg)
  | log2 (g : Guard) (d a : Reg)
  | exp2 (g : Guard) (d a : Reg)
  | sin (g : Guard) (d a : Reg)
  | cos (g : Guard) (d a : Reg)
  | tanh (g : Guard) (d a : Reg)
  | sigm (g : Guard) (d a : Reg)
  | sfuComplete (core : Nat)
  | normaliserService (core : Nat)
  -- loads and stores (R139 to R143)
  | ldn (g : Guard) (s : Fin 4) (o : BitVec 10) (d a : Reg)
  | lds (g : Guard) (s : Fin 4) (o : BitVec 10) (d a : Reg)
  | st (g : Guard) (s : Fin 4) (o : BitVec 10) (d a : Reg)
  | ldx (g : Guard) (m : LdMode) (x : Bool) (s : Fin 4) (d a b : Reg)
  | stx (g : Guard) (m : StMode) (s : Fin 4) (d a b : Reg)
  | ldfeKeep (g : Guard) (s : Fin 4) (d a b : Reg)
  | ldfeTake (g : Guard) (s : Fin 4) (d a b : Reg)
  | ldfePeek (g : Guard) (s : Fin 4) (d a b : Reg)
  | stfeFill (g : Guard) (s : Fin 4) (d a b : Reg)
  | stfeForce (g : Guard) (s : Fin 4) (d a b : Reg)
  | stfeClear (g : Guard) (s : Fin 4) (a b : Reg)
  | fullEmptyRetest (granule : Nat)
  -- atomics (R144)
  | atomAdd (g : Guard) (md : AtMode) (z : Bool) (d a b : Reg)
  | atomMin (g : Guard) (md : AtMode) (z : Bool) (d a b : Reg)
  | atomMax (g : Guard) (md : AtMode) (z : Bool) (d a b : Reg)
  | atomMinn (g : Guard) (md : AtMode) (z : Bool) (d a b : Reg)
  | atomMaxn (g : Guard) (md : AtMode) (z : Bool) (d a b : Reg)
  | atomAnd (g : Guard) (md : AtMode) (z : Bool) (d a b : Reg)
  | atomOr (g : Guard) (md : AtMode) (z : Bool) (d a b : Reg)
  | atomXor (g : Guard) (md : AtMode) (z : Bool) (d a b : Reg)
  | atomSwap (g : Guard) (md : AtMode) (z : Bool) (d a b : Reg)
  | atomCas (g : Guard) (md : AtMode) (z : Bool) (d a b : Reg)
  | atomFaddF32 (g : Guard) (md : AtMode) (d a b : Reg)
  -- commutative updates (R145)
  | cupdAdd (g : Guard) (z : Bool) (a b : Reg)
  | cupdMin (g : Guard) (z : Bool) (a b : Reg)
  | cupdMax (g : Guard) (z : Bool) (a b : Reg)
  | cupdOr (g : Guard) (z : Bool) (a b : Reg)
  | cupdFaddF32 (g : Guard) (a b : Reg)
  -- SYNC (R66, R146, R147)
  | fence (g : Guard) (sc : Scope)
  | cend (g : Guard)
  | home (g : Guard) (d a : Reg)
  | migr (g : Guard) (a : Reg)
  | stay (g : Guard)
  -- lists (R149)
  | linit (g : Guard) (a : Reg)
  | lmove (g : Guard) (d a b : Reg)
  | lpop (g : Guard) (d a : Reg)
  -- streams (R151)
  | stbind (g : Guard) (t : Fin 4) (a : Reg)
  | stfree (g : Guard) (t : Fin 4)
  | ststat (g : Guard) (t : Fin 4) (d : Reg)
  | streamElementArrival (core slot : Nat) (t : Fin 4)
  | streamDrain (core slot : Nat) (t : Fin 4)
  -- the transfer unit (R153 to R156)
  | xcopyCopy (g : Guard) (e l h : Bool) (q r : Flag) (d a : Reg)
  | xcopyFill (g : Guard) (e l h : Bool) (q r : Flag) (d a : Reg)
  | xcopyPack (g : Guard) (e l h : Bool) (q r : Flag) (d a : Reg)
  | xcopyUnpack (g : Guard) (e l h : Bool) (q r : Flag) (d a : Reg)
  -- strands, futures, slots (R160 to R166)
  | fork (g : Guard) (d a b : Reg)
  | fget (g : Guard) (d a : Reg)
  | fput (g : Guard) (a b : Reg)
  | exit (g : Guard) (a : Reg)
  | yield (g : Guard)
  | slstart (g : Guard) (d a b : Reg)
  | slreap (g : Guard) (d a : Reg)
  | slquery (g : Guard) (d a : Reg)
  | wake (g : Guard) (a : Reg)
  | wakeMessage (n : Nat)
  -- gangs (R34, R167)
  | gang (g : Guard) (n : GangN)
  | gangFormation (core slot : Nat)
  | ungang (g : Guard)
  -- barriers (R169)
  | barinit (g : Guard) (a b : Reg)
  | bararr (g : Guard) (d a : Reg)
  | barwait (g : Guard) (a b : Reg)
  | barrierRelease (core slot : Nat)
  | barleave (g : Guard) (a : Reg)
  -- mailboxes and queues (R170 to R173)
  | send (g : Guard) (a b : Reg)
  | mailboxDelivery (core n : Nat)
  | recv (g : Guard) (d a : Reg)
  | mbstat (g : Guard) (d a : Reg)
  | nqHop (core : Nat)
  | wqput (g : Guard) (a b : Reg)
  | wqget (g : Guard) (d a : Reg)
  | wqlen (g : Guard) (d a : Reg)
  | turn (g : Guard) (t : BitVec 15)
  | turnReg (g : Guard) (a : Reg)
  | poolid (g : Guard) (d : Reg)
  | omTurn (cluster : Nat)
  -- traps, control registers, loop counts (R174 to R176)
  | trap (g : Guard) (c : BitVec 15)
  | eret (g : Guard)
  | crd (g : Guard) (n : CtrlReg) (d : Reg)
  | cwr (g : Guard) (n : CtrlReg) (d : Reg)
  | brk (g : Guard)
  | lcset (g : Guard) (n : Fin 16) (a : Reg)
  | lcget (g : Guard) (n : Fin 16) (d : Reg)
  | halt (g : Guard)
  -- vector functions (R183 to R187); `b` is a vector register, or a general register in the scalar form
  | vadd (g : Guard) (t : LType) (m : Fin 4) (d a b : Fin 8)
  | vaddScalar (g : Guard) (t : LType) (m : Fin 4) (d a : Fin 8) (b : Reg)
  | vsub (g : Guard) (t : LType) (m : Fin 4) (d a b : Fin 8)
  | vsubScalar (g : Guard) (t : LType) (m : Fin 4) (d a : Fin 8) (b : Reg)
  | vmul (g : Guard) (t : LType) (m : Fin 4) (d a b : Fin 8)
  | vmulScalar (g : Guard) (t : LType) (m : Fin 4) (d a : Fin 8) (b : Reg)
  | vfma (g : Guard) (t : LType) (m : Fin 4) (d a b : Fin 8)
  | vfmaScalar (g : Guard) (t : LType) (m : Fin 4) (d a : Fin 8) (b : Reg)
  | vmin (g : Guard) (t : LType) (m : Fin 4) (d a b : Fin 8)
  | vminScalar (g : Guard) (t : LType) (m : Fin 4) (d a : Fin 8) (b : Reg)
  | vmax (g : Guard) (t : LType) (m : Fin 4) (d a b : Fin 8)
  | vmaxScalar (g : Guard) (t : LType) (m : Fin 4) (d a : Fin 8) (b : Reg)
  | vabs (g : Guard) (t : LType) (m : Fin 4) (d a : Fin 8)
  | vneg (g : Guard) (t : LType) (m : Fin 4) (d a : Fin 8)
  | vcmp (g : Guard) (t : LType) (c : Fin 5) (v : Fin 4) (a b : Fin 8)
  | vcmpScalar (g : Guard) (t : LType) (c : Fin 5) (v : Fin 4) (a : Fin 8) (b : Reg)
  | vsel (g : Guard) (t : LType) (m : Fin 4) (d a b : Fin 8)
  | vselScalar (g : Guard) (t : LType) (m : Fin 4) (d a : Fin 8) (b : Reg)
  | vand (g : Guard) (t : LType) (m : Fin 4) (d a b : Fin 8)
  | vandScalar (g : Guard) (t : LType) (m : Fin 4) (d a : Fin 8) (b : Reg)
  | vor (g : Guard) (t : LType) (m : Fin 4) (d a b : Fin 8)
  | vorScalar (g : Guard) (t : LType) (m : Fin 4) (d a : Fin 8) (b : Reg)
  | vxor (g : Guard) (t : LType) (m : Fin 4) (d a b : Fin 8)
  | vxorScalar (g : Guard) (t : LType) (m : Fin 4) (d a : Fin 8) (b : Reg)
  | vtern (g : Guard) (t : BitVec 8) (d a b : Fin 8)
  | vshl (g : Guard) (t : LType) (m : Fin 4) (d a b : Fin 8)
  | vshlScalar (g : Guard) (t : LType) (m : Fin 4) (d a : Fin 8) (b : Reg)
  | vshr (g : Guard) (t : LType) (m : Fin 4) (d a b : Fin 8)
  | vshrScalar (g : Guard) (t : LType) (m : Fin 4) (d a : Fin 8) (b : Reg)
  | vcvt (g : Guard) (t : LType) (k : Bool) (o : VType) (m : Fin 4) (d a : Fin 8)
  | vcvte (g : Guard) (x : NarrowType) (d a b : Fin 8)
  | vlog2 (g : Guard) (m : Fin 4) (d a : Fin 8)
  | vexp2 (g : Guard) (m : Fin 4) (d a : Fin 8)
  | vrcp (g : Guard) (m : Fin 4) (d a : Fin 8)
  | vrsq (g : Guard) (m : Fin 4) (d a : Fin 8)
  | vtanh (g : Guard) (m : Fin 4) (d a : Fin 8)
  | vsigm (g : Guard) (m : Fin 4) (d a : Fin 8)
  | vredadd (g : Guard) (t : LType) (m : Fin 4) (d a : Fin 8)
  | vredmax (g : Guard) (t : LType) (m : Fin 4) (d a : Fin 8)
  | vimax (g : Guard) (t : LType) (m : Fin 4) (d a b : Fin 8)
  | vimaxScalar (g : Guard) (t : LType) (m : Fin 4) (d a : Fin 8) (b : Reg)
  | vscan (g : Guard) (t : LType) (d a : Fin 8)
  | vperm (g : Guard) (t : LType) (m : Fin 4) (d a b : Fin 8)
  | vpermScalar (g : Guard) (t : LType) (m : Fin 4) (d a : Fin 8) (b : Reg)
  | vbcast (g : Guard) (t : LType) (m : Fin 4) (d a b : Fin 8)
  | vbcastScalar (g : Guard) (t : LType) (m : Fin 4) (d a : Fin 8) (b : Reg)
  | vsplat (g : Guard) (t : LType) (m : Fin 4) (d : Fin 8) (b : Reg)
  | vpopc (g : Guard) (t : LType) (m : Fin 4) (d a : Fin 8)
  -- vector memory (R189, R190)
  | vld (g : Guard) (x : Bool) (s : ElSize) (m : Fin 4) (d : Fin 8) (a b : Reg)
  | vst (g : Guard) (s : ElSize) (m : Fin 4) (d : Fin 8) (a b : Reg)
  | vldx (g : Guard) (x : Bool) (s : ElSize) (m : Fin 4) (d : Fin 8) (a : Reg) (b : Fin 8)
  | vstx (g : Guard) (s : ElSize) (m : Fin 4) (d : Fin 8) (a : Reg) (b : Fin 8)
  | vbitsLd (g : Guard) (v : Fin 4) (a b : Reg)
  | vbitsSt (g : Guard) (v : Fin 4) (a b : Reg)
  -- vector control (R188, R35)
  | vfence (g : Guard)
  | vbusy (g : Guard) (d : Reg)
  | vrel (g : Guard)
  | vmand (g : Guard) (d a b : Fin 4)
  | vmor (g : Guard) (d a b : Fin 4)
  | vmxor (g : Guard) (d a b : Fin 4)
  | vmnot (g : Guard) (d a : Fin 4)
  | vmget (g : Guard) (d : Reg) (a : Fin 4)
  | vmset (g : Guard) (d : Fin 4) (a : Reg)
  | vimaxs (g : Guard) (t : LType) (d : Reg) (a : Fin 8)
  | svuComplete (core slot : Nat)
  -- the matrix engine (R193 to R202, R233 to R239)
  | mfmt (g : Guard) (c : Fin 4) (a : Reg)
  | mma (g : Guard) (v c : Bool) (p : Fin 16) (q r : Flag) (d a : Reg)
  | mld (g : Guard) (q r : Flag) (d a : Reg)
  | mst (g : Guard) (q r : Flag) (d a : Reg)
  | mclr (g : Guard) (q r : Flag) (a : Reg)
  | mqry (g : Guard) (q r : Flag) (d a : Reg)
  | mrecl (g : Guard) (q r : Flag) (d a : Reg)
  | attn (g : Guard) (l f : Bool) (s : KeySrc) (q r : Flag) (d a : Reg)
  | maskset (g : Guard) (q r : Flag) (d a : Reg)
  -- key-value caches (R230, R240, R241)
  | kvapp (g : Guard) (w : Bool) (q r : Flag) (d a : Reg)
  | kvcommit (g : Guard) (w : Bool) (q r : Flag) (d a : Reg)
  | kvtrunc (g : Guard) (w : Bool) (q r : Flag) (d a : Reg)
  | linfold (g : Guard) (q r : Flag) (d a : Reg)
  | pref (g : Guard) (q r : Flag) (a : Reg)
  -- ropes (R213 to R223)
  | rcat (g : Guard) (q r : Flag) (d a : Reg)
  | rsplitLo (g : Guard) (q r : Flag) (d a : Reg)
  | rsplitHi (g : Guard) (q r : Flag) (d a : Reg)
  | rsplice (g : Guard) (q r : Flag) (d a : Reg)
  | rleaf (g : Guard) (q r : Flag) (d a : Reg)
  | ridx (g : Guard) (q r : Flag) (d a : Reg)
  | rsum (g : Guard) (q r : Flag) (d a : Reg)
  | rsumFix (g : Guard) (q r : Flag) (d a : Reg)
  | rlen (g : Guard) (q r : Flag) (d a : Reg)
  | rref (g : Guard) (q r : Flag) (a : Reg)
  | rdrop (g : Guard) (q r : Flag) (d a : Reg)
  | rwalk (g : Guard) (q r : Flag) (d a : Reg)
  | rclass (g : Guard) (q r : Flag) (d a : Reg)
  -- text (R252 to R254)
  | trie (g : Guard) (d a b : Reg)
  | udec (g : Guard) (d a : Reg)
  | uhold (g : Guard) (d a b : Reg)
  -- incremental queues (R259 to R268)
  | iqput (g : Guard) (q r : Flag) (d a : Reg)
  | iqget (g : Guard) (w : Bool) (q r : Flag) (d a : Reg)
  | iqgetWaitServe (cluster n : Nat)
  | iqwave (g : Guard) (q r : Flag) (d a : Reg)
  | iqcons (g : Guard) (q r : Flag) (d a : Reg)
  | iqbind (g : Guard) (q r : Flag) (d a : Reg)
  | iqbindStage (g : Guard) (q r : Flag) (d a : Reg)
  | iqprobe (g : Guard) (q r : Flag) (d a : Reg)
  | iqupd (g : Guard) (q r : Flag) (d a : Reg)
  | iqquiet (g : Guard) (q r : Flag) (d a : Reg)
  -- the dictionary code (R101)
  | dictionaryCode (i : BitVec 10)
  -- device events
  | dictionaryLoad (core slot : Nat)
  | chunkCommit (core slot : Nat)
  | lockedReservation (core slot : Nat)
  | steal (core slot : Nat)
  | strandArrival (core : Nat)
  | remoteWordAccess (core slot : Nat)
  | remoteReply (core slot : Nat) (v : PeerAns)
  | translationWalk (core slot : Nat)
  | pageService (va : Nat)
  | pageMigration (die : Nat)
  | migrationEpoch (die : Nat)
  | engineCompletion (cluster : Nat) (u : EngUnit)
  | dmodeWrite (v : BitVec 32)
  | ptrootWrite (v : Word)
  | drtbaseWrite (v : Word)
  | plbflush (v : Word)
  | tcinv (v : Word)
  | hometabWrite (i : Nat) (v : BitVec 16)
  | invalidationComplete
  | migreq (v : Word)
  | lqwidxWrite (q : Nat) (v : Word)
  | lqnextWrite (p : Nat) (v : Word)
  | launchPacket (q : Nat)
  | fencePacket (q : Nat)
  | fencePacketRecheck (q : Nat)
  | signalPacket (q : Nat)
  | copyPacket (q : Nat)
  | modePacket (q : Nat)
  | blockDeal (parser : Nat)
  | launchComplete (launch : Nat)
  | sliceExpiry (cluster : Nat)
  | cspreWrite (cluster : Nat) (v : Word)
  | idleThreshold (launch block : Nat)
  | blockSwapOut (launch block : Nat)
  | denReadmit (launch block : Nat)
  | hwake (v : Word)
  | omcfgWrite (cluster : Nat) (v : Word)
  | meqidxWrite (v : Word)
  | meqAnswer (v : Word)
  | attctlGo (v : Word)
  | attestationComplete
  | powerCapTick (watts : Nat)
  | registerWrite (off : Nat) (v : Word)
  | controlCoreStart (cluster : Nat)
  | controlCoreHalt (cluster : Nat)
  | hostAccess (bar : Nat) (off : Nat) (acc : HostAcc)
  /- `dom` is 4096 × the link by which the request comes + the strand's domain. -/
  | peerRequest (dom : Nat) (va : Word) (op : PeerOp)
  | peerStrandArrival (dev : Nat) (line : List Byte) (va : Word)
  /- `cls` is the flit's class, 4 more where it passes its CRC this time. -/
  | linkRetransmit (link cls : Nat)
  | linkRetrain (link : Nat) (ok : Bool)
  | scrubRead (pa : Nat)
  | errorEntryExpiry (stack frame : Nat)
  | coldReset
  | functionLevelReset
  | powerOn
  | lqctlWrite (q : Nat) (v : Word)
  | meqbaseWrite (v : Word)
deriving DecidableEq, Repr

end Sys2Proof
end

