-- ==== Sys2Proof/WellFormed.lean ====
section
/-! DEFINITION. Which instruction terms the encodings of R105 to R114 and the reserved-value tables of the instruction
chapters admit. A term outside this set stands for no word; the decoder yields none. -/

namespace Sys2Proof

/-- A destination field must not name `id` (R314). -/
def Reg.dst : Reg → Bool
  | .id => false
  | .m _ | .s _ | .l _ | .z | .nq | .st _ => true

/-- A field that supplies an address, or an index added to one, must not name `nq` or a stream (R314). -/
def Reg.adr : Reg → Bool
  | .nq | .st _ => false
  | .m _ | .s _ | .l _ | .z | .id => true

def LType.isF32 : LType → Bool
  | .f32 => true
  | .i32 | .n32 => false

/-- An encoder lower limit for events: core, slot, cluster, queue and link numbers of the device (R11, R271, R285). -/
def coreOk (c : Nat) : Bool := decide (c < 512)
def slotOk (c s : Nat) : Bool := decide (c < 512) && decide (s < 16)
def clusterOk (k : Nat) : Bool := decide (k < 64)

/-- The well-formed instructions (R106, R313, R314). Instructions named under one arm share one limit. -/
def Instr.wf : Instr → Bool
  | .add _ _ d _ _ | .sub _ _ d _ _ | .and _ _ d _ _ | .or _ _ d _ _ | .xor _ _ d _ _ | .andn _ _ d _ _
  | .orn _ _ d _ _ | .sll _ _ d _ _ | .srl _ _ d _ _ | .sra _ _ d _ _ | .rol _ _ d _ _ | .ror _ _ d _ _
  | .min _ _ d _ _ | .max _ _ d _ _ | .minn _ _ d _ _ | .maxn _ _ d _ _ | .mul _ _ d _ _ | .mulh _ _ d _ _
  | .mulhn _ _ d _ _ | .div _ _ d _ _ | .divn _ _ d _ _ | .rem _ _ d _ _ | .remn _ _ d _ _ => d.dst
  | .clz _ _ d _ | .ctz _ _ d _ | .popc _ _ d _ | .brev _ _ d _ | .bswap _ _ d _ => d.dst
  | .sext _ w n d _ | .zext _ w n d _ => d.dst && !(w && n == .w32)
  | .addi _ d _ _ | .andi _ d _ _ | .ori _ d _ _ | .xori _ d _ _ => d.dst
  | .shiSll _ w d _ i | .shiSrl _ w d _ i | .shiSra _ w d _ i | .shiRol _ w d _ i | .shiRor _ w d _ i =>
      d.dst && !(w && decide (32 ≤ i.toNat))
  | .li _ d _ | .lis _ d _ | .pget _ d | .sel _ _ d _ _ | .tern _ _ d _ _ | .bfx _ d _ _ | .bfxs _ d _ _
  | .bfi _ d _ _ => d.dst
  | .cmp .. | .cmpi .. | .pand .. | .por .. | .pxor .. | .pnot .. | .pset .. => true
  | .br .. | .bl .. => true
  | .jmp _ a => a.adr
  | .jmpl _ d a => d.dst && a.adr
  | .fadd _ _ _ d _ _ | .fsub _ _ _ d _ _ | .fmul _ _ _ d _ _ | .fma _ _ _ d _ _ => d.dst
  | .fmin _ _ d _ _ | .fmax _ _ d _ _ | .fcpys _ _ d _ _ => d.dst
  | .fabs _ _ d _ | .fneg _ _ d _ | .fclass _ _ d _ => d.dst
  | .fcmp .. => true
  | .cvt _ _ _ _ d _ => d.dst
  | .cvte _ _ _ d _ b => d.dst && b.dst
  | .rcp _ d _ | .rsq _ d _ | .sqrt _ d _ | .log2 _ d _ | .exp2 _ d _ | .sin _ d _ | .cos _ d _ | .tanh _ d _
  | .sigm _ d _ => d.dst
  | .ldn _ _ _ d a | .lds _ _ _ d a => d.dst && a.adr
  | .st _ _ _ _ a => a.adr
  | .ldx _ _ _ _ d a b => d.dst && a.adr && b.adr
  | .stx _ _ _ _ a b => a.adr && b.adr
  | .ldfeKeep _ _ d a b | .ldfeTake _ _ d a b | .ldfePeek _ _ d a b => d.dst && a.adr && b.adr
  | .stfeFill _ _ _ a b | .stfeForce _ _ _ a b | .stfeClear _ _ a b => a.adr && b.adr
  | .atomAdd _ _ _ d a _ | .atomMin _ _ _ d a _ | .atomMax _ _ _ d a _ | .atomMinn _ _ _ d a _
  | .atomMaxn _ _ _ d a _ | .atomAnd _ _ _ d a _ | .atomOr _ _ _ d a _ | .atomXor _ _ _ d a _
  | .atomSwap _ _ _ d a _ | .atomCas _ _ _ d a _ | .atomFaddF32 _ _ d a _ => d.dst && a.adr
  | .cupdAdd _ _ a _ | .cupdMin _ _ a _ | .cupdMax _ _ a _ | .cupdOr _ _ a _ | .cupdFaddF32 _ a _ => a.adr
  | .fence .. | .cend .. | .migr .. | .stay .. => true
  | .home _ d _ => d.dst
  | .linit _ a => a.adr
  | .lmove _ d a b => d.dst && a.adr && b.adr
  | .lpop _ d a => d.dst && a.adr
  | .stbind _ _ a => a.adr
  | .stfree .. => true
  | .ststat _ _ d => d.dst
  | .xcopyCopy .. | .xcopyFill .. | .xcopyPack .. | .xcopyUnpack .. => true
  | .fork _ d _ _ | .slstart _ d _ _ => d.dst
  | .fget _ d a => d.dst && a.adr
  | .fput _ a _ => a.adr
  | .exit .. | .yield .. | .wake .. | .gang .. | .ungang .. => true
  | .slreap _ d _ | .slquery _ d _ | .recv _ d _ | .mbstat _ d _ | .wqget _ d _ | .wqlen _ d _ | .poolid _ d => d.dst
  | .barinit _ a _ | .barwait _ a _ | .barleave _ a => a.adr
  | .bararr _ d a => d.dst && a.adr
  | .send .. | .wqput .. | .turn .. | .turnReg .. | .trap .. | .eret .. | .cwr .. | .brk .. | .lcset .. | .halt .. =>
      true
  | .crd _ _ d | .lcget _ _ d => d.dst
  | .vadd .. | .vaddScalar .. | .vsub .. | .vsubScalar .. | .vmul .. | .vmulScalar .. | .vfma .. | .vfmaScalar ..
  | .vmin .. | .vminScalar .. | .vmax .. | .vmaxScalar .. | .vabs .. | .vneg .. | .vsel .. | .vselScalar .. | .vand ..
  | .vandScalar .. | .vor .. | .vorScalar .. | .vxor .. | .vxorScalar .. | .vtern .. => true
  | .vcmp _ t c _ _ _ | .vcmpScalar _ t c _ _ _ => t.isF32 || decide (c.val < 4)
  | .vshl _ t _ _ _ _ | .vshlScalar _ t _ _ _ _ | .vshr _ t _ _ _ _ | .vshrScalar _ t _ _ _ _ | .vpopc _ t _ _ _ =>
      !t.isF32
  | .vcvt .. | .vcvte .. | .vlog2 .. | .vexp2 .. | .vrcp .. | .vrsq .. | .vtanh .. | .vsigm .. | .vredadd ..
  | .vredmax .. => true
  | .vimax _ _ _ d _ _ | .vimaxScalar _ _ _ d _ _ => decide (d.val % 2 = 0)
  | .vscan .. | .vperm .. | .vpermScalar .. | .vbcast .. | .vbcastScalar .. | .vsplat .. => true
  | .vld _ x s _ _ a b => a.adr && b.adr && !(x && s == .b4)
  | .vst _ _ _ _ a b => a.adr && b.adr
  | .vldx _ x s _ _ a _ => a.adr && !(x && s == .b4)
  | .vstx _ _ _ _ a _ => a.adr
  | .vbitsLd _ _ a b | .vbitsSt _ _ a b => a.adr && b.adr
  | .vfence .. | .vrel .. | .vmand .. | .vmor .. | .vmxor .. | .vmnot .. | .vmset .. => true
  | .vbusy _ d | .vmget _ d _ => d.dst
  | .vimaxs _ _ d a => d.dst && decide (a.val % 2 = 0)
  | .mfmt .. | .mma .. | .mld .. | .mst .. | .mclr .. | .attn .. | .maskset .. => true
  | .mqry _ _ _ d _ | .mrecl _ _ _ d _ => d.dst
  | .kvapp _ _ _ _ d _ | .kvcommit _ _ _ _ d _ | .kvtrunc _ _ _ _ d _ => d.dst
  | .linfold _ _ _ d _ => d.dst
  | .pref .. | .rref .. | .rclass .. => true
  | .rcat _ _ _ d _ | .rsplitLo _ _ _ d _ | .rsplitHi _ _ _ d _ | .rsplice _ _ _ d _ | .rleaf _ _ _ d _
  | .ridx _ _ _ d _ | .rsum _ _ _ d _ | .rsumFix _ _ _ d _ | .rlen _ _ _ d _ | .rdrop _ _ _ d _
  | .rwalk _ _ _ d _ => d.dst
  | .trie _ d a _ | .uhold _ d a _ => d.dst && a.adr
  | .udec _ d _ => d.dst
  | .iqput _ _ _ d _ | .iqwave _ _ _ d _ | .iqcons _ _ _ d _ | .iqbind _ _ _ d _ | .iqbindStage _ _ _ d _
  | .iqprobe _ _ _ d _ | .iqupd _ _ _ d _ | .iqquiet _ _ _ d _ => d.dst
  | .iqget _ _ _ _ d _ => d.dst
  | .dictionaryCode .. => true
  | .divideComplete c | .sfuComplete c | .normaliserService c | .nqHop c | .strandArrival c => coreOk c
  | .fullEmptyRetest n => decide (n < 8388608)
  | .streamElementArrival c s _ | .streamDrain c s _ | .gangFormation c s | .barrierRelease c s | .svuComplete c s
  | .dictionaryLoad c s | .chunkCommit c s | .lockedReservation c s | .steal c s | .remoteWordAccess c s
  | .remoteReply c s _ | .translationWalk c s => slotOk c s
  | .wakeMessage .. | .pageService .. | .dmodeWrite .. | .ptrootWrite .. | .drtbaseWrite .. | .plbflush .. | .tcinv ..
  | .invalidationComplete | .migreq .. | .hwake .. | .meqidxWrite .. | .meqAnswer .. | .attctlGo ..
  | .attestationComplete | .powerCapTick .. | .registerWrite .. | .peerRequest .. | .peerStrandArrival .. | .scrubRead ..
  | .coldReset | .functionLevelReset | .powerOn | .meqbaseWrite .. | .hostAccess .. => true
  | .mailboxDelivery c _ => coreOk c
  | .omTurn k | .engineCompletion k _ | .iqgetWaitServe k _ | .sliceExpiry k | .cspreWrite k _ | .omcfgWrite k _
  | .controlCoreStart k | .controlCoreHalt k => clusterOk k
  | .pageMigration x | .migrationEpoch x => decide (x < 8)
  | .errorEntryExpiry x _ => decide (x < 16)
  | .hometabWrite i _ => decide (i < 4096)
  | .lqwidxWrite q _ | .launchPacket q | .fencePacket q | .fencePacketRecheck q | .signalPacket q | .copyPacket q
  | .modePacket q | .lqctlWrite q _ => decide (q < 64)
  | .lqnextWrite p _ | .blockDeal p => decide (p < 2)
  | .launchComplete l => decide (l < 65536)
  | .idleThreshold l b | .blockSwapOut l b | .denReadmit l b => decide (l < 65536) && decide (b < 16777216)
  | .linkRetransmit l c => decide (l < 18) && decide (c < 8)
  | .linkRetrain l _ => decide (l < 18)

end Sys2Proof
end

