-- ==== Sys2Proof/Decode.lean ====
section
/-! DEFINITION. The decoder and the encoder of instruction words and dictionary codes (R100 to R116, R313, R314, R373).
Every format of R105 is read as six fields: op [5:0], g [9:6], d [14:10], a [19:15], b [24:20], f [31:25]. -/

namespace Sys2Proof

/-- Why a unit is illegal: INFO[7:0] of the illegal-instruction trap (R312). -/
inductive Illegal where
  | majorOpcode | field | spec31 | writeId | addrQueue | badDictionary | eretOutside | ctrlReg
deriving DecidableEq, Repr

/-- The INFO code of each reason (R312). -/
def Illegal.code : Illegal → Nat
  | .majorOpcode => 0 | .field => 1 | .spec31 => 2 | .writeId => 3
  | .addrQueue => 4 | .badDictionary => 5 | .eretOutside => 6 | .ctrlReg => 7

/-- What a unit decodes to. `never` is a unit whose guard is 0b1000 and whose other fields are not all legal: only its major
opcode is checked (R313), and it does nothing. -/
inductive Decoded where
  | instr (i : Instr)
  | never
  | illegal (r : Illegal)
deriving DecidableEq, Repr

/-- The six fields of a word (R105). -/
structure Fields where
  op : Nat
  g : Nat
  d : Nat
  a : Nat
  b : Nat
  f : Nat
deriving DecidableEq, Repr

/-- The fields of a 32-bit word. -/
def fieldsOf (w : Half) : Fields :=
  let n := w.toNat
  { op := n % 64, g := n / 64 % 16, d := n / 1024 % 32, a := n / 32768 % 32, b := n / 1048576 % 32,
    f := n / 33554432 % 128 }

/-- The word of six fields. -/
def Fields.pack (x : Fields) : Half :=
  BitVec.ofNat 32 (x.op + 64 * x.g + 1024 * x.d + 32768 * x.a + 1048576 * x.b + 33554432 * x.f)

/-- Every field within its width. -/
def Fields.ok (x : Fields) : Prop := x.op < 64 ∧ x.g < 16 ∧ x.d < 32 ∧ x.a < 32 ∧ x.b < 32 ∧ x.f < 128

/-! ### Codes of the enumerations -/

/-- Register specifiers (R107). -/
def Reg.code : Reg → Nat
  | .m n => n.val | .s n => 16 + n.val | .l n => 22 + n.val
  | .z => 24 | .nq => 25 | .st n => 26 + n.val | .id => 30

/-- The register a specifier below 31 names (R107); 31 never reaches a use, since `mkInstr` refuses it. -/
def Reg.ofCode (n : Nat) : Reg :=
  if h : n < 16 then .m ⟨n, h⟩
  else if h : n < 22 then .s ⟨n - 16, by omega⟩
  else if h : n < 24 then .l ⟨n - 22, by omega⟩
  else if n = 24 then .z
  else if n = 25 then .nq
  else if h : n < 30 then .st ⟨n - 26, by omega⟩
  else .id

/-- Guard bits (R104). -/
def Guard.code (g : Guard) : Nat := g.p.val + 8 * g.neg.toNat
def Guard.ofCode (n : Nat) : Guard := { neg := decide (8 ≤ n % 16), p := Fin.ofNat 8 n }

/-- Float type codes (R109). -/
def FType.code : FType → Nat
  | .f32 => 0 | .f16 => 1 | .bf16 => 2
def FType.ofCode : Nat → Option FType
  | 0 => some .f32 | 1 => some .f16 | 2 => some .bf16 | _ => none

/-- Type codes (R109). -/
def NumType.code : NumType → Nat
  | .i8 => 0 | .i16 => 1 | .i32 => 2 | .i64 => 3 | .n8 => 4 | .n16 => 5 | .n32 => 6 | .n64 => 7
  | .f32 => 8 | .f16 => 9 | .bf16 => 10 | .t8 => 11 | .t6 => 12
def NumType.ofCode : Nat → Option NumType
  | 0 => some .i8 | 1 => some .i16 | 2 => some .i32 | 3 => some .i64 | 4 => some .n8 | 5 => some .n16 | 6 => some .n32
  | 7 => some .n64 | 8 => some .f32 | 9 => some .f16 | 10 => some .bf16 | 11 => some .t8 | 12 => some .t6 | _ => none

/-- Destinations of CVTE by type code (R110). -/
def NarrowType.code : NarrowType → Nat
  | .i8 => 0 | .f16 => 9 | .bf16 => 10 | .t8 => 11 | .t6 => 12
def NarrowType.ofCode : Nat → Option NarrowType
  | 0 => some .i8 | 9 => some .f16 | 10 => some .bf16 | 11 => some .t8 | 12 => some .t6 | _ => none

/-- Destinations of VCVTE (R185). -/
def NarrowType.vcode : NarrowType → Nat
  | .i8 => 0 | .f16 => 1 | .bf16 => 2 | .t8 => 3 | .t6 => 4
def NarrowType.ofVcode : Nat → Option NarrowType
  | 0 => some .i8 | 1 => some .f16 | 2 => some .bf16 | 3 => some .t8 | 4 => some .t6 | _ => none

/-- Rounding codes (R88). -/
def Rnd.code : Rnd → Nat
  | .rne => 0 | .rtz => 1 | .rup => 2 | .rdn => 3 | .rna => 4 | .dyn => 7
def Rnd.ofCode : Nat → Option Rnd
  | 0 => some .rne | 1 => some .rtz | 2 => some .rup | 3 => some .rdn | 4 => some .rna | 7 => some .dyn | _ => none

/-- Scope codes (R109). -/
def Scope.code : Scope → Nat
  | .s => 0 | .c => 1 | .k => 2 | .d => 3 | .y => 4
def Scope.ofCode : Nat → Option Scope
  | 0 => some .s | 1 => some .c | 2 => some .k | 3 => some .d | 4 => some .y | _ => none

/-- Engine flag codes (R109). -/
def flagCode : Flag → Nat
  | none => 0 | some sc => 1 + sc.code
def flagOfCode : Nat → Option Flag
  | 0 => some none | 1 => some (some .s) | 2 => some (some .c) | 3 => some (some .k) | 4 => some (some .d)
  | 5 => some (some .y) | _ => none

/-- Integer conditions (R109). -/
def ICond.code : ICond → Nat
  | .eq => 0 | .ne => 1 | .lt => 2 | .ge => 3 | .ltn => 4 | .gen => 5
def ICond.ofCode : Nat → Option ICond
  | 0 => some .eq | 1 => some .ne | 2 => some .lt | 3 => some .ge | 4 => some .ltn | 5 => some .gen | _ => none

/-- Float conditions (R109). -/
def FCond.code : FCond → Nat
  | .eq => 0 | .ne => 1 | .lt => 2 | .le => 3 | .un => 4
def FCond.ofCode : Nat → Option FCond
  | 0 => some .eq | 1 => some .ne | 2 => some .lt | 3 => some .le | 4 => some .un | _ => none

/-- Combine codes (R109). -/
def Combine.code : Combine → Nat
  | .set => 0 | .and => 1 | .or => 2
def Combine.ofCode : Nat → Option Combine
  | 0 => some .set | 1 => some .and | 2 => some .or | _ => none

/-- Extension widths (R111). -/
def ExtW.code : ExtW → Nat
  | .w8 => 0 | .w16 => 1 | .w32 => 2
def ExtW.ofCode : Nat → Option ExtW
  | 0 => some .w8 | 1 => some .w16 | 2 => some .w32 | _ => none

/-- Modes of LDX (R113). -/
def LdMode.code : LdMode → Nat
  | .pred => 0 | .stay => 1 | .go => 2 | .y => 3 | .acq => 4
def LdMode.ofCode : Nat → Option LdMode
  | 0 => some .pred | 1 => some .stay | 2 => some .go | 3 => some .y | 4 => some .acq | _ => none

/-- Modes of STX (R113). -/
def StMode.code : StMode → Nat
  | .pred => 0 | .stay => 1 | .go => 2 | .y => 3 | .rel => 5
def StMode.ofCode : Nat → Option StMode
  | 0 => some .pred | 1 => some .stay | 2 => some .go | 3 => some .y | 5 => some .rel | _ => none

/-- Modes of ATOM (R110). -/
def AtMode.code : AtMode → Nat
  | .dev => 0 | .y => 1 | .acq => 2 | .rel => 3
def AtMode.ofCode : Nat → AtMode
  | 0 => .dev | 1 => .y | 2 => .acq | _ => .rel

/-- Gang sizes (R110). -/
def GangN.code : GangN → Nat
  | .two => 1 | .four => 2 | .eight => 3
def GangN.ofCode : Nat → Option GangN
  | 1 => some .two | 2 => some .four | 3 => some .eight | _ => none

/-- Control register numbers (R175). -/
def CtrlReg.code : CtrlReg → Nat
  | .tmode => 0x000 | .tdom => 0x001 | .flags => 0x002 | .tepc => 0x008 | .tcause => 0x009 | .taddr => 0x00A
  | .tvec => 0x00B | .tfut => 0x00C | .strandid => 0x010 | .cycle => 0x011
def CtrlReg.ofCode : Nat → Option CtrlReg
  | 0x000 => some .tmode | 0x001 => some .tdom | 0x002 => some .flags | 0x008 => some .tepc | 0x009 => some .tcause
  | 0x00A => some .taddr | 0x00B => some .tvec | 0x00C => some .tfut | 0x010 => some .strandid | 0x011 => some .cycle
  | _ => none

/-- Lane types (R114). -/
def LType.code : LType → Nat
  | .f32 => 0 | .i32 => 1 | .n32 => 2
def LType.ofCode : Nat → Option LType
  | 0 => some .f32 | 1 => some .i32 | 2 => some .n32 | _ => none

/-- The other types of VCVT (R185). -/
def VType.code : VType → Nat
  | .f32 => 0 | .i32 => 1 | .n32 => 2 | .f16 => 3 | .bf16 => 4 | .t8 => 5 | .t6 => 6 | .i8 => 7 | .i16 => 8
  | .n8 => 9 | .n16 => 10
def VType.ofCode : Nat → Option VType
  | 0 => some .f32 | 1 => some .i32 | 2 => some .n32 | 3 => some .f16 | 4 => some .bf16 | 5 => some .t8 | 6 => some .t6
  | 7 => some .i8 | 8 => some .i16 | 9 => some .n8 | 10 => some .n16 | _ => none

/-- Element sizes of vector memory (R189). -/
def ElSize.code : ElSize → Nat
  | .b4 => 0 | .b2 => 1 | .b1 => 2
def ElSize.ofCode : Nat → Option ElSize
  | 0 => some .b4 | 1 => some .b2 | 2 => some .b1 | _ => none

/-- Key sources of ATTN (R235): fn[2:1]. -/
def KeySrc.code : KeySrc → Nat
  | .rope => 0 | .window => 1 | .sp => 2
def KeySrc.ofCode : Nat → Option KeySrc
  | 0 => some .rope | 1 => some .window | 2 => some .sp | _ => none

/-! ### The decoder -/

/-- What a general-register field does in its instruction: read, written (or both), or part of an address (R314). -/
inductive Role where | src | dst | adr
deriving DecidableEq, Repr

/-- The instruction, unless a register field is illegal; the reasons in the order of R373. -/
def mkInstr (l : List (Role × Nat)) (i : Instr) : Decoded :=
  if l.any (fun p => p.2 == 31) then .illegal .spec31
  else if l.any (fun p => p.1 == .dst && p.2 == 30) then .illegal .writeId
  else if l.any (fun p => p.1 == .adr && decide (25 ≤ p.2) && decide (p.2 ≤ 29)) then .illegal .addrQueue
  else .instr i

/-- `y`, or reason 1 where a field requirement does not hold. -/
def need (c : Bool) (y : Decoded) : Decoded := if c then y else .illegal .field

/-- `k x` for a field with an assigned code, reason 1 for one without. -/
def withCode {α : Type} (o : Option α) (k : α → Decoded) : Decoded :=
  match o with
  | some x => k x
  | none => .illegal .field

/-- Three registers d, a, b; two, d and a; the register an unused field would name is required to be absent. -/
def fmt3 (x : Fields) (k : Reg → Reg → Reg → Instr) : Decoded :=
  mkInstr [(.dst, x.d), (.src, x.a), (.src, x.b)] (k (.ofCode x.d) (.ofCode x.a) (.ofCode x.b))
def fmt2 (x : Fields) (k : Reg → Reg → Instr) : Decoded :=
  need (x.b == 0) (mkInstr [(.dst, x.d), (.src, x.a)] (k (.ofCode x.d) (.ofCode x.a)))
/-- Only a; only d; none. -/
def fmtA (x : Fields) (k : Reg → Instr) : Decoded :=
  need (x.d == 0 && x.b == 0) (mkInstr [(.src, x.a)] (k (.ofCode x.a)))
def fmtD (x : Fields) (k : Reg → Instr) : Decoded :=
  need (x.a == 0 && x.b == 0) (mkInstr [(.dst, x.d)] (k (.ofCode x.d)))
def fmtNone (x : Fields) (i : Instr) : Decoded := need (x.d == 0 && x.a == 0 && x.b == 0) (.instr i)
/-- a and b, d unused. -/
def fmtAB (ra : Role) (x : Fields) (k : Reg → Reg → Instr) : Decoded :=
  need (x.d == 0) (mkInstr [(ra, x.a), (.src, x.b)] (k (.ofCode x.a) (.ofCode x.b)))
/-- a an address, d written. -/
def fmtDAddr (x : Fields) (k : Reg → Reg → Instr) : Decoded :=
  need (x.b == 0) (mkInstr [(.dst, x.d), (.adr, x.a)] (k (.ofCode x.d) (.ofCode x.a)))
/-- Address a + index b, d written or read. -/
def fmtIdx (rd : Role) (x : Fields) (k : Reg → Reg → Reg → Instr) : Decoded :=
  mkInstr [(rd, x.d), (.adr, x.a), (.adr, x.b)] (k (.ofCode x.d) (.ofCode x.a) (.ofCode x.b))
/-- Address a, data b, d written. -/
def fmtAtom (x : Fields) (k : Reg → Reg → Reg → Instr) : Decoded :=
  mkInstr [(.dst, x.d), (.adr, x.a), (.src, x.b)] (k (.ofCode x.d) (.ofCode x.a) (.ofCode x.b))

/-- E format (R105): the acquire and release flags. -/
def withFlags (x : Fields) (k : Flag → Flag → Decoded) : Decoded :=
  withCode (flagOfCode (x.b % 8)) fun q => withCode (flagOfCode (x.b / 8 + 4 * (x.f % 2))) fun r => k q r
/-- E format with d written (`dst`) or read (`src`). -/
def fmtE (rd : Role) (x : Fields) (k : Flag → Flag → Reg → Reg → Instr) : Decoded :=
  withFlags x fun q r => mkInstr [(rd, x.d), (.src, x.a)] (k q r (.ofCode x.d) (.ofCode x.a))
/-- E format with d = `z` required. -/
def fmtEA (x : Fields) (k : Flag → Flag → Reg → Instr) : Decoded :=
  withFlags x fun q r => need (x.d == 24) (mkInstr [(.src, x.a)] (k q r (.ofCode x.a)))

def bit (n k : Nat) : Bool := n / 2 ^ k % 2 == 1

/-- Group 0x00 (R111). -/
def decodeAlu (g : Guard) (x : Fields) : Decoded :=
  let w := bit x.f 6
  match x.f % 64 with
  | 0 => fmt3 x (.add g w) | 1 => fmt3 x (.sub g w) | 2 => fmt3 x (.and g w) | 3 => fmt3 x (.or g w)
  | 4 => fmt3 x (.xor g w) | 5 => fmt3 x (.andn g w) | 6 => fmt3 x (.orn g w) | 7 => fmt3 x (.sll g w)
  | 8 => fmt3 x (.srl g w) | 9 => fmt3 x (.sra g w) | 10 => fmt3 x (.rol g w) | 11 => fmt3 x (.ror g w)
  | 12 => fmt3 x (.min g w) | 13 => fmt3 x (.max g w) | 14 => fmt3 x (.minn g w) | 15 => fmt3 x (.maxn g w)
  | 16 => fmt3 x (.mul g w) | 17 => fmt3 x (.mulh g w) | 18 => fmt3 x (.mulhn g w)
  | 19 => fmt2 x (.clz g w) | 20 => fmt2 x (.ctz g w) | 21 => fmt2 x (.popc g w) | 22 => fmt2 x (.brev g w)
  | 23 => fmt2 x (.bswap g w)
  | 24 => withCode (ExtW.ofCode x.b) fun n => need (!(w && n == .w32))
      (mkInstr [(.dst, x.d), (.src, x.a)] (.sext g w n (.ofCode x.d) (.ofCode x.a)))
  | 25 => withCode (ExtW.ofCode x.b) fun n => need (!(w && n == .w32))
      (mkInstr [(.dst, x.d), (.src, x.a)] (.zext g w n (.ofCode x.d) (.ofCode x.a)))
  | _ => .illegal .field

/-- Groups 0x01 to 0x04: imm12 = f : b (R105). -/
def fmtRRI (x : Fields) (k : Reg → Reg → BitVec 12 → Instr) : Decoded :=
  mkInstr [(.dst, x.d), (.src, x.a)] (k (.ofCode x.d) (.ofCode x.a) (.ofNat 12 (x.b + 32 * x.f)))

/-- Group 0x05 (R110): amount = f[0] : b, kind f[3:1], `.w` f[4], f[6:5] = 0. -/
def decodeShi (g : Guard) (x : Fields) : Decoded :=
  let w := bit x.f 4
  let i : BitVec 6 := .ofNat 6 (x.b + 32 * (x.f % 2))
  let mk (k : Reg → Reg → BitVec 6 → Instr) : Decoded :=
    mkInstr [(.dst, x.d), (.src, x.a)] (k (.ofCode x.d) (.ofCode x.a) i)
  need (decide (x.f < 32) && !(w && decide (32 ≤ i.toNat)))
    (match x.f / 2 % 8 with
     | 0 => mk (.shiSll g w) | 1 => mk (.shiSrl g w) | 2 => mk (.shiSra g w) | 3 => mk (.shiRol g w)
     | 4 => mk (.shiRor g w) | _ => .illegal .field)

/-- Groups 0x06 and 0x07: imm17 = f : b : a (R105). -/
def fmtRI (x : Fields) (k : Reg → BitVec 17 → Instr) : Decoded :=
  mkInstr [(.dst, x.d)] (k (.ofCode x.d) (.ofNat 17 (x.a + 32 * x.b + 1024 * x.f)))

/-- Group 0x08 (R110). -/
def decodeCmp (g : Guard) (x : Fields) : Decoded :=
  need (decide (x.f < 32)) (withCode (Combine.ofCode (x.f / 8)) fun c => withCode (ICond.ofCode (x.f % 8)) fun n =>
    mkInstr [(.src, x.a), (.src, x.b)]
      (.cmp g c n (bit x.d 4) (Fin.ofNat 16 x.d) (.ofCode x.a) (.ofCode x.b)))

/-- Group 0x09: imm7 = f, combine = b[4:3], condition = b[2:0] (R105). -/
def decodeCmpi (g : Guard) (x : Fields) : Decoded :=
  withCode (Combine.ofCode (x.b / 8)) fun c => withCode (ICond.ofCode (x.b % 8)) fun n =>
    mkInstr [(.src, x.a)] (.cmpi g c n (bit x.d 4) (Fin.ofNat 16 x.d) (.ofCode x.a) (.ofNat 7 x.f))

/-- Group 0x0A (R110, R124). -/
def decodePred (g : Guard) (x : Fields) : Decoded :=
  let p3 (k : Fin 16 → Fin 16 → Fin 16 → Instr) : Decoded :=
    need (decide (x.d < 16) && decide (x.a < 16) && decide (x.b < 16))
      (.instr (k (Fin.ofNat 16 x.d) (Fin.ofNat 16 x.a) (Fin.ofNat 16 x.b)))
  match x.f with
  | 0 => p3 (.pand g) | 1 => p3 (.por g) | 2 => p3 (.pxor g)
  | 3 => need (decide (x.d < 16) && decide (x.a < 16) && x.b == 0)
      (.instr (.pnot g (Fin.ofNat 16 x.d) (Fin.ofNat 16 x.a)))
  | 4 => fmtD x (.pget g)
  | 5 => fmtA x (.pset g)
  | _ => .illegal .field

/-- Group 0x0E (R110). -/
def decodeBf (g : Guard) (x : Fields) : Decoded :=
  match x.f with
  | 0 => fmt3 x (.bfx g) | 1 => fmt3 x (.bfxs g) | 2 => fmt3 x (.bfi g) | _ => .illegal .field

/-- Group 0x0F (R110). -/
def decodeDiv (g : Guard) (x : Fields) : Decoded :=
  let w := bit x.f 6
  match x.f % 64 with
  | 0 => fmt3 x (.div g w) | 1 => fmt3 x (.divn g w) | 2 => fmt3 x (.rem g w) | 3 => fmt3 x (.remn g w)
  | _ => .illegal .field

/-- Group 0x10, 0x11: off22 = f : b : a : d (R105). -/
def off22Of (x : Fields) : BitVec 22 := .ofNat 22 (x.d + 32 * x.a + 1024 * x.b + 32768 * x.f)

/-- Group 0x12 (R110). -/
def decodeJmp (g : Guard) (x : Fields) : Decoded :=
  match x.f with
  | 0 => need (x.d == 0 && x.b == 0) (mkInstr [(.adr, x.a)] (.jmp g (.ofCode x.a)))
  | 1 => fmtDAddr x (.jmpl g)
  | _ => .illegal .field

/-- Group 0x13 (R112). -/
def decodeFalu (g : Guard) (x : Fields) : Decoded :=
  withCode (FType.ofCode (x.f / 4 % 4)) fun t =>
    match x.f % 4 with
    | 0 => withCode (Rnd.ofCode (x.f / 16)) fun r => fmt3 x (.fadd g r t)
    | 1 => withCode (Rnd.ofCode (x.f / 16)) fun r => fmt3 x (.fsub g r t)
    | 2 => withCode (Rnd.ofCode (x.f / 16)) fun r => fmt3 x (.fmul g r t)
    | _ =>
      match x.f / 16 with
      | 0 => fmt3 x (.fmin g t) | 1 => fmt3 x (.fmax g t) | 2 => fmt2 x (.fabs g t) | 3 => fmt2 x (.fneg g t)
      | 4 => fmt3 x (.fcpys g t) | 5 => fmt2 x (.fclass g t) | _ => .illegal .field

/-- Group 0x14 (R110). -/
def decodeFma (g : Guard) (x : Fields) : Decoded :=
  need (decide (x.f < 32)) (withCode (FType.ofCode (x.f % 4)) fun t => withCode (Rnd.ofCode (x.f / 4)) fun r =>
    fmt3 x (.fma g r t))

/-- Group 0x15 (R110). -/
def decodeFcmp (g : Guard) (x : Fields) : Decoded :=
  need (decide (x.d < 16)) (withCode (FType.ofCode (x.f % 4)) fun t => withCode (FCond.ofCode (x.f / 4 % 8)) fun n =>
    withCode (Combine.ofCode (x.f / 32)) fun c => mkInstr [(.src, x.a), (.src, x.b)]
      (.fcmp g c n t (Fin.ofNat 16 x.d) (.ofCode x.a) (.ofCode x.b)))

/-- Group 0x16 (R110): source type in b[3:0]. -/
def decodeCvt (g : Guard) (x : Fields) : Decoded :=
  withCode (NumType.ofCode (x.f % 16)) fun t => withCode (NumType.ofCode x.b) fun s =>
    withCode (Rnd.ofCode (x.f / 16)) fun r =>
      mkInstr [(.dst, x.d), (.src, x.a)] (.cvt g r t s (.ofCode x.d) (.ofCode x.a))

/-- Group 0x17 (R110): d and b are both written. -/
def decodeCvte (g : Guard) (x : Fields) : Decoded :=
  withCode (NarrowType.ofCode (x.f % 16)) fun t => withCode (Rnd.ofCode (x.f / 16)) fun r =>
    mkInstr [(.dst, x.d), (.src, x.a), (.dst, x.b)] (.cvte g r t (.ofCode x.d) (.ofCode x.a) (.ofCode x.b))

/-- Group 0x18 (R110). -/
def decodeSfu (g : Guard) (x : Fields) : Decoded :=
  match x.f with
  | 0 => fmt2 x (.rcp g) | 1 => fmt2 x (.rsq g) | 2 => fmt2 x (.sqrt g) | 3 => fmt2 x (.log2 g)
  | 4 => fmt2 x (.exp2 g) | 5 => fmt2 x (.sin g) | 6 => fmt2 x (.cos g) | 7 => fmt2 x (.tanh g)
  | 8 => fmt2 x (.sigm g) | _ => .illegal .field

/-- M format (R105): size = f[6:5], off10 = f[4:0] : b. -/
def fmtM (rd : Role) (x : Fields) (k : Fin 4 → BitVec 10 → Reg → Reg → Instr) : Decoded :=
  mkInstr [(rd, x.d), (.adr, x.a)]
    (k (Fin.ofNat 4 (x.f / 32)) (.ofNat 10 (x.b + 32 * (x.f % 32))) (.ofCode x.d) (.ofCode x.a))

/-- Group 0x1C (R113). -/
def decodeLdx (g : Guard) (x : Fields) : Decoded :=
  let s : Fin 4 := Fin.ofNat 4 x.f
  if bit x.f 2 then
    need (!bit x.f 3) (withCode (StMode.ofCode (x.f / 16)) fun m => fmtIdx .src x (.stx g m s))
  else withCode (LdMode.ofCode (x.f / 16)) fun m => fmtIdx .dst x (.ldx g m (bit x.f 3) s)

/-- Group 0x1D (R110). -/
def decodeLdfe (g : Guard) (x : Fields) : Decoded :=
  let s : Fin 4 := Fin.ofNat 4 x.f
  match x.f / 4 with
  | 0 => fmtIdx .dst x (.ldfeKeep g s) | 1 => fmtIdx .dst x (.ldfeTake g s) | 2 => fmtIdx .dst x (.ldfePeek g s)
  | _ => .illegal .field

/-- Group 0x1E (R110). -/
def decodeStfe (g : Guard) (x : Fields) : Decoded :=
  let s : Fin 4 := Fin.ofNat 4 x.f
  match x.f / 4 with
  | 0 => fmtIdx .src x (.stfeFill g s) | 1 => fmtIdx .src x (.stfeForce g s)
  | 2 => need (x.d == 24) (mkInstr [(.adr, x.a), (.adr, x.b)] (.stfeClear g s (.ofCode x.a) (.ofCode x.b)))
  | _ => .illegal .field

/-- Group 0x1F (R110). -/
def decodeAtom (g : Guard) (x : Fields) : Decoded :=
  let z := bit x.f 4
  let m := AtMode.ofCode (x.f / 32)
  match x.f % 16 with
  | 0 => fmtAtom x (.atomAdd g m z) | 1 => fmtAtom x (.atomMin g m z) | 2 => fmtAtom x (.atomMax g m z)
  | 3 => fmtAtom x (.atomMinn g m z) | 4 => fmtAtom x (.atomMaxn g m z) | 5 => fmtAtom x (.atomAnd g m z)
  | 6 => fmtAtom x (.atomOr g m z) | 7 => fmtAtom x (.atomXor g m z) | 8 => fmtAtom x (.atomSwap g m z)
  | 9 => fmtAtom x (.atomCas g m z) | 10 => need (!z) (fmtAtom x (.atomFaddF32 g m))
  | _ => .illegal .field

/-- Group 0x20 (R110, R145). -/
def decodeCupd (g : Guard) (x : Fields) : Decoded :=
  let z := bit x.f 3
  let mk (k : Reg → Reg → Instr) : Decoded := mkInstr [(.adr, x.a), (.src, x.b)] (k (.ofCode x.a) (.ofCode x.b))
  need (decide (x.f < 16) && x.d == 24)
    (match x.f % 8 with
     | 0 => mk (.cupdAdd g z) | 1 => mk (.cupdMin g z) | 2 => mk (.cupdMax g z) | 3 => mk (.cupdOr g z)
     | 4 => need (!z) (mk (.cupdFaddF32 g)) | _ => .illegal .field)

/-- Group 0x21 (R110). -/
def decodeSync (g : Guard) (x : Fields) : Decoded :=
  match x.f % 8 with
  | 0 => need (decide (x.f < 64)) (withCode (Scope.ofCode (x.f / 8)) fun sc => fmtNone x (.fence g sc))
  | 1 => need (x.f == 1) (fmtNone x (.cend g))
  | 2 => need (x.f == 2) (fmt2 x (.home g))
  | 3 => need (x.f == 3) (fmtA x (.migr g))
  | 4 => need (x.f == 4) (fmtNone x (.stay g))
  | _ => .illegal .field

/-- Group 0x22 (R110). -/
def decodeList (g : Guard) (x : Fields) : Decoded :=
  match x.f with
  | 0 => need (x.d == 24 && x.b == 0) (mkInstr [(.adr, x.a)] (.linit g (.ofCode x.a)))
  | 1 => fmtIdx .dst x (.lmove g)
  | 2 => fmtDAddr x (.lpop g)
  | _ => .illegal .field

/-- Group 0x23 (R110): b names the stream. -/
def decodeStream (g : Guard) (x : Fields) : Decoded :=
  need (decide (26 ≤ x.b) && decide (x.b ≤ 29))
    (match x.f with
     | 0 => need (x.d == 0) (mkInstr [(.adr, x.a)] (.stbind g (Fin.ofNat 4 (x.b - 26)) (.ofCode x.a)))
     | 1 => need (x.d == 0 && x.a == 0) (.instr (.stfree g (Fin.ofNat 4 (x.b - 26))))
     | 2 => need (x.a == 0) (mkInstr [(.dst, x.d)] (.ststat g (Fin.ofNat 4 (x.b - 26)) (.ofCode x.d)))
     | _ => .illegal .field)

/-- Group 0x24 (R110, R153): fn[2] h, fn[3] l, fn[4] e, fn[5] = 0. -/
def decodeXcopy (g : Guard) (x : Fields) : Decoded :=
  let fn := x.f / 2
  let h := bit fn 2
  let l := bit fn 3
  let e := bit fn 4
  need (!bit fn 5)
    (match fn % 4 with
     | 0 => fmtE .src x (.xcopyCopy g e l h) | 1 => fmtE .src x (.xcopyFill g e l h)
     | 2 => fmtE .src x (.xcopyPack g e l h) | _ => fmtE .src x (.xcopyUnpack g e l h))

/-- Group 0x25 (R110). -/
def decodeFork (g : Guard) (x : Fields) : Decoded :=
  match x.f with
  | 0 => fmt3 x (.fork g)
  | 1 => fmtDAddr x (.fget g)
  | 2 => fmtAB .adr x (.fput g)
  | 3 => fmtA x (.exit g)
  | 4 => fmtNone x (.yield g)
  | _ => .illegal .field

/-- Group 0x26 (R110). -/
def decodeSlot (g : Guard) (x : Fields) : Decoded :=
  match x.f with
  | 0 => fmt3 x (.slstart g) | 1 => fmt2 x (.slreap g) | 2 => fmt2 x (.slquery g) | 3 => fmtA x (.wake g)
  | _ => .illegal .field

/-- Group 0x27 (R110). -/
def decodeGang (g : Guard) (x : Fields) : Decoded :=
  need (decide (x.f < 8))
    (if bit x.f 0 then need (x.f == 1) (fmtNone x (.ungang g))
     else withCode (GangN.ofCode (x.f / 2)) fun n => fmtNone x (.gang g n))

/-- Group 0x28 (R110). -/
def decodeBar (g : Guard) (x : Fields) : Decoded :=
  match x.f with
  | 0 => fmtAB .adr x (.barinit g)
  | 1 => fmtDAddr x (.bararr g)
  | 2 => fmtAB .adr x (.barwait g)
  | 3 => need (x.d == 0 && x.b == 0) (mkInstr [(.adr, x.a)] (.barleave g (.ofCode x.a)))
  | _ => .illegal .field

/-- Group 0x29 (R110). -/
def decodeMbox (g : Guard) (x : Fields) : Decoded :=
  match x.f with
  | 0 => fmtAB .src x (.send g) | 1 => fmt2 x (.recv g) | 2 => fmt2 x (.mbstat g) | _ => .illegal .field

/-- The 15-bit number in [24:10] (R110). -/
def imm15Of (x : Fields) : BitVec 15 := .ofNat 15 (x.d + 32 * x.a + 1024 * x.b)

/-- Group 0x2A (R110). -/
def decodeWq (g : Guard) (x : Fields) : Decoded :=
  match x.f with
  | 0 => fmtAB .src x (.wqput g) | 1 => fmt2 x (.wqget g) | 2 => fmt2 x (.wqlen g)
  | 3 => .instr (.turn g (imm15Of x)) | 4 => fmtD x (.poolid g) | 11 => fmtA x (.turnReg g)
  | _ => .illegal .field

/-- Group 0x2B (R110, R175): a reserved control register number is reason 7. -/
def decodeSys (g : Guard) (x : Fields) : Decoded :=
  let ctrl (k : CtrlReg → Decoded) : Decoded :=
    match CtrlReg.ofCode (x.a + 32 * x.b) with
    | some n => k n
    | none => .illegal .ctrlReg
  match x.f with
  | 0 => .instr (.trap g (imm15Of x))
  | 1 => fmtNone x (.eret g)
  | 2 => ctrl fun n => mkInstr [(.dst, x.d)] (.crd g n (.ofCode x.d))
  | 3 => ctrl fun n => mkInstr [(.src, x.d)] (.cwr g n (.ofCode x.d))
  | 4 => fmtNone x (.brk g)
  | 5 => need (decide (x.b < 16) && x.d == 0) (mkInstr [(.src, x.a)] (.lcset g (Fin.ofNat 16 x.b) (.ofCode x.a)))
  | 6 => need (decide (x.b < 16) && x.a == 0) (mkInstr [(.dst, x.d)] (.lcget g (Fin.ofNat 16 x.b) (.ofCode x.d)))
  | 7 => fmtNone x (.halt g)
  | _ => .illegal .field

/-- Vector forms (R181): mask d[4:3], vd d[2:0], va a[2:0] with a[4:3] = 0. -/
def vform (x : Fields) (y : Decoded) : Decoded := need (decide (x.a < 8)) y
def fmtV3 (x : Fields) (k : Fin 4 → Fin 8 → Fin 8 → Fin 8 → Instr) : Decoded :=
  vform x (need (decide (x.b < 8))
    (.instr (k (Fin.ofNat 4 (x.d / 8)) (Fin.ofNat 8 x.d) (Fin.ofNat 8 x.a) (Fin.ofNat 8 x.b))))
def fmtV2 (x : Fields) (k : Fin 4 → Fin 8 → Fin 8 → Instr) : Decoded :=
  vform x (need (x.b == 0) (.instr (k (Fin.ofNat 4 (x.d / 8)) (Fin.ofNat 8 x.d) (Fin.ofNat 8 x.a))))
def fmtVS (x : Fields) (k : Fin 4 → Fin 8 → Fin 8 → Reg → Instr) : Decoded :=
  vform x (mkInstr [(.src, x.b)]
    (k (Fin.ofNat 4 (x.d / 8)) (Fin.ofNat 8 x.d) (Fin.ofNat 8 x.a) (.ofCode x.b)))

/-- Group 0x2C (R114, R183). -/
def decodeVrr (g : Guard) (x : Fields) : Decoded :=
  let lt (k : LType → Decoded) : Decoded := withCode (LType.ofCode (x.f / 32)) k
  let f32 (y : Decoded) : Decoded := need (decide (x.f < 32)) y
  match x.f % 32 with
  | 0 => lt fun t => fmtV3 x (.vadd g t) | 1 => lt fun t => fmtV3 x (.vsub g t) | 2 => lt fun t => fmtV3 x (.vmul g t)
  | 3 => lt fun t => fmtV3 x (.vfma g t) | 4 => lt fun t => fmtV3 x (.vmin g t) | 5 => lt fun t => fmtV3 x (.vmax g t)
  | 6 => lt fun t => fmtV2 x (.vabs g t) | 7 => lt fun t => fmtV2 x (.vneg g t)
  | 8 => lt fun t => need (decide (x.d < (if t.isF32 then 20 else 16)) && decide (x.a < 8) && decide (x.b < 8))
      (.instr (.vcmp g t (Fin.ofNat 5 (x.d / 4)) (Fin.ofNat 4 x.d) (Fin.ofNat 8 x.a) (Fin.ofNat 8 x.b)))
  | 9 => lt fun t => fmtV3 x (.vsel g t)
  | 10 => lt fun t => fmtV3 x (.vand g t) | 11 => lt fun t => fmtV3 x (.vor g t) | 12 => lt fun t => fmtV3 x (.vxor g t)
  | 13 => .instr (.vtern g (.ofNat 8 (64 * (x.f / 32) + 16 * (x.d / 8) + 4 * (x.a / 8) + x.b / 8))
      (Fin.ofNat 8 x.d) (Fin.ofNat 8 x.a) (Fin.ofNat 8 x.b))
  | 14 => lt fun t => need (!t.isF32) (fmtV3 x (.vshl g t))
  | 15 => lt fun t => need (!t.isF32) (fmtV3 x (.vshr g t))
  | 16 => lt fun t => vform x (withCode (VType.ofCode (x.b % 16)) fun o => .instr
      (.vcvt g t (bit x.b 4) o (Fin.ofNat 4 (x.d / 8)) (Fin.ofNat 8 x.d) (Fin.ofNat 8 x.a)))
  | 17 => vform x (need (decide (x.b < 8)) (withCode (NarrowType.ofVcode (4 * (x.f / 32) + x.d / 8)) fun n => .instr
      (.vcvte g n (Fin.ofNat 8 x.d) (Fin.ofNat 8 x.a) (Fin.ofNat 8 x.b))))
  | 18 => f32 (fmtV2 x (.vlog2 g)) | 19 => f32 (fmtV2 x (.vexp2 g)) | 20 => f32 (fmtV2 x (.vrcp g))
  | 21 => f32 (fmtV2 x (.vrsq g)) | 22 => f32 (fmtV2 x (.vtanh g)) | 23 => f32 (fmtV2 x (.vsigm g))
  | 24 => lt fun t => fmtV2 x (.vredadd g t) | 25 => lt fun t => fmtV2 x (.vredmax g t)
  | 26 => lt fun t => need (x.d % 2 == 0) (fmtV3 x (.vimax g t))
  | 27 => lt fun t => vform x (need (decide (x.d < 8) && x.b == 0)
      (.instr (.vscan g t (Fin.ofNat 8 x.d) (Fin.ofNat 8 x.a))))
  | 28 => lt fun t => fmtV3 x (.vperm g t) | 29 => lt fun t => fmtV3 x (.vbcast g t)
  | 31 => lt fun t => need (!t.isF32) (fmtV2 x (.vpopc g t))
  | _ => .illegal .field

/-- Group 0x2D (R114, R183): b names a general register. -/
def decodeVrs (g : Guard) (x : Fields) : Decoded :=
  withCode (LType.ofCode (x.f / 32)) fun t =>
    match x.f % 32 with
    | 0 => fmtVS x (.vaddScalar g t) | 1 => fmtVS x (.vsubScalar g t) | 2 => fmtVS x (.vmulScalar g t)
    | 3 => fmtVS x (.vfmaScalar g t) | 4 => fmtVS x (.vminScalar g t) | 5 => fmtVS x (.vmaxScalar g t)
    | 8 => need (decide (x.d < (if t.isF32 then 20 else 16)) && decide (x.a < 8)) (mkInstr [(.src, x.b)]
        (.vcmpScalar g t (Fin.ofNat 5 (x.d / 4)) (Fin.ofNat 4 x.d) (Fin.ofNat 8 x.a) (.ofCode x.b)))
    | 9 => fmtVS x (.vselScalar g t)
    | 10 => fmtVS x (.vandScalar g t) | 11 => fmtVS x (.vorScalar g t) | 12 => fmtVS x (.vxorScalar g t)
    | 14 => need (!t.isF32) (fmtVS x (.vshlScalar g t))
    | 15 => need (!t.isF32) (fmtVS x (.vshrScalar g t))
    | 26 => need (x.d % 2 == 0) (fmtVS x (.vimaxScalar g t))
    | 28 => fmtVS x (.vpermScalar g t) | 29 => fmtVS x (.vbcastScalar g t)
    | 30 => need (x.a == 0) (mkInstr [(.src, x.b)]
        (.vsplat g t (Fin.ofNat 4 (x.d / 8)) (Fin.ofNat 8 x.d) (.ofCode x.b)))
    | _ => .illegal .field

/-- Group 0x2E (R189, R190): size f[4:3], sign f[5], f[6] = 0. -/
def decodeVmem (g : Guard) (x : Fields) : Decoded :=
  let m : Fin 4 := Fin.ofNat 4 (x.d / 8)
  let d : Fin 8 := Fin.ofNat 8 x.d
  let sx := bit x.f 5
  let sized (k : ElSize → Decoded) : Decoded :=
    need (decide (x.f < 64)) (withCode (ElSize.ofCode (x.f / 8 % 4)) k)
  match x.f % 8 with
  | 0 => sized fun s => need (!(sx && s == .b4))
      (mkInstr [(.adr, x.a), (.adr, x.b)] (.vld g sx s m d (.ofCode x.a) (.ofCode x.b)))
  | 1 => sized fun s => need (!sx) (mkInstr [(.adr, x.a), (.adr, x.b)] (.vst g s m d (.ofCode x.a) (.ofCode x.b)))
  | 2 => sized fun s => need (!(sx && s == .b4) && decide (x.b < 8))
      (mkInstr [(.adr, x.a)] (.vldx g sx s m d (.ofCode x.a) (Fin.ofNat 8 x.b)))
  | 3 => sized fun s => need (!sx && decide (x.b < 8))
      (mkInstr [(.adr, x.a)] (.vstx g s m d (.ofCode x.a) (Fin.ofNat 8 x.b)))
  | 4 =>
    need (decide (x.d < 4)) (mkInstr' x)
  | _ => .illegal .field
where
  mkInstr' (x : Fields) : Decoded :=
    match x.f / 8 with
    | 0 => mkInstr [(.adr, x.a), (.adr, x.b)] (.vbitsLd g (Fin.ofNat 4 x.d) (.ofCode x.a) (.ofCode x.b))
    | 1 => mkInstr [(.adr, x.a), (.adr, x.b)] (.vbitsSt g (Fin.ofNat 4 x.d) (.ofCode x.a) (.ofCode x.b))
    | _ => .illegal .field

/-- Group 0x2F (R188). -/
def decodeVctl (g : Guard) (x : Fields) : Decoded :=
  let m3 (k : Fin 4 → Fin 4 → Fin 4 → Instr) : Decoded :=
    need (decide (x.d < 4) && decide (x.a < 4) && decide (x.b < 4))
      (.instr (k (Fin.ofNat 4 x.d) (Fin.ofNat 4 x.a) (Fin.ofNat 4 x.b)))
  match x.f % 32 with
  | 9 => withCode (LType.ofCode (x.f / 32)) fun t => need (decide (x.a < 8) && x.a % 2 == 0 && x.b == 0)
      (mkInstr [(.dst, x.d)] (.vimaxs g t (.ofCode x.d) (Fin.ofNat 8 x.a)))
  | _ =>
    match x.f with
    | 0 => fmtNone x (.vfence g)
    | 1 => fmtD x (.vbusy g)
    | 2 => fmtNone x (.vrel g)
    | 3 => m3 (.vmand g) | 4 => m3 (.vmor g) | 5 => m3 (.vmxor g)
    | 6 => need (decide (x.d < 4) && decide (x.a < 4) && x.b == 0)
        (.instr (.vmnot g (Fin.ofNat 4 x.d) (Fin.ofNat 4 x.a)))
    | 7 => need (decide (x.a < 4) && x.b == 0)
        (mkInstr [(.dst, x.d)] (.vmget g (.ofCode x.d) (Fin.ofNat 4 x.a)))
    | 8 => need (decide (x.d < 4) && x.b == 0)
        (mkInstr [(.src, x.a)] (.vmset g (Fin.ofNat 4 x.d) (.ofCode x.a)))
    | _ => .illegal .field

/-- Group 0x30 (R194). -/
def decodeMfmt (g : Guard) (x : Fields) : Decoded :=
  need (x.f == 0 && decide (x.d < 4) && x.b == 0)
    (mkInstr [(.src, x.a)] (.mfmt g (Fin.ofNat 4 x.d) (.ofCode x.a)))

/-- Group 0x31 (R110): fn[3:0] pA, fn[4] `.clr`, fn[5] `.guard`. -/
def decodeMma (g : Guard) (x : Fields) : Decoded :=
  fmtE .src x (.mma g (bit x.f 6) (bit x.f 5) (Fin.ofNat 16 (x.f / 2)))

/-- Group 0x32 (R110). -/
def decodeMacc (g : Guard) (x : Fields) : Decoded :=
  match x.f / 2 with
  | 0 => fmtE .src x (.mld g) | 1 => fmtE .src x (.mst g) | 2 => fmtEA x (.mclr g) | 3 => fmtE .dst x (.mqry g)
  | 4 => fmtE .dst x (.mrecl g) | _ => .illegal .field

/-- Group 0x33 (R235): fn[2:1] key source, fn[3] `.first`, fn[4] `.last`, fn[5] = 0. -/
def decodeAttn (g : Guard) (x : Fields) : Decoded :=
  let fn := x.f / 2
  if bit fn 0 then need (fn == 1) (fmtE .src x (.maskset g))
  else need (decide (fn < 32)) (withCode (KeySrc.ofCode (fn / 2 % 4)) fun s =>
    fmtE .src x (.attn g (bit fn 4) (bit fn 3) s))

/-- Group 0x34 (R110): fn[3] `.win`. -/
noncomputable def decodeKv (g : Guard) (x : Fields) : Decoded :=
  let fn := x.f / 2
  let w := bit fn 3
  need (decide (fn < 16))
    (match fn % 8 with
     | 0 => fmtE .dst x (.kvapp g w) | 1 => fmtE .dst x (.kvcommit g w) | 2 => fmtE .dst x (.kvtrunc g w)
     | 3 => need (!w) (fmtE .dst x (.linfold g)) | 4 => need (!w) (fmtEA x (.pref g)) | _ => .illegal .field)

/-- Group 0x35 (R110): fn[2] `.hi`. -/
noncomputable def decodeRedit (g : Guard) (x : Fields) : Decoded :=
  match x.f / 2 with
  | 0 => fmtE .dst x (.rcat g) | 1 => fmtE .dst x (.rsplitLo g) | 5 => fmtE .dst x (.rsplitHi g)
  | 2 => fmtE .dst x (.rsplice g) | _ => .illegal .field

/-- Group 0x36 (R110): fn[3] `.fix`. -/
noncomputable def decodeRope (g : Guard) (x : Fields) : Decoded :=
  match x.f / 2 with
  | 0 => fmtE .dst x (.rleaf g) | 1 => fmtE .dst x (.ridx g) | 2 => fmtE .dst x (.rsum g)
  | 10 => fmtE .dst x (.rsumFix g) | 3 => fmtE .dst x (.rlen g) | 4 => fmtEA x (.rref g)
  | 5 => fmtE .dst x (.rdrop g) | 6 => fmtE .dst x (.rwalk g) | 7 => fmtE .src x (.rclass g)
  | _ => .illegal .field

/-- Group 0x37 (R110). -/
noncomputable def decodeText (g : Guard) (x : Fields) : Decoded :=
  match x.f with
  | 0 => fmtAtom x (.trie g) | 1 => fmt2 x (.udec g) | 2 => fmtAtom x (.uhold g) | _ => .illegal .field

/-- Group 0x38 (R110): fn[2] `.wait`. -/
noncomputable def decodeIq (g : Guard) (x : Fields) : Decoded :=
  match x.f / 2 with
  | 0 => fmtE .dst x (.iqput g) | 1 => fmtE .dst x (.iqget g false) | 5 => fmtE .dst x (.iqget g true)
  | 2 => fmtE .dst x (.iqwave g) | 3 => fmtE .dst x (.iqcons g) | _ => .illegal .field

/-- Group 0x39 (R110): fn[2] `.stage`. -/
noncomputable def decodeIqctl (g : Guard) (x : Fields) : Decoded :=
  match x.f / 2 with
  | 0 => fmtE .dst x (.iqbind g) | 4 => fmtE .dst x (.iqbindStage g) | 1 => fmtE .dst x (.iqprobe g)
  | 2 => fmtE .dst x (.iqupd g) | 3 => fmtE .dst x (.iqquiet g) | _ => .illegal .field

/-- The opcode map (R110). -/
noncomputable def decodeGroup (g : Guard) (x : Fields) : Decoded :=
  match x.op with
  | 0x00 => decodeAlu g x
  | 0x01 => fmtRRI x (.addi g)
  | 0x02 => fmtRRI x (.andi g)
  | 0x03 => fmtRRI x (.ori g)
  | 0x04 => fmtRRI x (.xori g)
  | 0x05 => decodeShi g x
  | 0x06 => fmtRI x (.li g)
  | 0x07 => fmtRI x (.lis g)
  | 0x08 => decodeCmp g x
  | 0x09 => decodeCmpi g x
  | 0x0A => decodePred g x
  | 0x0B => need (decide (x.f < 16)) (fmt3 x (.sel g (Fin.ofNat 16 x.f)))
  | 0x0C => fmt3 x (.tern g (.ofNat 8 x.f))
  | 0x0D => fmt3 x (.tern g (.ofNat 8 (x.f + 128)))
  | 0x0E => decodeBf g x
  | 0x0F => decodeDiv g x
  | 0x10 => .instr (.br g (off22Of x))
  | 0x11 => .instr (.bl g (off22Of x))
  | 0x12 => decodeJmp g x
  | 0x13 => decodeFalu g x
  | 0x14 => decodeFma g x
  | 0x15 => decodeFcmp g x
  | 0x16 => decodeCvt g x
  | 0x17 => decodeCvte g x
  | 0x18 => decodeSfu g x
  | 0x19 => fmtM .dst x (.ldn g)
  | 0x1A => fmtM .dst x (.lds g)
  | 0x1B => fmtM .src x (.st g)
  | 0x1C => decodeLdx g x
  | 0x1D => decodeLdfe g x
  | 0x1E => decodeStfe g x
  | 0x1F => decodeAtom g x
  | 0x20 => decodeCupd g x
  | 0x21 => decodeSync g x
  | 0x22 => decodeList g x
  | 0x23 => decodeStream g x
  | 0x24 => decodeXcopy g x
  | 0x25 => decodeFork g x
  | 0x26 => decodeSlot g x
  | 0x27 => decodeGang g x
  | 0x28 => decodeBar g x
  | 0x29 => decodeMbox g x
  | 0x2A => decodeWq g x
  | 0x2B => decodeSys g x
  | 0x2C => decodeVrr g x
  | 0x2D => decodeVrs g x
  | 0x2E => decodeVmem g x
  | 0x2F => decodeVctl g x
  | 0x30 => decodeMfmt g x
  | 0x31 => decodeMma g x
  | 0x32 => decodeMacc g x
  | 0x33 => decodeAttn g x
  | 0x34 => decodeKv g x
  | 0x35 => decodeRedit g x
  | 0x36 => decodeRope g x
  | 0x37 => decodeText g x
  | 0x38 => decodeIq g x
  | 0x39 => decodeIqctl g x
  | _ => .illegal .majorOpcode

/-- A 32-bit word (R110, R313). A stored word whose bits [5:0] are 0x3E is a bad dictionary entry (R101). -/
noncomputable def decodeWord (w : Half) : Decoded :=
  let x := fieldsOf w
  if x.op == 0x3E then .illegal .badDictionary
  else
    match decodeGroup (.ofCode x.g) x with
    | .illegal .majorOpcode => .illegal .majorOpcode
    | .illegal r => if x.g == 8 then .never else .illegal r
    | y => y

/-- What the bytes at an address decode to, and how many bytes the unit takes (R100); `none` where they are too few. -/
noncomputable def decodeBytes : List Byte → Option (Decoded × Nat)
  | b0 :: b1 :: rest =>
    let p := b0.toNat + 256 * b1.toNat
    if p % 64 = 0x3E then some (.instr (.dictionaryCode (.ofNat 10 (p / 64))), 2)
    else
      match rest with
      | b2 :: b3 :: _ => some (decodeWord (.ofNat 32 (p + 65536 * b2.toNat + 16777216 * b3.toNat)), 4)
      | _ => none
  | _ => none

/-! ### The encoder -/

def rrr (op : Nat) (g : Guard) (d a b f : Nat) : Fields := { op, g := g.code, d, a, b, f }
def encE (op fn : Nat) (g : Guard) (q r : Flag) (d a : Nat) : Fields :=
  { op, g := g.code, d, a, b := flagCode q + 8 * (flagCode r % 4), f := 2 * fn + flagCode r / 4 }
def encRRI (op : Nat) (g : Guard) (d a : Reg) (i : BitVec 12) : Fields :=
  rrr op g d.code a.code (i.toNat % 32) (i.toNat / 32)
def encShi (kind : Nat) (g : Guard) (w : Bool) (d a : Reg) (i : BitVec 6) : Fields :=
  rrr 0x05 g d.code a.code (i.toNat % 32) (i.toNat / 32 + 2 * kind + 16 * w.toNat)
def encRI (op : Nat) (g : Guard) (d : Reg) (i : BitVec 17) : Fields :=
  rrr op g d.code (i.toNat % 32) (i.toNat / 32 % 32) (i.toNat / 1024)
def encB (op : Nat) (g : Guard) (o : BitVec 22) : Fields :=
  rrr op g (o.toNat % 32) (o.toNat / 32 % 32) (o.toNat / 1024 % 32) (o.toNat / 32768)
def encM (op : Nat) (g : Guard) (s : Fin 4) (o : BitVec 10) (d a : Reg) : Fields :=
  rrr op g d.code a.code (o.toNat % 32) (o.toNat / 32 + 32 * s.val)
def encAlu (f : Nat) (g : Guard) (w : Bool) (d a : Reg) (b : Nat) : Fields :=
  rrr 0x00 g d.code a.code b (f + 64 * w.toNat)
def encImm15 (f : Nat) (g : Guard) (t : BitVec 15) : Fields :=
  rrr (if f = 3 then 0x2A else 0x2B) g (t.toNat % 32) (t.toNat / 32 % 32) (t.toNat / 1024) f
def encAtom (k : Nat) (g : Guard) (m : AtMode) (z : Bool) (d a b : Reg) : Fields :=
  rrr 0x1F g d.code a.code b.code (k + 16 * z.toNat + 32 * m.code)
def encXcopy (k : Nat) (g : Guard) (e l h : Bool) (q r : Flag) (d a : Reg) : Fields :=
  encE 0x24 (k + 4 * h.toNat + 8 * l.toNat + 16 * e.toNat) g q r d.code a.code
def encV (op k : Nat) (g : Guard) (t : LType) (m : Fin 4) (d a : Fin 8) (b : Nat) : Fields :=
  rrr op g (d.val + 8 * m.val) a.val b (k + 32 * t.code)

/-- The fields of an instruction word (R105 to R114); none for a dictionary code and for an event. -/
def encodeFields : Instr → Option Fields
  | .add g w d a b => some (encAlu 0 g w d a b.code)
  | .sub g w d a b => some (encAlu 1 g w d a b.code)
  | .and g w d a b => some (encAlu 2 g w d a b.code)
  | .or g w d a b => some (encAlu 3 g w d a b.code)
  | .xor g w d a b => some (encAlu 4 g w d a b.code)
  | .andn g w d a b => some (encAlu 5 g w d a b.code)
  | .orn g w d a b => some (encAlu 6 g w d a b.code)
  | .sll g w d a b => some (encAlu 7 g w d a b.code)
  | .srl g w d a b => some (encAlu 8 g w d a b.code)
  | .sra g w d a b => some (encAlu 9 g w d a b.code)
  | .rol g w d a b => some (encAlu 10 g w d a b.code)
  | .ror g w d a b => some (encAlu 11 g w d a b.code)
  | .min g w d a b => some (encAlu 12 g w d a b.code)
  | .max g w d a b => some (encAlu 13 g w d a b.code)
  | .minn g w d a b => some (encAlu 14 g w d a b.code)
  | .maxn g w d a b => some (encAlu 15 g w d a b.code)
  | .mul g w d a b => some (encAlu 16 g w d a b.code)
  | .mulh g w d a b => some (encAlu 17 g w d a b.code)
  | .mulhn g w d a b => some (encAlu 18 g w d a b.code)
  | .clz g w d a => some (encAlu 19 g w d a 0)
  | .ctz g w d a => some (encAlu 20 g w d a 0)
  | .popc g w d a => some (encAlu 21 g w d a 0)
  | .brev g w d a => some (encAlu 22 g w d a 0)
  | .bswap g w d a => some (encAlu 23 g w d a 0)
  | .sext g w n d a => some (encAlu 24 g w d a n.code)
  | .zext g w n d a => some (encAlu 25 g w d a n.code)
  | .addi g d a i => some (encRRI 0x01 g d a i)
  | .andi g d a i => some (encRRI 0x02 g d a i)
  | .ori g d a i => some (encRRI 0x03 g d a i)
  | .xori g d a i => some (encRRI 0x04 g d a i)
  | .shiSll g w d a i => some (encShi 0 g w d a i)
  | .shiSrl g w d a i => some (encShi 1 g w d a i)
  | .shiSra g w d a i => some (encShi 2 g w d a i)
  | .shiRol g w d a i => some (encShi 3 g w d a i)
  | .shiRor g w d a i => some (encShi 4 g w d a i)
  | .li g d i => some (encRI 0x06 g d i)
  | .lis g d i => some (encRI 0x07 g d i)
  | .cmp g c n w p a b => some (rrr 0x08 g (p.val + 16 * w.toNat) a.code b.code (n.code + 8 * c.code))
  | .cmpi g c n w p a i => some (rrr 0x09 g (p.val + 16 * w.toNat) a.code (n.code + 8 * c.code) i.toNat)
  | .pand g d a b => some (rrr 0x0A g d.val a.val b.val 0)
  | .por g d a b => some (rrr 0x0A g d.val a.val b.val 1)
  | .pxor g d a b => some (rrr 0x0A g d.val a.val b.val 2)
  | .pnot g d a => some (rrr 0x0A g d.val a.val 0 3)
  | .pget g d => some (rrr 0x0A g d.code 0 0 4)
  | .pset g a => some (rrr 0x0A g 0 a.code 0 5)
  | .sel g p d a b => some (rrr 0x0B g d.code a.code b.code p.val)
  | .tern g t d a b => some (rrr (0x0C + t.toNat / 128) g d.code a.code b.code (t.toNat % 128))
  | .bfx g d a b => some (rrr 0x0E g d.code a.code b.code 0)
  | .bfxs g d a b => some (rrr 0x0E g d.code a.code b.code 1)
  | .bfi g d a b => some (rrr 0x0E g d.code a.code b.code 2)
  | .div g w d a b => some (rrr 0x0F g d.code a.code b.code (0 + 64 * w.toNat))
  | .divn g w d a b => some (rrr 0x0F g d.code a.code b.code (1 + 64 * w.toNat))
  | .rem g w d a b => some (rrr 0x0F g d.code a.code b.code (2 + 64 * w.toNat))
  | .remn g w d a b => some (rrr 0x0F g d.code a.code b.code (3 + 64 * w.toNat))
  | .br g o => some (encB 0x10 g o)
  | .bl g o => some (encB 0x11 g o)
  | .jmp g a => some (rrr 0x12 g 0 a.code 0 0)
  | .jmpl g d a => some (rrr 0x12 g d.code a.code 0 1)
  | .fadd g r t d a b => some (rrr 0x13 g d.code a.code b.code (0 + 4 * t.code + 16 * r.code))
  | .fsub g r t d a b => some (rrr 0x13 g d.code a.code b.code (1 + 4 * t.code + 16 * r.code))
  | .fmul g r t d a b => some (rrr 0x13 g d.code a.code b.code (2 + 4 * t.code + 16 * r.code))
  | .fmin g t d a b => some (rrr 0x13 g d.code a.code b.code (3 + 4 * t.code))
  | .fmax g t d a b => some (rrr 0x13 g d.code a.code b.code (3 + 4 * t.code + 16))
  | .fabs g t d a => some (rrr 0x13 g d.code a.code 0 (3 + 4 * t.code + 32))
  | .fneg g t d a => some (rrr 0x13 g d.code a.code 0 (3 + 4 * t.code + 48))
  | .fcpys g t d a b => some (rrr 0x13 g d.code a.code b.code (3 + 4 * t.code + 64))
  | .fclass g t d a => some (rrr 0x13 g d.code a.code 0 (3 + 4 * t.code + 80))
  | .fma g r t d a b => some (rrr 0x14 g d.code a.code b.code (t.code + 4 * r.code))
  | .fcmp g c n t p a b => some (rrr 0x15 g p.val a.code b.code (t.code + 4 * n.code + 32 * c.code))
  | .cvt g r x s d a => some (rrr 0x16 g d.code a.code s.code (x.code + 16 * r.code))
  | .cvte g r x d a b => some (rrr 0x17 g d.code a.code b.code (x.code + 16 * r.code))
  | .rcp g d a => some (rrr 0x18 g d.code a.code 0 0)
  | .rsq g d a => some (rrr 0x18 g d.code a.code 0 1)
  | .sqrt g d a => some (rrr 0x18 g d.code a.code 0 2)
  | .log2 g d a => some (rrr 0x18 g d.code a.code 0 3)
  | .exp2 g d a => some (rrr 0x18 g d.code a.code 0 4)
  | .sin g d a => some (rrr 0x18 g d.code a.code 0 5)
  | .cos g d a => some (rrr 0x18 g d.code a.code 0 6)
  | .tanh g d a => some (rrr 0x18 g d.code a.code 0 7)
  | .sigm g d a => some (rrr 0x18 g d.code a.code 0 8)
  | .ldn g s o d a => some (encM 0x19 g s o d a)
  | .lds g s o d a => some (encM 0x1A g s o d a)
  | .st g s o d a => some (encM 0x1B g s o d a)
  | .ldx g m x s d a b => some (rrr 0x1C g d.code a.code b.code (s.val + 8 * x.toNat + 16 * m.code))
  | .stx g m s d a b => some (rrr 0x1C g d.code a.code b.code (s.val + 4 + 16 * m.code))
  | .ldfeKeep g s d a b => some (rrr 0x1D g d.code a.code b.code s.val)
  | .ldfeTake g s d a b => some (rrr 0x1D g d.code a.code b.code (s.val + 4))
  | .ldfePeek g s d a b => some (rrr 0x1D g d.code a.code b.code (s.val + 8))
  | .stfeFill g s d a b => some (rrr 0x1E g d.code a.code b.code s.val)
  | .stfeForce g s d a b => some (rrr 0x1E g d.code a.code b.code (s.val + 4))
  | .stfeClear g s a b => some (rrr 0x1E g 24 a.code b.code (s.val + 8))
  | .atomAdd g m z d a b => some (encAtom 0 g m z d a b)
  | .atomMin g m z d a b => some (encAtom 1 g m z d a b)
  | .atomMax g m z d a b => some (encAtom 2 g m z d a b)
  | .atomMinn g m z d a b => some (encAtom 3 g m z d a b)
  | .atomMaxn g m z d a b => some (encAtom 4 g m z d a b)
  | .atomAnd g m z d a b => some (encAtom 5 g m z d a b)
  | .atomOr g m z d a b => some (encAtom 6 g m z d a b)
  | .atomXor g m z d a b => some (encAtom 7 g m z d a b)
  | .atomSwap g m z d a b => some (encAtom 8 g m z d a b)
  | .atomCas g m z d a b => some (encAtom 9 g m z d a b)
  | .atomFaddF32 g m d a b => some (encAtom 10 g m false d a b)
  | .cupdAdd g z a b => some (rrr 0x20 g 24 a.code b.code (0 + 8 * z.toNat))
  | .cupdMin g z a b => some (rrr 0x20 g 24 a.code b.code (1 + 8 * z.toNat))
  | .cupdMax g z a b => some (rrr 0x20 g 24 a.code b.code (2 + 8 * z.toNat))
  | .cupdOr g z a b => some (rrr 0x20 g 24 a.code b.code (3 + 8 * z.toNat))
  | .cupdFaddF32 g a b => some (rrr 0x20 g 24 a.code b.code 4)
  | .fence g sc => some (rrr 0x21 g 0 0 0 (8 * sc.code))
  | .cend g => some (rrr 0x21 g 0 0 0 1)
  | .home g d a => some (rrr 0x21 g d.code a.code 0 2)
  | .migr g a => some (rrr 0x21 g 0 a.code 0 3)
  | .stay g => some (rrr 0x21 g 0 0 0 4)
  | .linit g a => some (rrr 0x22 g 24 a.code 0 0)
  | .lmove g d a b => some (rrr 0x22 g d.code a.code b.code 1)
  | .lpop g d a => some (rrr 0x22 g d.code a.code 0 2)
  | .stbind g t a => some (rrr 0x23 g 0 a.code (26 + t.val) 0)
  | .stfree g t => some (rrr 0x23 g 0 0 (26 + t.val) 1)
  | .ststat g t d => some (rrr 0x23 g d.code 0 (26 + t.val) 2)
  | .xcopyCopy g e l h q r d a => some (encXcopy 0 g e l h q r d a)
  | .xcopyFill g e l h q r d a => some (encXcopy 1 g e l h q r d a)
  | .xcopyPack g e l h q r d a => some (encXcopy 2 g e l h q r d a)
  | .xcopyUnpack g e l h q r d a => some (encXcopy 3 g e l h q r d a)
  | .fork g d a b => some (rrr 0x25 g d.code a.code b.code 0)
  | .fget g d a => some (rrr 0x25 g d.code a.code 0 1)
  | .fput g a b => some (rrr 0x25 g 0 a.code b.code 2)
  | .exit g a => some (rrr 0x25 g 0 a.code 0 3)
  | .yield g => some (rrr 0x25 g 0 0 0 4)
  | .slstart g d a b => some (rrr 0x26 g d.code a.code b.code 0)
  | .slreap g d a => some (rrr 0x26 g d.code a.code 0 1)
  | .slquery g d a => some (rrr 0x26 g d.code a.code 0 2)
  | .wake g a => some (rrr 0x26 g 0 a.code 0 3)
  | .gang g n => some (rrr 0x27 g 0 0 0 (2 * n.code))
  | .ungang g => some (rrr 0x27 g 0 0 0 1)
  | .barinit g a b => some (rrr 0x28 g 0 a.code b.code 0)
  | .bararr g d a => some (rrr 0x28 g d.code a.code 0 1)
  | .barwait g a b => some (rrr 0x28 g 0 a.code b.code 2)
  | .barleave g a => some (rrr 0x28 g 0 a.code 0 3)
  | .send g a b => some (rrr 0x29 g 0 a.code b.code 0)
  | .recv g d a => some (rrr 0x29 g d.code a.code 0 1)
  | .mbstat g d a => some (rrr 0x29 g d.code a.code 0 2)
  | .wqput g a b => some (rrr 0x2A g 0 a.code b.code 0)
  | .wqget g d a => some (rrr 0x2A g d.code a.code 0 1)
  | .wqlen g d a => some (rrr 0x2A g d.code a.code 0 2)
  | .turn g t => some (encImm15 3 g t)
  | .turnReg g a => some (rrr 0x2A g 0 a.code 0 11)
  | .poolid g d => some (rrr 0x2A g d.code 0 0 4)
  | .trap g c => some (encImm15 0 g c)
  | .eret g => some (rrr 0x2B g 0 0 0 1)
  | .crd g n d => some (rrr 0x2B g d.code (n.code % 32) (n.code / 32) 2)
  | .cwr g n d => some (rrr 0x2B g d.code (n.code % 32) (n.code / 32) 3)
  | .brk g => some (rrr 0x2B g 0 0 0 4)
  | .lcset g n a => some (rrr 0x2B g 0 a.code n.val 5)
  | .lcget g n d => some (rrr 0x2B g d.code 0 n.val 6)
  | .halt g => some (rrr 0x2B g 0 0 0 7)
  | .vadd g t m d a b => some (encV 0x2C 0 g t m d a b.val)
  | .vaddScalar g t m d a b => some (encV 0x2D 0 g t m d a b.code)
  | .vsub g t m d a b => some (encV 0x2C 1 g t m d a b.val)
  | .vsubScalar g t m d a b => some (encV 0x2D 1 g t m d a b.code)
  | .vmul g t m d a b => some (encV 0x2C 2 g t m d a b.val)
  | .vmulScalar g t m d a b => some (encV 0x2D 2 g t m d a b.code)
  | .vfma g t m d a b => some (encV 0x2C 3 g t m d a b.val)
  | .vfmaScalar g t m d a b => some (encV 0x2D 3 g t m d a b.code)
  | .vmin g t m d a b => some (encV 0x2C 4 g t m d a b.val)
  | .vminScalar g t m d a b => some (encV 0x2D 4 g t m d a b.code)
  | .vmax g t m d a b => some (encV 0x2C 5 g t m d a b.val)
  | .vmaxScalar g t m d a b => some (encV 0x2D 5 g t m d a b.code)
  | .vabs g t m d a => some (encV 0x2C 6 g t m d a 0)
  | .vneg g t m d a => some (encV 0x2C 7 g t m d a 0)
  | .vcmp g t c v a b => some (rrr 0x2C g (v.val + 4 * c.val) a.val b.val (8 + 32 * t.code))
  | .vcmpScalar g t c v a b => some (rrr 0x2D g (v.val + 4 * c.val) a.val b.code (8 + 32 * t.code))
  | .vsel g t m d a b => some (encV 0x2C 9 g t m d a b.val)
  | .vselScalar g t m d a b => some (encV 0x2D 9 g t m d a b.code)
  | .vand g t m d a b => some (encV 0x2C 10 g t m d a b.val)
  | .vandScalar g t m d a b => some (encV 0x2D 10 g t m d a b.code)
  | .vor g t m d a b => some (encV 0x2C 11 g t m d a b.val)
  | .vorScalar g t m d a b => some (encV 0x2D 11 g t m d a b.code)
  | .vxor g t m d a b => some (encV 0x2C 12 g t m d a b.val)
  | .vxorScalar g t m d a b => some (encV 0x2D 12 g t m d a b.code)
  | .vtern g t d a b => some (rrr 0x2C g (d.val + 8 * (t.toNat / 16 % 4)) (a.val + 8 * (t.toNat / 4 % 4))
      (b.val + 8 * (t.toNat % 4)) (13 + 32 * (t.toNat / 64)))
  | .vshl g t m d a b => some (encV 0x2C 14 g t m d a b.val)
  | .vshlScalar g t m d a b => some (encV 0x2D 14 g t m d a b.code)
  | .vshr g t m d a b => some (encV 0x2C 15 g t m d a b.val)
  | .vshrScalar g t m d a b => some (encV 0x2D 15 g t m d a b.code)
  | .vcvt g t k o m d a => some (encV 0x2C 16 g t m d a (o.code + 16 * k.toNat))
  | .vcvte g x d a b => some (rrr 0x2C g (d.val + 8 * (x.vcode % 4)) a.val b.val (17 + 32 * (x.vcode / 4)))
  | .vlog2 g m d a => some (encV 0x2C 18 g .f32 m d a 0)
  | .vexp2 g m d a => some (encV 0x2C 19 g .f32 m d a 0)
  | .vrcp g m d a => some (encV 0x2C 20 g .f32 m d a 0)
  | .vrsq g m d a => some (encV 0x2C 21 g .f32 m d a 0)
  | .vtanh g m d a => some (encV 0x2C 22 g .f32 m d a 0)
  | .vsigm g m d a => some (encV 0x2C 23 g .f32 m d a 0)
  | .vredadd g t m d a => some (encV 0x2C 24 g t m d a 0)
  | .vredmax g t m d a => some (encV 0x2C 25 g t m d a 0)
  | .vimax g t m d a b => some (encV 0x2C 26 g t m d a b.val)
  | .vimaxScalar g t m d a b => some (encV 0x2D 26 g t m d a b.code)
  | .vscan g t d a => some (encV 0x2C 27 g t 0 d a 0)
  | .vperm g t m d a b => some (encV 0x2C 28 g t m d a b.val)
  | .vpermScalar g t m d a b => some (encV 0x2D 28 g t m d a b.code)
  | .vbcast g t m d a b => some (encV 0x2C 29 g t m d a b.val)
  | .vbcastScalar g t m d a b => some (encV 0x2D 29 g t m d a b.code)
  | .vsplat g t m d b => some (encV 0x2D 30 g t m d 0 b.code)
  | .vpopc g t m d a => some (encV 0x2C 31 g t m d a 0)
  | .vld g x s m d a b => some (rrr 0x2E g (d.val + 8 * m.val) a.code b.code (0 + 8 * s.code + 32 * x.toNat))
  | .vst g s m d a b => some (rrr 0x2E g (d.val + 8 * m.val) a.code b.code (1 + 8 * s.code))
  | .vldx g x s m d a b => some (rrr 0x2E g (d.val + 8 * m.val) a.code b.val (2 + 8 * s.code + 32 * x.toNat))
  | .vstx g s m d a b => some (rrr 0x2E g (d.val + 8 * m.val) a.code b.val (3 + 8 * s.code))
  | .vbitsLd g v a b => some (rrr 0x2E g v.val a.code b.code 4)
  | .vbitsSt g v a b => some (rrr 0x2E g v.val a.code b.code 12)
  | .vfence g => some (rrr 0x2F g 0 0 0 0)
  | .vbusy g d => some (rrr 0x2F g d.code 0 0 1)
  | .vrel g => some (rrr 0x2F g 0 0 0 2)
  | .vmand g d a b => some (rrr 0x2F g d.val a.val b.val 3)
  | .vmor g d a b => some (rrr 0x2F g d.val a.val b.val 4)
  | .vmxor g d a b => some (rrr 0x2F g d.val a.val b.val 5)
  | .vmnot g d a => some (rrr 0x2F g d.val a.val 0 6)
  | .vmget g d a => some (rrr 0x2F g d.code a.val 0 7)
  | .vmset g d a => some (rrr 0x2F g d.val a.code 0 8)
  | .vimaxs g t d a => some (rrr 0x2F g d.code a.val 0 (9 + 32 * t.code))
  | .mfmt g c a => some (rrr 0x30 g c.val a.code 0 0)
  | .mma g v c p q r d a => some (encE 0x31 (p.val + 16 * c.toNat + 32 * v.toNat) g q r d.code a.code)
  | .mld g q r d a => some (encE 0x32 0 g q r d.code a.code)
  | .mst g q r d a => some (encE 0x32 1 g q r d.code a.code)
  | .mclr g q r a => some (encE 0x32 2 g q r 24 a.code)
  | .mqry g q r d a => some (encE 0x32 3 g q r d.code a.code)
  | .mrecl g q r d a => some (encE 0x32 4 g q r d.code a.code)
  | .attn g l f s q r d a => some (encE 0x33 (2 * s.code + 8 * f.toNat + 16 * l.toNat) g q r d.code a.code)
  | .maskset g q r d a => some (encE 0x33 1 g q r d.code a.code)
  | .kvapp g w q r d a => some (encE 0x34 (0 + 8 * w.toNat) g q r d.code a.code)
  | .kvcommit g w q r d a => some (encE 0x34 (1 + 8 * w.toNat) g q r d.code a.code)
  | .kvtrunc g w q r d a => some (encE 0x34 (2 + 8 * w.toNat) g q r d.code a.code)
  | .linfold g q r d a => some (encE 0x34 3 g q r d.code a.code)
  | .pref g q r a => some (encE 0x34 4 g q r 24 a.code)
  | .rcat g q r d a => some (encE 0x35 0 g q r d.code a.code)
  | .rsplitLo g q r d a => some (encE 0x35 1 g q r d.code a.code)
  | .rsplitHi g q r d a => some (encE 0x35 5 g q r d.code a.code)
  | .rsplice g q r d a => some (encE 0x35 2 g q r d.code a.code)
  | .rleaf g q r d a => some (encE 0x36 0 g q r d.code a.code)
  | .ridx g q r d a => some (encE 0x36 1 g q r d.code a.code)
  | .rsum g q r d a => some (encE 0x36 2 g q r d.code a.code)
  | .rsumFix g q r d a => some (encE 0x36 10 g q r d.code a.code)
  | .rlen g q r d a => some (encE 0x36 3 g q r d.code a.code)
  | .rref g q r a => some (encE 0x36 4 g q r 24 a.code)
  | .rdrop g q r d a => some (encE 0x36 5 g q r d.code a.code)
  | .rwalk g q r d a => some (encE 0x36 6 g q r d.code a.code)
  | .rclass g q r d a => some (encE 0x36 7 g q r d.code a.code)
  | .trie g d a b => some (rrr 0x37 g d.code a.code b.code 0)
  | .udec g d a => some (rrr 0x37 g d.code a.code 0 1)
  | .uhold g d a b => some (rrr 0x37 g d.code a.code b.code 2)
  | .iqput g q r d a => some (encE 0x38 0 g q r d.code a.code)
  | .iqget g w q r d a => some (encE 0x38 (1 + 4 * w.toNat) g q r d.code a.code)
  | .iqwave g q r d a => some (encE 0x38 2 g q r d.code a.code)
  | .iqcons g q r d a => some (encE 0x38 3 g q r d.code a.code)
  | .iqbind g q r d a => some (encE 0x39 0 g q r d.code a.code)
  | .iqbindStage g q r d a => some (encE 0x39 4 g q r d.code a.code)
  | .iqprobe g q r d a => some (encE 0x39 1 g q r d.code a.code)
  | .iqupd g q r d a => some (encE 0x39 2 g q r d.code a.code)
  | .iqquiet g q r d a => some (encE 0x39 3 g q r d.code a.code)
  | .divideComplete .. | .sfuComplete .. | .normaliserService .. | .fullEmptyRetest ..
  | .streamElementArrival .. | .streamDrain .. | .wakeMessage .. | .gangFormation .. | .barrierRelease ..
  | .mailboxDelivery .. | .nqHop .. | .omTurn .. | .svuComplete .. | .iqgetWaitServe .. | .dictionaryCode ..
  | .dictionaryLoad .. | .chunkCommit .. | .lockedReservation .. | .steal .. | .strandArrival ..
  | .remoteWordAccess .. | .remoteReply .. | .translationWalk .. | .pageService .. | .pageMigration ..
  | .migrationEpoch .. | .engineCompletion .. | .dmodeWrite .. | .ptrootWrite .. | .drtbaseWrite ..
  | .plbflush .. | .tcinv .. | .hometabWrite .. | .invalidationComplete | .migreq .. | .lqwidxWrite ..
  | .lqnextWrite .. | .launchPacket .. | .fencePacket .. | .fencePacketRecheck .. | .signalPacket ..
  | .copyPacket .. | .modePacket .. | .blockDeal .. | .launchComplete .. | .sliceExpiry .. | .cspreWrite ..
  | .idleThreshold .. | .blockSwapOut .. | .denReadmit .. | .hwake .. | .omcfgWrite .. | .meqidxWrite ..
  | .meqAnswer .. | .attctlGo .. | .attestationComplete | .powerCapTick .. | .registerWrite ..
  | .controlCoreStart .. | .controlCoreHalt .. | .hostAccess .. | .peerRequest .. | .peerStrandArrival ..
  | .linkRetransmit .. | .linkRetrain .. | .scrubRead .. | .errorEntryExpiry .. | .coldReset
  | .functionLevelReset | .powerOn | .lqctlWrite .. | .meqbaseWrite .. => none

/-- The bytes of an instruction as the stream holds them (R4, R100); none for an event. -/
def encode : Instr → Option (List Byte)
  | .dictionaryCode i => some (leBytesOfNat 2 (0x3E + 64 * i.toNat))
  | i => (encodeFields i).map fun x => leBytesOfNat 4 x.pack.toNat
where
  leBytesOfNat : Nat → Nat → List Byte
    | 0, _ => []
    | k + 1, n => BitVec.ofNat 8 n :: leBytesOfNat k (n / 256)

/-- Whether the constructor is a device event, which no word encodes. -/
def Instr.isEvent (i : Instr) : Bool := (encode i).isNone

/-- The instruction the decoder reads from one whose bits are `w`, numbered as spec/opcode_table.json numbers them: bit 0 is
the least significant bit of the first byte (R4); every bit at or above `nbits` is 0. -/
noncomputable def decodeTableWord (nbits w : Nat) : Option Instr :=
  let v := w % 2 ^ nbits
  match decodeBytes (encode.leBytesOfNat 4 v) with
  | some (.instr i, _) => some i
  | _ => none

end Sys2Proof
end

