-- ==== Sys2Proof/Machine/State.lean ====
section
/-! DEFINITION. The state of the device, all of it plain data: strands in slots, cores, clusters, dies, memory, the engines'
queues, launches, blocks and dens, the register window and the queues toward system software. The rule beside each field names
it; INVENTORY.md lists the reset values. -/

namespace Sys2Proof.Machine

/-! ### Tables -/

/-- A sparse table by number; an unlisted number holds the default its reader names. -/
abbrev Table (α : Type) := List (Nat × α)

def Table.get {α : Type} (d : α) : Table α → Nat → α
  | [], _ => d
  | (k, v) :: r, n => if k = n then v else Table.get d r n

/-- Write one entry, entries kept in rising order of number. -/
def Table.set {α : Type} : Table α → Nat → α → Table α
  | [], n, x => [(n, x)]
  | (k, v) :: r, n, x => if n < k then (n, x) :: (k, v) :: r else if n = k then (n, x) :: r else (k, v) :: Table.set r n x

/-! ### Memory -/

/-- Byte storage of the device: a list of cells, addresses rising, none holding what an unlisted address reads as. Addresses
are physical for main memory (0 to 2^40 − 1, R55), the window address of R42 for scratchpads and control-core local memories,
2^64 + a for host bus address a (R286; log 20), and 2^65 + a for offset a of the management core's 48 KiB local memory (R15). -/
abbrev Memory := List Host.Cell

/-- What an address that nothing has written reads as. DESIGN CHOICE (log 1). -/
def Memory.unlisted : Byte := 0

/-- The canonical form. -/
def Memory.wf : Memory → Bool
  | [] => true
  | [(_, b)] => b != Memory.unlisted
  | (a, b) :: (a', b') :: r => decide (a < a') && (b != Memory.unlisted) && Memory.wf ((a', b') :: r)

def Memory.read : Memory → Nat → Byte
  | [], _ => Memory.unlisted
  | (a, b) :: r, n => if a = n then b else if n < a then Memory.unlisted else Memory.read r n

/-- Write one byte, keeping the canonical form. -/
def Memory.write : Memory → Nat → Byte → Memory
  | [], n, x => if x = Memory.unlisted then [] else [(n, x)]
  | (a, b) :: r, n, x =>
    if n < a then (if x = Memory.unlisted then (a, b) :: r else (n, x) :: (a, b) :: r)
    else if n = a then (if x = Memory.unlisted then r else (n, x) :: r)
    else (a, b) :: Memory.write r n x

/-! ### The strand context (R25, R26, R28) -/

/-- A strand's context: the 256-byte line of R25, and the two facts of R28 and R335 that travel with the strand beside it. -/
structure Ctx where
  /-- m0–m15 at 0 to 15, s0–s5 at 16 to 21, l0–l1 at 22 and 23 (R25, R107). -/
  gpr : Vector Word 24
  /-- PC (R25). -/
  pc : Word
  /-- The predicate word p15…p0 (R25); bit 0 always reads as 1. -/
  pred : BitVec 16
  /-- Strand flags (R26). -/
  intrap : Bool
  leader : Bool
  gang : Bool
  pinq : Bool
  pins : Bool
  pinv : Bool
  parked : Bool
  guest : Bool
  /-- Strand id (R27), logical block index, launch number, TDOM (R45), future address, TMODE (R89). -/
  strandId : BitVec 32
  block : BitVec 24
  launch : BitVec 16
  tdom : BitVec 16
  future : Word
  tmode : BitVec 32
  /-- Fields of the identity word that follow from neither the slot nor the line (R28). -/
  bcore : Nat
  lane : Nat
  gsz : Nat
  /-- Fault sequence number of a parked or replaying strand (R330, R335). -/
  fseq : Option Nat
  /-- The device a strand shipped here came from (R288). -/
  foreign : Option Nat
deriving DecidableEq, Repr

/-- Registers of a slot that holds no strand. The spec gives no reset value for a strand's registers: DESIGN CHOICE zero
(log 2). -/
def Ctx.zero : Ctx :=
  { gpr := Vector.replicate 24 0, pc := 0, pred := 1, intrap := false, leader := false, gang := false, pinq := false,
    pins := false, pinv := false, parked := false, guest := false, strandId := 0, block := 0, launch := 0, tdom := 0,
    future := 0, tmode := 0, bcore := 0, lane := 0, gsz := 0, fseq := none, foreign := none }

/-- Vector registers and masks (R178). -/
structure Vec where
  v  : Vector (Vector (BitVec 32) 16) 8
  vm : Vector (BitVec 16) 4
deriving DecidableEq, Repr

def Vec.zero : Vec := { v := Vector.replicate 8 (Vector.replicate 16 0), vm := Vector.replicate 4 0 }

/-- A bound stream (R59, R150 to R152): its pattern, the next element to take or write, the elements fetched ahead (reads) or
committed and not yet drained (writes), and an element refused at its drain (R324). -/
structure Stream where
  base : Word
  size : Nat
  write : Bool
  counts : Vector Nat 4
  strides : Vector Int 4
  /-- Elements taken or written so far, by the strand. -/
  pos : Nat
  /-- Buffer: values of a read stream from element `pos` on, or of a write stream from element `drained` on. -/
  buf : List Word
  /-- Write stream: for each element of the buffer, the count of the die's commits at its chunk's commit (R61; log 91); and elements
  performed. -/
  seqs : List (BitVec 32)
  drained : Nat
  /-- An element refused when it drained: cause and INFO of its trap, and its address. -/
  refused : Option (Nat × Nat × Word)
  /-- The page a draining element found absent, or the poisoned unit it met (R329, R346). -/
  absent : Option Nat
  tainted : Option Nat
  /-- Which binding of the register this is (R152), and whether an element has gone to a peer and is not yet performed there. -/
  gen : Nat
  sent : Bool
deriving DecidableEq, Repr

/-- Operations of CUPD (R145) and of update-only lines (R56). -/
inductive CupdOp where | add | min | max | or | fadd
deriving DecidableEq, Repr

/-- Engine operations: one for each command of the engines' groups (R283). -/
inductive EngOp where
  | xcopyCopy (fe lc : Bool) | xcopyFill (fe lc : Bool) | xcopyPack (fe lc : Bool) | xcopyUnpack (fe lc : Bool)
  | mma (guard clr : Bool) (pA : Nat)
  | mld | mst | mclr | mqry | mrecl
  | attn (last first : Bool) (src : KeySrc) | maskset
  | kvapp (win : Bool) | kvcommit (win : Bool) | kvtrunc (win : Bool) | linfold | pref
  | rcat | rsplitLo | rsplitHi | rsplice
  | rleaf | ridx | rsum | rsumFix | rlen | rref | rdrop | rwalk | rclass
  | iqput | iqget (wait : Bool) | iqwave | iqcons | iqbind | iqbindStage | iqprobe | iqupd | iqquiet
deriving DecidableEq, Repr

/-- A rope class of a launch in the walkers (R207, R223), of this device or of the peer whose strand set it (R288): its descriptor's
bytes. -/
structure RopeClass where
  launch : Nat
  foreign : Option Nat
  index : Nat
  desc : List Byte
deriving DecidableEq, Repr

/-- An engine command (R73, R283): who issued it, the values it was issued with, and how far it is. -/
structure Cmd where
  id : Nat
  cluster : Nat
  eng : EngUnit
  op : EngOp
  acq : Flag
  rel : Flag
  /-- Values of d and a, whether a is `z` (no counter), and the register of a waited result (`none`: no result). -/
  d : Word
  a : Word
  aZ : Bool
  dst : Option Reg
  /-- The issuing core's format contexts at dispatch (R194). -/
  fmts : Vector Word 4
  core : Nat
  slot : Nat
  strandId : BitVec 32
  launch : BitVec 16
  block : BitVec 24
  dom : Nat
  /-- Commands the strand had issued and that had not completed (R73). -/
  after : List Nat
  /-- Loop counts and the launch's rope classes as they stood at dispatch (R154, R176, R215). -/
  lcs : Vector (BitVec 32) 16
  classes : List RopeClass
  /-- The peer that the strand came from (R288). -/
  foreign : Option Nat
  /-- The instruction's number in its gang (R34), and its address. -/
  gseq : Nat
  pc : Word
  /-- The descriptor or block read at dispatch, once read; why the command is refused, if dispatch found a reason: reason and
  address; and the answer of MQRY and MRECL (R154, R193, R318). -/
  desc : Option (List Byte)
  refused : Option (Nat × Nat)
  answer : Option Word
  /-- XCOPY: rows begun, writes of the last of them still to be made (address and bytes, with whether each byte is poisoned),
  and for scratchpad granules partly written, which bytes (R155). -/
  rows : Nat
  todo : List (Nat × List (Byte × Bool))
  part : Table Nat
  /-- IQGET.wait: held until a record stands at HEAD (R264). -/
  waiting : Bool
  /-- All is done but the completion, which waits for room, for a counter or for the writes of its release flag (R73, R338), and the result.
  XCOPY: it has begun (R73). -/
  ran : Bool
  value : Word
  begun : Bool
  /-- What writes since the command could begin have replaced of the granules it may read, oldest first, each with whether it was
  poisoned; and which the command has read, where it read an old one or could have (R323). -/
  olds : List (Nat × List Byte × Bool)
  chosen : List (Nat × Option (List Byte × Bool))
  /-- Poisoned units the command has reported (R352). -/
  reported : List Nat
  /-- The page the command is held on (R329), or the poisoned unit (R347). -/
  heldPage : Option Nat
  heldPoison : Option Nat
deriving DecidableEq, Repr

/-- A write of an asynchronous command that may be performed after its completion (R73): the command, its strand and launch
(none for a strand of a peer), the home of the bytes, their address and storage, the bytes, and whether they are poisoned (R346). For
a page of a peer the request has gone out and is not yet performed there: `dev` is the peer (R65, R72). -/
structure LateWrite where
  cmd : Nat
  dev : Option Nat
  taint : Bool
  strandId : BitVec 32
  launch : Option Nat
  home : Nat
  va : Nat
  sa : Nat
  bytes : List Byte
deriving DecidableEq, Repr

/-- Effects of a chunk held until it commits (R37, R158), in program order. -/
inductive Held where
  | store (sa va : Nat) (bytes : List Byte) (atomic : Bool)
  | fullBit (granule : Nat) (full : Bool)
  | cupd (sa va : Nat) (op : CupdOp) (size : Nat) (v : Nat)
  | fork (c : Ctx) (spill : Bool)
  | slstart (slot : Nat) (c : Ctx)
  | slreap (slot : Nat)
  | send (core mbox : Nat) (w : Word)
  | wqput (queue : Nat) (w : Word)
  | nqPush (w : Word)
  | wake (id : BitVec 32)
  | lcset (n : Fin 16) (v : BitVec 32)
  | mfmt (n : Fin 4) (w : Word)
  | turn (t : Nat)
  | streamOut (t : Fin 4) (w : Word)
  | engine (c : Cmd)
  | yield
  | exit
deriving DecidableEq, Repr

/-- Entries a chunk has taken from queues, returned to their heads if it is discarded (R158). -/
inductive Take where
  | nq (w : Word) | mbox (n : Nat) (w : Word) | wq (queue : Nat) (w : Word)
deriving DecidableEq, Repr

/-- One instruction in a follower's buffer (R34): the unit, whether a dictionary code named it (R101), its address, where the leader
went, its number, and whether the leader faulted at it (R311). -/
structure GangEntry where
  unit : Decoded
  code : Bool
  pc : Word
  next : Word
  seq : Nat
  faulted : Bool
deriving DecidableEq, Repr

/-- A slot's current chunk (R36, R37). -/
structure Chunk where
  isOpen : Bool
  /-- What a discard restores. -/
  snapCtx : Ctx
  snapTrap : Word × Word × Word
  snapVec : Vec
  snapStreams : Vector (Option Stream) 4
  count : Nat
  /-- Distinct lines read and written, by line number of the virtual address. -/
  reads : List Nat
  writes : List Nat
  /-- Lines of CUPDs: they join the write signature of the commit but are not read. -/
  upds : List Nat
  /-- Lines of the strand's SVU commands: they join the signatures and do not count (R180). -/
  vreads : List Nat
  vwrites : List Nat
  held : List Held
  takes : List Take
  /-- Lines that others have written since the chunk's first access (R37). -/
  seen : List Nat
  /-- Entries a follower has consumed, and instructions a leader has handed out, since the start (R34), and whether the strand has
  formed its gang in this chunk (R375). -/
  gtaken : List GangEntry
  gpushed : Nat
  formed : Bool
  /-- The strand has left its gang in this chunk at another's doing: released from its buffer, or at another member's trap (R34, R311). -/
  freed : Bool
  ended : Bool
  conflict : Bool
deriving DecidableEq, Repr

def Chunk.none : Chunk :=
  { isOpen := false, snapCtx := Ctx.zero, snapTrap := (0, 0, 0), snapVec := Vec.zero,
    snapStreams := Vector.replicate 4 Option.none, count := 0, reads := [], writes := [], upds := [], vreads := [], vwrites := [],
    held := [], takes := [], seen := [], gtaken := [], gpushed := 0, formed := false, freed := false, ended := false, conflict := false }

/-- What an access needs of its page (R46): bits 0 read, 1 write, 2 execute, 3 atomic. -/
abbrev Need := Nat

/-- An access that a slot's instruction is making at another core (R50), or that waits for a translation. -/
structure Req where
  va : Nat
  size : Nat
  need : Need
  /-- What a peer is asked to do where the page is its own (R286). -/
  op : PeerOp
deriving DecidableEq, Repr

/-- What came of such an access, by its address: where its bytes stand, the device whose page it is, what that peer answered, or the trap
it takes. -/
inductive Reply where
  | ok (va sa : Nat)
  | owner (va dev : Nat)
  | peer (va : Nat) (v : Word)
  | park (va : Nat)
  | fault (cause info : Nat) (addr : Word)
deriving DecidableEq, Repr

/-- Why a slot that holds a strand is not ready (R21, R23, R24). -/
inductive Wait where
  | dictionary
  | fetch (va : Nat)
  | walk (va die : Nat) (req : Option Req)
  | home (va : Nat)
  | request (r : Req)
  | reply (v : Reply)
  | peer (dev : Nat) (r : Req)
  | normaliser (left : Nat)
  | divider
  | sfu
  | fullEmpty (granule : Nat) (full : Bool)
  | barrier (sa gen : Nat)
  | nqEmpty | nqFull
  | mailbox (n : Nat)
  | outbound
  | wqEmpty (queue : Nat) | wqFull (queue : Nat)
  | streamEmpty (t : Fin 4) | streamFull (t : Fin 4) | streamDrain
  | gang
  | svu | svuFull
  | vimaxs (sup : Bool) (seq : Nat) (t : LType) (a : Fin 8)
  | engine (id : Nat) | engineFull (u : EngUnit)
  | refusal (info : Nat) (addr pc : Word) (gseq : Nat)
  | fence (ids : List Nat) (sc : Scope)
  | lock (lines : List Nat)
  | page (va : Nat)
  | poison (unit : Nat)
  | verdict
deriving DecidableEq, Repr

/-- Functions of two vector operands, and of one (R183). -/
inductive VBin where | add | sub | mul | fma | min | max | and | or | xor | shl | shr
deriving DecidableEq, Repr
inductive VUn where | abs | neg | popc | log2 | exp2 | rcp | rsq | tanh | sigm
deriving DecidableEq, Repr

/-- The b operand of a vector function: a vector register, or the scalar read at issue (R181). -/
inductive VSrc where
  | vec (b : Fin 8)
  | scalar
deriving DecidableEq, Repr

/-- SVU commands (R179): the functions of R183 to R187, vector memory (R189, R190) and masks (R188). `nothing` stands for a
cross-lane command that a gang member's guard suppressed (R192). -/
inductive SvuOp where
  | bin (f : VBin) (t : LType) (m : Fin 4) (d a : Fin 8) (b : VSrc)
  | un (f : VUn) (t : LType) (m : Fin 4) (d a : Fin 8)
  | cmp (t : LType) (c : Fin 5) (v : Fin 4) (a : Fin 8) (b : VSrc)
  | sel (m : Fin 4) (d a : Fin 8) (b : VSrc)
  | tern (t : BitVec 8) (d a b : Fin 8)
  | cvt (t : LType) (k : Bool) (o : VType) (m : Fin 4) (d a : Fin 8)
  | cvte (x : NarrowType) (d a b : Fin 8)
  | red (isMax : Bool) (t : LType) (m : Fin 4) (d a : Fin 8)
  | imax (t : LType) (m : Fin 4) (d a : Fin 8) (b : VSrc)
  | scan (t : LType) (d a : Fin 8)
  | perm (m : Fin 4) (d a : Fin 8) (b : VSrc)
  | bcast (m : Fin 4) (d a : Fin 8) (b : VSrc)
  | splat (m : Fin 4) (d : Fin 8)
  | ld (x : Bool) (s : ElSize) (m : Fin 4) (d : Fin 8)
  | st (s : ElSize) (m : Fin 4) (d : Fin 8)
  | ldx (x : Bool) (s : ElSize) (m : Fin 4) (d b : Fin 8)
  | stx (s : ElSize) (m : Fin 4) (d b : Fin 8)
  | bitsLd (v : Fin 4)
  | bitsSt (v : Fin 4)
  | mand (d a b : Fin 4)
  | mor (d a b : Fin 4)
  | mxor (d a b : Fin 4)
  | mnot (d a : Fin 4)
  | mset (d : Fin 4)
  | nothing
deriving DecidableEq, Repr

/-- A queued SVU command: its general-register operands as read at issue, TMODE as it stood then (R180), in a gang the number of
its instruction and the member's LANE and GSZ (R192), and its place in the core's order of issue (R179). -/
structure SvuCmd where
  op : SvuOp
  x : Word
  y : Word
  tmode : BitVec 32
  seq : Nat
  gang : Option (Nat × Nat)
  since : Nat
deriving DecidableEq, Repr

/-- What one member of a gang brings to a cross-lane command (R192): its lanes, a second operand's lanes, the lanes that take
part, and whether its guard suppresses it. -/
structure CrossIn where
  a : List (BitVec 32)
  b : List (BitVec 32)
  part : BitVec 16
  sup : Bool
deriving DecidableEq, Repr

/-- What a thread slot holds (R32, R34). -/
inductive Occ where
  | empty | running | finished
  | reserved (core slot : Nat)
deriving DecidableEq, Repr

/-- A thread slot and the strand in it. -/
structure Slot where
  occ : Occ
  ctx : Ctx
  /-- TEPC, TCAUSE, TADDR stay with the slot (R174). -/
  tepc : Word
  tcause : Word
  taddr : Word
  vec : Vec
  svuQ : List SvuCmd
  /-- Vector operands of its commands that the core's normaliser has still to serve (R182). -/
  vnorm : Nat
  /-- Executing again with each SVU command completing before the next unit (R317). -/
  svuSerial : Bool
  /-- Cross-lane commands of the current chunk that a gang has completed, by number: a discarded chunk executes again with what
  the other members brought (R192; log 32). -/
  cross : List (Nat × List CrossIn)
  streams : Vector (Option Stream) 4
  chunk : Chunk
  /-- Consecutive discards of the chunk that starts at one PC, and instructions still to be executed as locked chunks (R38). -/
  discardPc : Word
  discards : Nat
  lockLeft : Nat
  /-- Lines this slot's locked chunk holds reservations on (R38). -/
  reserved : List Nat
  /-- What the slot waits for, since when in the order of waiting, and what its accesses have brought back so far. -/
  wait : Option Wait
  ticket : Option Nat
  replies : List Reply
  /-- The slot's instruction has issued and has not completed: it completes without another turn (R22, R23); and the entries that it has
  taken from queues, which it holds while it waits (R158). -/
  begun : Bool
  kept : List Take
  /-- The unit being issued, which a gang's leader hands out (R34). -/
  unit : Decoded
  /-- The dictionary word found for the unit at PC (R101; log 13). -/
  dictWord : Option (BitVec 32)
  /-- The migration predictor (R51). -/
  predH : Nat
  predN : Nat
  /-- The buffer of a gang follower (R34), and the slot, 16 × core + slot, whose chunk formed its gang and has not committed: until then
  no chunk of the follower commits, and a discard of that chunk undoes the gang (R375; log 95). -/
  gbuf : List GangEntry
  formedBy : Option Nat
  /-- Number of the last instruction the leader handed out, or that a follower executed; how many the leader has handed out before it
  executes them; and whether a follower is released when its buffer is empty (R34, R311). -/
  gseq : Nat
  gskip : Nat
  releasing : Bool
deriving DecidableEq, Repr

def Slot.empty : Slot :=
  { occ := .empty, ctx := Ctx.zero, tepc := 0, tcause := 0, taddr := 0, vec := Vec.zero, svuQ := [], vnorm := 0, svuSerial := false, cross := [],
    streams := Vector.replicate 4 none, chunk := Chunk.none, discardPc := 0, discards := 0, lockLeft := 0, reserved := [],
    wait := none, ticket := none, replies := [], begun := false, kept := [], unit := .never, dictWord := none, predH := 0, predN := 0,
    gbuf := [], formedBy := none, gseq := 0, gskip := 0, releasing := false }

/-- A parked strand in a park store (R330): the slot that is its own, none for a guest (R332), and what the slot held. Its
context's PARKED flag is clear once it has been woken and waits for the slot (R334). -/
structure Parked where
  own : Option Nat
  slot : Slot
deriving DecidableEq, Repr

/-- A wake message on its way (R166, R334): the strand id, and the launch its strand must belong to, if any. -/
structure Wake where
  id : BitVec 32
  launch : Option (BitVec 16)
deriving DecidableEq, Repr

/-! ### Cores (R13) -/

/-- A first-level line's tag: line number of the virtual address, key and frame copied at fill (R47, R53), and which of its two
128-byte sectors are held and which are dirty (R55); `upd` marks an update-only line, whose words stand in State.upds (R56). -/
structure L1Line where
  line : Nat
  key : Nat
  pa : Nat
  valid : BitVec 2
  dirty : BitVec 2
  upd : Bool
deriving DecidableEq, Repr

/-- A line of an instruction cache (R55): line number of the virtual address, key and frame of its page, and the bytes of the sectors
held, which may be old ones (R103). -/
structure ILine where
  line : Nat
  key : Nat
  pa : Nat
  lo : Option (List Byte)
  hi : Option (List Byte)
deriving DecidableEq, Repr

/-- A line of a second-level slice (R55): line number of the physical address, sectors held and dirty. -/
structure L2Line where
  line : Nat
  valid : BitVec 2
  dirty : BitVec 2
deriving DecidableEq, Repr

/-- A translation: page base and size (log2), key, physical base, or the owning device (R53). -/
structure Xlat where
  va : Nat
  bits : Nat
  key : Nat
  pa : Nat
  peer : Option Nat
deriving DecidableEq, Repr

/-- An operation in a unit shared by a core's slots: the slot, where its result goes, and the result with its flags. -/
structure UnitOp where
  slot : Nat
  dst : Reg
  value : Word
  flags : BitVec 32
deriving DecidableEq, Repr

/-- A strand on its way to this core (R52). -/
structure Arrival where
  ctx : Ctx
  /-- The MIGR predictor value it carries (R147). -/
  predH : Nat
  predN : Nat
deriving DecidableEq, Repr

/-- A message on its way (R170, R340): mailbox, word, the core named, the block that core held when it was sent, and its place in the
order of commits. -/
structure Msg where
  since : Nat
  core : Nat
  mbox : Nat
  w : Word
  blk : Option (Nat × Nat × Nat)
deriving DecidableEq, Repr

structure CoreSt where
  /-- CYCLE (R6, R175) and the rotation: slots oldest first, and each slot's last issue (R22). -/
  cycle : Nat
  rot : List Nat
  issued : Table Nat
  /-- The block the core belongs to: launch, logical index, ordinal (R29). -/
  owner : Option (Nat × Nat × Nat)
  /-- The deque, top (oldest) first, and the number after the last victim's (R31). -/
  deque : List Ctx
  afterVictim : Nat
  parkStore : List Parked
  arrivals : List Arrival
  mboxes : Table (List Word)
  outbound : List Msg
  nqUp : List Word
  nqDown : List Word
  /-- Dictionary stores, the one used last first (R102). -/
  dicts : List (Nat × List (BitVec 32))
  fmts : Vector Word 4
  /-- PLB entries (DOM, KEY, rights), the one used last first (R47). -/
  plb : List (Nat × Nat × Nat)
  /-- First-level tags and the instruction cache, the one used last first (R55). -/
  l1 : List L1Line
  icache : List ILine
  divQ : List UnitOp
  sfuQ : List UnitOp
  /-- What the normaliser serves (R24): a slot, for the operands of its instruction, or 16 + slot, for a vector operand (R182). -/
  normQ : List Nat
  /-- TRCTL (R61). -/
  trBase : Word
  trEn : Bool
  trHead : Nat
deriving DecidableEq, Repr

/-- A core at reset. Format contexts: DESIGN CHOICE 0 (log 2); they are 0 at dealing (R194). -/
def CoreSt.reset : CoreSt :=
  { cycle := 0, rot := List.range 16, issued := [], owner := none, deque := [], afterVictim := 0, parkStore := [],
    arrivals := [], mboxes := [], outbound := [], nqUp := [], nqDown := [], dicts := [], fmts := Vector.replicate 4 0,
    plb := [], l1 := [], icache := [], divQ := [], sfuQ := [], normQ := [], trBase := 0, trEn := false, trHead := 0 }

/-! ### Clusters -/

/-- An accumulator slot (R198 to R202, R233, R293). Cells by row × 128 + column, unlisted cells +0. -/
structure AccSlot where
  cells : Table (BitVec 32)
  /-- Tag: launch, block, core, thread slot (R198). -/
  tag : Nat × Nat × Nat × Nat
  orph : Bool
  edat : Bool
  refused : Bool
  done : Nat
  /-- RMAX and RSUM per row, unlisted rows −∞ and +0 (R233). -/
  rmax : Table (BitVec 32)
  rsum : Table (BitVec 32)
  /-- Mask set: four intervals, enabled, low and high (R233). -/
  mask : List (Bool × Nat × Nat)
deriving DecidableEq, Repr

def AccSlot.maskReset : List (Bool × Nat × Nat) :=
  [(true, 0, 2 ^ 48 - 1), (false, 0, 0), (false, 0, 0), (false, 0, 0)]

def AccSlot.reset : AccSlot :=
  { cells := [], tag := (0, 0, 0, 0), orph := false, edat := false, refused := false, done := 0, rmax := [],
    rsum := [], mask := AccSlot.maskReset }

structure ClusterSt where
  lcs : Vector (BitVec 32) 16
  accs : Table AccSlot
  ropeClasses : List RopeClass
  /-- Work queues (R173). -/
  wqs : Table (List Word)
  /-- OMCFG, OMPOOL, OMSTAT, OMBATCH (R249). -/
  omcfg : Word
  ompool : Word
  omstat : Word
  ombatch : Word
  /-- CAPCTL, CAPSTAT (R356), EDLOG (R352). -/
  capctl : Word
  capstat : Word
  edlog : Word
  /-- Cycles that the scheduler has counted (R6), CSSLICE, CSSTAT, CSPRE (R278) with the cores of it that have not been empty since their
  bits were set (R280), KPARK, the next FSEQ (R336). -/
  clock : Nat
  slice : BitVec 32
  cost : BitVec 32
  slfl : Bool
  held : BitVec 8
  emptying : BitVec 8
  kpark : Word
  fseq : Nat
  /-- Turns offered to the occupancy monitor and not yet acted on (R173), and victims named by verdicts (R290), with their actions,
  that wait for a guarded or a poisoned granule (R196, R346). -/
  turns : List Nat
  named : List (Word × Nat)
  /-- DMODE.VICTIM as it stood when the pre-emption of the oldest of those turns began, which waits (R20). -/
  turnSoft : Option Bool
  /-- The control core: running, and the CCGO value it started from (R281); stopped by an error (R327); at its HALT, whose compare
  and swap of CCGO has still to be made. -/
  ccRun : Option Nat
  ccStopped : Bool
  ccHalting : Bool
deriving DecidableEq, Repr

def ClusterSt.reset : ClusterSt :=
  { lcs := Vector.replicate 16 0, accs := [], ropeClasses := [], wqs := [], omcfg := 0x00020100, ompool := 0, omstat := 0,
    ombatch := 0, clock := 0, capctl := 0x3000, capstat := 0, edlog := 0, slice := 0, cost := 0, slfl := false, held := 0, emptying := 0,
    kpark := 0x0010000000000010, fseq := 0, turns := [], named := [], turnSoft := none, ccRun := none, ccStopped := false, ccHalting := false }

/-! ### Dies -/

/-- An entry of a migration engine's hot table (R78): frame, count per die, last virtual address. -/
structure HotEntry where
  frame : Nat
  counts : Vector Nat 8
  va : Option Nat
deriving DecidableEq, Repr

structure DieSt where
  /-- Translation cache (R53), the one used last first. -/
  tc : List Xlat
  /-- Chunks committed by the die's arbiter (R61). -/
  commits : BitVec 32
  /-- Hot table, oldest entry first (R78). -/
  hot : List HotEntry
  /-- The eight second-level slices, the line used last first (R55). -/
  l2 : List L2Line
deriving DecidableEq, Repr

def DieSt.reset : DieSt := { tc := [], commits := 0, hot := [], l2 := [] }

/-- The last CUPD to a word of an update-only line: its slot, its chunk by the number among its die's (R61; log 91), its strand, and whether
a merge of the word has met poison that the strand has still to park at (R346; log 111). -/
structure UpdMark where
  slot : Nat
  commit : BitVec 32
  strand : BitVec 32
  met : Bool
deriving DecidableEq, Repr

def UpdMark.zero : UpdMark := { slot := 0, commit := 0, strand := 0, met := false }

/-- An update-only line (R56): holder, line of the virtual address, frame, operation, element size, touched words by offset in the line,
and the last CUPD to each of them. -/
structure UpdLine where
  core : Nat
  line : Nat
  pa : Nat
  op : CupdOp
  size : Nat
  words : Table Nat
  marks : Table UpdMark
deriving DecidableEq, Repr

/-! ### Launches, blocks, dens -/

/-- A launch that has started and not completed: the fields of its LAUNCH packet (R275, R276). -/
structure Launch where
  num : Nat
  queue : Nat
  prio : Nat
  bsz : Nat
  steal : Nat
  manual : Bool
  dom : Nat
  count : Nat
  entry : Word
  tvec : Word
  tfut : Word
  dict : Nat
  dcnt : Nat
  spill : Nat
  spl : Nat
  param : Word
  doneIdx : Nat
  doneEn : Bool
  dies : Nat
  /-- Blocks dealt so far, and complete. -/
  dealt : Nat
  complete : Nat
deriving DecidableEq, Repr

/-- What a den saves of one core (R339). -/
structure CoreSave where
  slots : Table Slot
  deque : List Ctx
  mboxes : Table (List Word)
  nqUp : List Word
  nqDown : List Word
  fmts : Vector Word 4
  parkStore : List Parked
deriving DecidableEq, Repr

/-- Why a block was swapped out (R341). -/
inductive SwapKind where | threshold | slice | vacation
deriving DecidableEq, Repr

/-- A den (R339): its frames, what they hold, the ORPH slots of the cluster it left and the frames' base. -/
structure Den where
  kind : SwapKind
  /-- Its pages must be served before it returns (R341, R343). -/
  pages : Bool
  frames : List Nat
  base : Nat
  cores : List CoreSave
  orphs : List Nat
  fromCluster : Nat
deriving DecidableEq, Repr

/-- Where a block is: waiting on a cluster (with a den, if it was swapped), on cores, or in a den not yet re-admittable. -/
inductive Place where
  | waiting (cluster : Nat) (den : Option Den)
  | running (base : Nat)
  | den (d : Den)
deriving DecidableEq, Repr

/-- What travels beside the line of a context in a spill ring: the core that spilled it, its BCORE and FSEQ, and its id, which stays
live there whatever is written over the line (R27, R28, R31, R335). -/
structure Spilled where
  core : Nat
  bcore : Nat
  fseq : Option Nat
  id : BitVec 32
deriving DecidableEq, Repr

/-- A block that is not complete (R29, R31, R337). -/
structure Block where
  launch : Nat
  index : Nat
  place : Place
  spillHead : Nat
  spillTail : Nat
  /-- The contexts in the spill ring, oldest first. -/
  spillSide : List Spilled
  /-- Idle count (R337), parked count at the last verdict or re-admission, cycles run since placement (R279). -/
  idle : Nat
  refusedAt : Option Nat
  run : Nat
  /-- A strand of the block has issued since the last scheduler cycle (R337). -/
  active : Bool
  /-- A swap has been decided and waits for its steps (R338). -/
  swapping : Option SwapKind
  /-- A HELD bit has named one of its cores, and the block has not left them (R280); and verdict 1 found no frames for it, and none has freed
  since (R339). -/
  vacate : Bool
  short : Bool
  /-- A threshold has been crossed since that decision (R343). -/
  crossed : Bool
deriving DecidableEq, Repr

/-! ### The register window and what faces system software -/

/-- Device registers (R19, R44, R78, R273 to R294, R334 to R353). -/
structure Regs where
  dmode : BitVec 32
  ptroot : Word
  drtbase : Word
  tcinvBusy : Bool
  hometab : Table (BitVec 16)
  migctl : Word
  migFail : Bool
  migBusy : Bool
  migfbase : Word
  mcbase : Word
  lqbase : Table Word
  lqctl : Table Word
  lqwidx : Table (BitVec 32)
  lqridx : Table (BitVec 32)
  lqnext : Table (BitVec 7)
  devid : Word
  lrtbase : Word
  meqbase : Word
  meqRidx : BitVec 32
  meqWidx : BitVec 32
  meqans0 : Word
  bootReady : Bool
  attctl : Word
  pwrK : Nat
  pwrCap : Nat
  denbase : Word
  dennum : Nat
  kvpol : Word
  errcnt : Word
  spare : Word
  log : List (List Byte)
deriving DecidableEq, Repr

/-- The register window after cold reset: each field at the value its table's Reset column gives (R8, R293). PTROOT, to which R53 gives
none, is 0 (DESIGN CHOICE, log 2). -/
def Regs.reset : Regs :=
  { dmode := 0, ptroot := 0, drtbase := 0, tcinvBusy := false, hometab := [], migctl := 0x04001000, migFail := false,
    migBusy := false, migfbase := 0, mcbase := 0, lqbase := [], lqctl := [], lqwidx := [], lqridx := [], lqnext := [],
    devid := 0, lrtbase := 0, meqbase := 0, meqRidx := 0, meqWidx := 0, meqans0 := 0, bootReady := false, attctl := 0,
    pwrK := 0, pwrCap := 0, denbase := 0, dennum := 0, kvpol := 0, errcnt := 0, spare := 0, log := [] }

/-- A management event record (R289, R290), and for a poisoned unit its storage address, by which an answer finds it (R347). -/
structure MeqRec where
  kind : Nat
  cluster : Nat
  seq : Nat
  arg0 : Word
  arg1 : Word
  arg2 : Word
  ref : Nat
deriving DecidableEq, Repr

/-- An absent page under service (R330, R333): its address, the log2 of its size, and whether a KIND 1 record was posted. -/
structure PageFault where
  va : Nat
  bits : Nat
  posted : Bool
deriving DecidableEq, Repr

/-- A page move that has been decided (R78): the page, the destination stack, the die whose engine moves it, whether MIGREQ
asked for it, and whether the next stack will do where that one's free list is empty. -/
structure Mig where
  va : Nat
  stack : Nat
  die : Nat
  asked : Bool
  either : Bool
deriving DecidableEq, Repr

/-- A packet in progress (R273, R276, R326, R329): its queue, its 64 bytes (none while its ring read waits, or where it is
faulty), how far a COPY has come, the launch it began, whether it waits for a verdict, and the page it waits for. -/
structure Packet where
  queue : Nat
  bytes : List Byte
  done : Nat
  launch : Option Nat
  stopped : Bool
  page : Option Nat
deriving DecidableEq, Repr

/-- How bad an error is (R344, R345, R353): one that its code corrects (or that a clean cached copy hides), one that it only
detects, and one in low-order payload bits, which a tolerant sector leaves. -/
inductive FlawKind where | corrected | uncorrectable | low
deriving DecidableEq, Repr

/-- An error that a store holds unseen until an access or a scrub finds it (R344): the storage address of its code unit, what it
is, and the store, numbered as R348 does; a cell of an accumulator slot (store 4) by 16,384 × (16 × cluster + slot) + row × 128
+ column; 5 the instruction cache of the core named. -/
structure Flaw where
  unit : Nat
  kind : FlawKind
  store : Nat
  core : Nat
deriving DecidableEq, Repr

/-- An entry of a stack's corrected-error table (R350, R351), oldest first: the frame, its count, the virtual address that the
access which opened it carried, whether the frame is a candidate for retirement, with DMODE.RETIRE as it stood then (R20), and
whether that has been reported. -/
structure CorrEntry where
  frame : Nat
  count : Nat
  va : Option Nat
  due : Bool
  soft : Bool
  posted : Bool
deriving DecidableEq, Repr

/-- A link (R354, R355): whether it is up, its consecutive failed retransmissions, and the retrainings in a row that failed. -/
structure LinkSt where
  up : Bool
  replays : Nat
  failed : Nat
deriving DecidableEq, Repr

def LinkSt.reset : LinkSt := { up := true, replays := 0, failed := 0 }
/-- Traffic passes: the link is up and does not retrain (R355). -/
def LinkSt.flows (x : LinkSt) : Bool := x.up && decide (x.replays < 16)

/-! ### The state -/

/-- Which agent moves next: a core's cycle, a cluster scheduler's (R6), the completion of an instruction that waited (R23), a control
core's instruction, an engine write still on its way, or an event of the table. -/
inductive Move where
  | tick (core : Nat)
  | sched (cluster : Nat)
  | finish (core slot : Nat)
  | ctrl (cluster : Nat)
  | late (n : Nat)
  | event (i : Instr)
deriving DecidableEq, Repr

/-- The device. -/
structure State where
  /-- The slot an instruction executes in: core and slot; core 512 + c is the control core of cluster c. The model's own. -/
  core : Nat
  slot : Nat
  /-- The moves to come: the agents' interleaving and the outside world's inputs. The model's own (log 3). -/
  agenda : List Move
  /-- Counters of the model: order of waiting, free values drawn (log 6), commands issued. -/
  ticket : Nat
  free : Nat
  cmdSeq : Nat
  mem : Memory
  /-- Full granules: 16,384 × core + granule (R58), rising. -/
  full : List Nat
  slots : Table Slot
  cores : Table CoreSt
  clusters : Table ClusterSt
  dies : Table DieSt
  cmds : List Cmd
  /-- Engine writes still on their way, oldest first (R73). -/
  late : List LateWrite
  upds : List UpdLine
  regs : Regs
  /-- Launch counter (R276), the next strand id (R27; log 15). -/
  launchSeq : Nat
  strandSeq : Nat
  launches : List Launch
  blocks : List Block
  /-- Parsers: the queue served last (R273), packets in progress. -/
  lastQueue : Table Nat
  packets : List Packet
  /-- Whether a queue of a parser has become ready since its last KIND 6 record (R273). -/
  lqFresh : Table Bool
  /-- Whether a parser's choice has been asked of system software and its packet has not started, and whether the record that asks still
  waits for room (R20, R289). -/
  lqAsked : Table Bool
  lqDue : Table Bool
  /-- Pending-fault tables, acting as one (R330). -/
  faults : List PageFault
  /-- Page moves decided and not yet made, oldest first (R77, R78). -/
  migs : List Mig
  /-- Wake messages not yet delivered, oldest first. -/
  wakes : List Wake
  /-- Event records waiting in the device, posted records not yet answered, and events that wait at their sources since the device
  holds 256 records (R289). -/
  meqWait : List MeqRec
  meqOpen : List MeqRec
  meqPend : List MeqRec
  meqSeq : Nat
  /-- Vectors sent to the host (R276, R289), and requests sent to peers (R286): device, address, domain and request, newest
  last. -/
  msix : List Nat
  /-- What the host has read through its windows and what peers have been answered, oldest first; and requests of theirs that wait
  for an absent page (R284, R286, R329): BAR, offset and access, or link, domain, address and request. -/
  hostIn : List (List Byte)
  peerIn : List PeerAns
  hostHeld : List (Nat × Nat × HostAcc)
  peerHeld : List (Nat × Nat × Word × PeerOp)
  peerOut : List (Nat × Nat × Nat × PeerOp)
  /-- Poisoned granules and sectors, the store that lost each of them where it is not main memory or a scratchpad (R346, R348), and
  the bytes of a poisoned unit that one agent has since written clean, by agent, unit and mask; errors not yet found (R344),
  corrected-error tables (R350), retired frames (R351), and sectors that KVAPP wrote with tolerant bits (R353). -/
  poison : List Nat
  poisonStore : Table Nat
  covering : List (Nat × Nat × Nat)
  flaws : List Flaw
  corrected : List CorrEntry
  retired : List Nat
  tolerant : List Nat
  links : Table LinkSt
  /-- Strands shipped to peers and not come back, this device's own and those of peers that have gone on from here (R286, R288, R354): device,
  access address and context. -/
  shipped : List (Nat × Nat × Ctx)
  /-- Those of them that have been called back, since their block is to be swapped (R288). -/
  recalled : List (BitVec 32)
  /-- Strands of peers that faulted here and went home: device, strand id and address, 2^64 + unit for a poisoned unit (R332). -/
  foreignParked : List (Nat × BitVec 32 × Nat)
  /-- Contexts of peers' strands sent home whose receipt is not known, and what waits for a down link, in order: device, address, domain and
  request (R354, R355). -/
  homing : List (Nat × Nat × Nat × PeerOp)
  linkHeld : List (Nat × Nat × Nat × PeerOp)
  /-- Frames of an area of dens that was changed while a launch was resident, outside the new one: none is taken again (R328). -/
  denLost : List Nat
  /-- Register-window writes held while BUSY is 1 (R328): offset of the 8-byte word, its bits written, and the value. -/
  windowQ : List (Nat × Nat × Word)
  /-- The HOMETAB entry whose switch is in progress (R49). -/
  switching : Option Nat
deriving DecidableEq, Repr

/-- Why the machine stops with a fault. -/
inductive Fault where
  /-- An access to storage that the device does not have. No meaning raises it: R138 has every access checked against the map of
  R42, whose answer is a trap, before its bytes are reached, and a page entry names only frames of main memory (R53, R55). Safe. -/
  | noSuchAddress (a : Nat)
deriving DecidableEq, Repr

/-- Why an instruction has no meaning here. -/
inductive Refusal where
  /-- An instruction that has no meaning yet: raised by Dispatch alone. Safe. -/
  | notModelled (mnemonic : String)
  /-- The term stands for no word of the opcode map (R106): raised by meanings given an ill-formed instruction, which the
  decoder never yields. Safe (log 19). -/
  | illFormed
deriving DecidableEq, Repr

/-- The machine right after cold reset (R293): every slot, queue and cache empty, every register at its Reset value. -/
def State.reset : State :=
  { core := 0, slot := 0, agenda := [], ticket := 0, free := 0, cmdSeq := 0, mem := [], full := [], slots := [], cores := [],
    clusters := [], dies := [], cmds := [], late := [], upds := [], regs := Regs.reset, launchSeq := 0, strandSeq := 0, launches := [],
    blocks := [], lastQueue := [], packets := [], lqFresh := [], lqAsked := [], lqDue := [], faults := [], migs := [], wakes := []
    meqWait := [], meqOpen := [], meqPend := [], meqSeq := 0, msix := [], hostIn := [], peerIn := [], hostHeld := [], peerHeld := [], peerOut := []
    poison := [], poisonStore := [], covering := [], flaws := [], corrected := [], retired := [], tolerant := []
    links := [], shipped := [], recalled := [], foreignParked := [], homing := [], linkHeld := [], denLost := [], windowQ := [], switching := none }

end Sys2Proof.Machine
end

