-- ==== Sys2Proof/Machine/Bits.lean ====
section
/-! DEFINITION. Byte order (R4), bit fields and sign extension, used by every meaning. -/

namespace Sys2Proof.Machine

/-- The `n` bytes of `v`, lowest first (R4). -/
def leBytes : Nat → Nat → List Byte
  | 0, _ => []
  | n + 1, v => BitVec.ofNat 8 v :: leBytes n (v / 256)

/-- The number whose bytes are given lowest first. -/
def leNat : List Byte → Nat
  | [] => 0
  | b :: r => b.toNat + 256 * leNat r

/-- Bits [hi:lo]. -/
def bitsOf (v hi lo : Nat) : Nat := v / 2 ^ lo % 2 ^ (hi + 1 - lo)

def bitOf (v k : Nat) : Bool := v / 2 ^ k % 2 == 1

/-- A 64-bit word from a number, and from the low `w` bits sign-extended. -/
def wordN (n : Nat) : Word := BitVec.ofNat 64 n
def wordI (v : Int) : Word := BitVec.ofInt 64 v
def sextN (w n : Nat) : Word := wordI (signed w n)
where
  signed (w n : Nat) : Int :=
    let v := n % 2 ^ w
    if 2 * v < 2 ^ w then (v : Int) else (v : Int) - (2 : Int) ^ w

/-- Read bytes, and write them, from an address up. -/
def Memory.readN (m : Memory) (a n : Nat) : List Byte := (List.range n).map fun i => m.read (a + i)
def Memory.writeN (m : Memory) (a : Nat) : List Byte → Memory
  | [] => m
  | b :: r => Memory.writeN (m.write a b) (a + 1) r
def Memory.readNat (m : Memory) (a n : Nat) : Nat := leNat (m.readN a n)
def Memory.writeNat (m : Memory) (a n v : Nat) : Memory := m.writeN a (leBytes n v)

/-- A sorted list of numbers as a set. -/
def insertNat (n : Nat) : List Nat → List Nat
  | [] => [n]
  | k :: r => if n < k then n :: k :: r else if n = k then k :: r else k :: insertNat n r
def eraseNat (n : Nat) (l : List Nat) : List Nat := l.filter fun k => k != n

/-- Replace bits `hi` to `lo` of a register. -/
def putBits (w : Word) (hi lo v : Nat) : Word :=
  wordN (w.toNat - bitsOf w.toNat hi lo * 2 ^ lo + v % 2 ^ (hi + 1 - lo) * 2 ^ lo)

/-- The first of a list by the least value of a measure. -/
def leastBy {α : Type} (f : α → Nat) : List α → Option α
  | [] => none
  | x :: l =>
    match leastBy f l with
    | none => some x
    | some y => if f x ≤ f y then some x else some y

end Sys2Proof.Machine
end

