-- ==== Sys2Proof/Machine/Num.lean ====
section
/-! DEFINITION. Number formats, rounding and conversions, exact on integers (R79 to R93, R99's table of formats). -/

namespace Sys2Proof

/-! ### TMODE flags (R89), as masks of the register -/

abbrev NFlags := BitVec 32

def flNX : NFlags := 0x00020000
def flUF : NFlags := 0x00040000
def flOF : NFlags := 0x00080000
def flDZ : NFlags := 0x00100000
def flINV : NFlags := 0x00200000
def flSATR : NFlags := 0x00400000
def flSCUF : NFlags := 0x00800000
/-- All sticky flags of TMODE, [23:17]. -/
def flAll : NFlags := 0x00FE0000

def flagIf (c : Bool) (f : NFlags) : NFlags := if c then f else 0

/-- The rounding modes themselves (R88, codes 0 to 4). -/
inductive RMode where | rne | rtz | rup | rdn | rna
deriving DecidableEq, Repr

/-- TMODE.RM (R89); codes 5 to 7 never stand there. -/
def RMode.ofTmode (t : BitVec 32) : RMode :=
  match (t.extractLsb' 1 3).toNat with
  | 0 => .rne | 1 => .rtz | 2 => .rup | 3 => .rdn | 4 => .rna | _ => .rne

/-- The mode an instruction names, `.dyn` taken from TMODE.RM (R88). -/
def Rnd.resolve (r : Rnd) (tmode : BitVec 32) : RMode :=
  match r with
  | .rne => .rne | .rtz => .rtz | .rup => .rup | .rdn => .rdn | .rna => .rna
  | .dyn => .ofTmode tmode

/-! ### Integers -/

def bitLen (n : Nat) : Nat := if n = 0 then 0 else n.log2 + 1

/-- `n × 2^k`, rounded down for a negative `k`. -/
def shiftInt (n : Nat) (k : Int) : Nat :=
  match k with
  | .ofNat j => n * 2 ^ j
  | .negSucc j => n / 2 ^ (j + 1)

/-- Two's-complement reading of the low `w` bits. -/
def signedOf (w n : Nat) : Int :=
  let v := n % 2 ^ w
  if v < 2 ^ (w - 1) then (v : Int) else (v : Int) - (2 : Int) ^ w

/-- The low `w` bits of an integer. -/
def wrapTo (w : Nat) (v : Int) : Nat := (v % (2 : Int) ^ w).toNat

/-- floor of the square root, one result bit per unit of fuel. -/
def isqrtAux : Nat → Nat → Nat → Nat
  | 0, _, r => r
  | k + 1, n, r =>
    let t := r + 2 ^ k
    isqrtAux k n (if t * t ≤ n then t else r)
def isqrt (n : Nat) : Nat := isqrtAux (n.log2 / 2 + 1) n 0

/-! ### Rounding (R88) -/

/-- `n × 2^e`, plus a nonzero amount below its lowest bit if `sticky`, rounded to a multiple of `2^q`: the multiple, and
whether it is inexact. A caller with `sticky` keeps at least two bits below `q`. -/
def roundInt (mode : RMode) (neg : Bool) (n : Nat) (e q : Int) (sticky : Bool) : Nat × Bool :=
  let n' := if sticky then 4 * n + 1 else n
  let e' := if sticky then e - 2 else e
  if q ≤ e' then (n' * 2 ^ (e' - q).toNat, false)
  else
    let sh := (q - e').toNat
    let m := n' / 2 ^ sh
    let rem := n' % 2 ^ sh
    if rem = 0 then (m, false)
    else
      let up : Bool :=
        match mode with
        | .rne => decide (2 ^ sh < 2 * rem) || (decide (2 ^ sh = 2 * rem) && m % 2 == 1)
        | .rna => decide (2 ^ sh ≤ 2 * rem)
        | .rup => !neg
        | .rdn => neg
        | .rtz => false
      (if up then m + 1 else m, true)

/-! ### IEEE formats (R80) -/

/-- A binary interchange format: exponent and fraction widths. -/
structure FFmt where
  ebits : Nat
  fbits : Nat
deriving DecidableEq, Repr

def fmtF32 : FFmt := ⟨8, 23⟩
def fmtF16 : FFmt := ⟨5, 10⟩
def fmtBf16 : FFmt := ⟨8, 7⟩

def FType.fmt : FType → FFmt
  | .f32 => fmtF32 | .f16 => fmtF16 | .bf16 => fmtBf16

def FFmt.width (F : FFmt) : Nat := 1 + F.ebits + F.fbits
def FFmt.bias (F : FFmt) : Nat := 2 ^ (F.ebits - 1) - 1
def FFmt.signBit (F : FFmt) : Nat := 2 ^ (F.ebits + F.fbits)
/-- Bits of +∞, of the largest finite value, and of the canonical NaN (R80). -/
def FFmt.inf (F : FFmt) : Nat := (2 ^ F.ebits - 1) * 2 ^ F.fbits
def FFmt.largest (F : FFmt) : Nat := F.inf - 1
def FFmt.nan (F : FFmt) : Nat := F.inf + 2 ^ (F.fbits - 1)
def FFmt.withSign (F : FFmt) (neg : Bool) (mag : Nat) : Nat := if neg then F.signBit + mag else mag
/-- Least exponent of a normal value, and the exponent of the lowest bit of a subnormal. -/
def FFmt.emin (F : FFmt) : Int := 1 - (F.bias : Int)
def FFmt.qmin (F : FFmt) : Int := F.emin - F.fbits

/-- A number read from any format: NaN (signalling or not; NV counts as signalling, R92), infinity, or ±m × 2^e. -/
inductive FVal where
  | nan (sig : Bool)
  | inf (neg : Bool)
  | fin (neg : Bool) (m : Nat) (e : Int)
deriving DecidableEq, Repr

def FVal.isNan : FVal → Bool
  | .nan _ => true
  | _ => false
def FVal.isSig : FVal → Bool
  | .nan s => s
  | _ => false
def FVal.isZero : FVal → Bool
  | .fin _ m _ => m == 0
  | _ => false
def FVal.neg : FVal → Bool
  | .nan _ => false
  | .inf n => n
  | .fin n _ _ => n
def FVal.negate : FVal → FVal
  | .nan s => .nan s
  | .inf n => .inf (!n)
  | .fin n m e => .fin (!n) m e

/-- Whether the bits are a subnormal value. -/
def FFmt.isSub (F : FFmt) (bits : Nat) : Bool :=
  bits / 2 ^ F.fbits % 2 ^ F.ebits == 0 && bits % 2 ^ F.fbits != 0

/-- The value of a code, a subnormal read as a zero of its sign under FTZ (R80, R91). -/
def FFmt.read (F : FFmt) (ftz : Bool) (bits : Nat) : FVal :=
  let neg := bits / F.signBit % 2 == 1
  let ex := bits / 2 ^ F.fbits % 2 ^ F.ebits
  let fr := bits % 2 ^ F.fbits
  if ex = 0 then .fin neg (if ftz then 0 else fr) F.qmin
  else if ex = 2 ^ F.ebits - 1 then
    if fr = 0 then .inf neg else .nan (decide (fr < 2 ^ (F.fbits - 1)))
  else .fin neg (fr + 2 ^ F.fbits) ((ex : Int) - F.bias - F.fbits)

/-- The bits an operand is used as when it is passed on: a flushed subnormal is a zero of its sign (R91). -/
def FFmt.eff (F : FFmt) (ftz : Bool) (bits : Nat) : Nat :=
  let b := bits % 2 ^ F.width
  if ftz && F.isSub b then F.withSign (b / F.signBit % 2 == 1) 0 else b

/-- Round ±(n × 2^e) into a format: bits and flags (R88, R89, R91). Tininess is judged after rounding with an unbounded
exponent, as IEEE 754 defines it. DEDUCED (log 21). -/
def FFmt.round (F : FFmt) (mode : RMode) (ftz neg : Bool) (n : Nat) (e : Int) (sticky : Bool) : Nat × NFlags :=
  if n = 0 && !sticky then (F.withSign neg 0, 0)
  else
    let lead : Int := (bitLen n : Int) - 1 + e
    let q : Int := max lead F.emin - F.fbits
    let r := roundInt mode neg n e q sticky
    let mag := (q - F.qmin).toNat * 2 ^ F.fbits + r.1
    if F.inf ≤ mag then
      let big : Bool :=
        match mode with
        | .rne | .rna => true
        | .rup => !neg
        | .rdn => neg
        | .rtz => false
      (F.withSign neg (if big then F.inf else F.largest), flOF ||| flNX)
    else
      let tiny : Bool := r.2 && decide (lead < F.emin) &&
        decide ((roundInt mode neg n e (lead - F.fbits) sticky).1 < 2 ^ (F.fbits + (F.emin - lead).toNat))
      if ftz && decide (0 < mag) && decide (mag < 2 ^ F.fbits) then (F.withSign neg 0, flUF ||| flNX)
      else (F.withSign neg mag, flagIf r.2 flNX ||| flagIf tiny flUF)

/-- Round the ratio num / den (den > 0). -/
def FFmt.roundRatio (F : FFmt) (mode : RMode) (ftz neg : Bool) (num den : Nat) (e : Int) : Nat × NFlags :=
  let k := 80 + bitLen den - bitLen num
  let n := num * 2 ^ k
  F.round mode ftz neg (n / den) (e - k) (n % den != 0)

/-- A value rounded into a format, NaN as the canonical NaN, infinity as infinity (R81, R92). -/
def FFmt.ofVal (F : FFmt) (mode : RMode) (ftz : Bool) (v : FVal) : Nat × NFlags :=
  match v with
  | .nan s => (F.nan, flagIf s flINV)
  | .inf n => (F.withSign n F.inf, 0)
  | .fin n m e => F.round mode ftz n m e false

/-! ### Arithmetic (R81, R130 to R133) -/

/-- Exact sum of two finite values as sign, magnitude, exponent. -/
def addFin (n1 : Bool) (m1 : Nat) (e1 : Int) (n2 : Bool) (m2 : Nat) (e2 : Int) : Int × Int :=
  let e := min e1 e2
  let a : Int := (m1 * 2 ^ (e1 - e).toNat : Nat)
  let b : Int := (m2 * 2 ^ (e2 - e).toNat : Nat)
  ((if n1 then -a else a) + (if n2 then -b else b), e)

/-- Rounded sum of two values neither of which is NaN; an exact zero sum takes the sign of R81. -/
def FFmt.addVal (F : FFmt) (mode : RMode) (ftz : Bool) (x y : FVal) : Nat × NFlags :=
  match x, y with
  | .nan _, _ => (F.nan, 0)
  | _, .nan _ => (F.nan, 0)
  | .inf a, .inf b => if a = b then (F.withSign a F.inf, 0) else (F.nan, flINV)
  | .inf a, .fin .. => (F.withSign a F.inf, 0)
  | .fin .., .inf b => (F.withSign b F.inf, 0)
  | .fin n1 m1 e1, .fin n2 m2 e2 =>
    let s := addFin n1 m1 e1 n2 m2 e2
    if s.1 = 0 then
      let neg := if m1 = 0 ∧ m2 = 0 ∧ n1 = n2 then n1 else decide (mode = .rdn)
      (F.withSign neg 0, 0)
    else F.round mode ftz (decide (s.1 < 0)) s.1.natAbs s.2 false

/-- The exact product of two values neither of which is NaN; `none` for 0 × ∞. -/
def mulVal (x y : FVal) : Option FVal :=
  match x, y with
  | .fin n1 m1 e1, .fin n2 m2 e2 => some (.fin (n1 != n2) (m1 * m2) (e1 + e2))
  | _, _ => if x.isZero || y.isZero then none else some (.inf (x.neg != y.neg))

def FFmt.add (F : FFmt) (mode : RMode) (ftz : Bool) (a b : Nat) : Nat × NFlags :=
  let x := F.read ftz a
  let y := F.read ftz b
  let inv := flagIf (x.isSig || y.isSig) flINV
  if x.isNan || y.isNan then (F.nan, inv) else F.addVal mode ftz x y

def FFmt.sub (F : FFmt) (mode : RMode) (ftz : Bool) (a b : Nat) : Nat × NFlags :=
  let x := F.read ftz a
  let y := F.read ftz b
  let inv := flagIf (x.isSig || y.isSig) flINV
  if x.isNan || y.isNan then (F.nan, inv) else F.addVal mode ftz x y.negate

def FFmt.mul (F : FFmt) (mode : RMode) (ftz : Bool) (a b : Nat) : Nat × NFlags :=
  let x := F.read ftz a
  let y := F.read ftz b
  let inv := flagIf (x.isSig || y.isSig) flINV
  if x.isNan || y.isNan then (F.nan, inv)
  else match mulVal x y with
    | none => (F.nan, flINV)
    | some v => F.ofVal mode ftz v

/-- a × b + c with one rounding (R132). -/
def FFmt.fma (F : FFmt) (mode : RMode) (ftz : Bool) (a b c : Nat) : Nat × NFlags :=
  let x := F.read ftz a
  let y := F.read ftz b
  let z := F.read ftz c
  let inv := flagIf (x.isSig || y.isSig || z.isSig) flINV
  if x.isNan || y.isNan then (F.nan, inv)
  else match mulVal x y with
    | none => (F.nan, flINV)
    | some p => if z.isNan then (F.nan, inv) else F.addVal mode ftz p z

/-- Numeric order of two codes that are not NaN: both zeros equal. -/
def FFmt.key (F : FFmt) (b : Nat) : Int :=
  let mag : Int := (b % F.signBit : Nat)
  if b / F.signBit % 2 == 1 then -mag else mag
/-- Order with −0 below +0 (R131). -/
def FFmt.okey (F : FFmt) (b : Nat) : Int :=
  let mag : Int := (b % F.signBit : Nat)
  if b / F.signBit % 2 == 1 then -mag - 1 else mag

/-- FMIN and FMAX (R131). -/
def FFmt.minmax (F : FFmt) (isMax ftz : Bool) (a b : Nat) : Nat × NFlags :=
  let x := F.read ftz a
  let y := F.read ftz b
  let inv := flagIf (x.isSig || y.isSig) flINV
  let ea := F.eff ftz a
  let eb := F.eff ftz b
  if x.isNan && y.isNan then (F.nan, inv)
  else if x.isNan then (eb, inv)
  else if y.isNan then (ea, inv)
  else
    let lower := decide (F.okey ea ≤ F.okey eb)
    (if lower != isMax then ea else eb, inv)

/-- FABS, FNEG, FCPYS: the sign of a non-NaN operand set to `sgn` (R131). -/
def FFmt.setSign (F : FFmt) (ftz : Bool) (a : Nat) (sgn : Bool → Bool) : Nat × NFlags :=
  let x := F.read ftz a
  let ea := F.eff ftz a
  if x.isNan then (F.nan, flagIf x.isSig flINV)
  else (F.withSign (sgn (ea / F.signBit % 2 == 1)) (ea % F.signBit), 0)

/-- FCLASS (R131). -/
def FFmt.classMask (F : FFmt) (ftz : Bool) (a : Nat) : Nat :=
  match F.read ftz a with
  | .nan s => if s then 2 ^ 8 else 2 ^ 9
  | .inf n => if n then 2 ^ 0 else 2 ^ 7
  | .fin n m _ =>
    if m = 0 then (if n then 2 ^ 3 else 2 ^ 4)
    else if m < 2 ^ F.fbits then (if n then 2 ^ 2 else 2 ^ 5)
    else (if n then 2 ^ 1 else 2 ^ 6)

/-- The outcome of a float condition and its INV flag (R123). -/
def FFmt.cmp (F : FFmt) (c : FCond) (ftz : Bool) (a b : Nat) : Bool × NFlags :=
  let x := F.read ftz a
  let y := F.read ftz b
  if x.isNan || y.isNan then
    let sig := x.isSig || y.isSig
    match c with
    | .eq => (false, flagIf sig flINV)
    | .ne => (true, flagIf sig flINV)
    | .lt => (false, flINV)
    | .le => (false, flINV)
    | .un => (true, flagIf sig flINV)
  else
    let ka := F.key (F.eff ftz a)
    let kb := F.key (F.eff ftz b)
    match c with
    | .eq => (decide (ka = kb), 0)
    | .ne => (decide (ka ≠ kb), 0)
    | .lt => (decide (ka < kb), 0)
    | .le => (decide (ka ≤ kb), 0)
    | .un => (false, 0)

/-! ### Tapered formats (R82 to R84) -/

/-- A tapered format: n bits, es exponent bits, and the exponent of maxpos. -/
structure TFmt where
  n : Nat
  es : Nat
  maxExp : Nat
deriving DecidableEq, Repr

def fmtT8 : TFmt := ⟨8, 1, 12⟩
def fmtT6 : TFmt := ⟨6, 0, 4⟩

/-- Length of the run of bits equal to `b` from bit `i − 1` of `v` down. -/
def runLen (b : Bool) (v : Nat) : Nat → Nat
  | 0 => 0
  | i + 1 => if (v / 2 ^ i % 2 == 1) = b then 1 + runLen b v i else 0

def TFmt.nv (T : TFmt) : Nat := 2 ^ (T.n - 1)
def TFmt.maxCode (T : TFmt) : Nat := 2 ^ (T.n - 1) - 1
def TFmt.negCode (T : TFmt) (neg : Bool) (c : Nat) : Nat := if neg then (2 ^ T.n - c) % 2 ^ T.n else c

/-- Decode (R82): NV reads as a signalling NaN, since it sets INV wherever it is read (R92). -/
def TFmt.read (T : TFmt) (bits : Nat) : FVal :=
  let code := bits % 2 ^ T.n
  if code = 0 then .fin false 0 0
  else if code = T.nv then .nan true
  else
    let s := decide (2 ^ (T.n - 1) ≤ code)
    let b := T.negCode s code % 2 ^ (T.n - 1)
    let top := b / 2 ^ (T.n - 2) % 2 == 1
    let k := runLen top b (T.n - 1)
    let rg : Int := if top then (k : Int) - 1 else -(k : Int)
    let r := T.n - 2 - k
    let rest := b % 2 ^ r
    let m := r - T.es
    let e := if T.es ≤ r then rest / 2 ^ m else rest
    let f := rest % 2 ^ m
    .fin s (2 ^ m + f) (rg * 2 ^ T.es + e - m)

/-- EncodeTapered of ±(n × 2^e) (+ sticky): code, whether it clamped, and the flags (R84). -/
def TFmt.encode (T : TFmt) (neg : Bool) (n : Nat) (e : Int) (sticky : Bool) : Nat × Bool × NFlags :=
  if n = 0 && !sticky then (0, false, 0)
  else
    let L := bitLen n
    let lead : Int := (L : Int) - 1 + e
    let pow2 := decide (n = 2 ^ (L - 1)) && !sticky
    if (T.maxExp : Int) ≤ lead then
      let ex := decide (lead = T.maxExp) && pow2
      (T.negCode neg T.maxCode, !ex, flagIf (!ex) flNX)
    else if lead < -(T.maxExp : Int) then (T.negCode neg 1, true, flNX)
    else if decide (lead = -(T.maxExp : Int)) && pow2 then (T.negCode neg 1, false, 0)
    else
      let rg : Int := lead / 2 ^ T.es
      let ev := (lead - rg * 2 ^ T.es).toNat
      let reg := if 0 ≤ rg then (2 ^ (rg.toNat + 1) - 1) * 2 else 1
      let regLen := if 0 ≤ rg then rg.toNat + 2 else (-rg).toNat + 1
      let str := (reg * 2 ^ T.es + ev) * 2 ^ (L - 1) + n % 2 ^ (L - 1)
      let len := regLen + T.es + (L - 1)
      let r := roundInt .rne false str 0 ((len : Int) - (T.n - 1 : Nat)) sticky
      let c := min (max r.1 1) T.maxCode
      (T.negCode neg c, false, flagIf r.2 flNX)

/-- EncodeTapered of any value (R84, R92), a tapered one among them, of which R92 gives no row: DESIGN CHOICE (log 102). -/
def TFmt.ofVal (T : TFmt) (v : FVal) : Nat × NFlags :=
  match v with
  | .nan _ | .inf _ => (T.nv, flINV)
  | .fin n m e => let r := T.encode n m e false; (r.1, r.2.2)

/-! ### Conversions (R92, R93, R134, R135) -/

/-- Width and signedness of an integer type. -/
def NumType.int? : NumType → Option (Nat × Bool)
  | .i8 => some (8, true) | .i16 => some (16, true) | .i32 => some (32, true) | .i64 => some (64, true)
  | .n8 => some (8, false) | .n16 => some (16, false) | .n32 => some (32, false) | .n64 => some (64, false)
  | .f32 | .f16 | .bf16 | .t8 | .t6 => none
def NumType.float? : NumType → Option FFmt
  | .f32 => some fmtF32 | .f16 => some fmtF16 | .bf16 => some fmtBf16
  | .i8 | .i16 | .i32 | .i64 | .n8 | .n16 | .n32 | .n64 | .t8 | .t6 => none
def NumType.tapered? : NumType → Option TFmt
  | .t8 => some fmtT8 | .t6 => some fmtT6
  | .i8 | .i16 | .i32 | .i64 | .n8 | .n16 | .n32 | .n64 | .f32 | .f16 | .bf16 => none

/-- The value of the low bits of a register read as a type. -/
def NumType.read (t : NumType) (ftz : Bool) (x : Nat) : FVal :=
  match t.int? with
  | some (w, true) => let v := signedOf w x; .fin (decide (v < 0)) v.natAbs 0
  | some (w, false) => .fin false (x % 2 ^ w) 0
  | none =>
    match t.float? with
    | some F => F.read ftz x
    | none => match t.tapered? with
      | some T => T.read x
      | none => .nan true

/-- An integer result written by R134: signed types sign-extended to 64 bits, unsigned zero-extended. -/
def intOut (w : Nat) (sgn : Bool) (v : Int) : Nat :=
  if sgn then wrapTo 64 (signedOf w (wrapTo w v)) else wrapTo w v

/-- The range of an integer type. -/
def intLo (w : Nat) (sgn : Bool) : Int := if sgn then -(2 : Int) ^ (w - 1) else 0
def intHi (w : Nat) (sgn : Bool) : Int := if sgn then (2 : Int) ^ (w - 1) - 1 else (2 : Int) ^ w - 1

/-- Float to integer: rounded, then saturated (R92). -/
def toInt (mode : RMode) (w : Nat) (sgn : Bool) (v : FVal) : Int × NFlags :=
  match v with
  | .nan _ => (0, flINV)
  | .inf n => (if n then intLo w sgn else intHi w sgn, flINV)
  | .fin n m e =>
    let r := roundInt mode n m e 0 false
    let x : Int := if n then -(r.1 : Int) else r.1
    if x < intLo w sgn then (intLo w sgn, flINV)
    else if intHi w sgn < x then (intHi w sgn, flINV)
    else (x, flagIf r.2 flNX)

/-- CVT (R134). -/
def convert (dst src : NumType) (mode : RMode) (ftz : Bool) (x : Nat) : Nat × NFlags :=
  let v := src.read ftz x
  match dst.int? with
  | some (w, sgn) =>
    match src.int?, v with
    | some _, .fin n m _ => (intOut w sgn (if n then -(m : Int) else m), 0)
    | _, _ => let r := toInt mode w sgn v; (intOut w sgn r.1, r.2)
  | none =>
    match dst.float? with
    | some F => F.ofVal mode ftz v
    | none => match dst.tapered? with
      | some T => T.ofVal v
      | none => (0, 0)

/-- What CVTE finds for the narrowed value: its bits, its value as sign, magnitude and exponent, whether it saturated, and
UF as R92 gives it. -/
def narrowSat (dst : NarrowType) (mode : RMode) (ftz neg : Bool) (m : Nat) (e : Int) :
    Nat × (Bool × Nat × Int) × Bool × NFlags :=
  let flt (F : FFmt) : Nat × (Bool × Nat × Int) × Bool × NFlags :=
    let r := F.round mode ftz neg m e false
    let sat := (r.2 &&& flOF) != 0
    let q := if sat then F.withSign neg F.largest else r.1
    match F.read false q with
    | .fin n' m' e' => (q, (n', m', e'), sat, r.2 &&& flUF)
    | _ => (q, (neg, 0, 0), sat, 0)
  let tap (T : TFmt) : Nat × (Bool × Nat × Int) × Bool × NFlags :=
    let r := T.encode neg m e false
    match T.read r.1 with
    | .fin n' m' e' => (r.1, (n', m', e'), r.2.1, 0)
    | _ => (r.1, (neg, 0, 0), r.2.1, 0)
  match dst with
  | .f16 => flt fmtF16
  | .bf16 => flt fmtBf16
  | .t8 => tap fmtT8
  | .t6 => tap fmtT6
  | .i8 =>
    let r := roundInt mode neg m e 0 false
    let x : Int := if neg then -(r.1 : Int) else r.1
    let y := max (-128) (min 127 x)
    (intOut 8 true y, (decide (y < 0), y.natAbs, 0), decide (x ≠ y), 0)

/-- NaN of a narrow destination (R93). -/
def NarrowType.nanBits : NarrowType → Nat
  | .i8 => 0 | .f16 => fmtF16.nan | .bf16 => fmtBf16.nan | .t8 => fmtT8.nv | .t6 => fmtT6.nv
/-- ±the largest finite of a narrow destination (R93, R135). -/
def NarrowType.largestBits (neg : Bool) : NarrowType → Nat
  | .i8 => if neg then wrapTo 64 (-128) else 127
  | .f16 => fmtF16.withSign neg fmtF16.largest
  | .bf16 => fmtBf16.withSign neg fmtBf16.largest
  | .t8 => fmtT8.negCode neg fmtT8.maxCode
  | .t6 => fmtT6.negCode neg fmtT6.maxCode

/-- ConvertWithResidual (R93, R135): q as written, the residual as f32 bits, flags. An exact zero is +0, and a residual that f32 cannot hold
is rounded to nearest even: DESIGN CHOICE (log 101). -/
def convertWithResidual (dst : NarrowType) (mode : RMode) (ftz : Bool) (x : Nat) : Nat × Nat × NFlags :=
  match fmtF32.read ftz x with
  | .nan _ => (dst.nanBits, fmtF32.nan, flINV)
  | .inf n => (dst.largestBits n, x % 2 ^ 32, flSATR ||| flNX)
  | .fin neg m e =>
    let r := narrowSat dst mode ftz neg m e
    let q := r.2.1
    let d := addFin neg m e (!q.1) q.2.1 q.2.2
    let res := if d.1 = 0 then 0 else (fmtF32.round .rne false (decide (d.1 < 0)) d.1.natAbs d.2 false).1
    (r.1, res, flagIf r.2.2.1 flSATR ||| r.2.2.2 ||| flagIf (decide (d.1 ≠ 0)) flNX)

/-! ### Scaled blocks (R85 to R87) -/

/-- What an sc8 code means (R85): zero block, invalid block, or m × 2^e. -/
inductive Sc8 where
  | zero | invalid | scale (m : Nat) (e : Int)
deriving DecidableEq, Repr

def sc8Of (code : Nat) : Sc8 :=
  if code % 256 = 0x80 then .zero
  else if code % 256 = 0x81 then .invalid
  else .scale (2 + code % 2) (signedOf 7 (code / 2) - 1)

/-- Element types of a scaled block. -/
inductive BlockFmt where | i8 | t8 | t6
deriving DecidableEq, Repr

/-- The value of element `code` under scale `sc` (R85). -/
def blockElem (f : BlockFmt) (sc code : Nat) : FVal :=
  let v : FVal :=
    match f with
    | .i8 => let x := signedOf 8 code; .fin (decide (x < 0)) x.natAbs 0
    | .t8 => fmtT8.read code
    | .t6 => fmtT6.read code
  match sc8Of sc with
  | .zero => .fin false 0 0
  | .invalid => .nan false
  | .scale m e =>
    match v with
    | .nan s => .nan s
    | .inf n => .inf n
    | .fin n k x => .fin n (k * m) (x + e)

/-- Magnitude order of ±m × 2^e. -/
def magLe (m1 : Nat) (e1 : Int) (m2 : Nat) (e2 : Int) : Bool :=
  let e := min e1 e2
  decide (m1 * 2 ^ (e1 - e).toNat ≤ m2 * 2 ^ (e2 - e).toNat)

/-- The smallest 2^E × (1 + H/2) at or above m × 2^e / 2^t or / 127: E and H, E unbounded (R87). -/
def leastScale (f : BlockFmt) (m : Nat) (e : Int) : Int × Bool :=
  let T := match f with | .i8 => 127 | .t8 => 16 | .t6 => 4
  let e0 : Int := (bitLen m : Int) - 1 + e - bitLen T
  -- a candidate is k × 2^(E−1) with k = 2 or 3
  let ge (k : Nat) (E : Int) : Bool := magLe m e (k * T) (E - 1)
  if ge 2 e0 then (e0, false) else if ge 3 e0 then (e0, true)
  else if ge 2 (e0 + 1) then (e0 + 1, false) else if ge 3 (e0 + 1) then (e0 + 1, true)
  else if ge 2 (e0 + 2) then (e0 + 2, false) else if ge 3 (e0 + 2) then (e0 + 2, true)
  else (e0 + 3, false)

/-- One element of QuantiseBlock: x = ±m × 2^e divided by k × 2^(E−1), k = 2 or 3, encoded (R87). -/
def quantElem (f : BlockFmt) (clamped neg : Bool) (m : Nat) (e : Int) (k : Nat) (E : Int) : Nat :=
  let num := m * 2 ^ 64
  let n := num / k
  let ex := e - 64 - (E - 1)
  let st := num % k != 0
  let tap (T : TFmt) : Nat :=
    -- |q| < minpos, |q| ≤ minpos / 2, with q = m × 2^e / (k × 2^(E−1)) and minpos = 2^−maxExp
    let below := !magLe k (E - 1 - T.maxExp) m e
    let half := magLe m e k (E - 1 - T.maxExp - 1)
    if clamped && below then (if half then 0 else (T.encode neg n ex st).1)
    else (T.encode neg n ex st).1
  match f with
  | .i8 =>
    let r := roundInt .rne neg n ex 0 st
    wrapTo 8 (max (-128) (min 127 (if neg then -(r.1 : Int) else r.1)))
  | .t8 => tap fmtT8
  | .t6 => tap fmtT6

/-- QuantiseBlock (R87) on f32 bits: scale code, element codes, flags INV and SCUF. Where amax / T lies above the largest
scale, R87 states no scale: E is then that scale's, 63 with H = 1, and `free` replaces the block. DESIGN CHOICE (log 22). -/
def quantiseBlock (f : BlockFmt) (free : Nat → Byte) (xs : List Nat) : Nat × List Nat × NFlags :=
  let vs := xs.map (fmtF32.read false)
  let bad (v : FVal) : Bool := match v with | .fin .. => false | _ => true
  if vs.any bad then (0x81, xs.map fun _ => 0, flINV)
  else
    let big := vs.foldl (fun (acc : Nat × Int) v =>
      match v with
      | .fin _ m e => if magLe acc.1 acc.2 m e then (m, e) else acc
      | _ => acc) (0, 0)
    if big.1 = 0 then (0x80, xs.map fun _ => 0, 0)
    else
      let s := leastScale f big.1 big.2
      let clamped := decide (s.1 < -63)
      let E : Int := if clamped then -63 else s.1
      let H := if clamped then false else s.2
      if 63 < E then ((free 0).toNat, (List.range xs.length).map fun i => (free (i + 1)).toNat, 0)
      else
        let k := if H then 3 else 2
        let es := vs.map fun v =>
          match v with
          | .fin n m e => quantElem f clamped n m e k E
          | _ => 0
        let sc := if clamped && es.all (fun c => c == 0) then 0x80 else 2 * wrapTo 7 E + (if H then 1 else 0)
        (sc, es, flagIf clamped flSCUF)

end Sys2Proof
end

