-- ==== Sys2Proof/Machine/Space.lean ====
section
/-! DEFINITION. Reaching parts of the state, the address map (R42, R43), homes (R48), page walks (R53), poison (R346), error codes (R344,
R345, R348 to R350) and caches (R55). -/

namespace Sys2Proof.Machine

/-! ### Parts of the state -/

def State.slotAt (s : State) (c k : Nat) : Slot := s.slots.get Slot.empty (16 * c + k)
def State.setSlot (s : State) (c k : Nat) (x : Slot) : State := { s with slots := s.slots.set (16 * c + k) x }
def State.modSlot (s : State) (c k : Nat) (f : Slot → Slot) : State := s.setSlot c k (f (s.slotAt c k))
def State.coreAt (s : State) (c : Nat) : CoreSt := s.cores.get CoreSt.reset c
def State.modCore (s : State) (c : Nat) (f : CoreSt → CoreSt) : State := { s with cores := s.cores.set c (f (s.coreAt c)) }
def State.clusterAt (s : State) (k : Nat) : ClusterSt := s.clusters.get ClusterSt.reset k
def State.modCluster (s : State) (k : Nat) (f : ClusterSt → ClusterSt) : State :=
  { s with clusters := s.clusters.set k (f (s.clusterAt k)) }
def State.dieAt (s : State) (d : Nat) : DieSt := s.dies.get DieSt.reset d
def State.modDie (s : State) (d : Nat) (f : DieSt → DieSt) : State := { s with dies := s.dies.set d (f (s.dieAt d)) }
def State.accAt (s : State) (k n : Nat) : AccSlot := (s.clusterAt k).accs.get AccSlot.reset n
def State.modAcc (s : State) (k n : Nat) (f : AccSlot → AccSlot) : State :=
  s.modCluster k fun c => { c with accs := c.accs.set n (f (c.accs.get AccSlot.reset n)) }

/-- The die and the cluster of a core (R28); control core 512 + k belongs to cluster k. -/
def clusterOf (c : Nat) : Nat := if c < 512 then c / 8 else c - 512
def dieOf (c : Nat) : Nat := clusterOf c / 8

/-- All occupied slots: core, slot and contents. -/
def State.slotList (s : State) : List (Nat × Nat × Slot) := s.slots.map fun p => (p.1 / 16, p.1 % 16, p.2)
/-- Change every slot. -/
def State.mapSlots (s : State) (f : Nat → Nat → Slot → Slot) : State :=
  { s with slots := s.slots.map fun p => (p.1, f (p.1 / 16) (p.1 % 16) p.2) }

/-- The next free bit, for a choice the spec leaves to the device (log 6). -/
def State.drawBit (s : State) : Bool × State := (Config.freeBit s.free, { s with free := s.free + 1 })

/-- The launch of a number, and the block of a launch and index. -/
def State.launch? (s : State) (n : Nat) : Option Launch := s.launches.find? fun l => l.num == n
def State.block? (s : State) (l b : Nat) : Option Block := s.blocks.find? fun x => x.launch == l && x.index == b
def State.modBlock (s : State) (l b : Nat) (f : Block → Block) : State :=
  { s with blocks := s.blocks.map fun x => if x.launch == l && x.index == b then f x else x }
/-- First core of a running block. -/
def Block.base? (b : Block) : Option Nat :=
  match b.place with
  | .running c => some c
  | .waiting .. | .den _ => none
/-- Number of cores per block of a launch (R275). -/
def Launch.cores (l : Launch) : Nat := 2 ^ l.bsz

/-! ### Addresses (R42) -/

def scratchBase : Nat := 0xFF00000000000000
def ctrlBase : Nat := 0xFF00000010000000
def windowBase : Nat := 0xFF00000100000000

/-- What an address names. -/
inductive Region where
  | space
  | scratch (core off : Nat)
  | own (off : Nat)
  | ctrl (cluster off : Nat)
  | window (off : Nat)
  | unmapped
deriving DecidableEq, Repr

def regionOf (va : Nat) : Region :=
  if va < 2 ^ 56 then .space
  else if va < scratchBase then .unmapped
  else
    let o := va - scratchBase
    if o < 0x08000000 then .scratch (o / 0x40000) (o % 0x40000)
    else if o < 0x08040000 then .own (o - 0x08000000)
    else if decide (0x10000000 ≤ o) && decide (o < 0x10400000) then
      let k := (o - 0x10000000) / 0x10000
      let x := o % 0x10000
      if x < 0xC000 then .ctrl k x else .unmapped
    else if decide (0x100000000 ≤ o) && decide (o < 0x101000000) then .window (o - 0x100000000)
    else .unmapped

/-- Storage addresses of scratchpads, control-core local memories and host memory (State.mem). -/
def scratchSa (core off : Nat) : Nat := scratchBase + 0x40000 * core + off
def ctrlSa (cluster off : Nat) : Nat := ctrlBase + 0x10000 * cluster + off
def hostSa (a : Nat) : Nat := 2 ^ 64 + a
def mgmtSa (off : Nat) : Nat := 2 ^ 65 + off
def mgmtSize : Nat := 0xC000
/-- Scratchpad granule of a storage address: 16,384 × core + granule (R58). -/
def granuleOf (sa : Nat) : Option Nat :=
  if decide (scratchBase ≤ sa) && decide (sa < scratchBase + 0x08000000) then some ((sa - scratchBase) / 16) else none
/-- Storage address of a granule. -/
def granuleSa (g : Nat) : Nat := scratchBase + 16 * g

/-- Home (R48); an unwritten HOMETAB entry holds its reset value, INTL 1 and CORE 0. -/
def State.homeOf (s : State) (va : Nat) : Nat :=
  let e := (s.regs.hometab.get (0x8000 : BitVec 16) (bitsOf va 26 15)).toNat
  if bitOf e 15 then
    bitsOf va 16 8 ^^^ bitsOf va 25 17 ^^^ bitsOf va 34 26 ^^^ bitsOf va 43 35 ^^^ bitsOf va 52 44 ^^^ bitsOf va 55 53
  else e % 512

/-- Whether an address's home is being switched: accesses to it wait (R49; log 72). -/
def State.switches (s : State) (va : Nat) : Bool := decide (va < 2 ^ 56) && s.switching == some (bitsOf va 26 15)

/-- The 256-byte line of an address. -/
def lineOf (va : Nat) : Nat := va / 256

/-! ### Page walks (R53) -/

inductive Walk where
  | absent (entryAddr : Nat) (entry : Nat) (bits : Nat)
  | malformed
  | leaf (x : Xlat)
deriving DecidableEq, Repr

/-- Low bit of the index of a level, and its width. -/
def walkLevels : List (Nat × Nat) := [(51, 5), (39, 12), (27, 12), (21, 6), (15, 6)]

def walkFrom (m : Memory) (va : Nat) : Nat → Nat → List (Nat × Nat) → Walk
  | _, _, [] => .malformed
  | lvl, table, (lo, w) :: rest =>
    let ea := table + 8 * (va / 2 ^ lo % 2 ^ w)
    let e := m.readNat ea 8
    if !bitOf e 0 then .absent ea e lo
    else if bitOf e 1 then
      if lvl < 2 then .malformed
      else .leaf
        { va := va / 2 ^ lo * 2 ^ lo, bits := lo, key := bitsOf e 63 52,
          pa := bitsOf e 39 8 * 256 / 2 ^ lo * 2 ^ lo,
          peer := if bitOf e 2 then some (bitsOf e 22 8) else none }
    else if rest.isEmpty then .malformed
    else walkFrom m va (lvl + 1) (bitsOf e 39 8 * 256) rest

/-- The walk of an address from PTROOT. -/
def State.walk (s : State) (va : Nat) : Walk :=
  walkFrom s.mem va 0 (bitsOf s.regs.ptroot.toNat 39 8 * 256) walkLevels

/-- The addresses of the entries that a walk reads. -/
def walkReads (m : Memory) (va : Nat) : Nat → Nat → List (Nat × Nat) → List Nat
  | _, _, [] => []
  | lvl, table, (lo, w) :: rest =>
    let ea := table + 8 * (va / 2 ^ lo % 2 ^ w)
    let e := m.readNat ea 8
    ea :: (if bitOf e 0 && !bitOf e 1 then walkReads m va (lvl + 1) (bitsOf e 39 8 * 256) rest else [])

/-- Whether the walk ends at a leaf. -/
def Walk.present : Walk → Bool
  | .leaf _ => true
  | .absent .. | .malformed => false

/-- The link on which requests to a device leave (R285), if the route table can be read, and whether it is down (R355). -/
def State.linkOf (s : State) (dev : Nat) : Option Nat :=
  let va := bitsOf s.regs.lrtbase.toNat 63 15 * 2 ^ 15 + dev
  match s.walk va with
  | .leaf x => if x.peer.isNone then some (s.mem.read (x.pa + (va - x.va))).toNat else none
  | .absent .. => none
  | .malformed => none
def State.linkDown (s : State) (dev : Nat) : Bool :=
  match s.linkOf dev with
  | some l => !(s.links.get LinkSt.reset l).up
  | none => false

/-- Whether traffic to a device waits: its link is down or retrains. -/
def State.linkStalled (s : State) (dev : Nat) : Bool :=
  match s.linkOf dev with
  | some l => !(s.links.get LinkSt.reset l).flows
  | none => false

def Xlat.covers (x : Xlat) (va : Nat) : Bool := va / 2 ^ x.bits == x.va / 2 ^ x.bits

/-- Look up a die's translation cache, the entry found becoming the one used last. -/
def State.tcFind (s : State) (die va : Nat) : Option (Xlat × State) :=
  match (s.dieAt die).tc.find? fun x => x.covers va with
  | some x => some (x, s.modDie die fun d => { d with tc := x :: d.tc.filter fun y => y != x })
  | none => none
/-- Fill a die's translation cache. Replacement, which the spec leaves open: least recently used. DESIGN CHOICE (log 8). -/
def State.tcFill (s : State) (die : Nat) (x : Xlat) : State :=
  s.modDie die fun d => { d with tc := (x :: d.tc).take 4096 }

/-! ### Poison (R346) -/

/-- The unit of storage that holds an address: a 16-byte granule, or a 128-byte sector. -/
def unitOf (sa : Nat) : Nat := if (granuleOf sa).isSome then sa / 16 * 16 else sa / 128 * 128
def unitSize (sa : Nat) : Nat := if (granuleOf sa).isSome then 16 else 128
/-- The first poisoned unit among the bytes from `sa`. -/
def State.poisonedIn (s : State) (sa n : Nat) : Option Nat :=
  s.poison.find? fun u => decide (u < sa + n) && decide (sa < u + unitSize u)
/-- A unit is poisoned: in the store given (R348), 0 for main memory or a scratchpad. -/
def State.addPoison (s : State) (u store : Nat) : State :=
  { s with
    poison := insertNat u s.poison
    poisonStore := if store = 0 then s.poisonStore.filter fun e => e.1 != u else s.poisonStore.set u store
    covering := s.covering.filter fun e => e.2.1 != u }
/-- Units lose their poison. -/
def State.cleanUnits (s : State) (p : Nat → Bool) : State :=
  { s with
    poison := s.poison.filter fun u => !p u
    poisonStore := s.poisonStore.filter fun e => !p e.1
    covering := s.covering.filter fun e => !p e.2.1 }
/-- Units that a write of `n` bytes covers whole lose their poison. -/
def State.unpoison (s : State) (sa n : Nat) : State :=
  s.cleanUnits fun u => decide (sa ≤ u) && decide (u + unitSize u ≤ sa + n)
/-- An agent writes `n` clean bytes, one of several writes: a unit that its writes have covered whole loses its poison. Agents are
numbered as commands are; 0 is the host. -/
def State.cover (s : State) (who sa n : Nat) : State :=
  (s.poison.filter fun u => decide (u < sa + n) && decide (sa < u + unitSize u)).foldl (fun s u =>
    let old := match s.covering.find? fun e => e.1 == who && e.2.1 == u with | some e => e.2.2 | none => 0
    let m := (List.range (unitSize u)).foldl (fun m i => if decide (sa ≤ u + i) && decide (u + i < sa + n) then m ||| 2 ^ i else m) old
    if m = 2 ^ unitSize u - 1 then s.cleanUnits (· == u)
    else { s with covering := (who, u, m) :: s.covering.filter fun e => !(e.1 == who && e.2.1 == u) }) s

/-! ### Records of data errors (R289, R348) -/

/-- Whether the device can hold another waiting record. -/
def State.canPost (s : State) : Bool := decide (s.meqWait.length < 256) && s.meqPend.isEmpty

/-- Whether a record that satisfies `p` has not been answered: posted, waiting in the device, or at its source. -/
def State.pendingRec (s : State) (p : MeqRec → Bool) : Bool := s.meqOpen.any p || s.meqWait.any p || s.meqPend.any p

/-- A record of class 1 about a poisoned unit. -/
def poisonRec (unit : Nat) (r : MeqRec) : Bool := r.kind == 9 && bitsOf r.arg1.toNat 39 32 == 1 && r.ref == unit

/-- Record that a poisoned unit was met: one KIND 9 record of class 1 per unit, which names the store that lost it and waits to be posted
(R346, R348); an access without a virtual address names none. -/
def State.noteUnit (s : State) (unit : Nat) (va : Option Nat) (cluster : Nat) : State :=
  let store := if (granuleOf unit).isSome then 3 else s.poisonStore.get 0 unit
  let start := if store = 3 then unit else va.elim (2 ^ 64 - 1) fun a => a / 128 * 128
  if s.pendingRec (poisonRec unit) then s
  else
    let r : MeqRec :=
      { kind := 9, cluster, seq := 0, arg0 := wordN start, arg1 := wordN (unitSize unit + 2 ^ 32 * 1 + 2 ^ 40 * store),
        arg2 := if store = 0 || store = 1 then wordN unit else 0, ref := unit }
    { s with meqPend := s.meqPend ++ [r] }
/-- A strand or command met one. -/
def State.notePoison (s : State) (unit va cluster : Nat) : State := s.noteUnit unit (some va) cluster

/-! ### Error codes (R344, R345, R349, R350) -/

/-- The bit of an address's sector in its line. -/
def sectorBit (a : Nat) : BitVec 2 := if a / 128 % 2 = 0 then 1 else 2

/-- Add to a field of ERRCNT, which wraps by itself (R349). -/
def State.errAdd (s : State) (hi lo : Nat) : State :=
  { s with regs := { s.regs with errcnt := putBits s.regs.errcnt hi lo (bitsOf s.regs.errcnt.toNat hi lo + 1) } }

/-- Whether a storage address lies in a control core's local memory, or in the management core's. -/
def inCtrl (sa : Nat) : Bool := decide (ctrlBase ≤ sa) && decide (sa < windowBase)
def inMgmt (sa : Nat) : Bool := decide (mgmtSa 0 ≤ sa) && decide (sa < mgmtSa mgmtSize)

/-- Bytes under one code word at a storage address: a granule of a scratchpad, 8 bytes of a control core's or the management core's
memory, a sector. -/
def codeSize (sa : Nat) : Nat := if (granuleOf sa).isSome then 16 else if inCtrl sa || inMgmt sa then 8 else 128

def Flaw.size (f : Flaw) : Nat := if f.store == 2 || f.store == 5 then 8 else codeSize f.unit
/-- Whether a read of data finds an error among its bytes. -/
def Flaw.within (f : Flaw) (sa n : Nat) : Bool :=
  f.store != 4 && f.store != 5 && decide (f.unit < sa + n) && decide (sa < f.unit + f.size)

/-- A stack's controller counts an error in a frame (R350): an entry opens, or replaces one, at the first. -/
def State.countFrame (s : State) (pa : Nat) (va : Option Nat) (lost : Bool) : State :=
  let frame := pa / 2 ^ 15
  let stack (e : CorrEntry) : Nat := e.frame / 2 ^ 21
  let soft := bitOf s.regs.dmode.toNat 3
  match s.corrected.find? fun e => e.frame == frame with
  | some _ =>
    let more (e : CorrEntry) : CorrEntry :=
      let n := if lost then e.count else e.count + 1
      let due := lost || decide (3 ≤ n)
      { e with count := n, due := e.due || due, soft := if e.due then e.soft else soft }
    { s with corrected := s.corrected.map fun e => if e.frame == frame then more e else e }
  | none =>
    let e : CorrEntry := { frame, count := if lost then 0 else 1, va, due := lost, soft, posted := false }
    let mine := s.corrected.filter fun x => stack x == stack e
    let old := if mine.length < 256 then none else leastBy CorrEntry.count mine
    { s with corrected := s.corrected.filter (fun x => some x != old) ++ [e] }

/-- A control core's local memory loses 8 bytes (R345): what they then hold is free (log 97), and the core, if it runs, stops and reports
it (R327). -/
def State.ctrlLost (s : State) (u : Nat) : State :=
  let k := (u - ctrlBase) / 0x10000
  let bytes := (List.range 8).map fun i => Config.freeByte (s.free + i)
  let s := { s with free := s.free + 8, mem := s.mem.writeN u bytes }
  let c := s.clusterAt k
  if c.ccRun.isNone || c.ccStopped then s
  else
    let pc := (s.slotAt (512 + k) 0).ctx.pc
    { s.modCluster k fun c => { c with ccStopped := true } with
      meqPend := s.meqPend ++ [{ kind := 8, cluster := k, seq := 0, arg0 := wordN (0x100 + k), arg1 := pc, arg2 := 7, ref := 0 }] }

/-- The cached copy of its sector that an error stands in: none where that is gone, or whether it is dirty. Other stores hold the data
itself. -/
def State.copyOf (s : State) (f : Flaw) : Option Bool :=
  let b := sectorBit f.unit
  let line := f.unit / 256
  if f.store == 2 then
    s.cores.findSome? fun e => (e.2.l1.find? fun y => !y.upd && y.pa == 256 * line && y.valid &&& b != 0).map fun y => y.dirty &&& b != 0
  else if f.store == 1 then
    ((s.dieAt (f.unit / 2 ^ 37)).l2.find? fun y => y.line == line && y.valid &&& b != 0).map fun y => y.dirty &&& b != 0
  else some true

/-- A clean sector leaves the cache it stands in; it is filled again from below (R345). -/
def State.dropSector (s : State) (f : Flaw) : State :=
  let b := sectorBit f.unit
  let line := f.unit / 256
  if f.store == 2 then
    { s with cores := s.cores.map fun e => (e.1, { e.2 with l1 := e.2.l1.map fun y =>
        if !y.upd && y.pa == 256 * line then { y with valid := y.valid &&& ~~~b } else y }) }
  else s.modDie (f.unit / 2 ^ 37) fun d => { d with l2 := d.l2.map fun y => if y.line == line then { y with valid := y.valid &&& ~~~b } else y }

/-- An error is met (R344, R345), in a copy that is dirty as `copy` says: corrected and written back, tolerated, or the unit is poisoned in
its store, or dropped where its cached copy is clean. What local memories lose is not poisoned: a control core stops, and Sweteholt
restarts the management core from its checked image. -/
def State.meetFlaw (s : State) (f : Flaw) (va : Option Nat) (copy : Option Bool) : State :=
  let gone (s : State) : State := { s with flaws := s.flaws.filter fun x => x != f }
  let frame (s : State) (lost : Bool) : State := if f.store == 0 && decide (f.unit < 2 ^ 40) then s.countFrame f.unit va lost else s
  match copy, f.kind with
  | none, _ => gone s
  | some dirty, .uncorrectable =>
    if dirty then
      let s := (frame (gone s) true).errAdd 31 16
      if inCtrl f.unit then s.ctrlLost f.unit
      else if inMgmt f.unit then s
      else s.addPoison (unitOf f.unit) (if f.store == 1 || f.store == 2 then f.store else 0)
    else ((gone s).dropSector f).errAdd 15 0
  | some _, .low => if s.tolerant.contains (unitOf f.unit) then s.errAdd 47 32 else (frame (gone s) false).errAdd 15 0
  | some _, .corrected => (frame (gone s) false).errAdd 15 0

/-- An error is found by an access. -/
def State.found (s : State) (f : Flaw) (va : Option Nat) : State := s.meetFlaw f va (s.copyOf f)

/-- Whether the home's first-level cache, or the second-level slice, holds the sector of an error. -/
def State.inFirst (s : State) (a : Nat) : Bool :=
  s.cores.any fun e => e.2.l1.any fun y => !y.upd && y.pa == a / 256 * 256 && y.valid &&& sectorBit a != 0
def State.inSecond (s : State) (a : Nat) : Bool :=
  (s.dieAt (a / 2 ^ 37)).l2.any fun y => y.line == a / 256 && y.valid &&& sectorBit a != 0
/-- An error stands where no access reads, since a cache above holds the sector (R345). -/
def State.hidden (s : State) (f : Flaw) : Bool :=
  decide (f.unit < 2 ^ 40) && ((f.store == 0 && (s.inFirst f.unit || s.inSecond f.unit)) || (f.store == 1 && s.inFirst f.unit))

/-- What a read of `n` bytes finds: the errors in them, and then the first poisoned unit among them. -/
def State.probe (s : State) (va : Option Nat) (sa n : Nat) : Option Nat × State :=
  let s := (s.flaws.filter fun f => f.within sa n && !s.hidden f).foldl (fun s f => s.found f va) s
  (s.poisonedIn sa n, s)

/-- As `probe`, for a table that the device reads by physical address: a poisoned unit is recorded (R348). -/
def State.tableProbe (s : State) (sa n : Nat) : State :=
  match s.probe none sa n with
  | (some u, s) => s.noteUnit u none 0xFFFF
  | (none, s) => s

/-! ### Caches (R55)

The index of a set, which the spec does not give, is made of the low bits of the line number (PRESUMED, log 8). -/

/-- Make room for a line in a list kept most recently used first: of the lines in the same set, the one at `ways - 1` and beyond
leaves. -/
def evicted {α : Type} [DecidableEq α] (l : List α) (same : α → Bool) (ways : Nat) : Option α := (l.filter same)[ways - 1]?

/-- The second-level slice of a physical address, and its set there. -/
def l2Slice (line : Nat) : Nat := line % 8 ^^^ line / 8 % 8
def l2Set (line : Nat) : Nat := line / 8 % 1024

/-- A sector leaves a cache dirty: its errors are found, and what is lost is poisoned and reported without a virtual address, where the
device can hold the record (R289, R344, R345, R348). -/
def State.evictProbe (s : State) (store cluster a : Nat) : State :=
  let mine (f : Flaw) : Bool := f.store == store && f.unit / 128 * 128 == a
  let lost := s.flaws.any fun f => mine f && f.kind == .uncorrectable
  let s := (s.flaws.filter mine).foldl (fun s f => s.meetFlaw f none (some true)) s
  if lost && !s.pendingRec (poisonRec a) && s.canPost then
    let r : MeqRec :=
      { kind := 9, cluster, seq := 0, arg0 := wordN (2 ^ 64 - 1), arg1 := wordN (128 + 2 ^ 32 + 2 ^ 40 * store),
        arg2 := if store = 1 then wordN a else 0, ref := a }
    { s with meqPend := s.meqPend ++ [r] }
  else s
/-- A sector enters a cache with a fresh code. -/
def State.freshCopy (s : State) (store a : Nat) : State :=
  { s with flaws := s.flaws.filter fun f => !(f.store == store && f.unit / 128 * 128 == a / 128 * 128) }

/-- The line that a sector displaces from its second-level slice. -/
def l2Evicted (l : List L2Line) (n : Nat) : Option L2Line :=
  if l.any fun y => y.line == n then none else evicted l (fun y => l2Slice y.line == l2Slice n && l2Set y.line == l2Set n) 24
/-- A second-level slice holds a sector, and has it dirty where `dirty` says so. -/
def l2Insert (l : List L2Line) (pa : Nat) (dirty : Bool) : List L2Line :=
  let n := pa / 256
  let b := sectorBit pa
  let d : BitVec 2 := if dirty then b else 0
  match l.find? fun y => y.line == n with
  | some y => { y with valid := y.valid ||| b, dirty := y.dirty ||| d } :: l.filter fun z => z.line != n
  | none => { line := n, valid := b, dirty := d } :: l.filter fun y => some y != l2Evicted l n
/-- The dirty sectors of a second-level line go to memory, whose code is then fresh (R344). -/
def State.l2Back (s : State) (y : L2Line) : State :=
  (List.range 2).foldl (fun (s : State) i =>
    let a := 256 * y.line + 128 * i
    if y.dirty.getLsbD i then (s.evictProbe 1 0xFFFF a).freshCopy 0 a else s) s
/-- A sector is put into the slice that holds it; the line that it displaces goes to memory. -/
def State.l2Put (s : State) (pa : Nat) (dirty : Bool) : State :=
  let l := (s.dieAt (pa / 2 ^ 37)).l2
  let s := match l2Evicted l (pa / 256) with
    | some y => s.l2Back y
    | none => s
  let s := if l.any fun y => y.line == pa / 256 && y.valid &&& sectorBit pa != 0 then s else s.freshCopy 1 pa
  s.modDie (pa / 2 ^ 37) fun d => { d with l2 := l2Insert d.l2 pa dirty }

/-- Count an access at a second-level slice, made for a core of die `die`, in the hot table of the attaching die (R78). -/
def State.hotCount (s : State) (pa : Nat) (va : Option Nat) (die : Nat) : State :=
  let frame := pa / 2 ^ 15
  let own := pa / 2 ^ 37
  let d := s.dieAt own
  let bump (e : HotEntry) : HotEntry :=
    { e with counts := e.counts.set! die (e.counts.toList.getD die 0 + 1), va := va.or e.va }
  if d.hot.any (fun e => e.frame == frame) then
    s.modDie own fun d => { d with hot := d.hot.map fun e => if e.frame == frame then bump e else e }
  else if own == die then s
  else
    let fresh := bump { frame, counts := Vector.replicate 8 0, va := none }
    let total (e : HotEntry) : Nat := e.counts.toList.foldl (· + ·) 0
    let least := d.hot.foldl (fun (acc : Option HotEntry) e =>
      match acc with
      | none => some e
      | some a => if total e < total a then some e else some a) none
    let kept := if d.hot.length < 1024 then d.hot else d.hot.filter fun e => some e != least
    s.modDie own fun d => { d with hot := kept ++ [fresh] }

/-- A sector is read at the second level, or from memory where the slice does not hold it, and its errors are found there (R344, R345). -/
def State.fillProbe (s : State) (va : Option Nat) (pa : Nat) : State :=
  let at' (k : Nat) (f : Flaw) : Bool := f.store == k && f.unit / 128 * 128 == pa / 128 * 128
  let s := if s.inSecond pa then (s.flaws.filter (at' 1)).foldl (fun s f => s.found f va) s else s
  if s.inSecond pa then s else (s.flaws.filter (at' 0)).foldl (fun s f => s.meetFlaw f va (some true)) s

/-- An access to a sector at the second-level slice that holds it, made for a core of die `die`. -/
def State.l2Access (s : State) (pa : Nat) (va : Option Nat) (die : Nat) (dirty : Bool) : State :=
  ((s.fillProbe va pa).l2Put pa dirty).hotCount pa va die

/-- The dirty sectors of a first-level line are written back whole, with a fresh code (R55, R344). -/
def State.writeBack (s : State) (core : Nat) (l : L1Line) : State :=
  (List.range 2).foldl (fun s i =>
    let a := l.pa + 128 * i
    if l.dirty.getLsbD i then
      (((s.evictProbe 2 (clusterOf core) a).freshCopy 1 a).l2Put a true).hotCount a (some (256 * l.line + 128 * i)) (dieOf core)
    else s) s

/-- Bytes in main memory are written at their home: the sectors that its first-level cache holds become dirty there, the others at
the second level, in an access made for a core of die `die`. R78 does not say for which core the home makes an access of another core, of an
engine, of the host or of a peer: the model counts its own (DESIGN CHOICE, log 110). -/
def State.dirtied (s : State) (die va sa n : Nat) : State :=
  if 2 ^ 56 ≤ va || 2 ^ 40 ≤ sa then s
  else
    let home := s.homeOf va
    (List.range ((sa + n - 1) / 128 - sa / 128 + 1)).foldl (fun s i =>
      let a := (sa / 128 + i) * 128
      let hit (y : L1Line) : Bool := !y.upd && y.pa == a / 256 * 256 && y.valid &&& sectorBit a != 0
      if (s.coreAt home).l1.any hit then
        s.modCore home fun c => { c with l1 := c.l1.map fun y => if hit y then { y with dirty := y.dirty ||| sectorBit a } else y }
      else s.l2Access a (some (va / 128 * 128 + 128 * i)) die true) s

end Sys2Proof.Machine
end

