-- ==== Sys2Proof/Machine/Tiles.lean ====
section
/-! DEFINITION. Matrix operand formats and tiles in scratchpad (R94, R95, R194 to R196). -/

namespace Sys2Proof.Machine

/-- Operand formats, codes of AFMT (R194). -/
inductive MFmt where | i2 | i4 | i8 | t6 | t8 | bf16 | f16
deriving DecidableEq, Repr

def MFmt.ofCode : Nat → Option MFmt
  | 0 => some .i2 | 1 => some .i4 | 2 => some .i8 | 3 => some .t6 | 4 => some .t8 | 5 => some .bf16 | 6 => some .f16
  | _ => none

/-- Width and count of full significand planes (R95). -/
def MFmt.width : MFmt → Nat
  | .i2 => 2 | .i4 => 4 | .i8 => 8 | .t6 => 6 | .t8 => 8 | .bf16 => 16 | .f16 => 16
def MFmt.planes : MFmt → Nat
  | .i2 => 2 | .i4 => 4 | .i8 => 8 | .t6 => 4 | .t8 => 5 | .bf16 => 8 | .f16 => 11
/-- Formats that may be scaled (R85, R194). -/
def MFmt.scalable : MFmt → Bool
  | .i8 | .t6 | .t8 => true
  | .i2 | .i4 | .bf16 | .f16 => false

/-- A format context read as an operand's format and whether it is scaled: A from the low fields, B from the high ones. -/
def ctxOperand (w : Word) (b : Bool) : Option (MFmt × Bool) :=
  let v := w.toNat
  (MFmt.ofCode (if b then bitsOf v 7 4 else bitsOf v 3 0)).map fun f => (f, bitOf v (if b then 9 else 8))

/-- Whether a word is a format word with no reserved value (R203). -/
def fmtWordOk (w : Word) : Bool :=
  let v := w.toNat
  decide (v < 1024) &&
    match ctxOperand w false, ctxOperand w true with
    | some (fa, sa), some (fb, sb) => (fa.scalable || !sa) && (fb.scalable || !sb)
    | _, _ => false

/-- Bytes of a tile (R195). -/
def tileBytes (f : MFmt) (scaled : Bool) : Nat := f.width * 1024 + if scaled then 128 else 0

/-- The fields of an MMA's command word (R195). -/
structure MmaWord where
  n : Nat
  m : Nat
  lck : Bool
  ksl : Nat
  ctx : Nat
  slot : Nat
  bgran : Nat
  bcore : Nat
  agran : Nat
  acore : Nat
deriving DecidableEq, Repr

def MmaWord.ofWord (w : Word) : MmaWord :=
  let v := w.toNat
  { n := bitsOf v 63 56, m := bitsOf v 55 48, lck := bitOf v 47, ksl := bitsOf v 46 40, ctx := bitsOf v 39 38,
    slot := bitsOf v 37 34, bgran := bitsOf v 33 20, bcore := bitsOf v 19 17, agran := bitsOf v 16 3, acore := bitsOf v 2 0 }

/-- The slice count a command uses. -/
def Cmd.slices (c : Cmd) (w : MmaWord) : Nat :=
  if w.lck then (c.lcs.toList.getD (w.ksl % 16) 0).toNat else w.ksl

/-- The format context a command word names, as it stood at dispatch. -/
def Cmd.fmtCtx (c : Cmd) (w : MmaWord) : Word := c.fmts.toList.getD w.ctx 0

/-- Storage of an MMA's operand: where it starts, and its length. -/
def Cmd.operandAt (c : Cmd) (w : MmaWord) (b : Bool) : Nat × Nat :=
  let core := 8 * c.cluster + if b then w.bcore else w.acore
  let gran := if b then w.bgran else w.agran
  let len := match ctxOperand (c.fmtCtx w) b with
    | some (f, sc) => c.slices w * tileBytes f sc
    | none => 0
  (scratchSa core (16 * gran), len)

/-- Whether a running command guards any of the bytes given (R196); an operand beyond its scratchpad guards nothing, since the
command is refused. -/
def Cmd.guardsRange (c : Cmd) (sa n : Nat) : Bool :=
  match c.op with
  | .mma true _ _ =>
    let w := MmaWord.ofWord c.d
    let hit (b : Bool) : Bool :=
      let o := c.operandAt w b
      decide (sa < o.1 + o.2) && decide (o.1 < sa + n) && decide (o.2 ≤ 0x40000)
    !c.ran && (hit false || hit true)
  | _ => false

end Sys2Proof.Machine
end

