-- ==== Sys2Proof/Machine/Codes.lean ====
section
/-! DEFINITION. What fences and flags wait for (R65, R66, R73), the old copies that a command may still read (R323), and what a write does
(R344, R346, R353). -/

namespace Sys2Proof.Machine

/-! ### What a fence or a flag waits for -/

def State.modCmd (s : State) (id : Nat) (f : Cmd → Cmd) : State :=
  { s with cmds := s.cmds.map fun c => if c.id == id then f c else c }
def State.cmdAt (s : State) (id : Nat) : Option Cmd := s.cmds.find? fun c => c.id == id

/-- Homes that a scope covers, seen from a core; control core 512 + k stands in cluster k. -/
def scopeCovers (sc : Scope) (core home : Nat) : Bool :=
  match sc with
  | .s => false
  | .c => home == core
  | .k => clusterOf home == clusterOf core
  | .d => true
  | .y => true

/-- Whether a scope covers a write: one to a page of a peer only where it is `.y`. -/
def LateWrite.covered (w : LateWrite) (sc : Scope) (core : Nat) : Bool :=
  if w.dev.isSome then sc == .y else scopeCovers sc core w.home

/-- Whether the commands have completed and their writes to the homes covered are performed. -/
def State.fenced (s : State) (sc : Scope) (core : Nat) (ids : List Nat) : Bool :=
  ids.all fun i => !s.cmds.any (fun c => c.id == i) && !s.late.any fun w => w.cmd == i && w.covered sc core

/-- Whether a command's acquire flag lets it read. -/
def State.acquired (s : State) (c : Cmd) : Bool :=
  match c.acq with
  | some sc => s.fenced sc c.core c.after
  | none => true

/-! ### Old copies (R323) -/

/-- Whether a command reads each granule at a moment of its own, and may read one of the bytes given. -/
def Cmd.readsOld (c : Cmd) (sa n : Nat) : Bool :=
  !c.ran &&
    match c.op with
    | .mma false _ _ =>
      let w := MmaWord.ofWord c.d
      let hit (b : Bool) : Bool :=
        let o := c.operandAt w b
        decide (sa < o.1 + o.2) && decide (o.1 < sa + n)
      hit false || hit true
    | .mld | .attn .. => true
    | _ => false

/-- Before a write of `n` bytes, the granules it changes are kept for the commands that may already have read them. -/
def State.keepOld (s : State) (sa n : Nat) : State :=
  let gs := (List.range ((sa + n + 15) / 16 - sa / 16)).map (sa / 16 + ·)
  let olds := gs.map fun g => (g, s.mem.readN (16 * g) 16, (s.poisonedIn (16 * g) 16).isSome)
  { s with cmds := s.cmds.map fun c => if c.readsOld sa n && s.acquired c then { c with olds := c.olds ++ olds } else c }

/-! ### Writes -/

/-- What a write of `n` bytes finds that must not write part of a poisoned unit: a unit that it does not cover is read first (R344,
R346). -/
def State.probePart (s : State) (va sa n : Nat) : Option Nat × State :=
  let whole (u size : Nat) : Bool := decide (sa ≤ u) && decide (u + size ≤ sa + n)
  let s := (s.flaws.filter fun f => f.within sa n && !whole f.unit f.size && !s.hidden f).foldl (fun s f => s.found f (some va)) s
  (s.poison.find? fun u => decide (u < sa + n) && decide (sa < u + unitSize u) && !whole u (unitSize u), s)

/-- A write of `n` bytes gives what it covers a fresh code (R344); a unit of which it writes a part is read first. -/
def State.freshCode (s : State) (va : Option Nat) (sa n : Nat) : State :=
  (s.flaws.filter fun f => f.within sa n && !s.hidden f).foldl (fun (s : State) f =>
    if decide (sa ≤ f.unit) && decide (f.unit + f.size ≤ sa + n) then { s with flaws := s.flaws.filter fun x => x != f }
    else s.found f va) s

/-- The sectors of a write have no tolerant bits but where KVAPP makes it (R353). -/
def State.plainCode (s : State) (sa n : Nat) : State :=
  if s.tolerant.isEmpty then s
  else { s with tolerant := s.tolerant.filter fun u => !(decide (u < sa + n) && decide (sa < u + 128)) }

/-- Bytes are written at their place: a fresh code, a lost unit that is covered whole made good (R346), and in main memory the cached
sectors dirty (R55). -/
def State.putBytes (s : State) (va sa : Nat) (bytes : List Byte) : State :=
  let s := ((s.keepOld sa bytes.length).freshCode (some va) sa bytes.length).plainCode sa bytes.length
  ({ s with mem := s.mem.writeN sa bytes }.unpoison sa bytes.length).dirtied (dieOf (s.homeOf va)) va sa bytes.length

/-- Bytes of main memory that the device writes of its own account: table entries, and links of free frames. -/
def State.putPhys (s : State) (pa : Nat) (bytes : List Byte) : State :=
  let s := ((s.keepOld pa bytes.length).freshCode none pa bytes.length).plainCode pa bytes.length
  ({ s with mem := s.mem.writeN pa bytes }.unpoison pa bytes.length).l2Put pa true

/-- Whether a read of a control core's memory meets an error that its code cannot correct, which stops it (R345). -/
def State.ctrlFlawed (s : State) (sa n : Nat) : Bool := s.flaws.any fun f => f.within sa n && f.kind == .uncorrectable

/-- Cells of an accumulator slot that are written have a fresh code (R344). -/
def State.freshCells (s : State) (k n : Nat) (p : Nat → Bool) : State :=
  let base := 16384 * (16 * k + n)
  { s with flaws := s.flaws.filter fun f => !(f.store == 4 && decide (base ≤ f.unit) && decide (f.unit < base + 16384) && p (f.unit - base)) }

/-- A read of the cells of an accumulator slot that `p` names finds their errors: a cell that cannot be corrected becomes the canonical NaN,
EDAT is set (R201, R345), and a record of class 2 names the store (R348; DEDUCED, log 112). -/
def State.accProbe (s : State) (k n : Nat) (p : Nat → Bool) : State :=
  let base := 16384 * (16 * k + n)
  let mine (f : Flaw) : Bool := f.store == 4 && decide (base ≤ f.unit) && decide (f.unit < base + 16384) && p (f.unit - base)
  (s.flaws.filter mine).foldl (fun (s : State) f =>
    let s := { s with flaws := s.flaws.filter fun x => x != f }
    match f.kind with
    | .uncorrectable =>
      let r : MeqRec :=
        { kind := 9, cluster := k, seq := 0, arg0 := wordN (2 ^ 64 - 1), arg1 := wordN (4 + 2 ^ 32 * 2 + 2 ^ 40 * 4), arg2 := 0, ref := 0 }
      { (s.modAcc k n fun a => { a with cells := a.cells.set (f.unit - base) 0x7FC00000, edat := true }).errAdd 31 16 with
        meqPend := s.meqPend ++ [r] }
    | .corrected | .low => s.errAdd 15 0) s

end Sys2Proof.Machine
end

