-- ==== Sys2Proof/Machine/Lines.lean ====
section
/-! DEFINITION. Rights (R46, R47), update-only lines (R56, R57), first-level lines and the instruction cache (R55), and resolving an
address (R53). -/

namespace Sys2Proof.Machine

/-! ### Rights -/

/-- Rights of a (DOM, KEY) pair at a core: from its PLB, or from the domain rights table (R46, R47). -/
def State.rightsAt (s : State) (core dom key : Nat) : Nat × State :=
  match (s.coreAt core).plb.find? fun e => e.1 == dom && e.2.1 == key with
  | some e => (e.2.2, s.modCore core fun c => { c with plb := e :: c.plb.filter fun y => y != e })
  | none =>
    let sa := bitsOf s.regs.drtbase.toNat 39 24 * 2 ^ 24 + 4096 * dom + key
    let s := s.tableProbe sa 1
    let r := (s.mem.read sa).toNat
    (r, s.modCore core fun c => { c with plb := ((dom, key, r) :: c.plb).take 64 })

/-! ### Update-only lines (R56, R57) -/

/-- Bits of f32 +: rne, never flushed (R56). -/
def f32Add (a b : Nat) : Nat × NFlags := fmtF32.add .rne false a b

/-- One combining step on words of `size` bytes. -/
def CupdOp.apply (op : CupdOp) (size old v : Nat) : Nat :=
  let w := 8 * size
  match op with
  | .add => (old + v) % 2 ^ w
  | .min => if signedOf w old ≤ signedOf w v then old % 2 ^ w else v % 2 ^ w
  | .max => if signedOf w old ≤ signedOf w v then v % 2 ^ w else old % 2 ^ w
  | .or => (old ||| v) % 2 ^ w
  | .fadd => (f32Add old v).1

/-- The identity of an operation (R56). -/
def CupdOp.ident (op : CupdOp) (size : Nat) : Nat :=
  match op with
  | .add => 0
  | .or => 0
  | .min => 2 ^ (8 * size - 1) - 1
  | .max => 2 ^ (8 * size - 1)
  | .fadd => 0

/-- Apply a touched word of an update-only line to its target: the sector is read. A word whose target is poisoned stays in the update-only
line, until a later merge finds the unit clean, and the unit is recorded (R344, R346; DEDUCED, log 111). Answers the words that stay. -/
def UpdLine.mergeWord (u : UpdLine) (r : Table Nat × State) (w : Nat × Nat) : Table Nat × State :=
  let va := 256 * u.line + w.1
  let sa := u.pa + w.1
  match r.2.probe (some va) sa u.size with
  | (some x, s) => (r.1 ++ [w], s.notePoison x va (clusterOf u.core))
  | (none, s) =>
    let s := s.keepOld sa u.size
    (r.1, ({ s.plainCode sa u.size with mem := s.mem.writeNat sa u.size (u.op.apply u.size (s.mem.readNat sa u.size) w.2) } : State).dirtied
      (dieOf u.core) va sa u.size)

/-- The lines of a chunk's write signature, and whether either of its signatures holds a line (R37, R180). -/
def Chunk.outLines (c : Chunk) : List Nat := c.writes ++ c.upds ++ c.vwrites
def Chunk.touches (c : Chunk) (l : Nat) : Bool :=
  c.reads.contains l || c.writes.contains l || c.upds.contains l || c.vreads.contains l || c.vwrites.contains l

/-- Another agent's write reaches lines: open chunks that have touched one are in conflict (R63; log 12). -/
def State.flagTouched (s : State) (lines : List Nat) : State :=
  s.mapSlots fun _ _ x =>
    if x.chunk.isOpen && lines.any x.chunk.touches then { x with chunk := { x.chunk with conflict := true } } else x

/-- Write one entry of a core's trace ring (R61), with the commit number of the chunk that it logs. The spec gives the ring no domain: the
port checks no rights; a ring whose page is absent, malformed or a peer's, or whose address is not of the translated space, loses the
entry, and HEAD stays (DESIGN CHOICE, log 91). A chunk that has read the place conflicts (R63). -/
def State.traceEntry (s : State) (home srcCore srcSlot : Nat) (commit : BitVec 32) (va kind size : Nat) : State :=
  let c := s.coreAt home
  let a := c.trBase.toNat + 16 * c.trHead
  if !c.trEn || decide (2 ^ 56 ≤ a) then s
  else
    let w3 := srcCore * 2 ^ 23 + srcSlot * 2 ^ 19 + kind * 2 ^ 16 + bitLen (size - 1) * 2 ^ 13
    let data := leBytes 8 va ++ leBytes 4 commit.toNat ++ leBytes 4 w3
    match s.walk a with
    | .leaf x =>
      if x.peer.isSome then s
      else
        ((s.putBytes a (x.pa + (a - x.va)) data).flagTouched [lineOf a]).modCore home fun c => { c with trHead := (c.trHead + 1) % 4096 }
    | .absent .. => s
    | .malformed => s

/-- Merge one update-only line: its words into the target, and, where another core's line is merged, a trace entry per touched
word, which names the slot and the chunk of the last CUPD to the word (R57, R61; DEDUCED, log 91). -/
def State.mergeOne (s : State) (u : UpdLine) : State :=
  let home := s.homeOf (256 * u.line)
  let s := { s with upds := s.upds.filter fun x => x != u }
  let s := s.modCore u.core fun c => { c with l1 := c.l1.filter fun y => !(y.upd && y.line == u.line) }
  let r := u.words.foldl u.mergeWord ([], s)
  let stays : UpdLine := { u with
    words := r.1, marks := r.1.map fun w => (w.1, { u.marks.get UpdMark.zero w.1 with met := true }) }
  let s := if r.1.isEmpty then r.2 else { r.2 with upds := r.2.upds ++ [stays] }
  if home == u.core then s
  else (u.words.filter fun w => !r.1.contains w).foldl (fun s w =>
    let by' := u.marks.get UpdMark.zero w.1
    s.traceEntry home u.core by'.slot by'.commit (256 * u.line + w.1) 2 u.size) s

/-- The line that arrives next at the merge point: any of those on their way, as free bits choose (R57; log 6). -/
def State.arriving (s : State) : List UpdLine → Option UpdLine × State
  | [] => (none, s)
  | [u] => (some u, s)
  | u :: us =>
    let b := s.drawBit
    if b.1 then (some u, b.2) else b.2.arriving us

/-- Merge lines one by one, in an order of arrival the device chooses. -/
def State.mergeAll (s : State) : Nat → List UpdLine → State
  | 0, _ => s
  | n + 1, us =>
    match s.arriving us with
    | (some u, s) => State.mergeAll (s.mergeOne u) n (us.erase u)
    | (none, s) => s

/-- Merge every update-only line whose line number satisfies `p` (R49, R54, R57). -/
def State.mergeWhere (s : State) (p : Nat → Bool) : State :=
  let us := s.upds.filter fun u => p u.line
  s.mergeAll us.length us

/-- Recall every holder of a line before a read, store or atomic of it is performed (R57). -/
def State.recall (s : State) (line : Nat) : State := s.mergeWhere fun l => l == line

/-! ### First-level lines -/

/-- A line enters a core's first-level cache, or a sector of one that the cache holds with the same frame. The line it displaces is merged
if it is update-only, or written back (R55, R57). -/
def State.l1Fill (s : State) (core : Nat) (x : L1Line) : State :=
  let s := if x.upd then s else (List.range 2).foldl (fun s i => if x.valid.getLsbD i then s.freshCopy 2 (x.pa + 128 * i) else s) s
  let put (s : State) (y : L1Line) : State := s.modCore core fun c => { c with l1 := y :: c.l1 }
  let drop (s : State) (y : L1Line) : State := s.modCore core fun c => { c with l1 := c.l1.filter fun z => z != y }
  match (s.coreAt core).l1.find? fun y => y.line == x.line && y.upd == x.upd with
  | some y =>
    if y.pa == x.pa then put (drop s y) { x with valid := y.valid ||| x.valid, dirty := y.dirty }
    else put ((drop s y).writeBack core y) x
  | none =>
    match evicted (s.coreAt core).l1 (fun y => y.line % 256 == x.line % 256) 12 with
    | some old =>
      let s := drop s old
      put (if old.upd then (s.upds.filter fun (u : UpdLine) => u.core == core && u.line == old.line).foldl (fun s u => s.mergeOne u) s
        else s.writeBack core old) x
    | none => put s x

/-! ### Resolving an address -/

/-- A walk reads its entries, and finds their errors (R344). What stands in an entry that is poisoned is walked as it stands (DESIGN CHOICE,
log 112). -/
def State.walkProbe (s : State) (va : Nat) : State :=
  (walkReads s.mem va 0 (bitsOf s.regs.ptroot.toNat 39 8 * 256) walkLevels).foldl (fun s a => s.tableProbe a 8) s

/-- The route table is read where a request leaves (R285, R344). -/
def State.linkProbe (s : State) (dev : Nat) : State :=
  let va := bitsOf s.regs.lrtbase.toNat 63 15 * 2 ^ 15 + dev
  let s := s.walkProbe va
  match s.walk va with
  | .leaf x => if x.peer.isNone then s.tableProbe (x.pa + (va - x.va)) 1 else s
  | .absent .. | .malformed => s

/-- A request goes out to a device; one whose link is down or retrains waits for it or for another route (R286, R355). -/
def State.sendPeer (s : State) (dev va dom : Nat) (op : PeerOp) : State :=
  if s.linkStalled dev then { s with linkHeld := s.linkHeld ++ [(dev, va, dom, op)] }
  else { s.linkProbe dev with peerOut := (s.linkProbe dev).peerOut ++ [(dev, va, dom, op)] }

/-- A strand of a peer goes home; its context is kept until its receipt is known (R288, R354). -/
def State.shipBack (s : State) (dev va dom : Nat) (line : List Byte) : State :=
  if s.linkStalled dev then s.sendPeer dev va dom (.ship line)
  else State.sendPeer { s with homing := s.homing ++ [(dev, va, dom, PeerOp.ship line)] } dev va dom (.ship line)

/-- What waited for a link or a route goes out, in order, where it can (R355). -/
def State.sendHeld (s : State) : State :=
  match s.linkHeld with
  | [] => s
  | l => l.foldl (fun (s : State) e =>
      match e.2.2.2 with
      | .ship line => s.shipBack e.1 e.2.1 e.2.2.1 line
      | op => s.sendPeer e.1 e.2.1 e.2.2.1 op) { s with linkHeld := [] }

/-- What came of resolving a translated address at the core that performs the access. -/
inductive Res where
  | ok (sa : Nat)
  | peer (dev : Nat)
  | miss
  | absent
  | malformed
  | lacks (bits : Nat)
deriving DecidableEq, Repr

/-- The rights `need` names that `have` does not grant. -/
def lacking (need rights : Nat) : Nat := need &&& (15 ^^^ (rights % 16))

/-- Rights checked, then the storage address. -/
def State.checked (s : State) (core dom need key sa : Nat) : Res × State :=
  let r := s.rightsAt core dom key
  let l := lacking need r.1
  (if l = 0 then .ok sa else .lacks l, r.2)

/-- Resolve an address at `core`: a hit, in a line whose sector is held, needs no translation; a miss consults the die's translation cache,
and, with `walkNow`, the page table (R53, R55). Rights to a page of the host are checked here, to a page of a peer by its owner (R46,
R286). -/
def State.resolve (s : State) (core dom need va : Nat) (walkNow : Bool) : Res × State :=
  match (s.coreAt core).l1.find? fun l => l.line == lineOf va && !l.upd && l.valid &&& sectorBit va != 0 with
  | some l =>
    (s.modCore core fun c => { c with l1 := l :: c.l1.filter fun y => y != l }).checked core dom need l.key (l.pa + va % 256)
  | none =>
    let fill (x : Xlat) (s : State) : Res × State :=
      match x.peer with
      | some d =>
        if d = 0x7FFF then
          match s.checked core dom need x.key 0 with
          | (.ok _, s) => (.peer d, s)
          | r => r
        else (.peer d, s)
      | none =>
        let pa := x.pa + (va - x.va)
        let s := s.l1Fill core { line := lineOf va, key := x.key, pa := pa - va % 256, valid := sectorBit va, dirty := 0, upd := false }
        (s.l2Access (pa / 128 * 128) (some va) (dieOf core) false).checked core dom need x.key pa
    match s.tcFind (dieOf core) va with
    | some (x, s) => fill x s
    | none =>
      if walkNow then
        let s := s.walkProbe va
        match s.walk va with
        | .leaf x => fill x (s.tcFill (dieOf core) x)
        | .absent .. => (.absent, s)
        | .malformed => (.malformed, s)
      else (.miss, s)

/-- The instruction cache of a core: the line that holds an address's sector, and its 128 bytes. -/
def ILine.sector (l : ILine) (va : Nat) : Option (List Byte) := if va / 128 % 2 = 0 then l.lo else l.hi
def ILine.withSector (l : ILine) (va : Nat) (b : List Byte) : ILine := if va / 128 % 2 = 0 then { l with lo := some b } else { l with hi := some b }
def State.icFind (s : State) (core va : Nat) : Option ILine :=
  (s.coreAt core).icache.find? fun l => l.line == lineOf va && (l.sector va).isSome

/-- Fill the sector of an address, from the second-level slice that holds it (R55); a poisoned one is not kept (R346). -/
def State.icFill (s : State) (core key va pa : Nat) : State :=
  let s := s.l2Access (pa / 128 * 128) (some va) (dieOf core) false
  match s.probe (some va) (pa / 128 * 128) 128 with
  | (some _, s) => s
  | (none, s) =>
  let b := s.mem.readN (pa / 128 * 128) 128
  let s := { s with flaws := s.flaws.filter fun f => !(f.store == 5 && f.core == core && f.unit / 128 == pa / 128) }
  s.modCore core fun c =>
    match c.icache.find? fun l => l.line == lineOf va && l.pa == pa - va % 256 with
    | some l => { c with icache := l.withSector va b :: c.icache.filter fun y => y.line != l.line }
    | none =>
      let old := evicted c.icache (fun y => y.line % 64 == lineOf va % 64) 4
      { c with icache := ({ line := lineOf va, key, pa := pa - va % 256, lo := none, hi := none } : ILine).withSector va b
                :: c.icache.filter fun y => y.line != lineOf va && some y != old }

/-- A fetch reads a sector of the instruction cache, and finds its errors: a sector that its code cannot correct is dropped and filled
again (R344, R345). -/
def State.icProbe (s : State) (core key va pa : Nat) : State :=
  (s.flaws.filter fun f => f.store == 5 && f.core == core && decide (f.unit < pa + 2) && decide (pa < f.unit + 8)).foldl (fun s f =>
    let s := { s with flaws := s.flaws.filter fun x => x != f }.errAdd 15 0
    if f.kind == .uncorrectable then
      let drop (l : ILine) : ILine := if va / 128 % 2 = 0 then { l with lo := none } else { l with hi := none }
      (s.modCore core fun c => { c with icache := c.icache.map fun l => if l.line == lineOf va then drop l else l }).icFill core key va pa
    else s) s

/-- Resolve an instruction address for a core (R55): a sector that its instruction cache holds needs no translation. -/
def State.resolveFetch (s : State) (core dom va : Nat) : Res × State :=
  match s.icFind core va with
  | some l =>
    let s := s.icProbe core l.key va (l.pa + va % 256)
    let s := match s.icFind core va with
      | some l => s.modCore core fun c => { c with icache := l :: c.icache.filter fun y => y != l }
      | none => s
    s.checked core dom 4 l.key (l.pa + va % 256)
  | none =>
    match s.tcFind (dieOf core) va with
    | some (x, s) =>
      match x.peer with
      | some d => (.peer d, s)
      | none =>
        let pa := x.pa + (va - x.va)
        (s.icFill core x.key va pa).checked core dom 4 x.key pa
    | none => (.miss, s)

/-- Bytes of an instruction address that has been resolved: of a sector whose cached copy differs from what memory holds now, the
old or the new (R103; log 10). -/
def State.codeAt (s : State) (core va sa n : Nat) : List Byte × State :=
  let now := s.mem.readN sa n
  match (s.icFind core va).bind fun l => l.sector va with
  | some b =>
    let old := (b.drop (va % 128)).take n
    if old == now then (now, s)
    else
      let d := s.drawBit
      (if d.1 then old else now, d.2)
  | none => (now, s)

end Sys2Proof.Machine
end

