-- ==== Sys2Proof/Machine/Sched.lean ====
section
/-! DEFINITION. Context lines (R25), device accesses, the management event queue (R289), and the life of a strand: placing,
queueing, spilling, parking, ending (R30 to R32, R163, R330 to R334). -/

namespace Sys2Proof.Machine

/-! ### The context line (R25, R26) -/

/-- The strand flags word (R26). -/
def Ctx.flags (x : Ctx) : Nat :=
  x.guest.toNat + 2 * x.parked.toNat + 4 * x.pinv.toNat + 8 * x.pins.toNat + 16 * x.pinq.toNat + 32 * x.gang.toNat
    + 64 * x.leader.toNat + 128 * x.intrap.toNat

/-- The stored line. -/
def Ctx.toLine (x : Ctx) : List Byte :=
  x.gpr.toList.flatMap (fun w => leBytes 8 w.toNat) ++ leBytes 8 x.pc.toNat ++ leBytes 2 (x.pred ||| 1).toNat
    ++ leBytes 2 x.flags ++ leBytes 4 x.strandId.toNat ++ leBytes 4 x.block.toNat ++ leBytes 2 x.launch.toNat
    ++ leBytes 2 x.tdom.toNat ++ leBytes 8 x.future.toNat ++ leBytes 4 x.tmode.toNat ++ leBytes 28 0

/-- A field of a stored line. -/
def lineField (l : List Byte) (off n : Nat) : Nat := leNat ((l.drop off).take n)

/-- TMODE and TDOM as read: their reserved bits are 0 (R45, R89). -/
def tmodeRead (w : BitVec 32) : BitVec 32 := w &&& 0x00FE000F
def tdomRead (w : BitVec 16) : BitVec 16 := w &&& 0x0FFF

/-- The context a stored line holds; what travels beside it is given by the caller. -/
def Ctx.ofLine (l : List Byte) : Ctx :=
  let f := lineField l 0xCA 2
  { gpr := Vector.ofFn fun i => wordN (lineField l (8 * i.val) 8), pc := wordN (lineField l 0xC0 8),
    pred := BitVec.ofNat 16 (lineField l 0xC8 2) ||| 1, intrap := bitOf f 7, leader := bitOf f 6, gang := bitOf f 5,
    pinq := bitOf f 4, pins := bitOf f 3, pinv := bitOf f 2, parked := bitOf f 1, guest := bitOf f 0,
    strandId := BitVec.ofNat 32 (lineField l 0xCC 4), block := BitVec.ofNat 24 (lineField l 0xD0 3),
    launch := BitVec.ofNat 16 (lineField l 0xD4 2), tdom := tdomRead (BitVec.ofNat 16 (lineField l 0xD6 2)),
    future := wordN (lineField l 0xD8 8), tmode := tmodeRead (BitVec.ofNat 32 (lineField l 0xE0 4)), bcore := 0, lane := 0, gsz := 0,
    fseq := none, foreign := none }

/-- Pinned (R35). -/
def Ctx.pinned (x : Ctx) : Bool := x.gang || x.pinv || x.pins || x.pinq

/-! ### Writes of agents outside the strands -/

/-- Whether a chunk has made its first access. -/
def Chunk.accessed (c : Chunk) : Bool :=
  !(c.reads.isEmpty && c.writes.isEmpty && c.upds.isEmpty && c.vreads.isEmpty && c.vwrites.isEmpty)

/-- A chunk that writes lines commits, or an engine fills a granule (R143): every open chunk that has made its first access is in
conflict if it has touched one of them, or when it touches one later (R37). -/
def State.flagLines (s : State) (lines : List Nat) : State :=
  s.mapSlots fun _ _ x =>
    if x.chunk.isOpen && x.chunk.accessed then
      { x with chunk := { x.chunk with
          conflict := x.chunk.conflict || lines.any x.chunk.touches
          seen := lines.foldl (fun l n => insertNat n l) x.chunk.seen } }
    else x

/-- The line an access belongs to in signatures: of the virtual address in the translated space, of the storage address in a
window, whose own-scratchpad names are aliases (R42). -/
def lineKey (va sa : Nat) : Nat := if va < 2 ^ 56 then lineOf va else lineOf sa

/-- A write performed at its home at once by an agent other than a chunk: update-only lines are recalled first (R57), and chunks
that touched the line conflict. -/
def State.devWrite (s : State) (va sa : Nat) (bytes : List Byte) : State :=
  let s := if va < 2 ^ 56 then s.recall (lineOf va) else s
  (s.putBytes va sa bytes).flagTouched [lineKey va sa]

/-- A read performed at its home at once by such an agent. -/
def State.devRead (s : State) (va sa n : Nat) : List Byte × State :=
  let s := if va < 2 ^ 56 then s.recall (lineOf va) else s
  (s.mem.readN sa n, s)

/-- Resolve an address of the translated space for such an agent, with a domain, at the address's home. -/
def State.devResolve (s : State) (dom need va : Nat) : Res × State :=
  if va < 2 ^ 56 then s.resolve (s.homeOf va) dom need va true else (.malformed, s)

/-! ### The management event queue (R289, R290) -/

/-- The 32 bytes of a record. -/
def MeqRec.bytes (r : MeqRec) : List Byte :=
  leBytes 8 (r.kind % 256 + 2 ^ 16 * (r.cluster % 65536) + 2 ^ 32 * (r.seq % 2 ^ 32)) ++ leBytes 8 r.arg0.toNat
    ++ leBytes 8 r.arg1.toNat ++ leBytes 8 r.arg2.toNat

/-- Whether a record takes an answer (R290, R348). -/
def MeqRec.answerable (r : MeqRec) : Bool := r.kind != 6 && !(r.kind == 9 && bitsOf r.arg1.toNat 39 32 != 1)

/-- Events that wait at their sources enter the device, oldest first, while it holds fewer than 256 records (R289). SEQ is the
number of the record since reset (DEDUCED, log 23). -/
def State.meqTake : Nat → State → State
  | 0, s => s
  | n + 1, s =>
    match s.meqPend with
    | [] => s
    | r :: rest =>
      if s.meqWait.length < 256 then
        State.meqTake n
          { s with meqWait := s.meqWait ++ [{ r with seq := s.meqSeq % 2 ^ 32 }], meqPend := rest, meqSeq := s.meqSeq + 1 }
      else s

/-- Bytes of the event ring are stored as an access of BAR 2 is made, to this device, the host or a peer (R284, R286, R289); none where the
store has to wait. -/
def State.ringStore (s : State) (va : Nat) (bytes : List Byte) : Option State :=
  match s.devResolve 0 2 va with
  | (.ok sa, s) => some (s.devWrite va sa bytes)
  | (.peer dev, s) =>
    if dev = 0x7FFF then some (s.devWrite (hostSa va) (hostSa va) bytes)
    else if s.linkStalled dev then none
    else some (s.sendPeer dev va 0 (.store bytes))
  | (_, _) => none

/-- Write the oldest waiting record to the ring, while the ring has room and its page admits the write. -/
def State.meqWrite (s : State) : Option State :=
  match s.meqWait with
  | [] => none
  | r :: rest =>
    let base := s.regs.meqbase.toNat / 2 ^ 15 * 2 ^ 15
    if base == 0 || decide (1024 ≤ (s.regs.meqWidx - s.regs.meqRidx).toNat) then none
    else
      let va := base + 32 * (s.regs.meqWidx.toNat % 1024)
      if s.switches va then none else
      match s.ringStore va r.bytes with
      | some s =>
        let b := s.regs.meqbase.toNat
        some { s with
          meqWait := rest
          meqOpen := if r.answerable then s.meqOpen ++ [r] else s.meqOpen
          regs := { s.regs with meqWidx := s.regs.meqWidx + 1 }
          msix := if bitOf b 6 then s.msix ++ [b % 64] else s.msix }
      | none => none

/-- Waiting records go to the ring in order, and pending events take their room. -/
def State.meqDrain : Nat → State → State
  | 0, s => s
  | n + 1, s =>
    let s := s.meqTake s.meqPend.length
    match s.meqWrite with
    | some s => State.meqDrain n s
    | none => s

/-- Post a record. -/
def State.postFor (s : State) (ref kind cluster : Nat) (arg0 arg1 arg2 : Word) : State :=
  let s := { s with meqPend := s.meqPend ++ [{ kind, cluster, seq := 0, arg0, arg1, arg2, ref }] }
  State.meqDrain (s.meqPend.length + s.meqWait.length + 1) s
def State.post (s : State) (kind cluster : Nat) (arg0 arg1 arg2 : Word) : State := s.postFor 0 kind cluster arg0 arg1 arg2

/-! ### Blocks -/

def State.blockOf (s : State) (x : Ctx) : Option Block :=
  if x.foreign.isSome then none else s.block? x.launch.toNat x.block.toNat
/-- What came with a strand shipped from a peer of its launch there: its dictionary and its handlers, free values (log 16). Its number
is none of this device's. -/
def Launch.ofPeer (dev n : Nat) : Launch :=
  let f := Config.peerLaunch dev n
  { num := 2 ^ 16 * (dev + 1) + n, queue := 0, prio := 0, bsz := 0, steal := 0, manual := false, dom := 0, count := 1
    entry := 0, tvec := wordN (f 0), tfut := wordN (f 1), dict := f 2 % 2 ^ 52 * 2 ^ 12, dcnt := f 3 % 1025, spill := 0, spl := 0
    param := 0, doneIdx := 0, doneEn := false, dies := 0, dealt := 1, complete := 0 }
/-- The launch of a strand. -/
def State.launchOf (s : State) (x : Ctx) : Option Launch :=
  match x.foreign with
  | some dev => some (Launch.ofPeer dev x.launch.toNat)
  | none => s.launch? x.launch.toNat
/-- Cores per block of a block's launch. -/
def State.coresOf (s : State) (b : Block) : Nat :=
  match s.launch? b.launch with
  | some l => l.cores
  | none => 1
/-- First core of a strand's own block, where it runs; none for a strand shipped from a peer. -/
def State.baseOf (s : State) (x : Ctx) : Option Nat := (s.blockOf x).bind Block.base?
/-- Whether a core belongs to the strand's own block; a strand that has none, which dealing never makes, counts every core as its own (log 5). -/
def State.ownCore (s : State) (x : Ctx) (c : Nat) : Bool :=
  if x.foreign.isSome then false
  else
    match s.blockOf x with
    | none => true
    | some b =>
      match b.base? with
      | some base => decide (base ≤ c) && decide (c < base + s.coresOf b)
      | none => false
/-- Manual placement of the strand's own block (R32), and of the block that owns a core. -/
def State.manualOf (s : State) (x : Ctx) : Bool := ((s.launchOf x).map (·.manual)).getD false
def State.manualCore (s : State) (c : Nat) : Bool :=
  match (s.coreAt c).owner with
  | some o => ((s.launch? o.1).map (·.manual)).getD false
  | none => false
/-- The cluster that a strand's block occupies (R330), or the core's where no block is resident. -/
def State.clusterFor (s : State) (x : Ctx) (c : Nat) : Nat :=
  match s.baseOf x with
  | some b => clusterOf b
  | none => clusterOf c
/-- The block on a core. -/
def State.blockAt (s : State) (c : Nat) : Option Block := (s.coreAt c).owner.bind fun o => s.block? o.1 o.2.1

/-! ### Slots -/

/-- An empty slot keeps the trap registers, which belong to the slot (R174). -/
def Slot.cleared (x : Slot) : Slot := { Slot.empty with tepc := x.tepc, tcause := x.tcause, taddr := x.taddr }
def State.clearSlot (s : State) (c k : Nat) : State := s.modSlot c k Slot.cleared

/-- A strand as it stands on a core: GUEST and BCORE follow where it runs (R28, R52). -/
def State.seatCtx (s : State) (c : Nat) (x : Ctx) : Ctx :=
  let own := s.ownCore x c
  { x with
    guest := !own
    bcore := if own then ((s.baseOf x).map (fun b => c - b)).getD x.bcore else x.bcore }

/-- A strand starts in a slot, with the predictor it brings (R51, R147). -/
def State.place (s : State) (c k : Nat) (x : Ctx) (h n : Nat) : State :=
  let old := (s.slotAt c k).cleared
  s.setSlot c k { old with occ := .running, ctx := s.seatCtx c x, predH := h, predN := n }

/-! ### Deques and spill rings (R31) -/

/-- Where a launch's spill ring of a block stands. -/
def Launch.spillAt (l : Launch) (b i : Nat) : Nat := l.spill + 256 * 2 ^ l.spl * b + 256 * (i % 2 ^ l.spl)

/-- Contexts in a block's spill ring. -/
def Block.spilled (b : Block) : Nat := b.spillTail - b.spillHead

/-- Move a context to the block's spill ring; it stays where it is when the ring is full or refuses the write. -/
def State.spill (s : State) (b : Block) (core : Nat) (x : Ctx) : Option State :=
  match s.launch? b.launch with
  | none => none
  | some l =>
    if 2 ^ l.spl ≤ b.spilled then none
    else
      let va := l.spillAt b.index b.spillTail
      match s.devResolve l.dom 2 va with
      | (.ok sa, s) =>
        some ((s.devWrite va sa x.toLine).modBlock b.launch b.index fun b =>
          { b with spillTail := b.spillTail + 1, spillSide := b.spillSide ++ [{ core, bcore := x.bcore, fseq := x.fseq, id := x.strandId }] })
      | (_, _) => none

/-- Push onto the bottom; a full deque first moves its top entry to the spill ring. -/
def State.pushBottom (s : State) (c : Nat) (x : Ctx) : State :=
  let q := (s.coreAt c).deque
  match q with
  | [] => s.modCore c fun k => { k with deque := [x] }
  | top :: rest =>
    if q.length < 64 then s.modCore c fun k => { k with deque := k.deque ++ [x] }
    else
      match (s.blockAt c).bind fun b => s.spill b c top with
      | some s => s.modCore c fun k => { k with deque := rest ++ [x] }
      | none => s.modCore c fun k => { k with deque := k.deque ++ [x] }

/-- Push onto the top; where the deque is full, the pushed context is its top and spills. What happens where the spill ring is full too,
the spec does not say: the deque then holds more than its 64 entries (DESIGN CHOICE, log 92), here and for a guest's return. -/
def State.pushTop (s : State) (c : Nat) (x : Ctx) : State :=
  if (s.coreAt c).deque.length < 64 then s.modCore c fun k => { k with deque := x :: k.deque }
  else
    match (s.blockAt c).bind fun b => s.spill b c x with
    | some s => s
    | none => s.modCore c fun k => { k with deque := x :: k.deque }

/-- The context at position `i` of a block's spill ring, whose line is read as any other (R344). -/
def State.spilledAt (s : State) (b : Block) (i : Nat) : Option (List Byte × State) :=
  match s.launch? b.launch with
  | none => none
  | some l =>
    let va := l.spillAt b.index i
    match s.devResolve l.dom 1 va with
    | (.ok sa, s) => some (((s.probe (some va) sa 256).2).devRead va sa 256)
    | (_, _) => none

/-- The context at place `j` of those in the ring, oldest first, leaves it: the oldest leaves at the head, the newest at the tail, and
one between them by a move of the newer ones down (DEDUCED, log 92). -/
def State.unspillAt (s : State) (b : Block) (j : Nat) : Option (Ctx × State) :=
  match s.launch? b.launch, s.spilledAt b (b.spillHead + j), b.spillSide[j]? with
  | some l, some (line, s), some side =>
    let x := { Ctx.ofLine line with bcore := side.bcore, fseq := side.fseq }
    let gone (s : State) : State :=
      s.modBlock b.launch b.index fun b =>
        if j = 0 then { b with spillHead := b.spillHead + 1, spillSide := b.spillSide.drop 1 }
        else { b with spillTail := b.spillTail - 1, spillSide := b.spillSide.eraseIdx j }
    let down (s : Option State) (i : Nat) : Option State :=
      match s.bind fun s => s.spilledAt b (b.spillHead + i + 1) with
      | none => none
      | some (line, s) =>
        let va := l.spillAt b.index (b.spillHead + i)
        match s.devResolve l.dom 2 va with
        | (.ok sa, s) => some (s.devWrite va sa line)
        | (_, _) => none
    if j = 0 then some (x, gone s)
    else
      match ((List.range (b.spillSide.length - 1 - j)).map (j + ·)).foldl down (some s) with
      | some s => some (x, gone s)
      | none => none
  | _, _, _ => none

/-- The core of ordinal 0 of a strand's own block receives a guest on its deque top (R30, R172). -/
def State.sendHome (s : State) (x : Ctx) (c : Nat) : State := s.pushTop ((s.baseOf x).getD c) x

/-- No block is leaving the core. A core that no block has takes guests from its own deque (R31). -/
def State.staying (s : State) (c : Nat) : Bool :=
  match s.blockAt c with
  | some b => b.swapping.isNone
  | none => true

/-- Take a context from another core: the oldest of its block's spill ring, or the top of its deque. -/
def State.stealFrom (s : State) (v : Nat) : Option (Ctx × State) :=
  match (s.blockAt v).bind fun b => s.unspillAt b 0 with
  | some r => some r
  | none =>
    match (s.coreAt v).deque with
    | [] => none
    | x :: rest => some (x, s.modCore v fun q => { q with deque := rest })

/-- Place in a block's spill ring of what a core spilled last. -/
def Block.spilledBy (b : Block) (c : Nat) : Option Nat :=
  ((List.range b.spillSide.length).filter fun j => (b.spillSide[j]?).any fun e => e.core == c).getLast?

/-- Take a context of the core's own: the bottom of its deque, or what it spilled last (R31). -/
def State.takeOwn (s : State) (c : Nat) : Option (Ctx × State) :=
  match (s.coreAt c).deque.getLast? with
  | some x => some (x, s.modCore c fun q => { q with deque := q.deque.dropLast })
  | none => (s.blockAt c).bind fun b => (b.spilledBy c).bind fun j => s.unspillAt b j

/-! ### The end of a strand and of a block (R163) -/

def Ctx.isOf (x : Ctx) (l b : Nat) : Bool := x.foreign.isNone && x.launch.toNat == l && x.block.toNat == b

/-- Whether a strand of the block is live. -/
def State.liveIn (s : State) (l b : Nat) : Bool :=
  s.slots.any (fun p => p.2.occ == .running && p.2.ctx.isOf l b)
    || s.cores.any (fun p =>
      p.2.parkStore.any (fun q => q.slot.ctx.isOf l b) || p.2.deque.any (fun x => x.isOf l b)
        || p.2.arrivals.any (fun a => a.ctx.isOf l b))
    || s.shipped.any (fun p => p.2.2.isOf l b)

/-- Free a core: no block, its slots, deque, mailboxes and neighbour queues empty. A guest of another block runs on. -/
def State.freeCore (s : State) (c : Nat) : State :=
  let s := (List.range 16).foldl (fun s k => if (s.slotAt c k).occ == .running then s else s.clearSlot c k) s
  s.modCore c fun k => { k with owner := none, deque := [], mboxes := [], nqUp := [], nqDown := [], parkStore := [] }

/-- A running block is complete when none of its strands is live and its deques and spill ring are empty: its cores become
free and its launch counts it. -/
def State.settleBlock (s : State) (l b : Nat) : State :=
  match s.block? l b with
  | none => s
  | some blk =>
    match blk.base? with
    | none => s
    | some base =>
      let cores := (List.range (s.coresOf blk)).map (base + ·)
      if s.liveIn l b || decide (0 < blk.spilled) || cores.any (fun c => !(s.coreAt c).deque.isEmpty) then s
      else
        let s := cores.foldl State.freeCore s
        { s with
          blocks := s.blocks.filter fun x => !(x.launch == l && x.index == b)
          launches := s.launches.map fun x => if x.num == l then { x with complete := x.complete + 1 } else x }

/-- The block of a core, which may have lost its last context. -/
def State.settleAt (s : State) (c : Nat) : State :=
  match s.blockAt c with
  | some b => s.settleBlock b.launch b.index
  | none => s

/-- The strand in a slot ends (R27, R32, R163): in slots 1 to 15 of a core of a manual block the slot holds the finished strand. The device
that a strand was shipped from is told, since its block waits for it (R288; DEDUCED, log 16). -/
def State.endStrand (s : State) (c k : Nat) : State :=
  let x := s.slotAt c k
  let s := match x.ctx.foreign with
    | some dev => s.sendPeer dev 0 x.ctx.tdom.toNat (.ended x.ctx.strandId)
    | none => s
  let s :=
    if s.manualCore c && decide (k ≠ 0) then
      s.setSlot c k { x.cleared with occ := .finished, ctx := x.ctx }
    else s.clearSlot c k
  s.settleBlock x.ctx.launch.toNat x.ctx.block.toNat

/-! ### Absent pages and parking (R329 to R335) -/

/-- The absent page an address lies in, and the address its leaf names; a walk that ends otherwise names a 32 KiB page. -/
def State.absentPage (s : State) (va : Nat) : Nat × Nat × Nat :=
  match s.walk va with
  | .absent _ e bits => (va / 2 ^ bits * 2 ^ bits, bits, bitsOf e 39 8 * 256)
  | .leaf _ => (va / 2 ^ 15 * 2 ^ 15, 15, 0)
  | .malformed => (va / 2 ^ 15 * 2 ^ 15, 15, 0)

/-- Record a fault on an absent page, once per page in the whole device; where software serves it, post KIND 1 (R333). -/
def State.faultOn (s : State) (va cluster : Nat) (who : Word) : State :=
  let p := s.absentPage va
  if s.faults.any (fun f => f.va == p.1 && f.bits == p.2.1) then s
  else
    let soft := bitOf s.regs.dmode.toNat 0 || p.2.2 == 0
    let s := { s with faults := s.faults ++ [{ va := p.1, bits := p.2.1, posted := soft }] }
    if soft then s.post 1 cluster (wordN va) who 0 else s

/-- A strand or command met a poisoned unit: its record is posted (R346, R348). -/
def State.poisonMet (s : State) (unit va cluster : Nat) : State :=
  if s.pendingRec (poisonRec unit) then s
  else
    let s := s.notePoison unit va cluster
    State.meqDrain (s.meqPend.length + s.meqWait.length + 1) s

/-- Take the next fault sequence number of a cluster (R330, R336). -/
def State.takeFseq (s : State) (cl : Nat) : Nat × State :=
  ((s.clusterAt cl).fseq, s.modCluster cl fun k => { k with fseq := (k.fseq + 1) % 2 ^ 32 })

/-- A guest that faults goes to its own block's core of ordinal 0, which has no room in its park store for it. -/
def State.storeFull (s : State) (c k : Nat) : Bool :=
  let x := (s.slotAt c k).ctx
  x.foreign.isNone && x.guest && (s.baseOf x).any fun b => decide (16 ≤ (s.coreAt b).parkStore.length)

/-- An entry taken by a discarded chunk returns to the head of its queue (R158). -/
def Take.giveBack (t : Take) (c : Nat) (s : State) : State :=
  match t with
  | .nq w => s.modCore c fun q => { q with nqUp := w :: q.nqUp }
  | .mbox n w => s.modCore c fun q => { q with mboxes := q.mboxes.set n (w :: q.mboxes.get [] n) }
  | .wq n w => s.modCluster (clusterOf c) fun u => { u with wqs := u.wqs.set n (w :: u.wqs.get [] n) }

/-- An instruction that goes no further gives back what it holds. -/
def State.giveKept (s : State) (c k : Nat) : State :=
  match (s.slotAt c k).kept with
  | [] => s
  | l => (l.foldr (fun t s => t.giveBack c s) s).modSlot c k fun x => { x with kept := [] }

/-- Park the strand in a slot at its faulting instruction, for the reason given, which its wake ends (R330, R332). A guest parks at
home, with the slot's own registers where it is pinned or runs its handler (R329; DEDUCED, log 94). -/
def State.parkIn (s : State) (c k : Nat) (w : Wait) : State :=
  let s := s.giveKept c k
  let x := s.slotAt c k
  let f := if x.ctx.foreign.isSome then (none, s) else let f := s.takeFseq (s.clusterFor x.ctx c); (some f.1, f.2)
  let s := f.2
  let x := { x with
    ctx := { x.ctx with parked := true, fseq := f.1 }, chunk := Chunk.none, wait := some w, ticket := none,
    replies := [], begun := false, dictWord := none }
  match x.ctx.foreign with
  | some dev =>
    let va := match w with | .page va => va | .poison u => 2 ^ 64 + u | _ => 0
    let s := (s.clearSlot c k).shipBack dev va x.ctx.tdom.toNat x.ctx.toLine
    { s with foreignParked := s.foreignParked ++ [(dev, x.ctx.strandId, va)] }
  | none =>
  if x.ctx.guest && (s.baseOf x.ctx).isSome then
    let base := (s.baseOf x.ctx).getD c
    (s.clearSlot c k).modCore base fun q =>
      { q with parkStore := q.parkStore ++ [{ own := none, slot := { x with ctx := s.seatCtx base x.ctx } }] }
  else if x.ctx.pinned || s.manualOf x.ctx || decide (16 ≤ (s.coreAt c).parkStore.length) then s.setSlot c k x
  else (s.clearSlot c k).modCore c fun q => { q with parkStore := q.parkStore ++ [{ own := some k, slot := x }] }

/-- Members of a gang (R34). -/
def gangSize : GangN → Nat
  | .two => 2 | .four => 4 | .eight => 8

/-- An empty slot that takes strands: a waiting GANG reserves the slots it needs as they become empty (R34). -/
def State.gangWants (s : State) (c k : Nat) : Bool :=
  (List.range 8).any fun i =>
    let d := c / 8 * 8 + i
    let x := s.slotAt d k
    d != c && x.occ == .running && x.wait == some .gang && match x.unit with
      | .instr (.gang _ n) => let m := gangSize n; d / m == c / m
      | _ => false
def State.idleSlot (s : State) (c k : Nat) : Bool := (s.slotAt c k).occ == .empty && !s.gangWants c k

/-- Whether a strand stands at a chunk's end: no chunk, or one that has done nothing. -/
def Slot.atBoundary (x : Slot) : Bool := !x.chunk.isOpen || (x.chunk.count == 0 && x.chunk.held.isEmpty)

/-- Whether something on its way will reach the slot: the result of a command or of a unit of the core, or an answer (R23). The strand
stays in its slot until it has. -/
def Wait.bound : Wait → Bool
  | .engine _ | .refusal .. | .verdict | .divider | .sfu | .normaliser _ | .peer .. | .vimaxs .. => true
  | _ => false
def Slot.bound (x : Slot) : Bool :=
  x.wait.any Wait.bound || x.vnorm != 0 || x.replies.any fun r => match r with | .peer .. => true | .ok .. | .owner .. | .park _ | .fault .. => false

/-- A woken strand of the park store takes its own slot, the lowest FSEQ first: at once where the slot is empty, and from a
borrower that stands at a chunk's end, which goes to the deque top (R334). A pinned borrower stays, one that runs its trap
handler, whose TEPC stays with the slot (R174), and one whose own replay comes first (R335): DEDUCED (log 24). -/
def State.reseat (s : State) (c k : Nat) : State :=
  let rank (p : Parked) : Nat := p.slot.ctx.fseq.getD 0
  match leastBy rank ((s.coreAt c).parkStore.filter fun p => p.own == some k && !p.slot.ctx.parked) with
  | none => s
  | some p =>
    let b := s.slotAt c k
    let back (s : State) : State :=
      (s.modCore c fun q => { q with parkStore := q.parkStore.filter fun y => y != p }).setSlot c k
        { p.slot with occ := .running }
    let first : Bool := match b.ctx.fseq with | some f => decide (f < rank p) | none => false
    match b.occ with
    | .empty => if s.gangWants c k then s else back s
    | .running =>
      if b.atBoundary && !b.bound && !b.ctx.pinned && !b.ctx.parked && !b.ctx.intrap && !first then
        let s := s.giveKept c k
        back ((s.clearSlot c k).pushTop c b.ctx)
      else s
    | .finished | .reserved .. => s

/-- The strand of a slot is woken in place. -/
def Slot.woken (x : Slot) : Slot := { x with ctx := { x.ctx with parked := false }, wait := none }

/-- Change every strand that a core or a den keeps with its registers, in slots and park stores. -/
def CoreSave.mapSlots (f : Slot → Slot) (g : CoreSave) : CoreSave :=
  { g with
    slots := g.slots.map fun e => (e.1, f e.2)
    parkStore := g.parkStore.map fun q => { q with slot := f q.slot } }
def Den.mapSlots (f : Slot → Slot) (d : Den) : Den := { d with cores := d.cores.map (CoreSave.mapSlots f) }
def State.mapDens (s : State) (f : Slot → Slot) : State :=
  { s with blocks := s.blocks.map fun b =>
      { b with place := match b.place with
        | .waiting k d => .waiting k (d.map (Den.mapSlots f))
        | .running n => .running n
        | .den d => .den (d.mapSlots f) } }
def State.mapKept (s : State) (f : Slot → Slot) : State :=
  let s := s.mapSlots fun _ _ x => f x
  ({ s with
    cores := s.cores.map fun (e : Nat × CoreSt) =>
      (e.1, { e.2 with parkStore := e.2.parkStore.map fun q => { q with slot := f q.slot } }) } : State).mapDens f

/-- Woken strands of park stores take slots: their own, or, guests at home, which have none, the first empty one; a guest that holds
registers of its slot waits for one, which under manual placement is slot 0 (R334; DEDUCED, log 94). -/
def State.seatWoken (s : State) : State :=
  let own := s.cores.flatMap fun e => e.2.parkStore.filterMap fun q => q.own.map fun k => (e.1, k)
  let s := own.foldl (fun s e => s.reseat e.1 e.2) s
  s.cores.foldl (fun (s : State) (e : Nat × CoreSt) =>
    (e.2.parkStore.filter fun (q : Parked) => q.own.isNone && !q.slot.ctx.parked).foldl (fun (s : State) (q : Parked) =>
      let t := s.modCore e.1 fun k => { k with parkStore := k.parkStore.filter fun y => y != q }
      let keeps := q.slot.ctx.pinned || q.slot.ctx.intrap
      let free := (List.range (if s.manualOf q.slot.ctx then 1 else 16)).find? fun k => s.idleSlot e.1 k
      match free with
      | some k =>
        if keeps then t.setSlot e.1 k { q.slot with occ := .running, ctx := t.seatCtx e.1 q.slot.ctx }
        else if s.manualOf q.slot.ctx then t.pushTop e.1 q.slot.ctx
        else t.place e.1 k q.slot.ctx 0 0
      | none => if keeps then s else t.pushTop e.1 q.slot.ctx) s) s

/-- A guest in a slot goes home before its instruction (R172): onto the deque top of its own block's core of ordinal 0, or, where it
holds registers of its slot, with them to that core's park store, where it waits for a slot (DEDUCED, log 94). Where the store has no
room it stays. -/
def State.guestLeaves (s : State) (c k : Nat) : State :=
  let s := s.giveKept c k
  let x := s.slotAt c k
  let base := (s.baseOf x.ctx).getD c
  match x.ctx.foreign with
  | some dev =>
    (s.clearSlot c k).shipBack dev 0 x.ctx.tdom.toNat x.ctx.toLine
  | none =>
  if !x.ctx.pinned then (s.clearSlot c k).sendHome x.ctx c
  else if 16 ≤ (s.coreAt base).parkStore.length || base == c then s
  else
    ((s.clearSlot c k).modCore base fun q =>
      { q with parkStore := q.parkStore ++
          [{ own := none, slot := { x with ctx := s.seatCtx base x.ctx, wait := none, ticket := none, replies := [], begun := false } }] }).seatWoken

/-- Wake the parked strands of slots, park stores and dens that satisfy `p` (R334). -/
def State.wakeWhere (s : State) (p : Slot → Bool) : State :=
  let hit (x : Slot) : Bool := x.ctx.parked && x.wait != some .verdict && p x
  (s.mapKept fun x => if hit x then x.woken else x).seatWoken

end Sys2Proof.Machine
end

