-- ==== Sys2Proof/Machine/Reach.lean ====
section
/-! DEFINITION. Where an agent's access may reach (R43, R46), for strands, stream buffers and engines. -/

namespace Sys2Proof.Machine

/-- Whether a core holds a block of a launch. -/
def State.heldBy (s : State) (launch c : Nat) : Bool :=
  match (s.coreAt c).owner with
  | some o => o.1 == launch
  | none => false

/-- Whether a core holds a block of the strand's launch. -/
def State.sameLaunch (s : State) (x : Ctx) (c : Nat) : Bool := x.foreign.isNone && s.heldBy x.launch.toNat c

/-- An address checked against the map: where a window's bytes stand and at which core, or the access trap's INFO. -/
inductive Reach where
  | space
  | window (home sa : Nat)
  | bad (info : Nat)
deriving DecidableEq, Repr

/-- The map as seen from a core (R42); `pads` says which cores' scratchpads are open, `cluster` whose control core's memory (R43). -/
def reachFrom (pads : Nat → Bool) (core : Nat) (cluster : Option Nat) (va : Nat) : Reach :=
  match regionOf va with
  | .space => .space
  | .own off => if pads core then .window core (scratchSa core off) else .bad 2
  | .scratch c off => if pads c then .window c (scratchSa c off) else .bad 2
  | .ctrl k off => if some k == cluster then .window (512 + k) (ctrlSa k off) else .bad 2
  | .window _ => .bad 1
  | .unmapped => .bad 0

/-- What a strand on a core may reach: the scratchpads of its launch's cores, and the control core's memory of the cluster its block
occupies; a strand of a peer reaches neither (R43). A strand whose block is not resident counts the core it stands on as its own (log 5). -/
def State.reachOf (s : State) (x : Ctx) (core va : Nat) : Reach :=
  reachFrom (fun c => s.sameLaunch x c || (c == core && s.ownCore x core)) core
    (if s.ownCore x core then some (s.clusterFor x core) else (s.baseOf x).map clusterOf) va

/-- Where the bytes of an access stand that an agent of the device performs at their home, or what it meets: the cause and INFO
of a trap, an absent page, another device. -/
inductive DevSpot where
  | here (sa : Nat)
  | fault (cause info : Nat)
  | absent
  | away (dev : Nat)
deriving DecidableEq, Repr

/-- An address whose home is being switched is one that is not there yet (R49). -/
def State.devSpot (s : State) (r : Reach) (dom need va : Nat) : DevSpot × State :=
  match r with
  | .bad info => (.fault 4 info, s)
  | .window _ sa => (.here sa, s)
  | .space =>
    if s.switches va then (.absent, s) else
    match s.devResolve dom need va with
    | (.ok sa, s) => (.here sa, s)
    | (.peer dev, s) => if dev = 0x7FFF then (.here (hostSa va), s) else (.away dev, s)
    | (.lacks l, s) => (.fault 5 l, s)
    | (.malformed, s) => (.fault 4 7, s)
    | (.absent, s) | (.miss, s) => (.absent, s)

/-- As `devWrite` and `devRead`, with host memory, which no chunk's signature covers, among the places. -/
def State.spotWrite (s : State) (va sa : Nat) (bytes : List Byte) : State :=
  s.devWrite (if sa < 2 ^ 64 then va else sa) sa bytes
def State.spotRead (s : State) (va sa n : Nat) : List Byte × State := s.devRead (if sa < 2 ^ 64 then va else sa) sa n

/-- Where a stream's element stands, for a stream buffer. -/
inductive ElemSpot where
  | here (sa : Nat)
  | fault (cause info : Nat)
  | absent
  | poisoned (unit : Nat)
  | away (dev : Nat)
deriving DecidableEq, Repr

def State.elemSpot (s : State) (x : Ctx) (core va size need : Nat) : ElemSpot × State :=
  match s.devSpot (s.reachOf x core va) (x.tdom.toNat % 4096) need va with
  | (.here sa, s) =>
    match s.probe (some va) sa size with
    | (some u, s) => (.poisoned u, s)
    | (none, s) => (.here sa, s)
  | (.fault cause info, s) => (.fault cause info, s)
  | (.absent, s) => (.absent, s)
  | (.away dev, s) => (.away dev, s)

end Sys2Proof.Machine
end

