-- ==== Sys2Proof/Machine/Engine.lean ====
section
/-! DEFINITION. Engine commands (R73, R193, R283, R318 to R320): their accesses, and their dispatch. -/

namespace Sys2Proof.Machine

/-! ### Writes of commands (R73, R155) -/

/-- Commands that a strand has issued and that have not completed, or whose writes are still on their way. -/
def State.pendingOf (s : State) (id : BitVec 32) : List Nat :=
  (s.cmds.filter fun c => c.strandId == id).map Cmd.id ++ (s.late.filter fun w => w.strandId == id).map LateWrite.cmd

/-- As `devWrite` and `devRead`, with host memory, which no chunk's signature covers, among the places; and a write of data of which
some bytes are poisoned, which arrives so, or that makes good what its agent's writes have covered (R346). -/
def State.spotPut (s : State) (who va sa : Nat) (bytes : List Byte) (taint : Bool) : State :=
  let s := s.spotWrite va sa bytes
  if taint then s.addPoison (unitOf sa) 0 else s.cover who sa bytes.length

/-- A write completes a scratchpad granule when it covers it, or with the command's earlier writes to it (R58, R155): the granule
becomes full, which counts as the commit of a chunk that writes it (R143). -/
def State.granuleWritten (s : State) (id sa n : Nat) : State :=
  match granuleOf sa with
  | none => s
  | some g =>
    let old := ((s.cmdAt id).map fun c => c.part.get 0 g).getD 0
    let m := old ||| (2 ^ n - 1) * 2 ^ (sa % 16)
    if m = 0xFFFF then
      let s := s.modCmd id fun c => { c with part := c.part.filter fun e => e.1 != g }
      { s with full := insertNat g s.full }.flagLines [lineOf sa]
    else s.modCmd id fun c => { c with part := c.part.set g m }

/-- An engine write that was still on its way is performed (R73); an earlier one of its command to the same bytes goes first, and
one whose home is being switched waits (R49). One to a peer has been performed there. -/
def State.performLate (s : State) (n : Nat) : State :=
  match s.late[n]? with
  | none => s
  | some w =>
    if (s.late.take n).any fun x => x.cmd == w.cmd && x.dev == w.dev && decide (x.sa < w.sa + w.bytes.length)
        && decide (w.sa < x.sa + x.bytes.length) || (w.dev.isNone && s.switches w.va) then s
    else
      let s := { s with late := s.late.eraseIdx n }
      if w.dev.isSome then s else s.spotPut (w.cmd + 1) w.va w.sa w.bytes w.taint

/-! ### Access -/

/-- Why a command stops short: it is refused (reason and address, R319), it holds at an absent page or at a poisoned unit (R329,
R352), or it waits. -/
inductive EStop where
  | refuse (reason addr : Nat)
  | page (va : Nat)
  | poison (unit va : Nat)
  | wait
deriving DecidableEq, Repr

/-- What an engine does for a command: all of it or, where it stops, nothing. -/
abbrev E := StateT State (Except EStop)

def refuse {α : Type} (reason addr : Nat) : E α := throw (.refuse reason addr)
/-- Refuse unless the limit holds. -/
def require (ok : Bool) (reason addr : Nat) : E Unit := if ok then pure () else refuse reason addr

/-- What a command may reach (R43): what its strand may, at its issue. -/
def Cmd.reach (c : Cmd) (s : State) (va : Nat) : Reach :=
  let home : Option Nat :=
    if c.foreign.isSome then none
    else match s.block? c.launch.toNat c.block.toNat with
      | some b => b.base?.map clusterOf
      | none => some c.cluster
  reachFrom (fun k => c.foreign.isNone && (s.heldBy c.launch.toNat k || (k == c.core && (s.block? c.launch.toNat c.block.toNat).isNone)))
    c.core home va

/-- Where a command's access stands: its storage, or the device that owns its page. -/
def eSpot (c : Cmd) (va need : Nat) : E (Nat ⊕ Nat) := do
  let s ← get
  match s.devSpot (c.reach s va) c.dom need va with
  | (.here sa, s) => set s; return .inl sa
  | (.away dev, s) => set s; return .inr dev
  | (.fault 5 _, _) => refuse 5 va
  | (.fault .., _) => refuse 4 va
  | (.absent, _) => throw (.page va)

/-- Where an access stands that must lie in this device's translated space (R217). -/
def eHome (c : Cmd) (va need : Nat) : E Nat := do
  if 2 ^ 56 ≤ va then refuse 4 va
  match ← eSpot c va need with
  | .inl sa => if sa < 2 ^ 64 then return sa else refuse 4 va
  | .inr _ => refuse 4 va

/-- A place that a command will use, as far as its dispatch can tell: an absent page is met only when the access is made (R318,
R376). -/
def eReach (c : Cmd) (va need : Nat) (home : Bool) : E Unit := do
  match (if home then (do let _ ← eHome c va need) else (do let _ ← eSpot c va need) : E Unit).run (← get) with
  | .error (.refuse r a) => refuse r a
  | .error _ | .ok _ => pure ()

/-- A byte as an engine reads it, with the poisoned unit it lies in. -/
abbrev EByte := Byte × Option Nat

/-- A request of an engine to the peer that owns a page, which it makes while traffic passes (R286, R355). -/
def eSend (c : Cmd) (dev va : Nat) (op : PeerOp) : E Unit := do
  if (← get).linkStalled dev then throw .wait
  modify fun s => s.sendPeer dev va c.dom op

/-- The requests by which `n` bytes of a peer's page are read. -/
def peerLoads (n va : Nat) : List (Nat × PeerOp) := (List.range ((n + 7) / 8)).map fun i => (va + 8 * i, .load (min 8 (n - 8 * i)))

/-- Bytes that an engine asks a peer for: what the owner answers is outside the device, a refusal or bytes (log 16). -/
def eFree (c : Cmd) (dev va n : Nat) : E (List EByte) := do
  (peerLoads n va).forM fun p => eSend c dev p.1 p.2
  let d := (← get).drawBit
  if d.1 then refuse 5 va
  let s := d.2
  set { s with free := s.free + n }
  return (List.range n).map fun i => (Config.freeByte (s.free + i), none)

/-- The old copy of a granule that a command reads, if it reads one: each granule is read once per command, at a moment that the
device chooses (R323; log 6). -/
def eOld (c : Cmd) (g : Nat) : E (Option (List Byte × Bool)) := do
  match (← get).cmdAt c.id with
  | none => return none
  | some k =>
    match k.chosen.find? fun e => e.1 == g with
    | some e => return e.2
    | none =>
      let l := k.olds.filter fun e => e.1 == g
      if l.isEmpty then return none
      let r ← l.foldlM (fun (r : Option (List Byte × Bool)) e => do
        if r.isSome then return r
        let d := (← get).drawBit
        set d.2
        return if d.1 then some e.2 else none) none
      modify fun s => s.modCmd c.id fun k => { k with chosen := (g, r) :: k.chosen }
      return r

/-- Read bytes at a place, each granule old or new; the command's own writes that are still on their way stand before what memory
holds. -/
def eReadAt (c : Cmd) (va sa n : Nat) : E (List EByte) := do
  let r := ((← get).probe (some va) sa n).2.spotRead va sa n
  set r.2
  let olds ← ((List.range ((sa + n + 15) / 16 - sa / 16)).map (sa / 16 + ·)).mapM fun g => do return (g, ← eOld c g)
  let own := (r.2.late.filter fun w => w.cmd == c.id && w.dev.isNone).reverse
  return (List.range n).map fun i =>
    match own.find? fun w => decide (w.sa ≤ sa + i) && decide (sa + i < w.sa + w.bytes.length) with
    | some w => (w.bytes.getD (sa + i - w.sa) 0, if w.taint then some (unitOf (sa + i)) else none)
    | none =>
      match (olds.find? fun e => e.1 == (sa + i) / 16).bind (·.2) with
      | some o => (o.1.getD ((sa + i) % 16) 0, if o.2 then some (unitOf (sa + i)) else none)
      | none => (r.1.getD i 0, r.2.poisonedIn (sa + i) 1)

/-- Read `n` bytes from an address up, sector by sector. -/
def eReadP (c : Cmd) : Nat → Nat → Nat → E (List EByte)
  | 0, _, _ => return []
  | f + 1, va, n => do
    if n = 0 then return []
    let k := min n (128 - va % 128)
    let l ← match ← eSpot c va 1 with
      | .inl sa => eReadAt c va sa k
      | .inr dev => eFree c dev va k
    return l ++ (← eReadP c f ((va + k) % 2 ^ 64) (n - k))

/-- Read bytes none of which may be poisoned. -/
def eClean (va : Nat) (l : List EByte) : E (List Byte) :=
  match l.findSome? (·.2) with
  | some u => throw (.poison u va)
  | none => return l.map (·.1)
def eRead (c : Cmd) (va n : Nat) : E (List Byte) := do eClean va (← eReadP c n va n)
def eNat (c : Cmd) (va n : Nat) : E Nat := do return leNat (← eRead c va n)

/-- A write of an engine to a page of a peer: the request goes out, and is performed there some time after (R65, R72, R286). Whether the
owner finds the right for it is outside the device (log 16). -/
def eAsk (c : Cmd) (dev va : Nat) (op : PeerOp) (bytes : List Byte) : E Unit := do
  eSend c dev va op
  let d := (← get).drawBit
  set d.2
  if d.1 then refuse 5 va
  let w : LateWrite :=
    { cmd := c.id, dev := some dev, taint := false, strandId := c.strandId, launch := if c.foreign.isSome then none else some c.launch.toNat, home := 0,
      va, sa := va, bytes }
  modify fun s => { s with late := s.late ++ [w] }

/-- Write bytes of one granule or sector. Guarded granules wait (R196), and so does, under `fe`, one that is full (R155). A write
to main memory that the release flag does not cover may be left on its way (R73) where `late` allows it: a free value decides
(log 6). -/
def ePiece (c : Cmd) (va : Nat) (data : List (Byte × Bool)) (fe late : Bool) : E Unit := do
  let bytes := data.map (·.1)
  match ← eSpot c va 2 with
  | .inr dev => eAsk c dev va (.store bytes) bytes
  | .inl sa =>
    let s ← get
    if s.cmds.any fun m => m.guardsRange sa bytes.length then throw .wait
    if fe then
      match granuleOf sa with
      | some g => if s.full.contains g then throw .wait
      | none => refuse 3 va
    let home := s.homeOf va
    let taint := data.any (·.2)
    let covered := match c.rel with | some sc => scopeCovers sc c.core home | none => false
    let behind := s.late.any fun w =>
      w.cmd == c.id && w.dev.isNone && decide (w.sa < sa + bytes.length) && decide (sa < w.sa + w.bytes.length)
    let b := s.drawBit
    if late && decide (sa < 2 ^ 40) && (behind || (!covered && b.1)) then
      let w : LateWrite := {
        cmd := c.id, dev := none, taint, strandId := c.strandId, launch := if c.foreign.isSome then none else some c.launch.toNat, home, va, sa, bytes }
      modify fun _ => { b.2 with late := b.2.late ++ [w] }
    else
      modify fun s => (s.spotPut (c.id + 1) va sa bytes taint).granuleWritten c.id sa bytes.length

/-- Cut a row into granules and sectors. -/
def cutRow {α : Type} : Nat → Nat → List α → List (Nat × List α)
  | 0, _, _ => []
  | f + 1, va, l =>
    if l.isEmpty then []
    else
      let u := if va < 2 ^ 56 then 128 else 16
      let k := u - va % u
      (va, l.take k) :: cutRow f ((va + k) % 2 ^ 64) (l.drop k)

/-- Write bytes from an address up. -/
def eWrite (c : Cmd) (va : Nat) (bytes : List Byte) : E Unit :=
  (cutRow bytes.length va (bytes.map fun b => (b, false))).forM fun p => ePiece c p.1 p.2 false false

/-- Whether every byte of a range may be written, or read (checked before the first write, R320). -/
def eMay (c : Cmd) (va n need : Nat) : E Unit :=
  (cutRow n va (List.replicate n ())).forM fun p => do let _ ← eSpot c p.1 need

/-- Add to a counter as a device-scope atomic (R155, R195, R235). -/
def eCount (c : Cmd) (va n : Nat) : E Unit := do
  match ← eSpot c va 9 with
  | .inr dev => eAsk c dev va (.atom .add 8 (wordN n) 0) (List.replicate 8 0)
  | .inl sa =>
    let old := leNat (← eClean va (← eReadAt c va sa 8))
    let s ← get
    if s.cmds.any fun m => m.guardsRange sa 8 then throw .wait
    modify fun s => s.spotPut (c.id + 1) va sa (leBytes 8 ((old + n) % 2 ^ 64)) false

/-! ### Dispatch (R73, R154, R193, R215, R318) -/

/-- What an operation reads at its dispatch: address, length and alignment of its descriptor or block. ATTN's and RCLASS's descriptors, whose
rules give no alignment, lie on 8 bytes, the width of their widest field (DESIGN CHOICE, log 58). -/
def EngOp.block (op : EngOp) (d a : Nat) : Option (Nat × Nat × Nat) :=
  match op with
  | .xcopyCopy .. | .xcopyFill .. | .xcopyPack .. | .xcopyUnpack .. => some (d, 64, 64)
  | .attn .. => some (d, 64, 8)
  | .kvapp _ | .kvcommit _ | .kvtrunc _ | .linfold | .pref | .rsum | .rsumFix => some (a, 48, 8)
  | .rsplice | .rleaf => some (a, 32, 8)
  | .rwalk => some (a, 40, 8)
  | .rclass => some (a, 64, 8)
  | .iqput | .iqget _ => some (a, 24, 8)
  | .iqwave | .iqbind | .iqbindStage | .iqquiet => some (a, 16, 8)
  | .iqcons => some (a, 8, 8)
  | .iqprobe => some (a, 32, 8)
  | .iqupd => some (a, 64, 32)
  | .mma .. | .mld | .mst | .mclr | .mqry | .mrecl | .maskset | .rcat | .rsplitLo | .rsplitHi | .ridx | .rlen | .rref
  | .rdrop => none

/-- Whether the issuing slot waits for the command (R193, R215, R241, R260). -/
def Cmd.waited (c : Cmd) : Bool :=
  match c.eng, c.op with
  | .walker, .pref => false
  | .walker, _ | .consol, _ => true
  | .matrix, .mqry | .matrix, .mrecl => true
  | .matrix, _ | .xfer _, _ => false

/-- The accumulator slot a queued command names (R195, R199, R233, R235), once it is known. -/
def Cmd.acc (c : Cmd) : Option Nat :=
  match c.op with
  | .mma .. => some (MmaWord.ofWord c.d).slot
  | .mld | .mst | .mclr | .maskset => some (c.a.toNat % 16)
  | .attn .. => c.desc.map fun l => leNat l % 16
  | _ => none

/-- The engine whose addresses must all stand in this device's translated space (R217). -/
def Cmd.homeOnly (c : Cmd) : Bool :=
  match c.eng with
  | .walker => true
  | .matrix | .xfer _ | .consol => false

/-- Read the descriptor or block. -/
def eBlock (c : Cmd) (va n al : Nat) : E (List Byte) := do
  require (va % al == 0) 3 va
  if c.homeOnly then (List.range ((n + 7) / 8)).forM fun i => do let _ ← eHome c (va + 8 * i) 1
  eRead c va n

/-- Whether an accumulator slot is closed to new commands (R198). -/
def State.orphaned (s : State) (c : Cmd) : Bool :=
  match c.acc with
  | some n => (s.accAt c.cluster n).orph
  | none => false

/-- Record where a command holds (R329, R352). -/
def State.holdCmd (s : State) (c : Cmd) (e : EStop) : State :=
  match e with
  | .page va =>
    if (s.walk va).present then s else
    (s.faultOn va c.cluster (wordN c.strandId.toNat)).modCmd c.id fun c => { c with heldPage := some va }
  | .poison u va => (((s.probe (some va) u 1).2).poisonMet u va c.cluster).modCmd c.id fun c => { c with heldPoison := some u }
  | .refuse .. | .wait => s

/-- The command reads what it reads at dispatch: a fault refuses it, an absent page holds it there. -/
def State.readDesc (s : State) (c : Cmd) : State :=
  match c.op.block c.d.toNat c.a.toNat with
  | none => s
  | some b =>
    match (eBlock c b.1 b.2.1 b.2.2).run s with
    | .ok (l, s) => s.modCmd c.id fun c => { c with desc := some l }
    | .error (.refuse r a) => s.modCmd c.id fun c => { c with refused := some (r, a) }
    | .error e => s.holdCmd c e

/-- Reason 9 is found at dispatch: commands dispatched before the slot was orphaned run on (R198, R342). -/
def State.checkOrph (s : State) (id : Nat) : State :=
  s.modCmd id fun c => if c.refused.isNone && s.orphaned c then { c with refused := some (9, 0) } else c

/-- The tag of a command's strand (R200). -/
def Cmd.tag (c : Cmd) : Nat × Nat × Nat × Nat := (c.launch.toNat, c.block.toNat, c.core, c.slot)

/-- Commands that name an accumulator slot and have not completed (R201). -/
def State.accPend (s : State) (k n : Nat) : List Cmd := s.cmds.filter fun c => c.cluster == k && c.acc == some n

/-- The status word of R201. -/
def State.accStatus (s : State) (k n : Nat) : Word :=
  let a := s.accAt k n
  let p := (s.accPend k n).length
  wordN (a.tag.2.2.2 % 16 * 2 ^ 41 + a.tag.2.2.1 % 512 * 2 ^ 32 + a.done % 2 ^ 16 * 2 ^ 16 + a.refused.toNat * 2 ^ 7
    + a.edat.toNat * 2 ^ 6 + a.orph.toNat * 2 ^ 5 + (decide (0 < p)).toNat * 2 ^ 4 + min p 15)

/-- MQRY and MRECL are answered at dispatch (R193, R201, R202). -/
def State.answer (s : State) (c : Cmd) : State :=
  let n := c.a.toNat % 16
  let put (s : State) (v : Word) : State := s.modCmd c.id fun c => { c with answer := some v }
  match c.op with
  | .mqry => put s (s.accStatus c.cluster n)
  | .mrecl =>
    let x := s.accAt c.cluster n
    if x.orph && x.tag.1 == c.launch.toNat && x.tag.2.1 == c.block.toNat then
      put (s.modAcc c.cluster n fun x => { x with orph := false, tag := c.tag }) 1
    else put s 0
  | _ => s

/-- A command is dispatched by the slot given. -/
def State.dispatch (s : State) (c k : Nat) (cmd : Cmd) : State :=
  let cmd := { cmd with
    id := s.cmdSeq
    lcs := (s.clusterAt cmd.cluster).lcs
    classes := (s.clusterAt cmd.cluster).ropeClasses.filter fun r => r.launch == cmd.launch.toNat && r.foreign == cmd.foreign
    fmts := (s.coreAt c).fmts
    after := s.pendingOf cmd.strandId }
  let s := { s with cmds := s.cmds ++ [cmd], cmdSeq := s.cmdSeq + 1 }
  let s := if cmd.waited then s.modSlot c k fun y => { y with wait := some (.engine cmd.id) } else s
  ((s.readDesc cmd).checkOrph cmd.id).answer cmd

end Sys2Proof.Machine
end

