-- ==== Sys2Proof/Machine/Ops.lean ====
section
/-! DEFINITION. Issuing an instruction: the current slot, chunks (R36 to R38, R375), waiting (R23), taking a trap and returning
from one (R308 to R311), and the two wrappers that every meaning stands in. -/

namespace Sys2Proof

/-- The guard (R104): p0 reads as 1. -/
def Guard.holds (g : Guard) (pred : BitVec 16) : Bool := ((pred ||| 1).getLsbD g.p.val) ^^ g.neg

end Sys2Proof

namespace Sys2Proof.Machine

abbrev Out := Host.Outcome State Fault Refusal

/-! ### The current slot -/

def State.cur (s : State) : Slot := s.slotAt s.core s.slot
def State.setCur (s : State) (x : Slot) : State := s.setSlot s.core s.slot x
def State.modCur (s : State) (f : Slot → Slot) : State := s.setCur (f s.cur)
def State.modCtx (s : State) (f : Ctx → Ctx) : State := s.modCur fun x => { x with ctx := f x.ctx }
def State.modChunk (s : State) (f : Chunk → Chunk) : State := s.modCur fun x => { x with chunk := f x.chunk }
/-- Record the unit being issued. -/
def State.withUnit (s : State) (u : Decoded) : State := s.modCur fun x => { x with unit := u }
/-- Whether the current slot is a cluster's control core (R281). -/
def State.isCtrl (s : State) : Bool := decide (512 ≤ s.core)
def Slot.isFollower (x : Slot) : Bool := x.ctx.gang && !x.ctx.leader
/-- Length of the unit at PC: a dictionary code is one parcel (R100, R101), as it is for a follower who was handed its word. -/
def Slot.unitLen (x : Slot) : Word :=
  if (if x.isFollower then x.gbuf.head?.any (·.code) else x.dictWord.isSome) then 2 else 4
/-- Address of the next sequential unit. -/
def Slot.nextPc (x : Slot) : Word := x.ctx.pc + x.unitLen

/-! ### Effects at commit (R37) -/

/-- CUPD at its chunk's commit (R56): it joins the core's update-only line of its operation and width, or opens one after merging a line of
another. The line takes a way of the first-level cache and is merged when it is evicted (R57): where the cache's set
fills, or, since the spec does not give the sets, at any update, as a free value decides (log 6). -/
def State.cupd (s : State) (c k : Nat) (strand : BitVec 32) (sa va : Nat) (op : CupdOp) (size v : Nat) : State :=
  let line := lineOf va
  let mine (u : UpdLine) : Bool := u.core == c && u.line == line
  let same (u : UpdLine) : Bool := mine u && u.op == op && u.size == size
  let s := (s.upds.filter fun u => mine u && !same u).foldl (fun s u => s.mergeOne u) s
  let off := va % 256
  let u := (s.upds.find? same).getD
    { core := c, line, pa := sa - off, op, size, words := [], marks := [] }
  let u' := { u with
    words := u.words.set off (op.apply size (u.words.get (op.ident size) off) v)
    marks := u.marks.set off { slot := k, commit := (s.dieAt (dieOf c)).commits, strand, met := false } }
  let s := { s with
    upds := if s.upds.contains u then s.upds.map fun x => if x == u then u' else x else s.upds ++ [u'] }
  let tag (y : L1Line) : Bool := y.upd && y.line == line
  let s := match (s.coreAt c).l1.find? tag with
    | some y => s.modCore c fun q => { q with l1 := y :: q.l1.filter fun z => !tag z }
    | none => s.l1Fill c { line, key := 0, pa := u'.pa, valid := 3, dirty := 0, upd := true }
  let b := s.drawBit
  if b.1 then b.2.mergeOne u' else b.2

/-- The next core of the ring of a core's block (R172). -/
def State.ringNext (s : State) (c : Nat) : Nat :=
  match (s.blockAt c).bind fun b => b.base?.map fun n => (n, s.coresOf b) with
  | some (base, n) => base + (c - base + 1) % n
  | none => c

/-- Entries that a slot's chunk, or its instruction before a chunk is open, holds and a discard would give back (R158). -/
def Slot.taken (x : Slot) : List Take := if x.chunk.isOpen then x.chunk.takes else x.kept
/-- Those of a core's upstream queue. -/
def State.nqTaken (s : State) (c : Nat) : Nat :=
  (List.range 16).foldl (fun n k => n + ((s.slotAt c k).taken.filter fun t => match t with | .nq _ => true | _ => false).length) 0

/-- Entries of a core's downstream queue cross to the next core's upstream queue, in order, while it has room; entries taken and not
committed keep their place. -/
def State.nqCross (s : State) (c : Nat) : State :=
  let d := s.ringNext c
  let q := (s.coreAt c).nqDown
  let n := 16 - ((s.coreAt d).nqUp.length + s.nqTaken d)
  let s := s.modCore c fun k => { k with nqDown := q.drop n }
  s.modCore d fun k => { k with nqUp := k.nqUp ++ q.take n }

/-- A yielding strand goes onto the top of its core's deque, and the slot takes the bottom entry at once, unless an arrival waits for
it (R52, R164). -/
def State.yieldSlot (s : State) (c k : Nat) : State :=
  let s := (s.clearSlot c k).pushTop c (s.slotAt c k).ctx
  if s.staying c && (s.coreAt c).arrivals.isEmpty && s.idleSlot c k then
    match s.takeOwn c with
    | some (x, s) => s.place c k x 0 0
    | none => s
  else s

/-- One held effect takes its place (R37, R158); `x` is the issuing strand's context as the chunk left it. -/
def Held.perform (h : Held) (c k : Nat) (x : Ctx) (s : State) : State :=
  match h with
  | .store sa va bytes atomic =>
    let s := if va < 2 ^ 56 then s.recall (lineOf va) else s
    let s := s.putBytes va sa bytes
    let home := s.homeOf va
    if decide (va < 2 ^ 56) && home != c then s.traceEntry home c k (s.dieAt (dieOf c)).commits va atomic.toNat bytes.length else s
  | .fullBit g full => { s with full := if full then insertNat g s.full else eraseNat g s.full }
  | .cupd sa va op size v => s.cupd c k x.strandId sa va op size v
  | .fork y _ =>
    let s := match y.foreign with
      | some dev => s.sendPeer dev 0 x.tdom.toNat (.born x.strandId y.strandId)
      | none => s
    s.pushBottom c y
  | .slstart n y => s.place c n y 0 0
  | .slreap n => s.clearSlot c n
  | .send d m w =>
    ({ s with ticket := s.ticket + 1 } : State).modCore c fun q =>
      { q with outbound := q.outbound ++ [{ since := s.ticket, core := d, mbox := m, w, blk := (s.coreAt d).owner }] }
  | .wqput q w =>
    s.modCluster (clusterOf c) fun u => { u with wqs := u.wqs.set q (u.wqs.get [] q ++ [w]) }
  | .nqPush w => ((s.nqCross c).modCore c fun q => { q with nqDown := q.nqDown ++ [w] }).nqCross c
  | .wake id =>
    match x.foreign with
    | some dev => s.sendPeer dev 0 x.tdom.toNat (.wake id (some x.launch))
    | none => { s with wakes := s.wakes ++ [{ id, launch := some x.launch }] }
  | .lcset n v => s.modCluster (clusterOf c) fun u => { u with lcs := u.lcs.set n v }
  | .mfmt n w => s.modCore c fun q => { q with fmts := q.fmts.set n w }
  | .turn t => s.modCluster (clusterOf c) fun u => { u with turns := u.turns ++ [t] }
  | .streamOut t w =>
    s.modSlot c k fun y =>
      { y with streams := y.streams.set t (y.streams[t].map fun st =>
        { st with buf := st.buf ++ [w], seqs := st.seqs ++ [(s.dieAt (dieOf c)).commits] }) }
  | .engine cmd => s.dispatch c k cmd
  | .yield => s.yieldSlot c k
  | .exit => s.endStrand c k

/-! ### Chunks -/

/-- A slot as its instruction finds it at issue: a chunk begins (R36), recording what a discard restores, with the entries that the
instruction already holds. The control core has no chunks. -/
def Slot.opened (x : Slot) (ctrl : Bool) : Slot :=
  if ctrl || x.chunk.isOpen then { x with wait := none }
  else
    { x with
      wait := none
      chunk := { Chunk.none with
        isOpen := true, takes := x.kept, snapCtx := x.ctx, snapTrap := (x.tepc, x.tcause, x.taddr), snapVec := x.vec,
        snapStreams := x.streams } }

def State.openChunk (s : State) : State := s.modCur fun x => x.opened s.isCtrl

/-- Whether a held effect writes storage that a running MMA guards (R196), or lines whose home is being switched (R49). -/
def State.guards (s : State) (h : Held) : Bool :=
  match h with
  | .store sa va bytes _ => s.switches va || s.cmds.any fun c => c.guardsRange sa bytes.length
  | .cupd _ va .. => s.switches va
  | .fullBit g _ => s.cmds.any fun c => c.guardsRange (granuleSa g) 16
  | _ => false

/-- Whether a held effect would write part of a unit that has become poisoned (R346). -/
def State.spoils (s : State) (h : Held) : Bool :=
  match h with
  | .store sa _ bytes _ => (s.poisonedIn sa bytes.length).isSome
  | .fullBit g _ => (s.poisonedIn (granuleSa g) 16).isSome
  | _ => false

/-! ### What a chunk's commit waits for (R34, R335, R375) -/

/-- Cores of the gang that the strand in a slot of core `c` belongs to. -/
def Ctx.gangCores (x : Ctx) (c : Nat) : List Nat := (List.range (2 ^ x.gsz)).map fun j => c - x.lane + j
/-- Leave the gang (R167): PINV stays. -/
def Ctx.ungang (x : Ctx) : Ctx := { x with gang := false, leader := false, lane := 0, gsz := 0 }

/-- The number in its gang of the instruction that a member issues next: the leader's, which may be one it has handed out already and
executes again, or the head of a follower's buffer. -/
def Slot.nextSeq (x : Slot) : Nat := if x.isFollower then (x.gbuf.head?.map (·.seq)).getD (x.gseq + 1) else x.gseq + 1 - x.gskip

/-- Whether a unit transfers control: its way is known only when it has executed. -/
def transfers : Decoded → Bool
  | .instr (.br ..) | .instr (.bl ..) | .instr (.jmp ..) | .instr (.jmpl ..) | .instr (.eret ..) => true
  | _ => false

/-- Whether an instruction was handed out in a leader's open chunk, so that a discard of the chunk, after which the leader may go another
way, takes it back (R34, R37). The chunk's first instruction stands whatever comes of the chunk, unless it transfers control. Nothing is
taken back once another member's trap has ended the gang (R311). -/
def Slot.undoes (x : Slot) (e : GangEntry) : Bool :=
  let first := x.nextSeq - x.chunk.gpushed
  x.chunk.isOpen && decide (0 < x.chunk.count) && !x.chunk.freed && x.chunk.snapCtx.gang && x.chunk.snapCtx.leader
    && (decide (first < e.seq) || (e.seq == first && transfers e.unit))

/-- The core of the leader whose open chunk has to commit before a follower's: the chunk that formed the gang (R375; log 95), or the one that
handed out what the follower has executed or, where its chunk holds nothing yet, executes next (DEDUCED from R34 and R37: what a
discard of that chunk undoes no follower has committed; log 108). -/
def State.awaits (s : State) (c k : Nat) : Option Nat :=
  let x := s.slotAt c k
  let from' := if x.chunk.count = 0 then x.ctx else x.chunk.snapCtx
  let does := if x.chunk.count = 0 then x.gbuf.take 1 else x.chunk.gtaken
  match x.formedBy with
  | some n => some (n / 16)
  | none => if does.isEmpty then none else (from'.gangCores c).find? fun d => d != c && does.any (s.slotAt d k).undoes

/-- Whether a woken strand of a cluster has a lower sequence number and has not yet performed its replay, wherever it stands (R335). -/
def State.replaysBefore (s : State) (cl q : Nat) : Bool :=
  let early (f : Option Nat) : Bool := f.any fun f => decide (f < q)
  let pend (c : Nat) (x : Ctx) : Bool := !x.parked && early x.fseq && s.clusterFor x c == cl
  s.slotList.any (fun e => e.2.2.occ == .running && pend e.1 e.2.2.ctx)
    || s.cores.any (fun e =>
      e.2.parkStore.any (fun p => pend e.1 p.slot.ctx) || e.2.deque.any (pend e.1) || e.2.arrivals.any fun a => pend e.1 a.ctx)
    || s.shipped.any (fun e => early e.2.2.fseq && !e.2.2.parked && (s.baseOf e.2.2).any fun b => clusterOf b == cl)
    || s.blocks.any (fun b => b.base?.any (fun n => clusterOf n == cl) && b.spillSide.any fun e => early e.fseq)

/-- Whether a strand holds a replay, not yet performed, that other replays of its cluster come before (R335). -/
def State.replayWaits (s : State) (c : Nat) (x : Ctx) : Bool := x.fseq.any fun q => s.replaysBefore (s.clusterFor x c) q
/-- A woken strand stands at the instruction that it issues again (R335). -/
def Slot.atReplay (x : Slot) : Bool := x.ctx.fseq.isSome && x.chunk.count == 0

/-- What stands against committing a chunk now: a conflict, or poison in what it would write, at which it parks when it executes again; or SVU commands, a unit of the core that still has its last instruction,
an open chunk of its gang's leader, replays that come before the one it holds (a locked chunk commits all the same, R38), a guard of a
running MMA, or another's reservation. -/
inductive Fate where | conflict | heldBack | free
deriving DecidableEq, Repr

def State.fate (s : State) (c k : Nat) : Fate :=
  let x := s.slotAt c k
  let out := x.chunk.outLines
  let unit : Bool := match x.wait with
    | some .divider | some .sfu | some (.normaliser _) => true
    | _ => false
  if x.chunk.conflict || x.chunk.held.any s.spoils then .conflict
  else if !x.svuQ.isEmpty || x.vnorm != 0 || unit || (s.awaits c k).isSome then .heldBack
  else if x.lockLeft == 0 && s.replayWaits c x.ctx then .heldBack
  else if x.chunk.held.any s.guards then .heldBack
  else if s.slots.any (fun p => p.1 != 16 * c + k && p.2.reserved.any fun l => out.contains l) then .heldBack
  else .free

/-- Followers whose gang was formed in the chunk of a slot are bound to it no more. -/
def State.unbind (s : State) (c k : Nat) : State :=
  s.mapSlots fun _ _ y => if y.formedBy == some (16 * c + k) then { y with formedBy := none } else y

/-- A chunk's effects take their place together, every other chunk that touched a line it writes conflicts, and its reservations
end (R37). -/
def State.commitEffects (s : State) (c k : Nat) : State :=
  let x := s.slotAt c k
  let ch := x.chunk
  let s := if ch.formed then s.unbind c k else s
  let s := s.setSlot c k { x with
    chunk := Chunk.none, discards := 0, lockLeft := if ch.count = 0 then x.lockLeft else x.lockLeft - 1, reserved := [],
    svuSerial := false, cross := [], ctx := { x.ctx with fseq := if ch.count = 0 then x.ctx.fseq else none } }
  let s := s.modDie (dieOf c) fun d => { d with commits := d.commits + 1 }
  let s := s.flagLines ch.outLines
  ch.held.foldl (fun s h => h.perform c k x.ctx s) s

/-- A chunk commits, and a woken owner of a lent slot may take it back (R334). -/
def State.commitChunk (s : State) (c k : Nat) : State := (s.commitEffects c k).reseat c k

/-- A write stream whose elements have all been performed. -/
def Stream.spent (a : Stream) : Stream :=
  { a with buf := [], seqs := [], drained := a.pos, refused := none, absent := none, tainted := none, sent := false }

/-- A stream after a discard (R152): a read stream returns to the chunk's start and fetches again; a write stream keeps its
committed elements, unless it was freed in the chunk, which had them all performed. -/
def Stream.rewind (snap cur : Option Stream) : Option Stream :=
  match snap with
  | none => none
  | some a =>
    if a.write then
      match cur with
      | some b => if b.write && b.gen == a.gen then some { b with pos := a.pos }
                  else some a.spent
      | none => some a.spent
    else some { a with buf := [] }

/-- Slots reserved for a gang that a slot's GANG would have formed are empty again. -/
def State.dropReserved (s : State) (c k : Nat) : State :=
  s.mapSlots fun _ _ y => if y.occ == .reserved c k then { y with occ := .empty } else y

/-- What a discarded chunk took or left in the core's units is undone. -/
def State.undoChunk (s : State) (c k : Nat) : State :=
  let s := s.dropReserved c k
  let s := (s.slotAt c k).taken.foldr (fun t s => t.giveBack c s) s
  s.modCore c fun q =>
    { q with
      divQ := q.divQ.filter fun o => o.slot != k
      sfuQ := q.sfuQ.filter fun o => o.slot != k
      normQ := q.normQ.filter fun n => n != k && n != 16 + k }

/-- A gang that a discarded chunk formed is undone: its followers, none of whose chunks has committed, have not started. -/
def State.undoGang (s : State) (c k : Nat) : State :=
  (s.slotList.filter fun e => e.2.2.formedBy == some (16 * c + k)).foldl (fun s e =>
    (s.undoChunk e.1 e.2.1).clearSlot e.1 e.2.1) s

/-- One slot's chunk is discarded: registers, predicates, PC and vector state return to its start, its held effects are dropped. After the
fourth discard in a row at one PC its instructions run as locked chunks (R37, R38, R158, R180). A follower takes its buffer's entries
again; a leader numbers its instructions from the chunk's start, unless another member's trap has ended the gang. -/
def State.discardSlot (s : State) (c k : Nat) (serial : Bool) : State :=
  let x := s.slotAt c k
  let ch := x.chunk
  let s := s.undoChunk c k
  let n := if x.discardPc == ch.snapCtx.pc then x.discards + 1 else 1
  let led := ch.snapCtx.gang && ch.snapCtx.leader
  s.setSlot c k { x with
    ctx := if led && ch.freed then ch.snapCtx.ungang else ch.snapCtx
    tepc := ch.snapTrap.1, tcause := ch.snapTrap.2.1, taddr := ch.snapTrap.2.2, vec := ch.snapVec,
    streams := Vector.ofFn fun t => Stream.rewind ch.snapStreams[t] x.streams[t], svuQ := [], vnorm := 0, svuSerial := serial,
    chunk := Chunk.none, discardPc := ch.snapCtx.pc, discards := if 4 ≤ n then 0 else n,
    lockLeft := if 4 ≤ n then max 1 ch.count else x.lockLeft, reserved := [], wait := none, ticket := none, replies := [],
    begun := false, kept := [], dictWord := none
    gseq := if ch.formed then 0 else if led then x.nextSeq - ch.gpushed - 1 else match ch.gtaken with | e :: _ => e.seq - 1 | [] => x.gseq
    gskip := 0, gbuf := ch.gtaken ++ x.gbuf, releasing := !led && (x.releasing || ch.freed) }

/-- What a leader handed out in a chunk that is discarded is taken back from its followers, whose chunks hold it or have not come to it: the
leader may go another way when it executes again. No follower has committed any of it (log 108). What the members then brought to
cross-lane commands is forgotten. -/
def State.takeBack (s : State) (c k : Nat) : State :=
  let x := s.slotAt c k
  let first := x.nextSeq - x.chunk.gpushed
  (x.chunk.snapCtx.gangCores c).foldl (fun s d =>
    let y := s.slotAt d k
    let s := if d != c && (y.chunk.gtaken.any x.undoes || (y.isFollower && y.begun && y.gbuf.head?.any x.undoes)) then s.discardSlot d k false else s
    let y := s.slotAt d k
    let y := { y with cross := y.cross.filter fun e => decide (e.1 ≤ first) }
    s.setSlot d k (if d != c && y.occ == .running && y.isFollower && y.gbuf.any x.undoes then
      { y with gbuf := y.gbuf.filter fun e => !x.undoes e, releasing := false } else y)) s

/-- A chunk is discarded (R37): with the gang it formed, or with what it handed out to its followers. -/
def State.discardChunk (s : State) (c k : Nat) (serial : Bool) : State :=
  let ch := (s.slotAt c k).chunk
  let s :=
    if ch.formed then s.undoGang c k
    else if ch.snapCtx.gang && ch.snapCtx.leader && !ch.freed then s.takeBack c k
    else s
  s.discardSlot c k serial

/-- The chunk ends before the current instruction: committed (`true`), or discarded or left to its commit (`false`). -/
def State.closeBefore (s : State) : Bool × State :=
  let x := s.cur
  if x.chunk.count = 0 then (true, s.setCur { x with chunk := Chunk.none, reserved := [] })
  else
    match s.fate s.core s.slot with
    | .free => (true, s.commitEffects s.core s.slot)
    | .conflict => (false, s.discardChunk s.core s.slot false)
    | .heldBack => (false, s.modChunk fun ch => { ch with ended := true })

/-! ### Gangs (R34, R311) -/

def Slot.release (x : Slot) : Slot := { x with ctx := x.ctx.ungang, gbuf := [], releasing := false, gskip := 0 }
/-- A member marked for release leaves once its buffer is empty; its open chunk notes it. -/
def Slot.settleRelease (x : Slot) : Slot :=
  if x.releasing && x.gbuf.isEmpty then { x.release with chunk := { x.chunk with freed := x.chunk.freed || x.isFollower } } else x

/-- Hand an instruction to every follower of the leader in the current slot that has not executed it (R34); one whose buffer holds it already,
since the leader executes it again, takes it no second time. -/
def State.handOut (s : State) (e : GangEntry) (release : Bool) : State :=
  let x := s.cur
  (x.ctx.gangCores s.core).foldl (fun s c =>
    let y := s.slotAt c s.slot
    if c != s.core && y.occ == .running && y.isFollower && decide (y.gseq < e.seq) then
      s.setSlot c s.slot
        { y with gbuf := if y.gbuf.any fun f => f.seq == e.seq then y.gbuf else y.gbuf ++ [e], releasing := y.releasing || release }
    else s) s

/-- Every other member still executes what the leader handed out up to instruction `q`, and leaves the gang; the leader, which may be
past it, leaves where it stands. A follower whose chunk holds later ones executes the chunk again without them; one that waits in a later
one goes on with it as its own, whose length is that of the unit it was handed (R101). -/
def State.releaseUpTo (s : State) (q : Nat) : State :=
  (s.cur.ctx.gangCores s.core).foldl (fun s c =>
    let y := s.slotAt c s.slot
    let s := if c != s.core && y.isFollower && y.chunk.gtaken.any (fun e => decide (q < e.seq)) then s.discardSlot c s.slot false else s
    let y := s.slotAt c s.slot
    if c == s.core || y.occ != .running || !y.ctx.gang then s
    else if y.ctx.leader then s.setSlot c s.slot { y.release with chunk := { y.chunk with freed := true } }
    else
      let own := y.gbuf.head?.any fun e => y.begun && decide (q < e.seq) && e.code
      s.setSlot c s.slot
        { y with
          gbuf := y.gbuf.filter fun e => decide (e.seq ≤ q), releasing := true
          dictWord := if own then some 0 else y.dictWord }.settleRelease) s

/-- The gang disbands at the current member's faulting unit (R311): every other member still executes that unit and is
released after it. `never` stands for a unit that could not be fetched: the others are released at it, and fetch it themselves. -/
def State.disband (s : State) : State :=
  let x := s.cur
  let u := x.unit
  let s :=
    if x.ctx.leader && x.gskip == 0 && u != .never then
      s.handOut { unit := u, code := x.dictWord.isSome, pc := x.ctx.pc, next := x.nextPc, seq := x.gseq + 1, faulted := true } true
    else s
  (s.releaseUpTo (if x.ctx.leader && u == .never then x.nextSeq - 1 else x.nextSeq)).modCur Slot.release

/-! ### Traps (R308 to R310) -/

/-- HALT and a double trap (R174, R310): the strand stays in its slot parked until system software answers. -/
def State.haltStrand (s : State) (pc : Word) : State :=
  let s := s.modCur fun x =>
    { x with ctx := { x.ctx with parked := true, pc := pc }, wait := some .verdict, ticket := none, replies := [],
             begun := false, dictWord := none }
  s.post 7 (clusterOf s.core) (wordN s.cur.ctx.strandId.toNat) pc 0

/-- Take a trap in the current slot, whose chunk has ended: the entry of R309. A double trap, and a first one for which no handler
exists, stops the strand at `pc`, with TEPC, TCAUSE and TADDR as they stood; INTRAP is then set (R309, R310; DEDUCED, log 25). -/
def State.takeTrapAt (s : State) (cause info : Nat) (addr epc pc : Word) : State :=
  let s := s.giveKept s.core s.slot
  let x := s.cur
  if x.ctx.intrap then s.haltStrand pc
  else
    let s := if x.ctx.gang then s.disband else s
    let l := s.launchOf x.ctx
    let tvec : Word := (l.map (·.tvec)).getD 0
    let tfut : Word := (l.map (·.tfut)).getD 0
    let h := if cause == 7 && tfut != 0 then tfut else tvec
    let s := s.modCtx fun y => { y with intrap := true }
    if h == 0 then s.haltStrand pc
    else
      s.modCur fun y =>
        { y with
          tepc := epc &&& ~~~1, tcause := wordN (info % 65536 * 65536 + cause), taddr := addr
          ctx := { y.ctx with pc := h &&& ~~~1 }
          ticket := none, replies := [], begun := false, dictWord := none }
def State.takeTrap (s : State) (cause info : Nat) (addr epc : Word) : State := s.takeTrapAt cause info addr epc (epc &&& ~~~1)

/-- Return from a trap (R174, R309). -/
def State.eret (s : State) : Word × State := (s.cur.tepc, s.modCtx fun x => { x with intrap := false })

/-! ### Why an execution stops short of retiring -/

inductive Stop where
  /-- The instruction waits in its slot; what it did is undone, but that it holds what it has taken from queues (`takes`: all that its
  chunk holds), and it issues again (R23, R158, R375). -/
  | wait (w : Wait) (takes : List Take)
  /-- The chunk ends before it (R36); then this happens, the instruction having had no effect of its own. -/
  | after (f : State → State)
  /-- The control core stops (R327). -/
  | ctrl (reason : Nat)
  /-- The term stands for no word. -/
  | illFormed

/-- Meanings: a state transformer that may stop; the result is a branch target, if the instruction transfers control. -/
abbrev M := StateT State (Except Stop)

def stop {α : Type} (e : Stop) : M α := throw e
def waitFor {α : Type} (w : Wait) : M α := do stop (.wait w (← get).cur.chunk.takes)
/-- The instruction raises a trap, TEPC being its own address (R312). -/
def trap {α : Type} (cause info : Nat) (addr : Word) : M α :=
  stop (.after fun s => s.takeTrap cause info addr s.cur.ctx.pc)
/-- As `trap`, TEPC being the next unit (causes 0x0C and 0x0F). -/
def trapAfter {α : Type} (cause info : Nat) (addr : Word) : M α :=
  stop (.after fun s => s.takeTrap cause info addr s.cur.nextPc)
/-- The chunk ends before this instruction, which then issues again (R36). -/
def endBefore {α : Type} : M α := stop (.after fun s => s)
/-- The chunk ends after this instruction (R36). -/
def endAfter : M Unit := modify fun s => s.modChunk fun c => { c with ended := true }
/-- A system-scope access, or BARWAIT: the instruction forms a chunk of its own. -/
def ownChunk : M Unit := do
  if (← get).cur.chunk.count ≠ 0 then endBefore
  endAfter
def hold (h : Held) : M Unit := modify fun s => s.modChunk fun c => { c with held := c.held ++ [h] }

/-- A leader hands its unit out before it has executed it: one that waits (R34), or that parks, since the other members still execute it
(R331); not one whose way is still open. It does not hand it out again when it completes or replays. -/
def State.giveAhead (s : State) : State :=
  let x := s.cur
  let u := x.unit
  if x.ctx.gang && x.ctx.leader && x.gskip == 0 && u != .never && !transfers u then
    (s.handOut { unit := u, code := x.dictWord.isSome, pc := x.ctx.pc, next := x.nextPc, seq := x.gseq + 1, faulted := false } false).modCur fun x =>
      { x with gskip := 1, gseq := x.gseq + 1 }
  else s

/-- The current unit is done with, its chunk having ended: a leader has handed it out, and a follower's buffer holds it no more (R34). -/
def State.passUnit (s : State) : State :=
  s.giveAhead.modCur fun x =>
    { x with gbuf := if x.isFollower then x.gbuf.drop 1 else x.gbuf
             gskip := if x.ctx.gang && x.ctx.leader then x.gskip - 1 else x.gskip }

/-- The strand parks since its access leaves by a link that is down (R355): system software's HWAKE ends it. -/
def State.parkDown (s : State) (va : Nat) : State :=
  let s := s.giveAhead
  if s.storeFull s.core s.slot then s else s.parkIn s.core s.slot (.page va)
/-- The strand parks on the absent page of an address (R329, R330), or since its element leaves by a link that is down; where the page has
been served since the walk, or its block's park store has no room for a guest (log 94), its instruction goes on. -/
def State.parkPage (s : State) (va : Nat) : State :=
  match s.walk va with
  | .absent .. =>
    let s := s.giveAhead
    let x := s.cur.ctx
    let s := s.faultOn va (s.clusterFor x s.core) (wordN x.strandId.toNat)
    if s.storeFull s.core s.slot then s else s.parkIn s.core s.slot (.page va)
  | .leaf x => if x.peer.any fun d => d != 0x7FFF && s.linkDown d then s.parkDown va else s
  | .malformed => s
def parkOn {α : Type} (va : Nat) : M α := stop (.after fun s => s.parkPage va)
/-- The strand parks on a poisoned unit (R346). -/
def State.parkUnit (s : State) (unit va : Nat) : State :=
  let s := s.giveAhead
  let s := s.poisonMet unit va (s.clusterFor s.cur.ctx s.core)
  if s.storeFull s.core s.slot then s else s.parkIn s.core s.slot (.poison unit)
def parkPoison {α : Type} (unit va : Nat) : M α := stop (.after fun s => s.parkUnit unit va)

/-! ### Waiting, retiring, issuing -/

/-- What a wait is for (R23): the unit itself, which has then not issued (R22, R102); an entry that a put or an SVU command reserves,
which a gang's leader then has not yet issued (R34); or an instruction that has issued. -/
inductive WaitKind where | unit | entry | issued
deriving DecidableEq, Repr

def Wait.kind : Wait → WaitKind
  | .fetch _ | .dictionary => .unit
  | .nqFull | .outbound | .wqFull _ | .svuFull | .lock _ => .entry
  | _ => .issued

/-- The current slot waits; a request to a peer goes out, and the bit that decided against shipping is drawn. It keeps its place in the
order of waiting across repeated waits of one instruction. A locked full-empty or barrier instruction releases its reservations while it
waits (R38); so does one that asks for more lines. A leader hands out an instruction that has issued (R34). -/
def State.waitOn (s : State) (w : Wait) : State :=
  let s := if w.kind == .issued && s.cur.ctx.gang then s.giveAhead else s
  let x := s.cur
  let s := { s with ticket := if x.ticket.isNone then s.ticket + 1 else s.ticket }
  let keep := match w with
    | .walk .. | .request _ | .reply _ | .peer .. => true
    | _ => false
  let s := s.setCur { x with
    wait := some w, ticket := some (x.ticket.getD (s.ticket - 1)), reserved := if keep then x.reserved else []
    begun := x.begun || w.kind != .unit }
  match w with
  | .peer dev r => { s with free := s.free + 1 }.sendPeer dev r.va (x.ctx.tdom.toNat % 4096) r.op
  | _ => s

/-- An entry leaves its queue's head. -/
def Take.remove (t : Take) (c : Nat) (s : State) : State :=
  match t with
  | .nq _ => s.modCore c fun q => { q with nqUp := q.nqUp.drop 1 }
  | .mbox n _ => s.modCore c fun q => { q with mboxes := q.mboxes.set n ((q.mboxes.get [] n).drop 1) }
  | .wq n _ => s.modCluster (clusterOf c) fun u => { u with wqs := u.wqs.set n ((u.wqs.get [] n).drop 1) }

/-- The current instruction, which waits, holds the entries that it took (R158); a pop of `nq` has pinned the strand (R35). -/
def State.keepTakes (s : State) (takes : List Take) : State :=
  match takes.drop s.cur.chunk.takes.length with
  | [] => s
  | new =>
    (new.foldl (fun s t => t.remove s.core s) s).modCur fun x =>
      { x with
        kept := x.kept ++ new, chunk := { x.chunk with takes := x.chunk.takes ++ new }
        ctx := { x.ctx with pinq := x.ctx.pinq || new.any fun t => match t with | .nq _ => true | .mbox .. | .wq .. => false } }

/-- The current instruction has executed (R36, R100): PC moves on, a gang's leader hands the instruction out, a follower takes
the leader's way (R34), and the chunk ends where it must. The control core only moves on. -/
def State.retire (s : State) (target : Option Word) : State :=
  let x := s.cur
  if s.isCtrl then s.setCur { x with ctx := { x.ctx with pc := target.getD (x.ctx.pc + 4) } }
  else
    let follower := x.isFollower
    let e := if follower then x.gbuf.head? else none
    let pc' := match e with
      | some e => e.next
      | none => target.getD x.nextPc
    let gives := x.ctx.gang && x.ctx.leader && x.gskip == 0
    let s := if gives then s.handOut { unit := x.unit, code := x.dictWord.isSome, pc := x.ctx.pc, next := pc', seq := x.gseq + 1, faulted := false } x.releasing else s
    let c := x.chunk
    let x' : Slot :=
      { x with
        ctx := { x.ctx with pc := pc' }
        chunk := { c with
          count := c.count + 1
          ended := c.ended || decide (255 ≤ c.count) || decide (0 < x.lockLeft)
          gtaken := c.gtaken ++ e.toList
          gpushed := if x.ctx.gang && x.ctx.leader then c.gpushed + 1 else c.gpushed }
        ticket := none, replies := [], begun := false, kept := [], dictWord := none
        gbuf := if follower then x.gbuf.drop 1 else x.gbuf
        gseq := if gives then x.gseq + 1 else match e with | some e => e.seq | none => x.gseq
        gskip := if x.ctx.gang && x.ctx.leader then x.gskip - 1 else x.gskip }
    s.setCur x'.settleRelease

/-- A control core stops without executing the instruction and reports it (R327). -/
def State.ctrlStop (s : State) (reason : Nat) : State :=
  let k := clusterOf s.core
  let s := s.modCluster k fun u => { u with ccStopped := true }
  s.post 8 k (wordN (0x100 + k)) s.cur.ctx.pc (wordN reason)

/-- The outcome of an execution that stopped; `s` is the state at issue. -/
def State.settle (s : State) : Stop → Out
  | .wait w takes => .next ((s.keepTakes takes).waitOn w)
  | .after f =>
    let r := s.closeBefore
    let ended := (r.2.slotAt s.core s.slot).chunk.ended
    -- the instruction has issued: it goes on once the chunk before it is done, unless that was discarded
    let t := if r.1 || ended then r.2.modCur fun x => { x with begun := true } else r.2
    .next (if r.1 then (f t).reseat s.core s.slot else t)
  | .ctrl reason => .next (s.ctrlStop reason)
  | .illFormed => .refused .illFormed

/-- Issue an instruction in the current slot: suppressed by its guard it only counts (R104). -/
def issue (g : Guard) (body : M (Option Word)) (s : State) : Out :=
  let s := s.openChunk
  if g.holds s.cur.ctx.pred then
    match body.run s with
    | .ok (t, s') => .next (s'.retire t)
    | .error e => s.settle e
  else .next (s.retire none)

/-- A unit that the decoder finds illegal, whether its guard would suppress it or not (R312, R313). -/
def State.illegalUnit (s : State) (r : Illegal) : Out :=
  if s.isCtrl then .next (s.ctrlStop 5)
  else
    s.openChunk.settle (.after fun s => s.takeTrap 1 r.code s.cur.ctx.pc s.cur.ctx.pc)

/-- As `issue`, for an instruction that the control core does not have (R281): it stops the core with reason 5 (R327) even where its
guard would suppress it, of which neither rule speaks (DESIGN CHOICE, log 113). -/
def issueStrand (g : Guard) (body : M (Option Word)) (s : State) : Out :=
  if s.isCtrl then .next (s.ctrlStop 5) else issue g body s

end Sys2Proof.Machine
end

