-- ==== Sys2Proof/Machine/Transc.lean ====
section
/-! DEFINITION. The special functions (R99): the exact function, correctly rounded. A transcendental value is computed in fixed
point to over 200 bits after its leading bit and rounded with its tail taken as nonzero, which is the correctly rounded value
unless an f32 argument's exact value lies within 2^-150 of a rounding boundary. PRESUMED that none does (log 7). -/

namespace Sys2Proof

/-- The nine functions of the SFU (R136) and what the vector and attention units share. -/
inductive SFn where
  | rcp | rsq | sqrt | log2 | exp2 | sin | cos | tanh | sigm
deriving DecidableEq, Repr

/-- floor(π × 2^512) and floor(ln 2 × 2^512). -/
def piFix : Nat :=
  42121870893450636219446821484559388105255997313489254605594685088103805782276098919793885372247726346443771296916333485327292916625599161542353774203832599
def ln2Fix : Nat :=
  9293584264128987901384440660653081117630633404975079641076009770578364573633075645167623918067512986930843040596952636663673675798576024949780480621393957

/-- Fixed-point fraction bits of every intermediate below. -/
def fxBits : Nat := 320
def fxOne : Nat := 2 ^ 320

/-- Sum of `x^k / k!` for x in [0, 1), by Horner steps 1 + x/k × (…), from k = fuel down to 1. -/
def expSeries (x : Nat) : Nat → Nat → Nat
  | 0, acc => acc
  | k + 1, acc => expSeries x k (fxOne + x * acc / fxOne / (k + 1))
def fxExp (x : Nat) : Nat := expSeries x 90 fxOne

/-- 1 − x²/(k(k+1)) × (…) steps of the sine and cosine series, from index `2j + o` down. -/
def trigSeries (x2 : Nat) (o : Nat) : Nat → Nat → Nat
  | 0, acc => acc
  | j + 1, acc => trigSeries x2 o j (fxOne - x2 * acc / fxOne / ((2 * j + 1 + o) * (2 * j + 2 + o)))
/-- sin and cos of x in [0, 1]. -/
def fxSin (x : Nat) : Nat := x * trigSeries (x * x / fxOne) 1 45 fxOne / fxOne
def fxCos (x : Nat) : Nat := trigSeries (x * x / fxOne) 0 45 fxOne

/-- atanh(z) = z (1 + z²/3 + z⁴/5 + …), z in [0, 1/3]. -/
def atanhSeries (z2 : Nat) : Nat → Nat → Nat
  | 0, acc => acc
  | j + 1, acc => atanhSeries z2 j (fxOne / (2 * j + 1) + z2 * acc / fxOne)
/-- ln of y / 2^320 for y in [2^320, 2^321). -/
def fxLn (y : Nat) : Nat :=
  let z := (y - fxOne) * fxOne / (y + fxOne)
  2 * (z * atanhSeries (z * z / fxOne) 110 0 / fxOne)

/-- An approximation handed to rounding: its low 60 bits hold the error and are dropped, the rest taken as inexact. -/
def roundApprox (F : FFmt) (ftz neg : Bool) (n : Nat) (e : Int) : Nat × NFlags :=
  F.round .rne ftz neg (n / 2 ^ 60) (e + 60) true

/-- A value just below ±m × 2^e. -/
def roundBelow (F : FFmt) (ftz neg : Bool) (m : Nat) (e : Int) : Nat × NFlags :=
  F.round .rne ftz neg (m * 2 ^ 64 - 1) (e - 64) true

/-- e^(n / 2^320) as t × 2^k with t in [2^320, 2^321): k and t. -/
def fxExpBig (n : Nat) : Nat × Nat :=
  let k := n * 2 ^ 192 / ln2Fix
  let r := (n * 2 ^ 192 - k * ln2Fix) / 2 ^ 192
  (k, fxExp r)

/-- |x| = m × 2^e in fixed point. -/
def fxOf (m : Nat) (e : Int) : Nat := shiftInt m (e + 320)

/-- exp2 of a finite nonzero value, rounded into a format: an integer argument is exact (R99). -/
def exp2Fin (F : FFmt) (ftz neg : Bool) (m : Nat) (e : Int) : Nat × NFlags :=
  if decide (1000 ≤ shiftInt m e) then
    if neg then F.round .rne ftz false 1 (-1000) true else F.round .rne ftz false 1 1000 false
  else
    let x := fxOf m e
    let exact : Bool := decide (0 ≤ e) || m % 2 ^ (-e).toNat == 0
    if exact then F.round .rne ftz false 1 (if neg then -(shiftInt m e : Int) else shiftInt m e) false
    else
      -- floor and fraction of ±x
      let v : Int := if neg then -(x : Int) else x
      let k := v / (2 : Int) ^ 320
      let f := (v - k * (2 : Int) ^ 320).toNat
      roundApprox F ftz false (fxExp (f * ln2Fix / 2 ^ 512)) (k - 320)

/-- log2 of m × 2^e, m > 0: exact for a power of two. -/
def log2Fin (F : FFmt) (ftz : Bool) (m : Nat) (e : Int) : Nat × NFlags :=
  let L := bitLen m
  let k : Int := (L : Int) - 1 + e
  if m = 2 ^ (L - 1) then F.round .rne ftz (decide (k < 0)) k.natAbs 0 false
  else
    let y := shiftInt m (321 - (L : Int))
    let l : Nat := fxLn y * 2 ^ 512 / ln2Fix
    let v : Int := k * (2 : Int) ^ 320 + l
    roundApprox F ftz (decide (v < 0)) v.natAbs (-320)

/-- sin or cos of ±m × 2^e: reduced modulo π/2 exactly enough for every f32 argument. -/
def trigFin (F : FFmt) (ftz isCos neg : Bool) (m : Nat) (e : Int) : Nat × NFlags :=
  if (bitLen m : Int) + e < -40 then
    if isCos then roundBelow F ftz false 1 0 else roundBelow F ftz neg m e
  else
    -- x × 2^512, the quadrant and the remainder in [0, π/2)
    let x := shiftInt m (e + 512)
    let halfPi := piFix / 2
    let qd := x / halfPi
    let r := (x - qd * halfPi) / 2 ^ 192
    let quad := (if isCos then qd + 1 else qd) % 4
    -- sin of quadrant: 0 sin r, 1 cos r, 2 −sin r, 3 −cos r; cos x = sin(x + π/2); both series take r ≤ π/4
    let comp := halfPi / 2 ^ 192 - r
    let small := decide (r ≤ comp)
    let sinr := if small then fxSin r else fxCos comp
    let cosr := if small then fxCos r else fxSin comp
    let mag := if quad % 2 = 0 then sinr else cosr
    let sgn := decide (2 ≤ quad)
    roundApprox F ftz (if isCos then sgn else (sgn != neg)) mag (-320)

/-- tanh: 1 − 2/(e^2x + 1). -/
def tanhFin (F : FFmt) (ftz neg : Bool) (m : Nat) (e : Int) : Nat × NFlags :=
  if (bitLen m : Int) + e < -40 then roundBelow F ftz neg m e
  else if 32 ≤ shiftInt m e then roundBelow F ftz neg 1 0
  else
    let b := fxExpBig (fxOf m (e + 1))
    let ex := b.2 * 2 ^ b.1
    roundApprox F ftz neg ((ex - fxOne) * fxOne / (ex + fxOne)) (-320)

/-- sigm: 1/(1 + e^−x). -/
def sigmFin (F : FFmt) (ftz neg : Bool) (m : Nat) (e : Int) : Nat × NFlags :=
  if 200 ≤ shiftInt m e then
    if neg then F.round .rne ftz false 1 (-400) true else roundBelow F ftz false 1 0
  else
    let b := fxExpBig (fxOf m e)
    let ex := b.2 * 2 ^ b.1
    if neg then roundApprox F ftz false (2 ^ 1000 / (ex + fxOne)) (-680)
    else roundApprox F ftz false (ex * fxOne / (ex + fxOne)) (-320)

/-- 1/sqrt and sqrt of m × 2^e, exact roots exact. -/
def sqrtFin (F : FFmt) (ftz : Bool) (m : Nat) (e : Int) : Nat × NFlags :=
  let m1 := if e % 2 = 0 then m else 2 * m
  let e1 := if e % 2 = 0 then e else e - 1
  let big := m1 * 2 ^ 80
  let r := isqrt big
  F.round .rne ftz false r (e1 / 2 - 40) (decide (r * r ≠ big))
def rsqFin (F : FFmt) (ftz : Bool) (m : Nat) (e : Int) : Nat × NFlags :=
  let m1 := if e % 2 = 0 then m else 2 * m
  let e1 := if e % 2 = 0 then e else e - 1
  let r := isqrt (2 ^ 160 / m1)
  F.round .rne ftz false r (-80 - e1 / 2) (decide (r * r * m1 ≠ 2 ^ 160))

/-- F(x) with the special operands and flags of R99. -/
def special (fn : SFn) (F : FFmt) (ftz : Bool) (x : Nat) : Nat × NFlags :=
  match fmtF32.read ftz x with
  | .nan s => (F.nan, flagIf s flINV)
  | .inf n =>
    match fn with
    | .rcp => (F.withSign n 0, 0)
    | .rsq => if n then (F.nan, flINV) else (0, 0)
    | .sqrt => if n then (F.nan, flINV) else (F.inf, 0)
    | .log2 => if n then (F.nan, flINV) else (F.inf, 0)
    | .exp2 => if n then (0, 0) else (F.inf, 0)
    | .sin => (F.nan, flINV)
    | .cos => (F.nan, flINV)
    | .tanh => (F.withSign n (F.bias * 2 ^ F.fbits), 0)
    | .sigm => if n then (0, 0) else (F.bias * 2 ^ F.fbits, 0)
  | .fin n m e =>
    if m = 0 then
      match fn with
      | .rcp => (F.withSign n F.inf, flDZ)
      | .rsq => (F.withSign n F.inf, flDZ)
      | .sqrt => (F.withSign n 0, 0)
      | .log2 => (F.withSign true F.inf, flDZ)
      | .exp2 => (F.bias * 2 ^ F.fbits, 0)
      | .sin => (F.withSign n 0, 0)
      | .cos => (F.bias * 2 ^ F.fbits, 0)
      | .tanh => (F.withSign n 0, 0)
      | .sigm => ((F.bias - 1) * 2 ^ F.fbits, 0)
    else
      match fn with
      | .rcp => F.roundRatio .rne ftz n 1 m (-e)
      | .rsq => if n then (F.nan, flINV) else rsqFin F ftz m e
      | .sqrt => if n then (F.nan, flINV) else sqrtFin F ftz m e
      | .log2 => if n then (F.nan, flINV) else log2Fin F ftz m e
      | .exp2 => exp2Fin F ftz n m e
      | .sin => trigFin F ftz false n m e
      | .cos => trigFin F ftz true n m e
      | .tanh => tanhFin F ftz n m e
      | .sigm => sigmFin F ftz n m e

/-- e^(−m × 2^e), m > 0, as f32. -/
def expNeg (m : Nat) (e : Int) : Nat :=
  (if (bitLen m : Int) + e < -40 then roundBelow fmtF32 false false 1 0
   else if 200 ≤ shiftInt m e then fmtF32.round .rne false false 1 (-400) true
   else
    let b := fxExpBig (fxOf m e)
    roundApprox fmtF32 false false (2 ^ 1000 / (b.2 * 2 ^ b.1)) (-680)).1

/-- Φ of linear attention (R239): x + 1 above 0, e^x otherwise. -/
def phi (x : Nat) : Nat :=
  match fmtF32.read false x with
  | .nan _ => fmtF32.nan
  | .inf n => if n then 0 else fmtF32.inf
  | .fin n m e =>
    if n && m ≠ 0 then expNeg m e else (fmtF32.addVal .rne false (.fin false m e) (.fin false 1 0)).1

/-- Exp2Bf16 (R99, R238): never flushed. -/
def exp2Bf16 (x : Nat) : Nat := (special .exp2 fmtBf16 false x).1

end Sys2Proof
end

