-- ==== Sys2Proof/Machine/Flags.lean ====
section
/-! DEFINITION. Predicates (R109, R122) and the flags and modes of TMODE (R88 to R91) as meanings read and set them. -/

namespace Sys2Proof

/-- Combine an outcome into the predicate word (R122); a write to p0 is discarded. -/
def combinePred (c : Combine) (pred : BitVec 16) (p : Fin 16) (v : Bool) : BitVec 16 :=
  let old := pred.getLsbD p.val
  let new := match c with
    | .set => v
    | .and => old && v
    | .or => old || v
  if p.val = 0 then pred
  else if new then pred ||| BitVec.twoPow 16 p.val else pred &&& ~~~(BitVec.twoPow 16 p.val)

/-- Integer conditions (R109, R122) on values of `w` bits. -/
def ICond.holds (c : ICond) {w : Nat} (x y : BitVec w) : Bool :=
  match c with
  | .eq => x == y
  | .ne => x != y
  | .lt => x.slt y
  | .ge => !x.slt y
  | .ltn => x.ult y
  | .gen => !x.ult y

/-- A write to TMODE (R89): RM takes codes 0 to 4 only, FTZ is written, a 1 clears a sticky flag, the rest stays. -/
def writeTmode (old v : BitVec 32) : BitVec 32 :=
  let rm := v.extractLsb' 1 3
  let rm' := if rm.toNat < 5 then rm else old.extractLsb' 1 3
  (old &&& flAll &&& ~~~v) ||| (rm'.setWidth 32 <<< 1) ||| (v &&& 1)

end Sys2Proof

namespace Sys2Proof.Machine

/-- TMODE.FTZ, and the mode of a rounding field (R88, R91). -/
def Ctx.ftz (x : Ctx) : Bool := x.tmode.getLsbD 0
def Ctx.mode (x : Ctx) (r : Rnd) : RMode := r.resolve x.tmode
/-- TMODE that FORK and SLSTART hand on (R89): FTZ and RM, every flag clear. -/
def Ctx.childTmode (x : Ctx) : BitVec 32 := x.tmode &&& 0xF

/-- Flags are sticky: they are set, never cleared, by instructions (R90). -/
def raise (f : NFlags) : M Unit := modify fun s => s.modCtx fun x => { x with tmode := x.tmode ||| (f &&& flAll) }

/-- Write one predicate. -/
def setPred (c : Combine) (p : Fin 16) (v : Bool) : M Unit :=
  modify fun s => s.modCtx fun x => { x with pred := combinePred c x.pred p v }
def getPred (p : Fin 16) : M Bool := do return ((← get).cur.ctx.pred ||| 1).getLsbD p.val

end Sys2Proof.Machine
end

