-- ==== Sys2Proof/Machine/Operands.lean ====
section
/-! DEFINITION. Operands: registers, the neighbour queues, streams and the identity word (R28, R107, R108), and an access to
memory in every form (R42 to R53, R138). -/

namespace Sys2Proof.Machine

/-! ### Plain registers -/

/-- Index of a general register in the context, if the specifier names one. -/
def regIndex : Reg → Option (Fin 24)
  | .m n => some ⟨n.val, by omega⟩
  | .s n => some ⟨16 + n.val, by omega⟩
  | .l n => some ⟨22 + n.val, by omega⟩
  | .z | .nq | .st _ | .id => none

/-- The identity word (R28). -/
def State.idWord (s : State) : Word :=
  let x := s.cur.ctx
  wordN (x.block.toNat * 2 ^ 40 + x.launch.toNat * 2 ^ 24 + x.bcore % 8 * 2 ^ 21 + x.lane % 8 * 2 ^ 18 + x.gsz % 4 * 2 ^ 16
    + s.slot % 16 * 2 ^ 12 + s.core % 512 * 8)

/-! ### Streams (R59, R150 to R152, R324) -/

/-- Number of elements. -/
def Stream.total (t : Stream) : Nat := t.counts[0] * t.counts[1] * t.counts[2] * t.counts[3]

/-- Address of element `k` (R59). -/
def Stream.addr (t : Stream) (k : Nat) : Word :=
  let i0 := k % t.counts[0]
  let i1 := k / t.counts[0] % t.counts[1]
  let i2 := k / (t.counts[0] * t.counts[1]) % t.counts[2]
  let i3 := k / (t.counts[0] * t.counts[1] * t.counts[2])
  t.base + wordI (i0 * t.strides[0] + i1 * t.strides[1] + i2 * t.strides[2] + i3 * t.strides[3])

def State.setStream (s : State) (t : Fin 4) (v : Option Stream) : State :=
  s.modCur fun x => { x with streams := x.streams.set t v }

def State.modStream (s : State) (t : Fin 4) (f : Stream → Stream) : State := s.setStream t (s.cur.streams[t].map f)

/-- The stream trap (R312, R324): INFO holds the stream and the reason. -/
def streamTrap {α : Type} (t : Fin 4) (reason : Nat) (addr : Word) : M α := trap 6 (t.val + 4 * reason) addr

/-- Report what a stream met outside the strand's instructions: an element refused at its drain or its fetch traps, an element
on an absent page parks the strand (R324, R329). The report is made once. -/
def streamReport (t : Fin 4) (st : Stream) : M Unit := do
  match st.refused with
  | some (cause, info, addr) =>
    stop (.after fun s =>
      (s.modStream t fun st => { st with refused := none }).takeTrap cause info addr s.cur.ctx.pc)
  | none => pure ()
  match st.absent with
  | some va =>
    stop (.after fun s =>
      (s.modStream t fun st => { st with absent := none }).parkPage va)
  | none => pure ()
  match st.tainted with
  | some u =>
    stop (.after fun s =>
      (s.modStream t fun st => { st with tainted := none }).parkUnit u (st.addr st.drained).toNat)
  | none => pure ()

/-- The address an answer is about. -/
def Reply.about : Reply → Nat
  | .ok va _ | .owner va _ | .peer va _ | .park va => va
  | .fault _ _ a => a.toNat

/-- The next thing that this instruction's access to an address, or to one of two, has brought back. What an earlier execution asked for at
another address, before it read anew what names it, is passed over. -/
def nextReplyOf (p : Nat → Bool) : M (Option Reply) := do
  match (← get).cur.replies.dropWhile fun r => !p r.about with
  | [] =>
    modify fun s => s.modCur fun x => { x with replies := [] }
    return none
  | r :: rest =>
    modify fun s => s.modCur fun x => { x with replies := rest }
    return some r
def nextReply (va : Nat) : M (Option Reply) := nextReplyOf (· == va)

/-- Take the next element of a read stream; one on a peer's page comes as the peer's reply. Of an unbound stream TADDR is 0, and a wrong
direction is reported before the end: DESIGN CHOICE (log 103). -/
def streamRead (t : Fin 4) : M Word := do
  match (← get).cur.streams[t] with
  | none => streamTrap t 0 0
  | some st =>
    streamReport t st
    if st.write then streamTrap t 1 (st.addr st.pos)
    else if st.total ≤ st.pos then streamTrap t 2 (st.addr st.pos)
    else
      match st.buf with
      | [] =>
        match ← nextReply (st.addr st.pos).toNat with
        | some (.peer _ v) =>
          modify fun s => s.setStream t (some { st with pos := st.pos + 1 })
          return wordN (v.toNat % 2 ^ (8 * st.size))
        | some (.fault cause info addr) => trap cause info addr
        | some (.park va) => parkOn va
        | some (.ok ..) | some (.owner ..) | none => waitFor (.streamEmpty t)
      | w :: rest =>
        modify fun s => s.setStream t (some { st with buf := rest, pos := st.pos + 1 })
        return w

/-! ### Streams written -/

/-- Write the next element of a write stream: mapping is checked here, rights when the element drains (R324). It waits while the
buffer is full of committed elements; those of one chunk beyond the buffer's sixteen stand behind it once committed (R152; log 30). TADDR and reasons as streamRead has them
(log 103). -/
def streamWrite (t : Fin 4) (w : Word) : M Unit := do
  let s ← get
  match s.cur.streams[t] with
  | none => streamTrap t 0 0
  | some st =>
    streamReport t st
    let addr := st.addr st.pos
    if !st.write then streamTrap t 1 addr
    else if st.total ≤ st.pos then streamTrap t 2 addr
    else
      match s.reachOf s.cur.ctx s.core addr.toNat with
      | .bad info => trap 4 info addr
      | .window .. => pure ()
      | .space => if s.walk addr.toNat == .malformed then trap 4 7 addr
      if 16 ≤ st.buf.length then waitFor (.streamFull t)
      modify fun s => s.setStream t (some { st with pos := st.pos + 1 })
      hold (.streamOut t w)

/-! ### Neighbour queues (R107, R158, R172) -/

/-- Pushes that the core's chunks hold reserved. -/
def State.nqReserved (s : State) (c : Nat) : Nat :=
  (List.range 16).foldl (fun n k =>
    n + ((s.slotAt c k).chunk.held.filter fun h => match h with | .nqPush _ => true | _ => false).length) 0

/-- Whether a core's downstream queue has an entry free for a push (R158, R172). -/
def State.nqRoom (s : State) (c : Nat) : Bool := decide ((s.coreAt c).nqDown.length + s.nqReserved c < 16)

/-- A guest does not use `nq` on a core outside its block: it is stopped and goes to its own block (R172). -/
def guestHome : M Unit := do
  if (← get).cur.ctx.guest then stop (.after fun s => s.guestLeaves s.core s.slot)

/-- Pop `nq`: an entry that the instruction took when it issued, and holds, or the oldest (R158). -/
def nqPop : M Word := do
  guestHome
  let s ← get
  match s.cur.kept with
  | .nq w :: rest =>
    modify fun s => s.modCur fun x => { x with kept := rest }
    return w
  | _ =>
  match (s.coreAt s.core).nqUp with
  | [] => waitFor .nqEmpty
  | w :: rest =>
    modify fun s =>
      ((s.modCore s.core fun k => { k with nqUp := rest }).modChunk fun c => { c with takes := c.takes ++ [.nq w] }).modCtx
        fun x => { x with pinq := true }
    return w

def nqPush (w : Word) : M Unit := do
  guestHome
  let s ← get
  if !s.nqRoom s.core then waitFor .nqFull
  modify fun s => s.modCtx fun x => { x with pinq := true }
  hold (.nqPush w)

/-! ### Register operands (R107) -/

/-- Read a source: `z` reads 0, `nq` pops, a stream gives its next element, `id` the identity word. The control core has the
general registers and `z` only (R281). -/
def readReg (r : Reg) : M Word := do
  let s ← get
  match regIndex r with
  | some n => return s.cur.ctx.gpr[n]
  | none =>
    match r with
    | .nq => if s.isCtrl then stop (.ctrl 5) else nqPop
    | .st t => if s.isCtrl then stop (.ctrl 5) else streamRead t
    | .id => if s.isCtrl then stop (.ctrl 5) else return s.idWord
    | .z => return 0
    | .m _ | .s _ | .l _ => return 0

/-- Write a destination: `z` discards, `nq` pushes, a stream takes its next element; `id` stands in no word (R314). -/
def writeReg (r : Reg) (v : Word) : M Unit := do
  let s ← get
  match regIndex r with
  | some n => modify fun s => s.modCtx fun x => { x with gpr := x.gpr.set n v }
  | none =>
    match r with
    | .nq => if s.isCtrl then stop (.ctrl 5) else nqPush v
    | .st t => if s.isCtrl then stop (.ctrl 5) else streamWrite t v
    | .id => stop .illFormed
    | .z => pure ()
    | .m _ | .s _ | .l _ => pure ()

/-! ### The normaliser (R24) -/

/-- Hand the subnormal operands counted to the core's normaliser: the slot is not ready until the last has been served. What
the instruction computes does not depend on it. -/
def normalise (n : Nat) : M Unit := do
  if n ≠ 0 then
    modify fun s => s.modCore s.core fun k => { k with normQ := k.normQ ++ [s.slot] }
    modify fun s => s.modCur fun x => { x with wait := some (.normaliser n) }

/-- Subnormal operands of a float type, none where TMODE.FTZ is set. -/
def subnormals (F : FFmt) (ftz : Bool) (l : List Nat) : Nat := if ftz then 0 else (l.filter F.isSub).length

/-! ### Access to memory -/

/-- How an access to a remote home is to be made (R51, R140). -/
inductive Way where | pred | stay | go | y
deriving DecidableEq, Repr

/-- An access: address, size, right needed (R46), way, and what it would ask of a peer (R286). -/
structure Acc where
  va : Word
  size : Nat
  need : Need
  way : Way
  op : PeerOp
  /-- A CUPD: its line joins neither signature here (R145). -/
  upd : Bool := false
  /-- The place must stand on this device (R168). -/
  own : Bool := false
  /-- The access only reads, whatever right it needs (BARWAIT). -/
  ro : Bool := false
  /-- Where in the bytes a peer's part begins (FORK). -/
  off : Nat := 0
deriving DecidableEq, Repr

/-- Where the bytes of an access stand, or what a peer answered. -/
inductive Spot where
  | here (sa : Nat)
  | peer (v : Word)
deriving DecidableEq, Repr

def Spot.sa : Spot → Nat
  | .here sa => sa
  | .peer _ => 0

/-- Distinct lines a chunk writes, by stores or by CUPDs. -/
def Chunk.written (c : Chunk) : List Nat := c.upds.foldl (fun l n => insertNat n l) c.writes

/-- Distinct lines of a chunk stay within R36's limits, a locked chunk holds a reservation on every line (R38), and a line that another
chunk has written since this one's first access is a conflict (R37). -/
def touch (line : Nat) (reads writes : Bool) : M Unit := do
  let x := (← get).cur
  let c := x.chunk
  if reads && !c.reads.contains line && decide (64 ≤ c.reads.length) && c.count ≠ 0 then endBefore
  if writes && !c.written.contains line && decide (32 ≤ c.written.length) && c.count ≠ 0 then endBefore
  if decide (0 < x.lockLeft) && !x.reserved.contains line then waitFor (.lock (insertNat line x.reserved))
  modify fun s => s.modChunk fun c =>
    { c with reads := if reads then insertNat line c.reads else c.reads
             writes := if writes then insertNat line c.writes else c.writes
             conflict := c.conflict || ((reads || writes) && c.seen.contains line) }

/-- The predictor at an access it decides (R51): migrate, and the new H and n. -/
def predict (h n x : Nat) : Bool × Nat × Nat :=
  let p := if x = h then (h, min (n + 1) 3) else (x, 1)
  (p.2 == 3, p)

/-- Whether a strand may move to a core (R35, R52, R174). -/
def State.mayMove (s : State) (home : Nat) : Bool :=
  let x := s.cur.ctx
  !x.pinned && !x.intrap && decide ((s.coreAt home).arrivals.length < 16) && !s.manualCore home

/-- The strand leaves its slot for the arrival buffer of another core (R50, R52), carrying a predictor value. -/
def State.migrateTo (s : State) (home h n : Nat) : State :=
  let x := s.cur.ctx
  (s.clearSlot s.core s.slot).modCore home fun k => { k with arrivals := k.arrivals ++ [{ ctx := x, predH := h, predN := n }] }

/-- The strand is shipped to the device that owns the page of its access (R286, R288). -/
def State.shipTo (s : State) (dev va : Nat) : State :=
  let x := s.cur.ctx
  let s := (s.clearSlot s.core s.slot).sendPeer dev va (x.tdom.toNat % 4096) (.ship x.toLine)
  { s with
    free := s.free + 1
    shipped := s.shipped ++ [(dev, va, x)] }

/-- The trap of a reply or of a local check. -/
def resFault {α : Type} (a : Acc) (r : Res) : M α :=
  match r with
  | .malformed => trap 4 7 a.va
  | .lacks l => trap 5 l a.va
  | .absent => parkOn a.va.toNat
  | .miss | .ok _ | .peer _ => waitFor (.walk a.va.toNat 0 none)

/-- An access to a page that a peer or the host owns (R286): a system-scope access, in a chunk of its own. Host memory stands
at the bus address equal to the virtual address. A strand's system-scope accesses are performed one at a time, in program order; the
table of R72 would allow more (DESIGN CHOICE, log 93). -/
def peerAccess (a : Acc) (dev : Nat) : M Spot := do
  if a.own then trap 4 3 a.va
  ownChunk
  if dev = 0x7FFF then return .here (hostSa a.va.toNat)
  let s ← get
  if s.linkDown dev then stop (.after fun s => s.parkDown a.va.toNat)
  -- a full arrival buffer there makes the access a request: a free bit (R52, R288; log 16)
  if a.way = .go && !s.cur.ctx.pinned && !s.cur.ctx.intrap && s.cur.replies.isEmpty && !s.drawBit.1 then
    stop (.after fun s => s.shipTo dev a.va.toNat)
  let va := a.va.toNat + a.off
  match ← nextReply va with
  | some (.peer _ v) => return .peer v
  | some (.fault cause info _) => trap cause info a.va
  | some (.park va) => parkOn va
  | some (.ok ..) | some (.owner ..) | none => waitFor (.peer dev { va, size := a.size, need := a.need, op := a.op })

/-- An access at another core: what its remote word access brought back, or its request. What a peer answered before the block was
swapped holds, though its home core is not asked again (R362). -/
def remoteAccess (a : Acc) : M Spot := do
  match ← nextReplyOf fun va => va == a.va.toNat || va == a.va.toNat + a.off with
  | some (.ok _ sa) => return .here sa
  | some (.fault cause info addr) => trap cause info addr
  | some (.park va) => parkOn va
  | some (.owner _ dev) => peerAccess a dev
  | some (.peer _ v) =>
    ownChunk
    return .peer v
  | none => waitFor (.request { va := a.va.toNat, size := a.size, need := a.need, op := a.op })

/-- Whether an access to a remote home migrates its strand (R51, R52); the predictor learns from those it decides. -/
def chooseKind (home : Nat) (way : Way) : M Unit := do
  let s ← get
  let x := s.cur
  if !x.replies.isEmpty then pure ()
  else
    match way with
    | .stay | .y => pure ()
    | .go => if s.mayMove home then stop (.after fun s => s.migrateTo home 0 0)
    | .pred =>
      if x.ctx.pinned || x.ctx.intrap then pure ()
      else
        let p := predict x.predH x.predN home
        if p.1 && s.mayMove home then stop (.after fun s => s.migrateTo home 0 0)

/-- The predictor learns of an access it decided, once the access is made (R51). -/
def learn (home : Nat) (way : Way) : M Unit :=
  modify fun s => s.modCur fun x =>
    if way = .pred && !x.ctx.pinned && !x.ctx.intrap then
      let p := predict x.predH x.predN home
      { x with predH := p.2.1, predN := p.2.2 }
    else x

/-- Poison in the bytes of an access (R346): a read of any of them, or a write that does not cover the unit, parks the
strand. Bytes of a unit that the chunk's own stores have covered are not read from the unit; no single store covers one. -/
def checkPoison (a : Acc) (sa : Nat) : M Unit := do
  let seek (s : State) : Option Nat × State := s.probe (some a.va.toNat) sa a.size
  match seek (← get) with
  | (some u, _) => stop (.after fun s => (seek s).2.parkUnit u a.va.toNat)
  | (none, s) => set s

/-- Reach the bytes of an access, checked in the order of R138: alignment, the map, rights. The control core reaches its local
memory only (R281); a misaligned access of it stops it like one outside (log 27). -/
def access (a : Acc) : M Spot := do
  let s ← get
  let va := a.va.toNat
  if s.isCtrl then
    if va % a.size ≠ 0 || decide (0xC000 < va + a.size) then stop (.ctrl 6)
    let sa := ctrlSa (clusterOf s.core) va
    if s.ctrlFlawed sa a.size then stop (.after fun s => (s.probe none sa a.size).2)
    set (s.probe none sa a.size).2
    return .here sa
  if va % a.size ≠ 0 then trap 3 (bitLen (a.size - 1)) a.va
  if a.way = .y then ownChunk
  let reads := !a.upd && (bitOf a.need 0 || bitOf a.need 3)
  let writes := !a.upd && !a.ro && (bitOf a.need 1 || bitOf a.need 3)
  match s.reachOf s.cur.ctx s.core va with
  | .bad info => trap 4 info a.va
  | .window home sa =>
    touch (lineOf sa) reads writes
    if home ≠ s.core then let _ ← remoteAccess a
    checkPoison a sa
    return .here sa
  | .space =>
    let home := s.homeOf va
    if home = s.core then
      if s.switches va then waitFor (.home va)
      let r := s.resolve s.core (s.cur.ctx.tdom.toNat % 4096) a.need va false
      match r.1 with
      | .ok sa =>
        set r.2
        touch (lineOf va) reads writes
        checkPoison a sa
        return .here sa
      | .peer dev => set r.2; peerAccess a dev
      | .miss =>
        match ← nextReply va with
        | some (.fault cause info addr) => trap cause info addr
        | some (.park va) => parkOn va
        | some (.ok ..) | some (.owner ..) | some (.peer ..) | none => waitFor (.walk va (dieOf s.core) none)
      | .absent | .malformed | .lacks _ => resFault a r.1
    else
      chooseKind home a.way
      match ← remoteAccess a with
      | .here sa =>
        touch (lineOf va) reads writes
        learn home a.way
        checkPoison a sa
        return .here sa
      | .peer v =>
        learn home a.way
        return .peer v

/-! ### Reading and writing through the chunk (R37, R62, R63) -/

/-- Memory as the strand sees it: with its chunk's held stores and updates in program order. -/
def Held.onMem (m : Memory) : Held → Memory
  | .store sa _ bytes _ => m.writeN sa bytes
  | .cupd sa _ op size v => m.writeNat sa size (op.apply size (m.readNat sa size) v)
  | _ => m

def State.view (s : State) : Memory := s.cur.chunk.held.foldl Held.onMem s.mem

/-- Read bytes at a place; in main memory the update-only lines of the line are recalled first (R57). -/
def readAt (va : Word) (sa n : Nat) : M (List Byte) := do
  if sa < 2 ^ 40 then modify fun s => s.recall (lineOf va.toNat)
  return (← get).view.readN sa n

/-- The value of an access's bytes. -/
def loadFrom (a : Acc) (p : Spot) : M Nat := do
  match p with
  | .here sa => return leNat (← readAt a.va sa a.size)
  | .peer v => return v.toNat % 2 ^ (8 * a.size)

/-- Store bytes: a held effect of the chunk, or at once by the control core. -/
def storeTo (a : Acc) (p : Spot) (bytes : List Byte) (atomic : Bool) : M Unit := do
  match p with
  | .peer _ => pure ()
  | .here sa =>
    if (← get).isCtrl then modify fun s => s.devWrite sa sa bytes
    else hold (.store sa (if sa < 2 ^ 64 then a.va.toNat else sa) bytes atomic)

/-- The full-empty bit of a granule as the chunk sees it. -/
def State.fullView (s : State) (g : Nat) : Bool :=
  s.cur.chunk.held.foldl (fun b h => match h with | .fullBit g' f => if g' = g then f else b | _ => b) (s.full.contains g)

end Sys2Proof.Machine
end

