-- ==== Sys2Proof/Machine/Fetch.lean ====
section
/-! DEFINITION. Which slot issues (R21 to R23, R34, R335), and the unit it issues (R100 to R102, R312, R316). -/

namespace Sys2Proof.Machine

/-! ### Readiness -/

/-- Slots of a core that wait for the same thing and began to wait earlier. -/
def State.ahead (s : State) (c : Nat) (w : Wait) (t : Nat) : Nat :=
  ((List.range 16).filter fun k =>
    let x := s.slotAt c k
    x.wait == some w && decide (x.ticket.getD 0 < t)).length

/-- As `ahead`, over all cores of a cluster. -/
def State.aheadCluster (s : State) (cl : Nat) (w : Wait) (t : Nat) : Nat :=
  (List.range 8).foldl (fun n i => n + s.ahead (8 * cl + i) w t) 0

/-- Puts that the chunks of a core hold reserved in its outbound buffer, and those of a cluster in a work queue (R158). -/
def State.sendReserved (s : State) (c : Nat) : Nat :=
  (List.range 16).foldl (fun n k =>
    n + ((s.slotAt c k).chunk.held.filter fun h => match h with | .send .. => true | _ => false).length) 0
def State.wqReserved (s : State) (cl q : Nat) : Nat :=
  (List.range 128).foldl (fun n i =>
    n + ((s.slotAt (8 * cl + i / 16) (i % 16)).chunk.held.filter fun h =>
      match h with | .wqput q' _ => q' == q | _ => false).length) 0

def State.sendRoom (s : State) (c : Nat) : Bool := decide ((s.coreAt c).outbound.length + s.sendReserved c < 16)
/-- Entries of a work queue held by uncommitted takes of the cluster return if their chunks are discarded, and keep their
place. -/
def State.wqTaken (s : State) (cl q : Nat) : Nat :=
  (List.range 128).foldl (fun n i =>
    n + ((s.slotAt (8 * cl + i / 16) (i % 16)).taken.filter fun t =>
      match t with | .wq q' _ => q' == q | _ => false).length) 0
def State.wqRoom (s : State) (cl q : Nat) : Bool :=
  decide (((s.clusterAt cl).wqs.get [] q).length + s.wqReserved cl q + s.wqTaken cl q < 256)

/-- Whether every write stream of a slot is drained, or has something to report. -/
def Slot.drained (x : Slot) : Bool :=
  x.streams.all fun o => match o with
    | some t => !t.write || t.buf.isEmpty || t.refused.isSome || t.absent.isSome || t.tainted.isSome
    | none => true

/-- Commands in an engine's queue (R283); MQRY and MRECL do not queue (R193), a held IQGET.wait has left it (R264), and so has a
command whose result waits for room (R372). -/
def State.queued (s : State) (cl : Nat) (u : EngUnit) : Nat :=
  (s.cmds.filter fun c => c.cluster == cl && c.eng == u && !c.waiting && c.answer.isNone).length
def engDepth : EngUnit → Nat
  | .matrix => 32
  | .xfer _ | .walker | .consol => 16
/-- Commands that the chunks of a cluster hold and that are not yet dispatched. -/
def State.engReserved (s : State) (cl : Nat) (u : EngUnit) : Nat :=
  (List.range 128).foldl (fun n i =>
    n + ((s.slotAt (8 * cl + i / 16) (i % 16)).chunk.held.filter fun h =>
      match h with | .engine c => c.eng == u && c.op != .mqry && c.op != .mrecl | _ => false).length) 0
def State.engRoom (s : State) (cl : Nat) (u : EngUnit) : Bool :=
  decide (s.queued cl u + s.engReserved cl u < engDepth u)

/-- Whether the wait of a slot is over (R23). Waits that an event of the table ends answer false. -/
def State.waitOver (s : State) (c k : Nat) (w : Wait) : Bool :=
  let x := s.slotAt c k
  let t := x.ticket.getD 0
  let q := s.coreAt c
  match w with
  | .nqEmpty => !q.nqUp.isEmpty
  | .nqFull => s.nqRoom c
  | .mailbox n => decide (s.ahead c w t < (q.mboxes.get [] n).length)
  | .outbound => s.sendRoom c
  | .wqEmpty n => decide (s.aheadCluster (clusterOf c) w t < ((s.clusterAt (clusterOf c)).wqs.get [] n).length)
  | .wqFull n => s.wqRoom (clusterOf c) n
  | .streamEmpty i => match x.streams[i] with
      | some t => !t.buf.isEmpty || t.refused.isSome || t.absent.isSome || t.tainted.isSome
      | none => true
  | .streamFull i => match x.streams[i] with
      | some t => decide (t.buf.length < 16) || t.refused.isSome || t.absent.isSome || t.tainted.isSome
      | none => true
  | .streamDrain => x.drained
  | .svu => x.svuQ.isEmpty
  | .svuFull => decide (x.svuQ.length < 8)
  | .engineFull u => s.engRoom (clusterOf c) u
  | .fence ids sc => s.fenced sc c ids
  | .home va => !s.switches va
  | .dictionary | .fetch _ | .walk .. | .request _ | .reply _ | .peer .. | .normaliser _ | .divider | .sfu | .fullEmpty ..
  | .barrier .. | .gang | .vimaxs .. | .engine _ | .refusal .. | .lock _ | .page _ | .poison _ | .verdict => false

/-- Whether a gang leader may run ahead of its slowest follower (R34). -/
def State.gangReady (s : State) (c k : Nat) : Bool :=
  let x := s.slotAt c k
  (x.ctx.gangCores c).all fun d =>
    let y := s.slotAt d k
    d == c || !y.ctx.gang || decide (y.gbuf.length < 16)

/-- Whether a member of the gang that faulted has parked at an instruction before the one this member executes next, or before its
replay (R331). -/
def State.gangHeld (s : State) (c k : Nat) : Bool :=
  let x := s.slotAt c k
  x.ctx.gang && (x.ctx.gangCores c).any fun d =>
    let y := s.slotAt d k
    y.occ == .running && y.ctx.gang && y.ctx.parked && y.wait.isSome && (decide (y.nextSeq < x.nextSeq) || x.atReplay)

/-- Whether a peer has answered an access of the slot's instruction. -/
def Slot.peerSpoke (x : Slot) : Bool := x.replies.any fun r => match r with | .peer .. => true | .ok .. | .owner .. | .park _ | .fault .. => false

/-- A slot at a chunk's end that a swap has stopped (R30, R338): its strand's block is leaving its cores, or the block on whose
core it is a guest. A pinned guest runs on (DEDUCED, log 24), and a gang's followers still execute what they were handed. -/
def State.swapStops (s : State) (c : Nat) (x : Slot) : Bool :=
  let leaving (b : Option Block) : Bool := b.any fun b => b.swapping.isSome
  x.atBoundary && !x.peerSpoke && x.reserved.isEmpty && !x.isFollower && !(x.ctx.guest && x.ctx.pinned)
    && (leaving (s.blockOf x.ctx) || leaving (s.blockAt c))

/-- A slot can go on (R21): it holds a strand that is not parked and does not wait, and a gang member has something to execute. A slot
whose chunk has ended does not, until that chunk has committed or been discarded (DESIGN CHOICE, log 96: R21 names no such
condition, and R36 none against it). -/
def State.goes (s : State) (c k : Nat) : Bool :=
  let x := s.slotAt c k
  x.occ == .running && !x.ctx.parked && !x.chunk.ended && !s.swapStops c x
    && (match x.wait with | none => true | some w => s.waitOver c k w) && x.vnorm == 0
    && (!x.isFollower || !x.gbuf.isEmpty) && !s.gangHeld c k

/-- A slot is ready to issue (R21): it goes on, so that its chunk has not ended (DESIGN CHOICE, log 96), with no instruction begun, nor, in a
chunk that executes again after a fault in a lane, an SVU command (R317); a replay waits for those before it (R335), and a gang's leader for its followers (R34). -/
def State.ready (s : State) (c k : Nat) : Bool :=
  let x := s.slotAt c k
  s.goes c k && !x.begun && !(x.svuSerial && !x.svuQ.isEmpty)
    && !(x.atReplay && s.replayWaits c x.ctx)
    && (!x.ctx.leader || !x.ctx.gang || decide (0 < x.gskip) || s.gangReady c k)

/-- A slot's instruction has issued, and what it waited for has come: it completes without another turn (R22, R23); a replay waits for those
before it here too. -/
def State.finishes (s : State) (c k : Nat) : Bool :=
  let x := s.slotAt c k
  s.goes c k && x.begun && !(x.atReplay && s.replayWaits c x.ctx)

/-- A slot is eligible (R21): ready, and it has not issued in the last seven cycles. -/
def State.eligible (s : State) (c k : Nat) : Bool :=
  s.ready c k && match (s.coreAt c).issued.find? fun e => e.1 == k with
    | some e => decide (e.2 + 8 ≤ (s.coreAt c).cycle)
    | none => true

/-- One cycle of a core (R22, R294): the first eligible slot in rotation order issues and moves to the tail. Answers the slot
that issues, and the state at its issue. -/
def State.coreCycle (s : State) (c : Nat) : Option Nat × State :=
  let q := s.coreAt c
  if q.cycle % 16 < s.regs.pwrK then (none, s)
  else
    match q.rot.find? fun k => s.eligible c k with
    | none => (none, s)
    | some k =>
      (some k, { s.modCore c fun p => { p with rot := p.rot.filter (fun n => n != k) ++ [k], issued := p.issued.set k q.cycle }
                 with core := c, slot := k })

/-! ### Fetch -/

/-- A unit, or why there is none yet. -/
inductive Fetched where
  | unit (u : Decoded)
  | stop (e : Stop)

/-- The instruction-address trap of a fetch (R312): TEPC is the PC with bit 0 cleared. -/
def fetchTrap (info : Nat) (pc : Word) : Stop :=
  .after fun s => s.takeTrap 2 info pc (pc &&& ~~~1)

/-- The bytes of a parcel at an address of the unit at `pc`. A page of a peer gives no instructions: DESIGN CHOICE, INFO 1
(log 28). A poisoned sector, which no cache keeps, parks the strand (R346). -/
def State.parcel (s : State) (pc : Word) (va : Nat) : (Stop ⊕ List Byte) × State :=
  if 2 ^ 56 ≤ va then (.inl (fetchTrap 1 pc), s)
  else
    let r := s.resolveFetch s.core (s.cur.ctx.tdom.toNat % 4096) va
    match r.1 with
    | .ok sa =>
      match if (r.2.icFind s.core va).isSome then none else r.2.poisonedIn sa 2 with
      | some u => (.inl (.after fun s => s.parkUnit u va), r.2)
      | none => let b := r.2.codeAt s.core va sa 2; (.inr b.1, b.2)
    | .peer _ => (.inl (fetchTrap 1 pc), r.2)
    | .lacks l => (.inl (.after fun s => s.takeTrap 5 l pc pc), r.2)
    | .miss | .absent | .malformed => (.inl (.wait (.fetch va) []), r.2)

/-- The unit the current slot issues next: a follower's from its buffer, the word of a dictionary code, or the parcels at PC. -/
noncomputable def State.fetch (s : State) : Fetched × State :=
  let x := s.cur
  if x.isFollower then
    match x.gbuf with
    | e :: _ => (.unit e.unit, s)
    | [] => (.stop (.wait .gang []), s)
  else
    match x.dictWord with
    | some w => (.unit (decodeWord w), s)
    | none =>
      let pc := x.ctx.pc
      if pc.toNat % 2 = 1 then (.stop (fetchTrap 0 pc), s)
      else
        match s.parcel pc pc.toNat with
        | (.inl e, s) => (.stop e, s)
        | (.inr p0, s) =>
          if leNat p0 % 64 = 0x3E then
            (.unit (match decodeBytes p0 with | some r => r.1 | none => .illegal .field), s)
          else
            match s.parcel pc (pc.toNat + 2) with
            | (.inl e, s) => (.stop e, s)
            | (.inr p1, s) => (.unit (match decodeBytes (p0 ++ p1) with | some r => r.1 | none => .illegal .field), s)

/-- The control core's unit, from its local memory (R281); outside it, and at an error there, the core stops (R327, R345). -/
noncomputable def State.fetchCtrl (s : State) : State ⊕ (Decoded × State) :=
  let pc := s.cur.ctx.pc.toNat
  let sa := ctrlSa (clusterOf s.core) pc
  if pc % 2 = 1 || decide (0xC000 < pc + 4) then .inl (s.ctrlStop 6)
  else
    let t := (s.probe none sa 4).2
    if s.ctrlFlawed sa 4 then .inl t
    else .inr (match decodeBytes (s.mem.readN sa 4) with | some r => r.1 | none => .illegal .field, t)

end Sys2Proof.Machine
end

