-- ==== Sys2Proof/Machine/Transfer.lean ====
section
/-! DEFINITION. Issuing engine commands (R73, R372), and the transfer unit (R153 to R156). -/

namespace Sys2Proof.Machine

/-! ### Issue -/

/-- A stream that a command will write its result to is checked at issue (R372). -/
def checkDst (d : Reg) : M Unit := do
  match d with
  | .st t =>
    let s ← get
    match s.cur.streams[t] with
    | none => streamTrap t 0 0
    | some st =>
      streamReport t st
      if !st.write then streamTrap t 1 (st.addr st.pos)
      if st.total ≤ st.pos then streamTrap t 2 (st.addr st.pos)
      match s.reachOf s.cur.ctx s.core (st.addr st.pos).toNat with
      | .bad info => trap 4 info (st.addr st.pos)
      | .window .. => pure ()
      | .space => if s.walk (st.addr st.pos).toNat == .malformed then trap 4 7 (st.addr st.pos)
  | .nq => guestHome
  | .m _ | .s _ | .l _ | .z | .id => pure ()

/-- A command as its issuer hands it over. -/
def State.newCmd (s : State) (eng : EngUnit) (op : EngOp) (q r : Flag) (d a : Word) (aZ : Bool) (dst : Option Reg) : Cmd :=
  let x := s.cur
  { id := 0, cluster := clusterOf s.core, eng, op, acq := q, rel := r, d, a, aZ, dst, fmts := Vector.replicate 4 0,
    core := s.core, slot := s.slot, strandId := x.ctx.strandId, launch := x.ctx.launch, block := x.ctx.block,
    dom := x.ctx.tdom.toNat % 4096, after := [], lcs := Vector.replicate 16 0, classes := [],
    foreign := x.ctx.foreign, gseq := x.nextSeq, pc := x.ctx.pc, desc := none, refused := none, answer := none, rows := 0, todo := [],
    part := [], waiting := false, ran := false, value := 0, begun := false, olds := [], chosen := [], reported := [], heldPage := none, heldPoison := none }

/-- Issue a command: its operands are read, it is held with the chunk that it ends, and that chunk's commit dispatches it. `src`:
d is read; `dst`: d receives a result. -/
def engineIssue (eng : EngUnit) (op : EngOp) (q r : Flag) (d a : Reg) (src dst : Bool) : M (Option Word) := do
  let x ← readReg a
  let y ← if src then readReg d else pure 0
  if dst then checkDst d
  let s ← get
  if op ≠ .mqry && op ≠ .mrecl && !s.engRoom (clusterOf s.core) eng then waitFor (.engineFull eng)
  hold (.engine (s.newCmd eng op q r y x (a == .z) (if dst then some d else none)))
  endAfter
  return none

/-! ### XCOPY (R153 to R156) -/

/-- The channel that `.ch1` selects. -/
def channel (h : Bool) : EngUnit := .xfer (if h then 1 else 0)

def execXcopyCopy (g : Guard) (e l h : Bool) (q r : Flag) (d a : Reg) (s : State) : Out :=
  issueStrand g (engineIssue (channel h) (.xcopyCopy e l) q r d a true false) s
def execXcopyFill (g : Guard) (e l h : Bool) (q r : Flag) (d a : Reg) (s : State) : Out :=
  issueStrand g (engineIssue (channel h) (.xcopyFill e l) q r d a true false) s
def execXcopyPack (g : Guard) (e l h : Bool) (q r : Flag) (d a : Reg) (s : State) : Out :=
  issueStrand g (engineIssue (channel h) (.xcopyPack e l) q r d a true false) s
def execXcopyUnpack (g : Guard) (e l h : Bool) (q r : Flag) (d a : Reg) (s : State) : Out :=
  issueStrand g (engineIssue (channel h) (.xcopyUnpack e l) q r d a true false) s

inductive XKind where | copy | fill | pack | unpack
deriving DecidableEq, Repr

/-- A transfer (R153): its kind, flags and descriptor, the rows those of the loop count under `.lc` (R154). -/
structure Xfer where
  kind : XKind
  fe : Bool
  src : Nat
  dst : Nat
  rowBytes : Nat
  rows : Nat
  sStride : Int
  dStride : Int
  w : Nat
  first : Nat
deriving DecidableEq, Repr

def EngOp.xkind : EngOp → Option (XKind × Bool × Bool)
  | .xcopyCopy fe lc => some (.copy, fe, lc)
  | .xcopyFill fe lc => some (.fill, fe, lc)
  | .xcopyPack fe lc => some (.pack, fe, lc)
  | .xcopyUnpack fe lc => some (.unpack, fe, lc)
  | _ => none

/-- The transfer a descriptor describes, or the reason it is refused (R153, R154, R319). A tile of `.pack` or `.unpack` may lie at any
address, but for the destination of `.pack.fe`: R154 asks for no alignment of it, and R94 gives one for a matrix operand's tile (DESIGN CHOICE,
log 114). -/
def Xfer.of (c : Cmd) (kind : XKind) (fe lc : Bool) (l : List Byte) : Except Nat Xfer :=
  let rowsF := lineField l 0x14 4
  let rows := if lc then (c.lcs.toList.getD (rowsF % 16) 0).toNat else rowsF
  let x : Xfer :=
    { kind, fe, src := lineField l 0 8, dst := lineField l 8 8, rowBytes := lineField l 0x10 4, rows,
      sStride := signedOf 32 (lineField l 0x18 4), dStride := signedOf 32 (lineField l 0x1C 4),
      w := bitsOf (lineField l 0x20 4) 4 0, first := bitsOf (lineField l 0x20 4) 14 8 }
  let planes := kind == .pack || kind == .unpack
  if lineField l 0x20 4 ≠ x.w + 256 * x.first || lineField l 0x24 28 ≠ 0 || (lc && decide (16 ≤ rowsF)) then .error 1
  else if !planes && (x.w ≠ 0 || x.first ≠ 0) then .error 1
  else if planes && x.rowBytes ≠ 0 then .error 1
  else if planes && !([2, 4, 6, 8, 16].contains x.w) then .error 2
  else if decide (2 ^ 24 < rows) || (!planes && (x.rowBytes = 0 || decide (65536 < x.rowBytes)))
      || (planes && decide (128 < x.first + rows)) then .error 2
  else if fe && (x.dst % 16 ≠ 0 || x.rowBytes % 16 ≠ 0 || x.dStride % 16 ≠ 0) then .error 3
  else .ok x

/-- Container bits of an element (R154). -/
def Xfer.cw (x : Xfer) : Nat := if x.w = 6 then 8 else x.w

def addrAt (base : Nat) (stride : Int) (k : Nat) : Nat := (((base : Int) + (k : Int) * stride) % (2 : Int) ^ 64).toNat
def Xfer.srcRow (x : Xfer) (k : Nat) : Nat := addrAt x.src x.sStride k
def Xfer.dstRow (x : Xfer) (k : Nat) : Nat := addrAt x.dst x.dStride k
/-- PlaneAddress (R94). -/
def planeAddr (base w j line : Nat) : Nat := (base + ((w - 1 - j) * 128 + line) * 8) % 2 ^ 64

/-- Where the writes of row `k` go, and how many bytes each (R154). -/
def Xfer.dests (x : Xfer) (k : Nat) : List (Nat × Nat) :=
  match x.kind with
  | .copy | .fill => [(x.dstRow k, x.rowBytes)]
  | .unpack => [(x.dstRow k, 8 * x.cw)]
  | .pack => (List.range x.w).map fun j => (planeAddr x.dst x.w j (x.first + k), 8)

/-- A 64-bit plane word: bit e is bit j of element e. -/
def planeWord (elems : List Nat) (j : Nat) : Nat :=
  ((List.range elems.length).zip elems).foldl (fun n p => if bitOf p.2 j then n + 2 ^ p.1 else n) 0

/-- What row `k` moves: the row read whole (two rows where `.pack.fe` writes both lines of a granule), as the writes to be made. A byte or plane that comes from poisoned bytes is
poisoned. -/
def Xfer.rowData (x : Xfer) (c : Cmd) (k : Nat) : E (List (Nat × List (Byte × Bool))) := do
  let flat (l : List EByte) : List (Byte × Bool) := l.map fun b => (b.1, b.2.isSome)
  match x.kind with
  | .copy =>
    let l ← eReadP c x.rowBytes (x.srcRow k) x.rowBytes
    return [(x.dstRow k, flat l)]
  | .fill =>
    let d := x.dstRow k
    return [(d, (List.range x.rowBytes).map fun i => (BitVec.ofNat 8 (x.src / 2 ^ (8 * ((d + i) % 8))), false))]
  | .pack =>
    let line (k : Nat) : E (List (List (Byte × Bool))) := do
      let l ← eReadP c (8 * x.cw) (x.srcRow k) (8 * x.cw)
      let v := leNat (l.map (·.1))
      let taint := l.any (·.2.isSome)
      let elems := (List.range 64).map fun e => v / 2 ^ (e * x.cw) % 2 ^ x.w
      return (List.range x.w).map fun j => (leBytes 8 (planeWord elems j)).map fun b => (b, taint)
    let put (k : Nat) (ps : List (List (Byte × Bool))) : List (Nat × List (Byte × Bool)) :=
      ((List.range x.w).zip ps).map fun e => (planeAddr x.dst x.w e.1 (x.first + k), e.2)
    -- under `.fe` the two lines of a granule are written together (R155)
    if x.fe && (x.first + k) % 2 = 0 && decide (k + 1 < x.rows) then return []
    else if x.fe && (x.first + k) % 2 = 1 && k ≠ 0 then
      let lo ← line (k - 1)
      let hi ← line k
      return put (k - 1) ((lo.zip hi).map fun e => e.1 ++ e.2)
    else return put k (← line k)
  | .unpack =>
    let planes ← (List.range x.w).mapM fun j => eReadP c 8 (planeAddr x.src x.w j (x.first + k)) 8
    let taint := planes.any fun l => l.any (·.2.isSome)
    let ws := planes.map fun l => leNat (l.map (·.1))
    let v := (List.range 64).foldl (fun n e =>
      n + ((List.range x.w).foldl (fun m j => if bitOf (ws.getD j 0) e then m + 2 ^ j else m) 0) * 2 ^ (e * x.cw)) 0
    return [(x.dstRow k, (leBytes (8 * x.cw) v).map fun b => (b, taint))]

/-- Whether `.fe` finds its whole destination in scratchpad windows (R155). -/
def Xfer.inPads (x : Xfer) : Bool :=
  let inside (p : Nat × Nat) : Bool :=
    (decide (scratchBase ≤ p.1) && decide (p.1 + p.2 ≤ scratchBase + 0x08000000))
      || (decide (scratchBase + 0x08000000 ≤ p.1) && decide (p.1 + p.2 ≤ scratchBase + 0x08040000))
  x.rows = 0 || ((x.dests 0).all inside && (x.dests (x.rows - 1)).all inside)

/-- The completion counter, checked before any work (R376). -/
def eCounter (c : Cmd) : E Unit := do
  if !c.aZ then
    require (c.a.toNat % 8 == 0) 3 c.a.toNat
    eReach c c.a.toNat 9 false

/-- Perform pieces in order; answers what is left, and why. -/
def Xfer.pieces (x : Xfer) (c : Cmd) : List (Nat × List (Byte × Bool)) → State → Option (EStop × List (Nat × List (Byte × Bool))) × State
  | [], s => (none, s)
  | p :: ps, s =>
    match (ePiece c p.1 p.2 x.fe (x.kind != .pack)).run s with
    | .ok (_, s) => x.pieces c ps s
    | .error e => (some (e, p :: ps), s)

/-- Perform rows from `k` on: each is read whole, then written piece by piece. -/
def Xfer.runRows (x : Xfer) (c : Cmd) : Nat → Nat → State → Option EStop × State
  | 0, _, s => (none, s)
  | n + 1, k, s =>
    match (x.rowData c k).run s with
    | .error e => (some e, s)
    | .ok (ws, s) =>
      let s := s.modCmd c.id fun c => { c with rows := k + 1 }
      match x.pieces c (ws.flatMap fun w => cutRow w.2.length w.1 w.2) s with
      | (none, s) => x.runRows c n (k + 1) s
      | (some (e, rest), s) => (some e, s.modCmd c.id fun c => { c with todo := rest })

/-- Go on with a transfer: the rest of the row begun, then the rows left. -/
def Xfer.run (x : Xfer) (c : Cmd) (s : State) : Option EStop × State :=
  match x.pieces c c.todo s with
  | (some (e, rest), s) => (some e, s.modCmd c.id fun c => { c with todo := rest })
  | (none, s) => x.runRows c (x.rows - c.rows) c.rows (s.modCmd c.id fun c => { c with todo := [] })

end Sys2Proof.Machine
end

