-- ==== Sys2Proof/Machine/Matrix.lean ====
section
/-! DEFINITION. The matrix engine: format contexts, MMA and its arithmetic (R94 to R98, R193 to R197), and the accumulator
commands (R198 to R202, R322, R323, R352). -/

namespace Sys2Proof.Machine

/-! ### Issue -/

def execMfmt (g : Guard) (c : Fin 4) (a : Reg) (s : State) : Out :=
  issueStrand g (do
    let w ← readReg a
    if !fmtWordOk w then trap 1 1 (← get).cur.ctx.pc
    hold (.mfmt c w)
    return none) s

def execMma (g : Guard) (v c : Bool) (p : Fin 16) (q r : Flag) (d a : Reg) (s : State) : Out :=
  issueStrand g (engineIssue .matrix (.mma v c p.val) q r d a true false) s
def execMld (g : Guard) (q r : Flag) (d a : Reg) (s : State) : Out :=
  issueStrand g (engineIssue .matrix .mld q r d a true false) s
def execMst (g : Guard) (q r : Flag) (d a : Reg) (s : State) : Out :=
  issueStrand g (engineIssue .matrix .mst q r d a true false) s
def execMclr (g : Guard) (q r : Flag) (a : Reg) (s : State) : Out :=
  issueStrand g (engineIssue .matrix .mclr q r .z a false false) s
def execMqry (g : Guard) (q r : Flag) (d a : Reg) (s : State) : Out :=
  issueStrand g (engineIssue .matrix .mqry q r d a false true) s
def execMrecl (g : Guard) (q r : Flag) (d a : Reg) (s : State) : Out :=
  issueStrand g (engineIssue .matrix .mrecl q r d a false true) s

/-! ### Elements (R82, R94 to R96) -/

def tapered? : MFmt → Option TFmt
  | .t6 => some fmtT6
  | .t8 => some fmtT8
  | .i2 | .i4 | .i8 | .bf16 | .f16 => none

/-- The value of an encoding. -/
def MFmt.value (f : MFmt) (code : Nat) : FVal :=
  match f with
  | .i2 | .i4 | .i8 => let x := signedOf f.width code; .fin (decide (x < 0)) x.natAbs 0
  | .t6 => fmtT6.read code
  | .t8 => fmtT8.read code
  | .bf16 => fmtBf16.read false code
  | .f16 => fmtF16.read false code

/-- The value with the lowest `drop` bits taken as 0 (R95, R96, R98). -/
def MFmt.cut (f : MFmt) (drop code : Nat) : FVal :=
  let t := code / 2 ^ drop * 2 ^ drop
  match tapered? f with
  | some T => if t = T.nv && code ≠ T.nv then (T.read T.maxCode).negate else f.value t
  | none => f.value t

/-! ### Sums (R97, R98) -/

/-- A slice sum: NaN, an infinity, or v × 2^e. -/
inductive SumV where
  | nan
  | inf (neg : Bool)
  | fin (v e : Int)
deriving DecidableEq, Repr

/-- The sum of finite products, exact or, aligned, truncated at 2^(E − 40). -/
def sumFin (aligned : Bool) (l : List (Int × Int)) : SumV :=
  let nz := l.filter fun p => p.1 ≠ 0
  match nz with
  | [] => .fin 0 0
  | p0 :: _ =>
    let q :=
      if aligned then
        nz.foldl (fun (m : Int) p => max m ((bitLen p.1.natAbs : Int) - 1 + p.2)) ((bitLen p0.1.natAbs : Int) - 1 + p0.2) - 40
      else nz.foldl (fun (m : Int) p => min m p.2) p0.2
    .fin (nz.foldl (fun s p =>
      s + if q ≤ p.2 then p.1 * 2 ^ (p.2 - q).toNat else p.1 / 2 ^ (q - p.2).toNat) 0) q

def sliceSum (aligned : Bool) (as bs : List FVal) : SumV :=
  let ps := (as.zip bs).map fun p => if p.1.isNan || p.2.isNan then none else mulVal p.1 p.2
  if ps.any Option.isNone then .nan
  else
    let vs := ps.filterMap id
    let isInf (n : Bool) : Bool := vs.any fun v => v == .inf n
    if isInf true && isInf false then .nan
    else if isInf true then .inf true
    else if isInf false then .inf false
    else sumFin aligned (vs.map fun v => match v with
      | .fin n m e => (if n then -(m : Int) else m, e)
      | _ => (0, 0))

/-- A scale as a factor: blocks that have none count as 1, their elements being 0 or NaN. -/
def scFactor : Sc8 → Nat × Int
  | .scale m e => (m, e)
  | .zero | .invalid => (1, 0)

/-- One step of a cell (R97): one rounding, NaN canonical, nothing flushed. -/
def accStep (acc : BitVec 32) (s : SumV) (sa sb : Sc8) : BitVec 32 :=
  let x := fmtF32.read false acc.toNat
  let bits : Nat :=
    if x.isNan then fmtF32.nan
    else
      match s with
      | .nan => fmtF32.nan
      | .inf n => (fmtF32.addVal .rne false x (.inf n)).1
      | .fin v e =>
        let fa := scFactor sa
        let fb := scFactor sb
        (fmtF32.addVal .rne false x (.fin (decide (v < 0)) (v.natAbs * fa.1 * fb.1) (e + fa.2 + fb.2))).1
  BitVec.ofNat 32 bits

/-- Change the entries of rising numbers, each by what stands with it; `d` is an unlisted entry. The fuel is the two lengths. -/
def Table.mapAt {α β : Type} (d : α) (f : β → α → α) : Nat → Table α → List (Nat × β) → Table α
  | 0, t, _ => t
  | _ + 1, t, [] => t
  | n + 1, [], (k, b) :: ks => (k, f b d) :: Table.mapAt d f n [] ks
  | n + 1, (k', v) :: t, (k, b) :: ks =>
    if k' < k then (k', v) :: Table.mapAt d f n t ((k, b) :: ks)
    else if k' = k then (k', f b v) :: Table.mapAt d f n t ks
    else (k, f b d) :: Table.mapAt d f n ((k', v) :: t) ks

def Table.mapCells {α β : Type} (t : Table α) (d : α) (l : List (Nat × β)) (f : β → α → α) : Table α :=
  Table.mapAt d f (t.length + l.length) t l

/-! ### Data errors in operands (R352) -/

/-- An element replaced: where EDLOG places it, the poisoned unit, and the address it was read at. -/
structure Bad where
  slice : Nat
  line : Nat
  elem : Nat
  opnd : Nat
  unit : Nat
  va : Nat
deriving DecidableEq, Repr

/-- First virtual address of the unit that holds an address. -/
def unitStart (unit va : Nat) : Nat := if (granuleOf unit).isSome then unit else va / 128 * 128

/-- Whether the device can hold `n` records more, of which it holds 256 (R289). -/
def State.roomFor (s : State) (n : Nat) : Bool :=
  s.meqPend.isEmpty && (decide (s.meqWait.length + n ≤ 256) || (s.meqWait.isEmpty && decide (256 < n)))

/-- Record the elements replaced: EDAT, EDLOG, and one record per unit that the command reads (R352), which names the store that lost
it (R348). The command waits while the device cannot hold its records (R289). -/
def eReplaced (c : Cmd) (slot : Nat) (bads : List Bad) : E Unit := do
  match bads with
  | [] => pure ()
  | b :: _ =>
    modify fun s => s.modAcc c.cluster slot fun x => { x with edat := true }
    modify fun s => s.modCluster c.cluster fun u =>
      if bitOf u.edlog.toNat 32 then u
      else { u with edlog := wordN (2 ^ 32 + b.slice % 128 * 2 ^ 25 + b.line % 128 * 2 ^ 18 + b.elem % 64 * 2 ^ 12
                                     + b.opnd * 2 ^ 8 + slot * 2 ^ 4) }
    let told := (((← get).cmdAt c.id).map fun k => k.reported).getD []
    let firsts := bads.foldl (fun (l : List Bad) x =>
      if told.contains x.unit || l.any (fun y => y.unit == x.unit) then l else l ++ [x]) []
    if !firsts.isEmpty && !(← get).roomFor firsts.length then throw .wait
    modify fun s => s.modCmd c.id fun k => { k with reported := told ++ firsts.map (·.unit) }
    firsts.forM fun x => modify fun s =>
      let store := if (granuleOf x.unit).isSome then 3 else s.poisonStore.get 0 x.unit
      s.post 9 c.cluster (wordN (unitStart x.unit x.va)) (wordN (unitSize x.unit + 2 ^ 32 * 2 + 2 ^ 40 * store))
        (if store = 0 || store = 1 then wordN x.unit else 0)

/-! ### MMA (R195) -/

/-- A line of a tile: its elements and its scale. -/
structure TileLine where
  elems : List FVal
  scale : Sc8
  bads : List Bad
deriving DecidableEq, Repr

/-- Read line `line` of the tile at `base`, the lowest `drop` bits of each element taken as 0: the planes that hold them are not read
(R95), and what stands there tells only a stored NV from a code that truncation makes one (R98). Poison in a plane that is read
makes every element of the line 0; in the scale's granule, the line a zero block (DEDUCED, log 34). -/
def readLine (c : Cmd) (base : Nat) (f : MFmt) (scaled : Bool) (drop line slice opnd : Nat) : E TileLine := do
  let w := f.width
  let planes ← (List.range w).mapM fun j => do
    let sa := base + ((w - 1 - j) * 128 + line) * 8
    if drop ≤ j then
      let l ← eReadAt c sa sa 8
      return (leNat (l.map (·.1)), l.findSome? (·.2))
    else return ((← get).mem.readNat sa 8, none)
  let bad := (planes.filterMap (·.2)).eraseDups
  let codes := (List.range 64).map fun e =>
    (List.range w).foldl (fun n j => if bitOf (planes.getD j (0, none)).1 e then n + 2 ^ j else n) 0
  let elems := if bad.isEmpty then codes.map (f.cut drop) else List.replicate 64 (.fin false 0 0)
  let b1 : List Bad := bad.map fun u => { slice, line, elem := 0, opnd, unit := u, va := u }
  if scaled then
    let sa := base + w * 1024 + line
    let l ← eReadAt c sa sa 1
    match l with
    | [(_, some u)] =>
      return { elems := List.replicate 64 (.fin false 0 0), scale := .zero,
               bads := b1 ++ [{ slice, line, elem := 0, opnd := 4, unit := u, va := u }] }
    | l =>
      let sc := sc8Of (leNat (l.map (·.1)))
      let elems := match sc with
        | .zero => List.replicate 64 (.fin false 0 0)
        | .invalid => List.replicate 64 (.nan false)
        | .scale .. => elems
      return { elems, scale := sc, bads := b1 }
  else return { elems, scale := .scale 1 0, bads := b1 }

/-- The cells an M × N command names, with what stands at row and column. -/
def cellGrid {α β : Type} (rows : List α) (cols : List β) : List (Nat × (α × β)) :=
  ((List.range rows.length).zip rows).flatMap fun r =>
    ((List.range cols.length).zip cols).map fun k => (128 * r.1 + k.1, (r.2, k.2))

/-- Whether a cell is among `m` rows of `n`. -/
def inGrid (m n cell : Nat) : Bool := decide (cell / 128 < m) && decide (cell % 128 < n)

/-- The limits of an MMA, checked at dispatch (R195, R319). -/
def mmaCheck (c : Cmd) (pA : Nat) : E Unit := do
  let w := MmaWord.ofWord c.d
  let ctx := c.fmtCtx w
  match ctxOperand ctx false, ctxOperand ctx true with
  | some (fa, _), some _ =>
    require (decide (w.m ≤ 128) && decide (w.n ≤ 128)) 2 0
    require (!w.lck || decide (w.ksl < 16)) 1 0
    require (decide (pA ≤ fa.planes)) 11 0
    let inPad (o : Nat × Nat) : Bool := o.2 = 0 || decide (o.1 % 0x40000 + o.2 ≤ 0x40000)
    require (inPad (c.operandAt w false) && inPad (c.operandAt w true)) 4 0
    eCounter c
  | _, _ => refuse 1 0

def runMma (c : Cmd) (clr : Bool) (pA : Nat) : E Unit := do
  mmaCheck c pA
  let w := MmaWord.ofWord c.d
  let K := c.slices w
  let ctx := c.fmtCtx w
  match ctxOperand ctx false, ctxOperand ctx true with
  | some (fa, sa), some (fb, sb) =>
    let oa := c.operandAt w false
    let ob := c.operandAt w true
    let drop := if pA = 0 then 0 else fa.planes - pA
    let aligned := fa == .bf16 || fa == .f16 || fb == .bf16 || fb == .f16
    let own := inGrid w.m w.n
    if clr then
      modify fun s => (s.freshCells c.cluster w.slot own).modAcc c.cluster w.slot fun x =>
        { x with cells := x.cells.mapCells 0 (cellGrid (List.range w.m) (List.range w.n)) fun _ _ => 0 }
    if 0 < w.m && 0 < w.n then
      if 0 < K then modify fun s => s.accProbe c.cluster w.slot own
      let bads ← (List.range K).foldlM (fun (bads : List Bad) k => do
        let rows ← (List.range w.m).mapM fun i =>
          readLine c (oa.1 + k * tileBytes fa sa) fa sa drop i k 0
        let cols ← (List.range w.n).mapM fun n =>
          readLine c (ob.1 + k * tileBytes fb sb) fb sb 0 n k 1
        modify fun s => s.modAcc c.cluster w.slot fun x =>
          { x with cells := x.cells.mapCells 0 (cellGrid rows cols) fun p v =>
              accStep v (sliceSum aligned p.1.elems p.2.elems) p.1.scale p.2.scale }
        return bads ++ rows.flatMap (·.bads) ++ cols.flatMap (·.bads)) []
      eReplaced c w.slot bads
    modify fun s => s.modAcc c.cluster w.slot fun x => { x with tag := c.tag }
  | _, _ => refuse 1 0

/-! ### MLD, MST, MCLR (R199) -/

/-- The control word of MLD and MST. -/
structure CellWord where
  cols : Nat
  rows : Nat
  stride : Nat
  bf16 : Bool
deriving DecidableEq, Repr

def CellWord.size (w : CellWord) : Nat := if w.bf16 then 2 else 4

def CellWord.of (v : Nat) : CellWord := { cols := bitsOf v 55 48, rows := bitsOf v 47 40, stride := bitsOf v 39 8, bf16 := bitOf v 4 }

/-- The control word read and checked. -/
def cellWord (c : Cmd) : E CellWord := do
  let v := c.a.toNat
  let w := CellWord.of v
  require (bitsOf v 63 56 == 0 && bitsOf v 7 5 == 0) 1 0
  require (decide (w.cols ≤ 128) && decide (w.rows ≤ 128)) 2 0
  require (w.stride % w.size == 0 && c.d.toNat % w.size == 0) 3 c.d.toNat
  return w

/-- Cell numbers with their addresses, row by row. -/
def CellWord.places (w : CellWord) (base : Nat) : List (Nat × Nat) :=
  (List.range w.rows).flatMap fun i => (List.range w.cols).map fun n =>
    (128 * i + n, (base + i * w.stride + n * w.size) % 2 ^ 64)

def runMld (c : Cmd) : E Unit := do
  let slot := c.a.toNat % 16
  let w ← cellWord c
  let got ← (w.places c.d.toNat).mapM fun p => do
    let l ← eReadP c w.size p.2 w.size
    let v := leNat (l.map (·.1))
    match l.findSome? (·.2) with
    | some u =>
      let b : Bad := { slice := 0, line := p.1 / 128, elem := p.1 % 128, opnd := 5, unit := u, va := p.2 }
      return ((p.1, (0 : BitVec 32)), [b])
    | none => return ((p.1, BitVec.ofNat 32 (if w.bf16 then v * 2 ^ 16 else v)), [])
  modify fun s => (s.freshCells c.cluster slot fun n => got.any fun e => e.1.1 == n).modAcc c.cluster slot fun x =>
    { x with cells := x.cells.mapCells 0 (got.map (·.1)) fun v _ => v, tag := c.tag }
  eReplaced c slot (got.flatMap (·.2))

/-- A cell as MST stores it: f32, or rounded to bf16 with rne, NaN canonical. -/
def storedCell (toBf16 : Bool) (v : Nat) : Nat :=
  let x := fmtF32.read false v
  if toBf16 then (fmtBf16.ofVal .rne false x).1 else if x.isNan then fmtF32.nan else v

def runMst (c : Cmd) : E Unit := do
  let w ← cellWord c
  (w.places c.d.toNat).forM fun p => eMay c p.2 w.size 2
  modify fun s => s.accProbe c.cluster (c.a.toNat % 16) (inGrid w.rows w.cols)
  let cells := ((← get).accAt c.cluster (c.a.toNat % 16)).cells
  (w.places c.d.toNat).forM fun p =>
    let bytes := leBytes w.size (storedCell w.bf16 (cells.get 0 p.1).toNat)
    ePiece c p.2 (bytes.map fun b => (b, false)) false true

def runMclr (c : Cmd) : E Unit :=
  modify fun s => (s.freshCells c.cluster (c.a.toNat % 16) fun _ => true).modAcc c.cluster (c.a.toNat % 16) fun x =>
    { x with cells := [], rmax := [], rsum := [], edat := false, refused := false, tag := c.tag }

end Sys2Proof.Machine
end

