-- ==== Sys2Proof/Machine/Rope.lean ====
section
/-! DEFINITION. Ropes (R204 to R225, R303, R304): nodes, summaries, joining and splitting, and the walker's commands on them. -/

namespace Sys2Proof.Machine

/-! ### Issue (R215, R217) -/

def execRcat (g : Guard) (q r : Flag) (d a : Reg) (s : State) : Out :=
  issueStrand g (engineIssue .walker .rcat q r d a true true) s
def execRsplitLo (g : Guard) (q r : Flag) (d a : Reg) (s : State) : Out :=
  issueStrand g (engineIssue .walker .rsplitLo q r d a true true) s
def execRsplitHi (g : Guard) (q r : Flag) (d a : Reg) (s : State) : Out :=
  issueStrand g (engineIssue .walker .rsplitHi q r d a true true) s
def execRsplice (g : Guard) (q r : Flag) (d a : Reg) (s : State) : Out :=
  issueStrand g (engineIssue .walker .rsplice q r d a false true) s
def execRleaf (g : Guard) (q r : Flag) (d a : Reg) (s : State) : Out :=
  issueStrand g (engineIssue .walker .rleaf q r d a false true) s
def execRidx (g : Guard) (q r : Flag) (d a : Reg) (s : State) : Out :=
  issueStrand g (engineIssue .walker .ridx q r d a true true) s
def execRsum (g : Guard) (q r : Flag) (d a : Reg) (s : State) : Out :=
  issueStrand g (engineIssue .walker .rsum q r d a false true) s
def execRsumFix (g : Guard) (q r : Flag) (d a : Reg) (s : State) : Out :=
  issueStrand g (engineIssue .walker .rsumFix q r d a false true) s
def execRlen (g : Guard) (q r : Flag) (d a : Reg) (s : State) : Out :=
  issueStrand g (engineIssue .walker .rlen q r d a false true) s
def execRref (g : Guard) (q r : Flag) (a : Reg) (s : State) : Out :=
  issueStrand g (engineIssue .walker .rref q r .z a false false) s
def execRdrop (g : Guard) (q r : Flag) (d a : Reg) (s : State) : Out :=
  issueStrand g (engineIssue .walker .rdrop q r d a false true) s
def execRwalk (g : Guard) (q r : Flag) (d a : Reg) (s : State) : Out :=
  issueStrand g (engineIssue .walker .rwalk q r d a false true) s
def execRclass (g : Guard) (q r : Flag) (d a : Reg) (s : State) : Out :=
  issueStrand g (engineIssue .walker .rclass q r d a true false) s

/-! ### Accesses of the walker and the consolidation unit -/

/-- Read bytes that must lie in this device's translated space. -/
def hRead (c : Cmd) (va n : Nat) : E (List Byte) := do
  let l ← (List.range n).mapM fun i => do
    let sa ← eHome c ((va + i) % 2 ^ 64) 1
    eReadAt c ((va + i) % 2 ^ 64) sa 1
  eClean va l.flatten
def hNat (c : Cmd) (va n : Nat) : E Nat := do
  let sa ← eHome c va 1
  return leNat (← eClean va (← eReadAt c va sa n))
/-- Write bytes sector by sector; a poisoned unit that a piece does not cover holds the command (R352). -/
def hWrite (c : Cmd) (va : Nat) (bytes : List Byte) : E Unit :=
  (cutRow bytes.length va bytes).forM fun p => do
    let sa ← eHome c p.1 2
    match (← get).probePart p.1 sa p.2.length with
    | (some u, _) => throw (.poison u p.1)
    | (none, s) => set (s.devWrite p.1 sa p.2)
/-- Write a number of `n` bytes. -/
def hPut (c : Cmd) (va n v : Nat) : E Unit := hWrite c va (leBytes n v)
/-- Change one access of `n` bytes by an atomic access at its home. -/
def hAtomic (c : Cmd) (va n : Nat) (f : Nat → Nat) : E Nat := do
  let sa ← eHome c va 9
  let old := leNat (← eClean va (← eReadAt c va sa n))
  if f old ≠ old then modify fun s => s.devWrite va sa (leBytes n (f old))
  return old

/-! ### Rope classes (R207, R208) -/

/-- Element types. -/
inductive Elem where
  | int (size : Nat) (sgn : Bool)
  | flt (f : FType)
deriving DecidableEq, Repr

def Elem.ofCode : Nat → Option Elem
  | 1 => some (.int 2 true) | 2 => some (.int 4 true) | 5 => some (.int 2 false) | 6 => some (.int 4 false)
  | 8 => some (.flt .f32) | 9 => some (.flt .f16) | 10 => some (.flt .bf16)
  | _ => none
def Elem.isFlt : Elem → Bool
  | .flt _ => true
  | .int .. => false
def Elem.size : Elem → Nat
  | .int n _ => n
  | .flt f => f.fmt.width / 8

/-- A class as its descriptor gives it. -/
structure Class where
  elem : Elem
  kinds : List Nat
  pool : Nat
  lo : Nat
  hi : Nat
deriving DecidableEq, Repr

/-- Whether a kind stands beside an element type (R208). -/
def kindFits (e : Elem) (k : Nat) : Bool :=
  if k = 1 || k = 6 || k = 7 then !e.isFlt else if k = 2 then e.isFlt else true

/-- A descriptor read, or why it is refused. -/
def Class.of (l : List Byte) : Except Nat Class :=
  let w := lineField l 0 8
  let kinds := (List.range 4).map fun k => bitsOf w (11 + 4 * k) (8 + 4 * k)
  match Elem.ofCode (w % 16) with
  | none => .error 1
  | some e =>
    let c : Class := { elem := e, kinds, pool := lineField l 8 8, lo := lineField l 0x10 8, hi := lineField l 0x18 8 }
    if bitsOf w 7 4 ≠ 0 || bitsOf w 63 24 ≠ 0 || lineField l 0x20 32 ≠ 0 || kinds.any (fun k => decide (8 < k)) then .error 1
    else if e.isFlt && (decide (2 ^ 32 ≤ c.lo) || decide (2 ^ 32 ≤ c.hi)) then .error 1
    else if !kinds.all (kindFits e) then .error 8
    else if c.pool % 16 ≠ 0 then .error 3
    else .ok c

/-- The class of a number, as the command's walker held it at dispatch. -/
def Cmd.class? (c : Cmd) (n : Nat) : Option Class :=
  match c.classes.find? fun r => r.index == n with
  | some r => (Class.of r.desc).toOption
  | none => none
def needClass (c : Cmd) (n : Nat) : E Class :=
  match c.class? n with
  | some k => return k
  | none => refuse 8 0

/-! ### Summaries (R208) -/

/-- An element as a summary takes it: an integer widened to 64 bits, a float as f32 bits. -/
def Elem.widen (e : Elem) (v : Nat) : Nat :=
  match e with
  | .int n true => (sextN (8 * n) v).toNat
  | .int _ false => v
  | .flt .f32 => v
  | .flt f => (fmtF32.ofVal .rne false (f.fmt.read false v)).1

/-- Elements of a slice. -/
def readElems (c : Cmd) (e : Elem) (buf off n : Nat) : E (List Nat) := do
  require (buf % e.size == 0) 3 buf
  (List.range n).mapM fun i => do
    return e.widen (← hNat c ((buf + (off + i) * e.size) % 2 ^ 64) e.size)

/-- The larger, or the smaller, of two elements. -/
def Elem.pick (e : Elem) (isMax : Bool) (a b : Nat) : Nat :=
  match e with
  | .flt _ => (fmtF32.minmax isMax false a b).1
  | .int _ sgn =>
    let le := if sgn then decide (signedOf 64 a ≤ signedOf 64 b) else decide (a ≤ b)
    if le == isMax then b else a

/-- Whether an element lies within the count bounds. -/
def Class.counts (k : Class) (x : Nat) : Bool :=
  match k.elem with
  | .int _ true => decide (signedOf 64 k.lo ≤ signedOf 64 x) && decide (signedOf 64 x ≤ signedOf 64 k.hi)
  | .int _ false => decide (k.lo ≤ x) && decide (x ≤ k.hi)
  | .flt _ => (fmtF32.cmp .le false k.lo x).1 && (fmtF32.cmp .le false x k.hi).1

def wrap64 (n : Nat) : Nat := n % 2 ^ 64

/-- A leaf's value over elements, `pos` being the weight of the first (kinds 6 and 7). -/
def Class.leafValue (k : Class) (kind pos : Nat) (xs : List Nat) : Nat × Nat :=
  let sum := wrap64 (xs.foldl (· + ·) 0)
  match kind with
  | 1 => (sum, 0)
  | 2 => (xs.foldl (fun s x => (fmtF32.add .rne false s x).1) 0, 0)
  | 3 => (match xs with | [] => 0 | x :: r => r.foldl (k.elem.pick true) (k.elem.pick true x x), 0)
  | 4 => (match xs with | [] => 0 | x :: r => r.foldl (k.elem.pick false) (k.elem.pick false x x), 0)
  | 5 => ((xs.filter k.counts).length, 0)
  | 6 | 7 => (sum, wrap64 (((List.range xs.length).zip xs).foldl (fun n p => n + (pos + p.1) * p.2) 0))
  | _ => (0, 0)

/-- Combine two values, `len` being what weights the right one's sum (kind 6). -/
def Class.combine (k : Class) (kind len : Nat) (a b : Nat × Nat) : Nat × Nat :=
  match kind with
  | 1 | 5 => (wrap64 (a.1 + b.1), 0)
  | 2 => ((fmtF32.add .rne false a.1 b.1).1, 0)
  | 3 => (k.elem.pick true a.1 b.1, 0)
  | 4 => (k.elem.pick false a.1 b.1, 0)
  | 6 => (wrap64 (a.1 + b.1), wrap64 (a.2 + b.2 + len * b.1))
  | 7 => (wrap64 (a.1 + b.1), wrap64 (a.2 + b.2))
  | 8 => (0, wrap64 (a.2 + b.2))
  | _ => (0, 0)

/-- The identity of a kind (R221). -/
def Class.ident (k : Class) (kind : Nat) : Nat × Nat :=
  let isMax := kind == 3
  if kind ≠ 3 && kind ≠ 4 then (0, 0)
  else
    (match k.elem with
      | .flt _ => fmtF32.withSign isMax fmtF32.inf
      | .int n true => if isMax then wrapTo 64 (-(2 : Int) ^ (8 * n - 1)) else 2 ^ (8 * n - 1) - 1
      | .int n false => if isMax then 0 else 2 ^ (8 * n) - 1, 0)

/-- A weighted sum moved by a distance: W + (now − old) × S (Shift of R208). -/
def shiftW (v : Nat × Nat) (now old : Nat) : Nat × Nat :=
  (v.1, wrapTo 64 ((v.2 : Int) + ((now : Int) - old) * v.1))

/-! ### Nodes (R204 to R206, R211) -/

/-- An existing node. -/
structure RNode where
  addr : Nat
  leaf : Bool
  cls : Nat
  height : Nat
  len : Nat
  refs : Nat
  left : Nat
  right : Nat
  anchor : Nat
  slots : List (Nat × Nat)
deriving DecidableEq, Repr

/-- Read a node; one that breaks R204 or R206 by itself refuses the command with reason 6. -/
def readNode (c : Cmd) (addr : Nat) : E RNode := do
  require (addr % 128 == 0) 3 addr
  let sa ← eHome c addr 1
  let l ← eClean addr (← eReadAt c addr sa 128)
  let w := lineField l 0 8
  let n : RNode :=
    { addr, leaf := w % 4 == 2, cls := bitsOf w 5 2, height := bitsOf w 13 8, len := bitsOf w 63 16,
      refs := lineField l 8 4, left := lineField l 0x10 8, right := lineField l 0x18 8, anchor := lineField l 0x20 6,
      slots := (List.range 4).map fun k => (lineField l (0x40 + 16 * k) 8, lineField l (0x48 + 16 * k) 8) }
  let kind := w % 4
  require ((kind == 1 || kind == 2) && bitsOf w 7 6 == 0 && bitsOf w 15 14 == 0 && lineField l 0xC 4 == 0
    && lineField l 0x26 2 == 0 && lineField l 0x28 24 == 0) 6 addr
  if n.leaf then
    require (n.height == 0 && decide (1 ≤ n.len) && decide (n.len ≤ 128) && decide (n.right < 2 ^ 32)) 6 addr
  else require (decide (1 ≤ n.height) && decide (n.height ≤ 48) && n.left ≠ 0 && n.right ≠ 0) 6 addr
  return n

/-- Both children of an interior node, which must agree with it. -/
def nodeKids (c : Cmd) (n : RNode) : E (RNode × RNode) := do
  let l ← readNode c n.left
  let r ← readNode c n.right
  require (l.cls == n.cls && r.cls == n.cls && n.height == 1 + max l.height r.height && n.len == l.len + r.len) 6 n.addr
  return (l, r)

/-- Add a reference (R211). -/
def incRef (c : Cmd) (addr : Nat) : E Unit := do
  let _ ← hAtomic c (addr + 8) 4 fun v => if v = 2 ^ 32 - 1 then v else v + 1

/-! ### Trees in the walker's buffer (R212 to R214) -/

/-- A rope under construction: existing nodes, new leaves (with the slots a kind-8 slot passes from, and an
ANCHOR other than their start), new interior nodes. -/
inductive RTree where
  | old (n : RNode)
  | leaf (buf off len : Nat) (pass : Option (List (Nat × Nat))) (anchor : Option Nat)
  | node (l r : RTree) (height len : Nat)
deriving Repr

def RTree.height : RTree → Nat
  | .old n => n.height
  | .leaf .. => 0
  | .node _ _ h _ => h
def RTree.len : RTree → Nat
  | .old n => n.len
  | .leaf _ _ n _ _ => n
  | .node _ _ _ n => n
def RTree.mk (l r : RTree) : RTree := .node l r (1 + max l.height r.height) (l.len + r.len)

def treeKids (c : Cmd) : RTree → E (RTree × RTree)
  | .old n => do
    if n.leaf then refuse 6 n.addr
    let k ← nodeKids c n
    return (.old k.1, .old k.2)
  | .node l r _ _ => return (l, r)
  | .leaf .. => refuse 6 0

/-- Join of two trees (R213); each call descends one level. -/
def joinTree (c : Cmd) : Nat → RTree → RTree → E RTree
  | 0, _, _ => refuse 6 0
  | f + 1, x, y => do
    if x.height ≤ y.height + 1 && decide (y.height ≤ x.height + 1) then return .mk x y
    if x.height > y.height then
      let (l, r) ← treeKids c x
      let t ← joinTree c f r y
      if t.height ≤ l.height + 1 then return .mk l t
      let (tl, tr) ← treeKids c t
      if tl.height ≤ tr.height then return .mk (.mk l tl) tr
      let (tll, tlr) ← treeKids c tl
      return .mk (.mk l tll) (.mk tlr tr)
    else
      let (l, r) ← treeKids c y
      let t ← joinTree c f x l
      if t.height ≤ r.height + 1 then return .mk t r
      let (tl, tr) ← treeKids c t
      if tr.height ≤ tl.height then return .mk tl (.mk tr r)
      let (trl, trr) ← treeKids c tr
      return .mk (.mk tl trl) (.mk trr r)

/-- A rope: a tree, or none for the empty rope. -/
abbrev Rope := Option RTree

def Rope.len (x : Rope) : Nat := match x with | some t => t.len | none => 0

def joinRope (c : Cmd) (x y : Rope) : E Rope :=
  match x, y with
  | none, y => return y
  | x, none => return x
  | some x, some y => return some (← joinTree c 64 x y)

/-- A slice of a leaf. -/
def sliceLeaf (t : RTree) (o n : Nat) : RTree :=
  match t with
  | .old k => .leaf k.left (k.right + o) n (if o = 0 then some k.slots else none) none
  | .leaf b off _ p _ => .leaf b (off + o) n (if o = 0 then p else none) none
  | .node .. => t

def RTree.isLeaf : RTree → Bool
  | .old n => n.leaf
  | .leaf .. => true
  | .node .. => false

def splitLo (c : Cmd) : Nat → RTree → Nat → E Rope
  | 0, _, _ => refuse 6 0
  | f + 1, t, p => do
    if p = 0 then return none
    if t.len ≤ p then return some t
    if t.isLeaf then return some (sliceLeaf t 0 p)
    let (l, r) ← treeKids c t
    if p ≤ l.len then splitLo c f l p
    else joinRope c (some l) (← splitLo c f r (p - l.len))

def splitHi (c : Cmd) : Nat → RTree → Nat → E Rope
  | 0, _, _ => refuse 6 0
  | f + 1, t, p => do
    if p = 0 then return some t
    if t.len ≤ p then return none
    if t.isLeaf then return some (sliceLeaf t p (t.len - p))
    let (l, r) ← treeKids c t
    if l.len ≤ p then splitHi c f r (p - l.len)
    else joinRope c (← splitHi c f l p) (some r)

def ropeLo (c : Cmd) (x : Rope) (p : Nat) : E Rope := match x with | some t => splitLo c 64 t p | none => return none
def ropeHi (c : Cmd) (x : Rope) (p : Nat) : E Rope := match x with | some t => splitHi c 64 t p | none => return none

/-! ### Building the result (R210 to R212, R303) -/

/-- New nodes of a tree. -/
def RTree.fresh : RTree → Nat
  | .old _ => 0
  | .leaf .. => 1
  | .node l r _ _ => l.fresh + r.fresh + 1

/-- A node of the result as its parent sees it. -/
structure Built where
  addr : Nat
  len : Nat
  anchor : Nat
  slots : List (Nat × Nat)
  old : Bool
deriving DecidableEq, Repr

/-- Take a node from the head of a pool. -/
def takeNode (c : Cmd) (pool : Nat) : E Nat := do
  let sa ← eHome c pool 9
  let l ← eClean pool (← eReadAt c pool sa 16)
  let first := lineField l 0 8
  let n := lineField l 8 8
  require (decide (0 < n) && first ≠ 0) 7 pool
  require (first % 128 == 0) 3 first
  let next ← hNat c (first + 0x10) 8
  modify fun s => s.devWrite pool sa (leBytes 8 next ++ leBytes 8 (n - 1))
  return first

/-- Write a new node whole. -/
def writeNode (c : Cmd) (addr kind cls height len left right anchor : Nat) (slots : List (Nat × Nat)) : E Unit :=
  let w := kind + 4 * cls + 2 ^ 8 * height + 2 ^ 16 * len
  hPut c addr 128 (leNat (leBytes 8 w ++ leBytes 8 1 ++ leBytes 8 left ++ leBytes 8 right ++ leBytes 8 (anchor % 2 ^ 48)
    ++ leBytes 24 0 ++ slots.flatMap fun v => leBytes 8 v.1 ++ leBytes 8 v.2))

/-- Build a tree that starts at a position: new nodes are taken in post-order. Where OFF + p of a slice (R214) passes 2^32 - 1, which its field
cannot hold, the field has it modulo 2^32 and its summaries are those of the elements it stands for (DESIGN CHOICE, log 118). -/
def buildTree (c : Cmd) (k : Class) (cls : Nat) : RTree → Nat → E Built
  | .old n, _ => return { addr := n.addr, len := n.len, anchor := n.anchor, slots := n.slots, old := true }
  | .leaf buf off len pass at', start0 => do
    let start := at'.getD start0
    let xs ← readElems c k.elem buf off len
    let addr ← takeNode c k.pool
    let slots := ((List.range 4).zip k.kinds).map fun p =>
      if p.2 = 8 then (match pass with | some l => l.getD p.1 (0, 0) | none => (0, 0))
      else k.leafValue p.2 (if p.2 = 7 then start else 0) xs
    writeNode c addr 2 cls 0 len buf (off % 2 ^ 32) start slots
    return { addr, len, anchor := start, slots, old := false }
  | .node l r h len, start => do
    let x ← buildTree c k cls l start
    let y ← buildTree c k cls r (start + l.len)
    let addr ← takeNode c k.pool
    if x.old then incRef c x.addr
    if y.old then incRef c y.addr
    let slots := ((List.range 4).zip k.kinds).map fun p =>
      let a := x.slots.getD p.1 (0, 0)
      let b := y.slots.getD p.1 (0, 0)
      if p.2 = 7 then k.combine 7 0 (shiftW a start x.anchor) (shiftW b (start + x.len) y.anchor)
      else k.combine p.2 x.len a b
    writeNode c addr 1 cls h len x.addr y.addr start slots
    return { addr, len, anchor := start, slots, old := false }

/-- The result of an edit: its root, with the program's reference. -/
def buildRope (c : Cmd) (k : Class) (cls : Nat) (x : Rope) (start : Nat) : E Word := do
  match x with
  | none => return 0
  | some (.old n) => do
    incRef c n.addr
    return wordN n.addr
  | some t =>
    require (decide (t.height ≤ 48) && decide (t.len < 2 ^ 48)) 10 0
    let have' := lineField (← eClean k.pool (← eReadAt c k.pool (← eHome c k.pool 9) 16)) 8 8
    require (decide (t.fresh ≤ have')) 7 k.pool
    return wordN (← buildTree c k cls t start).addr

/-! ### Commands -/

/-- A rope handle (R205). -/
def openRope (c : Cmd) (h : Nat) : E Rope := if h = 0 then return none else return some (.old (← readNode c h))
def Rope.cls (x : Rope) : Option Nat := match x with | some (.old n) => some n.cls | _ => none

/-- The one class of a command's operands (R217). -/
def oneClass (x y : Rope) (addr : Nat) : E (Option Nat) :=
  match x.cls, y.cls with
  | some a, some b => if a = b then return some a else refuse 6 addr
  | some a, none => return some a
  | none, b => return b

/-- The block read at dispatch. -/
def Cmd.blk (c : Cmd) : List Byte := c.desc.getD []
def Cmd.field (c : Cmd) (off n : Nat) : Nat := lineField c.blk off n

/-- A rope that a command's words or block name (R205). -/
def handleLimit (c : Cmd) (h : Nat) : E Unit := do
  if h ≠ 0 then
    require (h % 128 == 0) 3 h
    eReach c h 1 true

/-- Limits that the words and the block of a command on ropes show (R217 to R223, R318). R319 does not order the reasons: of several that
apply, a command reports the first in the order of the checks here and in its turn (DESIGN CHOICE, log 117). A sum or a walk whose ROOT is 0
has a LEN of 0, so that START + COUNT must be 0: R221 limits it so, and gives the result of ROOT 0 with COUNT 0 without naming START (DESIGN CHOICE,
log 119). -/
def ropeLimits (c : Cmd) : E Unit := do
  let a := c.a.toNat
  match c.op with
  | .rcat =>
    handleLimit c c.d.toNat
    handleLimit c a
  | .rsplitLo | .rsplitHi =>
    require (c.d ≠ 0 || a == 0) 2 0
    handleLimit c c.d.toNat
  | .ridx => handleLimit c c.d.toNat
  | .rlen | .rref | .rdrop => handleLimit c a
  | .rsplice =>
    require (c.field 0 8 != 0 || c.field 0x10 8 + c.field 0x18 8 == 0) 2 a
    handleLimit c (c.field 0 8)
    handleLimit c (c.field 8 8)
  | .rleaf =>
    let w := c.field 8 8
    require (bitsOf w 63 44 == 0 && c.field 0x16 2 == 0 && c.field 0x18 8 == 0) 1 a
    require (decide (1 ≤ bitsOf w 39 32) && decide (bitsOf w 39 32 ≤ 128)) 2 a
    let k ← needClass c (bitsOf w 43 40)
    require (c.field 0 8 % k.elem.size == 0) 3 (c.field 0 8)
  | .rsum | .rsumFix =>
    require (decide (c.field 8 8 < 4)) 1 a
    require (c.field 0 8 != 0 || c.field 0x10 8 + c.field 0x18 8 == 0) 2 a
    handleLimit c (c.field 0 8)
  | .rwalk =>
    require (decide (1 ≤ c.field 0x20 8) && decide (c.field 0x20 8 ≤ 65536)) 2 a
    require (c.field 0x18 8 % 16 == 0) 3 (c.field 0x18 8)
    require (c.field 0 8 != 0 || c.field 8 8 + c.field 0x10 8 == 0) 2 a
    handleLimit c (c.field 0 8)
  | .rclass =>
    match Class.of c.blk with
    | .error r => refuse r a
    | .ok _ => pure ()
  | _ => pure ()

/-- Build the result of an edit of ropes of a class, if there is one. -/
def finish (c : Cmd) (cls : Option Nat) (x : Class → E Rope) : E Word := do
  match cls with
  | none => return 0
  | some n =>
    let k ← needClass c n
    buildRope c k n (← x k) 0

def runRcat (c : Cmd) : E Word := do
  let x ← openRope c c.d.toNat
  let y ← openRope c c.a.toNat
  finish c (← oneClass x y c.a.toNat) fun _ => joinRope c x y

def runRsplit (c : Cmd) (hi : Bool) : E Word := do
  let x ← openRope c c.d.toNat
  let p := c.a.toNat
  require (decide (p ≤ x.len)) 2 0
  finish c x.cls fun _ => if hi then ropeHi c x p else ropeLo c x p

def runRsplice (c : Cmd) : E Word := do
  let x ← openRope c (c.field 0 8)
  let y ← openRope c (c.field 8 8)
  let p := c.field 0x10 8
  let n := c.field 0x18 8
  require (decide (p + n ≤ x.len)) 2 c.a.toNat
  finish c (← oneClass x y (c.field 8 8)) fun _ => do
    joinRope c (← joinRope c (← ropeLo c x p) y) (← ropeHi c x (p + n))

def runRleaf (c : Cmd) : E Word := do
  let w := c.field 8 8
  let n := bitsOf w 39 32
  let k ← needClass c (bitsOf w 43 40)
  buildRope c k (bitsOf w 43 40) (some (.leaf (c.field 0 8) (w % 2 ^ 32) n none none)) (c.field 0x10 6)

/-- Find element `i` below a node of which it is one. -/
def findElem (c : Cmd) : Nat → RNode → Nat → E (RNode × Nat)
  | 0, n, _ => refuse 6 n.addr
  | f + 1, n, i => do
    if n.leaf then return (n, i)
    let (l, r) ← nodeKids c n
    if i < l.len then findElem c f l i else findElem c f r (i - l.len)

def runRidx (c : Cmd) : E Word := do
  let i := c.a.toNat
  if c.d = 0 then return 0
  let n ← readNode c c.d.toNat
  let _ ← needClass c n.cls
  if n.len ≤ i then return 0
  let r ← findElem c 64 n i
  return wordN (r.1.addr + r.2)

def runRlen (c : Cmd) : E Word := do
  if c.a = 0 then return 0
  let n ← readNode c c.a.toNat
  let _ ← needClass c n.cls
  return wordN n.len

def runRref (c : Cmd) : E Word := do
  if c.a ≠ 0 then
    let n ← readNode c c.a.toNat
    require (n.refs ≠ 0) 6 n.addr
    incRef c n.addr
  return 0

/-- Drop a reference: the nodes reclaimed (R211, R304). -/
def dropNode (c : Cmd) : Nat → Nat → E Nat
  | 0, a => refuse 6 a
  | f + 1, addr => do
    let n ← readNode c addr
    require (n.refs ≠ 0) 6 addr
    if n.refs = 2 ^ 32 - 1 then return 0
    let _ ← hAtomic c (addr + 8) 4 fun v => v - 1
    if 1 < n.refs then return 0
    let k ← needClass c n.cls
    if !n.leaf then let _ ← nodeKids c n
    let sa ← eHome c k.pool 9
    let l ← eClean k.pool (← eReadAt c k.pool sa 16)
    hPut c addr 8 0
    hPut c (addr + 0x10) 8 (lineField l 0 8)
    modify fun s => s.devWrite k.pool sa (leBytes 8 addr ++ leBytes 8 (lineField l 8 8 + 1))
    if n.leaf then return 1
    let a ← dropNode c f n.left
    let b ← dropNode c f n.right
    return 1 + a + b

def runRdrop (c : Cmd) : E Word := do
  if c.a = 0 then return 0
  return wordN (← dropNode c 64 c.a.toNat)

/-- Span of R221 over `[s, s + n)` below a node that starts at `base`: its value, and whether a stored summary failed R209. The Identity of a
part that is empty counts as a number, so that a largest or smallest element of NaNs alone is ∓∞ where the split leaves such a part: R221 is
followed here, not R208's word on NaNs (DESIGN CHOICE, log 120). -/
def spanOf (c : Cmd) (k : Class) (slot kind start : Nat) (fix : Bool) : Nat → RNode → Nat → Nat → Nat → E ((Nat × Nat) × Bool)
  | 0, t, _, _, _ => refuse 6 t.addr
  | f + 1, t, base, s, n => do
    if n = 0 then return (k.ident kind, false)
    if s = base && n = t.len then
      let v := t.slots.getD slot (0, 0)
      if kind = 6 then return (shiftW v base start, false)
      if kind = 7 && t.anchor ≠ base then
        return if fix then (shiftW v base t.anchor, false) else (v, true)
      return (v, false)
    if t.leaf then
      let xs ← readElems c k.elem t.left (t.right + (s - base)) n
      return (k.leafValue kind (if kind = 6 then s - start else s) xs, false)
    let (l, r) ← nodeKids c t
    let mid := base + l.len
    let nl := min (s + n) mid - min s mid
    let a ← spanOf c k slot kind start fix f l base s nl
    let b ← spanOf c k slot kind start fix f r mid (max s mid) (n - nl)
    return (k.combine kind 0 a.1 b.1, a.2 || b.2)

def runRsum (c : Cmd) (fix : Bool) : E Word := do
  let a := c.a.toNat
  let root := c.field 0 8
  let start := c.field 0x10 8
  let n := c.field 0x18 8
  let put (v : Nat × Nat) (d : Word) : E Word := do
    hPut c (a + 0x20) 8 v.1
    hPut c (a + 0x28) 8 v.2
    return d
  if root = 0 then put (0, 0) 1
  else
    let t ← readNode c root
    require (decide (start + n ≤ t.len)) 2 a
    let k ← needClass c t.cls
    let slot := c.field 8 8
    let r ← spanOf c k slot (k.kinds.getD slot 0) start fix 64 t 0 start n
    if r.2 then put (r.1.1, 0) 0 else put r.1 1

/-- Leaves that a span touches, at most `cap`: leaf, its start, first element used, and how many. -/
def walkSpan (c : Cmd) : Nat → RNode → Nat → Nat → Nat → Nat → E (List (RNode × Nat × Nat × Nat))
  | 0, t, _, _, _, _ => refuse 6 t.addr
  | f + 1, t, base, s, n, cap => do
    if n = 0 || cap = 0 then return []
    if t.leaf then return [(t, base, s, n)]
    let (l, r) ← nodeKids c t
    let mid := base + l.len
    let nl := min (s + n) mid - min s mid
    let a ← if nl = 0 then pure [] else walkSpan c f l base s nl cap
    let b ← if n = nl then pure [] else walkSpan c f r mid (max s mid) (n - nl) (cap - a.length)
    return a ++ b

def runRwalk (c : Cmd) : E Word := do
  let a := c.a.toNat
  let root := c.field 0 8
  let start := c.field 8 8
  let n := c.field 0x10 8
  let out := c.field 0x18 8
  let cap := c.field 0x20 8
  let l ← if root = 0 then pure []
    else do
      let t ← readNode c root
      let _ ← needClass c t.cls
      require (decide (start + n ≤ t.len)) 2 a
      walkSpan c 64 t 0 start n cap
  ((List.range l.length).zip l).forM fun p =>
    hPut c ((out + 16 * p.1) % 2 ^ 64) 16
      (p.2.1.addr + (p.2.2.2.1 - p.2.2.1) + 2 ^ 64 * (p.2.2.2.1 % 2 ^ 48) + 2 ^ 112 * (p.2.2.2.2 - 1))
  let used := l.foldl (fun m p => m + p.2.2.2) 0
  hPut c (a + 8) 8 (start + used)
  hPut c (a + 0x10) 8 (n - used)
  return wordN l.length

/-- RCLASS writes its entry in every walker (R223). -/
def runRclass (c : Cmd) : E Word := do
  match Class.of c.blk with
  | .error r => refuse r c.a.toNat
  | .ok _ =>
    let e : RopeClass := { launch := c.launch.toNat, foreign := c.foreign, index := c.d.toNat % 16, desc := c.blk }
    modify fun s => (List.range 64).foldl (fun s k => s.modCluster k fun u =>
      { u with ropeClasses := u.ropeClasses.filter (fun r => !(r.launch == e.launch && r.foreign == e.foreign && r.index == e.index)) ++ [e] }) s
    return 0

end Sys2Proof.Machine
end

