-- ==== Sys2Proof/Machine/Cache.lean ====
section
/-! DEFINITION. Key-value caches (R227 to R232, R240, R241, R321, R353): pieces, windows, pages, and the KV commands. -/

namespace Sys2Proof.Machine

/-! ### Issue (R230, R241) -/

def execKvapp (g : Guard) (w : Bool) (q r : Flag) (d a : Reg) (s : State) : Out :=
  issueStrand g (engineIssue .walker (.kvapp w) q r d a false true) s
def execKvcommit (g : Guard) (w : Bool) (q r : Flag) (d a : Reg) (s : State) : Out :=
  issueStrand g (engineIssue .walker (.kvcommit w) q r d a false true) s
def execKvtrunc (g : Guard) (w : Bool) (q r : Flag) (d a : Reg) (s : State) : Out :=
  issueStrand g (engineIssue .walker (.kvtrunc w) q r d a false true) s
def execLinfold (g : Guard) (q r : Flag) (d a : Reg) (s : State) : Out :=
  issueStrand g (engineIssue .walker .linfold q r d a false true) s
def execPref (g : Guard) (q r : Flag) (a : Reg) (s : State) : Out :=
  issueStrand g (engineIssue .walker .pref q r .z a false false) s

/-! ### Piece headers and window descriptors (R227, R229) -/

/-- What a piece header or a window descriptor says; `ring` is W + S of a window. -/
structure Cache where
  va : Nat
  layers : Nat
  fmt : Bool
  d128 : Bool
  ltab : Nat
  committed : Nat
  w : Nat
  s : Nat
  head : Nat
  win : Bool
deriving DecidableEq, Repr

def Cache.dim (k : Cache) : Nat := if k.d128 then 128 else 64
def Cache.ring (k : Cache) : Nat := k.w + k.s

/-- Read the header of a piece buffer, or a window descriptor. -/
def readCache (c : Cmd) (win : Bool) (base : Nat) : E Cache := do
  require (if win then base % 8 == 0 else base % 64 == 0) 3 base
  let va := if win then base else (base + 2 ^ 64 - 64) % 2 ^ 64
  let l ← hRead c va 64
  let w0 := lineField l 0 8
  let w2 := lineField l 0x10 8
  let k : Cache :=
    { va, layers := bitsOf w0 15 0, fmt := bitOf w0 16, d128 := bitOf w0 17, ltab := lineField l 8 8,
      committed := if win then lineField l 0x18 6 else w2 % 256, w := if win then bitsOf w2 31 0 else 0,
      s := if win then bitsOf w2 63 32 else 0, head := if win then lineField l 0x20 6 else 0, win }
  let spare := if win then lineField l 0x1E 2 == 0 && lineField l 0x26 26 == 0 else decide (w2 < 256) && lineField l 0x18 40 == 0
  require (bitsOf w0 63 18 == 0 && spare) 1 va
  require (decide (1 ≤ k.layers) && decide (k.layers ≤ 4096)) 2 va
  require (if win then k.ring % 120 == 0 && decide (0 < k.ring) else decide (k.committed ≤ 128)) 2 va
  require (k.ltab % 32 == 0) 3 k.ltab
  return k

/-- A layer-table entry: key and value chains and FILL. -/
structure Layer where
  va : Nat
  khead : Nat
  vhead : Nat
  fill : Nat
deriving DecidableEq, Repr

def readLayer (c : Cmd) (k : Cache) (n : Nat) : E Layer := do
  require (decide (n < k.layers)) 2 0
  let va := (k.ltab + 32 * n) % 2 ^ 64
  let l ← hRead c va 32
  require (lineField l 0x16 2 == 0 && lineField l 0x18 8 == 0) 1 va
  return { va, khead := lineField l 0 8, vhead := lineField l 8 8, fill := lineField l 0x10 6 }

/-! ### Pages (R228, R353) -/

/-- The pages of one chain: its kind (1 key, 2 value), layer and format. -/
structure Chain where
  first : Nat
  kind : Nat
  layer : Nat
  fmt : Bool
  d128 : Bool
deriving DecidableEq, Repr

def Cache.chain (k : Cache) (l : Layer) (layer kind : Nat) : Chain :=
  { first := if kind = 1 then l.khead else l.vhead, kind, layer, fmt := k.fmt, d128 := k.d128 }

/-- Read bytes of a page held twice: copy 0, or copy 1 where copy 0 is poisoned; none where both are, with their poisoned units and where. -/
def readTwice (c : Cmd) (va0 va1 n : Nat) : E (Option (List Byte) × List (Nat × Nat)) := do
  let read (va : Nat) : E (List EByte) := do
    let l ← (List.range n).mapM fun i => do eReadAt c (va + i) (← eHome c (va + i) 1) 1
    return l.flatten
  let a ← read va0
  if a.all (·.2.isNone) then return (some (a.map (·.1)), [])
  let b ← read va1
  if b.all (·.2.isNone) then return (some (b.map (·.1)), [])
  return (none, (a.filterMap (·.2)).map (fun u => (u, va0)) ++ (b.filterMap (·.2)).map fun u => (u, va1))

/-- The successor of a page, once its header is found to agree with the chain; a header that cannot be read ends the chain. -/
def pageNext (c : Cmd) (h : Chain) (page : Nat) : E Nat := do
  require (page % 2 ^ 15 == 0) 3 page
  match (← readTwice c (page + 0x7C00) (page + 0x7C20) 32).1 with
  | none => refuse 6 page
  | some l =>
    let w := lineField l 8 8
    require (w % 4 == h.kind && bitOf w 2 == h.fmt && bitOf w 3 == h.d128 && bitsOf w 31 16 == h.layer) 6 page
    require (bitsOf w 15 4 == 0 && bitsOf w 63 32 == 0 && lineField l 0x18 8 == 0) 1 page
    require (lineField l 0x10 6 % 120 == 0) 2 page
    return lineField l 0 8

/-- Page `n` of a chain; a chain that ends before it refuses the command. -/
def chainPage (c : Cmd) (h : Chain) : Nat → Nat → E Nat
  | 0, page => do
    require (page ≠ 0) 6 page
    let _ ← pageNext c h page
    return page
  | n + 1, page => do
    require (page ≠ 0) 6 page
    chainPage c h n (← pageNext c h page)

/-- bf16 bits of a value (R236). -/
def bf16Of (v : FVal) : Nat := (fmtBf16.ofVal .rne false v).1

/-- Elements of plain bf16 bytes; those with a poisoned byte are replaced by 0. -/
def plainElems (line opnd va : Nat) (l : List EByte) : List Nat × List Bad :=
  let es : List (Nat × List Bad) := (List.range (l.length / 2)).map fun i =>
    let b := (l.drop (2 * i)).take 2
    match b.findSome? (·.2) with
    | some u => (0, [{ slice := 0, line, elem := i, opnd, unit := u, va := va + 2 * i }])
    | none => (leNat (b.map (·.1)), [])
  (es.map (·.1), es.flatMap (·.2))

/-- The decoded elements of one slot of a page, as bf16 (R228, R236): scales from the copy that can be read, a scale pair whose
copies both fail as the zero block. -/
def slotElems (c : Cmd) (h : Chain) (page slot line opnd : Nat) : E (List Nat × List Bad) := do
  let n := if h.d128 then 128 else 64
  let read (va n : Nat) : E (List EByte) := do
    let l ← (List.range n).mapM fun i => do eReadAt c (va + i) (← eHome c (va + i) 1) 1
    return l.flatten
  if h.fmt then
    let va := page + slot * n
    let l ← read va n
    let sc ← readTwice c (page + 0x7C40 + 2 * slot) (page + 0x7D40 + 2 * slot) 2
    let scales := match sc.1 with | some b => b.map BitVec.toNat | none => [0x80, 0x80]
    let bad4 : List Bad := sc.2.map fun e => { slice := 0, line, elem := 0, opnd := 4, unit := e.1, va := e.2 }
    let es : List (Nat × List Bad) := ((List.range n).zip l).map fun p =>
      match p.2.2 with
      | some u => (0, [{ slice := 0, line, elem := p.1, opnd, unit := u, va := va + p.1 }])
      | none => (bf16Of (blockElem .t8 (scales.getD (p.1 / 64) 0x80) p.2.1.toNat), [])
    return (es.map (·.1), bad4 ++ es.flatMap (·.2))
  else
    let va := page + slot * n * 2
    return plainElems line opnd va (← read va (2 * n))

/-! ### KVAPP (R230, R231, R321) -/

/-- Where the two copies of a duplicated byte of a page stand, by offset. -/
def twin (off : Nat) : Option Nat :=
  if decide (0x7C00 ≤ off) && decide (off < 0x7C20) then some (off + 0x20)
  else if decide (0x7C20 ≤ off) && decide (off < 0x7C40) then some (off - 0x20)
  else if decide (0x7C40 ≤ off) && decide (off < 0x7D30) then some (off + 0x100)
  else if decide (0x7D40 ≤ off) && decide (off < 0x7E30) then some (off - 0x100)
  else none

/-- A poisoned sector of a page's protected area is rewritten from the other copies, at a device write to it, where each of its
bytes has one that can be read (R353). -/
def repair (c : Cmd) (page off : Nat) : E Unit := do
  let o := off / 128 * 128
  let sa ← eHome c (page + o) 2
  let r := (← get).probe (some (page + o)) sa 128
  set r.2
  match r.1 with
  | none => pure ()
  | some _ =>
    let l ← (List.range 128).mapM fun i => do
      match twin (o + i) with
      | none => return (some (0 : Byte))
      | some t =>
        let b ← eReadAt c (page + t) (← eHome c (page + t) 1) 1
        return match b with | [(x, none)] => some x | _ => none
    match l.mapM id with
    | some bytes => modify fun s => s.devWrite (page + o) sa bytes
    | none => pure ()

/-- Free bytes for a block that R87 gives no scale (log 22). -/
def freeBytes : E (Nat → Byte) := do
  let n := (← get).free
  modify fun s => { s with free := s.free + 65 }
  return fun i => Config.freeByte (n + i)

/-- A payload sector is written under KVPOL.BITS as it stands: elements of `h`'s format then have tolerant bits, or none (R353). -/
def State.markTolerant (s : State) (t8 : Bool) (sa n : Nat) : State :=
  let us := (List.range ((sa + n - 1) / 128 - sa / 128 + 1)).map fun i => (sa / 128 + i) * 128
  let some' := decide ((if t8 then 2 else 1) ≤ s.regs.kvpol.toNat)
  { s with tolerant := us.foldl (fun l u => if some' then insertNat u l else eraseNat u l) s.tolerant }

/-- Write D bf16 elements into a slot of a page: whether QuantiseBlock clamped. -/
def appendRow (c : Cmd) (h : Chain) (page slot src : Nat) : E Bool := do
  let n := if h.d128 then 128 else 64
  require (src % 2 == 0) 3 src
  let xs ← (List.range n).mapM fun i => hNat c ((src + 2 * i) % 2 ^ 64) 2
  let payload (va : Nat) (bytes : List Byte) : E Unit := do
    hWrite c va bytes
    let sa ← eHome c va 2
    modify fun s => s.markTolerant h.fmt sa bytes.length
  if h.fmt then
    let halves ← (List.range (n / 64)).mapM fun k => do
      let f ← freeBytes
      return quantiseBlock .t8 f (((xs.drop (64 * k)).take 64).map fun x => x * 2 ^ 16)
    payload (page + slot * n) ((halves.flatMap (·.2.1)).map (BitVec.ofNat 8))
    let sc (k : Nat) : Nat := match halves[k]? with | some q => q.1 | none => 0x80
    [0, 1].forM fun k => [0x7C40, 0x7D40].forM fun o => do
      repair c page (o + 2 * slot + k)
      hPut c (page + o + 2 * slot + k) 1 (sc k)
    return halves.any fun q => q.2.2 &&& flSCUF != 0
  else
    payload (page + slot * n * 2) (xs.flatMap (leBytes 2))
    return false

/-- The fields a KV command does not use are 0 (R230). -/
def kvUnused (c : Cmd) (l : List (Nat × Nat)) : E Unit :=
  require (l.all fun p => c.field p.1 p.2 == 0) 1 c.a.toNat

/-- Limits that the block of a KV command shows (R230, R240 to R242, R318). -/
def kvLimits (c : Cmd) : E Unit := do
  let base (win : Bool) : E Unit := require (c.field 8 8 % (if win then 8 else 64) == 0) 3 (c.field 8 8)
  match c.op with
  | .kvapp win =>
    kvUnused c [(0, 8), (0x10, 8), (0x1A, 6)]
    base win
    [0x20, 0x28].forM fun o => require (c.field o 8 % 2 == 0) 3 (c.field o 8)
  | .kvcommit win =>
    kvUnused c ([(0x18, 8), (0x20, 8), (0x28, 8)] ++ if win then [(0, 8)] else [])
    require (decide (1 ≤ c.field 0x10 8)) 12 c.a.toNat
    base win
    handleLimit c (c.field 0 8)
  | .kvtrunc win =>
    kvUnused c [(0, 8), (0x18, 8), (0x20, 8), (0x28, 8)]
    base win
  | .linfold =>
    kvUnused c [(0x18, 8), (0x20, 8), (0x28, 8)]
    require (c.field 0 8 != 0 || c.field 0x10 8 == 0) 2 c.a.toNat
    require (c.field 8 8 % 8 == 0) 3 (c.field 8 8)
    handleLimit c (c.field 0 8)
  | .pref =>
    kvUnused c [(8, 8), (0x1A, 6), (0x28, 8)]
    require (c.field 0 8 != 0 || c.field 0x10 8 + c.field 0x20 8 == 0) 2 c.a.toNat
    handleLimit c (c.field 0 8)
  | _ => pure ()

/-- Where KVAPP appends: the cache, its layer, whether there is room, and the slot. -/
def kvappAt (c : Cmd) (win : Bool) : E (Cache × Layer × Bool × Nat) := do
  let k ← readCache c win (c.field 8 8)
  let l ← readLayer c k (c.field 0x18 2)
  let j := l.fill
  return (k, l, if win then decide (j < k.committed + k.s) else decide (j < 128), if win then j % k.ring else j)

def runKvapp (c : Cmd) (win : Bool) : E Word := do
  let (k, l, room, slot) ← kvappAt c win
  let j := l.fill
  require room 12 c.a.toNat
  let put (kind src : Nat) : E Bool := do
    let h := k.chain l (c.field 0x18 2) kind
    let page ← chainPage c h (slot / 120) h.first
    appendRow c h page (slot % 120) src
  let b1 ← put 1 (c.field 0x20 8)
  let b2 ← put 2 (c.field 0x28 8)
  let _ ← hAtomic c (l.va + 0x10) 8 fun _ => j + 1
  return wordN (j + 1 + if b1 || b2 then 2 ^ 63 else 0)

/-! ### KVCOMMIT and KVTRUNC (R230) -/

/-- The last leaf below a node. -/
def lastLeaf (c : Cmd) : Nat → RNode → E RNode
  | 0, n => refuse 6 n.addr
  | f + 1, n => do
    if n.leaf then return n
    lastLeaf c f (← nodeKids c n).2

def runKvcommit (c : Cmd) (win : Bool) : E Word := do
  let base := c.field 8 8
  let n := c.field 0x10 8
  let k ← readCache c win base
  (List.range k.layers).forM fun i => do
    let l ← readLayer c k i
    require (decide (k.committed + n ≤ l.fill)) 12 c.a.toNat
  let now := k.committed + n
  if win then
    let _ ← hAtomic c (k.va + 0x18) 8 fun _ => now
    let _ ← hAtomic c (k.va + 0x20) 8 fun _ => now - k.w
    return wordN now
  else
    require (decide (now ≤ 128)) 12 c.a.toNat
    let root ← openRope c (c.field 0 8)
    let out ← match root with
      | some (.old t) => do
        let last ← lastLeaf c 64 t
        if last.left = base && last.right + last.len = k.committed then
          joinRope c (← splitLo c 64 (.old t) (t.len - last.len))
            (some (.leaf base last.right (last.len + n) (some last.slots) none))
        else joinRope c root (some (.leaf base k.committed n none none))
      | _ => pure (some (.leaf base k.committed n none none))
    -- the empty rope has no class and R230 names none for its first leaf: a free value (log 37)
    let cls ← match root.cls with
      | some m => pure m
      | none => do
        let f ← freeBytes
        pure ((f 0).toNat % 16)
    let d ← buildRope c (← needClass c cls) cls out 0
    let _ ← hAtomic c (k.va + 0x10) 8 fun _ => now
    return d

def runKvtrunc (c : Cmd) (win : Bool) : E Word := do
  let n := c.field 0x10 8
  let k ← readCache c win (c.field 8 8)
  require (decide (k.committed ≤ n)) 12 c.a.toNat
  let changed ← (List.range k.layers).foldlM (fun m i => do
    let l ← readLayer c k i
    if n < l.fill then
      let _ ← hAtomic c (l.va + 0x10) 8 fun _ => n
      return m + 1
    else return m) 0
  return wordN changed

/-! ### Linear-attention state (R240) -/

/-- Size of one layer's state. -/
def stateSize (d : Nat) : Nat := 4 * d * d + 4 * d + 64

/-- a + b × c with one rounding (R240). -/
def mulAdd (a b c : Nat) : Nat := (fmtF32.fma .rne false b c a).1
def add32 (a b : Nat) : Nat := (fmtF32.add .rne false a b).1
/-- bf16 bits widened to f32. -/
def wide (x : Nat) : Nat := x * 2 ^ 16

/-- Decoded key and value of one position of a leaf in a layer. -/
def pieceRow (c : Cmd) (buf tok layer kind line opnd : Nat) (d128 : Option Bool) : E (Cache × List Nat × List Bad) := do
  let k ← readCache c false buf
  match d128 with
  | some d => require (k.d128 == d) 6 buf
  | none => pure ()
  let l ← readLayer c k layer
  let h := k.chain l layer kind
  let page ← chainPage c h (tok / 120) h.first
  let r ← slotElems c h page (tok % 120) line opnd
  return (k, r.1, r.2)

/-- The clean elements of a row: the walker holds at poison (R352). -/
def cleanRow (r : Cache × List Nat × List Bad) : E (List Nat) :=
  match r.2.2 with
  | b :: _ => throw (.poison b.unit b.va)
  | [] => return r.2.1

/-- Fold one position into St and z. -/
def foldRow (st z key val : List Nat) : List Nat × List Nat :=
  let fs := key.map fun x => phi (wide x)
  let z' := (z.zip fs).map fun p => add32 p.1 p.2
  let n := val.length
  let st' := ((List.range st.length).zip st).map fun p =>
    mulAdd p.2 (fs.getD (p.1 / n) 0) (wide (val.getD (p.1 % n) 0))
  (st', z')

/-- Give the first leaf of a tree the kind-8 slot values given, rebuilding the path to it where it is an existing node. -/
def setFirst (c : Cmd) (k8 : Nat × Nat) : Nat → RTree → E RTree
  | 0, _ => refuse 6 0
  | _ + 1, .leaf b o n _ a => return .leaf b o n (some (List.replicate 4 k8)) a
  | f + 1, .node l r h n => do return .node (← setFirst c k8 f l) r h n
  | f + 1, .old t => do
    if t.leaf then return .leaf t.left t.right t.len (some (List.replicate 4 k8)) (some t.anchor)
    let (l, r) ← nodeKids c t
    return .mk (← setFirst c k8 f (.old l)) (.old r)

def runLinfold (c : Cmd) : E Word := do
  let base := c.field 8 8
  let n := c.field 0x10 8
  if c.field 0 8 = 0 then return 0
  let t ← readNode c (c.field 0 8)
  require (decide (n ≤ t.len)) 2 c.a.toNat
  let cl ← needClass c t.cls
  let slot ← match (List.range 4).find? fun i => cl.kinds.getD i 0 == 8 with
    | some i => pure i
    | none => refuse 8 0
  let leaves ← walkSpan c 64 t 0 0 n n
  match leaves with
  | [] => pure ()
  | first :: _ =>
    let k ← readCache c false first.1.left
    (List.range k.layers).forM fun layer => do
      let at' := (base + layer * stateSize k.dim) % 2 ^ 64
      let words (off m : Nat) : E (List Nat) := (List.range m).mapM fun i => hNat c ((at' + off + 4 * i) % 2 ^ 64) 4
      let st ← words 0 (k.dim * k.dim)
      let z ← words (4 * k.dim * k.dim) k.dim
      let out ← leaves.foldlM (fun (acc : List Nat × List Nat) e =>
        (List.range e.2.2.2).foldlM (fun (acc : List Nat × List Nat) i => do
          let tok := e.1.right + (e.2.2.1 - e.2.1) + i
          let key ← cleanRow (← pieceRow c e.1.left tok layer 1 0 2 (some k.d128))
          let val ← cleanRow (← pieceRow c e.1.left tok layer 2 0 3 (some k.d128))
          return foldRow acc.1 acc.2 key val) acc) (st, z)
      let put (off : Nat) (l : List Nat) : E Unit := hWrite c ((at' + off) % 2 ^ 64) (l.flatMap (leBytes 4))
      put 0 out.1
      put (4 * k.dim * k.dim) out.2
      let cnt := (at' + 4 * k.dim * k.dim + 4 * k.dim) % 2 ^ 64
      hPut c cnt 8 (wrap64 ((← hNat c cnt 8) + n))
  match ← splitHi c 64 (.old t) n with
  | none => return 0
  | some h =>
    let count := (t.slots.getD slot (0, 0)).2
    buildRope c cl t.cls (some (← setFirst c (base, wrap64 (count + n)) 64 h)) 0

/-- The key and value pages of a span in a layer, by storage address (R241). -/
def prefPages (c : Cmd) : E (List Nat) := do
  if c.field 0 8 = 0 then return []
  let t ← readNode c (c.field 0 8)
  let start := c.field 0x20 8
  let n := c.field 0x10 8
  let layer := c.field 0x18 2
  require (decide (start + n ≤ t.len)) 2 c.a.toNat
  let leaves ← walkSpan c 64 t 0 start n n
  let pages ← leaves.mapM fun e => do
    let k ← readCache c false e.1.left
    let l ← readLayer c k layer
    let tok := e.1.right + (e.2.2.1 - e.2.1)
    let first := tok / 120
    let count := (tok + e.2.2.2 - 1) / 120 - first + 1
    let chains ← [1, 2].mapM fun kind => do
      let h := k.chain l layer kind
      (List.range count).mapM fun i => do eHome c (← chainPage c h (first + i) h.first) 1
    return chains.flatten
  return pages.flatten

/-- PREF fills the second-level slices with a span's pages; it makes no access, so what it meets on its way changes nothing (R241). -/
def runPref (c : Cmd) : E Word := do
  match (prefPages c).run (← get) with
  | .ok (pages, _) =>
    modify fun s => pages.foldl (fun s pa => (List.range 256).foldl (fun s i => (s.fillProbe none (pa + 128 * i)).l2Put (pa + 128 * i) false) s) s
  | .error _ => pure ()
  return 0

end Sys2Proof.Machine
end

