-- ==== Sys2Proof/Machine/Attention.lean ====
section
/-! DEFINITION. Attention (R233 to R239, R320): mask sets, tiles, the tile update and the drain. -/

namespace Sys2Proof.Machine

def execAttn (g : Guard) (l f : Bool) (src : KeySrc) (q r : Flag) (d a : Reg) (s : State) : Out :=
  issueStrand g (engineIssue .matrix (.attn l f src) q r d a true false) s
def execMaskset (g : Guard) (q r : Flag) (d a : Reg) (s : State) : Out :=
  issueStrand g (engineIssue .matrix .maskset q r d a true false) s

/-! ### Mask sets (R233, R234) -/

/-- An interval of a mask set: enabled, START with SSL in bit 48, END with ESL in bit 48. -/
abbrev Interval := Bool × Nat × Nat
def Interval.start (m : Interval) : Nat := bitsOf m.2.1 47 0
def Interval.ssl (m : Interval) : Nat := bitsOf m.2.1 48 48
def Interval.stop (m : Interval) : Nat := bitsOf m.2.2 47 0
def Interval.esl (m : Interval) : Nat := bitsOf m.2.2 48 48

/-- MASKSET reads its block at its turn; its address, and the block as it then stands, are checked at dispatch (R233, R242). -/
def masksetLimits (c : Cmd) : E Unit := do
  require (c.d.toNat % 8 == 0) 3 c.d.toNat
  eReach c c.d.toNat 1 false
/-- The intervals of a mask block, whose other bits are 0. -/
def maskBlock (c : Cmd) : E (List Interval) := do
  let d := c.d.toNat
  let l ← eRead c d 64
  let low (k : Nat) : Nat := lineField l (16 * k) 8
  let high (k : Nat) : Nat := lineField l (16 * k + 8) 8
  require ((List.range 4).all fun k => decide (low k < 2 ^ 50) && decide (high k < 2 ^ 49)) 1 d
  return (List.range 4).map fun k => (bitOf (low k) 49, low k % 2 ^ 49, high k)
def runMaskset (c : Cmd) : E Unit := do
  let m ← maskBlock c
  modify fun s => s.modAcc c.cluster (c.a.toNat % 16) fun x => { x with mask := m }

/-- Whether a mask set admits the key at a position for a query row. -/
def admits (ms : List Interval) (i pos : Nat) : Bool :=
  ms.any fun m => m.1 && decide (Interval.start m + Interval.ssl m * i ≤ pos) && decide (pos ≤ Interval.stop m + Interval.esl m * i)

/-- Whether the tile at `t` is empty. -/
def emptyTile (ms : List Interval) (t start stop : Nat) : Bool :=
  decide (t + 127 < start) || decide (stop ≤ t)
    || ms.all fun m => !m.1 || decide (Interval.stop m + 127 * Interval.esl m < t) || decide (t + 127 < Interval.start m)

/-! ### Keys and values (R235 to R237) -/

/-- Where a command's keys and values come from: leaves of a rope with their starts, a window's chains, or two scratchpad areas. -/
inductive Keys where
  | rope (leaves : List (RNode × Nat × Nat × Nat)) (layer : Nat)
  | window (k : Cache) (l : Layer) (layer : Nat)
  | pad (key val : Nat)
deriving Repr

/-- An attention descriptor (R235). -/
structure AttnDesc where
  slot : Nat
  m : Nat
  d128 : Bool
  layer : Nat
  q : Nat
  scale : Nat
  theta : Nat
  src : Nat
  start : Nat
  count : Nat
  lstate : Nat
deriving DecidableEq, Repr

def AttnDesc.dim (x : AttnDesc) : Nat := if x.d128 then 128 else 64

/-- The descriptor read, its limits checked. THETA and LSTATE, to which R235 gives no alignment, lie on 4 bytes, the width of what they
hold (DESIGN CHOICE, log 58). -/
def attnDesc (c : Cmd) (src : KeySrc) : E AttnDesc := do
  let f (o : Nat) : Nat := c.field o 8
  let va := c.d.toNat
  let x : AttnDesc :=
    { slot := bitsOf (f 0) 3 0, m := bitsOf (f 0) 11 4, d128 := bitOf (f 0) 12, layer := bitsOf (f 0) 31 16,
      q := scratchSa (8 * c.cluster + bitsOf (f 8) 2 0) (16 * bitsOf (f 8) 16 3), scale := f 0x10, theta := f 0x18,
      src := f 0x20, start := f 0x28, count := f 0x30, lstate := f 0x38 }
  require (bitsOf (f 0) 15 13 == 0 && bitsOf (f 0) 63 32 == 0 && decide (f 8 < 2 ^ 17) && decide (f 0x10 < 2 ^ 32)
    && decide (x.start < 2 ^ 48) && decide (x.count < 2 ^ 48) && (src != .sp || decide (x.src < 2 ^ 34))) 1 va
  require (decide (x.m ≤ 128)) 2 va
  require (x.theta % 4 == 0) 3 x.theta
  require (x.lstate % 4 == 0) 3 x.lstate
  require (decide (16 * bitsOf (f 8) 16 3 + x.dim / 64 * 16384 ≤ 0x40000)) 4 va
  let fits (gran : Nat) : Bool := decide (16 * gran + 2 * x.dim * x.count ≤ 0x40000)
  require (src != .sp || (fits (bitsOf x.src 16 3) && fits (bitsOf x.src 33 20))) 4 va
  require (src != .rope || x.src != 0 || x.start + x.count == 0) 2 va
  require (x.src % (match src with | .rope => 128 | .window => 8 | .sp => 1) == 0) 3 x.src
  return x

/-- The command's keys found, and the linear-attention state it takes: of the descriptor, or of the rope's first leaf (R240). -/
def attnKeys (c : Cmd) (src : KeySrc) (x : AttnDesc) : E (Keys × Nat) := do
  let va := c.d.toNat
  match src with
  | .sp =>
    let pad (core gran : Nat) : Nat := scratchSa (8 * c.cluster + core) (16 * gran)
    return (.pad (pad (bitsOf x.src 2 0) (bitsOf x.src 16 3)) (pad (bitsOf x.src 19 17) (bitsOf x.src 33 20)), x.lstate)
  | .window =>
    let k ← readCache c true x.src
    require (k.d128 == x.d128) 6 x.src
    let l ← readLayer c k x.layer
    require (decide (k.head ≤ x.start) && decide (x.start + x.count ≤ l.fill)) 2 va
    return (.window k l x.layer, x.lstate)
  | .rope =>
    if x.src = 0 then return (.rope [] x.layer, x.lstate)
    let t ← readNode c x.src
    require (decide (x.start + x.count ≤ t.len)) 2 va
    let leaves ← walkSpan c 64 t 0 x.start x.count x.count
    leaves.forM fun e => do
      let k ← readCache c false e.1.left
      require (k.d128 == x.d128) 6 e.1.left
      let _ ← readLayer c k x.layer
    if x.lstate ≠ 0 then return (.rope leaves x.layer, x.lstate)
    match c.class? t.cls with
    | none => return (.rope leaves x.layer, 0)
    | some cl =>
      match (List.range 4).find? fun i => cl.kinds.getD i 0 == 8 with
      | none => return (.rope leaves x.layer, 0)
      | some i =>
        if (t.slots.getD i (0, 0)).2 = 0 then return (.rope leaves x.layer, 0)
        let first ← findElem c 64 t 0
        return (.rope leaves x.layer, (first.1.slots.getD i (0, 0)).1)

/-- The decoded elements, as bf16, of the key (kind 1) or value (kind 2) at a position of the span. -/
def keyRow (c : Cmd) (x : AttnDesc) (ks : Keys) (kind pos line : Nat) : E (List Nat × List Bad) := do
  let opnd := kind + 1
  match ks with
  | .pad key val =>
    let sa := (if kind = 1 then key else val) + 2 * x.dim * (pos - x.start)
    return plainElems line opnd sa (← eReadAt c sa sa (2 * x.dim))
  | .window k l layer =>
    let slot := pos % k.ring
    let h := k.chain l layer kind
    slotElems c h (← chainPage c h (slot / 120) h.first) (slot % 120) line opnd
  | .rope leaves layer =>
    match leaves.find? fun e => decide (e.2.2.1 ≤ pos) && decide (pos < e.2.2.1 + e.2.2.2) with
    | none => refuse 6 0
    | some e =>
      let r ← pieceRow c e.1.left (e.1.right + (pos - e.2.1)) layer kind line opnd (some x.d128)
      return (r.2.1, r.2.2)

/-- bf16 sum or difference of two products, exact inside. -/
def dot2 (sub : Bool) (a b x y : FVal) : Nat :=
  let p := if a.isNan || b.isNan then none else mulVal a b
  let q := if x.isNan || y.isNan then none else mulVal x y
  match p, q with
  | some p, some q => (fmtBf16.addVal .rne false p (if sub then q.negate else q)).1
  | _, _ => fmtBf16.nan

/-- Rotate a key at its position (R236). -/
def rotate (theta : List Nat) (pos : Nat) (x : List Nat) : List Nat :=
  ((List.range theta.length).zip theta).flatMap fun p =>
    let th := fmtF32.read false p.2
    let ang := match (if th.isNan then none else mulVal (.fin false pos 0) th) with
      | some v => (fmtF32.ofVal .rne false v).1
      | none => fmtF32.nan
    let c := fmtF32.read false (special .cos fmtF32 false ang).1
    let s := fmtF32.read false (special .sin fmtF32 false ang).1
    let a := fmtBf16.read false (x.getD (2 * p.1) 0)
    let b := fmtBf16.read false (x.getD (2 * p.1 + 1) 0)
    [dot2 true a c b s, dot2 false a s b c]

/-! ### The tile update (R238) -/

def mul32 (a b : Nat) : Nat := (fmtF32.mul .rne false a b).1
def attnIsNan (a : Nat) : Bool := (fmtF32.read false a).isNan
def attnNegInf : Nat := fmtF32.withSign true fmtF32.inf

/-- A list cut into the K slices of 64 that the engine sums in order. -/
def slices (n : Nat) (l : List FVal) : List (List FVal) := (List.range n).map fun k => (l.drop (64 * k)).take 64

/-- One cell after the slices of a dot product by R97 as bf16. -/
def dotInto (acc : Nat) (a b : List (List FVal)) : Nat :=
  ((a.zip b).foldl (fun v p => accStep v (sliceSum true p.1 p.2) (.scale 1 0) (.scale 1 0)) (BitVec.ofNat 32 acc)).toNat

/-- A key of a tile: whether the span holds it, its rotated elements and its value's, as bf16. -/
structure TileKey where
  inSpan : Bool
  key : List FVal
  val : List FVal
deriving DecidableEq, Repr

/-- Exp2 of the exact difference of two values (R9, R238). -/
def exp2Diff (a b : Nat) : Nat :=
  match fmtF32.read false a, fmtF32.read false b with
  | .fin n m e, .fin k p q =>
    let l := min e q
    let v : Int := (if n then -(m : Int) else m) * 2 ^ (e - l).toNat - (if k then -(p : Int) else p) * 2 ^ (q - l).toNat
    if v = 0 then fmtF32.bias * 2 ^ fmtF32.fbits else (exp2Fin fmtF32 false (decide (v < 0)) v.natAbs l).1
  | _, _ => (special .exp2 fmtF32 false (fmtF32.sub .rne false a b).1).1

/-- RMAX, RSUM and O of one row after a tile; none where nothing changes. `xs` are the row's scores. -/
def tileRow (rmax rsum : Nat) (o : List Nat) (xs : List Nat) (vals : List (List FVal)) : Option (Nat × Nat × List Nat) :=
  if attnIsNan rmax || xs.any attnIsNan then some (fmtF32.nan, fmtF32.nan, o.map fun _ => fmtF32.nan)
  else
    let mn := xs.foldl (fun m x => (fmtF32.minmax true false m x).1) rmax
    if mn = attnNegInf then none
    else
      let sub (a : Nat) : Nat := (fmtF32.sub .rne false a mn).1
      let alpha := if rmax = attnNegInf then 0 else exp2Diff rmax mn
      let p := xs.map fun x => fmtBf16.read false (if x = attnNegInf then 0 else exp2Bf16 (sub x))
      let one : List FVal := p.map fun _ => .fin false 1 0
      let rsum' := (accStep (BitVec.ofNat 32 (mul32 rsum alpha)) (sliceSum false p one) (.scale 1 0) (.scale 1 0)).toNat
      let ps := slices 2 p
      let o' := ((List.range o.length).zip o).map fun e =>
        dotInto (mul32 e.2 alpha) ps (slices 2 (vals.map fun v => v.getD e.1 (.fin false 0 0)))
      some (mn, rsum', o')

/-- Scores of one row against a tile's keys. -/
def scores (x : AttnDesc) (ms : List Interval) (t i : Nat) (q : List (List FVal)) (keys : List TileKey) : List Nat :=
  ((List.range keys.length).zip keys).map fun e =>
    if e.2.inSpan && admits ms i (t + e.1) then
      mul32 (dotInto 0 q (slices (x.dim / 64) e.2.key)) x.scale
    else attnNegInf

/-- The rows of an accumulator slot that a command works on: RMAX, RSUM and the first D cells of a row. -/
def AccSlot.row (a : AccSlot) (dim i : Nat) : Nat × Nat × List Nat :=
  ((a.rmax.get (BitVec.ofNat 32 attnNegInf) i).toNat, (a.rsum.get 0 i).toNat,
    (List.range dim).map fun n => (a.cells.get 0 (128 * i + n)).toNat)
def AccSlot.setRow (a : AccSlot) (i : Nat) (r : Nat × Nat × List Nat) : AccSlot :=
  { a with
    rmax := a.rmax.set i (BitVec.ofNat 32 r.1)
    rsum := a.rsum.set i (BitVec.ofNat 32 r.2.1)
    cells := a.cells.mapCells 0 (((List.range r.2.2.length).zip r.2.2).map fun e => (128 * i + e.1, e.2))
      fun v _ => BitVec.ofNat 32 v }

/-- The query rows: D/64 bf16 plane tiles, stored rotated (R235). -/
def queryRows (c : Cmd) (x : AttnDesc) : E (List (List (List FVal)) × List Bad) := do
  let rows ← (List.range x.m).mapM fun i =>
    (List.range (x.dim / 64)).mapM fun k => readLine c (x.q + 16384 * k) .bf16 false 0 i 0 0
  return (rows.map fun r => r.map (·.elems), rows.flatMap fun r => r.flatMap (·.bads))

/-- One tile: `n` is its ordinal within the command. -/
def attnTile (c : Cmd) (x : AttnDesc) (ks : Keys) (theta : List Nat) (t n : Nat) : E Unit := do
  let ms := ((← get).accAt c.cluster x.slot).mask
  if emptyTile ms t x.start (x.start + x.count) then return
  let qs ← queryRows c x
  let got ← (List.range 128).mapM fun j => do
    let pos := t + j
    if x.start ≤ pos && decide (pos < x.start + x.count) then
      let k ← keyRow c x ks 1 pos j
      let v ← keyRow c x ks 2 pos j
      let key := if theta.isEmpty then k.1 else rotate theta pos k.1
      return (({ inSpan := true, key := key.map (fmtBf16.read false), val := v.1.map (fmtBf16.read false) } : TileKey),
        k.2 ++ v.2)
    else return ({ inSpan := false, key := [], val := [] }, [])
  let keys := got.map (·.1)
  let vals := keys.map (·.val)
  modify fun s => s.accProbe c.cluster x.slot (inGrid x.m x.dim)
  modify fun s => s.modAcc c.cluster x.slot fun a =>
    ((List.range x.m).zip qs.1).foldl (fun a e =>
      let r := a.row x.dim e.1
      match tileRow r.1 r.2.1 r.2.2 (scores x ms t e.1 e.2 keys) vals with
      | some r => a.setRow e.1 r
      | none => a) a
  eReplaced c x.slot ((qs.2 ++ got.flatMap (·.2)).map fun b => { b with slice := n })

/-! ### The drain (R239) -/

def div32 (a b : Nat) : Nat :=
  match fmtF32.read false a, fmtF32.read false b with
  | .nan _, _ => fmtF32.nan
  | _, .nan _ => fmtF32.nan
  | .inf _, .inf _ => fmtF32.nan
  | .inf n, .fin k _ _ => fmtF32.withSign (n != k) fmtF32.inf
  | .fin n _ _, .inf k => fmtF32.withSign (n != k) 0
  | .fin n m e, .fin k p q =>
    if m = 0 || p = 0 then fmtF32.withSign (n != k) 0 else (fmtF32.roundRatio .rne false (n != k) m p (e - q)).1

/-- The row's share of the linear state: N and Z, each step rounded. -/
def linear (q : List Nat) (st z : List Nat) (dim : Nat) : List Nat × Nat :=
  let fs := q.map fun x => phi (wide x)
  ((List.range dim).map fun n =>
    ((List.range dim).zip fs).foldl (fun acc p => mulAdd acc p.2 (st.getD (p.1 * dim + n) 0)) 0,
   (fs.zip z).foldl (fun acc p => mulAdd acc p.1 p.2) 0)

/-- The row's output: `nz` its N and Z. An infinite factor g counts as 0, and so does what it multiplies. -/
def drainRow (rmax rsum : Nat) (o : List Nat) (nz : List Nat × Nat) : List Nat :=
  let g := if rmax = attnNegInf then 0 else (special .exp2 fmtF32 false (if attnIsNan rmax then rmax else rmax ^^^ 2 ^ 31)).1
  let times (a : Nat) : Nat := if g = fmtF32.inf then 0 else mul32 a g
  let den := if rmax = attnNegInf then nz.2 else add32 rsum (times nz.2)
  (o.zip nz.1).map fun p =>
    let num := if rmax = attnNegInf then p.2 else add32 p.1 (times p.2)
    if den % 2 ^ 31 = 0 then 0 else div32 num den

def attnDrain (c : Cmd) (x : AttnDesc) (lstate : Nat) : E Unit := do
  let dim := x.dim
  let words (va n : Nat) : E (List Nat) := (List.range n).mapM fun i => eNat c ((va + 4 * i) % 2 ^ 64) 4
  let base := (lstate + x.layer * stateSize dim) % 2 ^ 64
  let st ← if lstate = 0 then pure [] else words base (dim * dim)
  let z ← if lstate = 0 then pure [] else words ((base + 4 * dim * dim) % 2 ^ 64) dim
  let qs ← queryRows c x
  modify fun s => (s.accProbe c.cluster x.slot (inGrid x.m dim)).modAcc c.cluster x.slot fun a =>
    ((List.range x.m).zip qs.1).foldl (fun a e =>
      let r := a.row dim e.1
      let nz := if lstate = 0 then (List.replicate dim 0, 0) else linear (e.2.flatten.map bf16Of) st z dim
      a.setRow e.1 (r.1, r.2.1, drainRow r.1 r.2.1 r.2.2 nz)) a
  if lstate ≠ 0 then eReplaced c x.slot qs.2

/-! ### The command -/

/-- What can be found before an attention command's first tile, at its dispatch and in its turn, refuses it whole (R242, R318, R320): its
descriptor, its keys' headers and layer tables, its counter, and the reach of its frequencies and of the state that it drains. -/
def attnCheck (c : Cmd) (last : Bool) (src : KeySrc) : E (AttnDesc × Keys × Nat) := do
  let x ← attnDesc c src
  let k ← attnKeys c src x
  eCounter c
  if last && k.2 ≠ 0 then
    require (k.2 % 4 == 0) 3 k.2
    let base := k.2 + x.layer * stateSize x.dim
    (List.range (stateSize x.dim / 128 + 1)).forM fun i => eReach c ((base + 128 * i) % 2 ^ 64) 1 false
  if x.theta ≠ 0 then (List.range (x.dim / 2)).forM fun i => eReach c ((x.theta + 4 * i) % 2 ^ 64) 1 false
  return (x, k)

/-- The start of an attention command. -/
def attnBegin (c : Cmd) (last first : Bool) (src : KeySrc) : E (AttnDesc × Keys × Nat × List Nat) := do
  let (x, k) ← attnCheck c last src
  let theta ← if x.theta = 0 then pure []
    else (List.range (x.dim / 2)).mapM fun i => eNat c ((x.theta + 4 * i) % 2 ^ 64) 4
  if first then
    modify fun s => (s.freshCells c.cluster x.slot (inGrid x.m x.dim)).modAcc c.cluster x.slot fun a =>
      (List.range x.m).foldl (fun a i => a.setRow i (attnNegInf, 0, List.replicate x.dim 0)) a
  return (x, k.1, k.2, theta)

/-- Tiles in increasing position: one that is refused ends the command after those before it (R320). -/
def attnTiles (c : Cmd) (x : AttnDesc) (ks : Keys) (theta : List Nat) : Nat → Nat → Nat → State → Option EStop × State
  | 0, _, _, s => (none, s)
  | f + 1, t, n, s =>
    match (attnTile c x ks theta t n).run s with
    | .ok (_, s) => attnTiles c x ks theta f (t + 128) (n + 1) s
    | .error e => (some e, s)

/-- Run an attention command. A hold leaves the state as it was; a refusal part way leaves the whole tiles. -/
def runAttn (c : Cmd) (last first : Bool) (src : KeySrc) (s : State) : Option EStop × State :=
  match (attnBegin c last first src).run s with
  | .error e => (some e, s)
  | .ok ((x, ks, lstate, theta), s1) =>
    let t0 := x.start / 128 * 128
    let n := if x.count = 0 then 0 else (x.start + x.count - t0 + 127) / 128
    match attnTiles c x ks theta n t0 0 s1 with
    | (some (.refuse r a), s2) => (some (.refuse r a), s2)
    | (some e, _) => (some e, s)
    | (none, s2) =>
      let fin : E Unit := do
        if last then attnDrain c x lstate
        modify fun s => s.modAcc c.cluster x.slot fun a => { a with tag := c.tag }
      match fin.run s2 with
      | .ok (_, s3) => (none, s3)
      | .error (.refuse r a) => (some (.refuse r a), s2)
      | .error e => (some e, s)

end Sys2Proof.Machine
end

