-- ==== Sys2Proof/Machine/Incremental.lean ====
section
/-! DEFINITION. Incremental queues and arrangements (R256 to R270): the consolidation unit's commands. A command acts in one
event, so it finds BUSY and LOCK set only where something else set them, and then waits (R260). -/

namespace Sys2Proof.Machine

/-! ### Issue (R260) -/

def execIqput (g : Guard) (q r : Flag) (d a : Reg) (s : State) : Out :=
  issueStrand g (engineIssue .consol .iqput q r d a false true) s
def execIqget (g : Guard) (w : Bool) (q r : Flag) (d a : Reg) (s : State) : Out :=
  issueStrand g (engineIssue .consol (.iqget w) q r d a false true) s
def execIqwave (g : Guard) (q r : Flag) (d a : Reg) (s : State) : Out :=
  issueStrand g (engineIssue .consol .iqwave q r d a false true) s
def execIqcons (g : Guard) (q r : Flag) (d a : Reg) (s : State) : Out :=
  issueStrand g (engineIssue .consol .iqcons q r d a false true) s
def execIqbind (g : Guard) (q r : Flag) (d a : Reg) (s : State) : Out :=
  issueStrand g (engineIssue .consol .iqbind q r d a false true) s
def execIqbindStage (g : Guard) (q r : Flag) (d a : Reg) (s : State) : Out :=
  issueStrand g (engineIssue .consol .iqbindStage q r d a false true) s
def execIqprobe (g : Guard) (q r : Flag) (d a : Reg) (s : State) : Out :=
  issueStrand g (engineIssue .consol .iqprobe q r d a false true) s
def execIqupd (g : Guard) (q r : Flag) (d a : Reg) (s : State) : Out :=
  issueStrand g (engineIssue .consol .iqupd q r d a false true) s
def execIqquiet (g : Guard) (q r : Flag) (d a : Reg) (s : State) : Out :=
  issueStrand g (engineIssue .consol .iqquiet q r d a false true) s

/-! ### Accesses -/

/-- Write a number of `n` bytes; a poisoned unit that it does not cover holds the command (R352). -/
def uPut (c : Cmd) (va n v : Nat) : E Unit :=
  (cutRow n va (leBytes n v)).forM fun p => do
    match ← eSpot c p.1 2 with
    | .inl sa =>
      match (← get).probePart p.1 sa p.2.length with
      | (some u, _) => throw (.poison u va)
      | (none, s) => set s
    | .inr _ => pure ()
    ePiece c p.1 (p.2.map fun b => (b, false)) false false

/-- Set a bit of a word by an atomic access at its home and clear it again, waiting while something holds it (R260) or guards its granule
(R196). On a peer's page the peer is asked (log 16). -/
def holdBit (c : Cmd) (va bit : Nat) : E Unit := do
  match ← eSpot c va 9 with
  | .inl sa =>
    let l ← eClean va (← eReadAt c va sa 8)
    if bitOf (leNat l) bit || (← get).cmds.any (fun m => m.guardsRange sa 8) then throw .wait
    modify fun s => s.spotWrite va sa l
  | .inr dev =>
    eAsk c dev va (.atom .or 8 (wordN (2 ^ bit)) 0) (List.replicate 8 0)
    eAsk c dev va (.atom .and 8 (~~~wordN (2 ^ bit)) 0) (List.replicate 8 0)

/-! ### Records and waves (R256, R257) -/

structure IqRec where
  key : Nat
  val : Nat
  mult : Nat
  wave : Nat
  mark : Bool
  dead : Bool
  clean : Bool
deriving DecidableEq, Repr

def IqRec.ofLine (l : List Byte) : IqRec :=
  let w := lineField l 0x10 8
  { key := lineField l 0 8, val := lineField l 8 8, mult := bitsOf w 31 0, wave := bitsOf w 47 32, mark := bitOf w 48,
    dead := bitOf w 49, clean := bitsOf w 63 50 == 0 && lineField l 0x18 8 == 0 }
def IqRec.amount (r : IqRec) : Int := signedOf 32 r.mult
/-- The word at 0x10. -/
def IqRec.word (r : IqRec) : Nat := r.mult + 2 ^ 32 * r.wave + 2 ^ 48 * r.mark.toNat + 2 ^ 49 * r.dead.toNat
/-- The 32 bytes of a record as one number. -/
def IqRec.number (r : IqRec) : Nat := r.key + 2 ^ 64 * r.val + 2 ^ 128 * r.word
/-- Records that describe the same pair in the same wave. -/
def IqRec.agrees (a b : IqRec) : Bool := !a.mark && !b.mark && a.key == b.key && a.val == b.val && a.wave == b.wave
/-- Whether a sum of multiplicities can be held. -/
def fitsMult (t : Int) : Bool := decide (-(2 : Int) ^ 31 ≤ t) && decide (t < (2 : Int) ^ 31)

/-- a ⪰ b, and a ≻ b. -/
def waveGe (a b : Nat) : Bool := decide ((a + 2 ^ 16 - b % 2 ^ 16) % 2 ^ 16 < 2 ^ 15)
def waveGt (a b : Nat) : Bool := waveGe a b && a % 2 ^ 16 != b % 2 ^ 16

/-! ### Queues (R258) -/

structure Queue where
  va : Nat
  ring : Nat
  logcap : Nat
  incr : Bool
  cpmark : Bool
  cphalf : Bool
  head : Nat
  tail : Nat
  lastmark : Nat
  markcons : Nat
  consw : Nat
  live : Nat
deriving DecidableEq, Repr

/-- Record slots of the ring, and records appended and not passed over. -/
def Queue.cap (q : Queue) : Nat := 2 ^ q.logcap
def Queue.count (q : Queue) : Nat := (q.tail + 2 ^ 64 - q.head) % 2 ^ 64
/-- Where record number `i` stands. -/
def Queue.slot (q : Queue) (i : Nat) : Nat := (q.ring + 32 * (i % q.cap)) % 2 ^ 64
def Queue.waves (q : Queue) : Nat := q.lastmark + 2 ^ 16 * q.markcons + 2 ^ 32 * q.consw

/-- Where a queue descriptor must stand. -/
def queueHome (c : Cmd) (va : Nat) : E Unit := do
  require (va % 64 == 0) 3 va
  let _ ← eHome c va 1

/-- A bound queue, read under its BUSY bit; a descriptor's reserved bits are checked as it is read (R258, R270). -/
def openQueue (c : Cmd) (va : Nat) : E Queue := do
  queueHome c va
  require (bitOf (← eNat c (va + 8) 8) 8) 13 va
  holdBit c (va + 8) 9
  let l ← eRead c va 64
  let w := lineField l 8 8
  require (bitsOf w 63 10 == 0 && lineField l 0x26 2 == 0 && lineField l 0x2C 20 == 0) 1 va
  let q : Queue :=
    { va, ring := lineField l 0 8, logcap := bitsOf w 4 0, incr := bitOf w 5, cpmark := bitOf w 6, cphalf := bitOf w 7,
      head := lineField l 0x10 8, tail := lineField l 0x18 8, lastmark := lineField l 0x20 2, markcons := lineField l 0x22 2,
      consw := lineField l 0x24 2, live := lineField l 0x28 4 }
  require (decide (8 ≤ q.logcap) && decide (q.logcap ≤ 20) && decide (q.count ≤ q.cap)) 2 va
  require (q.ring % (32 * q.cap) == 0) 3 q.ring
  return q

/-- Write back what a command changed of a descriptor. -/
def closeQueue (c : Cmd) (old q : Queue) : E Unit := do
  if q.head ≠ old.head then uPut c (q.va + 0x10) 8 q.head
  if q.tail ≠ old.tail then uPut c (q.va + 0x18) 8 q.tail
  if q.waves ≠ old.waves then uPut c (q.va + 0x20) 8 q.waves
  if q.live ≠ old.live then uPut c (q.va + 0x28) 4 q.live

/-- A record of the ring, whose reserved bits are checked (R270). -/
def readRec (c : Cmd) (q : Queue) (i : Nat) : E IqRec := do
  let r := IqRec.ofLine (← eRead c (q.slot i) 32)
  require r.clean 1 (q.slot i)
  return r
/-- Change the word of a record that holds MULT and DEAD. -/
def setRec (c : Cmd) (q : Queue) (i : Nat) (r : IqRec) : E Unit := uPut c ((q.slot i + 0x10) % 2 ^ 64) 8 r.word

/-- Consolidate (R262): the queue after it, and how many records became DEAD. -/
def consolidate (c : Cmd) (q : Queue) : E (Queue × Nat) := do
  if !q.incr then return ({ q with consw := q.lastmark }, 0)
  let all ← (List.range q.count).mapM fun k => do return (k, ← readRec c q (q.head + k))
  let live := all.filter fun e => !e.2.dead && !e.2.mark
  let after : List (Nat × IqRec) := all.map fun e =>
    let group := live.filter fun x => x.2.agrees e.2
    let t := group.foldl (fun t x => t + x.2.amount) (0 : Int)
    if e.2.dead || e.2.mark || !fitsMult t then e
    else if t ≠ 0 && (group.head?.map (·.1)) == some e.1 then (e.1, { e.2 with mult := wrapTo 32 t })
    else (e.1, { e.2 with dead := true })
  (all.zip after).forM fun p => if p.1.2 = p.2.2 then pure () else setRec c q (q.head + p.1.1) p.2.2
  let passed := (after.takeWhile fun e => e.2.dead).length
  let left := (after.filter fun e => !e.2.dead).length
  let died := left + (all.filter fun e => e.2.dead).length
  return ({ q with head := (q.head + passed) % 2 ^ 64, live := left, consw := q.lastmark }, all.length - died)

/-! ### Putting (R261 to R263) -/

/-- The newest record agreeing with `r` among `n` from number `i` down. -/
def findRec (c : Cmd) (q : Queue) (r : IqRec) : Nat → Nat → E (Option (Nat × IqRec))
  | 0, _ => return none
  | n + 1, i => do
    let x ← readRec c q i
    if !x.dead && x.agrees r then return some (i, x)
    findRec c q r n ((i + 2 ^ 64 - 1) % 2 ^ 64)

/-- Merge a record into an agreeing one of the window, if one is there and the sum can be held. -/
def mergeRec (c : Cmd) (q : Queue) (r : IqRec) : E (Option Queue) := do
  match ← findRec c q r (min 256 q.count) ((q.tail + 2 ^ 64 - 1) % 2 ^ 64) with
  | none => return none
  | some (i, x) =>
    let t := x.amount + r.amount
    if !fitsMult t then return none
    if t = 0 then
      setRec c q i { x with dead := true }
      return some { q with live := (q.live + 2 ^ 32 - 1) % 2 ^ 32 }
    setRec c q i { x with mult := wrapTo 32 t }
    return some q

/-- Take records in order until the ring is full: the queue, and how many were taken. -/
def putRecs (c : Cmd) : List IqRec → Queue → Nat → E (Queue × Nat)
  | [], q, n => return (q, n)
  | r :: rs, q, n => do
    if q.incr && r.mult = 0 then putRecs c rs q (n + 1)
    else
      match ← if q.incr then mergeRec c q r else pure none with
      | some q => putRecs c rs q (n + 1)
      | none =>
        if q.count = q.cap then return (q, n)
        uPut c (q.slot q.tail) 32 r.number
        let q := { q with tail := (q.tail + 1) % 2 ^ 64, live := (q.live + 1) % 2 ^ 32 }
        let q ← if q.cphalf && q.live = q.cap / 2 then do pure (← consolidate c q).1 else pure q
        putRecs c rs q (n + 1)

/-- SRC or DST with its count (R261, R264). -/
def recArea (c : Cmd) : E (Nat × Nat) := do
  let at' := c.field 8 8
  let n := c.field 0x10 8
  require (at' % 32 == 0) 3 at'
  require (decide (1 ≤ n) && decide (n ≤ 256)) 2 c.a.toNat
  return (at', n)

/-- A wave number in a block word whose other bits are 0 (R263). -/
def waveField (c : Cmd) : E Nat := do
  let w := c.field 8 8
  require (decide (w < 2 ^ 16)) 1 c.a.toNat
  return w

/-- The address to bind, beside a word of 0 (R259). -/
def bindAddr (c : Cmd) : E Nat := do
  require (c.field 8 8 == 0) 1 c.a.toNat
  return c.field 0 8

/-- Limits that the block of a consolidation-unit command shows (R258 to R268, R318). -/
def iqLimits (c : Cmd) : E Unit := do
  -- a queue stands in the translated space; a stage descriptor or an arrangement is only aligned (R258, R259, R265)
  let place (queue : Bool) : E Unit := do
    require (c.field 0 8 % 64 == 0) 3 (c.field 0 8)
    eReach c (c.field 0 8) 1 queue
  match c.op with
  | .iqput | .iqget _ =>
    let _ ← recArea c
    place true
  | .iqwave =>
    let _ ← waveField c
    place true
  | .iqcons => place true
  | .iqquiet => place false
  | .iqbind =>
    let _ ← bindAddr c
    place true
  | .iqbindStage =>
    let _ ← bindAddr c
    place false
  | .iqprobe =>
    require (c.field 0x10 8 % 16 == 0) 3 (c.field 0x10 8)
    require (decide (c.field 0x18 8 ≤ 256)) 2 c.a.toNat
    place false
  | .iqupd =>
    let r := IqRec.ofLine (c.blk.drop 0x20)
    require (c.field 8 8 == 0 && c.field 0x10 8 == 0 && c.field 0x18 8 == 0) 1 c.a.toNat
    require (!r.mark && !r.dead && r.clean) 1 (c.a.toNat + 0x20)
    place false
  | _ => pure ()

def runIqput (c : Cmd) : E Word := do
  let (src, n) ← recArea c
  let q ← openQueue c (c.field 0 8)
  let rs ← (List.range n).mapM fun k => do
    let va := (src + 32 * k) % 2 ^ 64
    let r := IqRec.ofLine (← eRead c va 32)
    require (!r.mark && !r.dead && r.clean) 12 va
    require (!waveGe q.lastmark r.wave) 12 va
    return r
  let (q', d) ← putRecs c rs q 0
  closeQueue c q q'
  return wordN d

def runIqwave (c : Cmd) : E Word := do
  let w ← waveField c
  let q ← openQueue c (c.field 0 8)
  require (waveGt w q.lastmark) 12 c.a.toNat
  if q.count = q.cap then return 0
  uPut c (q.slot q.tail) 32
    (IqRec.number { key := 0, val := 0, mult := 0, wave := w, mark := true, dead := false, clean := true })
  let q' := { q with tail := (q.tail + 1) % 2 ^ 64, lastmark := w, live := (q.live + 1) % 2 ^ 32 }
  let q' ← if q'.cpmark then do pure (← consolidate c q').1 else pure q'
  closeQueue c q q'
  return 1

def runIqcons (c : Cmd) : E Word := do
  let q ← openQueue c (c.field 0 8)
  let (q', d) ← consolidate c q
  closeQueue c q q'
  return wordN d

/-! ### Taking (R264) -/

/-- Take up to `cap` live records into the area from `dst`. -/
def takeRecs (c : Cmd) (dst cap : Nat) : Nat → Queue → Nat → E (Queue × Nat)
  | 0, q, n => return (q, n)
  | f + 1, q, n => do
    if n = cap then return (q, n)
    let r ← readRec c q q.head
    let q := { q with head := (q.head + 1) % 2 ^ 64 }
    if r.dead then takeRecs c dst cap f q n
    else
      uPut c ((dst + 32 * n) % 2 ^ 64) 32 r.number
      let q := { q with live := (q.live + 2 ^ 32 - 1) % 2 ^ 32 }
      if r.mark then return ({ q with markcons := r.wave }, n + 1)
      else takeRecs c dst cap f q (n + 1)

/-- The number taken; none where nothing is live and the request waits, having changed nothing. -/
def runIqget (c : Cmd) (wait : Bool) : E (Option Word) := do
  let (dst, cap) ← recArea c
  let q ← openQueue c (c.field 0 8)
  let (q', n) ← takeRecs c dst cap q.count q 0
  if wait && n = 0 then return none
  closeQueue c q q'
  return some (wordN n)

/-! ### Binding and quiescence (R259, R268) -/

def runIqbind (c : Cmd) : E Word := do
  let va ← bindAddr c
  queueHome c va
  if bitOf (← eNat c (va + 8) 8) 8 then holdBit c (va + 8) 9
  let w ← eNat c (va + 8) 8
  let ring ← eNat c va 8
  let first ← eNat c (va + 0x20) 2
  require (bitsOf w 63 10 == 0 && (← eNat c (va + 0x26) 2) == 0) 1 va
  require (decide (8 ≤ bitsOf w 4 0) && decide (bitsOf w 4 0 ≤ 20)) 2 va
  require (ring % (32 * 2 ^ bitsOf w 4 0) == 0) 3 ring
  let m := (first + 2 ^ 16 - 1) % 2 ^ 16
  uPut c (va + 0x10) 8 0
  uPut c (va + 0x18) 8 0
  uPut c (va + 0x20) 8 (m + 2 ^ 16 * m + 2 ^ 32 * m)
  uPut c (va + 0x28) 8 0
  uPut c (va + 0x30) 16 0
  uPut c (va + 8) 8 (bitsOf w 7 0 + 2 ^ 8)
  return 1

/-- Queues of a well-formed stage: inputs and outputs named. -/
def stageQueues (c : Cmd) (va : Nat) : E (List Nat × List Nat) := do
  require (va % 64 == 0) 3 va
  let l ← eRead c va 64
  let names := (List.range 8).map fun i => lineField l (8 * i) 8
  let named := names.filter (· != 0)
  require (names.getD 0 0 != 0 && named.eraseDups.length == named.length) 14 va
  return ((names.take 4).filter (· != 0), (names.drop 4).filter (· != 0))

def runIqbindStage (c : Cmd) : E Word := do
  let (ins, outs) ← stageQueues c (← bindAddr c)
  (ins ++ outs).forM fun va => do
    queueHome c va
    require (bitOf (← eNat c (va + 8) 8) 8) 13 va
  return wordN (ins.length + outs.length)

def runIqquiet (c : Cmd) : E Word := do
  let w := c.field 8 2
  let (ins, outs) ← stageQueues c (c.field 0 8)
  let is ← ins.mapM fun va => do
    let q ← openQueue c va
    let rs ← (List.range q.count).mapM fun k => readRec c q (q.head + k)
    return (q, (rs.filter fun r => !r.dead && !r.mark && r.wave == w).length)
  let os ← outs.mapM fun va => openQueue c va
  let marked := is.all fun e => waveGe e.1.lastmark w
  let drained := is.all fun e => waveGe e.1.markcons w
  let done := os.all fun q => waveGe q.lastmark w && waveGe q.consw w
  let pending := is.foldl (fun n e => n + e.2) 0
  return wordN (pending % 2 ^ 32 * 2 ^ 32 + 8 * done.toNat + 4 * drained.toNat + 2 * marked.toNat
    + (marked && drained && done).toNat)

/-! ### Arrangements (R265 to R267) -/

structure Arr where
  va : Nat
  logb : Nat
  buck : Nat
  ent : Nat
  nent : Nat
  free : Nat
  live : Nat
deriving DecidableEq, Repr

/-- The end of a chain. -/
def noEntry : Nat := 0xFFFFFFFF

/-- A link names an entry that exists, or none. -/
def link (a : Arr) (e : Nat) : E Nat := do
  require (decide (e < a.nent) || e == noEntry) 2 a.va
  return e

/-- An arrangement, read under its LOCK bit. -/
def openArr (c : Cmd) (va : Nat) : E Arr := do
  require (va % 64 == 0) 3 va
  holdBit c (va + 0x30) 0
  let l ← eRead c va 64
  require (bitsOf (lineField l 0 8) 63 5 == 0 && bitsOf (lineField l 0x30 8) 63 1 == 0 && lineField l 0x38 8 == 0) 1 va
  let a : Arr :=
    { va, logb := lineField l 0 8, buck := lineField l 8 8, ent := lineField l 0x10 8, nent := lineField l 0x18 4,
      free := lineField l 0x20 4, live := lineField l 0x28 4 }
  require (decide (4 ≤ a.logb) && decide (a.logb ≤ 24) && a.nent != 0) 2 va
  require (a.buck % 4 == 0 && a.ent % 32 == 0) 3 va
  let _ ← link a a.free
  return a

/-- Where the bucket word of a key, and an entry, stand. -/
def Arr.bucket (a : Arr) (key : Nat) : Nat :=
  (a.buck + 4 * (key * 0xB5F39A2C6E71D48B % 2 ^ 64 / 2 ^ (64 - a.logb))) % 2 ^ 64
def Arr.entry (a : Arr) (e : Nat) : Nat := (a.ent + 32 * e) % 2 ^ 64

structure ArrEntry where
  no : Nat
  key : Nat
  val : Nat
  mult : Nat
  next : Nat
deriving DecidableEq, Repr

def readEntry (c : Cmd) (a : Arr) (e : Nat) : E ArrEntry := do
  let l ← eRead c (a.entry e) 32
  require (lineField l 0x1C 4 == 0) 1 (a.entry e)
  let next ← link a (lineField l 0x18 4)
  return { no := e, key := lineField l 0 8, val := lineField l 8 8, mult := lineField l 0x10 8, next }

/-- Entries of a chain in order, to its end or to the first that satisfies `until'`. -/
def chain (c : Cmd) (a : Arr) (until' : ArrEntry → Bool) : Nat → Nat → E (List ArrEntry)
  | 0, e => if e = noEntry then return [] else refuse 2 a.va
  | f + 1, e => do
    if e = noEntry then return []
    let x ← readEntry c a e
    if until' x then return [x]
    return x :: (← chain c a until' f x.next)

def runIqprobe (c : Cmd) : E Word := do
  let key := c.field 8 8
  let out := c.field 0x10 8
  let cap := c.field 0x18 8
  let a ← openArr c (c.field 0 8)
  let l ← chain c a (fun _ => false) a.nent (← link a (← eNat c (a.bucket key) 4))
  let hits := l.filter fun x => x.key == key
  ((List.range hits.length).zip (hits.take cap)).forM fun p =>
    uPut c ((out + 16 * p.1) % 2 ^ 64) 16 (p.2.val + 2 ^ 64 * p.2.mult)
  return wordN hits.length

def runIqupd (c : Cmd) : E Word := do
  let r := IqRec.ofLine (c.blk.drop 0x20)
  let a ← openArr c (c.field 0 8)
  let word := a.bucket r.key
  let first ← link a (← eNat c word 4)
  let hit (x : ArrEntry) : Bool := x.key == r.key && x.val == r.val
  let l ← chain c a hit a.nent first
  match (l.getLast?).filter hit with
  | none =>
    if r.mult ≠ 0 then
      require (a.free != noEntry) 7 a.va
      let x ← readEntry c a (← link a a.free)
      uPut c (a.entry x.no) 32 (r.key + 2 ^ 64 * r.val + 2 ^ 128 * wrapTo 64 r.amount + 2 ^ 192 * first)
      uPut c word 4 x.no
      uPut c (a.va + 0x20) 4 x.next
      uPut c (a.va + 0x28) 4 ((a.live + 1) % 2 ^ 32)
    return 0
  | some x =>
    let new := wrapTo 64 (x.mult + r.amount)
    if r.mult ≠ 0 then
      if new = 0 then
        match l.dropLast.getLast? with
        | none => uPut c word 4 x.next
        | some p => uPut c (a.entry p.no + 0x18) 8 x.next
        uPut c (a.entry x.no + 0x18) 8 (← link a a.free)
        uPut c (a.va + 0x20) 4 x.no
        uPut c (a.va + 0x28) 4 ((a.live + 2 ^ 32 - 1) % 2 ^ 32)
      else uPut c (a.entry x.no + 0x10) 8 new
    return wordN x.mult

end Sys2Proof.Machine
end

