-- ==== Sys2Proof/Machine/EngineRun.lean ====
section
/-! DEFINITION. An engine's event (R73, R193, R215, R260, R283, R318 to R320, R372, R376): the next command of its queue runs,
holds, is refused or completes, and a waited result reaches its strand. -/

namespace Sys2Proof.Machine

/-! ### Running -/

/-- Limits that a command's own words and the block read at its dispatch show (R156, R195, R242, R260, R318, R376). What stands in the
pages, nodes, records and pools that these name is read, and checked, in the command's turn (R320; DEDUCED, log 49). -/
def Cmd.precheck (c : Cmd) : E Unit := do
  match c.op.xkind with
  | some (kind, fe, lc) =>
    match Xfer.of c kind fe lc c.blk with
    | .error r => refuse r c.d.toNat
    | .ok x =>
      require (!fe || x.inPads) 3 x.dst
      eCounter c
  | none =>
    match c.op with
    | .mma _ _ pA => mmaCheck c pA
    | .mld | .mst => let _ ← cellWord c
    | .maskset => masksetLimits c
    | .attn _ _ src =>
      let _ ← attnDesc c src
      eCounter c
    | _ =>
      ropeLimits c
      kvLimits c
      iqLimits c

/-- Checks of the mask block, the headers, the layer tables and the places that a command names, as they stand at its dispatch (R242,
R318). -/
def Cmd.look (c : Cmd) : E Unit := do
  let layers (k : Cache) (f : Nat → Layer → E Unit) : E Unit := (List.range k.layers).forM fun i => do f i (← readLayer c k i)
  let pages (k : Cache) (i : Nat) (l : Layer) (n : Nat) : E Unit := [1, 2].forM fun kind => do
    let h := k.chain l i kind
    let _ ← chainPage c h n h.first
  match c.op with
  | .maskset => let _ ← maskBlock c
  | .attn last _ src => let _ ← attnCheck c last src
  | .kvapp w =>
    let (k, l, room, slot) ← kvappAt c w
    if room then pages k (c.field 0x18 2) l (slot / 120)
  | .kvcommit w | .kvtrunc w => layers (← readCache c w (c.field 8 8)) fun _ _ => pure ()
  | .linfold =>
    if c.field 0 8 ≠ 0 then
      let t ← readNode c (c.field 0 8)
      let leaves ← walkSpan c 64 t 0 0 (c.field 0x10 8) (c.field 0x10 8)
      leaves.forM fun e => do
        let k ← readCache c false e.1.left
        layers k fun i l => if e.2.2.2 = 0 then pure () else pages k i l ((e.1.right + (e.2.2.1 - e.2.1) + e.2.2.2 - 1) / 120)
  | _ => pure ()

/-- A command run to its end: its result, or none where its request is held (R264). -/
def Cmd.body (c : Cmd) : E (Option Word) :=
  let done (x : E Unit) : E (Option Word) := do x; return some 0
  let val (x : E Word) : E (Option Word) := do return some (← x)
  match c.op with
  | .mma _ clr pA => done (runMma c clr pA)
  | .mld => done (runMld c)
  | .mst => done (runMst c)
  | .mclr => done (runMclr c)
  | .maskset => done (runMaskset c)
  | .kvapp w => val (runKvapp c w)
  | .kvcommit w => val (runKvcommit c w)
  | .kvtrunc w => val (runKvtrunc c w)
  | .linfold => val (runLinfold c)
  | .pref => val (runPref c)
  | .rcat => val (runRcat c)
  | .rsplitLo => val (runRsplit c false)
  | .rsplitHi => val (runRsplit c true)
  | .rsplice => val (runRsplice c)
  | .rleaf => val (runRleaf c)
  | .ridx => val (runRidx c)
  | .rsum => val (runRsum c false)
  | .rsumFix => val (runRsum c true)
  | .rlen => val (runRlen c)
  | .rref => val (runRref c)
  | .rdrop => val (runRdrop c)
  | .rwalk => val (runRwalk c)
  | .rclass => val (runRclass c)
  | .iqput => val (runIqput c)
  | .iqget w => runIqget c w
  | .iqwave => val (runIqwave c)
  | .iqcons => val (runIqcons c)
  | .iqbind => val (runIqbind c)
  | .iqbindStage => val (runIqbindStage c)
  | .iqprobe => val (runIqprobe c)
  | .iqupd => val (runIqupd c)
  | .iqquiet => val (runIqquiet c)
  | .xcopyCopy .. | .xcopyFill .. | .xcopyPack .. | .xcopyUnpack .. | .attn .. | .mqry | .mrecl => return some 0

/-- What came of running a command: what stopped it, or its result, and the state it leaves. A transfer keeps what it has moved,
an attention command that is refused its whole tiles (R320); every other command that stops leaves nothing. -/
def State.runCmd (s : State) (c : Cmd) : Except EStop (Option Word) × State :=
  let soft (r : Option EStop × State) : Except EStop (Option Word) × State :=
    match r with
    | (none, s) => (.ok (some 0), s)
    | (some e, s) => (.error e, s)
  match c.op.xkind with
  | some (kind, fe, lc) =>
    match Xfer.of c kind fe lc c.blk with
    | .error r => (.error (.refuse r c.d.toNat), s)
    | .ok x => soft (x.run c s)
  | none =>
    match c.op with
    | .attn last first src => soft (runAttn c last first src s)
    | _ =>
      match c.body.run s with
      | .ok (v, s) => (.ok v, s)
      | .error e => (.error e, s)

/-! ### Completion -/

/-- Whether a command's counter register names a completion counter (R155, R195, R235). -/
def Cmd.counts (c : Cmd) : Bool :=
  !c.aZ && match c.op with
    | .xcopyCopy .. | .xcopyFill .. | .xcopyPack .. | .xcopyUnpack .. | .mma .. | .attn .. => true
    | _ => false

/-- A command leaves the engine; the accumulator slot it names counts it (R199 to R201, R318). -/
def State.dropCmd (s : State) (c : Cmd) (refused : Bool) : State :=
  let s := { s with cmds := s.cmds.filter fun x => x.id != c.id }
  match c.acc with
  | some n =>
    s.modAcc c.cluster n fun x => { x with done := (x.done + 1) % 2 ^ 16, refused := x.refused || refused }
  | none => s

/-- The engine number in a refusal trap (R319). -/
def engCode : EngUnit → Nat
  | .matrix => 1
  | .xfer _ => 2
  | .walker => 3
  | .consol => 4

/-- Where the strand that waits for a command stands: in a slot, or in a den's copy of one. -/
def State.waiter (s : State) (id : Nat) : Option (Nat × Nat) :=
  (s.slotList.find? fun e => e.2.2.wait == some (.engine id)).map fun e => (e.1, e.2.1)
def State.inDen (s : State) (id : Nat) : Bool :=
  let has (d : Den) : Bool := d.cores.any fun g => g.slots.any fun e => e.2.wait == some (.engine id)
  s.blocks.any fun b => match b.place with
    | .waiting _ d => d.any has
    | .running _ => false
    | .den d => has d

/-- Do something with a slot as the current one. -/
def State.atSlot (s : State) (c k : Nat) (f : State → State) : State :=
  { f { s with core := c, slot := k } with core := s.core, slot := s.slot }

/-- Write a waited command's result (R372): none while its queue or stream buffer has no room. -/
def State.giveResult (s : State) (c k : Nat) (dst : Option Reg) (v : Word) : Option State :=
  match dst with
  | none => some s
  | some r =>
    match regIndex r with
    | some n => some (s.modSlot c k fun x => { x with ctx := { x.ctx with gpr := x.ctx.gpr.set n v } })
    | none =>
      match r with
      | .nq =>
        if s.nqRoom c then
          let s := s.modSlot c k fun x => { x with ctx := { x.ctx with pinq := true } }
          some (((s.nqCross c).modCore c fun q => { q with nqDown := q.nqDown ++ [v] }).nqCross c)
        else none
      | .st t =>
        match (s.slotAt c k).streams[t] with
        | none => some s
        | some st =>
          if 16 ≤ st.buf.length then none
          else some (s.modSlot c k fun x =>
            { x with streams := x.streams.set t (some { st with pos := st.pos + 1, buf := st.buf ++ [v], seqs := st.seqs ++ [(s.dieAt (dieOf c)).commits] }) })
      | .z | .id | .m _ | .s _ | .l _ => some s

/-- The refusal trap of a waited command at `pc` (R318, R319), TEPC the next unit; the members of a gang execute up to the command's
instruction and leave (R311). A double trap reports the command (R310). -/
def State.refusalTrap (s : State) (c k : Nat) (info gseq : Nat) (addr pc : Word) : State :=
  s.atSlot c k fun s =>
    let s := if s.cur.ctx.gang && !s.cur.ctx.intrap then (s.releaseUpTo gseq).modCur Slot.release else s
    s.takeTrapAt 0xF info addr s.cur.ctx.pc pc

/-- A command that has its answer completes: the result is written and the strand goes on, or takes the refusal trap; in a den
the strand's copy receives it, but a result for a queue or a stream waits until the block is back. -/
def State.deliver (s : State) (c : Cmd) (v : Word) : Option State :=
  let info : Option (Nat × Word) := c.refused.map fun r => (engCode c.eng * 2 ^ 12 + r.1, wordN r.2)
  match s.waiter c.id with
  | some (core, k) =>
    match s.giveResult core k c.dst v with
    | none => none
    | some s =>
      let s := s.modSlot core k fun x => { x with wait := none, ticket := none }
      let s := s.dropCmd c c.refused.isSome
      match info with
      | some i => some (s.refusalTrap core k i.1 c.gseq i.2 c.pc)
      | none => some s
  | none =>
    if s.inDen c.id then
      let w : Option Wait := info.map fun i => .refusal i.1 i.2 c.pc c.gseq
      let put (x : Slot) : Slot :=
        if x.wait == some (.engine c.id) then
          match c.dst.bind regIndex with
          | some n => { x with wait := w, ctx := { x.ctx with gpr := x.ctx.gpr.set n v } }
          | none => { x with wait := w }
        else x
      match c.dst with
      | some .nq | some (.st _) => none
      | some .z | some .id | some (.m _) | some (.s _) | some (.l _) | none =>
        some ((s.mapDens put).dropCmd c c.refused.isSome)
    else some (s.dropCmd c c.refused.isSome)

/-- A command ends with its result. -/
def State.finishCmd (s : State) (c : Cmd) (v : Word) : State :=
  if c.waited then
    let s := s.modCmd c.id fun x => { x with answer := some v }
    (s.deliver { c with answer := some v } v).getD s
  else s.dropCmd c false

/-- Whether the writes that a command's release flag covers are performed (R65, R73). -/
def State.released (s : State) (c : Cmd) : Bool :=
  match c.rel with
  | some sc => !s.late.any fun w => w.cmd == c.id && w.covered sc c.core
  | none => true

/-- A command is refused (R318). A counter receives 1 + 2^48, where it can be reached (R376), after what a transfer has written. -/
def State.refuseCmd (s : State) (c : Cmd) (reason addr : Nat) : State :=
  let c := { c with refused := some (reason, addr), ran := true }
  let s := s.modCmd c.id fun _ => c
  if !s.released c then s
  else if c.waited then s.finishCmd c 0
  else if c.counts && ((eCounter c).run s).toOption.isSome then
    match (eCount c c.a.toNat (1 + 2 ^ 48)).run s with
    | .ok (_, s) => s.dropCmd c true
    | .error (.refuse ..) => s.dropCmd c true
    | .error e => s.holdCmd c e
  else s.dropCmd c true

/-- Whether a command of a block that is to be swapped completes only after the event in which it has read its operands: the swap
goes on between (R338). -/
def State.parted (s : State) (c : Cmd) : Bool :=
  (match c.op with | .mma .. | .attn .. => true | _ => false) && c.foreign.isNone && !c.ran
    && (s.block? c.launch.toNat c.block.toNat).any fun b => b.swapping.isSome

/-- All of a command is done but its completion: that waits for the writes of its release flag, and its counter is added to before it (R73,
R155). -/
def State.endCmd (s : State) (c : Cmd) (v : Word) (part : Bool) : State :=
  let c := { c with ran := true, value := v }
  let s := s.modCmd c.id fun _ => c
  if part || !s.released c then s
  else if c.counts then
    match (eCount c c.a.toNat 1).run s with
    | .ok (_, s) => s.finishCmd c v
    | .error (.refuse r a) => s.refuseCmd c r a
    | .error e => s.holdCmd c e
  else s.finishCmd c v

/-- The command runs. What holds it takes back all but what a transfer has moved. -/
def State.runOn (s : State) (c : Cmd) : State :=
  match (if c.ran then (.ok (some c.value), s) else s.runCmd c) with
  | (.ok none, s') =>
    let t := s'.modCmd c.id fun x => { x with waiting := true }
    if c.waiting then s
    else { t with cmds := t.cmds.filter (fun x => x.id != c.id) ++ t.cmds.filter fun x => x.id == c.id }
  | (.ok (some v), s') => s'.endCmd ((s'.cmdAt c.id).getD c) v (s.parted c)
  | (.error (.refuse r a), s') => s'.refuseCmd ((s'.cmdAt c.id).getD c) r a
  | (.error e, s') => s'.holdCmd ((s'.cmdAt c.id).getD c) e

/-- Whether a command holds at an absent page or at a poisoned unit, and whether it still has to read its block. -/
def Cmd.held (c : Cmd) : Bool := c.heldPage.isSome || c.heldPoison.isSome
def Cmd.unread (c : Cmd) : Bool := c.desc.isNone && (c.op.block c.d.toNat c.a.toNat).isSome

/-- Whether a run of part of a command refuses it. -/
def State.refuses {α : Type} (s : State) (m : E α) : Option (Nat × Nat) :=
  match m.run s with
  | .error (.refuse r a) => some (r, a)
  | .error _ | .ok _ => none

/-- Why a command is refused that has not begun: what its dispatch found, or what its block shows. -/
def State.unfit (s : State) (c : Cmd) : Option (Nat × Nat) :=
  match c.refused with
  | some r => some r
  | none =>
    if c.ran || c.begun || c.unread then none
    else
      s.refuses c.precheck

/-- A command that is refused at its dispatch completes there, whatever stands before it in its queue, and waits for no acquire flag (R156,
R242, R318). Whether the walker and the consolidation unit judge nodes, pools, queues and records there, as R318 has it, or when they read
them in their turn, as R73 and R320 have it, a free bit says (DESIGN CHOICE, log 49). -/
def State.screen (s : State) (id : Nat) : State :=
  match s.cmdAt id with
  | none => s
  | some c =>
    if c.held || c.waiting || c.answer.isSome then s
    else match (s.unfit c).orElse fun _ => s.refuses c.look with
      | some (r, a) => s.refuseCmd c r a
      | none =>
        if !c.waited then s
        else match s.refuses c.body with
          | some (r, a) => let b := s.drawBit; if b.1 then b.2.refuseCmd c r a else b.2
          | none => s

/-- The transfers of one strand begin in the order of their issue, on whichever channel they stand (R73). -/
def State.mayBegin (s : State) (c : Cmd) : Bool :=
  c.op.xkind.isNone || c.begun
    || !s.cmds.any fun x => decide (x.id < c.id) && x.op.xkind.isSome && !x.begun && x.refused.isNone && x.strandId == c.strandId
        && x.foreign == c.foreign

/-- An earlier command holds its engine, both channels of a transfer unit: it serves no later command (R283, R329, R352). -/
def State.engineHeld (s : State) (c : Cmd) : Bool :=
  s.cmds.any fun x => x.cluster == c.cluster && engCode x.eng == engCode c.eng && decide (x.id < c.id) && x.held

/-- A command that does not hold, nor its engine, goes on: it reads its block if its dispatch could not, is refused for what that finds, waits
for what its acquire flag names (R73), and runs. -/
def State.advance (s : State) (c : Cmd) : State :=
  if c.held || s.engineHeld c then s
  else if c.refused.isNone && c.unread then ((s.readDesc c).checkOrph c.id).screen c.id
  else
    match s.unfit c with
    | some (r, a) => s.refuseCmd c r a
    | none =>
      if s.acquired c && s.mayBegin c then
        (s.modCmd c.id fun x => { x with begun := c.op.xkind.isSome }).runOn { c with begun := c.op.xkind.isSome }
      else s

/-! ### The events -/

/-- An engine's event: a result that had no room goes out first, and MQRY and MRECL answer outside the queue (R193); then the
head of the queue goes on (R260, R283). -/
def execEngineCompletion (cluster : Nat) (u : EngUnit) (s : State) : Out :=
  let l := s.cmds.filter fun c => c.cluster == cluster && c.eng == u
  let given := l.findSome? fun c => match c.answer with
    | some v => s.deliver c v
    | none => none
  match given with
  | some s => .next s
  | none =>
    match l.find? fun c => !c.waiting && c.answer.isNone with
    | some c => .next (s.advance c)
    | none => .next s

/-- A held IQGET.wait is performed, the `n`th of its cluster (R264); earlier ones on its queue go first. -/
def execIqgetWaitServe (cluster n : Nat) (s : State) : Out :=
  match (s.cmds.filter fun c => c.cluster == cluster && c.waiting)[n]? with
  | none => .next s
  | some c =>
    let earlier := s.cmds.takeWhile fun x => x.id != c.id
    if earlier.any fun x => x.waiting && x.field 0 8 == c.field 0 8 then .next s
    else .next (s.advance c)

end Sys2Proof.Machine
end

