-- ==== Sys2Proof/Machine/Monitor.lean ====
section
/-! DEFINITION. The occupancy monitor of a cluster (R40, R41, R247 to R250) and its choice of a sequence to pre-empt (R356 to
R359). -/

namespace Sys2Proof.Machine

/-! ### Pools (R40, R41, R249) -/

/-- Pool of core `k` of a cluster. -/
def ClusterSt.pool (u : ClusterSt) (k : Nat) : Nat := bitsOf u.ompool.toNat (2 * k + 1) (2 * k)

def execPoolid (g : Guard) (d : Reg) (s : State) : Out :=
  issueStrand g (do
    let s ← get
    writeReg d (wordN ((s.clusterAt (clusterOf s.core)).pool (s.core % 8)))
    return none) s

/-- Queue, minimum, depth and cores of pool `p`. -/
structure PoolView where
  pool : Nat
  least : Nat
  depth : Nat
  cores : List Nat
deriving DecidableEq, Repr

def ClusterSt.poolView (u : ClusterSt) (p : Nat) : PoolView :=
  let lo := 8 * (p - 1)
  { pool := p, least := bitsOf u.omcfg.toNat (lo + 7) (lo + 4),
    depth := (u.wqs.get [] (bitsOf u.omcfg.toNat (lo + 3) lo)).length,
    cores := (List.range 8).filter fun k => u.pool k == p }

/-- A pool's ratio as a fraction; a pool with no core has +∞ or 0. -/
def PoolView.ratio (v : PoolView) : Nat × Nat :=
  if v.cores.isEmpty then (if 0 < v.depth then (1, 0) else (0, 1)) else (v.depth, v.cores.length)
/-- Whether one ratio is at least `n` times another. -/
def ratioGe (n : Nat) (a b : Nat × Nat) : Bool := decide (n * b.1 * a.2 ≤ a.1 * b.2)

/-- The core a turn moves, and the pool it moves to. -/
def ClusterSt.moved (u : ClusterSt) : Option (Nat × Nat) :=
  let l := u.poolView 1
  let m := u.poolView 2
  let c := u.poolView 3
  let hi (a b : PoolView) : PoolView := if ratioGe 1 a.ratio b.ratio then a else b
  let lo (a b : PoolView) : PoolView := if ratioGe 1 b.ratio a.ratio then a else b
  let p := hi (hi l m) c
  let q := lo (lo l m) c
  if p.pool ≠ q.pool && ratioGe 2 p.ratio q.ratio && decide (q.least < q.cores.length) then
    q.cores.getLast?.map fun k => (k, p.pool)
  else none

def ClusterSt.rebalance (u : ClusterSt) : ClusterSt :=
  match u.moved with
  | none => u
  | some (k, p) =>
    { u with
      ompool := putBits u.ompool (2 * k + 1) (2 * k) p
      omstat := putBits u.omstat 47 32 (bitsOf u.omstat.toNat 47 32 + 1) }

/-! ### Memory counters (R274) -/

def State.counterVa (s : State) (i : Nat) : Nat := bitsOf s.regs.mcbase.toNat 63 15 * 2 ^ 15 + 8 * i

/-- A counter that the monitor of cluster `k` reads with a domain: none where its page does not admit the read. Whether it could be
read, since a poisoned counter holds the turn (DESIGN CHOICE, log 90), as one does whose home is being switched (R49). -/
def State.counter (s : State) (k dom i : Nat) : Bool × Option Nat × State :=
  if s.switches (s.counterVa i) then (false, none, s) else
  match s.devResolve dom 1 (s.counterVa i) with
  | (.ok sa, s) =>
    match s.probe (some (s.counterVa i)) sa 8 with
    | (some u, s) => (false, none, s.poisonMet u (s.counterVa i) k)
    | (none, s) =>
      let r := s.devRead (s.counterVa i) sa 8
      (true, some (leNat r.1), r.2)
  | (_, s) => (true, none, s)

/-! ### Request records and their lists (R148, R247) -/

/-- A 32-bit field of a granule, and the offset that ends a list. -/
def State.padField (s : State) (off k : Nat) : Nat := s.mem.readNat (scratchBase + off + 4 * k) 4
def State.setPadField (s : State) (off k v : Nat) : State :=
  let sa := scratchBase + off + 4 * k
  s.devWrite sa sa (leBytes 4 v)
def padEnd : Nat := 0xFFFFFFFF
/-- Whether an offset names a granule of the scratchpads. -/
def isPad (off : Nat) : Bool := off % 16 == 0 && decide (off < 0x08000000)

/-- Whether the monitor may go on with granules that it reads and, where `w` says so, writes: their errors are found (R344), and a
poisoned one, which it reports, or a guarded one that it would write (R196) makes it wait (log 90). -/
def State.padClear (s : State) (k : Nat) (offs : List Nat) (w : Bool) : Bool × State :=
  let r := offs.foldl (fun (r : Option Nat × State) o =>
    let p := r.2.probe (some (scratchBase + o)) (scratchBase + o) 16
    (r.1.or p.1, p.2)) (none, s)
  match r.1 with
  | some u => (false, r.2.poisonMet u u k)
  | none => (!(w && offs.any fun o => s.cmds.any fun c => c.guardsRange (scratchBase + o) 16), r.2)

/-- Records of the list whose head stands at an offset. -/
def State.listFrom (s : State) : Nat → Nat → List Nat
  | 0, _ => []
  | n + 1, off => if isPad off then off :: State.listFrom s n (s.padField off 0) else []
def State.listOf (s : State) (head : Nat) : List Nat := s.listFrom (s.padField head 2) (s.padField head 0)

/-- The granules that a move of a record reads and writes. -/
def State.moveGrans (s : State) (r head : Nat) : List Nat :=
  [r, head, s.padField r 2, s.padField r 0, s.padField r 1, s.padField head 1].filter isPad

/-- Move a record to the tail of another list (R149). -/
def State.moveRecord (s : State) (r head : Nat) : State :=
  let old := s.padField r 2
  let s :=
    if isPad old then
      let nxt := s.padField r 0
      let prv := s.padField r 1
      let s := s.setPadField (if isPad prv then prv else old) 0 nxt
      let s := if isPad nxt then s.setPadField nxt 1 prv else s.setPadField old 1 prv
      s.setPadField old 2 (s.padField old 2 + 2 ^ 32 - 1)
    else s
  let last := s.padField head 1
  let s := ((s.setPadField r 1 last).setPadField r 0 padEnd).setPadField r 2 head
  let s := s.setPadField (if isPad last then last else head) 0 r
  (s.setPadField head 1 r).setPadField head 2 (s.padField head 2 + 1)

/-- Offset of a cluster's batch table, if OMBATCH names one in a scratchpad. -/
def ClusterSt.batch (u : ClusterSt) : Option Nat :=
  match regionOf u.ombatch.toNat with
  | .scratch c off => some (0x40000 * c + off)
  | .space | .own _ | .ctrl .. | .window _ | .unmapped => none

/-! ### Pre-emption (R357, R358) -/

/-- A record that may be pre-empted: its offset, PRIO, PAGES, cost and action. -/
structure Victim where
  off : Nat
  prio : Nat
  pages : Nat
  cost : Nat
  action : Nat
deriving DecidableEq, Repr

/-- Actions: 1 swap, 2 drop, 3 fold. -/
def ClusterSt.victim (u : ClusterSt) (s : State) (off : Nat) : Victim :=
  let f (o n : Nat) : Nat := s.mem.readNat (scratchBase + off + o) n
  let pages := f 0x24 4
  let sw := pages * f 0x30 4
  let rc := f 0x28 6 * f 0x34 4
  let swap := bitOf u.capctl.toNat 17
  let drop := bitOf u.capctl.toNat 18
  let (a, c) :=
    if swap then (if drop && decide (rc < sw) then (2, rc) else (1, sw)) else if drop then (2, rc) else (3, rc)
  { off, prio := f 0x20 1, pages, cost := c, action := a }

/-- Whether one record is chosen before another. -/
def Victim.beats (a b : Victim) : Bool :=
  if a.prio ≠ b.prio then decide (a.prio < b.prio)
  else if a.cost = 0 && b.cost = 0 && a.pages ≠ b.pages then decide (b.pages < a.pages)
  else if a.pages * b.cost ≠ b.pages * a.cost then decide (b.pages * a.cost < a.pages * b.cost)
  else decide (a.off < b.off)

/-- The choice is carried out, as one access, where it need not wait: the record leaves its list, its entry goes to PQ, CAPSTAT counts
it. Whether that is done with. -/
def State.preempt (s : State) (k table off action : Nat) : Bool × State :=
  let u := s.clusterAt k
  let pq := bitsOf u.capctl.toNat 15 12
  let dest := if action = 1 then some (table + 48) else if action = 2 then some table else none
  let ok := match dest with
    | some h => s.padClear k (s.moveGrans off h) true
    | none => s.padClear k [off] false
  let s := ok.2
  let on := s.padField off 2
  if !ok.1 then (false, s)
  else if on ≠ table + 16 && on ≠ table + 32 then (true, s)
  else if !s.wqRoom k pq then (true, s.modCluster k fun u => { u with capstat := putBits u.capstat 35 35 1 })
  else
    let s := match dest with | some h => s.moveRecord off h | none => s
    (true, s.modCluster k fun u =>
      { u with
        wqs := u.wqs.set pq (u.wqs.get [] pq ++ [wordN (scratchBase + off + action)])
        capstat := putBits (putBits u.capstat 33 32 action) 31 0 (bitsOf u.capstat.toNat 31 0 + 1) })

/-- Whether an acting turn pre-empts a sequence; none where it cannot yet tell. -/
def State.pressed (s : State) (k : Nat) : Option Bool × State :=
  let u := s.clusterAt k
  if bitOf u.capctl.toNat 16 && u.ombatch != 0 then
    match s.counter k 0 (bitsOf u.capctl.toNat 11 0) with
    | (false, _, s) => (none, s)
    | (true, some v, s) => (some (decide (v < bitsOf u.capctl.toNat 55 24)), s)
    | (true, none, s) => (some false, s)
  else (some false, s)

/-- A KIND 3 record of the cluster is pending, or the victim that its verdict names is still to be taken. -/
def State.victimAsked (s : State) (k : Nat) : Bool :=
  s.pendingRec (fun r => r.kind == 3 && r.cluster == k) || !(s.clusterAt k).named.isEmpty

/-- The device's own choice of a victim, and whether the turn is done with. -/
def State.chooseVictim (s : State) (k : Nat) : Bool × State :=
  let u := s.clusterAt k
  match u.batch with
  | none => (true, s)
  | some t =>
    let recs := s.listOf (t + 16) ++ s.listOf (t + 32)
    let ok := s.padClear k ([t + 16, t + 32] ++ recs.flatMap fun r => [r, r + 16, r + 32, r + 48]) false
    let s := ok.2
    if !ok.1 then (false, s)
    else
      let all := (recs.map (u.victim s)).filter fun v => decide (0 < v.pages)
      let best := all.foldl (fun (b : Option Victim) v =>
        match b with
        | none => some v
        | some w => if v.beats w then some v else some w) none
      match best with
      | none => (true, s.modCluster k fun u => { u with capstat := putBits u.capstat 34 34 1 })
      | some v => s.preempt k t v.off v.action

/-- A record of the batch table's cluster that a verdict names is taken, and what becomes of it; whether that is done with. -/
def State.takeNamed (s : State) (k : Nat) (at' : Word) (action : Nat) : Bool × State :=
  match (s.clusterAt k).batch, regionOf at'.toNat with
  | some t, .scratch c off => if off % 64 = 0 then s.preempt k t (0x40000 * c + off) action else (true, s)
  | _, _ => (true, s)

/-- The verdict on a KIND 3 record, carried out at once or once its granules can be written. -/
def State.victimNamed (s : State) (k : Nat) (at' : Word) (action : Nat) : State :=
  match s.takeNamed k at' action with
  | (true, s) => s
  | (false, s) => s.modCluster k fun u => { u with named := u.named ++ [(at', action)] }

/-- What verdicts have named and had to wait is tried again. -/
def State.retryNamed (s : State) (k : Nat) : State :=
  (s.clusterAt k).named.foldl (fun s p => s.victimNamed k p.1 p.2) (s.modCluster k fun u => { u with named := [] })

/-! ### Turns (R250) -/

/-- The monitor receives the oldest committed TURN. Where a victim cannot be taken yet, or no record of one can be held, the turn
stays, and with it the mode in which its pre-emption began (R20). -/
def execOmTurn (cluster : Nat) (s : State) : Out :=
  let s := s.retryNamed cluster
  let u := s.clusterAt cluster
  match u.turns with
  | [] => .next s
  | t :: rest =>
    let drop (s : State) : State := s.modCluster cluster fun u => { u with turns := rest, turnSoft := none }
    if bitOf u.omstat.toNat 48 && decide (t ≤ bitsOf u.omstat.toNat 31 0) then .next (drop s)
    else
      -- what it found on the way to a wait is kept, and nothing else
      let stays (s' : State) (soft : Option Bool) : Out := .next (s'.modCluster cluster fun _ => { u with turnSoft := soft })
      let soft := u.turnSoft.getD (bitOf s.regs.dmode.toNat 2)
      let s1 := s.modCluster cluster fun u => ClusterSt.rebalance { u with omstat := putBits (putBits u.omstat 48 48 1) 31 0 t }
      match s1.pressed cluster with
      | (none, s1) => stays s1 u.turnSoft
      | (some false, s1) => .next (drop s1)
      | (some true, s1) =>
        if s1.victimAsked cluster then .next (drop s1)
        else if soft then
          if s1.canPost then .next ((drop s1).post 3 cluster (s1.clusterAt cluster).ombatch 0 0) else stays s1 (some soft)
        else
          match s1.chooseVictim cluster with
          | (true, s1) => .next (drop s1)
          | (false, s1) => stays s1 (some soft)

end Sys2Proof.Machine
end

