-- ==== Sys2Proof/Machine/Paging.lean ====
section
/-! DEFINITION. Launch queues and their records (R271, R273); pages: service of absent ones (R329, R333), invalidation (R49, R54), and moves between frames (R77, R78, R351). -/

namespace Sys2Proof.Machine

/-! ### Launch queues (R271, R273) -/

def State.lqctlOf (s : State) (q : Nat) : Nat := (s.regs.lqctl.get 0 q).toNat
/-- Domain and priority of a queue. -/
def State.lqDom (s : State) (q : Nat) : Nat := bitsOf (s.lqctlOf q) 27 16
def State.lqPrio (s : State) (q : Nat) : Nat := s.lqctlOf q % 8

def State.lqReady (s : State) (q : Nat) : Bool :=
  bitOf (s.lqctlOf q) 3 && s.regs.lqridx.get 0 q != s.regs.lqwidx.get 0 q && !s.packets.any fun p => p.queue == q

/-- Queues of a parser. -/
def parserQueues (p : Nat) : List Nat := (List.range 32).map (32 * p + ·)
def State.readyMask (s : State) (p : Nat) : Nat :=
  (List.range 32).foldl (fun m i => if s.lqReady (32 * p + i) then m + 2 ^ i else m) 0

/-- LQNEXT of a parser: whether it names a queue, and which. -/
def State.lqNamed (s : State) (p : Nat) : Option Nat :=
  let v := (s.regs.lqnext.get 0 p).toNat
  if bitOf v 6 then some (v % 64) else none

/-- Host-assisted arbitration (R19). -/
def State.lqArb (s : State) : Bool := bitOf s.regs.dmode.toNat 5

/-- A parser posts its ready queues where nothing names the next one (R273), or once the device can hold the record: the choice is then asked
of system software, whatever DMODE becomes (R20, R289). The record's CLUSTER is 0xFFFF: DESIGN CHOICE (log 41). -/
def State.lqPost (s : State) (p : Nat) : State :=
  if (s.lqNamed p).isNone && ((s.lqArb && s.lqFresh.get false p) || s.lqDue.get false p) && s.readyMask p != 0 then
    let s := { s with lqFresh := s.lqFresh.set p false, lqAsked := s.lqAsked.set p true, lqDue := s.lqDue.set p (!s.canPost) }
    if s.canPost then s.post 6 0xFFFF (wordN (s.readyMask p)) (wordN p) 0 else s
  else s
/-- Records of ready queues that have waited for room go out where there is room. -/
def State.lqRetry (s : State) : State := [0, 1].foldl (fun s p => if s.lqDue.get false p && s.canPost then s.lqPost p else s) s

/-- A queue has become ready (R273). -/
def State.markReady (s : State) (q : Nat) : State :=
  if s.lqReady q then { s with lqFresh := s.lqFresh.set (q / 32) true } else s

/-- What the parsers note of a change from `old` to `s`: queues that have become ready, and a name that has ended. -/
def State.lqSettle (old s : State) : State :=
  [0, 1].foldl (fun s p =>
    let became := (parserQueues p).any fun q => s.lqReady q && !old.lqReady q
    let ended := (old.lqNamed p).isSome && (s.lqNamed p).isNone && s.readyMask p != 0
    (if became || ended then { s with lqFresh := s.lqFresh.set p true } else s).lqPost p) s

/-! ### Service -/

/-- The entry at which a walk ends: its address, its value, and the low bit of its level. -/
def walkEntry (m : Memory) (va : Nat) : Nat → List (Nat × Nat) → Option (Nat × Nat × Nat)
  | _, [] => none
  | table, (lo, w) :: rest =>
    let ea := table + 8 * (va / 2 ^ lo % 2 ^ w)
    let e := m.readNat ea 8
    if !bitOf e 0 || bitOf e 1 || rest.isEmpty then some (ea, e, lo)
    else walkEntry m va (bitsOf e 39 8 * 256) rest
def State.entryOf (s : State) (va : Nat) : Option (Nat × Nat × Nat) :=
  walkEntry s.mem va (bitsOf s.regs.ptroot.toNat 39 8 * 256) walkLevels

def PageFault.covers (f : PageFault) (va : Nat) : Bool := va / 2 ^ f.bits == f.va / 2 ^ f.bits

/-- Wakes for strands of peers that faulted here and went home (R332). -/
def State.wakeForeign (s : State) (p : Nat → Bool) : State :=
  (s.foreignParked.filter fun e => p e.2.2).foldl (fun (s : State) e => s.sendPeer e.1 e.2.2 0 (.wake e.2.1 none))
    { s with foreignParked := s.foreignParked.filter fun e => !p e.2.2 }

/-- Service of a page completes (R333): strands recorded against it are woken, and commands, packets and ring reads held on it resume. -/
def State.pageServed (s : State) (f : PageFault) : State :=
  let s := { s with
    faults := s.faults.filter fun g => g != f
    packets := s.packets.map fun (p : Packet) =>
      if p.page.any f.covers then { p with page := none } else p
    cmds := s.cmds.map fun (c : Cmd) => if c.heldPage.any f.covers then { c with heldPage := none } else c }
  let clear (st : Stream) : Stream := if st.absent.any f.covers then { st with absent := none } else st
  let s := s.mapKept fun x => { x with streams := x.streams.map fun (o : Option Stream) => o.map clear }
  let s := s.wakeForeign f.covers
  s.wakeWhere fun x => match x.wait with | some (.page va) => f.covers va | _ => false

/-- A page's service (R333): where the device serves it, it sets P = 1 in the leaf that names where the contents stand; a page
that system software serves waits for its answer. -/
def execPageService (va : Nat) (s : State) : Out :=
  match s.faults.find? fun f => f.va == va && !f.posted with
  | none => .next s
  | some f =>
    match s.entryOf va with
    | some (ea, e, _) =>
      let s := if bitOf e 0 then s else s.putPhys ea (leBytes 8 (e + 1))
      .next (s.pageServed f)
    | none => .next s

/-! ### Invalidation (R49, R54) -/

/-- Update-only lines of the lines given merge; first-level caches write back the dirty sectors of those they hold, and hold them no
more. -/
def State.dropLines (s : State) (p : Nat → Bool) : State :=
  let s := s.mergeWhere p
  let s := s.cores.foldl (fun (s : State) e =>
    (e.2.l1.filter fun l => p l.line && !l.upd).foldl (fun (s : State) l => s.writeBack e.1 l) s) s
  { s with cores := s.cores.map fun e => (e.1, { e.2 with l1 := e.2.l1.filter fun l => !p l.line }) }

/-- Remove every translation that covers an address; instruction caches drop the lines of its page, which is `2 ^ b` bytes large (DESIGN
CHOICE, log 10). -/
def State.dropXlats (s : State) (va b : Nat) : State :=
  { s with
    dies := s.dies.map fun e => (e.1, { e.2 with tc := e.2.tc.filter fun x => !x.covers va })
    cores := s.cores.map fun e =>
      (e.1, { e.2 with icache := e.2.icache.filter fun l => 256 * l.line / 2 ^ b != va / 2 ^ b }) }

/-- Size of the page that an address lies in: of its translation, where a cache holds one, else of its entry. -/
def State.pageBits (s : State) (va : Nat) : Nat :=
  let held := s.dies.foldl (fun n e => (e.2.tc.filter fun x => x.covers va).foldl (fun n x => max n x.bits) n) 0
  max 15 (max held ((s.entryOf va).elim 15 fun e => e.2.2))

/-- Whether a reply places an access on one of the lines given. -/
def Reply.placed (p : Nat → Bool) : Reply → Bool
  | .ok va _ => p (lineOf va)
  | .owner .. | .peer .. | .park _ | .fault .. => false

/-- Open chunks that have touched one of the lines given are in conflict. -/
def State.flagPage (s : State) (p : Nat → Bool) : State :=
  s.mapSlots fun _ _ x =>
    let c := x.chunk
    if c.isOpen && (c.reads ++ c.outLines ++ c.vreads).any p then { x with chunk := { c with conflict := true } } else x

/-- The page of an address is invalidated (R54). What an access of it has found and not yet used is found anew: a chunk that has touched one of
its lines executes again (DEDUCED, log 72). -/
def State.invalidatePage (s : State) (va : Nat) : State :=
  let b := s.pageBits va
  let on (l : Nat) : Bool := 256 * l / 2 ^ b == va / 2 ^ b
  (((s.dropLines on).dropXlats va b).flagPage on).mapKept fun x =>
    { x with
      replies := x.replies.filter fun r => !r.placed on
      wait := x.wait.filter fun w => match w with | .reply r => !r.placed on | _ => true }

/-- A HOMETAB switch (R49): lines of the index leave their old homes, then the entry changes. -/
def State.switchHome (s : State) (i : Nat) (v : BitVec 16) : State :=
  let s := s.dropLines fun l => 256 * l / 2 ^ 15 % 2 ^ 12 == i
  { s with regs := { s.regs with hometab := s.regs.hometab.set i v } }

/-! ### Moving a page (R77) -/

/-- Copy a range of storage that lists any of its bytes. -/
def Memory.copyRange (m : Memory) (src dst n : Nat) : Memory :=
  let within (a b : Nat) : Bool := decide (b ≤ a) && decide (a < b + n)
  (m.filter fun c => within c.1 src).foldl (fun m c => m.write (c.1 - src + dst) c.2) (m.filter fun c => !within c.1 dst)

/-- Bytes of a 32 KiB frame. -/
def frameSize : Nat := 2 ^ 15

/-- Where a place stands after a frame's contents have moved. -/
def moved (old new sa : Nat) : Nat :=
  if decide (old ≤ sa) && decide (sa < old + frameSize) then sa - old + new else sa

def Reply.moved (old new : Nat) : Reply → Reply
  | .ok va sa => .ok va (Machine.moved old new sa)
  | .owner va dev => .owner va dev
  | .peer va v => .peer va v
  | .park va => .park va
  | .fault c i a => .fault c i a
def Held.moved (old new : Nat) : Held → Held
  | .store sa va b a => .store (Machine.moved old new sa) va b a
  | .cupd sa va op n v => .cupd (Machine.moved old new sa) va op n v
  | h => h
def Slot.moved (old new : Nat) (x : Slot) : Slot :=
  { x with
    chunk := { x.chunk with held := x.chunk.held.map (Held.moved old new) }
    replies := x.replies.map (Reply.moved old new)
    wait := match x.wait with
      | some (.reply r) => some (.reply (r.moved old new))
      | some (.barrier sa g) => some (.barrier (Machine.moved old new sa) g)
      | some (.poison u) => some (.poison (Machine.moved old new u))
      | w => w
    streams := x.streams.map fun (o : Option Stream) => o.map fun st => { st with tainted := st.tainted.map (Machine.moved old new) } }
def Cmd.moved (old new : Nat) (c : Cmd) : Cmd :=
  let g (n : Nat) : Nat := Machine.moved old new (16 * n) / 16
  { c with
    heldPoison := c.heldPoison.map (Machine.moved old new)
    olds := c.olds.map fun e => (g e.1, e.2)
    chosen := c.chosen.map fun e => (g e.1, e.2)
    reported := c.reported.map (Machine.moved old new) }
def MeqRec.moved (old new : Nat) (r : MeqRec) : MeqRec := if r.kind == 9 then { r with ref := Machine.moved old new r.ref } else r

/-- Engine writes still on their way to a frame are performed. -/
def State.landLate (s : State) (frame : Nat) : State :=
  let hit (w : LateWrite) : Bool := w.dev.isNone && decide (frame ≤ w.sa) && decide (w.sa < frame + frameSize)
  let s' := (s.late.filter hit).foldl (fun s w => s.spotPut (w.cmd + 1) w.va w.sa w.bytes w.taint) s
  { s' with late := s.late.filter fun w => !hit w }

/-- The 32 KiB page of an address moves to another frame: what the copy reads is checked, poison and tolerant sectors keep what they
are, and what is on its way to the page, or waits at it, follows it. The copy is one event: no access falls between two of its lines
(DESIGN CHOICE, log 98). -/
def State.movePage (s : State) (va old new : Nat) : State :=
  let s := (s.landLate old).dropLines fun l => 256 * l / frameSize == va / frameSize
  let s := ((s.probe (some va) old frameSize).2).keepOld new frameSize
  let inside (f u : Nat) : Bool := decide (f ≤ u) && decide (u < f + frameSize)
  let carry (l : List Nat) : List Nat :=
    (l.filter (inside old)).foldl (fun l u => insertNat (u - old + new) l) (l.filter fun u => !inside new u)
  let mv := moved old new
  let s := { s with
    mem := s.mem.copyRange old new frameSize
    flaws := s.flaws.filter fun f => f.store == 4 || !inside new f.unit
    poison := carry s.poison
    poisonStore := (s.poisonStore.filter fun (e : Nat × Nat) => !inside new e.1).map fun (e : Nat × Nat) => (mv e.1, e.2)
    covering := (s.covering.filter fun (e : Nat × Nat × Nat) => !inside new e.2.1).map fun (e : Nat × Nat × Nat) => (e.1, mv e.2.1, e.2.2)
    tolerant := carry s.tolerant
    cmds := s.cmds.map (Cmd.moved old new)
    upds := s.upds.map fun (u : UpdLine) => { u with pa := mv u.pa }
    meqWait := s.meqWait.map (MeqRec.moved old new)
    meqOpen := s.meqOpen.map (MeqRec.moved old new)
    meqPend := s.meqPend.map (MeqRec.moved old new)
    foreignParked := s.foreignParked.map fun (e : Nat × BitVec 32 × Nat) =>
      (e.1, e.2.1, if 2 ^ 64 ≤ e.2.2 then 2 ^ 64 + mv (e.2.2 - 2 ^ 64) else e.2.2) }
  let s := { s with dies := s.dies.map fun (e : Nat × DieSt) =>
    (e.1, { e.2 with l2 := e.2.l2.filter fun y => !inside old (256 * y.line) && !inside new (256 * y.line) }) }
  let s := match s.entryOf va with
    | some (ea, e, _) => s.putPhys ea (leBytes 8 (e - bitsOf e 39 8 * 2 ^ 8 + new))
    | none => s
  (s.dropXlats va 15).mapKept (Slot.moved old new)

/-! ### Free frames (R78) -/

/-- A table at an address that device registers name, reached with domain 0 (PRESUMED, log 39). -/
def State.tableWord (s : State) (va : Nat) : Option (Nat × Nat) × State :=
  match s.devResolve 0 9 va with
  | (.ok sa, s) =>
    let r := s.devRead va sa 8
    (some (sa, leNat r.1), r.2)
  | (_, s) => (none, s)

def State.freeListVa (s : State) (stack : Nat) : Nat := bitsOf s.regs.migfbase.toNat 63 7 * 2 ^ 7 + 8 * stack

/-- The first free frame of a stack. -/
def State.freeHead (s : State) (stack : Nat) : Option Nat :=
  if bitsOf s.regs.migfbase.toNat 63 7 = 0 then none
  else
    match s.tableWord (s.freeListVa stack) with
    | (some (_, f), _) => if f = 0 then none else some (bitsOf f 39 15 * 2 ^ 15)
    | (none, _) => none

/-- Take the first free frame of a stack off its list. -/
def State.takeFrame (s : State) (stack : Nat) : Option (Nat × State) :=
  match s.freeHead stack, s.tableWord (s.freeListVa stack) with
  | some f, (some (sa, _), s) =>
    let s := (s.probe none f 8).2
    some (f, s.devWrite (s.freeListVa stack) sa (leBytes 8 (s.mem.readNat f 8)))
  | _, _ => none

/-- Return a frame to the list of its stack. -/
def State.giveFrame (s : State) (f : Nat) : State :=
  let va := s.freeListVa (f / 2 ^ 36)
  match s.tableWord va with
  | (some (sa, first), s) => (s.putPhys f (leBytes 8 first)).devWrite va sa (leBytes 8 f)
  | (none, s) => s

/-- The frame of an address that lies in a present 32 KiB page of this device. -/
def State.smallFrame (s : State) (va : Nat) : Option Nat :=
  match s.walk va with
  | .leaf x => if x.bits = 15 && x.peer.isNone then some x.pa else none
  | .absent .. => none
  | .malformed => none

/-- Whether a page can move to a stack, and the frame it stands in. -/
def State.canMove (s : State) (va stack : Nat) : Option Nat :=
  match s.smallFrame va with
  | some f => if f / 2 ^ 36 ≠ stack && (s.freeHead stack).isSome then some f else none
  | none => none

/-- Decide a move: `either` where the next stack will do as well, which the move itself then finds (R78). -/
def State.addMig (s : State) (va stack : Nat) (asked either : Bool) : State :=
  match if either then s.smallFrame va else s.canMove va stack with
  | some f =>
    if s.migs.any fun m => m.va / frameSize == va / frameSize && !asked then s
    else { s with migs := s.migs ++ [{ va, stack, die := f / 2 ^ 37, asked, either }] }
  | none => s

/-- A write of MIGREQ (R78): a move that cannot be made fails at once. -/
def State.requestMove (s : State) (v : Word) : State :=
  if s.regs.migBusy then s
  else
    let va := bitsOf v.toNat 63 15 * 2 ^ 15
    let stack := bitsOf v.toNat 5 2
    match s.canMove va stack with
    | none => { s with regs := { s.regs with migFail := true } }
    | some _ => ({ s with regs := { s.regs with migFail := false, migBusy := true } }).addMig va stack true false

/-- A die's migration engine makes its oldest decided move (R77), and none while one of the engines switches a home (R49). -/
def execPageMigration (die : Nat) (s : State) : Out :=
  if s.switching.isSome then .next s else
  match s.migs.find? fun m => m.die == die with
  | none => .next s
  | some m =>
    let s := { s with migs := s.migs.filter fun x => x != m }
    let settle (s : State) (fail : Bool) : State :=
      if m.asked then { s with regs := { s.regs with migBusy := false, migFail := fail } } else s
    let stack := if m.either && (s.freeHead m.stack).isNone then m.stack + 1 else m.stack
    match s.canMove m.va stack with
    | none => .next (settle s true)
    | some old =>
      match s.takeFrame stack with
      | some (new, s) => .next (settle ((s.movePage m.va old new).giveFrame old) false)
      | none => .next (settle s true)

/-! ### The counter rule (R78) -/

/-- The die with the highest count, the lower number winning a tie. -/
def HotEntry.top (e : HotEntry) : Nat :=
  (List.range 8).foldl (fun b d => if e.counts.toList.getD b 0 < e.counts.toList.getD d 0 then d else b) 0
def HotEntry.count (e : HotEntry) (d : Nat) : Nat := e.counts.toList.getD d 0

/-- Insert into a list kept in falling order of a measure, after its equals. -/
def insertDown {α : Type} (f : α → Nat) (x : α) : List α → List α
  | [] => [x]
  | y :: l => if f y < f x then x :: y :: l else y :: insertDown f x l

/-- The end of an epoch of a die's migration engine. Of candidates with equal counts, where MAX cuts the list, those whose entries were opened
first are taken: DESIGN CHOICE (log 100). An entry whose recorded virtual address no longer maps to its frame is passed over, with no move and no
record: R78 does not speak of one (DESIGN CHOICE, log 110). -/
def execMigrationEpoch (die : Nat) (s : State) : Out :=
  let ctl := s.regs.migctl.toNat
  let d := s.dieAt die
  let fits (e : HotEntry) : Bool :=
    e.top != die && decide (bitsOf ctl 31 16 ≤ e.count e.top) && decide (2 * e.count die ≤ e.count e.top)
      && match e.va with
        | some va => s.smallFrame va == some (e.frame * frameSize)
        | none => false
  let cands := ((d.hot.filter fits).foldl (fun l e => insertDown (fun e => e.count e.top) e l) []).take (bitsOf ctl 15 8)
  let soft := bitOf s.regs.dmode.toNat 4
  let s := cands.foldl (fun s e =>
    let va := e.va.getD 0
    if soft then s.post 5 0xFFFF (wordN va) (wordN (2 * e.top)) (wordN (e.count e.top)) else s.addMig va (2 * e.top) false true) s
  .next (s.modDie die fun d =>
    { d with hot := (d.hot.map fun e => { e with counts := e.counts.map (· / 2) }).filter fun e =>
        e.counts.toList.any (0 < ·) })

end Sys2Proof.Machine
end

