-- ==== Sys2Proof/Machine/Launch.lean ====
section
/-! DEFINITION. Launch queues, packets and their parsers (R271 to R276, R326, R329). -/

namespace Sys2Proof.Machine

/-! ### Arbitration (R273) -/

/-- A parser whose record of a faulty packet the device could not yet take goes on to no other packet (R289). -/
def State.parserHeld (s : State) (p : Nat) : Bool :=
  s.meqPend.any fun r => r.kind == 8 && decide (r.arg0.toNat < 64) && r.arg0.toNat / 32 == p

/-- The queue whose head packet a parser starts next: the one that LQNEXT names, in host-assisted arbitration and where a choice asked of
system software has not been made (R20). -/
def State.lqPick (s : State) (p : Nat) : Option Nat :=
  let ready := (parserQueues p).filter s.lqReady
  if s.parserHeld p then none
  else if s.lqArb || s.lqAsked.get false p then (s.lqNamed p).filter ready.contains
  else
    let best := ready.foldl (fun n q => max n (s.lqPrio q)) 0
    let level := ready.filter fun q => s.lqPrio q == best
    let last := s.lastQueue.get (32 * p + 31) p
    (level.find? fun q => decide (last < q)).orElse fun _ => level.head?

/-! ### Packets (R275) -/

inductive Pkt where
  | launch (l : Launch)
  | fence (tests : List (Nat × Nat × Nat))
  | signal (add int : Bool) (vec idx : Nat) (v : Word)
  | copy (sh dh : Bool) (src dst len : Nat)
  | mode (mask value : Nat)
deriving DecidableEq, Repr

/-- A FENCE packet's entries: counter, comparison, value. -/
def fenceEntries (n count : Nat) : List (Nat × Nat × Nat) :=
  (List.range count).map fun k =>
    let e := n / 2 ^ (32 + 40 * k)
    (bitsOf e 11 0, bitsOf e 14 12, bitsOf e 39 16)

/-- Bits that a layout assigns: `w` bits at byte `o`, bit `b`. -/
def assigned (o b w : Nat) : Nat := (2 ^ w - 1) * 2 ^ (8 * o + b)
def pktAssigned (type count : Nat) : Nat :=
  match type with
  | 1 => assigned 0 0 9 + assigned 0 12 12 + assigned 4 0 24 + assigned 8 0 256 + assigned 0x28 0 5 + assigned 0x28 8 56
      + assigned 0x30 0 64 + assigned 0x38 0 13 + assigned 0x38 16 8
  | 2 => (List.range count).foldl (fun m k => m + assigned (4 + 5 * k) 0 15 + assigned (4 + 5 * k) 16 24) (assigned 0 0 8)
  | 3 => assigned 0 0 6 + assigned 0 16 16 + assigned 4 0 12 + assigned 8 0 64
  | 4 => assigned 0 0 6 + assigned 8 0 128 + assigned 0x18 0 40
  | _ => assigned 0 0 4 + assigned 4 0 6 + assigned 4 8 6

/-- The launch that a LAUNCH packet describes. -/
def pktLaunch (n queue prio num : Nat) : Launch :=
  let f (o hi lo : Nat) : Nat := bitsOf (n / 2 ^ (8 * o)) hi lo
  { num, queue, prio, bsz := f 0 5 4, steal := f 0 7 6, manual := f 0 8 8 == 1, dom := f 0 23 12, count := f 4 23 0 + 1,
    entry := wordN (f 8 63 0), tvec := wordN (f 0x10 63 0), tfut := wordN (f 0x18 63 0), dict := f 0x20 63 12 * 2 ^ 12,
    dcnt := f 0x20 11 0, spill := f 0x28 63 8 * 2 ^ 8, spl := f 0x28 4 0, param := wordN (f 0x30 63 0), doneIdx := f 0x38 11 0,
    doneEn := f 0x38 12 12 == 1, dies := f 0x38 23 16, dealt := 0, complete := 0 }

/-- Read a packet, or say why it is faulty (R326). Where several reasons hold the lowest is given: DESIGN CHOICE (log 42). -/
def pktOf (b : List Byte) (queue prio num : Nat) : Except Nat Pkt :=
  let n := leNat b
  let f (o hi lo : Nat) : Nat := bitsOf (n / 2 ^ (8 * o)) hi lo
  let type := f 0 3 0
  let count := f 0 7 4
  let rest := n - (n &&& pktAssigned type (min count 12))
  if type = 0 || decide (5 < type) then .error 1
  else if rest ≠ 0 then .error 2
  else
    let keep (ok : Bool) (p : Pkt) : Except Nat Pkt := if ok then .ok p else .error 3
    match type with
    | 1 =>
      let l := pktLaunch n queue prio num
      keep (l.entry.toNat % 2 == 0 && decide (l.dcnt ≤ 1024) && decide (l.spl ≤ 12)) (.launch l)
    | 2 =>
      let l := fenceEntries n count
      keep (decide (1 ≤ count) && decide (count ≤ 12) && l.all fun e => decide (e.2.1 < 4)) (.fence l)
    | 3 => .ok (.signal (f 0 4 4 == 1) (f 0 5 5 == 1) (f 0 31 16) (f 4 11 0) (wordN (f 8 63 0)))
    | 4 => keep (decide (0 < f 0x18 39 0)) (.copy (f 0 4 4 == 1) (f 0 5 5 == 1) (f 8 63 0) (f 0x10 63 0) (f 0x18 39 0))
    | _ => .ok (.mode (f 4 5 0) (f 4 13 8))

/-! ### A parser's accesses -/

/-- Where a parser's device-side access stands. A page of a peer is asked for with the requests given, which wait while the link is
down or retrains (R286, R355); whether its owner refuses, a free bit says (log 16). -/
def State.parserSpot (s : State) (dom need va : Nat) (ask : List (Nat × PeerOp)) : DevSpot × State :=
  match s.devSpot (if va < 2 ^ 56 then .space else .bad 0) dom need va with
  | (.away dev, s) =>
    if s.linkStalled dev then (.absent, s)
    else
      let b := (ask.foldl (fun (s : State) o => s.sendPeer dev o.1 dom o.2) s).drawBit
      (if b.1 then .fault 5 0 else .away dev, b.2)
  | r => r

/-- Bytes at a place that is reached, or that a peer gives (log 16). -/
def State.parserRead (s : State) (d : DevSpot) (va n : Nat) : List Byte × State :=
  match d with
  | .here sa => (s.probe (some va) sa n).2.spotRead va sa n
  | .away _ | .fault .. | .absent =>
    ((List.range n).map fun i => Config.freeByte (s.free + i), { s with free := s.free + n })

/-- An agent of the device with no strand waits for a page (R329, R333), if that is what it waits for. -/
def State.awaitPage (s : State) (va : Nat) : State :=
  if (s.walk va).present then s else s.faultOn va 0xFFFF (wordN (2 ^ 64 - 1))

/-- A device-scope atomic on a counter with a queue's domain (R274, R276): whether it is made; an absent page is asked for. One
that is unmapped or lacks the right changes nothing: DESIGN CHOICE (log 43). -/
def State.counterAtomic (s : State) (dom i : Nat) (add : Bool) (v : Word) : Bool × State :=
  let va := s.counterVa i
  match s.parserSpot dom 9 va [(va, .atom (if add then .add else .swap) 8 v 0)] with
  | (.here sa, s) =>
    let r := (s.probe (some va) sa 8).2.spotRead va sa 8
    (true, r.2.spotWrite va sa (leBytes 8 (if add then leNat r.1 + v.toNat else v.toNat)))
  | (.absent, s) => (false, s.awaitPage va)
  | (.away _, s) | (.fault .., s) => (true, s)

/-! ### Starting and completing (R273, R276, R326) -/

def State.pktVa (s : State) (q : Nat) : Nat :=
  let b := s.regs.lqbase.get 0 q
  bitsOf b.toNat 63 12 * 2 ^ 12 + 64 * ((s.regs.lqridx.get 0 q).toNat % 2 ^ (b.toNat % 32))

def State.pktIn (s : State) (q : Nat) : Option Packet := s.packets.find? fun p => p.queue == q
def State.dropPkt (s : State) (q : Nat) : State := { s with packets := s.packets.filter fun p => p.queue != q }
def State.setPkt (s : State) (p : Packet) : State := { s with packets := s.packets.filter (fun x => x.queue != p.queue) ++ [p] }
/-- A queue's packet in progress that has been read, or its ring read that goes on. -/
def State.pktBegun (s : State) (q : Nat) : Option Packet := (s.pktIn q).filter fun p => !p.bytes.isEmpty
def State.reading (s : State) (q : Nat) : Bool := (s.pktIn q).any fun p => p.bytes.isEmpty && !p.stopped && p.page.isNone
/-- A queue's packet waits for a page, if that is what it waits for; otherwise it is tried again. -/
def State.pktWaits (s : State) (p : Packet) (va : Nat) : State :=
  let t := { p with page := if (s.walk va).present then none else some va }
  (if s.pktIn p.queue == some t then s else s.setPkt t).awaitPage va

/-- A queue's packet completes. -/
def State.completePkt (s : State) (q : Nat) : State :=
  let s := s.dropPkt q
  { s with regs := { s.regs with lqridx := s.regs.lqridx.set q (s.regs.lqridx.get 0 q + 1) } }.markReady q
/-- A queue's packet is to be read again. -/
def State.retryPkt (s : State) (q : Nat) : State := (s.dropPkt q).markReady q

/-- A parser stops at a faulty packet and reports it. -/
def State.faultyPkt (s : State) (q va reason : Nat) : State :=
  (s.setPkt { queue := q, bytes := [], done := 0, launch := none, stopped := true, page := none }).post 8 0xFFFF (wordN q)
    (wordN va) (wordN reason)

/-- A parser has started a queue's head packet: a choice that was asked for has been made. -/
def State.startedPkt (s : State) (q : Nat) : State :=
  let p := q / 32
  { s with
    lastQueue := s.lastQueue.set p q
    lqAsked := s.lqAsked.set p false
    lqDue := s.lqDue.set p false
    regs := if s.lqNamed p == some q then { s.regs with lqnext := s.regs.lqnext.set p (s.regs.lqnext.get 0 p &&& 0x3F) } else s.regs }

/-- A queue's parser, where its turn has come to the queue, reads the head packet and starts it as `f` says, which is given the
packet's bytes; `f` answers none for a packet that is not of its type. A ring read that waits has been chosen, and goes on as it began (R20,
R329). -/
def State.startHead (s : State) (q : Nat) (f : State → Pkt → List Byte → Option State) : Out :=
  if 64 ≤ q || (!s.reading q && s.lqPick (q / 32) ≠ some q) then .next s
  else
    let begun (s : State) : State := if s.reading q then s else s.startedPkt q
    let va := s.pktVa q
    let faulty (s : State) (va reason : Nat) : Out := .next (s.faultyPkt q va reason)
    if !(decide (6 ≤ (s.regs.lqbase.get 0 q).toNat % 32) && decide ((s.regs.lqbase.get 0 q).toNat % 32 ≤ 16)) then faulty s 0 3
    else
      match s.parserSpot (s.lqDom q) 1 va (peerLoads 64 va) with
      | (.fault .., s') => faulty s' va 4
      | (.absent, s') =>
        .next (s.lqSettle ((begun s').pktWaits { queue := q, bytes := [], done := 0, launch := none, stopped := false, page := none } va))
      | (d, s') =>
        let r := s'.parserRead d va 64
        match pktOf r.1 q (s.lqPrio q) s.launchSeq with
        | .error reason => faulty r.2 va reason
        | .ok p =>
          match f (begun r.2) p r.1 with
          | some t => .next (s.lqSettle t)
          | none => .next s

/-- A packet in progress. -/
def Packet.begun (q : Nat) (b : List Byte) : Packet :=
  { queue := q, bytes := b, done := 0, launch := none, stopped := false, page := none }

/-! ### The packets -/

/-- LAUNCH takes the next launch number; its blocks are dealt by events (R276, R277). Instruction caches hold nothing of before: code that
was written while no block of its launch was resident is read as written (R103; DESIGN CHOICE, log 10). -/
def execLaunchPacket (q : Nat) (s : State) : Out :=
  s.startHead q fun s p b =>
    match p with
    | .launch l =>
      some ({ s with
          launches := s.launches ++ [l], launchSeq := (s.launchSeq + 1) % 2 ^ 16
          cores := s.cores.map fun (e : Nat × CoreSt) => (e.1, { e.2 with icache := [] }) }.setPkt
        { Packet.begun q b with launch := some l.num })
    | .fence _ | .signal .. | .copy .. | .mode .. => none

/-- Whether one test of a fence holds for a counter's value (R276). -/
def fenceHolds (c cmp v : Nat) : Bool :=
  let x := c % 2 ^ 24
  match cmp with
  | 0 => x == v
  | 1 => x != v
  | 2 => decide ((x + 2 ^ 24 - v) % 2 ^ 24 < 2 ^ 23)
  | _ => decide (2 ^ 23 ≤ (x + 2 ^ 24 - v) % 2 ^ 24)

/-- All entries, read in one pass with a queue's domain. A counter that cannot be read does not hold (log 43). -/
def State.fencePass (s : State) (dom : Nat) : List (Nat × Nat × Nat) → Bool × State
  | [] => (true, s)
  | (i, cmp, v) :: rest =>
    let va := s.counterVa i
    match s.parserSpot dom 1 va (peerLoads 8 va) with
    | (.fault .., s) => (false, (State.fencePass s dom rest).2)
    | (.absent, s) => (false, (State.fencePass (s.awaitPage va) dom rest).2)
    | (d, s) =>
      let r := s.parserRead d va 8
      let t := State.fencePass r.2 dom rest
      (fenceHolds (leNat r.1) cmp v && t.1, t.2)

/-- A fence reads its counters: it completes where all entries hold. -/
def State.tryFence (s : State) (q : Nat) (l : List (Nat × Nat × Nat)) : State :=
  let r := s.fencePass (s.lqDom q) l
  if r.1 then r.2.completePkt q else r.2

def execFencePacket (q : Nat) (s : State) : Out :=
  s.startHead q fun s p b =>
    match p with
    | .fence l => some ((s.setPkt (Packet.begun q b)).tryFence q l)
    | .launch _ | .signal .. | .copy .. | .mode .. => none

/-- A parser that has performed a SIGNAL or a launch completion reads the counters of its waiting fences again (R276). -/
def State.recheckFences (s : State) (p : Nat) : State :=
  (s.packets.filter fun x => x.queue / 32 == p && !x.stopped).foldl (fun s x =>
    match pktOf x.bytes x.queue 0 0 with
    | .ok (.fence l) => s.tryFence x.queue l
    | _ => s) s

/-- A waiting fence reads its counters again. -/
def execFencePacketRecheck (q : Nat) (s : State) : Out :=
  match s.pktIn q with
  | none => .next s
  | some p =>
    match pktOf p.bytes q 0 0 with
    | .ok (.fence l) => .next (s.lqSettle (s.tryFence q l))
    | _ => .next s

/-- A SIGNAL's atomic, then its interrupt. -/
def State.runSignal (s : State) (q : Nat) (add int : Bool) (vec idx : Nat) (v : Word) : State :=
  match s.counterAtomic (s.lqDom q) idx add v with
  | (false, s) =>
    match s.pktIn q with
    | some p => s.pktWaits p (s.counterVa idx)
    | none => s
  | (true, s) => (({ s with msix := if int then s.msix ++ [vec] else s.msix }).completePkt q).recheckFences (q / 32)

/-- A SIGNAL starts, or goes on once the page it waited for is there. -/
def execSignalPacket (q : Nat) (s : State) : Out :=
  match s.pktBegun q with
  | some p =>
    match pktOf p.bytes q 0 0 with
    | .ok (.signal add int vec idx v) => .next (if p.page.isSome then s else s.lqSettle (s.runSignal q add int vec idx v))
    | _ => .next s
  | none =>
    s.startHead q fun s p b =>
      match p with
      | .signal add int vec idx v => some ((s.setPkt (Packet.begun q b)).runSignal q add int vec idx v)
      | .launch _ | .fence _ | .copy .. | .mode .. => none

/-- Where one side of a copy stands. -/
def State.copySpot (s : State) (host : Bool) (dom need a : Nat) (ask : List (Nat × PeerOp)) : DevSpot × State :=
  if host then (.here (hostSa a), s) else s.parserSpot dom need a ask
/-- The parser of a queue as an agent whose writes cover units together (`State.cover`). -/
def parserAgent (q : Nat) : Nat := 2 ^ 64 + q

/-- The next piece of a COPY, of at most a sector (R276, R326, R329): poison travels with the bytes (R346). -/
def State.copyPiece (s : State) (p : Packet) (sh dh : Bool) (src dst len : Nat) : State :=
  let a := (src + p.done) % 2 ^ 64
  let b := (dst + p.done) % 2 ^ 64
  let ahead := (b + 2 ^ 64 - a) % 2 ^ 64
  let k := min (min (len - p.done) (min (128 - a % 128) (128 - b % 128))) (if ahead = 0 then 128 else ahead)
  let dom := s.lqDom p.queue
  let bad (s : State) : State := s.faultyPkt p.queue (s.pktVa p.queue) 8
  match s.copySpot sh dom 1 a (peerLoads k a) with
  | (.fault .., s') => bad s'
  | (.absent, s') => s'.pktWaits p a
  | (x, s') =>
    let r := s'.parserRead x a k
    let taint := match x with | .here sa => (r.2.poisonedIn sa k).isSome | .away _ | .fault .. | .absent => false
    match r.2.copySpot dh dom 2 b [(b, .store r.1)] with
    | (.fault .., s') => bad s'
    | (.absent, s') => s'.pktWaits p b
    | (y, s') =>
      let s' := match y with
        | .here sa => s'.spotPut (parserAgent p.queue) b sa r.1 taint
        | .away _ | .fault .. | .absent => s'
      if p.done + k = len then s'.completePkt p.queue else s'.setPkt { p with done := p.done + k }

/-- A COPY starts, or moves its next bytes. -/
def execCopyPacket (q : Nat) (s : State) : Out :=
  match s.pktBegun q with
  | some p =>
    match pktOf p.bytes q 0 0 with
    | .ok (.copy sh dh src dst len) => .next (if p.page.isSome then s else s.lqSettle (s.copyPiece p sh dh src dst len))
    | _ => .next s
  | none =>
    s.startHead q fun s p b =>
      match p with
      | .copy sh dh src dst len =>
        let k := Packet.begun q b
        some ((s.setPkt k).copyPiece k sh dh src dst len)
      | .launch _ | .fence _ | .signal .. | .mode .. => none

/-- MODE changes DMODE under R20 and completes at once. -/
def execModePacket (q : Nat) (s : State) : Out :=
  s.startHead q fun s p _ =>
    match p with
    | .mode mask value =>
      let d := s.regs.dmode.toNat % 64
      let v := (d - (d &&& mask)) + (value &&& mask)
      some ({ s with regs := { s.regs with dmode := BitVec.ofNat 32 v } }.completePkt q)
    | .launch _ | .fence _ | .signal .. | .copy .. => none

/-- A launch is over: the ORPH slots it left are free again (R342), and its number may be used anew. -/
def State.endLaunch (s : State) (n : Nat) : State :=
  { s with
    launches := s.launches.filter fun x => x.num != n
    clusters := s.clusters.map fun (e : Nat × ClusterSt) =>
      (e.1, { e.2 with
        ropeClasses := e.2.ropeClasses.filter fun r => r.foreign.isSome || r.launch != n
        accs := e.2.accs.map fun (a : Nat × AccSlot) => (a.1, if a.2.tag.1 == n then { a.2 with orph := false } else a.2) })
    cores := s.cores.map fun (e : Nat × CoreSt) => (e.1, { e.2 with dicts := e.2.dicts.filter fun d => d.1 != n }) }

/-- A launch completes once its blocks are complete and its writes performed; then DONE is added to (R276). -/
def execLaunchComplete (launch : Nat) (s : State) : Out :=
  match s.launch? launch with
  | none => .next s
  | some l =>
    if l.complete ≠ l.count || s.cmds.any (fun c => c.foreign.isNone && c.launch.toNat == launch)
        || s.late.any (fun w => w.launch == some launch) then .next s
    else
      match (if l.doneEn then s.counterAtomic (s.lqDom l.queue) l.doneIdx true 1 else (true, s)) with
      | (false, s) => .next s
      | (true, s') =>
        .next (s.lqSettle (((s'.endLaunch launch).completePkt l.queue).recheckFences (l.queue / 32)))

end Sys2Proof.Machine
end

