-- ==== Sys2Proof/Machine/MemOps.lean ====
section
/-! DEFINITION. Memory, atomic, SYNC, list and stream instructions (R138 to R152), with the events of full-empty bits and
streams. -/

namespace Sys2Proof.Machine

/-! ### Loads and stores (R139, R140) -/

def sizeOf4 (s : Fin 4) : Nat := 2 ^ s.val
/-- The offset of M format in bytes (R139). -/
def offsetOf (s : Fin 4) (o : BitVec 10) : Word := wordI (o.toInt * (sizeOf4 s : Int))

def loadAcc (va : Word) (size : Nat) (way : Way) : Acc := { va, size, need := 1, way, op := .load size }

def loadAt (va : Word) (s : Fin 4) (way : Way) (signed : Bool) (d : Reg) : M (Option Word) := do
  let a := loadAcc va (sizeOf4 s) way
  let v ← loadFrom a (← access a)
  writeReg d (if signed then sextN (8 * sizeOf4 s) v else wordN v)
  return none

def storeAt (va : Word) (s : Fin 4) (way : Way) (v : Word) : M (Option Word) := do
  let bytes := leBytes (sizeOf4 s) v.toNat
  let a : Acc := { va, size := sizeOf4 s, need := 2, way, op := .store bytes }
  storeTo a (← access a) bytes false
  return none

def execLdn (g : Guard) (s : Fin 4) (o : BitVec 10) (d a : Reg) (st : State) : Out :=
  issue g (do loadAt ((← readReg a) + offsetOf s o) s .pred false d) st
def execLds (g : Guard) (s : Fin 4) (o : BitVec 10) (d a : Reg) (st : State) : Out :=
  issue g (do loadAt ((← readReg a) + offsetOf s o) s .pred true d) st
def execSt (g : Guard) (s : Fin 4) (o : BitVec 10) (d a : Reg) (st : State) : Out :=
  issue g (do
    let x ← readReg a
    storeAt (x + offsetOf s o) s .pred (← readReg d)) st

def ldWay : LdMode → Way
  | .pred => .pred | .stay => .stay | .go => .go | .y => .y | .acq => .y
def stWay : StMode → Way
  | .pred => .pred | .stay => .stay | .go => .go | .y => .y | .rel => .y

/-- a + (b << size). -/
def indexed (s : Fin 4) (a b : Reg) : M Word := do
  let x ← readReg a
  let y ← readReg b
  return x + y <<< s.val

def execLdx (g : Guard) (m : LdMode) (x : Bool) (s : Fin 4) (d a b : Reg) (st : State) : Out :=
  issueStrand g (do loadAt (← indexed s a b) s (ldWay m) x d) st
def execStx (g : Guard) (m : StMode) (s : Fin 4) (d a b : Reg) (st : State) : Out :=
  issueStrand g (do
    let va ← indexed s a b
    storeAt va s (stWay m) (← readReg d)) st

/-! ### Full-empty loads and stores (R141 to R143) -/

/-- The address check of an instruction that needs a scratchpad window (R138, R316): what the map refuses comes first, then the own
window where the instruction forbids it, then any other place. -/
def needPad (va : Word) (own : Bool) : M Unit := do
  let s ← get
  match s.reachOf s.cur.ctx s.core va.toNat with
  | .bad info => trap 4 info va
  | .space | .window .. => pure ()
  match regionOf va.toNat with
  | .scratch .. => pure ()
  | .own _ => if !own then trap 4 6 va
  | .space | .ctrl .. | .window _ | .unmapped => trap 4 5 va

/-- Reach a granule's bytes: the address lies in a scratchpad window (R316). -/
def feAccess (va : Word) (s : Fin 4) (need : Need) (op : PeerOp) : M (Acc × Nat × Nat) := do
  let a : Acc := { va, size := sizeOf4 s, need, way := .stay, op }
  if va.toNat % sizeOf4 s ≠ 0 then trap 3 s.val va
  needPad va true
  let sa := (← access a).sa
  return (a, sa, (granuleOf sa).getD 0)

/-- Wait until a granule's bit is in the state given. -/
def needBit (g : Nat) (full : Bool) : M Unit := do
  if (← get).fullView g ≠ full then waitFor (.fullEmpty g full)

def ldfe (s : Fin 4) (d a b : Reg) (wait take : Bool) : M (Option Word) := do
  let va ← indexed s a b
  let (acc, sa, gr) ← feAccess va s (if take then 3 else 1) (.load (sizeOf4 s))
  if wait then needBit gr true
  let v ← loadFrom acc (.here sa)
  if take then hold (.fullBit gr false)
  writeReg d (wordN v)
  return none

def execLdfeKeep (g : Guard) (s : Fin 4) (d a b : Reg) (st : State) : Out := issueStrand g (ldfe s d a b true false) st
def execLdfeTake (g : Guard) (s : Fin 4) (d a b : Reg) (st : State) : Out := issueStrand g (ldfe s d a b true true) st
def execLdfePeek (g : Guard) (s : Fin 4) (d a b : Reg) (st : State) : Out := issueStrand g (ldfe s d a b false false) st

def stfe (s : Fin 4) (d a b : Reg) (wait : Bool) : M (Option Word) := do
  let va ← indexed s a b
  let bytes := leBytes (sizeOf4 s) (← readReg d).toNat
  let (acc, sa, gr) ← feAccess va s (if wait then 3 else 2) (.store bytes)
  if wait then needBit gr false
  storeTo acc (.here sa) bytes false
  hold (.fullBit gr true)
  return none

def execStfeFill (g : Guard) (s : Fin 4) (d a b : Reg) (st : State) : Out := issueStrand g (stfe s d a b true) st
def execStfeForce (g : Guard) (s : Fin 4) (d a b : Reg) (st : State) : Out := issueStrand g (stfe s d a b false) st
def execStfeClear (g : Guard) (s : Fin 4) (a b : Reg) (st : State) : Out :=
  issueStrand g (do
    let va ← indexed s a b
    let (_, _, gr) ← feAccess va s 2 (.store [])
    hold (.fullBit gr false)
    return none) st

/-- The requests that wait on a granule test its bit again (R143): those that find it as they need it go on. -/
def execFullEmptyRetest (granule : Nat) (s : State) : Out :=
  .next (s.mapSlots fun c k x =>
    match x.wait with
    | some (.fullEmpty g full) =>
      if g = granule && ({ s with core := c, slot := k } : State).fullView g == full then { x with wait := none } else x
    | _ => x)

/-! ### Atomics (R144) -/

/-- The new value of `n` bytes; `c` is the value compared by cas. -/
def atomApply (op : AtomOp) (n old b c : Nat) : Nat × NFlags :=
  let w := 8 * n
  let x := old % 2 ^ w
  let y := b % 2 ^ w
  match op with
  | .add => ((x + y) % 2 ^ w, 0)
  | .min => (if signedOf w x ≤ signedOf w y then x else y, 0)
  | .max => (if signedOf w x ≤ signedOf w y then y else x, 0)
  | .minn => (min x y, 0)
  | .maxn => (max x y, 0)
  | .and => (x &&& y, 0)
  | .or => (x ||| y, 0)
  | .xor => (x ^^^ y, 0)
  | .swap => (y, 0)
  | .cas => (if x = c % 2 ^ w then y else x, 0)
  | .fadd => f32Add x y

/-- What d receives of the old value (R144). -/
def atomExtend (op : AtomOp) (n old : Nat) : Word :=
  match op with
  | .minn | .maxn | .fadd => wordN old
  | .add | .min | .max | .and | .or | .xor | .swap | .cas => sextN (8 * n) old

def atWay : AtMode → Way
  | .dev => .stay | .y => .y | .acq => .y | .rel => .y

def atom (op : AtomOp) (md : AtMode) (n : Nat) (d a b : Reg) : M (Option Word) := do
  let va ← readReg a
  let y ← readReg b
  let c ← if op = .cas then readReg d else pure 0
  let acc : Acc := { va, size := n, need := 9, way := atWay md, op := .atom op n y c }
  let p ← access acc
  let old ← loadFrom acc p
  let r := atomApply op n old y.toNat c.toNat
  storeTo acc p (leBytes n r.1) true
  raise r.2
  writeReg d (atomExtend op n old)
  return none

/-- 4 or 8 bytes. -/
def size48 (z : Bool) : Nat := if z then 8 else 4

def execAtomAdd (g : Guard) (md : AtMode) (z : Bool) (d a b : Reg) (s : State) : Out :=
  issueStrand g (atom .add md (size48 z) d a b) s
def execAtomMin (g : Guard) (md : AtMode) (z : Bool) (d a b : Reg) (s : State) : Out :=
  issueStrand g (atom .min md (size48 z) d a b) s
def execAtomMax (g : Guard) (md : AtMode) (z : Bool) (d a b : Reg) (s : State) : Out :=
  issueStrand g (atom .max md (size48 z) d a b) s
def execAtomMinn (g : Guard) (md : AtMode) (z : Bool) (d a b : Reg) (s : State) : Out :=
  issueStrand g (atom .minn md (size48 z) d a b) s
def execAtomMaxn (g : Guard) (md : AtMode) (z : Bool) (d a b : Reg) (s : State) : Out :=
  issueStrand g (atom .maxn md (size48 z) d a b) s
def execAtomAnd (g : Guard) (md : AtMode) (z : Bool) (d a b : Reg) (s : State) : Out :=
  issueStrand g (atom .and md (size48 z) d a b) s
def execAtomOr (g : Guard) (md : AtMode) (z : Bool) (d a b : Reg) (s : State) : Out :=
  issueStrand g (atom .or md (size48 z) d a b) s
def execAtomXor (g : Guard) (md : AtMode) (z : Bool) (d a b : Reg) (s : State) : Out :=
  issueStrand g (atom .xor md (size48 z) d a b) s
def execAtomSwap (g : Guard) (md : AtMode) (z : Bool) (d a b : Reg) (s : State) : Out :=
  issueStrand g (atom .swap md (size48 z) d a b) s
def execAtomCas (g : Guard) (md : AtMode) (z : Bool) (d a b : Reg) (s : State) : Out :=
  issueStrand g (atom .cas md (size48 z) d a b) s
def execAtomFaddF32 (g : Guard) (md : AtMode) (d a b : Reg) (s : State) : Out :=
  issueStrand g (atom .fadd md 4 d a b) s

/-! ### Commutative updates (R56, R145) -/

def CupdOp.atomOp : CupdOp → AtomOp
  | .add => .add | .min => .min | .max => .max | .or => .or | .fadd => .fadd

/-- The update is held with its chunk, its line joining the write signature of the commit. One to the host's memory is
combined there (R286). -/
def cupd (op : CupdOp) (n : Nat) (a b : Reg) : M (Option Word) := do
  let va ← readReg a
  let y ← readReg b
  let acc : Acc := { va, size := n, need := 8, way := .stay, op := .cupd op.atomOp n y, upd := true }
  if va.toNat % n ≠ 0 then trap 3 (bitLen (n - 1)) va
  match regionOf va.toNat with
  | .space => pure ()
  | .scratch .. | .own _ | .ctrl .. => trap 4 2 va
  | .window _ => trap 4 1 va
  | .unmapped => trap 4 0 va
  match ← access acc with
  | .peer _ => return none
  | .here sa =>
    if 2 ^ 64 ≤ sa then
      let old ← loadFrom acc (.here sa)
      storeTo acc (.here sa) (leBytes n (op.apply n old y.toNat)) true
    else
      let line := lineOf va.toNat
      let c := (← get).cur.chunk
      if !c.written.contains line && decide (32 ≤ c.written.length) && c.count ≠ 0 then endBefore
      modify fun s => s.modChunk fun c =>
        { c with upds := insertNat line c.upds, conflict := c.conflict || c.seen.contains line }
      hold (.cupd sa va.toNat op n (y.toNat % 2 ^ (8 * n)))
    return none

def execCupdAdd (g : Guard) (z : Bool) (a b : Reg) (s : State) : Out := issueStrand g (cupd .add (size48 z) a b) s
def execCupdMin (g : Guard) (z : Bool) (a b : Reg) (s : State) : Out := issueStrand g (cupd .min (size48 z) a b) s
def execCupdMax (g : Guard) (z : Bool) (a b : Reg) (s : State) : Out := issueStrand g (cupd .max (size48 z) a b) s
def execCupdOr (g : Guard) (z : Bool) (a b : Reg) (s : State) : Out := issueStrand g (cupd .or (size48 z) a b) s
def execCupdFaddF32 (g : Guard) (a b : Reg) (s : State) : Out := issueStrand g (cupd .fadd 4 a b) s

/-! ### Waiting for streams and engines (R66) -/

/-- Whether the chunk holds elements of a write stream. -/
def Chunk.holdsStream (c : Chunk) (p : Fin 4 → Bool) : Bool :=
  c.held.any fun h => match h with | .streamOut t _ => p t | _ => false

/-- Wait until the elements written to the streams selected have been performed. Elements that the chunk still holds enter
their buffer at its commit, so the chunk ends first (DEDUCED, log 30). -/
def drainStreams (p : Fin 4 → Bool) : M Unit := do
  let x := (← get).cur
  let sel := (List.finRange 4).filter p
  sel.forM fun t =>
    match x.streams[t] with
    | some st => if st.write then streamReport t st else pure ()
    | none => pure ()
  if x.chunk.holdsStream p then endBefore
  if sel.any fun t => match x.streams[t] with | some st => st.write && !st.buf.isEmpty | none => false then
    waitFor .streamDrain

/-! ### The SYNC group (R66, R146, R147) -/

def execFence (g : Guard) (sc : Scope) (s : State) : Out :=
  issueStrand g (do
    if sc = .y then ownChunk
    drainStreams fun _ => true
    modify fun s => s.modCur fun x =>
      { x with streams := x.streams.map fun o => o.map fun t => if t.write then t else { t with buf := [] } }
    if sc ≠ .s then
      let s ← get
      let ids := s.pendingOf s.cur.ctx.strandId
      if !s.fenced sc s.core ids then waitFor (.fence ids sc)
    return none) s

def execCend (g : Guard) (s : State) : Out :=
  issueStrand g (do
    endAfter
    return none) s

/-- The core that serves an address (R147). -/
def State.serves (s : State) (core va : Nat) : Word :=
  match regionOf va with
  | .space => wordN (s.homeOf va)
  | .scratch c _ => wordN c
  | .own _ => wordN core
  | .ctrl .. | .window _ | .unmapped => BitVec.allOnes 64

def execHome (g : Guard) (d a : Reg) (s : State) : Out :=
  issueStrand g (do
    let va ← readReg a
    let s ← get
    writeReg d (s.serves s.core va.toNat)
    return none) s

def execMigr (g : Guard) (a : Reg) (s : State) : Out :=
  issueStrand g (do
    let va := (← readReg a).toNat
    let s ← get
    let h := s.homeOf va
    if decide (va < 2 ^ 56) && h ≠ s.core && s.mayMove h then
      stop (.after fun s => (s.modCtx fun x => { x with pc := s.cur.nextPc }).migrateTo h h 3)
    return none) s

def execStay (g : Guard) (s : State) : Out :=
  issueStrand g (do
    modify fun s => s.modCur fun x => { x with predN := 0 }
    return none) s

/-! ### Lists (R148, R149) -/

def nullLink : Nat := 0xFFFFFFFF

/-- A granule of a list: reached, checked, and its storage address answered (R138, R148, R316). -/
def listGranule (va : Word) : M Nat := do
  if va.toNat % 16 ≠ 0 then trap 3 4 va
  needPad va false
  return (← access { va, size := 16, need := 9, way := .stay, op := .load 16 }).sa

def linkGranule (off : Nat) : M Nat := listGranule (wordN (scratchBase + off))

/-- A 32-bit field of a granule, as the chunk sees it. -/
def getField (sa k : Nat) : M Nat := do
  return (← get).view.readNat (sa + 4 * k) 4
def setField (sa k v : Nat) : M Unit := hold (.store (sa + 4 * k) (sa + 4 * k) (leBytes 4 v) true)
def offOf (sa : Nat) : Nat := sa - scratchBase

/-- Take the record at `rec` off the list whose head stands at `hd`: its granules are reached first, the one before it and then the one after
it (DESIGN CHOICE, log 104). -/
def unlink (rec hd : Nat) : M Unit := do
  let nxt ← getField rec 0
  let prv ← getField rec 1
  let p ← if prv = nullLink then pure none else some <$> linkGranule prv
  let n ← if nxt = nullLink then pure none else some <$> linkGranule nxt
  match p with
  | none => setField hd 0 nxt
  | some p => setField p 0 nxt
  match n with
  | none => setField hd 1 prv
  | some n => setField n 1 prv
  setField hd 2 ((← getField hd 2) + 2 ^ 32 - 1)

def execLinit (g : Guard) (a : Reg) (s : State) : Out :=
  issueStrand g (do
    let hd ← listGranule (← readReg a)
    setField hd 0 nullLink
    setField hd 1 nullLink
    setField hd 2 0
    return none) s

/-- Of several granules that are refused, the first of these is reported: the record, the destination's head, the old list's head, the record's
neighbours, the destination's last record: DESIGN CHOICE (log 104). -/
def execLmove (g : Guard) (d a b : Reg) (s : State) : Out :=
  issueStrand g (do
    let x ← readReg a
    let y ← readReg b
    let rec' ← listGranule x
    let dest ← listGranule y
    let head ← getField rec' 2
    if head ≠ nullLink then unlink rec' (← linkGranule head)
    let last ← getField dest 1
    setField rec' 1 last
    setField rec' 0 nullLink
    setField rec' 2 (offOf dest)
    if last = nullLink then setField dest 0 (offOf rec')
    else setField (← linkGranule last) 0 (offOf rec')
    setField dest 1 (offOf rec')
    setField dest 2 ((← getField dest 2) + 1)
    writeReg d (if head = nullLink then 0 else wordN (scratchBase + head))
    return none) s

def execLpop (g : Guard) (d a : Reg) (s : State) : Out :=
  issueStrand g (do
    let hd ← listGranule (← readReg a)
    let first ← getField hd 0
    if first = nullLink then writeReg d 0
    else
      let rec' ← linkGranule first
      unlink rec' hd
      setField rec' 2 nullLink
      setField rec' 0 nullLink
      setField rec' 1 nullLink
      writeReg d (wordN (scratchBase + first))
    return none) s

/-! ### Streams (R150 to R152) -/

/-- A stream bound to a descriptor's five words, or none where R324's reason 3 holds: a reserved bit set, a count product
above 2^48, or a base or a stride that misaligns an element. -/
def Stream.ofWords (w : List Nat) : Option Stream :=
  let base := w.getD 0 0
  let f := w.getD 1 0
  let size := 2 ^ (f % 4)
  let counts : Vector Nat 4 := Vector.ofFn fun i => bitsOf (w.getD 2 0) (16 * i.val + 15) (16 * i.val) + 1
  let strides : Vector Int 4 := Vector.ofFn fun i =>
    signedOf 32 (bitsOf (w.getD (3 + i.val / 2) 0) (32 * (i.val % 2) + 31) (32 * (i.val % 2)))
  let t : Stream :=
    { base := wordN base, size, write := bitOf f 2, counts, strides, pos := 0, buf := [], seqs := [], drained := 0, refused := none,
      absent := none, tainted := none, gen := 0, sent := false }
  if decide (8 ≤ f) || decide (2 ^ 48 < t.total) || base % size ≠ 0
      || (List.finRange 4).any (fun i => decide (1 < counts[i]) && strides[i] % (size : Int) ≠ 0) then none
  else some t

/-- A bound stream is freed (R151): a write stream's elements are performed first. -/
def freeStream (t : Fin 4) : M Unit := do
  if ((← get).cur.streams[t]).isSome then
    drainStreams (· == t)
    modify fun s =>
      let s := s.setStream t none
      s.modCtx fun x => { x with pins := s.cur.streams.any Option.isSome }

def execStbind (g : Guard) (t : Fin 4) (a : Reg) (s : State) : Out :=
  issueStrand g (do
    let va ← readReg a
    if va.toNat % 8 ≠ 0 then trap 3 3 va
    let w ← (List.range 5).mapM fun i => do
      let acc := loadAcc (va + wordN (8 * i)) 8 (if i = 0 then .pred else .stay)
      loadFrom acc (← access acc)
    match Stream.ofWords w with
    | none => streamTrap t 3 va
    | some st =>
      freeStream t
      modify fun s =>
        ({ s with ticket := s.ticket + 1 }.setStream t (some { st with gen := s.ticket })).modCtx fun x => { x with pins := true }
      return none) s

def execStfree (g : Guard) (t : Fin 4) (s : State) : Out :=
  issueStrand g (do
    freeStream t
    return none) s

/-- The status word of R151: the buffer holds sixteen elements, and what one chunk has committed beyond them stands behind it. -/
def Stream.status (t : Stream) : Word :=
  wordN (bitLen (t.size - 1) * 2 ^ 56 + t.write.toNat * 2 ^ 55 + 2 ^ 54 + min t.buf.length 16 * 2 ^ 49
    + (t.total - t.pos) % 2 ^ 49)

/-- Of an unbound stream every field reads 0: DESIGN CHOICE (log 103). -/
def execStstat (g : Guard) (t : Fin 4) (d : Reg) (s : State) : Out :=
  issueStrand g (do
    match (← get).cur.streams[t] with
    | none => writeReg d 0
    | some st =>
      if st.write then streamReport t st
      writeReg d st.status
    return none) s

/-- The next element of a read stream arrives in its buffer (R59, R74). One that cannot be read is left until an instruction
waits for it, which then traps or parks at it (R324, R329, R346). An element on a peer's page is asked of the peer by the
instruction that waits for it, and comes with the event's reply. -/
def execStreamElementArrival (core slot : Nat) (t : Fin 4) (s : State) : Out :=
  let x := s.slotAt core slot
  match x.streams[t] with
  | none => .next s
  | some st =>
    let k := st.pos + st.buf.length
    if st.write || decide (16 ≤ st.buf.length) || decide (st.total ≤ k) then .next s
    else
      let va := (st.addr k).toNat
      let waits := x.wait == some (.streamEmpty t) && st.buf.isEmpty
      if s.switches va then .next s else
      match s.elemSpot x.ctx core va st.size 1 with
      | (.here sa, s') =>
        let r := s'.spotRead va sa st.size
        .next (r.2.modSlot core slot fun y =>
          { y with streams := y.streams.set t (some { st with buf := st.buf ++ [wordN (leNat r.1)] }) })
      | (.fault cause info, _) =>
        if waits then
          ({ s with core, slot } : State).settle (.after fun s => s.takeTrap cause info (st.addr k) s.cur.ctx.pc)
        else .next s
      | (.absent, _) =>
        if waits then
          ({ s with core, slot } : State).settle (.after fun s => s.parkPage va)
        else .next s
      | (.poisoned u, _) =>
        if waits then
          ({ s with core, slot } : State).settle (.after fun s => s.parkUnit u va)
        else .next s
      | (.away dev, s') =>
        if waits && s'.linkDown dev then
          ({ s with core, slot } : State).settle (.after fun s => s.parkDown va)
        else if waits then
          .next (({ s' with core, slot } : State).waitOn
            (.peer dev { va, size := st.size, need := 1, op := .load st.size }))
        else .next s

/-- An element of a write stream is performed: one at another core's line is logged there as a store of the chunk that committed it (R61,
R64; DEDUCED, log 91). -/
def State.landElement (s : State) (core slot : Nat) (commit : BitVec 32) (va sa : Nat) (bytes : List Byte) : State :=
  let s := s.spotWrite va sa bytes
  let home := s.homeOf va
  if decide (va < 2 ^ 56) && home != core then s.traceEntry home core slot commit va 0 bytes.length else s

/-- The oldest committed element of a write stream is performed at its home (R59, R152, R324, R329), a guarded granule waited for (R196).
One of a peer's page goes out as a request, while traffic passes, holds as at an absent page where the link is down (R355), and leaves the buffer once it has been performed there (R66); the
owner may refuse it for a right (log 16). -/
def execStreamDrain (core slot : Nat) (t : Fin 4) (s : State) : Out :=
  let x := s.slotAt core slot
  match x.streams[t] with
  | none => .next s
  | some st =>
    match st.buf with
    | [] => .next s
    | w :: rest =>
      let va := (st.addr st.drained).toNat
      let bytes := leBytes st.size w.toNat
      let put (s : State) (st : Stream) : State :=
        s.modSlot core slot fun y => { y with streams := y.streams.set t (some st) }
      let done : Stream := { st with buf := rest, seqs := st.seqs.drop 1, drained := st.drained + 1, sent := false }
      if !st.write || st.refused.isSome || s.switches va then .next s
      else
        match s.elemSpot x.ctx core va st.size 2 with
        | (.here sa, s') =>
          if s'.cmds.any fun m => m.guardsRange sa bytes.length then .next s
          else .next (put (s'.landElement core slot (st.seqs.headD 0) va sa bytes) done)
        | (.fault cause info, s') => .next (put s' { done with refused := some (cause, info, st.addr st.drained) })
        | (.absent, s') => .next (put s' { st with absent := some va })
        | (.poisoned u, s') => .next (put s' { st with tainted := some u })
        | (.away dev, s') =>
          if st.sent then
            let b := s'.drawBit
            .next (put b.2 (if b.1 then { done with refused := some (5, 2, st.addr st.drained) } else done))
          else if s'.linkDown dev then .next (put s' { st with absent := some va })
          else if s'.linkStalled dev then .next s
          else
            .next (put (s'.sendPeer dev va (x.ctx.tdom.toNat % 4096) (.store bytes)) { st with sent := true })

/-- Before a reset empties it, the elements that the chunks of a slot have put into its write streams are performed, in order, where their pages
are there (R293). -/
def State.landStreams (s : State) (core slot : Nat) (x : Slot) : State :=
  (x.streams.toList.filterMap fun o => o.filter fun st => st.write && st.refused.isNone).foldl (fun (s : State) (st : Stream) =>
    ((List.range st.buf.length).zip st.buf).foldl (fun (s : State) (e : Nat × Word) =>
      let va := (st.addr (st.drained + e.1)).toNat
      let bytes := leBytes st.size e.2.toNat
      match s.elemSpot x.ctx core va st.size 2 with
      | (.here sa, s) => s.landElement core slot (st.seqs.getD e.1 0) va sa bytes
      | (.away dev, s) => if st.sent && e.1 == 0 then s else s.sendPeer dev va (x.ctx.tdom.toNat % 4096) (.store bytes)
      | (.fault .., s) | (.absent, s) | (.poisoned _, s) => s) s) s

end Sys2Proof.Machine
end

