-- ==== Sys2Proof/Machine/Scalar.lean ====
section
/-! DEFINITION. Scalar instructions (R117 to R136): integer arithmetic, immediates, predicates, bit fields, division, branches,
floating point, conversions and special functions, with the events of the units the core's slots share. -/

namespace Sys2Proof.Machine

/-! ### Shapes -/

/-- An operation at either width: with `.w` on the low 32 bits, the result sign-extended from bit 31 (R118). -/
def atWidth1 (w : Bool) (f : (n : Nat) → BitVec n → BitVec n) (x : Word) : Word :=
  if w then (f 32 (x.setWidth 32)).signExtend 64 else f 64 x
def atWidth2 (w : Bool) (f : (n : Nat) → BitVec n → BitVec n → BitVec n) (x y : Word) : Word :=
  if w then (f 32 (x.setWidth 32) (y.setWidth 32)).signExtend 64 else f 64 x y

/-- d = f(a, b), read in the order of R107. -/
def op2 (f : Word → Word → Word) (d a b : Reg) : M (Option Word) := do
  let x ← readReg a
  let y ← readReg b
  writeReg d (f x y)
  return none
def op1 (f : Word → Word) (d a : Reg) : M (Option Word) := do
  let x ← readReg a
  writeReg d (f x)
  return none
/-- d = f(d, a, b), with d read after a and b. -/
def op3 (f : Word → Word → Word → Word) (d a b : Reg) : M (Option Word) := do
  let x ← readReg a
  let y ← readReg b
  let z ← readReg d
  writeReg d (f z x y)
  return none

/-! ### Integer functions (R118) -/

def aluAdd (n : Nat) (x y : BitVec n) : BitVec n := x + y
def aluSub (n : Nat) (x y : BitVec n) : BitVec n := x - y
def aluAnd (n : Nat) (x y : BitVec n) : BitVec n := x &&& y
def aluOr (n : Nat) (x y : BitVec n) : BitVec n := x ||| y
def aluXor (n : Nat) (x y : BitVec n) : BitVec n := x ^^^ y
def aluAndn (n : Nat) (x y : BitVec n) : BitVec n := x &&& ~~~y
def aluOrn (n : Nat) (x y : BitVec n) : BitVec n := x ||| ~~~y
def aluSll (n : Nat) (x y : BitVec n) : BitVec n := x <<< (y.toNat % n)
def aluSrl (n : Nat) (x y : BitVec n) : BitVec n := x >>> (y.toNat % n)
def aluSra (n : Nat) (x y : BitVec n) : BitVec n := x.sshiftRight (y.toNat % n)
def aluRol (n : Nat) (x y : BitVec n) : BitVec n := x.rotateLeft (y.toNat % n)
def aluRor (n : Nat) (x y : BitVec n) : BitVec n := x.rotateRight (y.toNat % n)
def aluMin (n : Nat) (x y : BitVec n) : BitVec n := if x.slt y then x else y
def aluMax (n : Nat) (x y : BitVec n) : BitVec n := if x.slt y then y else x
def aluMinn (n : Nat) (x y : BitVec n) : BitVec n := if x.ult y then x else y
def aluMaxn (n : Nat) (x y : BitVec n) : BitVec n := if x.ult y then y else x
def aluMul (n : Nat) (x y : BitVec n) : BitVec n := x * y
def aluMulh (n : Nat) (x y : BitVec n) : BitVec n := BitVec.ofInt n (x.toInt * y.toInt / (2 : Int) ^ n)
def aluMulhn (n : Nat) (x y : BitVec n) : BitVec n := BitVec.ofNat n (x.toNat * y.toNat / 2 ^ n)
/-- Leading zeros, trailing zeros, ones. -/
def aluClz (n : Nat) (x : BitVec n) : BitVec n := BitVec.ofNat n (n - bitLen x.toNat)
def trailingZeros : Nat → Nat → Nat
  | 0, _ => 0
  | k + 1, v => if v % 2 = 1 then 0 else 1 + trailingZeros k (v / 2)
def aluCtz (n : Nat) (x : BitVec n) : BitVec n := BitVec.ofNat n (trailingZeros n x.toNat)
def onesIn : Nat → Nat → Nat
  | 0, _ => 0
  | k + 1, v => v % 2 + onesIn k (v / 2)
def aluPopc (n : Nat) (x : BitVec n) : BitVec n := BitVec.ofNat n (onesIn n x.toNat)
/-- Digits of `v` in base `2^w`, `k` of them, in reverse order. -/
def reverseDigits (w : Nat) : Nat → Nat → Nat → Nat
  | 0, _, r => r
  | k + 1, v, r => reverseDigits w k (v / 2 ^ w) (r * 2 ^ w + v % 2 ^ w)
def aluBrev (n : Nat) (x : BitVec n) : BitVec n := BitVec.ofNat n (reverseDigits 1 n x.toNat 0)
def aluBswap (n : Nat) (x : BitVec n) : BitVec n := BitVec.ofNat n (reverseDigits 8 (n / 8) x.toNat 0)
def extWidth : ExtW → Nat
  | .w8 => 8 | .w16 => 16 | .w32 => 32
def aluSext (k : ExtW) (n : Nat) (x : BitVec n) : BitVec n := (x.setWidth (extWidth k)).signExtend n
def aluZext (k : ExtW) (n : Nat) (x : BitVec n) : BitVec n := (x.setWidth (extWidth k)).setWidth n

def execAdd (g : Guard) (w : Bool) (d a b : Reg) (s : State) : Out := issue g (op2 (atWidth2 w aluAdd) d a b) s
def execSub (g : Guard) (w : Bool) (d a b : Reg) (s : State) : Out := issue g (op2 (atWidth2 w aluSub) d a b) s
def execAnd (g : Guard) (w : Bool) (d a b : Reg) (s : State) : Out := issue g (op2 (atWidth2 w aluAnd) d a b) s
def execOr (g : Guard) (w : Bool) (d a b : Reg) (s : State) : Out := issue g (op2 (atWidth2 w aluOr) d a b) s
def execXor (g : Guard) (w : Bool) (d a b : Reg) (s : State) : Out := issue g (op2 (atWidth2 w aluXor) d a b) s
def execAndn (g : Guard) (w : Bool) (d a b : Reg) (s : State) : Out := issue g (op2 (atWidth2 w aluAndn) d a b) s
def execOrn (g : Guard) (w : Bool) (d a b : Reg) (s : State) : Out := issue g (op2 (atWidth2 w aluOrn) d a b) s
def execSll (g : Guard) (w : Bool) (d a b : Reg) (s : State) : Out := issue g (op2 (atWidth2 w aluSll) d a b) s
def execSrl (g : Guard) (w : Bool) (d a b : Reg) (s : State) : Out := issue g (op2 (atWidth2 w aluSrl) d a b) s
def execSra (g : Guard) (w : Bool) (d a b : Reg) (s : State) : Out := issue g (op2 (atWidth2 w aluSra) d a b) s
def execRol (g : Guard) (w : Bool) (d a b : Reg) (s : State) : Out := issue g (op2 (atWidth2 w aluRol) d a b) s
def execRor (g : Guard) (w : Bool) (d a b : Reg) (s : State) : Out := issue g (op2 (atWidth2 w aluRor) d a b) s
def execMin (g : Guard) (w : Bool) (d a b : Reg) (s : State) : Out := issue g (op2 (atWidth2 w aluMin) d a b) s
def execMax (g : Guard) (w : Bool) (d a b : Reg) (s : State) : Out := issue g (op2 (atWidth2 w aluMax) d a b) s
def execMinn (g : Guard) (w : Bool) (d a b : Reg) (s : State) : Out := issue g (op2 (atWidth2 w aluMinn) d a b) s
def execMaxn (g : Guard) (w : Bool) (d a b : Reg) (s : State) : Out := issue g (op2 (atWidth2 w aluMaxn) d a b) s
def execMul (g : Guard) (w : Bool) (d a b : Reg) (s : State) : Out := issue g (op2 (atWidth2 w aluMul) d a b) s
def execMulh (g : Guard) (w : Bool) (d a b : Reg) (s : State) : Out := issue g (op2 (atWidth2 w aluMulh) d a b) s
def execMulhn (g : Guard) (w : Bool) (d a b : Reg) (s : State) : Out := issue g (op2 (atWidth2 w aluMulhn) d a b) s
def execClz (g : Guard) (w : Bool) (d a : Reg) (s : State) : Out := issue g (op1 (atWidth1 w aluClz) d a) s
def execCtz (g : Guard) (w : Bool) (d a : Reg) (s : State) : Out := issue g (op1 (atWidth1 w aluCtz) d a) s
def execPopc (g : Guard) (w : Bool) (d a : Reg) (s : State) : Out := issue g (op1 (atWidth1 w aluPopc) d a) s
def execBrev (g : Guard) (w : Bool) (d a : Reg) (s : State) : Out := issue g (op1 (atWidth1 w aluBrev) d a) s
def execBswap (g : Guard) (w : Bool) (d a : Reg) (s : State) : Out := issue g (op1 (atWidth1 w aluBswap) d a) s
def execSext (g : Guard) (w : Bool) (n : ExtW) (d a : Reg) (s : State) : Out := issue g (op1 (atWidth1 w (aluSext n)) d a) s
def execZext (g : Guard) (w : Bool) (n : ExtW) (d a : Reg) (s : State) : Out := issue g (op1 (atWidth1 w (aluZext n)) d a) s

/-! ### Immediates (R119 to R121) -/

def execAddi (g : Guard) (d a : Reg) (i : BitVec 12) (s : State) : Out := issue g (op1 (fun x => aluAdd 64 x (i.signExtend 64)) d a) s
def execAndi (g : Guard) (d a : Reg) (i : BitVec 12) (s : State) : Out := issue g (op1 (fun x => aluAnd 64 x (i.signExtend 64)) d a) s
def execOri (g : Guard) (d a : Reg) (i : BitVec 12) (s : State) : Out := issue g (op1 (fun x => aluOr 64 x (i.signExtend 64)) d a) s
def execXori (g : Guard) (d a : Reg) (i : BitVec 12) (s : State) : Out := issue g (op1 (fun x => aluXor 64 x (i.signExtend 64)) d a) s
def execShiSll (g : Guard) (w : Bool) (d a : Reg) (i : BitVec 6) (s : State) : Out :=
  issue g (op1 (fun x => atWidth2 w aluSll x (i.setWidth 64)) d a) s
def execShiSrl (g : Guard) (w : Bool) (d a : Reg) (i : BitVec 6) (s : State) : Out :=
  issue g (op1 (fun x => atWidth2 w aluSrl x (i.setWidth 64)) d a) s
def execShiSra (g : Guard) (w : Bool) (d a : Reg) (i : BitVec 6) (s : State) : Out :=
  issue g (op1 (fun x => atWidth2 w aluSra x (i.setWidth 64)) d a) s
def execShiRol (g : Guard) (w : Bool) (d a : Reg) (i : BitVec 6) (s : State) : Out :=
  issue g (op1 (fun x => atWidth2 w aluRol x (i.setWidth 64)) d a) s
def execShiRor (g : Guard) (w : Bool) (d a : Reg) (i : BitVec 6) (s : State) : Out :=
  issue g (op1 (fun x => atWidth2 w aluRor x (i.setWidth 64)) d a) s
def execLi (g : Guard) (d : Reg) (i : BitVec 17) (s : State) : Out :=
  issue g (do writeReg d (i.signExtend 64); return none) s
/-- d = (d << 17) OR imm17, d read as a source first. -/
def execLis (g : Guard) (d : Reg) (i : BitVec 17) (s : State) : Out :=
  issue g (op1 (fun x => (x <<< 17) ||| i.setWidth 64) d d) s

/-! ### Predicates (R122 to R125) -/

def compare (n : ICond) (w : Bool) (x y : Word) : Bool :=
  if w then n.holds (x.setWidth 32) (y.setWidth 32) else n.holds x y
def execCmp (g : Guard) (c : Combine) (n : ICond) (w : Bool) (p : Fin 16) (a b : Reg) (s : State) : Out :=
  issue g (do
    let x ← readReg a
    let y ← readReg b
    setPred c p (compare n w x y)
    return none) s
def execCmpi (g : Guard) (c : Combine) (n : ICond) (w : Bool) (p : Fin 16) (a : Reg) (i : BitVec 7) (s : State) : Out :=
  issue g (do
    let x ← readReg a
    setPred c p (compare n w x (i.signExtend 64))
    return none) s
/-- A predicate from two predicates. -/
def predOp (f : Bool → Bool → Bool) (d a b : Fin 16) : M (Option Word) := do
  let x ← getPred a
  let y ← getPred b
  setPred .set d (f x y)
  return none
def execPand (g : Guard) (d a b : Fin 16) (s : State) : Out := issue g (predOp (· && ·) d a b) s
def execPor (g : Guard) (d a b : Fin 16) (s : State) : Out := issue g (predOp (· || ·) d a b) s
def execPxor (g : Guard) (d a b : Fin 16) (s : State) : Out := issue g (predOp (· ^^ ·) d a b) s
def execPnot (g : Guard) (d a : Fin 16) (s : State) : Out := issue g (predOp (fun x _ => !x) d a a) s
def execPget (g : Guard) (d : Reg) (s : State) : Out :=
  issue g (do
    writeReg d (((← get).cur.ctx.pred ||| 1).setWidth 64)
    return none) s
def execPset (g : Guard) (a : Reg) (s : State) : Out :=
  issue g (do
    let x ← readReg a
    modify fun s => s.modCtx fun c => { c with pred := x.setWidth 16 ||| 1 }
    return none) s
/-- Both sources are read whatever the predicate holds. -/
def execSel (g : Guard) (p : Fin 16) (d a b : Reg) (s : State) : Out :=
  issue g (do
    let x ← readReg a
    let y ← readReg b
    let c ← getPred p
    writeReg d (if c then x else y)
    return none) s

/-! ### Three-input logic and bit fields (R126, R127) -/

/-- Per bit, table[4d + 2a + b]: the disjunction of the table's minterms. -/
def ternary {n : Nat} (t : BitVec 8) (d a b : BitVec n) : BitVec n :=
  (List.range 8).foldl (fun r k =>
    if t.getLsbD k then
      r ||| ((if k / 4 % 2 = 1 then d else ~~~d) &&& (if k / 2 % 2 = 1 then a else ~~~a)
        &&& (if k % 2 = 1 then b else ~~~b))
    else r) 0
def execTern (g : Guard) (t : BitVec 8) (d a b : Reg) (s : State) : Out := issue g (op3 (ternary t) d a b) s
/-- Position and width of a bit field. -/
def fieldPos (y : Word) : Nat := bitsOf y.toNat 5 0
def fieldWidth (y : Word) : Nat := bitsOf y.toNat 13 8 + 1
def bitField (x y : Word) : Word := wordN (x.toNat / 2 ^ fieldPos y % 2 ^ fieldWidth y)
def bitFieldSigned (x y : Word) : Word := sextN (fieldWidth y) (x.toNat / 2 ^ fieldPos y)
def bitFieldInsert (z x y : Word) : Word :=
  let mask : Word := wordN ((2 ^ fieldWidth y - 1) * 2 ^ fieldPos y)
  (z &&& ~~~mask) ||| ((x <<< fieldPos y) &&& mask)
def execBfx (g : Guard) (d a b : Reg) (s : State) : Out := issue g (op2 bitField d a b) s
def execBfxs (g : Guard) (d a b : Reg) (s : State) : Out := issue g (op2 bitFieldSigned d a b) s
def execBfi (g : Guard) (d a b : Reg) (s : State) : Out := issue g (op3 bitFieldInsert d a b) s

/-! ### Division (R128) -/

def divS (n : Nat) (x y : BitVec n) : BitVec n :=
  if y = 0 then BitVec.allOnes n else BitVec.ofInt n (x.toInt.tdiv y.toInt)
def divU (n : Nat) (x y : BitVec n) : BitVec n :=
  if y = 0 then BitVec.allOnes n else BitVec.ofNat n (x.toNat / y.toNat)
def remS (n : Nat) (x y : BitVec n) : BitVec n :=
  if y = 0 then x else BitVec.ofInt n (x.toInt - x.toInt.tdiv y.toInt * y.toInt)
def remU (n : Nat) (x y : BitVec n) : BitVec n :=
  if y = 0 then x else BitVec.ofNat n (x.toNat % y.toNat)

/-- Which shared unit an operation goes to. -/
inductive SharedUnit where | divider | sfu
deriving DecidableEq, Repr

/-- Hand an operation to a unit shared by the core's slots: it is served in order of issue, its slot leaves the ready set, and
its result and flags are written when it completes. A result for a queue or a stream is put at issue, where its entry is
reserved (R158). The control core has each result at once (R281). -/
def toUnit (u : SharedUnit) (d : Reg) (v : Word) (f : NFlags) : M Unit := do
  let s ← get
  if s.isCtrl then writeReg d v
  else
    if (regIndex d).isNone then writeReg d v
    let o : UnitOp := { slot := s.slot, dst := if (regIndex d).isNone then .z else d, value := v, flags := f }
    modify fun s => s.modCore s.core fun k =>
      match u with
      | .divider => { k with divQ := k.divQ ++ [o] }
      | .sfu => { k with sfuQ := k.sfuQ ++ [o] }
    modify fun s => s.modCur fun x =>
      { x with wait := some (match x.wait with
          | some w => w
          | none => match u with | .divider => .divider | .sfu => .sfu) }

def divOp (f : Word → Word → Word) (d a b : Reg) : M (Option Word) := do
  let x ← readReg a
  let y ← readReg b
  toUnit .divider d (f x y) 0
  return none

def execDiv (g : Guard) (w : Bool) (d a b : Reg) (s : State) : Out := issue g (divOp (atWidth2 w divS) d a b) s
def execDivn (g : Guard) (w : Bool) (d a b : Reg) (s : State) : Out := issue g (divOp (atWidth2 w divU) d a b) s
def execRem (g : Guard) (w : Bool) (d a b : Reg) (s : State) : Out := issue g (divOp (atWidth2 w remS) d a b) s
def execRemn (g : Guard) (w : Bool) (d a b : Reg) (s : State) : Out := issue g (divOp (atWidth2 w remU) d a b) s

/-- A shared unit writes a finished result, and its slot is ready again. -/
def UnitOp.finish (o : UnitOp) (c : Nat) (s : State) : State :=
  s.modSlot c o.slot fun x =>
    { x with
      wait := none
      ctx := { x.ctx with
        gpr := match regIndex o.dst with
          | some n => x.ctx.gpr.set n o.value
          | none => x.ctx.gpr
        tmode := x.ctx.tmode ||| (o.flags &&& flAll) } }

/-- The divider completes the operation it serves. -/
def execDivideComplete (core : Nat) (s : State) : Out :=
  match (s.coreAt core).divQ with
  | [] => .next s
  | o :: rest => .next (o.finish core (s.modCore core fun k => { k with divQ := rest }))

/-! ### Branches (R116, R129) -/

/-- A transfer of control: a gang's follower takes its leader's target, or, where the leader has trapped at the transfer, its own trap
there (R34, R311); a target that is odd, outside the translated space, or whose entry is malformed traps at the transfer (R312; DEDUCED,
log 29). -/
def jumpTo (t : Word) : M (Option Word) := do
  let s ← get
  if s.isCtrl || (s.cur.isFollower && !s.cur.gbuf.head?.any (·.faulted)) then return some t
  if t.toNat % 2 = 1 then trap 2 0 t
  else if 2 ^ 56 ≤ t.toNat then trap 2 1 t
  else if (s.tcFind (dieOf s.core) t.toNat).isNone && s.walk t.toNat == .malformed then trap 2 2 t
  else return some t
/-- The target of BR and BL: the unit's address + 2 × off22. -/
def branchTarget (pc : Word) (o : BitVec 22) : Word := pc + (o.signExtend 64 <<< 1)
def execBr (g : Guard) (o : BitVec 22) (s : State) : Out :=
  issue g (do jumpTo (branchTarget (← get).cur.ctx.pc o)) s
def execBl (g : Guard) (o : BitVec 22) (s : State) : Out :=
  issue g (do
    let s ← get
    writeReg (.m 15) s.cur.nextPc
    jumpTo (branchTarget s.cur.ctx.pc o)) s
def execJmp (g : Guard) (a : Reg) (s : State) : Out := issue g (do jumpTo (← readReg a)) s
def execJmpl (g : Guard) (d a : Reg) (s : State) : Out :=
  issue g (do
    let t ← readReg a
    writeReg d (← get).cur.nextPc
    jumpTo t) s

/-! ### Floating point (R130 to R133) -/

/-- The low bits of a register that hold a float. -/
def lowBits (F : FFmt) (x : Word) : Nat := x.toNat % 2 ^ F.width

/-- d = f(a, b) in a format, its flags raised, subnormal operands served by the normaliser. -/
def fop2 (F : FFmt) (f : Bool → Nat → Nat → Nat × NFlags) (d a b : Reg) : M (Option Word) := do
  let x ← readReg a
  let y ← readReg b
  let ftz := (← get).cur.ctx.ftz
  let r := f ftz (lowBits F x) (lowBits F y)
  normalise (subnormals F ftz [lowBits F x, lowBits F y])
  raise r.2
  writeReg d (wordN r.1)
  return none
def fop1 (F : FFmt) (f : Bool → Nat → Nat × NFlags) (d a : Reg) : M (Option Word) := do
  let x ← readReg a
  let ftz := (← get).cur.ctx.ftz
  let r := f ftz (lowBits F x)
  normalise (subnormals F ftz [lowBits F x])
  raise r.2
  writeReg d (wordN r.1)
  return none
/-- The rounding mode of an instruction in a state. -/
def State.mode (s : State) (r : Rnd) : RMode := s.cur.ctx.mode r

def execFadd (g : Guard) (r : Rnd) (t : FType) (d a b : Reg) (s : State) : Out :=
  issueStrand g (fop2 t.fmt (t.fmt.add (s.mode r)) d a b) s
def execFsub (g : Guard) (r : Rnd) (t : FType) (d a b : Reg) (s : State) : Out :=
  issueStrand g (fop2 t.fmt (t.fmt.sub (s.mode r)) d a b) s
def execFmul (g : Guard) (r : Rnd) (t : FType) (d a b : Reg) (s : State) : Out :=
  issueStrand g (fop2 t.fmt (t.fmt.mul (s.mode r)) d a b) s
def execFmin (g : Guard) (t : FType) (d a b : Reg) (s : State) : Out :=
  issueStrand g (fop2 t.fmt (t.fmt.minmax false) d a b) s
def execFmax (g : Guard) (t : FType) (d a b : Reg) (s : State) : Out :=
  issueStrand g (fop2 t.fmt (t.fmt.minmax true) d a b) s
def execFabs (g : Guard) (t : FType) (d a : Reg) (s : State) : Out :=
  issueStrand g (fop1 t.fmt (fun z x => t.fmt.setSign z x fun _ => false) d a) s
def execFneg (g : Guard) (t : FType) (d a : Reg) (s : State) : Out :=
  issueStrand g (fop1 t.fmt (fun z x => t.fmt.setSign z x fun n => !n) d a) s
/-- The sign is b's own sign bit. -/
def execFcpys (g : Guard) (t : FType) (d a b : Reg) (s : State) : Out :=
  issueStrand g (fop2 t.fmt (fun z x y => t.fmt.setSign z x fun _ => decide (t.fmt.signBit ≤ y)) d a b) s
def execFclass (g : Guard) (t : FType) (d a : Reg) (s : State) : Out :=
  issueStrand g (fop1 t.fmt (fun z x => (t.fmt.classMask z x, 0)) d a) s
/-- d = a × b + d, d read last. -/
def execFma (g : Guard) (r : Rnd) (t : FType) (d a b : Reg) (s : State) : Out :=
  issueStrand g (do
    let F := t.fmt
    let x ← readReg a
    let y ← readReg b
    let z ← readReg d
    let c := (← get).cur.ctx
    let v := F.fma (c.mode r) c.ftz (lowBits F x) (lowBits F y) (lowBits F z)
    normalise (subnormals F c.ftz [lowBits F x, lowBits F y, lowBits F z])
    raise v.2
    writeReg d (wordN v.1)
    return none) s
def execFcmp (g : Guard) (c : Combine) (n : FCond) (t : FType) (p : Fin 16) (a b : Reg) (s : State) : Out :=
  issueStrand g (do
    let F := t.fmt
    let x ← readReg a
    let y ← readReg b
    let ftz := (← get).cur.ctx.ftz
    let v := F.cmp n ftz (lowBits F x) (lowBits F y)
    normalise (subnormals F ftz [lowBits F x, lowBits F y])
    raise v.2
    setPred c p v.1
    return none) s

/-! ### Conversions (R134, R135) -/

/-- Subnormal operands of a type: tapered and integer types have none. -/
def NumTypeSub (t : NumType) (ftz : Bool) (x : Word) : Nat :=
  match t.float? with
  | some F => subnormals F ftz [lowBits F x]
  | none => 0
def execCvt (g : Guard) (r : Rnd) (x t : NumType) (d a : Reg) (s : State) : Out :=
  issueStrand g (do
    let v ← readReg a
    let c := (← get).cur.ctx
    let q := convert x t (c.mode r) c.ftz v.toNat
    normalise (NumTypeSub t c.ftz v)
    raise q.2
    writeReg d (wordN q.1)
    return none) s
/-- q to d, then the residual to b. -/
def execCvte (g : Guard) (r : Rnd) (x : NarrowType) (d a b : Reg) (s : State) : Out :=
  issueStrand g (do
    let v ← readReg a
    let c := (← get).cur.ctx
    let q := convertWithResidual x (c.mode r) c.ftz (lowBits fmtF32 v)
    normalise (subnormals fmtF32 c.ftz [lowBits fmtF32 v])
    raise q.2.2
    writeReg d (wordN q.1)
    writeReg b (wordN q.2.1)
    return none) s

/-! ### Special functions (R99, R136) -/

def sfuOp (f : SFn) (d a : Reg) : M (Option Word) := do
  let x ← readReg a
  let ftz := (← get).cur.ctx.ftz
  let r := special f fmtF32 ftz (lowBits fmtF32 x)
  normalise (subnormals fmtF32 ftz [lowBits fmtF32 x])
  toUnit .sfu d (wordN r.1) r.2
  return none

def execRcp (g : Guard) (d a : Reg) (s : State) : Out := issueStrand g (sfuOp .rcp d a) s
def execRsq (g : Guard) (d a : Reg) (s : State) : Out := issueStrand g (sfuOp .rsq d a) s
def execSqrt (g : Guard) (d a : Reg) (s : State) : Out := issueStrand g (sfuOp .sqrt d a) s
def execLog2 (g : Guard) (d a : Reg) (s : State) : Out := issueStrand g (sfuOp .log2 d a) s
def execExp2 (g : Guard) (d a : Reg) (s : State) : Out := issueStrand g (sfuOp .exp2 d a) s
def execSin (g : Guard) (d a : Reg) (s : State) : Out := issueStrand g (sfuOp .sin d a) s
def execCos (g : Guard) (d a : Reg) (s : State) : Out := issueStrand g (sfuOp .cos d a) s
def execTanh (g : Guard) (d a : Reg) (s : State) : Out := issueStrand g (sfuOp .tanh d a) s
def execSigm (g : Guard) (d a : Reg) (s : State) : Out := issueStrand g (sfuOp .sigm d a) s

/-- The special-function unit completes the oldest operation whose operand the normaliser does not still hold. -/
def execSfuComplete (core : Nat) (s : State) : Out :=
  let q := s.coreAt core
  match q.sfuQ with
  | [] => .next s
  | o :: rest =>
    if q.normQ.contains o.slot then .next s
    else .next (o.finish core (s.modCore core fun k => { k with sfuQ := rest }))

/-- The normaliser serves one operand of the slot that arrived first (R24); after its last operand the slot goes on, to the
special-function unit where its instruction is one of that unit's. -/
def execNormaliserService (core : Nat) (s : State) : Out :=
  match (s.coreAt core).normQ with
  | [] => .next s
  | k :: rest =>
    if 16 ≤ k then
      .next ((s.modCore core fun q => { q with normQ := rest }).modSlot core (k - 16) fun x => { x with vnorm := x.vnorm - 1 })
    else
    match (s.slotAt core k).wait with
    | some (.normaliser (n + 2)) => .next (s.modSlot core k fun x => { x with wait := some (.normaliser (n + 1)) })
    | some (.normaliser _) =>
      let sfu := (s.coreAt core).sfuQ.any fun o => o.slot == k
      let s := s.modCore core fun q => { q with normQ := rest }
      .next (s.modSlot core k fun x => { x with wait := if sfu then some .sfu else none })
    | _ => .next (s.modCore core fun q => { q with normQ := rest })

end Sys2Proof.Machine
end

