-- ==== Sys2Proof/Machine/Parallel.lean ====
section
/-! DEFINITION. Parallel work and synchronisation (R158 to R176): forking, futures, slots, gangs, barriers, mailboxes, work
queues, traps, control registers and loop counts, with their events. -/

namespace Sys2Proof.Machine

/-! ### New strands (R27, R160) -/

/-- Contexts that a chunk holds for strands not yet started. -/
def Held.contexts : Held → List Ctx
  | .fork c _ | .slstart _ c => [c]
  | _ => []
def Slot.contexts (x : Slot) : List Ctx :=
  (if x.occ == .running then [x.ctx] else []) ++ x.chunk.held.flatMap Held.contexts
def CoreSave.contexts (g : CoreSave) : List Ctx :=
  g.slots.flatMap (fun e => e.2.contexts) ++ g.deque ++ g.parkStore.map fun p => p.slot.ctx

/-- Ids of live strands: in slots, deques, park stores and arrival buffers, in dens and spill rings, and with peers. -/
def State.liveIds (s : State) : List (BitVec 32) :=
  (s.slots.flatMap (fun e => e.2.contexts)
      ++ s.cores.flatMap (fun e =>
        e.2.deque ++ e.2.parkStore.map (fun p => p.slot.ctx) ++ e.2.arrivals.map fun a => a.ctx)
      ++ s.blocks.flatMap (fun b => match b.place with
        | .waiting _ (some d) | .den d => d.cores.flatMap CoreSave.contexts
        | .waiting _ none | .running _ => [])
      ++ (s.shipped.map fun p => p.2.2).filter fun x => x.foreign.isNone).map (fun x => x.strandId)
    ++ s.blocks.flatMap fun b => b.spillSide.map fun p => p.id

/-- A new strand's id: the next number that no live strand has. DESIGN CHOICE (log 15). -/
def State.newId (s : State) : BitVec 32 × State :=
  let live := s.liveIds
  let n := ((List.range (live.length + 1)).find? fun i => !live.contains (BitVec.ofNat 32 (s.strandSeq + i))).getD 0
  (BitVec.ofNat 32 (s.strandSeq + n), { s with strandSeq := s.strandSeq + n + 1 })

def takeId : M (BitVec 32) := do
  let r := (← get).newId
  set r.2
  return r.1

/-- A strand built from its creator's context (R160). The flags that state what a strand is doing are clear: DEDUCED from R26
(log 31). -/
def Ctx.child (x : Ctx) (pc : Word) (id : BitVec 32) (future : Word) : Ctx :=
  { x with
    pc, strandId := id, future, tmode := x.childTmode, pinq := false, pins := false, pinv := false, intrap := false,
    leader := false, gang := false, parked := false, lane := 0, gsz := 0, fseq := none }

/-! ### Futures (R159 to R163) -/

/-- Reach a future's granule: aligned, and in the translated space or a per-core scratchpad window. -/
def futureAccess (va : Word) (need : Need) (way : Way) (op : PeerOp) (off : Nat) : M (Acc × Spot) := do
  if va.toNat % 16 ≠ 0 then trap 3 4 va
  match regionOf va.toNat with
  | .space | .scratch .. | .window _ | .unmapped => pure ()
  | .own _ => trap 4 6 va
  | .ctrl .. => trap 4 2 va
  let a : Acc := { va, size := 16, need, way, op, off }
  return (a, ← access a)

/-- Places of a core's deque, and of a block's spill ring, that uncommitted FORKs hold (R160). -/
def forksHeld (spill : Bool) (s : State) (cores : List Nat) : Nat :=
  cores.foldl (fun n c =>
    (List.range 16).foldl (fun n k =>
      n + ((s.slotAt c k).chunk.held.filter fun h => match h with | .fork _ b => b == spill | _ => false).length) n) 0

/-- Where a FORK reserves its child's place: the deque (`false`) or the spill ring (`true`); none where both are full. -/
def State.forkPlace (s : State) (c : Nat) : Option Bool :=
  if (s.coreAt c).deque.length + forksHeld false s [c] < 64 then some false
  else
    match s.blockAt c with
    | none => none
    | some b =>
      match s.launch? b.launch, b.base? with
      | some l, some base =>
        if b.spilled + forksHeld true s ((List.range l.cores).map (base + ·)) < 2 ^ l.spl then some true else none
      | _, _ => none

def execFork (g : Guard) (d a b : Reg) (s : State) : Out :=
  issueStrand g (do
    let pc ← readReg a
    let fut ← readReg b
    let s ← get
    let parent := s.cur.ctx
    match s.forkPlace s.core with
    | none => trap 9 0 0
    | some spill =>
      if b ≠ .z then
        let r ← futureAccess fut 8 .stay .clear 8
        match r.2 with
        | .here sa => storeTo { r.1 with va := fut + 8 } (.here (sa + 8)) (leBytes 8 0) true
        | .peer _ => pure ()
      let id ← takeId
      hold (.fork (parent.child pc id fut) spill)
      writeReg d (wordN id.toNat)
      return none) s

/-- The owner of a future on a peer's page reads its 16 bytes as one access, and answers its value, or that it is empty. -/
def execFget (g : Guard) (d a : Reg) (s : State) : Out :=
  issueStrand g (do
    let va ← readReg a
    let r ← futureAccess va 1 .pred .fget 0
    match r.2 with
    | .here sa =>
      let v := leNat (← readAt va sa 16)
      if bitOf v 64 then writeReg d (wordN v) else trap 7 0 va
    | .peer v => writeReg d v
    return none) s

/-- Fill a future with a value, or raise the future-full trap (R162). -/
def fillFuture (va v : Word) : M Unit := do
  let r ← futureAccess va 8 .stay (.fput v) 0
  match r.2 with
  | .here sa =>
    let old := leNat (← readAt va sa 16)
    if bitOf old 64 then trap 8 0 va
    storeTo r.1 r.2 (leBytes 8 v.toNat ++ leBytes 8 1) true
  | .peer old => if bitOf old.toNat 0 then trap 8 0 va

def execFput (g : Guard) (a b : Reg) (s : State) : Out :=
  issueStrand g (do
    let va ← readReg a
    fillFuture va (← readReg b)
    return none) s

def execExit (g : Guard) (a : Reg) (s : State) : Out :=
  issueStrand g (do
    let v ← readReg a
    if !(← get).cur.svuQ.isEmpty then waitFor .svu
    drainStreams fun _ => true
    let fut := (← get).cur.ctx.future
    if fut ≠ 0 then fillFuture fut v
    hold .exit
    endAfter
    return none) s

/-- Whether YIELD leaves the strand in its slot (R164). -/
def State.staysAtYield (s : State) : Bool :=
  s.cur.ctx.pinned || (s.manualOf s.cur.ctx && decide (s.slot ≠ 0))

def execYield (g : Guard) (s : State) : Out :=
  issueStrand g (do
    let s ← get
    let t ← if s.cur.ctx.intrap then do
        let t ← jumpTo s.eret.1
        set s.eret.2
        pure t
      else pure none
    if !s.staysAtYield then hold .yield
    endAfter
    return t) s

/-! ### Slots (R165) -/

def allOnes : Word := BitVec.allOnes 64

/-- The slot a register value names. -/
def slotNamed (a : Reg) : M Nat := do return (← readReg a).toNat % 16

/-- A start of the slot that the chunk already holds, and that has not committed, has taken it. -/
def Chunk.starts (c : Chunk) (n : Nat) : Bool := c.held.any fun h => match h with | .slstart k _ => k == n | _ => false

/-- SLSTART and SLREAP belong to slot 0 of a manual block's core. -/
def headSlot : M Unit := do
  let s ← get
  if !s.manualCore s.core then trap 0xB 0 0
  if s.slot ≠ 0 then trap 0xB 1 0

/-- The state of a slot is that of the commits performed (R165). A second SLSTART of one slot in a chunk, whose first has reserved it as a
put reserves its entry, starts nothing (DESIGN CHOICE, log 67). -/
def execSlstart (g : Guard) (d a b : Reg) (s : State) : Out :=
  issueStrand g (do
    let n ← slotNamed a
    let pc ← readReg b
    headSlot
    let s ← get
    if n ≠ 0 && s.idleSlot s.core n && !s.cur.chunk.starts n then
      let id ← takeId
      hold (.slstart n (s.cur.ctx.child pc id 0))
      writeReg d (wordN id.toNat)
    else writeReg d allOnes
    return none) s

def execSlreap (g : Guard) (d a : Reg) (s : State) : Out :=
  issueStrand g (do
    let n ← slotNamed a
    headSlot
    let s ← get
    let y := s.slotAt s.core n
    if y.occ == .finished then
      hold (.slreap n)
      writeReg d (wordN y.ctx.strandId.toNat)
    else writeReg d allOnes
    return none) s

/-- Whether a slot's strand is parked: a whole gang parks with one member (R331). -/
def State.parkedAt (s : State) (c k : Nat) : Bool :=
  let x := s.slotAt c k
  x.ctx.parked || (x.ctx.gang && (x.ctx.gangCores c).any fun e => (s.slotAt e k).ctx.gang && (s.slotAt e k).ctx.parked)

/-- State code of a slot: 0 empty, 1 ready, 2 waiting, 3 parked, 4 finished. -/
def State.slotCode (s : State) (c k : Nat) : Nat :=
  let x := s.slotAt c k
  match x.occ with
  | .empty | .reserved .. => 0
  | .finished => 4
  | .running =>
    if s.parkedAt c k then 3
    else
      match x.wait with
      | none => if x.vnorm = 0 then 1 else 2
      | some w => if s.waitOver c k w && x.vnorm == 0 then 1 else 2

def execSlquery (g : Guard) (d a : Reg) (s : State) : Out :=
  issueStrand g (do
    let n ← slotNamed a
    let s ← get
    let code := s.slotCode s.core n
    writeReg d (if code = 0 then 0 else wordN (code * 2 ^ 32 + (s.slotAt s.core n).ctx.strandId.toNat))
    return none) s

/-- A wake that names the strand by a[31:0] is sent at commit (R166). -/
def execWake (g : Guard) (a : Reg) (s : State) : Out :=
  issueStrand g (do
    hold (.wake ((← readReg a).setWidth 32))
    return none) s

/-- A wake message is delivered (R166, R334). -/
def execWakeMessage (n : Nat) (s : State) : Out :=
  match s.wakes[n]? with
  | none => .next s
  | some w =>
    let s := { s with wakes := s.wakes.eraseIdx n }
    .next (s.wakeWhere fun x =>
      x.ctx.strandId == w.id && (match w.launch with | some l => x.ctx.launch == l | none => true))

/-! ### Gangs (R34, R167) -/


/-- The other cores of the aligned group of n that contains a core. -/
def gangOthers (n c : Nat) : List Nat := ((List.range n).map (c / n * n + ·)).filter fun d => d != c

/-- The gang forms (R34): the leader in the current slot, its followers in the reserved slots. It forms inside the leader's chunk (R375);
no chunk of a follower commits before that one (log 95). The GANG itself goes to no follower. -/
def State.formGang (s : State) (n : Nat) : State :=
  let k := s.slot
  let base := s.core / n * n
  let y := s.cur
  let x : Ctx := { y.ctx with gang := true, pinv := true, leader := true, lane := s.core - base, gsz := bitLen (n - 1) }
  let s := s.modCur fun y => { y with ctx := x, gseq := 0, gskip := 1, chunk := { y.chunk with formed := true } }
  (gangOthers n s.core).foldl (fun s c =>
    let r := s.newId
    (r.2.place c k
      { x with pc := y.nextPc, leader := false, lane := c - base, strandId := r.1, future := 0, pinq := false, pins := false,
               intrap := false, fseq := none } 0 0).modSlot c k fun z => { z with formedBy := some (16 * s.core + k) }) s

def execGang (g : Guard) (n : GangN) (s : State) : Out :=
  issueStrand g (do
    let s ← get
    let x := s.cur.ctx
    if x.gang then trap 0xA 0 0
    let others := gangOthers (gangSize n) s.core
    if !others.all (fun c => s.ownCore x c) || !s.ownCore x s.core then trap 0xA 1 0
    if !others.all (fun c => (s.slotAt c s.slot).occ == .reserved s.core s.slot) then waitFor .gang
    modify fun s => s.formGang (gangSize n)
    return none) s

/-- A slot reserved by an uncommitted SLSTART is not empty for a gang. -/
def State.slotFree (s : State) (c k : Nat) : Bool :=
  (s.slotAt c k).occ == .empty
    && !(s.slotAt c 0).chunk.held.any fun h => match h with | .slstart n _ => n == k | _ => false


/-- A waiting GANG reserves the slots it needs as they become empty; once it holds all, it goes on. -/
def execGangFormation (core slot : Nat) (s : State) : Out :=
  let x := s.slotAt core slot
  match x.wait, x.unit with
  | some .gang, .instr (.gang _ n) =>
    let others := gangOthers (gangSize n) core
    let s := others.foldl (fun s c =>
      if s.slotFree c slot then s.modSlot c slot fun y => { y with occ := .reserved core slot } else s) s
    if others.all fun c => (s.slotAt c slot).occ == .reserved core slot then
      .next (s.modSlot core slot fun x => { x with wait := none })
    else .next s
  | _, _ => .next s

/-- Each member leaves the gang once it has issued the UNGANG (R34). Where members' guards differ, the leader's decides for all, as it does
for a branch: DESIGN CHOICE (log 106). -/
def execUngang (g : Guard) (s : State) : Out :=
  issueStrand g (do
    if (← get).cur.ctx.gang && (← get).cur.ctx.leader then modify fun s => s.modCur fun x => { x with releasing := true }
    return none) s

/-! ### Barriers (R168, R169) -/

/-- Reach a barrier's granule. -/
def barrierAccess (va : Word) (ro : Bool) : M Nat := do
  if va.toNat % 16 ≠ 0 then trap 3 4 va
  match regionOf va.toNat with
  | .space | .scratch .. | .window _ | .unmapped => pure ()
  | .own _ => trap 4 6 va
  | .ctrl .. => trap 4 2 va
  let p ← access { va, size := 16, need := 8, way := .stay, op := .load 8, own := true, ro }
  let _ ← readAt va p.sa 16
  return p.sa

/-- A barrier's fields: MEMBERS, ARRIVED, GEN at 0, 1, 2 of its granule. -/
structure Bar where
  members : Nat
  arrived : Nat
  gen : Nat
deriving DecidableEq, Repr
def getBar (sa : Nat) : M Bar := do
  return { members := ← getField sa 0, arrived := ← getField sa 1, gen := ← getField sa 2 }
/-- The granule is written as one access; bytes 12 to 15 stay. -/
def setBar (va : Word) (sa : Nat) (b : Bar) : M Unit := do
  let rest ← getField sa 3
  hold (.store sa va.toNat (leBytes 4 b.members ++ leBytes 4 b.arrived ++ leBytes 4 b.gen ++ leBytes 4 rest) true)

/-- ARRIVED is 0 and the generation moves on. -/
def Bar.next (b : Bar) : Bar := { b with arrived := 0, gen := (b.gen + 1) % 2 ^ 32 }
def Bar.arrive (b : Bar) : Bar := if b.members ≤ b.arrived + 1 then b.next else { b with arrived := (b.arrived + 1) % 2 ^ 32 }
def Bar.leave (b : Bar) : Bar :=
  let b := { b with members := b.members - 1 }
  if 0 < b.arrived && decide (b.members ≤ b.arrived) then b.next else b

def execBarinit (g : Guard) (a b : Reg) (s : State) : Out :=
  issueStrand g (do
    let va ← readReg a
    let n ← readReg b
    let sa ← barrierAccess va false
    setBar va sa { (← getBar sa) with members := n.toNat % 2 ^ 32, arrived := 0 }
    return none) s

def execBararr (g : Guard) (d a : Reg) (s : State) : Out :=
  issueStrand g (do
    let va ← readReg a
    let sa ← barrierAccess va false
    let b ← getBar sa
    setBar va sa b.arrive
    writeReg d (wordN b.gen)
    return none) s

def execBarwait (g : Guard) (a b : Reg) (s : State) : Out :=
  issueStrand g (do
    let va ← readReg a
    let gen := (← readReg b).toNat % 2 ^ 32
    ownChunk
    let sa ← barrierAccess va true
    if (← getField sa 2) = gen then waitFor (.barrier sa gen)
    return none) s

/-- A waiting BARWAIT sees the generation as it stands in T. -/
def execBarrierRelease (core slot : Nat) (s : State) : Out :=
  match (s.slotAt core slot).wait with
  | some (.barrier sa gen) =>
    if s.mem.readNat (sa + 8) 4 = gen then .next s
    else .next (s.modSlot core slot fun x => { x with wait := none })
  | _ => .next s

def execBarleave (g : Guard) (a : Reg) (s : State) : Out :=
  issueStrand g (do
    let va ← readReg a
    let sa ← barrierAccess va false
    setBar va sa (← getBar sa).leave
    return none) s

/-! ### Mailboxes (R170, R171) -/

def execSend (g : Guard) (a b : Reg) (s : State) : Out :=
  issueStrand g (do
    let x ← readReg a
    let w ← readReg b
    let c := x.toNat / 16 % 512
    let s ← get
    if !s.sameLaunch s.cur.ctx c then trap 4 4 x
    if !s.sendRoom s.core then waitFor .outbound
    hold (.send c (x.toNat % 16) w)
    return none) s

/-- Messages of a mailbox that uncommitted RECVs hold. -/
def State.mboxTaken (s : State) (c n : Nat) : Nat :=
  (List.range 16).foldl (fun t k =>
    t + ((s.slotAt c k).taken.filter fun e => match e with | .mbox m _ => m == n | _ => false).length) 0

/-- Where a message goes (R340): the core of the same ordinal of the block it was sent to. -/
def State.msgCore (s : State) (m : Msg) : Option Nat :=
  match m.blk with
  | none => some m.core
  | some (l, b, o) =>
    match s.block? l b with
    | some blk => blk.base?.map (· + o)
    | none => some m.core

/-- The den in which a block waits. -/
def Block.denOf (b : Block) : Option Den :=
  match b.place with
  | .waiting _ d => d
  | .running _ => none
  | .den d => some d
def Block.setDen (b : Block) (d : Den) : Block :=
  match b.place with
  | .waiting k _ => { b with place := .waiting k (some d) }
  | .running _ => b
  | .den _ => { b with place := .den d }

/-- The mailbox a message is for: a core's, or that of a den's core. -/
def State.msgBox (s : State) (m : Msg) : Option Nat × Option (Nat × Nat × Nat) × Nat :=
  match s.msgCore m with
  | some d => (some d, none, m.mbox)
  | none => (none, m.blk, m.mbox)

/-- A message enters its mailbox, or the den's, if none for that mailbox was committed earlier and still waits, in any core's buffer (R170),
and the mailbox has room. -/
def execMailboxDelivery (core n : Nat) (s : State) : Out :=
  let q := (s.coreAt core).outbound
  match q[n]? with
  | none => .next s
  | some m =>
    let sent (s : State) : State := s.modCore core fun k => { k with outbound := k.outbound.eraseIdx n }
    let before (e : Msg) : Bool := decide (e.since < m.since) && s.msgBox e == s.msgBox m
    if s.cores.any fun e => e.2.outbound.any before then .next s
    else
      match s.msgCore m with
      | some d =>
        if ((s.coreAt d).mboxes.get [] m.mbox).length + s.mboxTaken d m.mbox < 8 then
          .next ((sent s).modCore d fun k => { k with mboxes := k.mboxes.set m.mbox (k.mboxes.get [] m.mbox ++ [m.w]) })
        else .next s
      | none =>
        match m.blk with
        | none => .next s
        | some (l, b, o) =>
          match (s.block? l b).bind Block.denOf with
          | none => .next s
          | some den =>
            match den.cores[o]? with
            | none => .next s
            | some c =>
              if (c.mboxes.get [] m.mbox).length < 8 then
                let c' := { c with mboxes := c.mboxes.set m.mbox (c.mboxes.get [] m.mbox ++ [m.w]) }
                .next ((sent s).modBlock l b fun x => x.setDen { den with cores := den.cores.set o c' })
              else .next s

/-- Claimants of one queue are served in order of issue: how many wait before the current slot. -/
def myTicket (s : State) : Nat := s.cur.ticket.getD s.ticket

def execRecv (g : Guard) (d a : Reg) (s : State) : Out :=
  issueStrand g (do
    let n := (← readReg a).toNat % 16
    let s ← get
    let q := (s.coreAt s.core).mboxes.get [] n
    match s.cur.kept, q with
    | .mbox _ w :: _, _ =>
      modify fun s => s.modCur fun x => { x with kept := x.kept.drop 1 }
      writeReg d w
      endAfter
      return none
    | _, [] => waitFor (.mailbox n)
    | _, w :: rest =>
      if q.length ≤ s.ahead s.core (.mailbox n) (myTicket s) then waitFor (.mailbox n)
      modify fun s =>
        (s.modCore s.core fun k => { k with mboxes := k.mboxes.set n rest }).modChunk fun c =>
          { c with takes := c.takes ++ [.mbox n w] }
      writeReg d w
      endAfter
      return none) s

def execMbstat (g : Guard) (d a : Reg) (s : State) : Out :=
  issueStrand g (do
    let n := (← readReg a).toNat % 16
    let s ← get
    let waiting := (List.range 16).any fun k => (s.slotAt s.core k).wait == some (.mailbox n)
    writeReg d (wordN (((s.coreAt s.core).mboxes.get [] n).length % 16 + 16 * waiting.toNat))
    return none) s

/-- Entries of a downstream queue cross the hop (R172). -/
def execNqHop (core : Nat) (s : State) : Out := .next (s.nqCross core)

/-! ### Work queues and turns (R173) -/

def execWqput (g : Guard) (a b : Reg) (s : State) : Out :=
  issueStrand g (do
    let n := (← readReg a).toNat % 16
    let w ← readReg b
    let s ← get
    if !s.wqRoom (clusterOf s.core) n then waitFor (.wqFull n)
    hold (.wqput n w)
    return none) s

def execWqget (g : Guard) (d a : Reg) (s : State) : Out :=
  issueStrand g (do
    let n := (← readReg a).toNat % 16
    let s ← get
    let cl := clusterOf s.core
    let q := (s.clusterAt cl).wqs.get [] n
    match s.cur.kept, q with
    | .wq _ w :: _, _ =>
      modify fun s => s.modCur fun x => { x with kept := x.kept.drop 1 }
      writeReg d w
      return none
    | _, [] => waitFor (.wqEmpty n)
    | _, w :: rest =>
      if q.length ≤ s.aheadCluster cl (.wqEmpty n) (myTicket s) then waitFor (.wqEmpty n)
      modify fun s =>
        (s.modCluster cl fun u => { u with wqs := u.wqs.set n rest }).modChunk fun c =>
          { c with takes := c.takes ++ [.wq n w] }
      writeReg d w
      return none) s

def execWqlen (g : Guard) (d a : Reg) (s : State) : Out :=
  issueStrand g (do
    let n := (← readReg a).toNat % 16
    let s ← get
    writeReg d (wordN ((s.clusterAt (clusterOf s.core)).wqs.get [] n).length)
    return none) s

def execTurn (g : Guard) (t : BitVec 15) (s : State) : Out :=
  issueStrand g (do
    hold (.turn t.toNat)
    return none) s

def execTurnReg (g : Guard) (a : Reg) (s : State) : Out :=
  issueStrand g (do
    hold (.turn ((← readReg a).toNat % 2 ^ 32))
    return none) s

/-! ### Traps and control registers (R174, R175) -/

def execTrap (g : Guard) (c : BitVec 15) (s : State) : Out := issueStrand g (trapAfter 0xC c.toNat 0) s

def execEret (g : Guard) (s : State) : Out :=
  issueStrand g (do
    let s ← get
    if !s.cur.ctx.intrap then trap 1 6 s.cur.ctx.pc
    let t ← jumpTo s.eret.1
    set s.eret.2
    return t) s

def execBrk (g : Guard) (s : State) : Out := issueStrand g (trap 0xD 0 0) s

/-- The value of a control register. -/
def State.ctrlReg (s : State) (n : CtrlReg) : Word :=
  let x := s.cur
  let l := s.launchOf x.ctx
  match n with
  | .tmode => wordN (tmodeRead x.ctx.tmode).toNat
  | .tdom => wordN (tdomRead x.ctx.tdom).toNat
  | .flags => wordN x.ctx.flags
  | .tepc => x.tepc
  | .tcause => x.tcause
  | .taddr => x.taddr
  | .tvec => ((l.map (·.tvec)).getD 0) &&& ~~~1
  | .tfut => ((l.map (·.tfut)).getD 0) &&& ~~~1
  | .strandid => wordN x.ctx.strandId.toNat
  | .cycle => wordN (s.coreAt s.core).cycle

def execCrd (g : Guard) (n : CtrlReg) (d : Reg) (s : State) : Out :=
  issueStrand g (do
    writeReg d ((← get).ctrlReg n)
    return none) s

/-- Only TMODE and TEPC have fields that a write changes. -/
def execCwr (g : Guard) (n : CtrlReg) (d : Reg) (s : State) : Out :=
  issueStrand g (do
    let v ← readReg d
    match n with
    | .tmode => modify fun s => s.modCtx fun x => { x with tmode := writeTmode x.tmode (v.setWidth 32) }
    | .tepc => modify fun s => s.modCur fun x => { x with tepc := v &&& ~~~1 }
    | .tdom | .flags | .tcause | .taddr | .tvec | .tfut | .strandid | .cycle => pure ()
    return none) s

/-! ### Loop counts (R176) -/

def execLcset (g : Guard) (n : Fin 16) (a : Reg) (s : State) : Out :=
  issue g (do
    let v : BitVec 32 := (← readReg a).setWidth 32
    let s ← get
    if s.isCtrl then set (s.modCluster (clusterOf s.core) fun u => { u with lcs := u.lcs.set n v })
    else hold (.lcset n v)
    return none) s

/-- A loop count as the strand sees it: its own latest uncommitted write, or the register. -/
def State.lcView (s : State) (n : Fin 16) : BitVec 32 :=
  s.cur.chunk.held.foldl (fun v h => match h with | .lcset m w => if m = n then w else v | _ => v)
    (s.clusterAt (clusterOf s.core)).lcs[n]

def execLcget (g : Guard) (n : Fin 16) (d : Reg) (s : State) : Out :=
  issue g (do
    writeReg d (wordN ((← get).lcView n).toNat)
    return none) s

/-! ### HALT (R174, R281) -/

/-- Offset of CCGO in a control core's local memory. -/
def ccgoOff : Nat := 0xBFF8
def State.ccgo (s : State) (k : Nat) : Nat := s.mem.readNat (ctrlSa k ccgoOff) 8

/-- The control core starts from a nonzero CCGO (R281). -/
def State.startCtrl (s : State) (k : Nat) : State :=
  let v := s.ccgo k
  if v = 0 then s
  else
    (s.modCluster k fun u => { u with ccRun := some v, ccStopped := false }).modSlot (512 + k) 0 fun x =>
      { x with ctx := { x.ctx with pc := wordN v } }

/-- The control core's HALT takes effect: CCGO goes from the value it started from to 0, or the core starts again at once. -/
def State.haltCtrl (s : State) (k : Nat) : State :=
  match (s.clusterAt k).ccRun with
  | none => s
  | some v =>
    let s' := s.modCluster k fun u => { u with ccRun := none, ccHalting := false }
    if s.ccgo k = v then s'.devWrite (ctrlSa k ccgoOff) (ctrlSa k ccgoOff) (leBytes 8 0) else s'.startCtrl k

def execHalt (g : Guard) (s : State) : Out :=
  if s.isCtrl then
    if g.holds s.cur.ctx.pred then .next (s.modCluster (clusterOf s.core) fun u => { u with ccHalting := true })
    else .next (s.retire none)
  else issue g (stop (.after fun s => let pc := s.cur.nextPc; s.passUnit.haltStrand pc)) s

end Sys2Proof.Machine
end

