-- ==== Sys2Proof/Machine/Blocks.lean ====
section
/-! DEFINITION. Dealing blocks (R277), time slices and spatial pre-emption (R278 to R280), swapping a block out and back (R336 to
R343). -/

namespace Sys2Proof.Machine

/-! ### Free cores (R277, R280) -/

/-- Whether a core takes a block. -/
def State.coreFree (s : State) (c : Nat) : Bool :=
  (s.coreAt c).owner.isNone && !(s.clusterAt (clusterOf c)).held.getLsbD (c % 8)

/-- First core of the lowest free aligned group of `n` cores of a cluster. -/
def State.groupOn (s : State) (k n : Nat) : Option Nat :=
  ((List.range (8 / n)).map fun i => 8 * k + n * i).find? fun b => (List.range n).all fun i => s.coreFree (b + i)
def State.freeOn (s : State) (k : Nat) : Nat := ((List.range 8).filter fun i => s.coreFree (8 * k + i)).length

/-- Whether a launch may hold blocks on a cluster's die (R275). -/
def Launch.permits (l : Launch) (k : Nat) : Bool := l.dies == 0 || bitOf l.dies (k / 8)

/-- The cluster that receives a block of a launch at once: most free cores, lowest number. -/
def State.dealCluster (s : State) (l : Launch) : Option Nat :=
  leastBy (fun k => 8 - s.freeOn k) ((List.range 64).filter fun k => l.permits k && (s.groupOn k l.cores).isSome)

def Block.waitsOn (b : Block) (k : Nat) : Bool :=
  match b.place with
  | .waiting j _ => j == k
  | .running _ | .den _ => false
def State.waitingOn (s : State) (k : Nat) : List Block := s.blocks.filter fun b => b.waitsOn k

/-! ### Dens (R339, R341) -/

/-- Bytes of a frame. -/
def denFrame : Nat := 0x50000
/-- Frames in use, by address. -/
def State.denFrames (s : State) : List Nat :=
  s.blocks.flatMap fun b => (b.denOf.map fun d => d.frames.map fun i => d.base + denFrame * i).getD []
def State.denBase (s : State) : Nat := bitsOf s.regs.denbase.toNat 63 16 * 2 ^ 16
/-- Frames of the area that no den overlaps, nor a frame lost to a change of the area (R328). -/
def State.freeFrames (s : State) : List Nat :=
  let used := s.denFrames ++ s.denLost
  (List.range s.regs.dennum).filter fun i =>
    let a := s.denBase + denFrame * i
    used.all fun u => decide (u + denFrame ≤ a) || decide (a + denFrame ≤ u)
/-- Frames left beside those of the swaps that have been decided. -/
def State.framesLeft (s : State) : Nat :=
  s.freeFrames.length - (s.blocks.filter fun b => b.swapping.isSome).foldl (fun n b => n + s.coresOf b) 0
/-- Whether a swap of a block can obtain its frames. -/
def State.framesFor (s : State) (b : Block) : Bool := decide (s.coresOf b ≤ s.framesLeft)

/-- Slots that a den holds, in slots and park stores. -/
def Den.slots (d : Den) : List Slot :=
  d.cores.flatMap fun g => (g.slots.map fun (e : Nat × Slot) => e.2) ++ g.parkStore.map fun (q : Parked) => q.slot

/-- A walker's or consolidation command recorded in a den is still running (R338 step 3). -/
def State.denBusy (s : State) (d : Den) : Bool :=
  d.slots.any fun x => match x.wait with
    | some (.engine id) => s.cmds.any fun c => c.id == id && !c.waiting && c.answer.isNone
    | _ => false
/-- A strand of the den waits for a page, or for a poisoned unit. -/
def Den.waits (d : Den) : Bool :=
  d.slots.any fun x => x.ctx.parked && match x.wait with
    | some (.page _) | some (.poison _) => true
    | _ => false
def State.readmittable (s : State) (d : Den) : Bool := !s.denBusy d && !(d.pages && d.waits)

/-- Clusters on which a launch runs a block. -/
def State.runsOn (s : State) (n k : Nat) : Bool :=
  s.blocks.any fun b => b.launch == n && (match b.base? with | some c => clusterOf c == k | none => false)

/-- Whether a block waits for cores of a cluster: on its list, or in a den that may return there (R341). A den that no list holds
waits for every cluster that may take it: DEDUCED (log 44). -/
def State.contends (s : State) (k : Nat) (b : Block) : Bool :=
  match b.place, s.launch? b.launch with
  | .waiting j d, _ => j == k && d.all s.readmittable
  | .den d, some l =>
    s.readmittable d
      && (if d.orphs.isEmpty then
            l.permits k && !(d.kind == .vacation && (List.range 64).any (s.runsOn b.launch))
          else d.fromCluster == k)
  | .den _, none => false
  | .running _, _ => false

/-- Blocks that wait for a cluster, in order of PRIO and then of arrival (R277, R279). -/
def State.queueOf (s : State) (k : Nat) : List Block :=
  (s.blocks.filter (s.contends k)).foldl (fun l b =>
    insertDown (fun (b : Block) => ((s.launch? b.launch).map (·.prio)).getD 0) b l) []

/-- The first waiting block whose group is free on a cluster, and that group. -/
def State.nextOn (s : State) (k : Nat) : Option (Block × Nat) :=
  (s.queueOf k).findSome? fun b => (s.groupOn k (s.coresOf b)).map fun c => (b, c)

/-! ### Placing -/

/-- Guests on a core that leave it when another block takes it. -/
def Slot.guestMoves (x : Slot) : Bool :=
  x.occ == .running && !x.ctx.pinned && match x.wait with
    | some (.engine _) | some (.refusal ..) | some .verdict => false
    | _ => true
/-- Whether a guest stays in the slot of a core that is dealt, for another strand to find it there. -/
def State.guestStays (s : State) (c k : Nat) : Bool := (s.slotAt c k).occ == .running && !(s.slotAt c k).guestMoves
/-- A guest's context leaves core `c`: for its block's core of ordinal 0, or back to the device it came from, with no access to make there
(R30, R288). -/
def State.contextHome (s : State) (c : Nat) (x : Ctx) : State :=
  match x.foreign with
  | some dev => s.shipBack dev 0 x.tdom.toNat x.toLine
  | none => s.sendHome x c
/-- Send a guest home from a slot. -/
def State.guestHome (s : State) (c k : Nat) : State :=
  let s := s.giveKept c k
  (s.clearSlot c k).contextHome c (s.slotAt c k).ctx
/-- Send home the contexts in a core's deque that are not of a block. -/
def State.dequeHome (s : State) (c : Nat) (own : Ctx → Bool) : State :=
  let out := (s.coreAt c).deque.filter fun x => !own x
  out.foldl (fun s x => s.contextHome c x) (s.modCore c fun q => { q with deque := q.deque.filter own })

/-- Dealing empties a core's queues, clears its full-empty bits and its format contexts (R58, R171, R172, R194, R277). -/
def State.dealCore (s : State) (o : Nat × Nat × Nat) (c : Nat) : State :=
  let s := { s with full := s.full.filter fun g => g / 16384 != c }
  s.modCore c fun q =>
    { q with owner := some o, deque := [], mboxes := [], nqUp := [], nqDown := [], fmts := Vector.replicate 4 0 }

/-- The entry strand of block `b` (R277). -/
def Launch.entryCtx (l : Launch) (b : Nat) (id : BitVec 32) : Ctx :=
  { Ctx.zero with
    gpr := ((Ctx.zero.gpr.set 0 l.param).set 1 (wordN b)).set 2 (wordN l.count)
    pc := l.entry, strandId := id, block := BitVec.ofNat 24 b, launch := BitVec.ofNat 16 l.num, tdom := BitVec.ofNat 16 l.dom }

/-- Guests on the cores of a group are ready to leave them. -/
def State.groupClear (s : State) (base n : Nat) : Bool :=
  (List.range n).all fun i => (List.range 16).all fun k =>
    let x := s.slotAt (base + i) k
    !x.guestMoves || (x.atBoundary && !x.bound)
def State.clearGroup (s : State) (base n : Nat) : State :=
  (List.range n).foldl (fun s i =>
    let s := (List.range 16).foldl (fun s k =>
      if (s.slotAt (base + i) k).guestMoves then s.guestHome (base + i) k else s) s
    s.dequeHome (base + i) fun _ => false) s

/-- A block takes cores from a LAUNCH packet: its entry strand starts in slot 0 of its core of ordinal 0, or, where a pinned
guest holds that slot, first on that core's deque. -/
def State.startBlock (s : State) (l : Launch) (b base : Nat) : State :=
  let s := s.clearGroup base l.cores
  let s := (List.range l.cores).foldl (fun s i => s.dealCore (l.num, b, i) (base + i)) s
  let blk : Block :=
    { launch := l.num, index := b, place := .running base, spillHead := 0, spillTail := 0, spillSide := [], idle := 0,
      refusedAt := none, run := 0, active := false, swapping := none, vacate := false, short := false, crossed := false }
  let s := { s with blocks := s.blocks.filter (fun (x : Block) => !(x.launch == l.num && x.index == b)) ++ [blk] }
  let r := s.newId
  let x := l.entryCtx b r.1
  if (r.2.slotAt base 0).occ == .empty then r.2.place base 0 x 0 0 else r.2.pushTop base x

/-- Clusters whose waiting lists a block of a launch may join (R277). -/
def State.shortLists (s : State) (l : Launch) : List Nat :=
  (List.range 64).filter fun k => l.permits k && decide ((s.waitingOn k).length < 4)

/-- A block not yet dealt that is the first of its launch to be: placed, once no waiting block can take cores there (R279), or put on a
waiting list. -/
def State.dealNext (s : State) (l : Launch) : Option State :=
  if l.count ≤ l.dealt then none
  else
    let counted (s : State) : State :=
      { s with launches := s.launches.map fun x => if x.num == l.num then { x with dealt := x.dealt + 1 } else x }
    match s.dealCluster l with
    | some k =>
      if (s.nextOn k).isSome then none else
      match s.groupOn k l.cores with
      | some base => if s.groupClear base l.cores then some ((counted s).startBlock l l.dealt base) else none
      | none => none
    | none =>
      (leastBy (fun k => (s.waitingOn k).length) (s.shortLists l)).map fun k =>
        let blk : Block :=
          { launch := l.num, index := l.dealt, place := .waiting k none, spillHead := 0, spillTail := 0, spillSide := [],
            idle := 0, refusedAt := none, run := 0, active := false, swapping := none, vacate := false, short := false, crossed := false }
        { counted s with blocks := s.blocks ++ [blk] }

/-- The dealing event of a parser's launches: a block on a waiting list whose cores are free takes them, or the next block of
the oldest launch that can be dealt is dealt. The order among launches: DESIGN CHOICE (log 40). -/
def execBlockDeal (parser : Nat) (s : State) : Out :=
  let mine := s.launches.filter fun l => l.queue / 32 == parser
  let fresh := (List.range 64).findSome? fun k =>
    match s.nextOn k with
    | some (b, base) =>
      if b.denOf.isNone && s.groupClear base (s.coresOf b) then
        (mine.find? fun l => l.num == b.launch).map fun l => s.startBlock l b.index base
      else none
    | none => none
  match fresh with
  | some s => .next s
  | none => .next ((mine.findSome? s.dealNext).getD s)

/-! ### Parked strands and thresholds (R336, R337) -/

/-- Strands of a block that are parked, guests included. -/
def State.parkedCount (s : State) (l b : Nat) : Nat :=
  (s.slotList.filter fun e => e.2.2.occ == .running && e.2.2.ctx.isOf l b && s.parkedAt e.1 e.2.1).length
    + s.cores.foldl (fun n e => n + (e.2.parkStore.filter fun q => q.slot.ctx.isOf l b && q.slot.ctx.parked).length) 0

/-- Parked strands of a cluster's blocks (CSFAULT). -/
def State.clusterParked (s : State) (k : Nat) : Nat :=
  (s.blocks.filter fun b => match b.base? with | some c => clusterOf c == k | none => false).foldl (fun n b =>
    n + s.parkedCount b.launch b.index) 0

/-- A core has issued an instruction of a strand: its block, where it is the core's, is active in this scheduler cycle (R337). -/
def State.noteIssue (s : State) (c : Nat) (issued : Option Ctx) : State :=
  match s.blockAt c, issued with
  | some b, some x => if x.isOf b.launch b.index then s.modBlock b.launch b.index fun b => { b with active := true } else s
  | _, _ => s

/-- The end of a core's cycle: CYCLE advances (R6). -/
def State.countCycle (s : State) (c : Nat) (issued : Option Ctx) : State :=
  (s.noteIssue c issued).modCore c fun q => { q with cycle := q.cycle + 1 }

/-- A cycle of a cluster's scheduler, which it counts itself (R6): the runs of its blocks go on (R279), and idle counts rise where
none of a block's cores has issued a strand of it (R337). -/
def State.schedCycle (s : State) (k : Nat) : State :=
  let s := s.modCluster k fun u => { u with clock := u.clock + 1 }
  let here (b : Block) : Bool := b.base?.any fun c => clusterOf c == k
  (s.blocks.filter here).foldl (fun s b =>
    let p := s.parkedCount b.launch b.index
    s.modBlock b.launch b.index fun b =>
      { b with
        run := b.run + 1
        idle := if p = 0 then 0 else if b.active then b.idle else b.idle + 1
        refusedAt := if p = 0 then none else b.refusedAt
        active := false }) s

/-- Whether a running block crosses a threshold of its cluster. -/
def State.crosses (s : State) (b : Block) : Bool :=
  match b.base? with
  | none => false
  | some c =>
    let w := (s.clusterAt (clusterOf c)).kpark.toNat
    let n := bitsOf w 7 0
    let idle := bitsOf w 63 32
    let p := s.parkedCount b.launch b.index
    (n ≠ 0 && decide (n ≤ p) && (match b.refusedAt with | some r => decide (r < p) | none => true))
      || (idle ≠ 0 && 0 < p && decide (idle < b.idle))

/-- A count that a block brings back has been reached before: only a further rise crosses (R337). DEDUCED (log 89). -/
def State.markParked (s : State) (l b : Nat) : State :=
  let p := s.parkedCount l b
  s.modBlock l b fun x => { x with refusedAt := if p = 0 then none else some p }

/-- A KIND 2 record of the block is pending. -/
def State.swapAsked (s : State) (b : Block) : Bool :=
  s.pendingRec fun r => r.kind == 2 && r.arg0 == wordN b.launch && r.arg1 == wordN b.index

/-- A swap of a running block is decided. -/
def State.decideSwap (s : State) (l b : Nat) (k : SwapKind) : State :=
  s.modBlock l b fun b =>
    if b.swapping.isSome then { b with crossed := b.crossed || k == .threshold } else { b with swapping := some k, crossed := k == .threshold }

/-- A running block crosses a threshold (R337): its swap is decided or, in host-assisted mode, asked for. A request that is pending is
answered first (R20). Without the frames it is not swapped, and crosses again when a frame frees (R339). -/
def execIdleThreshold (launch block : Nat) (s : State) : Out :=
  match s.block? launch block with
  | none => .next s
  | some b =>
    if !s.crosses b then .next s
    else if b.swapping.isSome then .next (s.decideSwap launch block .threshold)
    else if s.swapAsked b || b.short then .next s
    else if bitOf s.regs.dmode.toNat 1 then
      .next (s.post 2 (clusterOf (b.base?.getD 0)) (wordN launch) (wordN block) (wordN (s.parkedCount launch block)))
    else if s.framesFor b then .next (s.decideSwap launch block .threshold)
    else .next s

/-- The verdict on a KIND 2 record (R290, R337). -/
def State.swapVerdict (s : State) (l b : Nat) (yes : Bool) : State :=
  match s.block? l b with
  | none => s
  | some blk =>
    if yes then (if s.framesFor blk then s.decideSwap l b .threshold else s.modBlock l b fun x => { x with short := true })
    else s.modBlock l b fun x => { x with idle := 0, refusedAt := some (s.parkedCount l b) }

/-! ### Time slices and vacations (R278 to R280) -/

/-- A running block's run exceeds the effective slice while a block waits on its cluster. A swap that cannot obtain its frames is
put off. -/
def execSliceExpiry (cluster : Nat) (s : State) : Out :=
  let u := s.clusterAt cluster
  if u.slice == 0 || (s.queueOf cluster).isEmpty then .next s
  else
    let raised := decide (u.slice.toNat < u.cost.toNat)
    let eff := if raised then 2 * u.cost.toNat else u.slice.toNat
    let s := if raised then s.modCluster cluster fun u => { u with slfl := true } else s
    .next (s.blocks.foldl (fun s b =>
      match b.base? with
      | some c =>
        if clusterOf c == cluster && decide (eff < b.run) && b.swapping.isNone && s.framesFor b then
          s.decideSwap b.launch b.index .slice
        else s
      | none => s) s)

/-- Whether a running block has a core of cluster `k` among those of a mask. -/
def State.onCores (s : State) (b : Block) (k : Nat) (mask : BitVec 8) : Bool :=
  b.base?.any fun c => clusterOf c == k && (List.range (s.coresOf b)).any fun i => mask.getLsbD ((c + i) % 8)

/-- No block has the core and no strand stands on it. -/
def State.coreEmpty (s : State) (c : Nat) : Bool :=
  let q := s.coreAt c
  q.owner.isNone && q.deque.isEmpty && q.parkStore.isEmpty && (List.range 16).all fun k => (s.slotAt c k).occ != .running

/-- CSPRE.BUSY: a block that a HELD bit named has not left its cores, or such a core has not been empty. -/
def State.preBusy (s : State) (k : Nat) : Bool :=
  (s.clusterAt k).emptying != 0 || s.blocks.any fun b => b.vacate && b.base?.any fun c => clusterOf c == k

/-- Held cores that have become empty are so noted. -/
def State.noteEmpty (s : State) : State :=
  { s with clusters := s.clusters.map fun (e : Nat × ClusterSt) =>
      (e.1, if e.2.emptying == 0 then e.2
        else { e.2 with emptying := (List.range 8).foldl (fun (v : BitVec 8) i => if s.coreEmpty (8 * e.1 + i) then v &&& ~~~BitVec.ofNat 8 (2 ^ i) else v) e.2.emptying }) }

/-- HELD is written: blocks on the cores of its new bits are to be swapped out, as far as frames are free (R280, R339); a swap of such a
block that is in progress is this one too. -/
def State.writeHeld (s : State) (k : Nat) (v : BitVec 8) : State :=
  let new := v &&& ~~~(s.clusterAt k).held
  let s := s.modCluster k fun u => { u with held := v, emptying := (u.emptying ||| new) &&& v }
  (s.blocks.filter fun b => s.onCores b k new).foldl (fun s b =>
    let s := s.modBlock b.launch b.index fun b =>
      { b with vacate := true, swapping := b.swapping.map fun _ => .vacation, crossed := b.crossed || b.swapping == some .threshold }
    if b.swapping.isNone && s.framesFor b then s.decideSwap b.launch b.index .vacation else s) s

/-! ### Swapping out (R338) -/

/-- Waits from which an instruction is withdrawn: it issues again when the strand goes on. -/
def Wait.withdrawn : Wait → Bool
  | .fullEmpty .. | .barrier .. | .nqEmpty | .nqFull | .mailbox _ | .outbound | .wqEmpty _ | .wqFull _ | .streamEmpty _
  | .streamFull _ | .streamDrain | .gang | .svuFull | .engineFull _ | .fence .. | .lock _ | .home _ => true
  | .dictionary | .fetch _ | .walk .. | .request _ | .reply _ | .peer .. | .normaliser _ | .divider | .sfu | .svu | .vimaxs ..
  | .engine _ | .refusal .. | .page _ | .poison _ | .verdict => false

/-- A slot stands where a swap can take it. What a peer has answered an instruction that is withdrawn stays with the slot. -/
def Slot.still (x : Slot) : Bool :=
  x.atBoundary && x.svuQ.isEmpty && x.vnorm == 0
    && match x.wait with
      | none => !x.peerSpoke && x.reserved.isEmpty && (!x.isFollower || x.gbuf.isEmpty)
      | some w => w.withdrawn || match w with
        | .engine _ | .refusal .. | .page _ | .poison _ | .verdict => true
        | _ => false

/-- A guest's slot stands where its context alone can move: it waits for no answer that names the slot, but for a held IQGET.wait, which
is withdrawn. -/
def State.movable (s : State) (x : Slot) : Bool :=
  x.still && !x.ctx.pinned && !x.peerSpoke && match x.wait with
    | some (.engine id) => (s.cmdAt id).any fun c => c.waiting
    | some (.refusal ..) | some .verdict => false
    | _ => true

/-- A waiting strand's chunk, and a gang follower's that has run all it was handed, ends where it stands. -/
def Slot.endHere (x : Slot) : Slot :=
  let spent := match x.wait with
    | some w => w.withdrawn
    | none => x.isFollower && x.gbuf.isEmpty
  if x.chunk.isOpen && !x.chunk.ended && spent && decide (0 < x.chunk.count) then { x with chunk := { x.chunk with ended := true } } else x

/-- Slots that a swap of a block at `base` must see stand still: the block's own strands anywhere, and guests on its cores, save
pinned ones (log 24). -/
def swapSlot (l b base n : Nat) (c : Nat) (x : Slot) : Bool :=
  x.occ == .running && (x.ctx.isOf l b || (decide (base ≤ c) && decide (c < base + n) && !x.ctx.pinned))

/-- A command of the block, which runs on `n` cores from `base`, that holds the swap (R338 step 4): a transfer that writes the block's
scratchpads, or whose descriptor is still to be read; MST into them, and MLD from them (DEDUCED, log 71); and MMA and ATTN until they
have read. -/
def Cmd.holdsSwap (c : Cmd) (l b base n : Nat) : Bool :=
  let pads (a : Nat) : Bool := match regionOf a with
    | .scratch k _ => decide (base ≤ k) && decide (k < base + n)
    | .own _ => decide (base ≤ c.core) && decide (c.core < base + n)
    | .space | .ctrl .. | .window _ | .unmapped => false
  c.foreign.isNone && c.launch.toNat == l && c.block.toNat == b
    && match c.op with
      | .xcopyCopy .. | .xcopyFill .. | .xcopyPack .. | .xcopyUnpack .. => match c.desc, c.op.xkind with
        | some d, some (k, fe, lc) => match Xfer.of c k fe lc d with
          | .ok x => (List.range x.rows).any fun i => (x.dests i).any fun p => pads p.1 || pads ((p.1 + p.2 - 1) % 2 ^ 64)
          | .error _ => false
        | _, _ => true
      | .mld | .mst => ((CellWord.of c.a.toNat).places c.d.toNat).any fun p => pads p.2
      | .mma .. | .attn .. => !c.ran
      | _ => false

/-- The storage of each 32 KiB page of a frame, or a page that is absent; none where a page is not this device's. -/
def State.framePages (s : State) (a : Nat) : Nat → Except (Option Nat) (List Nat)
  | 0 => .ok []
  | n + 1 =>
    match s.walk a with
    | .leaf x =>
      if x.peer.isSome then .error none
      else (State.framePages s (a + frameSize) n).map fun l => (x.pa + (a - x.va)) :: l
    | .absent .. => .error (some a)
    | .malformed => .error none

/-- Write into a frame through its pages. -/
def frameWrite (pages : List Nat) (m : Memory) (off : Nat) (bytes : List Byte) : Memory :=
  m.writeN (pages.getD (off / frameSize) 0 + off % frameSize) bytes

/-- Copy a scratchpad to or from a frame: what is read is checked (R344), and poison travels (R346). -/
def State.copyPad (s : State) (pages : List Nat) (c : Nat) (out : Bool) : State :=
  (List.range 8).foldl (fun s i =>
    let pad := scratchSa c (frameSize * i)
    let frame := pages.getD i 0
    let src := if out then pad else frame
    let dst := if out then frame else pad
    let inside (f u : Nat) : Bool := decide (f ≤ u) && decide (u < f + frameSize)
    let s := (s.probe none src frameSize).2
    let units := (s.poison.filter (inside src)).flatMap fun u =>
      if out then [unitOf (u - src + dst)] else (List.range 8).map fun j => u - src + dst + 16 * j
    { s with
      mem := s.mem.copyRange src dst frameSize
      flaws := s.flaws.filter fun f => f.store == 4 || !inside dst f.unit
      poisonStore := s.poisonStore.filter fun (e : Nat × Nat) => !inside dst e.1
      covering := s.covering.filter fun (e : Nat × Nat × Nat) => !inside dst e.2.1
      poison := units.foldl (fun l u => insertNat u l) (s.poison.filter fun u => !inside dst u) }) s

/-- The first `n` of a list, `x` standing for those that it lacks. -/
def padRight {α : Type} (n : Nat) (l : List α) (x : α) : List α := (l ++ List.replicate n x).take n
def padTo (n : Nat) (l : List Byte) : List Byte := padRight n l 0
def queueBytes (n : Nat) (l : List Word) : List Byte := padTo (8 * n) (l.flatMap fun w => leBytes 8 w.toNat)

/-- Full-empty bits of a scratchpad, bit g for granule g. -/
def fullBytes (full : List Nat) (c : Nat) : List Byte :=
  let mine := (full.filter fun g => g / 16384 == c).map (· % 16384)
  (List.range 2048).map fun i => BitVec.ofNat 8 ((mine.filter fun g => g / 8 == i).foldl (fun n g => n + 2 ^ (g % 8)) 0)

/-- A stream binding in a frame, 96 bytes; zeros where the register is unbound (log 46). -/
def streamBytes (o : Option Stream) : List Byte :=
  match o with
  | none => leBytes 96 0
  | some t =>
    padTo 96 (leBytes 8 t.base.toNat ++ leBytes 8 (1 + 2 * t.write.toNat + 4 * t.size) ++ leBytes 8 t.pos ++ leBytes 8 t.drained
      ++ t.counts.toList.flatMap (fun n => leBytes 8 n) ++ t.strides.toList.flatMap fun i => leBytes 8 (i % 2 ^ 64).toNat)

/-- What a frame holds of a slot beside its context (log 46): v0 to v7, vm0 to vm3, TEPC, TCAUSE, TADDR, FSEQ, state, predictor and
stream bindings. -/
def slotBytes (k : Nat) (g : CoreSave) : List Byte :=
  let stored := (g.parkStore.find? fun q => q.own == some k).map fun q => q.slot
  let x := match g.slots.find? fun e => e.1 == k with
    | some e => e.2
    | none => stored.getD Slot.empty
  let state : Nat := match x.occ with
    | .finished => 5
    | .empty | .reserved .. => 0
    | .running => if x.ctx.parked then 3 else if x.ctx.fseq.isSome then 4 else if x.wait.isSome then 2 else 1
  padTo 1024 (x.vec.v.toList.flatMap (fun v => v.toList.flatMap fun w => leBytes 4 w.toNat)
    ++ x.vec.vm.toList.flatMap (fun m => leBytes 2 m.toNat) ++ leBytes 8 x.tepc.toNat ++ leBytes 8 x.tcause.toNat ++ leBytes 8 x.taddr.toNat
    ++ leBytes 4 (x.ctx.fseq.getD 0) ++ leBytes 1 state ++ leBytes 2 x.predH ++ leBytes 1 x.predN ++ x.streams.toList.flatMap streamBytes)

/-- What a frame holds at 0x4_9D00 (log 46): format contexts, the numbers of ORPH slots, the commands that slots still wait for, and in
the frame of ordinal 0 the head and tail of the block's spill ring. -/
def miscBytes (b : Block) (orphs : List Nat) (i : Nat) (g : CoreSave) : List Byte :=
  let waits (k : Nat) : Nat := match (g.slots.get Slot.empty k).wait with | some (.engine id) => id + 1 | _ => 0
  padTo 768 (g.fmts.toList.flatMap (fun f => leBytes 8 f.toNat) ++ (List.range 16).map (fun n => BitVec.ofNat 8 (orphs.getD n 255))
    ++ (List.range 16).flatMap (fun k => leBytes 8 (waits k))
    ++ if i = 0 then leBytes 8 b.spillHead ++ leBytes 8 b.spillTail else [])

/-- What a frame holds of the core of ordinal `i`, beside its scratchpad and its full-empty bits. The formats of what the table only names are
the model's (log 46). -/
def frameLines (pages : List Nat) (b : Block) (orphs : List Nat) (i : Nat) (g : CoreSave) (m : Memory) : Memory :=
  let w (off : Nat) (b : List Byte) (m : Memory) : Memory := frameWrite pages m off b
  let line (k : Nat) : List Byte :=
    let x := g.slots.get Slot.empty k
    if x.occ == .running || x.occ == .finished then x.ctx.toLine else leBytes 256 0
  let m := (List.range 16).foldl (fun m k => w (0x40800 + 256 * k) (line k) m) m
  let m := ((List.range 64).zip (padRight 64 (g.deque.reverse.map Ctx.toLine) (leBytes 256 0))).foldl (fun m e => w (0x45800 + 256 * e.1) e.2 m) m
  let m := (List.range 16).foldl (fun m i => w (0x49800 + 64 * i) (queueBytes 8 (g.mboxes.get [] i)) m) m
  let m := w 0x49C00 (queueBytes 16 g.nqUp ++ queueBytes 16 g.nqDown) m
  let m := (List.range 16).foldl (fun m k => w (0x41800 + 1024 * k) (slotBytes k g) m) m
  let m := w 0x49D00 (miscBytes b orphs i g) m
  ((List.range 16).zip (padRight 16 (g.parkStore.map fun q => q.slot.ctx.toLine) (leBytes 256 0))).foldl (fun m e => w (0x4A000 + 256 * e.1) e.2 m) m

/-- The frame of the core of ordinal `i` is written (R339): its code is fresh, but for the scratchpad's poison. -/
def State.writeFrame (s : State) (pages : List Nat) (c : Nat) (b : Block) (orphs : List Nat) (i : Nat) (g : CoreSave) : State :=
  let s := s.copyPad pages c true
  let rest (u : Nat) : Bool := (pages.drop 8).any fun a => decide (a ≤ u) && decide (u < a + frameSize)
  let s := { s with flaws := s.flaws.filter fun f => f.store == 4 || !rest f.unit }.cleanUnits rest
  let m := frameLines pages b orphs i g (frameWrite pages s.mem 0x40000 (fullBytes s.full c))
  { s with mem := (List.range 20).foldl (fun m i => frameWrite pages m (0x4B000 + 1024 * i) (leBytes 1024 0)) m }

/-- A slot as a den keeps it: what waits is withdrawn, and its request with it, but not what a peer has answered, which is not asked
again (R362). -/
def Slot.denned (x : Slot) : Slot :=
  let y := { x with
    chunk := Chunk.none, ticket := none, begun := false, dictWord := none, reserved := []
    replies := x.replies.filter fun r => match r with | .peer .. => true | .ok .. | .owner .. | .park _ | .fault .. => false }
  match x.wait with
  | some w => if w.withdrawn then { y with wait := none } else y
  | none => y

/-- Contexts of the block that stand outside its cores' slots and stores gather on the deque of its core of ordinal 0. -/
def State.gatherGuests (s : State) (l b base n : Nat) : State :=
  let inside (c : Nat) : Bool := decide (base ≤ c) && decide (c < base + n)
  -- strands running elsewhere
  let s := (s.slotList.filter fun e => !inside e.1 && e.2.2.occ == .running && e.2.2.ctx.isOf l b).foldl (fun s e =>
    (s.clearSlot e.1 e.2.1).pushTop base e.2.2.ctx) s
  -- queued elsewhere, and on their way anywhere
  s.cores.foldl (fun (s : State) (e : Nat × CoreSt) =>
    let q := if inside e.1 then [] else e.2.deque.filter fun x => x.isOf l b
    let a := (e.2.arrivals.filter fun a => a.ctx.isOf l b).map fun a => a.ctx
    let s := s.modCore e.1 fun k =>
      { k with
        deque := if inside e.1 then k.deque else k.deque.filter fun x => !x.isOf l b
        arrivals := k.arrivals.filter fun a => !a.ctx.isOf l b }
    (a ++ q).foldl (fun s x => s.pushTop base x) s) s

/-- Guests of other blocks leave the block's cores. -/
def State.expelGuests (s : State) (l b base n : Nat) : State :=
  (List.range n).foldl (fun s i =>
    let c := base + i
    let s := (List.range 16).foldl (fun s k =>
      let x := s.slotAt c k
      if x.occ == .running && !x.ctx.isOf l b && !x.ctx.pinned then s.guestHome c k else s) s
    s.dequeHome c fun x => x.isOf l b) s

/-- An instruction that its slot had completed but for a command's answer issues again: a gang's follower finds it in its buffer, and its
leader hands it out no second time (R362). -/
def Slot.reissue (x : Slot) (c : Cmd) : Slot :=
  let e : GangEntry := { unit := x.unit, code := x.ctx.pc == c.pc + 2, pc := c.pc, next := x.ctx.pc, seq := c.gseq, faulted := false }
  { x with
    wait := none, begun := false, ctx := { x.ctx with pc := c.pc }
    gbuf := if x.isFollower then e :: x.gbuf else x.gbuf
    gskip := if x.ctx.gang && x.ctx.leader then x.gskip + 1 else x.gskip }

/-- Withdraw the requests of a block's strands, and of the guests on its cores: what they have taken from queues goes back, what was taken last
first, so that it stands in its old order (R158, R362), a held IQGET.wait leaves its engine and issues again, and slots reserved for a
gang are empty. -/
def State.withdraw (s : State) (l b base n : Nat) : State :=
  let late := (s.slotList.filter fun e => swapSlot l b base n e.1 e.2.2).foldl (fun l e =>
    insertDown (fun (e : Nat × Nat × Slot) => e.2.2.ticket.getD 0) e l) []
  let s := late.foldl (fun s e => s.giveKept e.1 e.2.1) s
  (s.slotList.filter fun e => swapSlot l b base n e.1 e.2.2).foldl (fun s e =>
    match e.2.2.wait with
    | some .gang => s.dropReserved e.1 e.2.1
    | some (.engine id) =>
      match s.cmdAt id with
      | some c =>
        if c.waiting then
          { s with cmds := s.cmds.filter fun x => x.id != id }.modSlot e.1 e.2.1 fun x => x.reissue c
        else s
      | none => s
    | _ => s) s

/-- What a den keeps of a core. -/
def State.saveCore (s : State) (l b c : Nat) : CoreSave :=
  let q := s.coreAt c
  { slots := ((List.range 16).map fun k => (k, (s.slotAt c k).denned)).filter fun e => e.2.occ != .empty && e.2.ctx.isOf l b
    deque := q.deque, mboxes := q.mboxes, nqUp := q.nqUp, nqDown := q.nqDown, fmts := q.fmts
    parkStore := q.parkStore.map fun p => { p with slot := p.slot.denned } }

/-- Accumulator slots that pending commands of the block name, and those that an earlier swap of it left ORPH (R342). -/
def State.orphansOf (s : State) (k l b : Nat) : List Nat :=
  (List.range 16).filter fun n =>
    let a := s.accAt k n
    (a.orph && a.tag.1 == l && a.tag.2.1 == b)
      || (s.accPend k n).any fun c => c.foreign.isNone && c.launch.toNat == l && c.block.toNat == b

/-- The block goes to its den: steps 5 and 6 of R338. -/
def State.swapOut (s : State) (blk : Block) (kind : SwapKind) (base : Nat) (frames : List Nat) (pages : List (List Nat)) : State :=
  let l := blk.launch
  let b := blk.index
  let n := s.coresOf blk
  let k := clusterOf base
  let s := ((s.withdraw l b base n).gatherGuests l b base n).expelGuests l b base n
  let kept := (s.block? l b).getD blk
  let orphs := s.orphansOf k l b
  let s := orphs.foldl (fun s i => s.modAcc k i fun a => { a with orph := true }) s
  let saves := (List.range n).map fun i => s.saveCore l b (base + i)
  let s := ((List.range n).zip (pages.zip saves)).foldl (fun s e => s.writeFrame e.2.1 (base + e.1) kept orphs e.1 e.2.2) s
  let den : Den :=
    { kind, pages := kind == .threshold || blk.crossed, frames, base := s.denBase, cores := saves, orphs, fromCluster := k }
  let away (x : Block) : Block :=
    { x with
      place := .den den, swapping := none, vacate := false, short := false, crossed := false, idle := 0, run := 0, active := false }
  let own (x : Block) : Bool := x.launch == l && x.index == b
  let s := (s.slotList.filter fun e => decide (base ≤ e.1) && decide (e.1 < base + n) && e.2.2.ctx.isOf l b).foldl (fun s e =>
    s.clearSlot e.1 e.2.1) s
  let s := (List.range n).foldl (fun s i => s.freeCore (base + i)) s
  State.seatWoken { s with blocks := s.blocks.filter (fun x => !own x) ++ (s.blocks.filter own).map away }

/-- Strands of the block that are with peers are called back (R30, R288). -/
def State.recallShipped (s : State) (l b : Nat) : State :=
  (s.shipped.filter fun p => p.2.2.isOf l b && !s.recalled.contains p.2.2.strandId).foldl (fun (s : State) (p : Nat × Nat × Ctx) =>
    { s with recalled := s.recalled ++ [p.2.2.strandId] }.sendPeer p.1 p.2.1 p.2.2.tdom.toNat (.recall p.2.2.strandId)) s

/-- A decided swap goes on (R338): chunks end, and once every strand concerned stands still, no command holds the swap and the
frames' pages are there, the block goes to its den. A vacation that could not obtain frames before begins here. -/
def execBlockSwapOut (launch block : Nat) (s : State) : Out :=
  match s.block? launch block with
  | none => .next s
  | some b =>
    match b.base?, b.swapping with
    | some _, none =>
      if b.vacate && s.framesFor b then .next (s.decideSwap launch block .vacation) else .next s
    | some base, some kind =>
      let n := s.coresOf b
      let s := s.mapSlots fun c _ x => if swapSlot launch block base n c x then x.endHere else x
      let s := s.recallShipped launch block
      let home (c : Nat) (x : Slot) : Bool := x.ctx.isOf launch block && decide (base ≤ c) && decide (c < base + n)
      if s.slotList.any (fun e => swapSlot launch block base n e.1 e.2.2 && !(if home e.1 e.2.2 then e.2.2.still else s.movable e.2.2))
          || s.shipped.any (fun p => p.2.2.isOf launch block) || s.cmds.any (fun c => c.holdsSwap launch block base n) then .next s
      else
        let frames := s.freeFrames.take n
        if frames.length < n then .next s
        else
          match frames.mapM fun i => s.framePages (s.denBase + denFrame * i) 10 with
          | .ok pages => .next (s.swapOut b kind base frames pages)
          | .error (some va) => .next (s.awaitPage va)
          | .error none => .next s
    | none, _ => .next s

/-- What changes in a den's record stands in its frames (R339). -/
def State.keepFrames (s old : State) : State :=
  s.blocks.foldl (fun (s : State) b =>
    match b.denOf, (old.block? b.launch b.index).bind Block.denOf with
    | some d, some d' =>
      if d.cores == d'.cores then s
      else
        match d.frames.mapM fun i => s.framePages (d.base + denFrame * i) 10 with
        | .ok pages =>
          ((List.range d.cores.length).zip (pages.zip d.cores)).foldl (fun (s : State) e =>
            { s with mem := frameLines e.2.1 b d.orphs e.1 e.2.2 s.mem }) s
        | .error _ => s
    | _, _ => s) s
/-- Where a frame has freed, blocks that were refused frames cross their thresholds again (R339). -/
def State.framesFreed (s old : State) : State :=
  if s.blocks.any (fun b => b.short) && s.freeFrames.any (fun i => !old.freeFrames.contains i) then
    { s with blocks := s.blocks.map fun b => { b with short := false } }
  else s

/-! ### Coming back (R341) -/

/-- A slot as it returns: what waited is issued again, save what a page, a verdict or a command's answer still holds. A held
IQGET.wait is withdrawn. -/
def State.backSlot (s : State) (x : Slot) : Slot :=
  match x.wait with
  | some (.engine id) =>
    match s.cmdAt id with
    | some c => if c.waiting then x.reissue c else x
    | none => { x with wait := none }
  | _ => x

/-- Commands that a den's slots withdraw. -/
def State.backCmds (s : State) (d : Den) : State :=
  let gone := d.slots.filterMap fun x => match x.wait with | some (.engine id) => some id | _ => none
  { s with cmds := s.cmds.filter fun c => !(c.waiting && gone.contains c.id) }

/-- Restore one core from its frame. -/
def State.restoreCore (s : State) (l b i c : Nat) (pages : List Nat) (g : CoreSave) : State :=
  let s := (s.dealCore (l, b, i) c).copyPad pages c false
  let bits := s.mem.readN (pages.getD (0x40000 / frameSize) 0 + 0x40000 % frameSize) 2048
  let full := ((List.range 2048).zip bits).flatMap fun e =>
    ((List.range 8).filter fun j => bitOf e.2.toNat j).map fun j => 16384 * c + 8 * e.1 + j
  let s := { s with full := full.foldl (fun l x => insertNat x l) s.full }
  let s := g.slots.foldl (fun s e => s.setSlot c e.1 (s.backSlot e.2)) s
  s.modCore c fun q =>
    { q with deque := g.deque, mboxes := g.mboxes, nqUp := g.nqUp, nqDown := g.nqDown, fmts := g.fmts, parkStore := g.parkStore }

/-- The number after the fault sequence numbers that a den saved, and that contexts of its block in the spill ring have. -/
def Den.lastSeq (d : Den) (b : Block) : Nat :=
  (d.slots.map (fun x => x.ctx.fseq) ++ d.cores.flatMap (fun g => g.deque.map fun x => x.fseq) ++ b.spillSide.map fun e => e.fseq).foldl
    (fun n o => match o with | some f => max n (f + 1) | none => n) 0

/-- A den returns to the cores from `base`. Its fault sequence numbers stand before any that the cluster assigns later (R335):
its counter is raised past them. DESIGN CHOICE (log 47). COST, which counts cycles, is free (log 4). -/
def State.restoreDen (s : State) (blk : Block) (d : Den) (base : Nat) (pages : List (List Nat)) : State :=
  let l := blk.launch
  let b := blk.index
  let n := s.coresOf blk
  let k := clusterOf base
  let s := s.clearGroup base n
  let own (x : Block) : Bool := x.launch == l && x.index == b
  let s := { s with blocks := s.blocks.map fun x => if own x then { x with place := .running base, run := 0, idle := 0, active := false } else x }
  let s := ((List.range n).zip (pages.zip d.cores)).foldl (fun s e => s.restoreCore l b e.1 (base + e.1) e.2.1 e.2.2) s
  let s := s.backCmds d
  let cost := leNat ((List.range 4).map fun i => Config.freeByte (s.free + i))
  let s := { s with free := s.free + 4 }.modCluster k fun u =>
    { u with cost := BitVec.ofNat 32 cost, fseq := max u.fseq (d.lastSeq blk) }
  let s := s.seatWoken
  let s := s.markParked l b
  -- refusals of commands that completed while the block was away (R318)
  (s.slotList.filter fun e => decide (base ≤ e.1) && decide (e.1 < base + n)).foldl (fun (s : State) (e : Nat × Nat × Slot) =>
    match e.2.2.wait with
    | some (.refusal info addr pc gseq) =>
      (s.modSlot e.1 e.2.1 fun x => { x with wait := none }).refusalTrap e.1 e.2.1 info gseq addr pc
    | _ => s) s |>.settleBlock l b

/-- Whether each slot that a den restores is free, or held by a guest that leaves it: one that stays (log 24, log 71) is waited for. -/
def State.denFits (s : State) (d : Den) (base : Nat) : Bool :=
  ((List.range d.cores.length).zip d.cores).all fun e => e.2.slots.all fun q => !s.guestStays (base + e.1) q.1

/-- A den's event (R341): one made by a vacation joins the list that R280 names; any other, and one whose turn on its list has
come, returns to the cluster that takes it. -/
def execDenReadmit (launch block : Nat) (s : State) : Out :=
  match s.block? launch block, s.launch? launch with
  | some b, some l =>
    let back (d : Den) (k : Nat) : Out :=
      match s.nextOn k with
      | some (x, base) =>
        if x.launch == launch && x.index == block && s.groupClear base l.cores && s.denFits d base then
          match d.frames.mapM fun i => s.framePages (d.base + denFrame * i) 10 with
          | .ok pages => .next (s.restoreDen b d base pages)
          | .error (some va) => .next (s.awaitPage va)
          | .error none => .next s
        else .next s
      | none => .next s
    match b.place with
    | .running _ => .next s
    | .waiting _ none => .next s
    | .waiting k (some d) => back d k
    | .den d =>
      if !s.readmittable d then .next s
      else if !d.orphs.isEmpty then back d d.fromCluster
      else
        let near := (List.range 64).filter (s.runsOn launch)
        let join (ks : List Nat) : Out :=
          match leastBy (fun k => (s.waitingOn k).length) ks with
          | some k =>
            let own (x : Block) : Bool := x.launch == launch && x.index == block
            .next { s with
              blocks := s.blocks.filter (fun x => !own x)
                ++ (s.blocks.filter own).map fun (x : Block) => { x with place := .waiting k (some d) } }
          | none => .next s
        if d.kind == .vacation && !near.isEmpty then join near
        else
          match s.dealCluster l with
          | some k => back d k
          | none => if d.kind == .vacation then join (s.shortLists l) else .next s
  | _, _ => .next s

end Sys2Proof.Machine
end

