-- ==== Sys2Proof/Machine/Auto.lean ====
section
/-! DEFINITION. What moves next where nothing prescribes it: the agenda's default order (log 3). -/

namespace Sys2Proof.Machine

/-- The control core's own slot: core 512 + k, slot 0. -/
def State.atCtrl (s : State) (k : Nat) : State := { s with core := 512 + k, slot := 0 }

/-- Whether a cluster's control core runs (R281, R327). -/
def State.ctrlRuns (s : State) (k : Nat) : Bool :=
  let u := s.clusterAt k
  u.ccRun.isSome && !u.ccStopped && !u.ccHalting

/-- Events that may be due in a slot. -/
noncomputable def slotEvents (c k : Nat) (x : Slot) : List Instr :=
  (if x.chunk.ended || x.chunk.conflict then [.chunkCommit c k] else [])
    ++ (if x.svuQ.isEmpty then [] else [.svuComplete c k])
    ++ (match x.wait with
      | some .dictionary => [.dictionaryLoad c k]
      | some (.fetch _) | some (.walk ..) => [.translationWalk c k]
      | some (.request _) => [.remoteWordAccess c k]
      | some (.reply _) => [.remoteReply c k (.value 0)]
      | some (.lock _) => [.lockedReservation c k]
      | some .gang => [.gangFormation c k]
      | some (.vimaxs ..) => [.svuComplete c k]
      | some (.barrier ..) => [.barrierRelease c k]
      | some (.fullEmpty g _) => [.fullEmptyRetest g]
      | some (.streamEmpty t) => [.streamElementArrival c k t]
      | _ => [])
    ++ ((List.finRange 4).filter fun t => match x.streams[t] with | some r => r.write && !r.buf.isEmpty | none => false).map
      fun t => .streamDrain c k t

/-- Events that may be due at a core. -/
noncomputable def coreEvents (c : Nat) (q : CoreSt) : List Instr :=
  (if q.divQ.isEmpty then [] else [.divideComplete c]) ++ (if q.sfuQ.isEmpty then [] else [.sfuComplete c])
    ++ (if q.normQ.isEmpty then [] else [.normaliserService c]) ++ (if q.nqDown.isEmpty then [] else [.nqHop c])
    ++ (List.range q.outbound.length).map (fun n => .mailboxDelivery c n)
    ++ (if q.arrivals.isEmpty then [] else [.strandArrival c])
    ++ (if q.owner.isNone && q.deque.isEmpty then [] else (List.range 16).map fun k => .steal c k)

/-- Events that may be due in a cluster. -/
noncomputable def clusterEvents (k : Nat) (u : ClusterSt) : List Instr :=
  (if u.turns.isEmpty && u.named.isEmpty then [] else [.omTurn k]) ++ (if u.slice == 0 then [] else [.sliceExpiry k])
    ++ (if u.ccHalting then [.controlCoreHalt k] else [])

/-- A cluster's scheduler has counted fewer cycles than one of the cluster's cores, and has a block to count for. -/
def State.schedBehind (s : State) (k : Nat) : Bool :=
  let u := s.clusterAt k
  s.blocks.any (fun b => b.base?.any fun c => clusterOf c == k)
    && (List.range 8).any fun i => decide (u.clock < (s.coreAt (8 * k + i)).cycle)
/-- A threshold or a slice of a block is reached by the passing of the scheduler's cycles alone. -/
def State.schedAwaited (s : State) (k : Nat) : Bool :=
  let u := s.clusterAt k
  s.blocks.any fun b => (b.base?.any fun c => clusterOf c == k) &&
    ((decide (b.idle ≤ bitsOf u.kpark.toNat 63 32) && bitsOf u.kpark.toNat 63 32 != 0 && decide (0 < s.parkedCount b.launch b.index))
      || (u.slice != 0 && decide (b.run ≤ max u.slice.toNat (2 * u.cost.toNat)) && !(s.queueOf k).isEmpty))

/-- The moves the model tries in order where the agenda is empty: what is due in slots, at cores, in clusters and engines, then
the launch queues and blocks, then a cycle of each core that has a ready slot. -/
noncomputable def State.autoMoves (s : State) : List Move :=
  let ev (l : List Instr) : List Move := l.map .event
  ev ((List.range s.wakes.length).map fun n => .wakeMessage n)
    ++ ev (s.slotList.flatMap fun e => slotEvents e.1 e.2.1 e.2.2)
    ++ ((s.slotList.filter fun e => s.finishes e.1 e.2.1).map fun e => .finish e.1 e.2.1)
    ++ ev (s.cores.flatMap fun e => coreEvents e.1 e.2)
    ++ ev (s.clusters.flatMap fun e => clusterEvents e.1 e.2)
    ++ ev (s.cmds.map fun c => .engineCompletion c.cluster c.eng)
    ++ ev ((s.cmds.filter fun c => c.waiting).flatMap fun c => (List.range 16).map fun n => .iqgetWaitServe c.cluster n)
    ++ (if s.late.isEmpty then [] else [.late 0])
    ++ ev (s.faults.map fun f => .pageService (wordN f.va).toNat)
    ++ ev (s.migs.map fun m => .pageMigration m.die)
    ++ ev (if s.regs.tcinvBusy then [.invalidationComplete] else [])
    ++ ev (if s.regs.attctl.toNat % 2 = 1 then [.attestationComplete] else [])
    ++ ev (if s.hostHeld.isEmpty then [] else [.hostAccess 0 0 (.load 0)])
    ++ ev (if s.peerHeld.isEmpty then [] else [.peerRequest 0 0 (.load 0)])
    ++ ev ((List.range 64).map fun k => .controlCoreStart k)
    ++ (s.clusters.filter fun e => e.2.ccRun.isSome).map (fun e => .ctrl e.1)
    ++ ((List.range 64).filter fun k => s.schedBehind k).map (fun k => .sched k)
    ++ (s.cores.filter fun e => (List.range 16).any fun k => s.ready e.1 k).map (fun e => .tick e.1)
    ++ ev (s.blocks.flatMap fun b =>
      [.idleThreshold b.launch b.index, .blockSwapOut b.launch b.index, .denReadmit b.launch b.index])
    ++ ev (s.launches.map fun l => .launchComplete l.num)
    ++ ev [.blockDeal 0, .blockDeal 1]
    ++ ev ((List.range 64).flatMap fun q =>
      if bitOf (s.regs.lqctl.get 0 q).toNat 3 then
        [.launchPacket q, .fencePacket q, .fencePacketRecheck q, .signalPacket q, .copyPacket q, .modePacket q]
      else [])
    ++ ((List.range 64).filter fun k => s.schedAwaited k).map fun k => .sched k

end Sys2Proof.Machine
end

