-- ==== Sys2Proof/Machine/Vector.lean ====
section
/-! DEFINITION. The short vector unit (R178 to R192): commands queued at issue, and the event that completes one. -/

namespace Sys2Proof.Machine

/-! ### Lanes -/

def Vec.lane (v : Vec) (r : Fin 8) (i : Fin 16) : BitVec 32 := v.v[r][i]
/-- Lane i of a b operand. -/
def Vec.src (v : Vec) (y : Word) (b : VSrc) (i : Fin 16) : BitVec 32 :=
  match b with
  | .vec r => v.lane r i
  | .scalar => y.setWidth 32
/-- The write mask of d[4:3] (R181): 0 names all lanes. -/
def Vec.wmask (v : Vec) (m : Fin 4) : BitVec 16 := if m = 0 then BitVec.allOnes 16 else v.vm[m]

/-- Write the lanes of a mask, each with its flags. -/
def Vec.put (v : Vec) (d : Fin 8) (mask : BitVec 16) (f : Fin 16 → BitVec 32 × NFlags) : Vec × NFlags :=
  let on (i : Fin 16) : Bool := mask.getLsbD i.val
  ({ v with v := v.v.set d (Vector.ofFn fun i => if on i then (f i).1 else v.lane d i) },
    (List.finRange 16).foldl (fun fl i => if on i then fl ||| (f i).2 else fl) 0)

def lanes32 (r : Nat × NFlags) : BitVec 32 × NFlags := (BitVec.ofNat 32 r.1, r.2)

/-- Two-operand functions on a lane (R183); `old` is the lane of vd. -/
def VBin.lane (f : VBin) (t : LType) (mode : RMode) (ftz : Bool) (a b old : BitVec 32) : BitVec 32 × NFlags :=
  match f with
  | .and => (a &&& b, 0)
  | .or => (a ||| b, 0)
  | .xor => (a ^^^ b, 0)
  | .shl => (a <<< (b.toNat % 32), 0)
  | .shr => (if t = .i32 then a.sshiftRight (b.toNat % 32) else a >>> (b.toNat % 32), 0)
  | .add => if t = .f32 then lanes32 (fmtF32.add mode ftz a.toNat b.toNat) else (a + b, 0)
  | .sub => if t = .f32 then lanes32 (fmtF32.sub mode ftz a.toNat b.toNat) else (a - b, 0)
  | .mul => if t = .f32 then lanes32 (fmtF32.mul mode ftz a.toNat b.toNat) else (a * b, 0)
  | .fma => if t = .f32 then lanes32 (fmtF32.fma mode ftz a.toNat b.toNat old.toNat) else (a * b + old, 0)
  | .min =>
    match t with
    | .f32 => lanes32 (fmtF32.minmax false ftz a.toNat b.toNat)
    | .i32 => (if a.slt b then a else b, 0)
    | .n32 => (if a.ult b then a else b, 0)
  | .max =>
    match t with
    | .f32 => lanes32 (fmtF32.minmax true ftz a.toNat b.toNat)
    | .i32 => (if a.slt b then b else a, 0)
    | .n32 => (if a.ult b then b else a, 0)

/-- One-operand functions on a lane (R183). -/
def VUn.lane (f : VUn) (t : LType) (ftz : Bool) (a : BitVec 32) : BitVec 32 × NFlags :=
  match f with
  | .abs =>
    match t with
    | .f32 => lanes32 (fmtF32.setSign ftz a.toNat fun _ => false)
    | .i32 => (if a.msb then -a else a, 0)
    | .n32 => (a, 0)
  | .neg => if t = .f32 then lanes32 (fmtF32.setSign ftz a.toNat not) else (-a, 0)
  | .popc => (BitVec.ofNat 32 ((List.range 32).foldl (fun n i => n + (a.getLsbD i).toNat) 0), 0)
  | .log2 => lanes32 (special .log2 fmtF32 ftz a.toNat)
  | .exp2 => lanes32 (special .exp2 fmtF32 ftz a.toNat)
  | .rcp => lanes32 (special .rcp fmtF32 ftz a.toNat)
  | .rsq => lanes32 (special .rsq fmtF32 ftz a.toNat)
  | .tanh => lanes32 (special .tanh fmtF32 ftz a.toNat)
  | .sigm => lanes32 (special .sigm fmtF32 ftz a.toNat)

/-- Conditions of VCMP (R184): codes of the float conditions for f32 lanes, 0 to 3 for integer lanes. -/
def vcmpLane (t : LType) (c : Fin 5) (ftz : Bool) (a b : BitVec 32) : Bool × NFlags :=
  match t with
  | .f32 =>
    let fc : FCond := match c.val with
      | 0 => .eq | 1 => .ne | 2 => .lt | 3 => .le | _ => .un
    fmtF32.cmp fc ftz a.toNat b.toNat
  | .i32 =>
    (match c.val with
      | 0 => a == b | 1 => a != b | 2 => a.slt b | _ => !a.slt b, 0)
  | .n32 =>
    (match c.val with
      | 0 => a == b | 1 => a != b | 2 => a.ult b | _ => !a.ult b, 0)

def ltypeNum : LType → NumType
  | .f32 => .f32 | .i32 => .i32 | .n32 => .n32
def vtypeNum : VType → NumType
  | .f32 => .f32 | .i32 => .i32 | .n32 => .n32 | .f16 => .f16 | .bf16 => .bf16 | .t8 => .t8 | .t6 => .t6 | .i8 => .i8
  | .i16 => .i16 | .n8 => .n8 | .n16 => .n16

/-- Whether a value with an index replaces a running maximum (R187, R188): larger, or equal with a smaller index. -/
def beats (t : LType) (ftz : Bool) (x k v kv : BitVec 32) : Bool :=
  match t with
  | .f32 => (fmtF32.cmp .lt ftz v.toNat x.toNat).1 || ((fmtF32.cmp .eq ftz v.toNat x.toNat).1 && k.ult kv)
  | .i32 => v.slt x || (v == x && k.ult kv)
  | .n32 => v.ult x || (v == x && k.ult kv)

def negInf32 : BitVec 32 := 0xFF800000
def isNan32 (x : BitVec 32) : Bool := (fmtF32.read false x.toNat).isNan

/-! ### Functions within a member (R183 to R187) -/

/-- A lane as VIMAX and VIMAXS read it: an f32 subnormal as a zero of its sign where FTZ is set (R91). -/
def asRead (t : LType) (ftz : Bool) (x : BitVec 32) : BitVec 32 := if t = .f32 then BitVec.ofNat 32 (fmtF32.eff ftz x.toNat) else x

/-- The vector state and flags after a command that is neither a memory nor a cross-lane command. -/
def SvuCmd.local (c : SvuCmd) (v : Vec) : Vec × NFlags :=
  let mode := RMode.ofTmode c.tmode
  let ftz := c.tmode.getLsbD 0
  let setMask (d : Fin 4) (f : Fin 16 → Bool) : Vec :=
    { v with vm := v.vm.set d ((List.finRange 16).foldl (fun m i => if f i then m ||| BitVec.twoPow 16 i.val else m) 0) }
  match c.op with
  | .bin f t m d a b => v.put d (v.wmask m) fun i => f.lane t mode ftz (v.lane a i) (v.src c.y b i) (v.lane d i)
  | .un f t m d a => v.put d (v.wmask m) fun i => f.lane t ftz (v.lane a i)
  | .cmp t k d a b =>
    let r (i : Fin 16) := vcmpLane t k ftz (v.lane a i) (v.src c.y b i)
    (setMask d fun i => (r i).1, (List.finRange 16).foldl (fun fl i => fl ||| (r i).2) 0)
  | .sel m d a b =>
    v.put d (BitVec.allOnes 16) fun i => (if v.vm[m].getLsbD i.val then v.lane a i else v.src c.y b i, 0)
  | .tern t d a b =>
    v.put d (BitVec.allOnes 16) fun i => (ternary t (v.lane d i) (v.lane a i) (v.lane b i), 0)
  | .cvt t k o m d a =>
    v.put d (v.wmask m) fun i =>
      lanes32 (if k then convert (ltypeNum t) (vtypeNum o) mode ftz (v.lane a i).toNat
        else convert (vtypeNum o) (ltypeNum t) mode ftz (v.lane a i).toNat)
  | .cvte x d a b =>
    let r (i : Fin 16) := convertWithResidual x mode ftz (v.lane a i).toNat
    let p := v.put d (BitVec.allOnes 16) fun i => (BitVec.ofNat 32 (r i).1, (r i).2.2)
    (((p.1.put b (BitVec.allOnes 16) fun i => (BitVec.ofNat 32 (r i).2.1, 0))).1, p.2)
  | .imax t m d a b =>
    let d' : Fin 8 := ⟨(d.val + 1) % 8, by omega⟩
    let nan (i : Fin 16) : Bool := t = .f32 && isNan32 (v.lane a i)
    let val (i : Fin 16) : BitVec 32 := if nan i then negInf32 else asRead t ftz (v.lane a i)
    let key (i : Fin 16) : BitVec 32 := match b with
      | .vec r => v.lane r i
      | .scalar => c.y.setWidth 32 + BitVec.ofNat 32 i.val
    let wins (i : Fin 16) : Bool :=
      !(t = .f32 && val i == negInf32) && beats t ftz (val i) (key i) (v.lane d i) (v.lane d' i)
    let v1 := setMask m nan
    let p := v1.put d (BitVec.allOnes 16) fun i => (if wins i then val i else v.lane d i, 0)
    (p.1.put d' (BitVec.allOnes 16) fun i => (if wins i then key i else v.lane d' i, 0))
  | .splat m d => v.put d (v.wmask m) fun _ => (c.y.setWidth 32, 0)
  | .mand d a b => ({ v with vm := v.vm.set d (v.vm[a] &&& v.vm[b]) }, 0)
  | .mor d a b => ({ v with vm := v.vm.set d (v.vm[a] ||| v.vm[b]) }, 0)
  | .mxor d a b => ({ v with vm := v.vm.set d (v.vm[a] ^^^ v.vm[b]) }, 0)
  | .mnot d a => ({ v with vm := v.vm.set d (~~~v.vm[a]) }, 0)
  | .mset d => ({ v with vm := v.vm.set d (c.x.setWidth 16) }, 0)
  | .red .. | .scan .. | .perm .. | .bcast .. | .ld .. | .st .. | .ldx .. | .stx .. | .bitsLd _ | .bitsSt _ | .nothing => (v, 0)

/-! ### Cross-lane functions (R186, R188, R192) -/

def SvuOp.isCross : SvuOp → Bool
  | .red .. | .scan .. | .perm .. | .bcast .. | .nothing => true
  | .bin .. | .un .. | .cmp .. | .sel .. | .tern .. | .cvt .. | .cvte .. | .imax .. | .splat .. | .ld .. | .st .. | .ldx ..
  | .stx .. | .bitsLd _ | .bitsSt _ | .mand .. | .mor .. | .mxor .. | .mnot .. | .mset _ => false
def SvuOp.isMem : SvuOp → Bool
  | .ld .. | .st .. | .ldx .. | .stx .. | .bitsLd _ | .bitsSt _ => true
  | .bin .. | .un .. | .cmp .. | .sel .. | .tern .. | .cvt .. | .cvte .. | .imax .. | .splat .. | .red .. | .scan .. | .perm ..
  | .bcast .. | .mand .. | .mor .. | .mxor .. | .mnot .. | .mset _ | .nothing => false

/-- What a member brings to a cross-lane command. -/
def SvuCmd.brings (c : SvuCmd) (v : Vec) : CrossIn :=
  let regs (r : Fin 8) : List (BitVec 32) := (List.finRange 16).map fun i => v.lane r i
  let srcs (b : VSrc) : List (BitVec 32) := (List.finRange 16).map fun i => v.src c.y b i
  match c.op with
  | .red _ _ m _ a => { a := regs a, b := [], part := v.wmask m, sup := false }
  | .scan _ _ a => { a := regs a, b := [], part := BitVec.allOnes 16, sup := false }
  | .perm _ _ a b => { a := regs a, b := srcs b, part := BitVec.allOnes 16, sup := false }
  | .bcast _ _ a b => { a := regs a, b := srcs b, part := BitVec.allOnes 16, sup := false }
  | .nothing | .bin .. | .un .. | .cmp .. | .sel .. | .tern .. | .cvt .. | .cvte .. | .imax .. | .splat .. | .ld .. | .st ..
  | .ldx .. | .stx .. | .bitsLd _ | .bitsSt _ | .mand .. | .mor .. | .mxor .. | .mnot .. | .mset _ =>
    { a := List.replicate 16 0, b := List.replicate 16 0, part := 0, sup := true }

/-- One level of the pairwise tree. -/
def pairUp (f : BitVec 32 → BitVec 32 → BitVec 32 × NFlags) : List (BitVec 32) → List (BitVec 32) × NFlags
  | x :: y :: r =>
    let p := f x y
    let q := pairUp f r
    (p.1 :: q.1, p.2 ||| q.2)
  | [x] => ([x], 0)
  | [] => ([], 0)
def treeReduce (f : BitVec 32 → BitVec 32 → BitVec 32 × NFlags) : Nat → List (BitVec 32) → List (BitVec 32) × NFlags
  | 0, l => (l, 0)
  | n + 1, l =>
    let p := pairUp f l
    let q := treeReduce f n p.1
    (q.1, p.2 ||| q.2)

/-- Prefix sums, in increasing lane. -/
def prefixSums (f : BitVec 32 → BitVec 32 → BitVec 32 × NFlags) : BitVec 32 → List (BitVec 32) → List (BitVec 32) × NFlags
  | _, [] => ([], 0)
  | acc, x :: r =>
    let p := f acc x
    let q := prefixSums f p.1 r
    (p.1 :: q.1, p.2 ||| q.2)

/-- A lane as a function of it reads and returns it, the sum of one lane say: an f32 NaN becomes canonical, and FTZ reads a subnormal as zero (R81, R91). -/
def firstSum (t : LType) (ftz : Bool) (x : BitVec 32) : BitVec 32 × NFlags :=
  match t with
  | .f32 =>
    let r := fmtF32.read ftz x.toNat
    if r.isNan then (BitVec.ofNat 32 fmtF32.nan, flagIf r.isSig flINV) else (BitVec.ofNat 32 (fmtF32.eff ftz x.toNat), 0)
  | .i32 => (x, 0)
  | .n32 => (x, 0)

/-- What a lane that takes no part contributes (R186, R192). -/
def neutral (isMax : Bool) (t : LType) : BitVec 32 :=
  match t with
  | .f32 => if isMax then negInf32 else 0x80000000
  | .i32 => if isMax then 0x80000000 else 0
  | .n32 => 0

/-- Lanes of all members, a suppressed member's and those that take no part holding `fill`. -/
def gather (fill : BitVec 32) (ins : List CrossIn) : List (BitVec 32) :=
  ins.flatMap fun c => (List.range 16).map fun i =>
    if !c.sup && c.part.getLsbD i then c.a.getD i 0 else fill

/-- The vector state and flags of member `me` after a cross-lane command (R186, R192). VREDMAX gives the canonical NaN where
every lane taking part is NaN (DEDUCED, log 33). A VBCAST's lane number in a register is member 0's, or 0 where a guard suppresses the
command there: DESIGN CHOICE (log 105). -/
def SvuCmd.cross (c : SvuCmd) (me : Nat) (ins : List CrossIn) (v : Vec) : Vec × NFlags :=
  let mode := RMode.ofTmode c.tmode
  let ftz := c.tmode.getLsbD 0
  let n := 16 * ins.length
  match c.op with
  | .red isMax t _ d _ =>
    let f : BitVec 32 → BitVec 32 → BitVec 32 × NFlags :=
      fun x y => (if isMax then VBin.max else VBin.add).lane t mode ftz x y 0
    let l := gather (neutral isMax t) ins
    let r := treeReduce f (bitLen (n - 1)) l
    let taking := ins.flatMap fun i => ((List.range 16).filter fun k => !i.sup && i.part.getLsbD k).map fun k => i.a.getD k 0
    let allNan := isMax && t = .f32 && !taking.isEmpty && taking.all isNan32
    let out := if allNan then BitVec.ofNat 32 fmtF32.nan else r.1.headD 0
    let w := v.put d (BitVec.allOnes 16) fun _ => (out, 0)
    (w.1, r.2)
  | .scan t d _ =>
    let f : BitVec 32 → BitVec 32 → BitVec 32 × NFlags := fun x y => VBin.add.lane t mode ftz x y 0
    match gather (neutral false t) ins with
    | [] => (v, 0)
    | x :: rest =>
      let h := firstSum t ftz x
      let r := prefixSums f h.1 rest
      let w := v.put d (BitVec.allOnes 16) fun i => ((h.1 :: r.1).getD (16 * me + i.val) 0, 0)
      (w.1, h.2 ||| r.2)
  | .perm m d _ b =>
    let l := gather 0 ins
    v.put d (v.wmask m) fun i =>
      (match b with
        | .vec r => l.getD ((v.lane r i).toNat % n) 0
        | .scalar => l.getD ((16 * me + i.val + (c.y.setWidth 32 : BitVec 32).toNat) % n) 0, 0)
  | .bcast m d _ _ =>
    let l := gather 0 ins
    let k := match ins with
      | h :: _ => if h.sup then 0 else (h.b.headD 0).toNat
      | [] => 0
    v.put d (v.wmask m) fun _ => (l.getD (k % n) 0, 0)
  | .nothing | .bin .. | .un .. | .cmp .. | .sel .. | .tern .. | .cvt .. | .cvte .. | .imax .. | .splat .. | .ld .. | .st ..
  | .ldx .. | .stx .. | .bitsLd _ | .bitsSt _ | .mand .. | .mor .. | .mxor .. | .mnot .. | .mset _ => (v, 0)

/-- The values and indices that VIMAXS considers (R188), the values as they stand. -/
def vimaxsPairs (ins : List CrossIn) : List (BitVec 32 × BitVec 32) :=
  (ins.flatMap fun c => if c.sup then [] else (List.range 16).map fun i => (c.a.getD i 0, c.b.getD i 0)).filter fun p =>
    p.2 != BitVec.allOnes 32

/-- Whether VIMAXS reads a signalling NaN, which sets INV (R81), and whether it reads a subnormal, which the normaliser serves (R91). -/
def vimaxsFlags (t : LType) (ins : List CrossIn) : NFlags :=
  flagIf (t = .f32 && (vimaxsPairs ins).any fun p => (fmtF32.read false p.1.toNat).isSig) flINV
def vimaxsSub (t : LType) (ftz : Bool) (own : CrossIn) : Nat :=
  if t = .f32 && !ftz && (vimaxsPairs [own]).any fun p => fmtF32.isSub p.1.toNat then 1 else 0

/-- VIMAXS over all members (R188): the index in the low half, the value's bits in the high half; a NaN is the canonical one (R81). R188 does
not say where a NaN stands among the values: it is neither larger nor smaller than another, so that one in the first lane considered
stays and a later one is passed over (DESIGN CHOICE, log 116). -/
def vimaxsOf (t : LType) (ftz : Bool) (ins : List CrossIn) : Word :=
  let pairs := (vimaxsPairs ins).map fun p => ((if t = .f32 then (firstSum t ftz p.1).1 else p.1), p.2)
  let best := pairs.foldl (fun (acc : Option (BitVec 32 × BitVec 32)) p =>
    match acc with
    | none => some p
    | some q => if beats t ftz p.1 p.2 q.1 q.2 then some p else acc) none
  match best with
  | none => 0xFFFFFFFF
  | some p => wordN (p.1.toNat * 2 ^ 32 + p.2.toNat)

/-! ### Vector memory (R189, R190) -/

def elBytes : ElSize → Nat
  | .b4 => 4 | .b2 => 2 | .b1 => 1

/-- INFO of an access trap in a lane (R312). -/
def laneInfo (lane info : Nat) : Nat := 0x8000 + lane % 128 * 256 + info % 256

/-- One lane's access (R138, R180, R346): its line joins the chunk's signatures outside the limits of R36, and a locked chunk
reserves it. -/
def laneAccess (lane : Nat) (va : Word) (size : Nat) (need : Need) (op : PeerOp) : M Spot := do
  let s ← get
  if va.toNat % size ≠ 0 then trap 3 (laneInfo lane (bitLen (size - 1))) va
  if s.switches va.toNat then waitFor (.home va.toNat)
  match s.elemSpot s.cur.ctx s.core va.toNat size need with
  | (.fault cause info, _) => trap cause (laneInfo lane info) va
  | (.absent, _) => parkOn va.toNat
  | (.poisoned u, _) => parkPoison u va.toNat
  | (.away dev, s') =>
    set s'
    peerAccess { va, size, need, way := .stay, op } dev
  | (.here sa, s') =>
    set s'
    if 2 ^ 64 ≤ sa then ownChunk
    let line := lineKey va.toNat sa
    let x := s'.cur
    if decide (0 < x.lockLeft) && !x.reserved.contains line then waitFor (.lock (insertNat line x.reserved))
    modify fun s => s.modChunk fun c =>
      { c with vreads := if bitOf need 1 then c.vreads else insertNat line c.vreads
               vwrites := if bitOf need 1 then insertNat line c.vwrites else c.vwrites
               conflict := c.conflict || c.seen.contains line }
    return .here sa

/-- A member's LANE at a command's issue; its lanes are numbered from 16 times that (R34). -/
def SvuCmd.lane (c : SvuCmd) : Nat := (c.gang.map (·.1)).getD 0

/-- Load the lanes of a mask, lane i at the address given. -/
def vload (c : SvuCmd) (x : Bool) (s : ElSize) (m : Fin 4) (d : Fin 8) (addr : Vec → Fin 16 → Word) : M Unit := do
  let n := elBytes s
  let st ← get
  let v := st.cur.vec
  let mask := v.wmask m
  let base := 16 * c.lane
  (List.finRange 16).forM fun i => do
    if mask.getLsbD i.val then
      let va := addr v i
      let p ← laneAccess (base + i.val) va n 1 (.load n)
      let r ← loadFrom (loadAcc va n .stay) p
      let w : BitVec 32 := if x then (sextN (8 * n) r).setWidth 32 else BitVec.ofNat 32 r
      modify fun s => s.modCur fun y =>
        { y with vec := { y.vec with v := y.vec.v.set d (y.vec.v[d].set i w) } }

/-- Store the lanes of a mask. -/
def vstore (c : SvuCmd) (s : ElSize) (m : Fin 4) (d : Fin 8) (addr : Vec → Fin 16 → Word) : M Unit := do
  let n := elBytes s
  let st ← get
  let v := st.cur.vec
  let mask := v.wmask m
  let base := 16 * c.lane
  (List.finRange 16).forM fun i => do
    if mask.getLsbD i.val then
      let va := addr v i
      let bytes := leBytes n (v.lane d i).toNat
      let p ← laneAccess (base + i.val) va n 2 (.store bytes)
      storeTo { (loadAcc va n .stay) with need := 2 } p bytes false

/-- Addresses of contiguous and of indexed lanes. -/
def laneAt (c : SvuCmd) (n : Nat) (_ : Vec) (i : Fin 16) : Word := c.x + c.y + wordN (i.val * n)
def laneIdx (c : SvuCmd) (n : Nat) (b : Fin 8) (v : Vec) (i : Fin 16) : Word := c.x + wordN ((v.lane b i).toNat * n)

/-- The bytes of VBITS: their addresses, and where the first bit stands in them. -/
def bitsAt (c : SvuCmd) : List Word × Nat :=
  let s := c.y.toNat
  (((List.range ((s + 15) / 8 - s / 8 + 1)).map fun k => c.x + wordN (s / 8 + k)), s % 8)

/-- The lowest lane that a byte of VBITS holds a bit of. -/
def bitsLane (c : SvuCmd) (k : Nat) : Nat := 16 * c.lane + (8 * k - (bitsAt c).2)

def vbitsLoad (c : SvuCmd) (v : Fin 4) : M Unit := do
  let b := bitsAt c
  let l ← (b.1.zip (List.range 3)).mapM fun p => do
    loadFrom (loadAcc p.1 1 .stay) (← laneAccess (bitsLane c p.2) p.1 1 1 (.load 1))
  let n := leNat (l.map (BitVec.ofNat 8))
  modify fun s => s.modCur fun y => { y with vec := { y.vec with vm := y.vec.vm.set v (BitVec.ofNat 16 (n / 2 ^ b.2)) } }

def vbitsStore (c : SvuCmd) (v : Fin 4) : M Unit := do
  let b := bitsAt c
  let n := b.1.length
  let mask := leBytes n ((2 ^ 16 - 1) * 2 ^ b.2)
  let bits := leBytes n ((← get).cur.vec.vm[v].toNat * 2 ^ b.2)
  let at' (k : Nat) : Byte × Byte := (mask.getD k 0, bits.getD k 0)
  let ps ← (b.1.zip (List.range 3)).mapM fun p => do
    return (p, ← laneAccess (bitsLane c p.2) p.1 1 2 (.bits (at' p.2).1 (at' p.2).2))
  ps.forM fun p => do
    let old : Byte := BitVec.ofNat 8 (← loadFrom (loadAcc p.1.1 1 .stay) p.2)
    storeTo { (loadAcc p.1.1 1 .stay) with need := 2 } p.2 [(old &&& ~~~(at' p.1.2).1) ||| ((at' p.1.2).2 &&& (at' p.1.2).1)] false

/-- Carry out a command within its member, in the current slot. -/
def svuRun (c : SvuCmd) : M Unit :=
  match c.op with
  | .ld x s m d => vload c x s m d (laneAt c (elBytes s))
  | .st s m d => vstore c s m d (laneAt c (elBytes s))
  | .ldx x s m d b => vload c x s m d (laneIdx c (elBytes s) b)
  | .stx s m d b => vstore c s m d (laneIdx c (elBytes s) b)
  | .bitsLd v => vbitsLoad c v
  | .bitsSt v => vbitsStore c v
  | .red .. | .scan .. | .perm .. | .bcast .. | .nothing => do
    let v := (← get).cur.vec
    let r := c.cross 0 [c.brings v] v
    modify fun s => s.modCur fun y => { y with vec := r.1 }
    raise r.2
  | .bin .. | .un .. | .cmp .. | .sel .. | .tern .. | .cvt .. | .cvte .. | .imax .. | .splat .. | .mand .. | .mor .. | .mxor ..
  | .mnot .. | .mset _ => do
    let r := c.local (← get).cur.vec
    modify fun s => s.modCur fun y => { y with vec := r.1 }
    raise r.2

/-! ### Issue (R179, R317) -/

/-- The gang a command was issued in: its members' cores, in order of LANE. -/
def SvuCmd.members (c : SvuCmd) (core : Nat) : List Nat :=
  match c.gang with
  | some (lane, gsz) => (List.range (2 ^ gsz)).map fun j => core - lane + j
  | none => [core]

/-- The oldest command of a member's queue, where it is its part of a gang's cross-lane command. -/
def State.svuHead (s : State) (slot : Nat) (c : SvuCmd) (m : Nat) : Option SvuCmd :=
  (s.slotAt m slot).svuQ.head?.filter fun h => h.seq == c.seq && h.op.isCross

/-- Whether a command completes with the other members of its gang: a cross-lane command that they have not completed before (R192). -/
def State.svuJoint (s : State) (core slot : Nat) (c : SvuCmd) : Bool :=
  c.op.isCross && c.gang.isSome && !(s.slotAt core slot).cross.any fun e => e.1 == c.seq

/-- A cross-lane command of a gang that another member has not yet reached, so that it cannot complete (R192). -/
def State.svuLacks (s : State) (core slot : Nat) (c : SvuCmd) : Bool :=
  s.svuJoint core slot c && (c.members core).any fun m => (s.svuHead slot c m).isNone

/-- Since when a command has waited for its SVU: a gang's cross-lane command since the last member reached it (R179, R192; DEDUCED, log 107),
so that the SVUs of its members agree. -/
def State.svuSince (s : State) (core slot : Nat) (c : SvuCmd) : Nat :=
  if s.svuJoint core slot c then (c.members core).foldl (fun n m => max n (((s.svuHead slot c m).map (·.since)).getD 0)) c.since else c.since

/-- The core's SVU takes the command of a slot next if that slot's oldest command has waited longest (R179), in its queue or, where it completes
before the next unit, in its slot; those apart that wait for other members of a gang. -/
def State.svuNext (s : State) (core slot : Nat) (c : SvuCmd) : Bool :=
  (List.range 16).all fun k =>
    let y := s.slotAt core k
    k == slot || match y.svuQ with
      | h :: _ => decide (s.svuSince core slot c < s.svuSince core k h) || s.svuLacks core k h
      | [] => y.wait != some .svuFull || decide (s.svuSince core slot c < y.ticket.getD 0)

/-- Hand a command to the SVU. Where the chunk executes again after a fault, or is locked, a memory command completes before
the next unit issues, in its turn at the SVU; in a chunk that executes again, so do the others, which the slot waits for (R317). A command that a guard suppresses in a gang changes nothing (R104, R192). -/
def svuPut (op : SvuOp) (x y : Word) : M (Option Word) := do
  let s ← get
  let q := s.cur.svuQ
  let ctx := s.cur.ctx
  let c : SvuCmd :=
    { op, x, y, tmode := ctx.tmode, seq := s.cur.nextSeq, gang := if ctx.gang then some (ctx.lane, ctx.gsz) else none, since := s.ticket }
  modify fun s => ({ s with ticket := s.ticket + 1 } : State).modCtx fun x => { x with pinv := x.pinv || op != .nothing }
  if op.isMem && (s.cur.svuSerial || decide (0 < s.cur.lockLeft)) then
    if !q.isEmpty then waitFor .svu
    if !s.svuNext s.core s.slot { c with since := s.cur.ticket.getD c.since } then waitFor .svuFull
    svuRun c
  else
    if 8 ≤ q.length then waitFor .svuFull
    modify fun s => s.modCur fun z => { z with svuQ := z.svuQ ++ [c] }
  return none

/-- Issue a command with no general-register operand, with b read at issue, or with a read. -/
def svu0 (g : Guard) (op : SvuOp) (s : State) : Out := issueStrand g (svuPut op 0 0) s
def svuB (g : Guard) (op : SvuOp) (b : Reg) (s : State) : Out :=
  issueStrand g (do svuPut op 0 (← readReg b)) s
def svuA (g : Guard) (op : SvuOp) (a : Reg) (s : State) : Out :=
  issueStrand g (do svuPut op (← readReg a) 0) s
def svuAB (g : Guard) (op : SvuOp) (a b : Reg) (s : State) : Out :=
  issueStrand g (do
    let x ← readReg a
    svuPut op x (← readReg b)) s

/-- Issue a cross-lane command: in a gang a member whose guard suppresses it still counts as having issued it (R192). -/
def svuCross (g : Guard) (body : M (Option Word)) (s : State) : Out :=
  if s.isCtrl then .next (s.ctrlStop 5)
  else if s.cur.ctx.gang && !g.holds s.cur.ctx.pred then
    let s := s.openChunk
    match (svuPut .nothing 0 0).run s with
    | .ok (t, s') => .next (s'.retire t)
    | .error e => s.settle e
  else issue g body s

def execVadd (g : Guard) (t : LType) (m : Fin 4) (d a b : Fin 8) (s : State) : Out := svu0 g (.bin .add t m d a (.vec b)) s
def execVaddScalar (g : Guard) (t : LType) (m : Fin 4) (d a : Fin 8) (b : Reg) (s : State) : Out :=
  svuB g (.bin .add t m d a .scalar) b s
def execVsub (g : Guard) (t : LType) (m : Fin 4) (d a b : Fin 8) (s : State) : Out := svu0 g (.bin .sub t m d a (.vec b)) s
def execVsubScalar (g : Guard) (t : LType) (m : Fin 4) (d a : Fin 8) (b : Reg) (s : State) : Out :=
  svuB g (.bin .sub t m d a .scalar) b s
def execVmul (g : Guard) (t : LType) (m : Fin 4) (d a b : Fin 8) (s : State) : Out := svu0 g (.bin .mul t m d a (.vec b)) s
def execVmulScalar (g : Guard) (t : LType) (m : Fin 4) (d a : Fin 8) (b : Reg) (s : State) : Out :=
  svuB g (.bin .mul t m d a .scalar) b s
def execVfma (g : Guard) (t : LType) (m : Fin 4) (d a b : Fin 8) (s : State) : Out := svu0 g (.bin .fma t m d a (.vec b)) s
def execVfmaScalar (g : Guard) (t : LType) (m : Fin 4) (d a : Fin 8) (b : Reg) (s : State) : Out :=
  svuB g (.bin .fma t m d a .scalar) b s
def execVmin (g : Guard) (t : LType) (m : Fin 4) (d a b : Fin 8) (s : State) : Out := svu0 g (.bin .min t m d a (.vec b)) s
def execVminScalar (g : Guard) (t : LType) (m : Fin 4) (d a : Fin 8) (b : Reg) (s : State) : Out :=
  svuB g (.bin .min t m d a .scalar) b s
def execVmax (g : Guard) (t : LType) (m : Fin 4) (d a b : Fin 8) (s : State) : Out := svu0 g (.bin .max t m d a (.vec b)) s
def execVmaxScalar (g : Guard) (t : LType) (m : Fin 4) (d a : Fin 8) (b : Reg) (s : State) : Out :=
  svuB g (.bin .max t m d a .scalar) b s
def execVabs (g : Guard) (t : LType) (m : Fin 4) (d a : Fin 8) (s : State) : Out := svu0 g (.un .abs t m d a) s
def execVneg (g : Guard) (t : LType) (m : Fin 4) (d a : Fin 8) (s : State) : Out := svu0 g (.un .neg t m d a) s
def execVcmp (g : Guard) (t : LType) (c : Fin 5) (v : Fin 4) (a b : Fin 8) (s : State) : Out :=
  svu0 g (.cmp t c v a (.vec b)) s
def execVcmpScalar (g : Guard) (t : LType) (c : Fin 5) (v : Fin 4) (a : Fin 8) (b : Reg) (s : State) : Out :=
  svuB g (.cmp t c v a .scalar) b s
/-- The lane type of VSEL, VAND, VOR, VXOR, VPERM, VBCAST and VSPLAT is ignored (R183). -/
def execVsel (g : Guard) (_t : LType) (m : Fin 4) (d a b : Fin 8) (s : State) : Out := svu0 g (.sel m d a (.vec b)) s
def execVselScalar (g : Guard) (_t : LType) (m : Fin 4) (d a : Fin 8) (b : Reg) (s : State) : Out :=
  svuB g (.sel m d a .scalar) b s
def execVand (g : Guard) (t : LType) (m : Fin 4) (d a b : Fin 8) (s : State) : Out := svu0 g (.bin .and t m d a (.vec b)) s
def execVandScalar (g : Guard) (t : LType) (m : Fin 4) (d a : Fin 8) (b : Reg) (s : State) : Out :=
  svuB g (.bin .and t m d a .scalar) b s
def execVor (g : Guard) (t : LType) (m : Fin 4) (d a b : Fin 8) (s : State) : Out := svu0 g (.bin .or t m d a (.vec b)) s
def execVorScalar (g : Guard) (t : LType) (m : Fin 4) (d a : Fin 8) (b : Reg) (s : State) : Out :=
  svuB g (.bin .or t m d a .scalar) b s
def execVxor (g : Guard) (t : LType) (m : Fin 4) (d a b : Fin 8) (s : State) : Out := svu0 g (.bin .xor t m d a (.vec b)) s
def execVxorScalar (g : Guard) (t : LType) (m : Fin 4) (d a : Fin 8) (b : Reg) (s : State) : Out :=
  svuB g (.bin .xor t m d a .scalar) b s
def execVtern (g : Guard) (t : BitVec 8) (d a b : Fin 8) (s : State) : Out := svu0 g (.tern t d a b) s
def execVshl (g : Guard) (t : LType) (m : Fin 4) (d a b : Fin 8) (s : State) : Out := svu0 g (.bin .shl t m d a (.vec b)) s
def execVshlScalar (g : Guard) (t : LType) (m : Fin 4) (d a : Fin 8) (b : Reg) (s : State) : Out :=
  svuB g (.bin .shl t m d a .scalar) b s
def execVshr (g : Guard) (t : LType) (m : Fin 4) (d a b : Fin 8) (s : State) : Out := svu0 g (.bin .shr t m d a (.vec b)) s
def execVshrScalar (g : Guard) (t : LType) (m : Fin 4) (d a : Fin 8) (b : Reg) (s : State) : Out :=
  svuB g (.bin .shr t m d a .scalar) b s
def execVcvt (g : Guard) (t : LType) (k : Bool) (o : VType) (m : Fin 4) (d a : Fin 8) (s : State) : Out :=
  svu0 g (.cvt t k o m d a) s
def execVcvte (g : Guard) (x : NarrowType) (d a b : Fin 8) (s : State) : Out := svu0 g (.cvte x d a b) s
def execVlog2 (g : Guard) (m : Fin 4) (d a : Fin 8) (s : State) : Out := svu0 g (.un .log2 .f32 m d a) s
def execVexp2 (g : Guard) (m : Fin 4) (d a : Fin 8) (s : State) : Out := svu0 g (.un .exp2 .f32 m d a) s
def execVrcp (g : Guard) (m : Fin 4) (d a : Fin 8) (s : State) : Out := svu0 g (.un .rcp .f32 m d a) s
def execVrsq (g : Guard) (m : Fin 4) (d a : Fin 8) (s : State) : Out := svu0 g (.un .rsq .f32 m d a) s
def execVtanh (g : Guard) (m : Fin 4) (d a : Fin 8) (s : State) : Out := svu0 g (.un .tanh .f32 m d a) s
def execVsigm (g : Guard) (m : Fin 4) (d a : Fin 8) (s : State) : Out := svu0 g (.un .sigm .f32 m d a) s
def execVredadd (g : Guard) (t : LType) (m : Fin 4) (d a : Fin 8) (s : State) : Out :=
  svuCross g (svuPut (.red false t m d a) 0 0) s
def execVredmax (g : Guard) (t : LType) (m : Fin 4) (d a : Fin 8) (s : State) : Out :=
  svuCross g (svuPut (.red true t m d a) 0 0) s
def execVimax (g : Guard) (t : LType) (m : Fin 4) (d a b : Fin 8) (s : State) : Out := svu0 g (.imax t m d a (.vec b)) s
def execVimaxScalar (g : Guard) (t : LType) (m : Fin 4) (d a : Fin 8) (b : Reg) (s : State) : Out :=
  svuB g (.imax t m d a .scalar) b s
def execVscan (g : Guard) (t : LType) (d a : Fin 8) (s : State) : Out := svuCross g (svuPut (.scan t d a) 0 0) s
def execVperm (g : Guard) (_t : LType) (m : Fin 4) (d a b : Fin 8) (s : State) : Out :=
  svuCross g (svuPut (.perm m d a (.vec b)) 0 0) s
def execVpermScalar (g : Guard) (_t : LType) (m : Fin 4) (d a : Fin 8) (b : Reg) (s : State) : Out :=
  svuCross g (do svuPut (.perm m d a .scalar) 0 (← readReg b)) s
def execVbcast (g : Guard) (_t : LType) (m : Fin 4) (d a b : Fin 8) (s : State) : Out :=
  svuCross g (svuPut (.bcast m d a (.vec b)) 0 0) s
def execVbcastScalar (g : Guard) (_t : LType) (m : Fin 4) (d a : Fin 8) (b : Reg) (s : State) : Out :=
  svuCross g (do svuPut (.bcast m d a .scalar) 0 (← readReg b)) s
def execVsplat (g : Guard) (_t : LType) (m : Fin 4) (d : Fin 8) (b : Reg) (s : State) : Out := svuB g (.splat m d) b s
def execVpopc (g : Guard) (t : LType) (m : Fin 4) (d a : Fin 8) (s : State) : Out := svu0 g (.un .popc t m d a) s

def execVld (g : Guard) (x : Bool) (z : ElSize) (m : Fin 4) (d : Fin 8) (a b : Reg) (s : State) : Out :=
  svuAB g (.ld x z m d) a b s
def execVst (g : Guard) (z : ElSize) (m : Fin 4) (d : Fin 8) (a b : Reg) (s : State) : Out := svuAB g (.st z m d) a b s
def execVldx (g : Guard) (x : Bool) (z : ElSize) (m : Fin 4) (d : Fin 8) (a : Reg) (b : Fin 8) (s : State) : Out :=
  svuA g (.ldx x z m d b) a s
def execVstx (g : Guard) (z : ElSize) (m : Fin 4) (d : Fin 8) (a : Reg) (b : Fin 8) (s : State) : Out :=
  svuA g (.stx z m d b) a s
def execVbitsLd (g : Guard) (v : Fin 4) (a b : Reg) (s : State) : Out := svuAB g (.bitsLd v) a b s
def execVbitsSt (g : Guard) (v : Fin 4) (a b : Reg) (s : State) : Out := svuAB g (.bitsSt v) a b s

/-! ### Vector control (R35, R188) -/

/-- Wait until the strand's SVU commands have completed. -/
def svuIdle : M Unit := do
  if !(← get).cur.svuQ.isEmpty then waitFor .svu

def execVfence (g : Guard) (s : State) : Out :=
  issueStrand g (do
    svuIdle
    return none) s
def execVbusy (g : Guard) (d : Reg) (s : State) : Out :=
  issueStrand g (do
    writeReg d (if (← get).cur.svuQ.isEmpty then 0 else 1)
    return none) s
def execVrel (g : Guard) (s : State) : Out :=
  issueStrand g (do
    svuIdle
    modify fun s => s.modCur fun x => { x with vec := Vec.zero, ctx := { x.ctx with pinv := false, pinq := false } }
    return none) s
def execVmand (g : Guard) (d a b : Fin 4) (s : State) : Out := svu0 g (.mand d a b) s
def execVmor (g : Guard) (d a b : Fin 4) (s : State) : Out := svu0 g (.mor d a b) s
def execVmxor (g : Guard) (d a b : Fin 4) (s : State) : Out := svu0 g (.mxor d a b) s
def execVmnot (g : Guard) (d a : Fin 4) (s : State) : Out := svu0 g (.mnot d a) s
def execVmget (g : Guard) (d : Reg) (a : Fin 4) (s : State) : Out :=
  issueStrand g (do
    svuIdle
    writeReg d (wordN (← get).cur.vec.vm[a].toNat)
    return none) s
def execVmset (g : Guard) (d : Fin 4) (a : Reg) (s : State) : Out := svuA g (.mset d) a s

/-- What a member brings to VIMAXS: the even pair's values and indices. -/
def Vec.pair (v : Vec) (a : Fin 8) : CrossIn :=
  let a' : Fin 8 := ⟨(a.val + 1) % 8, by omega⟩
  { a := (List.finRange 16).map fun i => v.lane a i, b := (List.finRange 16).map fun i => v.lane a' i,
    part := BitVec.allOnes 16, sup := false }

/-- A recorded cross-lane command of the current chunk, with this member's own operands. -/
def Slot.crossOf (x : Slot) (own : CrossIn) : Option (List CrossIn) :=
  (x.cross.find? fun e => e.1 == x.nextSeq).map fun e => e.2.set x.ctx.lane own

/-- In a gang VIMAXS waits until every member has reached it: what they brought is then recorded. -/
def execVimaxs (g : Guard) (t : LType) (d : Reg) (a : Fin 8) (s : State) : Out :=
  let meet (sup : Bool) : M (List CrossIn) := do
    svuIdle
    let x := (← get).cur
    let own : CrossIn := if sup then { a := [], b := [], part := 0, sup := true } else x.vec.pair a
    if !x.ctx.gang then return [own]
    match x.crossOf own with
    | some ins => return ins
    | none => waitFor (.vimaxs sup x.nextSeq t a)
  if !s.isCtrl && s.cur.ctx.gang && !g.holds s.cur.ctx.pred then
    let s := s.openChunk
    match (meet true).run s with
    | .ok (_, s') => .next (s'.retire none)
    | .error e => s.settle e
  else
    issueStrand g (do
      let ins ← meet false
      let x := (← get).cur
      let v := vimaxsOf t x.ctx.ftz ins
      normalise (vimaxsSub t x.ctx.ftz (x.vec.pair a))
      raise (vimaxsFlags t ins)
      setPred .set 7 (v.toNat % 2 ^ 32 == 0xFFFFFFFF)
      writeReg d v
      return none) s

/-! ### Completion -/

/-- Members of the gang of a slot, as core numbers, in order of LANE. -/
def State.gangOf (s : State) (core slot : Nat) : List Nat := (s.slotAt core slot).ctx.gangCores core

/-- Vector operands of a command that hold a subnormal lane that takes part (R181, R182, R91). -/
def SvuCmd.subnormalVecs (c : SvuCmd) (v : Vec) : Nat :=
  if c.tmode.getLsbD 0 then 0
  else
    let sub (r : Fin 8) (mask : BitVec 16) : Nat :=
      if (List.finRange 16).any fun i => mask.getLsbD i.val && fmtF32.isSub (v.lane r i).toNat then 1 else 0
    let subOf (t : NumType) (r : Fin 8) (mask : BitVec 16) : Nat :=
      if (List.finRange 16).any fun i => mask.getLsbD i.val && NumTypeSub t false ((v.lane r i).setWidth 64) != 0 then 1 else 0
    let src (b : VSrc) (mask : BitVec 16) : Nat :=
      match b with
      | .vec r => sub r mask
      | .scalar => if mask != 0 && fmtF32.isSub (c.y.toNat % 2 ^ 32) then 1 else 0
    let all := BitVec.allOnes 16
    match c.op with
    | .bin f t m d a b =>
      match f with
      | .and | .or | .xor | .shl | .shr => 0
      | .add | .sub | .mul | .min | .max => if t = .f32 then sub a (v.wmask m) + src b (v.wmask m) else 0
      | .fma => if t = .f32 then sub a (v.wmask m) + src b (v.wmask m) + sub d (v.wmask m) else 0
    | .un f t m _ a => if t = .f32 && f ≠ .popc then sub a (v.wmask m) else 0
    | .cmp t _ _ a b => if t = .f32 then sub a all + src b all else 0
    | .cvt t k o m _ a => subOf (if k then vtypeNum o else ltypeNum t) a (v.wmask m)
    | .cvte _ _ a _ => sub a all
    | .red _ t m _ a => if t = .f32 then sub a (v.wmask m) else 0
    | .scan t _ a => if t = .f32 then sub a all else 0
    | .sel .. | .tern .. | .imax .. | .perm .. | .bcast .. | .splat .. | .ld .. | .st .. | .ldx .. | .stx .. | .bitsLd _
    | .bitsSt _ | .mand .. | .mor .. | .mxor .. | .mnot .. | .mset _ | .nothing => 0

/-- A command leaves its slot's queue; its subnormal operands go to the normaliser one by one, and keep the slot from the ready set (R24,
R182). -/
def State.svuPop (s : State) (core slot n : Nat) : State :=
  (s.modSlot core slot fun y => { y with svuQ := y.svuQ.drop 1, vnorm := y.vnorm + n }).modCore core fun q =>
    { q with normQ := q.normQ ++ List.replicate n (16 + slot) }

/-- The oldest command of a slot's queue completes (R179, R180, R192, R317). Where the members of a gang hold different TMODEs, each computes
the result of a cross-lane command with its own, of which R192 does not speak (DESIGN CHOICE, log 115). -/
def execSvuComplete (core slot : Nat) (s : State) : Out :=
  let x := s.slotAt core slot
  let members := s.gangOf core slot
  let seen (s : State) (c seq : Nat) (ins : List CrossIn) : State :=
    s.modSlot c slot fun y => { y with cross := y.cross ++ [(seq, ins)] }
  match x.wait with
  | some (.vimaxs _ seq _ _) =>
    let at' (c : Nat) : Option CrossIn :=
      let y := s.slotAt c slot
      match y.wait with
      | some (.vimaxs sup q _ a) =>
        if q = seq && y.svuQ.isEmpty then
          some (if sup then { a := [], b := [], part := 0, sup := true } else y.vec.pair a)
        else none
      | _ => none
    let ins := members.filterMap at'
    if ins.length = members.length then
      .next (members.foldl (fun s c => (seen s c seq ins).modSlot c slot fun y => { y with wait := none }) s)
    else .next s
  | _ =>
    match x.svuQ with
    | [] => .next s
    | c :: _ =>
      let n := c.subnormalVecs x.vec
      let members := c.members core
      if !s.svuNext core slot c then .next s
      else if c.op.isCross && c.gang.isSome then
        match x.cross.find? fun e => e.1 == c.seq with
        | some e =>
          let r := c.cross c.lane (e.2.set c.lane (c.brings x.vec)) x.vec
          .next ((s.modSlot core slot fun y =>
            { y with vec := r.1, ctx := { y.ctx with tmode := y.ctx.tmode ||| (r.2 &&& flAll) } }).svuPop core slot n)
        | none =>
          let heads := members.filterMap fun m => (s.svuHead slot c m).map fun h => (m, h)
          if heads.length = members.length && heads.all fun p => s.svuNext p.1 slot p.2 then
            let ins := heads.map fun p => p.2.brings (s.slotAt p.1 slot).vec
            .next (heads.foldl (fun s p =>
              let y := s.slotAt p.1 slot
              let r := p.2.cross p.2.lane ins y.vec
              ((seen s p.1 c.seq ins).modSlot p.1 slot fun y =>
                { y with vec := r.1, ctx := { y.ctx with tmode := y.ctx.tmode ||| (r.2 &&& flAll) } }).svuPop p.1 slot
                  (p.2.subnormalVecs y.vec)) s)
          else .next s
      else
        match (svuRun c).run { s with core, slot } with
        | .ok r => .next (r.2.svuPop core slot n)
        | .error (.wait (.home _) _) => .next s
        | .error _ => .next (s.discardChunk core slot true)

end Sys2Proof.Machine
end

