-- ==== Sys2Proof/Machine/CoreEvents.lean ====
section
/-! DEFINITION. Events of a core: dictionaries (R101, R102), commits (R37), locked chunks (R38), stealing (R31, R32), arrivals
(R52), remote accesses (R23, R50) and page walks (R53). -/

namespace Sys2Proof.Machine

/-! ### Dictionaries -/

/-- A dictionary code finds its word: the word then runs as the unit at the code's address (R101). -/
def execDictionaryCode (i : BitVec 10) (s : State) : Out :=
  if s.isCtrl then .next (s.ctrlStop 5)
  else
    let s := s.openChunk
    let x := s.cur
    let l := s.launchOf x.ctx
    let n := (l.map (·.dcnt)).getD 0
    let num := (l.map (·.num)).getD 0
    if n ≤ i.toNat then s.illegalUnit .badDictionary
    else
      match (s.coreAt s.core).dicts.find? fun d => d.1 == num with
      | none => s.settle (.wait .dictionary [])
      | some d =>
        let s := s.modCore s.core fun q => { q with dicts := d :: q.dicts.filter fun e => e.1 != num }
        let w := d.2.getD i.toNat 0
        if w.toNat % 64 = 0x3E then s.illegalUnit .badDictionary
        else .next (s.modCur fun x => { x with dictWord := some w })

/-- Resolve an instruction address, walking the page table on a miss. -/
def State.resolveWalk (s : State) (core dom va : Nat) : Res × State :=
  match s.resolveFetch core dom va with
  | (.miss, s) =>
    let s := s.walkProbe va
    match s.walk va with
    | .leaf x => (s.tcFill (dieOf core) x).resolveFetch core dom va
    | .absent .. => (.absent, s)
    | .malformed => (.malformed, s)
  | r => r

/-- Read `n` dictionary words from an address up, by the core's instruction path, or find what stands against it: the trap or the parking
of the unit that names the dictionary (R102, R346; DEDUCED, log 38). -/
def State.dictWords (s : State) (core dom pc : Nat) : Nat → Nat → (Stop ⊕ List (BitVec 32)) × State
  | 0, _ => (.inr [], s)
  | n + 1, va =>
    if 2 ^ 56 ≤ va then (.inl (.after fun s => s.takeTrap 2 1 (wordN va) (wordN pc)), s)
    else
      match s.resolveWalk core dom va with
      | (.ok sa, s) =>
        match if (s.icFind core va).isSome then none else s.poisonedIn sa 4 with
        | some u => (.inl (.after fun s => s.parkUnit u va), s)
        | none =>
          let w := s.codeAt core va sa 4
          match State.dictWords w.2 core dom pc n (va + 4) with
          | (.inr ws, s) => (.inr (BitVec.ofNat 32 (leNat w.1) :: ws), s)
          | r => r
      | (.lacks l, s) => (.inl (.after fun s => s.takeTrap 5 l (wordN va) (wordN pc)), s)
      | (.absent, s) => (.inl (.after fun s => s.parkPage va), s)
      | (.peer _, s) => (.inl (.after fun s => s.takeTrap 2 1 (wordN va) (wordN pc)), s)
      | (.malformed, s) | (.miss, s) => (.inl (.after fun s => s.takeTrap 2 2 (wordN va) (wordN pc)), s)

/-- A launch's dictionary is loaded into the store whose last use is older, and the slots that wait for it go on (R102). -/
def execDictionaryLoad (core slot : Nat) (s : State) : Out :=
  let x := s.slotAt core slot
  match s.launchOf x.ctx with
  | none => .next s
  | some l =>
    if x.wait ≠ some .dictionary then .next s
    else
      match s.dictWords core (x.ctx.tdom.toNat % 4096) x.ctx.pc.toNat l.dcnt l.dict with
      | (.inr ws, s) =>
        let s := s.modCore core fun q => { q with dicts := ((l.num, ws) :: q.dicts.filter fun d => d.1 != l.num).take 2 }
        .next (s.mapSlots fun c _ y =>
          if c == core && y.wait == some .dictionary && (s.launchOf y.ctx).any (fun z => z.num == l.num) then { y with wait := none } else y)
      | (.inl e, s) => (({ s with core, slot } : State).modCur fun x => { x with wait := none, unit := .never }).settle e

/-! ### Chunks -/

/-- What a wait is for may be another strand's to do, or another engine's. -/
def Wait.others : Wait → Bool
  | .nqEmpty | .nqFull | .mailbox _ | .outbound | .wqEmpty _ | .wqFull _ | .fullEmpty .. | .vimaxs .. | .gang | .svuFull | .engineFull _ => true
  | _ => false
/-- A strand stands in its chunk where it may need others to go on. -/
def State.leansOn (s : State) (c k : Nat) : Bool :=
  let x := s.slotAt c k
  x.wait.any (fun w => w.others && !s.waitOver c k w) || x.svuQ.head?.any (s.svuLacks c k)

/-- A follower's chunk waits for an open chunk of its leader, which cannot end by itself: the leader is 16 instructions ahead or may need what
a member is to do. That chunk is discarded, so that it executes again and, at the fourth time, in chunks of one instruction (R34,
R38; DESIGN CHOICE, log 108). -/
def State.unstick (s : State) (c k : Nat) : State :=
  match s.awaits c k with
  | some d =>
    let y := s.slotAt d k
    if s.leansOn d k || (y.ctx.gang && y.ctx.leader && y.gskip == 0 && !y.begun && !s.gangReady d k) then s.discardChunk d k false else s
  | none => s

/-- A chunk that has ended reaches the arbiter: it commits, or waits for what holds it back; one that conflicts is discarded. A command that
the commit dispatches and whose words or block break a limit is refused there (R318). -/
def execChunkCommit (core slot : Nat) (s : State) : Out :=
  let ch := (s.slotAt core slot).chunk
  if !ch.isOpen then .next s
  else
    match s.fate core slot with
    | .conflict => .next (s.discardChunk core slot false)
    | .heldBack => .next (if ch.ended then s.unstick core slot else s)
    | .free =>
      if ch.ended then
        let t := s.commitChunk core slot
        .next (((List.range (t.cmdSeq - s.cmdSeq)).map (s.cmdSeq + ·)).foldl State.screen t)
      else .next s

/-- The homes grant a locked chunk its lines, in order of request (R38); one of a gang's follower once nothing that its leader does can undo
it (log 108). -/
def execLockedReservation (core slot : Nat) (s : State) : Out :=
  let x := s.slotAt core slot
  match x.wait with
  | some (.lock lines) =>
    let against (p : Nat × Slot) : Bool :=
      p.1 != 16 * core + slot
        && (p.2.reserved.any (fun l => lines.contains l)
          || match p.2.wait with
            | some (.lock ls) => ls.any (fun l => lines.contains l) && decide (p.2.ticket.getD 0 < x.ticket.getD 0)
            | _ => false)
    if (s.awaits core slot).isSome then .next (s.unstick core slot)
    else if s.slots.any against then .next s
    else .next (s.setSlot core slot { x with wait := none, reserved := lines })
  | _ => .next s

/-- A chunk that holds a replay ends where another woken strand of the cluster waits for that replay to be performed (R335; DEDUCED, log
109): after the instruction in which the strand stands, or, where that one may need others, before it, by a discard. -/
def State.endReplays (s : State) : State :=
  let later (c q : Nat) (e : Nat × Nat × Slot) : Bool :=
    e.2.2.occ == .running && !e.2.2.ctx.parked && s.clusterFor e.2.2.ctx e.1 == c && e.2.2.ctx.fseq.any fun f => decide (q < f)
  s.slotList.foldl (fun t e =>
    let x := e.2.2
    match x.ctx.fseq with
    | none => t
    | some q =>
      if x.occ != .running || x.atReplay || x.chunk.ended || !s.slotList.any (later (s.clusterFor x.ctx e.1) q) then t
      else if !x.begun then t.modSlot e.1 e.2.1 fun y => { y with chunk := { y.chunk with ended := y.chunk.isOpen } }
      else if s.leansOn e.1 e.2.1 then t.discardChunk e.1 e.2.1 false
      else t) s

/-- A gang parks as a whole (R331): a member that has done what comes before another's fault, and that instruction too, parks in its slot
once its chunk has committed (R330), and is ready again when no member waits for a page. -/
def State.parkGangs (s : State) : State :=
  s.slotList.foldl (fun s e =>
    let x := s.slotAt e.1 e.2.1
    if x.occ != .running || x.wait.isSome || x.begun || !(x.ctx.gang || x.ctx.parked) then s
    else
      let held := s.gangHeld e.1 e.2.1
      s.setSlot e.1 e.2.1
        (if held && !x.atBoundary then { x with chunk := { x.chunk with ended := true } } else { x with ctx := { x.ctx with parked := held } })) s

/-- A merge of a strand's CUPD has met poison (R346): the strand parks on the unit, in the slot where it runs, at the start of the chunk that it
has open, once it stands where that can be. The word keeps its place in its update-only line (DEDUCED, log 111). -/
def State.parkMerger (s : State) (u : UpdLine) (w : Nat × UpdMark) : State :=
  let told (s : State) : State := { s with upds := s.upds.map fun x =>
    if x.core == u.core && x.line == u.line then { x with marks := x.marks.map fun m => if m == w then (m.1, { m.2 with met := false }) else m } else x }
  let here := s.slotList.find? fun e => e.2.2.occ == .running && e.2.2.ctx.strandId == w.2.strand
  match s.poisonedIn (u.pa + w.1) u.size, here with
  | none, _ => told s
  | some _, none => if s.liveIds.contains w.2.strand then s else told s
  | some x, some (c, k, y) =>
    if y.ctx.parked then told s
    else if !y.reserved.isEmpty || !y.wait.all Wait.withdrawn || s.storeFull c k then s
    else
      let s := if y.chunk.isOpen then s.discardChunk c k false else s
      told ((s.parkIn c k (.poison x)).reseat c k)
def State.parkMergers (s : State) : State :=
  (s.upds.flatMap fun u => (u.marks.filter fun m => m.2.met).map fun m => (u, m)).foldl (fun s e => s.parkMerger e.1 e.2) s

/-! ### Stealing -/

/-- Cores in the order in which a thief on core `c` tries them after its own. -/
def State.victims (s : State) (c : Nat) : List Nat :=
  match s.blockAt c with
  | none => []
  | some b =>
    let steal := ((s.launch? b.launch).map (·.steal)).getD 0
    let base := b.base?.getD c
    let n := s.coresOf b
    let next := (s.coreAt c).afterVictim
    let from' (l : List Nat) : List Nat := l.filter (fun v => decide (next ≤ v)) ++ l.filter fun v => decide (v < next)
    let own := ((List.range n).map (base + ·)).filter (· != c)
    let others := ((List.range 512).filter fun v =>
      s.heldBy b.launch v && (decide (v < base) || decide (base + n ≤ v)) && (steal == 3 || dieOf v == dieOf c))
    (if 1 ≤ steal then from' own else []) ++ (if 2 ≤ steal then from' others else [])

/-- The first core that yields a context, with it. -/
def State.firstSteal (s : State) : List Nat → Option (Nat × Ctx × State)
  | [] => none
  | v :: vs =>
    match s.stealFrom v with
    | some (x, s) => some (v, x, s)
    | none => State.firstSteal s vs

/-- An idle slot takes a strand (R31, R32): a woken guest that waits for one (R334), or one of a deque or spill ring. A core of a block in
manual placement fills slot 0 alone, from its own deque. The last victim is remembered once per core, for all its slots and for both
searches, among the block's cores and beyond them (DESIGN CHOICE, log 92). -/
def execSteal (core slot : Nat) (s : State) : Out :=
  if decide (512 ≤ core) || !s.idleSlot core slot || !s.staying core || !(s.coreAt core).arrivals.isEmpty then .next s
  else if (s.coreAt core).parkStore.any fun q => q.own.isNone && !q.slot.ctx.parked then .next s.seatWoken
  else
    let manual := s.manualCore core
    if manual && slot ≠ 0 then .next s
    else
      match s.takeOwn core with
      | some (x, s) => .next ((s.place core slot x 0 0).settleAt core)
      | none =>
        if manual then .next s
        else
          match s.firstSteal (s.victims core) with
          | some (v, x, s) => .next ((s.modCore core fun q => { q with afterVictim := v + 1 }).place core slot x 0 0 |>.settleAt v)
          | none => .next s

/-- The oldest arrival takes the first empty slot of the core (R52, R147). -/
def execStrandArrival (core : Nat) (s : State) : Out :=
  match (s.coreAt core).arrivals with
  | [] => .next s
  | a :: rest =>
    match (List.range 16).find? fun k => s.idleSlot core k with
    | none => .next s
    | some k => .next ((s.modCore core fun q => { q with arrivals := rest }).place core k a.ctx a.predH a.predN)

/-! ### Remote accesses and walks -/

/-- What the home finds of a request: its translation and rights, or a walk to wait for (R50, R53). One that meets a switch of its home
waits (R49). -/
def State.atHome (s : State) (x : Ctx) (core : Nat) (r : Req) : Wait × State :=
  match s.reachOf x core r.va with
  | .bad info => (.reply (.fault 4 info (wordN r.va)), s)
  | .window _ sa => (.reply (.ok r.va sa), s)
  | .space =>
    if s.switches r.va then (.request r, s) else
    let home := s.homeOf r.va
    match s.resolve home (x.tdom.toNat % 4096) r.need r.va false with
    | (.ok sa, s) => (.reply (.ok r.va sa), s)
    | (.peer dev, s) => (.reply (.owner r.va dev), s)
    | (.lacks l, s) => (.reply (.fault 5 l (wordN r.va)), s)
    | (.malformed, s) => (.reply (.fault 4 7 (wordN r.va)), s)
    | (.absent, s) => (.reply (.park r.va), s)
    | (.miss, s) => (.walk r.va (dieOf home) (some r), s)

/-- A remote word access reaches its home core (R50). -/
def execRemoteWordAccess (core slot : Nat) (s : State) : Out :=
  let x := s.slotAt core slot
  match x.wait with
  | some (.request r) =>
    let w := s.atHome x.ctx core r
    .next (w.2.modSlot core slot fun x => { x with wait := some w.1 })
  | _ => .next s

/-- A reply arrives, from a home core or, while traffic passes (R355), from a peer, and the slot goes on (R23). -/
def execRemoteReply (core slot : Nat) (v : PeerAns) (s : State) : Out :=
  let give (r : Reply) : Out := .next (s.modSlot core slot fun x => { x with wait := none, replies := x.replies ++ [r] })
  match (s.slotAt core slot).wait with
  | some (.reply r) => give r
  | some (.peer dev r) =>
    if s.linkStalled dev then .next s else
    match v with
    | .value w => give (.peer r.va w)
    | .fault cause info => give (.fault cause info (wordN r.va))
  | _ => .next s

/-- The die whose walker a slot waits for, if it does. -/
def Slot.walks (x : Slot) (c : Nat) : Option Nat :=
  match x.wait with
  | some (.fetch _) => some (dieOf c)
  | some (.walk _ die _) => some die
  | _ => none

/-- Whether a slot's walk is among the 256 that its die has in progress: the oldest requests are (R11; log 8). -/
def State.walking (s : State) (core slot : Nat) : Bool :=
  let x := s.slotAt core slot
  (x.walks core).any fun die =>
    decide ((s.slotList.filter fun e =>
      e.2.2.walks e.1 == some die && decide (e.2.2.ticket.getD 0 < x.ticket.getD 0)).length < 256)

/-- A walk for a slot completes (R53): a translation is kept by the die, what cannot be mapped traps (R312), and an absent page parks
the strand at once (R329, R330). A walk reads its entries at one moment: none is in progress under an old root or entry when PTROOT or
TCINV is written (DESIGN CHOICE, log 8). -/
def execTranslationWalk (core slot : Nat) (s : State) : Out :=
  if !s.walking core slot then .next s else
  let x := s.slotAt core slot
  match x.wait with
  | some (.fetch va) =>
    let s := s.walkProbe va
    let s1 := ({ s with core, slot } : State).modCur fun x => { x with wait := none, unit := .never }
    match s.walk va with
    | .leaf t => .next ((s.tcFill (dieOf core) t).modSlot core slot fun x => { x with wait := none })
    | .absent .. => s1.settle (.after fun s => s.parkPage va)
    | .malformed => s1.settle (fetchTrap 2 x.ctx.pc)
  | some (.walk va die req) =>
    let give (s : State) (r : Reply) : Out :=
      .next (s.modSlot core slot fun x =>
        match req with
        | some _ => { x with wait := some (.reply r) }
        | none => { x with wait := none, replies := x.replies ++ [r] })
    let s := s.walkProbe va
    match s.walk va with
    | .leaf t =>
      .next ((s.tcFill die t).modSlot core slot fun x => { x with wait := req.map Wait.request })
    | .absent .. => (({ s with core, slot } : State).modCur fun x => { x with wait := none }).settle (.after fun s => s.parkPage va)
    | .malformed => give s (.fault 4 7 (wordN va))
  | _ => .next s

end Sys2Proof.Machine
end

