-- ==== Sys2Proof/Machine/Errors.lean ====
section
/-! DEFINITION. Scrubbing (R344), lasting faults and the retirement of frames (R350, R351), reports of data errors (R348). -/

namespace Sys2Proof.Machine

/-- Post a KIND 9 record that no cluster met. -/
def State.report (s : State) (start : Word) (len cls store : Nat) (arg2 : Word) : State :=
  s.post 9 0xFFFF start (wordN (len + 2 ^ 32 * cls + 2 ^ 40 * store)) arg2

def allOnes64 : Word := wordN (2 ^ 64 - 1)

/-- Close a frame's entry. -/
def State.closeEntry (s : State) (frame : Nat) : State :=
  { s with corrected := s.corrected.filter fun e => e.frame != frame }

/-- Retire a frame (R351): its page moves to the first spare, or system software is told that it must move it. -/
def State.retireFrame (s : State) (e : CorrEntry) : State :=
  let old := e.frame * frameSize
  let spare := bitsOf s.regs.spare.toNat 39 15 * 2 ^ 15
  let s := s.closeEntry e.frame
  match e.va with
  | none => s.report allOnes64 frameSize 3 0 (wordN old)
  | some va =>
    let start := wordN (va / frameSize * frameSize)
    if s.smallFrame va ≠ some old || spare = 0 then s.report start frameSize 3 0 (wordN old)
    else
      let s := (s.probe none spare 8).2
      let next := bitsOf (s.mem.readNat spare 8) 39 15 * 2 ^ 15
      let s := { s with regs := { s.regs with spare := wordN next } }.movePage va old spare
      let s := s.closeEntry e.frame
      ({ s with retired := insertNat old s.retired }.errAdd 55 48).report start frameSize 4 0 (wordN old)

/-- Candidates are retired at once or, where host-assisted mode held when they were detected, reported once (R20, R351); one waits while the
device cannot hold its record (R289). -/
def State.retireDue (s : State) : State :=
  (s.corrected.filter fun e => e.due && !e.posted).foldl (fun (s : State) e =>
    if !s.canPost then s
    else if e.soft then
      { s with corrected := s.corrected.map fun (x : CorrEntry) => if x.frame == e.frame then { x with posted := true } else x }.post 4 0xFFFF
        (wordN (e.frame * frameSize)) (wordN e.count) 0
    else s.retireFrame e) s

/-- The scrub of a stack finds an error. One that cannot be corrected under a good cached copy stays: what is cached is read as it stands, and
memory is lost where the copy goes without a write-back (log 112). -/
def State.scrubbed (s : State) (f : Flaw) : State :=
  if f.kind == .uncorrectable && s.hidden f then (s.countFrame f.unit none true).errAdd 31 16 else s.found f none

/-- A stack's controller scrubs the sector of a physical address; what it cannot correct it poisons and reports without a virtual
address, where the device can hold the record (R289). -/
def execScrubRead (pa : Nat) (s : State) : Out :=
  let u := pa / 128 * 128
  let hit (f : Flaw) : Bool := f.store == 0 && f.unit == u && decide (u < 2 ^ 40)
  let lost := s.flaws.any fun f => hit f && f.kind == .uncorrectable
  let s := (s.flaws.filter hit).foldl State.scrubbed s
  .next (if lost && !s.pendingRec (poisonRec u) && s.canPost then
    s.postFor u 9 0xFFFF allOnes64 (wordN (128 + 2 ^ 32)) (wordN u) else s)

/-- An entry whose count has not reached 3 closes at the end of its window (R350). -/
def execErrorEntryExpiry (stack frame : Nat) (s : State) : Out :=
  .next { s with corrected := s.corrected.filter fun e => !(e.frame == frame && e.frame / 2 ^ 21 == stack && !e.due) }

end Sys2Proof.Machine
end

