-- ==== Sys2Proof/Machine/Links.lean ====
section
/-! DEFINITION. Peer devices: their requests (R286), strands that arrive from them (R288, R332), and links (R354, R355). What stands
at the other end of a link is outside this device (log 16). -/

namespace Sys2Proof.Machine

/-! ### Requests of peers (R286, R76) -/

/-- A peer calls its strand back, whose block is to be swapped: it is stopped at its next chunk end and shipped home, wherever it has gone on
to (R30, R288). -/
def State.serveRecall (s : State) (id : BitVec 32) : Option PeerAns × State :=
  let hit (x : Ctx) : Bool := x.foreign.isSome && x.strandId == id
  match s.slotList.find? fun e => e.2.2.occ == .running && hit e.2.2.ctx with
  | some (c, k, x) =>
    if x.atBoundary && !x.bound then (some (.value 0), s.guestHome c k) else (none, s.modSlot c k Slot.endHere)
  | none =>
    let on := s.shipped.filter fun p => hit p.2.2 && !s.recalled.contains id
    let s := on.foldl (fun (s : State) p =>
      { s with recalled := s.recalled ++ [id] }.sendPeer p.1 p.2.1 p.2.2.tdom.toNat (.recall id)) s
    let out := s.cores.flatMap fun (e : Nat × CoreSt) =>
      ((e.2.deque.filter hit) ++ (e.2.arrivals.filter fun a => hit a.ctx).map fun a => a.ctx).map fun x => (e.1, x)
    let s := { s with cores := s.cores.map fun (e : Nat × CoreSt) =>
      (e.1, { e.2 with deque := e.2.deque.filter fun x => !hit x, arrivals := e.2.arrivals.filter fun a => !hit a.ctx }) }
    (some (.value 0), out.foldl (fun s e => s.contextHome e.1 e.2) s)

/-- A strand that was shipped is at the device that it went to no more. -/
def State.cameFrom (s : State) (p : Nat × Nat × Ctx) : State :=
  { s with shipped := s.shipped.filter fun q => q != p, recalled := s.recalled.filter fun i => i != p.2.2.strandId }

/-- A strand that was shipped has ended where it went (R163, R288): its block may be complete, or the device that it had come from is
told. -/
def State.strandGone (s : State) (id : BitVec 32) : State :=
  match s.shipped.find? fun p => p.2.2.strandId == id with
  | some p =>
    let s := s.cameFrom p
    match p.2.2.foreign with
    | some dev => s.sendPeer dev 0 p.2.2.tdom.toNat (.ended id)
    | none => s.settleBlock p.2.2.launch.toNat p.2.2.block.toNat
  | none => s

/-- A strand that was shipped has made another of its block where it went (R160, R288). -/
def State.strandBorn (s : State) (parent child : BitVec 32) : State :=
  (s.shipped.filter fun e => e.2.2.strandId == parent).foldl (fun (s : State) e =>
    let s := { s with shipped := s.shipped ++ [(e.1, e.2.1, { e.2.2 with strandId := child })] }
    match e.2.2.foreign with
    | some dev => s.sendPeer dev 0 e.2.2.tdom.toNat (.born parent child)
    | none => s) s

/-- What a request finds: its answer, or that it must wait at the home, for a page or at poison (R329, R346). -/
def State.servePeer (s : State) (dom va : Nat) (op : PeerOp) : Option PeerAns × State :=
  let reach : Reach := if va < 2 ^ 56 then .space else .bad 0
  let spot (need : Nat) (look : State → Nat → Option Nat × State) (f : State → Nat → Option PeerAns × State) : Option PeerAns × State :=
    match s.devSpot reach dom need va with
    | (.here sa, s) =>
      match look s sa with
      | (some u, s) => (none, s.poisonMet u va 0xFFFF)
      | (none, s) => f s sa
    | (.fault cause info, s) => (some (.fault cause info), s)
    | (.absent, s) => (none, s.awaitPage va)
    | (.away _, s) => (some (.fault 4 3), s)
  let at' (need n : Nat) (f : State → Nat → Option PeerAns × State) : Option PeerAns × State :=
    spot need (fun s sa => s.probe (some va) sa n) f
  let atom (s : State) (sa : Nat) (o : AtomOp) (n : Nat) (y c : Word) : Option PeerAns × State :=
    let r := s.devRead va sa n
    let v := leNat r.1
    (some (.value (wordN v)), r.2.devWrite va sa (leBytes n (atomApply o n v y.toNat c.toNat).1))
  match op with
  | .load n => at' 1 n fun s sa => let r := s.devRead va sa n; (some (.value (wordN (leNat r.1))), r.2)
  | .store b => spot 2 (fun s sa => s.probePart va sa b.length) fun s sa => (some (.value 0), s.devWrite va sa b)
  | .clear => at' 8 8 fun s sa => (some (.value 0), s.devWrite va sa (leBytes 8 0))
  | .atom o n y c => at' 9 n fun s sa => atom s sa o n y c
  | .bits mask v => at' 2 1 fun s sa =>
      let r := s.devRead va sa 1
      (some (.value 0), r.2.devWrite va sa [(r.1.headD 0 &&& ~~~mask) ||| (v &&& mask)])
  | .cupd o n y => at' 8 n fun s sa => atom s sa o n y 0
  | .fget => at' 1 16 fun s sa =>
      let r := s.devRead va sa 16
      (some (if bitOf (leNat r.1) 64 then .value (wordN (leNat r.1)) else .fault 7 0), r.2)
  | .fput v => at' 8 16 fun s sa =>
      let r := s.devRead va sa 16
      let full := leNat (r.1.drop 8)
      (some (.value (wordN full)), if bitOf full 0 then r.2 else r.2.devWrite va sa (leBytes 8 v.toNat ++ leBytes 8 1))
  | .recall id => s.serveRecall id
  | .ship _ => (some (.value 0), s)
  | .ended id => (some (.value 0), s.strandGone id)
  | .born p c => (some (.value 0), s.strandBorn p c)
  | .wake id launch => (some (.value 0), { s with wakes := s.wakes ++ [{ id, launch }] })

/-- Whether a request is an access, which keeps its place among those of its link at its home. -/
def isAccess : PeerOp → Bool
  | .ship _ | .wake .. | .recall _ | .ended _ | .born .. => false
  | _ => true

/-- Requests that wait are tried again in order of arrival, none before an earlier one of its link at its home (R76). -/
def State.retryPeers (s : State) : List (Nat × Nat × Word × PeerOp) → List (Nat × Nat) → State
  | [], _ => s
  | (link, dom, va, op) :: rest, held =>
    let place := (link, s.homeOf va.toNat)
    let keep (s : State) : State := { s with peerHeld := s.peerHeld ++ [(link, dom, va, op)] }
    if isAccess op && held.contains place then (keep s).retryPeers rest held
    else
      match s.servePeer dom va.toNat op with
      | (some a, s) => { s with peerIn := s.peerIn ++ [a] }.retryPeers rest held
      | (none, s) => (keep s).retryPeers rest (if isAccess op then place :: held else held)

/-- A request from a peer arrives over a link, where traffic passes (R355), and is performed at its home, or waits there for a page. A load of
no bytes stands for no request: those that wait are tried. -/
def execPeerRequest (dom : Nat) (va : Word) (op : PeerOp) (s : State) : Out :=
  let new := match op with
    | .load 0 => []
    | _ => if (s.links.get LinkSt.reset (dom / 4096)).flows then [(dom / 4096, dom % 4096, va, op)] else []
  .next ({ s with peerHeld := [] }.retryPeers (s.peerHeld ++ new) [])

/-! ### Strands (R286, R288, R332) -/

/-- The park store of a strand's core of ordinal 0 has no room (R330). -/
def State.homeFull (s : State) (x : Ctx) : Bool := decide (16 ≤ (s.coreAt ((s.baseOf { x with foreign := none }).getD 0)).parkStore.length)

/-- A strand of this device's own comes home: parked for its page, on the park store of its block's core of ordinal 0, or ready to
go on, on that core's deque. One that finds no room to park makes its access from there, and parks then (log 16). -/
def State.comeHome (s : State) (x : Ctx) (va : Nat) : State :=
  let x := { x with foreign := none, parked := x.parked && !s.homeFull x }
  let base := (s.baseOf x).getD 0
  let x := s.seatCtx base x
  if x.parked then
    let f := s.takeFseq (clusterOf base)
    let y : Slot := { Slot.empty with occ := .running, ctx := { x with fseq := some f.1 }, wait := some (.page va) }
    f.2.modCore base fun q => { q with parkStore := q.parkStore ++ [{ own := none, slot := y }] }
  else s.pushTop base x

/-- A strand of a peer comes: it had arrived there if it was sent home before. Where no other strand of its launch is here, a free bit says
whether that launch is a new one, which has no classes and no dictionary yet (R102, R207; log 16). -/
def State.welcome (s : State) (dev : Nat) (x : Ctx) : State :=
  let back (e : Nat × Nat × Nat × PeerOp) : Bool :=
    e.1 == dev && match e.2.2.2 with | .ship l => (Ctx.ofLine l).strandId == x.strandId | _ => false
  let s := { s with homing := s.homing.filter fun e => !back e }
  let mate (y : Ctx) : Bool := y.foreign == some dev && y.launch == x.launch
  let here := s.slots.any (fun e => e.2.occ == .running && mate e.2.ctx)
    || s.cores.any (fun e => e.2.deque.any mate || e.2.arrivals.any fun a => mate a.ctx)
    || s.cmds.any fun c => c.foreign == some dev && c.launch == x.launch
  if here then s
  else
    let b := s.drawBit
    if !b.1 then b.2
    else
      let num := (Launch.ofPeer dev x.launch.toNat).num
      { b.2 with
        clusters := b.2.clusters.map fun (e : Nat × ClusterSt) =>
          (e.1, { e.2 with ropeClasses := e.2.ropeClasses.filter fun r => !(r.foreign == some dev && r.launch == x.launch.toNat) })
        cores := b.2.cores.map fun (e : Nat × CoreSt) => (e.1, { e.2 with dicts := e.2.dicts.filter fun d => d.1 != num }) }

/-- The entry of a strand that was shipped and now comes from a device: to which it was shipped, or to which it has gone on. A context
names no device; it is known by its id, launch and block (log 16). -/
def State.shippedAs (s : State) (dev : Nat) (x : Ctx) : Option (Nat × Nat × Ctx) :=
  let same (p : Nat × Nat × Ctx) : Bool := p.2.2.strandId == x.strandId && p.2.2.launch == x.launch && p.2.2.block == x.block
  (s.shipped.find? fun p => p.1 == dev && same p).orElse fun _ => s.shipped.find? same

/-- Whether the home of an address can take a strand that comes for an access to it (R52, R288). -/
def State.admits (s : State) (va : Nat) : Bool :=
  decide (va < 2 ^ 56) && decide ((s.coreAt (s.homeOf va)).arrivals.length < 16) && !s.manualCore (s.homeOf va)
/-- It enters the arrival buffer of that core. -/
def State.arrive (s : State) (x : Ctx) (va : Nat) : State :=
  s.modCore (s.homeOf va) fun q => { q with arrivals := q.arrivals ++ [{ ctx := { x with guest := true }, predH := 0, predN := 0 }] }

/-- A strand that was shipped comes back: for an access here (R286), which it makes as a request where its home cannot take it (R52); or, with no
access to make (address 0), when it was called back or when it waits for a page, to its block, which may be another device's. -/
def State.comeBack (s : State) (p : Nat × Nat × Ctx) (dev : Nat) (x : Ctx) (va : Nat) (line : List Byte) : State :=
  let s' := s.cameFrom p
  if x.parked || s.recalled.contains x.strandId || va = 0 then
    match x.foreign with
    | some d => s'.shipBack d (if x.parked then va else 0) x.tdom.toNat line
    | none => s'.comeHome x va
  else if s.admits va then s'.arrive x va
  else State.sendPeer { s' with shipped := s'.shipped ++ [(dev, va, p.2.2)] } dev va x.tdom.toNat (.ship line)

/-- A strand's context arrives from a peer, where traffic passes (R355): one that had been shipped comes back; any other is a strand of that
peer, and enters the arrival buffer of its address's home as a guest, or goes back where that core cannot take it, to make its access as
a request (R52). -/
def execPeerStrandArrival (dev : Nat) (line : List Byte) (va : Word) (s : State) : Out :=
  let x := Ctx.ofLine line
  if s.linkStalled dev then .next s
  else
    match s.shippedAs dev x with
    | some p =>
      let x := { x with bcore := p.2.2.bcore, fseq := none, foreign := p.2.2.foreign }
      -- it waits in the link until there is room to park it
      if x.parked && x.foreign.isNone && s.homeFull x then .next s else .next (s.comeBack p dev x va.toNat line)
    | none =>
      let s := s.welcome dev x
      if s.admits va.toNat then .next (s.arrive { x with foreign := some dev } va.toNat)
      else .next (s.shipBack dev va.toNat x.tdom.toNat line)

/-! ### Links (R354, R355) -/

def State.setLink (s : State) (l : Nat) (x : LinkSt) : State := { s with links := s.links.set l x }

/-- A flit that failed its CRC is sent again, and this time passes (`cls` 4 to 7) or fails (0 to 3): 16 failures in a row make the link
retrain, and none is sent again before it has. Delivery order is kept, so nothing else changes. -/
def execLinkRetransmit (link cls : Nat) (s : State) : Out :=
  let x := s.links.get LinkSt.reset link
  if decide (18 ≤ link) || decide (8 ≤ cls) || !x.up || decide (16 ≤ x.replays) then .next s
  else .next (s.setLink link { x with replays := if 4 ≤ cls then 0 else min (x.replays + 1) 16 })

/-- Whether what was sent by a link that is lost had been delivered: what still waited for it had not, of the rest a free bit says (log 16). What
had not is sent no more by itself. -/
def State.delivered (s : State) (e : Nat × Nat × Nat × PeerOp) : Bool × State :=
  if s.linkHeld.contains e then (false, { s with linkHeld := s.linkHeld.erase e }) else s.drawBit

/-- A strand waits for a peer by link `l`: its access had been delivered, or the strand parks, and makes it again when it is woken. -/
def State.slotCut (s : State) (l : Nat) (e : Nat × Nat × Slot) : State :=
  match e.2.2.wait with
  | some (.peer dev r) =>
    if s.linkOf dev != some l then s
    else
      let d := s.delivered (dev, r.va, e.2.2.ctx.tdom.toNat % 4096, r.op)
      if d.1 then d.2
      else d.2.atSlot e.1 e.2.1 fun s => let r' := s.closeBefore; if r'.1 then (r'.2.parkDown r.va).reseat e.1 e.2.1 else r'.2
  | _ => s

/-- Elements of a slot's write streams that were on their way to a peer by link `l` had been delivered, or go again. -/
def State.streamsCut (s : State) (l : Nat) (e : Nat × Nat × Slot) : State :=
  (List.finRange 4).foldl (fun (s : State) t =>
    match e.2.2.streams[t] with
    | none => s
    | some st =>
      let va := (st.addr st.drained).toNat
      let dev := match s.walk va with | .leaf x => x.peer | .absent .. | .malformed => none
      if !st.sent || !dev.any (fun d => s.linkOf d == some l) then s
      else
        let op : PeerOp := .store (leBytes st.size (st.buf.headD 0).toNat)
        let d := s.delivered (dev.getD 0, va, e.2.2.ctx.tdom.toNat % 4096, op)
        if d.1 then d.2
        else d.2.modSlot e.1 e.2.1 fun y => { y with streams := y.streams.set t (y.streams[t].map fun st => { st with sent := false }) }) s

/-- A link goes down: strands whose accesses leave by it and had not been delivered park, and make them again when they are woken; a
shipped context that had not been acknowledged is admitted again where it came from, to wait there, and one of a peer's on its way home
is kept to go by another route. -/
def State.linkLost (s : State) (l : Nat) : State :=
  let s := s.slotList.foldl (fun s e => (s.streamsCut l e).slotCut l e) s
  let s := (s.homing.filter fun e => s.linkOf e.1 == some l).foldl (fun (s : State) (e : Nat × Nat × Nat × PeerOp) =>
    let b := s.drawBit
    { b.2 with
      homing := b.2.homing.filter fun h => h != e
      linkHeld := if b.1 then b.2.linkHeld else b.2.linkHeld ++ [e] }) s
  (s.shipped.filter fun p => s.linkOf p.1 == some l).foldl (fun (s : State) (p : Nat × Nat × Ctx) =>
    let d := s.delivered (p.1, p.2.1, p.2.2.tdom.toNat % 4096, .ship p.2.2.toLine)
    if d.1 then d.2
    else
      let x := { p.2.2 with parked := true }
      let s := d.2.cameFrom p
      match x.foreign with
      | some dev => s.shipBack dev p.2.1 x.tdom.toNat x.toLine
      | none => s.comeHome x p.2.1) s

/-- A link retrains after 16 failed retransmissions; the third failure in a row takes it down. -/
def execLinkRetrain (link : Nat) (ok : Bool) (s : State) : Out :=
  let x := s.links.get LinkSt.reset link
  if decide (18 ≤ link) || !x.up || decide (x.replays < 16) then .next s
  else
    let s := if x.failed = 0 then s.errAdd 63 56 else s
    if ok then .next (s.setLink link LinkSt.reset)
    else if x.failed < 2 then .next (s.setLink link { x with failed := x.failed + 1 })
    else
      .next (((s.setLink link { up := false, replays := 0, failed := 0 }).linkLost link).report allOnes64 0 5 6 (wordN link))

end Sys2Proof.Machine
end

