-- ==== Sys2Proof/Machine/Answers.lean ====
section
/-! DEFINITION. Verdicts on management event records (R290): what each kind's answer does. -/

namespace Sys2Proof.Machine

/-! ### Strands that wait for a verdict (R174, R310, R347) -/

/-- What a den keeps of a core once strands are discarded: slots 1 to 15 of a manual block hold them finished (R32). -/
def CoreSave.discard (manual : Bool) (hit : Slot → Bool) (g : CoreSave) : CoreSave :=
  let over' (e : Nat × Slot) : Option (Nat × Slot) :=
    if e.2.occ == .running && hit e.2 then
      if manual && e.1 != 0 then
        some (e.1, { e.2.cleared with occ := .finished, ctx := { e.2.ctx with parked := false } })
      else none
    else some e
  { g with slots := g.slots.filterMap over', parkStore := g.parkStore.filter fun q => !hit q.slot }

/-- As `CoreSave.discard`, for a block in a den. -/
def State.discardDen (s : State) (hit : Slot → Bool) (b : Block) : Block :=
  let manual : Bool := match s.launch? b.launch with | some l => l.manual | none => false
  let den (d : Den) : Den := { d with cores := d.cores.map (CoreSave.discard manual hit) }
  { b with place := match b.place with
    | .waiting k d => .waiting k (d.map den)
    | .running n => .running n
    | .den d => .den (den d) }

/-- Strands are discarded, their futures left untouched (R310), wherever they stand. -/
def State.discardWhere (s : State) (p : Slot → Bool) : State :=
  let hit (x : Slot) : Bool := x.ctx.parked && p x
  let stored := s.cores.flatMap fun e => (e.2.parkStore.filter fun q => hit q.slot).map fun q => q.slot.ctx
  let s := { s with
    blocks := s.blocks.map (s.discardDen hit)
    cores := s.cores.map fun (e : Nat × CoreSt) =>
      (e.1, { e.2 with parkStore := e.2.parkStore.filter fun q => !hit q.slot }) }
  let slots := s.slotList.filter fun e => e.2.2.occ == .running && hit e.2.2
  let s := slots.foldl (fun (s : State) (e : Nat × Nat × Slot) => s.endStrand e.1 e.2.1) s
  (stored.foldl (fun (s : State) (x : Ctx) => s.settleBlock x.launch.toNat x.block.toNat) s).seatWoken

/-- Whether a slot's strand waits for the verdict on a halt. -/
def Slot.halted (id : Word) (x : Slot) : Bool :=
  x.wait == some .verdict && wordN x.ctx.strandId.toNat == id

/-- A halted strand goes on where it stands (R310). -/
def State.resumeHalted (s : State) (id : Word) : State :=
  let go (x : Slot) : Slot := if x.ctx.parked && x.halted id then x.woken else x
  (s.mapSlots fun _ _ x => go x).mapDens go

/-- A stopped control core is idle again, and CCGO is 0 (R327). -/
def State.idleCtrl (s : State) (k : Nat) : State :=
  let a := ctrlSa k ccgoOff
  (s.modCluster k fun u => { u with ccRun := none, ccStopped := false }).devWrite a a (leBytes 8 0)

/-! ### Packets (R326) -/

/-- Verdict 1 completes a faulty packet, 2 reads it again, 3 disables its queue. -/
def State.packetVerdict (s : State) (q v : Nat) : State :=
  match s.pktIn q with
  | none => s
  | some p =>
    if !p.stopped then s
    else if v = 1 then s.completePkt q
    else if v = 2 then s.retryPkt q
    else
      let c := s.regs.lqctl.get 0 q
      { s.dropPkt q with regs := { s.regs with lqctl := s.regs.lqctl.set q (wordN (c.toNat - bitsOf c.toNat 3 3 * 8)) } }

/-! ### Poison (R347) -/

/-- Verdicts on a poisoned unit: commands held at it go on in every case, and its strands are discarded (2) or woken. -/
def State.poisonVerdict (s : State) (r : MeqRec) (v : Nat) : State :=
  let unit := r.ref
  let zeros := leBytes (unitSize unit) 0
  let s :=
    if v ≠ 3 then s
    else if r.arg0 == allOnes64 then s.putPhys unit zeros
    else s.devWrite r.arg0.toNat unit zeros
  let s := { s with cmds := s.cmds.map fun (c : Cmd) => if c.heldPoison == some unit then { c with heldPoison := none } else c }
  let clear (st : Stream) : Stream := if st.tainted == some unit then { st with tainted := none } else st
  let s := s.mapKept fun x => { x with streams := x.streams.map fun (o : Option Stream) => o.map clear }
  let hit (x : Slot) : Bool := x.wait == some (.poison unit)
  if v = 2 then { s.discardWhere hit with foreignParked := s.foreignParked.filter fun e => e.2.2 != 2 ^ 64 + unit }
  else (s.wakeForeign fun a => a == 2 ^ 64 + unit).wakeWhere hit

/-! ### Answers (R290) -/

/-- Whether a verdict is one that the table defines for a record's kind. -/
def MeqRec.takes (r : MeqRec) (v : Nat) : Bool :=
  match r.kind with
  | 1 => v == 1
  | 2 | 4 | 5 => decide (v < 2)
  | 3 => decide (1 ≤ v) && decide (v < 4)
  | 7 => decide (1 ≤ v) && decide (v < 3)
  | 8 => decide (0x100 ≤ r.arg0.toNat) || (decide (1 ≤ v) && decide (v < 4))
  | 9 => decide (1 ≤ v) && decide (v < 4)
  | _ => false

/-- What a verdict on a record does. -/
def State.answered (s : State) (r : MeqRec) (v : Nat) (arg : Word) : State :=
  match r.kind with
  | 1 => (s.faults.filter fun f => f.covers r.arg0.toNat).foldl State.pageServed s
  | 2 => s.swapVerdict r.arg0.toNat r.arg1.toNat (v == 1)
  | 3 => s.victimNamed r.cluster arg v
  | 4 =>
    match s.corrected.find? fun e => e.posted && e.frame * frameSize == r.arg0.toNat with
    | some e => if v = 1 then s.retireFrame e else s.closeEntry e.frame
    | none => s
  | 5 => if v = 1 && decide (arg.toNat < 16) then s.addMig r.arg0.toNat arg.toNat false false else s
  | 7 => if v = 1 then s.resumeHalted r.arg0 else s.discardWhere (Slot.halted r.arg0)
  | 8 => if r.arg0.toNat < 0x100 then s.packetVerdict r.arg0.toNat v else s.idleCtrl (r.arg0.toNat - 0x100)
  | 9 => s.poisonVerdict r v
  | _ => s

/-- An answer arrives for the record that its SEQ names; one that names none, or brings no verdict of its kind, is ignored. -/
def State.meqAnswered (s : State) (w : Word) : State :=
  let v := bitsOf w.toNat 35 32
  match s.meqOpen.find? fun r => r.seq == w.toNat % 2 ^ 32 with
  | none => s
  | some r =>
    if r.takes v then { s with meqOpen := s.meqOpen.filter fun x => x.seq != r.seq }.answered r v s.regs.meqans0 else s

end Sys2Proof.Machine
end

