-- ==== Sys2Proof/Machine/Window.lean ====
section
/-! DEFINITION. The device register window (R7, R8, R43, R44): what each register reads as and what a write does, by the register's
own table; and the host's other windows (R76, R284). -/

namespace Sys2Proof.Machine

/-! ### Fields -/

/-- Keep the bit ranges listed; every other bit is 0. -/
def keepBits (l : List (Nat × Nat)) (w : Word) : Word := wordN (l.foldl (fun n r => n + bitsOf w.toNat r.1 r.2 * 2 ^ r.2) 0)
/-- A register's value after a write of the bits that a mask names. -/
def putMask (old mask v : Word) : Word := (old &&& ~~~mask) ||| (v &&& mask)
/-- As `putMask`, of a register whose fields are the ranges listed. -/
def putFields (l : List (Nat × Nat)) (old mask v : Word) : Word := keepBits l (putMask old mask v)
/-- A field's value, at most `n`. -/
def capField (hi lo n : Nat) (w : Word) : Word := putBits w hi lo (min (bitsOf w.toNat hi lo) n)
def word16 (b : BitVec 16) : Word := wordN b.toNat

/-! ### Reading -/

/-- Entry of HOMETAB; unwritten ones hold their reset value (R48). -/
def State.homeEntry (s : State) (i : Nat) : BitVec 16 := s.regs.hometab.get 0x8000 i

/-- Registers below 0x1000. -/
def State.deviceRead (s : State) (off : Nat) : Word :=
  let r := s.regs
  match off with
  | 0x100 => wordN r.dmode.toNat
  | 0x108 => r.ptroot
  | 0x110 => r.drtbase
  | 0x120 => wordN r.tcinvBusy.toNat
  | 0x128 => r.mcbase
  | 0x130 => wordN (r.lqnext.get 0 0).toNat
  | 0x138 => wordN (r.lqnext.get 0 1).toNat
  | 0x140 => r.devid
  | 0x148 => r.lrtbase
  | 0x150 => r.meqbase
  | 0x158 => wordN (r.meqRidx.toNat * 2 ^ 32 + r.meqWidx.toNat)
  | 0x170 => wordN (r.pwrK * 2 ^ 16 + r.pwrCap)
  | 0x178 => wordN (min r.log.length 64 * 2 + r.bootReady.toNat)
  | 0x180 => r.attctl
  | 0x190 => r.denbase
  | 0x198 => wordN (s.freeFrames.length % 2 ^ 16 * 2 ^ 32 + r.dennum)
  | 0x1A0 => r.kvpol
  | 0x1A8 => r.errcnt
  | 0x1B0 => r.spare
  | 0x1B8 => r.migctl
  | 0x1C0 => wordN (r.migFail.toNat * 2 ^ 6 + r.migBusy.toNat)
  | 0x1C8 => r.migfbase
  | _ => 0

/-- Registers of cluster `k`: the monitor's at 0, the scheduler's at 1, the capacity and error registers at 2. -/
def State.clusterRead (s : State) (bank k off : Nat) : Word :=
  let u := s.clusterAt k
  match bank, off with
  | 0, 0x00 => u.omcfg
  | 0, 0x08 => u.ompool
  | 0, 0x10 => u.omstat
  | 0, 0x18 => u.ombatch
  | 1, 0x00 => wordN u.slice.toNat
  | 1, 0x08 => wordN (u.cost.toNat * 2 ^ 32 + u.slfl.toNat)
  | 1, 0x10 => wordN ((s.preBusy k).toNat * 2 ^ 8 + u.held.toNat)
  | 1, 0x18 => u.kpark
  | 1, 0x20 => wordN (min (s.clusterParked k) 256 * 2 ^ 32 + u.fseq % 2 ^ 32)
  | 2, 0x00 => u.capctl
  | 2, 0x08 => u.capstat
  | 2, 0x10 => u.edlog
  | _, _ => 0

/-- Registers of launch queue `q`. -/
def State.queueRead (s : State) (q off : Nat) : Word :=
  match off with
  | 0x00 => s.regs.lqbase.get 0 q
  | 0x08 => s.regs.lqctl.get 0 q
  | 0x10 => wordN (s.regs.lqwidx.get 0 q).toNat
  | 0x18 => wordN (s.regs.lqridx.get 0 q).toNat
  | _ => 0

/-- TRCTL of a core (R61). -/
def State.trctl (s : State) (c : Nat) : Word :=
  let q := s.coreAt c
  wordN (bitsOf q.trBase.toNat 63 16 * 2 ^ 16 + q.trEn.toNat * 2 ^ 12 + q.trHead % 4096)

/-- The 8-byte word of the window at an offset that is a multiple of 8; offsets that hold nothing read as 0 (R43). -/
def State.windowRead (s : State) (off : Nat) : Word :=
  if off < 0x1000 then s.deviceRead off
  else if off < 0x3000 then
    wordN ((List.range 4).foldl (fun n i => n + (s.homeEntry ((off - 0x1000) / 2 + i)).toNat * 2 ^ (16 * i)) 0)
  else if off < 0x4000 then 0
  else if off < 0x5000 then s.trctl ((off - 0x4000) / 8)
  else if off < 0x8000 then 0
  else if off < 0x9000 then s.clusterRead 0 ((off - 0x8000) / 0x40) (off % 0x40)
  else if off < 0x10000 then 0
  else if off < 0x11000 then s.queueRead ((off - 0x10000) / 0x40) (off % 0x40)
  else if off < 0x12000 then s.clusterRead 1 ((off - 0x11000) / 0x40) (off % 0x40)
  else if off < 0x13000 then s.clusterRead 2 ((off - 0x12000) / 0x40) (off % 0x40)
  else if off < 0x20000 then 0
  else wordN (leNat ((s.regs.log.take 64).flatten.drop (off - 0x20000) |>.take 8))

/-! ### Writing -/

/-- PTROOT: every translation held is discarded before a later walk (R53). -/
def State.writePtroot (s : State) (v : Word) : State :=
  { s with
    regs := { s.regs with ptroot := v }
    dies := s.dies.map fun (e : Nat × DieSt) => (e.1, { e.2 with tc := [] }) }

/-- DRTBASE and PLBFLUSH empty every PLB (R47). -/
def State.flushPlbs (s : State) : State := { s with cores := s.cores.map fun (e : Nat × CoreSt) => (e.1, { e.2 with plb := [] }) }

/-- TCINV (R54): the page is invalidated; BUSY stays 1 until that has completed. -/
def State.writeTcinv (s : State) (v : Word) : State :=
  let s := s.invalidatePage (bitsOf v.toNat 63 15 * 2 ^ 15)
  { s with regs := { s.regs with tcinvBusy := true } }

/-- A HOMETAB entry is switched (R49). Accesses that meet the switch wait for its end, and are performed at the new home. -/
def State.writeHome (s : State) (i : Nat) (v : BitVec 16) : State :=
  let s := s.switchHome i (v &&& 0x81FF)
  { s with regs := { s.regs with tcinvBusy := true }, switching := some i }

/-- The area of dens changes (R339): while a launch is resident, frames of the old one outside the new one are lost (R328). -/
def State.moveDens (s : State) (base : Word) (num : Nat) : State :=
  let t := { s with regs := { s.regs with denbase := base, dennum := num } }
  if s.launches.isEmpty then t
  else
    let a := t.denBase
    let old := (List.range s.regs.dennum).map fun i => s.denBase + denFrame * i
    let inside (f : Nat) : Bool := decide (a ≤ f) && decide (f + denFrame ≤ a + denFrame * num)
    { t with denLost := (old.filter fun f => !inside f).foldl (fun l f => insertNat f l) t.denLost }

/-- Registers below 0x1000. A write of part of a register leaves its other bits as they were; what a write starts acts on the bits
written, the others counting as 0 (DESIGN CHOICE, log 99). -/
def State.deviceWrite (s : State) (off : Nat) (mask v : Word) : State :=
  let r := s.regs
  let put (l : List (Nat × Nat)) (old : Word) : Word := putFields l old mask v
  match off with
  | 0x100 => { s with regs := { r with dmode := BitVec.ofNat 32 (put [(5, 0)] (wordN r.dmode.toNat)).toNat } }
  | 0x108 => s.writePtroot (put [(39, 8)] r.ptroot)
  | 0x110 => { s with regs := { r with drtbase := put [(39, 24)] r.drtbase } }.flushPlbs
  | 0x118 => s.flushPlbs
  | 0x120 => s.writeTcinv (v &&& mask)
  | 0x128 => { s with regs := { r with mcbase := put [(63, 15)] r.mcbase } }
  | 0x130 => { s with regs := { r with lqnext := r.lqnext.set 0 (BitVec.ofNat 7 (put [(6, 0)] (wordN (r.lqnext.get 0 0).toNat)).toNat) } }
  | 0x138 => { s with regs := { r with lqnext := r.lqnext.set 1 (BitVec.ofNat 7 (put [(6, 0)] (wordN (r.lqnext.get 0 1).toNat)).toNat) } }
  | 0x140 => { s with regs := { r with devid := put [(14, 0)] r.devid } }
  | 0x148 => { s with regs := { r with lrtbase := put [(63, 15)] r.lrtbase } }
  | 0x150 => { s with regs := { r with meqbase := put [(63, 15), (6, 0)] r.meqbase } }
  | 0x158 => { s with regs := { r with meqRidx := BitVec.ofNat 32 ((put [(63, 32)] (wordN (r.meqRidx.toNat * 2 ^ 32))).toNat / 2 ^ 32) } }
  | 0x160 => { s with regs := { r with meqans0 := putMask r.meqans0 mask v } }
  | 0x168 => s.meqAnswered (v &&& mask)
  | 0x170 => { s with regs := { r with pwrCap := min (put [(10, 0)] (wordN r.pwrCap)).toNat 1800 } }
  | 0x180 => { s with regs := { r with attctl := put [(63, 8), (0, 0)] r.attctl ||| (r.attctl &&& 1) } }
  | 0x188 =>
    let w := v &&& mask
    { s with wakes := s.wakes ++ [{ id := BitVec.ofNat 32 w.toNat, launch := some (BitVec.ofNat 16 (bitsOf w.toNat 47 32)) }] }
  | 0x190 => s.moveDens (put [(63, 16)] r.denbase) r.dennum
  | 0x198 => s.moveDens r.denbase (put [(15, 0)] (wordN r.dennum)).toNat
  | 0x1A0 => { s with regs := { r with kvpol := capField 3 0 8 (put [(3, 0)] r.kvpol) } }
  | 0x1B0 => { s with regs := { r with spare := put [(39, 15)] r.spare } }
  | 0x1B8 => { s with regs := { r with migctl := put [(31, 8)] r.migctl } }
  | 0x1C0 => s.requestMove (v &&& mask)
  | 0x1C8 => { s with regs := { r with migfbase := put [(63, 7)] r.migfbase } }
  | _ => s

/-- OMCFG: minimums above 8 store 8; CLRT clears SEEN and LASTT (R249). -/
def ClusterSt.writeOmcfg (u : ClusterSt) (mask v : Word) : ClusterSt :=
  let w := capField 23 20 8 (capField 15 12 8 (capField 7 4 8 (putFields [(23, 0)] u.omcfg mask v)))
  let clear := bitOf (v &&& mask).toNat 32
  { u with omcfg := w, omstat := if clear then putBits (putBits u.omstat 48 48 0) 31 0 0 else u.omstat }

/-- Writing 1 to a bit clears it. -/
def clearOnes (bits : List Nat) (old mask v : Word) : Word :=
  bits.foldl (fun w b => if bitOf (v &&& mask).toNat b then putBits w b b 0 else w) old

/-- Registers of cluster `k`, banked as for reading. -/
def State.clusterWrite (s : State) (bank k off : Nat) (mask v : Word) : State :=
  let m := s.modCluster k
  match bank, off with
  | 0, 0x00 => m fun u => u.writeOmcfg mask v
  | 0, 0x08 => m fun u => { u with ompool := putFields [(15, 0)] u.ompool mask v }
  | 0, 0x18 => m fun u => { u with ombatch := putFields [(63, 4)] u.ombatch mask v }
  | 1, 0x00 => m fun u => { u with slice := BitVec.ofNat 32 (putFields [(31, 0)] (wordN u.slice.toNat) mask v).toNat }
  | 1, 0x08 => m fun u => { u with slfl := u.slfl && !bitOf (v &&& mask).toNat 0 }
  | 1, 0x10 => s.writeHeld k (BitVec.ofNat 8 (putFields [(7, 0)] (wordN (s.clusterAt k).held.toNat) mask v).toNat)
  | 1, 0x18 => m fun u => { u with kpark := capField 7 0 128 (putFields [(63, 32), (7, 0)] u.kpark mask v) }
  | 2, 0x00 => m fun u => { u with capctl := putFields [(55, 24), (18, 0)] u.capctl mask v }
  | 2, 0x08 => m fun u => { u with capstat := clearOnes [35, 34] u.capstat mask v }
  | 2, 0x10 => m fun u => { u with edlog := clearOnes [32] u.edlog mask v }
  | _, _ => s

/-- Registers of launch queue `q`. -/
def State.queueWrite (s : State) (q off : Nat) (mask v : Word) : State :=
  let r := s.regs
  match off with
  | 0x00 => { s with regs := { r with lqbase := r.lqbase.set q (putFields [(63, 12), (4, 0)] (r.lqbase.get 0 q) mask v) } }
  | 0x08 => { s with regs := { r with lqctl := r.lqctl.set q (putFields [(27, 16), (3, 0)] (r.lqctl.get 0 q) mask v) } }
  | 0x10 => { s with regs := { r with lqwidx := r.lqwidx.set q (BitVec.ofNat 32 (putMask (wordN (r.lqwidx.get 0 q).toNat) mask v).toNat) } }
  | _ => s

/-- A word of the window is written. HOMETAB words are written entry by entry (`hostWrite`). -/
def State.regWrite (s : State) (off : Nat) (mask v : Word) : State :=
  if off < 0x1000 then s.deviceWrite off mask v
  else if off < 0x3000 then
    (List.range 4).foldl (fun s i =>
      let m := bitsOf mask.toNat (16 * i + 15) (16 * i)
      if m = 0 then s
      else
        let n := (off - 0x1000) / 2 + i
        s.writeHome n (BitVec.ofNat 16 (putMask (word16 (s.homeEntry n)) (wordN m) (wordN (bitsOf v.toNat (16 * i + 15) (16 * i)))).toNat)) s
  else if off < 0x4000 then s
  else if off < 0x5000 then
    let c := (off - 0x4000) / 8
    let w := putMask (s.trctl c) mask v
    s.modCore c fun q => { q with trBase := keepBits [(63, 16)] w, trEn := bitOf w.toNat 12 }
  else if off < 0x8000 then s
  else if off < 0x9000 then s.clusterWrite 0 ((off - 0x8000) / 0x40) (off % 0x40) mask v
  else if off < 0x10000 then s
  else if off < 0x11000 then s.queueWrite ((off - 0x10000) / 0x40) (off % 0x40) mask v
  else if off < 0x12000 then s.clusterWrite 1 ((off - 0x11000) / 0x40) (off % 0x40) mask v
  else if off < 0x13000 then s.clusterWrite 2 ((off - 0x12000) / 0x40) (off % 0x40) mask v
  else s

/-- A write of the window takes effect: what waited for it goes on, records to the event ring (R289) and the parsers (R273). -/
def State.windowWrite (s : State) (off : Nat) (mask v : Word) : State := s.lqSettle (State.meqDrain 257 (s.regWrite off mask v))

def inHometab (off : Nat) : Bool := decide (0x1000 ≤ off) && decide (off < 0x3000)

/-- Writes of the window that are held behind BUSY are performed in order, as far as they can be (R328). -/
def State.releaseWrites : Nat → State → State
  | 0, s => s
  | n + 1, s =>
    match s.windowQ with
    | [] => s
    | (off, mask, v) :: rest =>
      if s.regs.tcinvBusy && inHometab off then s
      else State.releaseWrites n ({ s with windowQ := rest }.windowWrite off (wordN mask) v)

/-- A write arrives at the window: a HOMETAB entry while BUSY is 1 is held, and later writes wait behind it (R328). -/
def State.hostWrite (s : State) (off : Nat) (mask v : Word) : State :=
  let parts : List (Nat × Nat × Word) :=
    if inHometab off then
      ((List.range 4).map fun i => (off, bitsOf mask.toNat (16 * i + 15) (16 * i) * 2 ^ (16 * i), v)).filter fun p => p.2.1 != 0
    else [(off, mask.toNat, v)]
  State.releaseWrites (s.windowQ.length + parts.length) { s with windowQ := s.windowQ ++ parts }

def allBits : Word := wordN (2 ^ 64 - 1)

/-- The host writes a register: behind what it has sent before and that waits for a page (R76, R272). -/
def State.hostReg (s : State) (off : Nat) (mask v : Word) : State :=
  if s.hostHeld.isEmpty then s.hostWrite off mask v
  else
    let bytes := (List.range 8).filter fun i => bitsOf mask.toNat (8 * i + 7) (8 * i) ≠ 0
    let i := bytes.headD 0
    { s with hostHeld := s.hostHeld ++ [(0, off + i, .store (((leBytes 8 v.toNat).drop i).take bytes.length))] }

/-! ### Writes of the table's registers -/

def execDmodeWrite (v : BitVec 32) (s : State) : Out := .next (s.hostReg 0x100 (wordN (2 ^ 32 - 1)) (wordN v.toNat))
def execPtrootWrite (v : Word) (s : State) : Out := .next (s.hostReg 0x108 allBits v)
def execDrtbaseWrite (v : Word) (s : State) : Out := .next (s.hostReg 0x110 allBits v)
def execPlbflush (v : Word) (s : State) : Out := .next (s.hostReg 0x118 allBits v)
def execTcinv (v : Word) (s : State) : Out := .next (s.hostReg 0x120 allBits v)
def execHometabWrite (i : Nat) (v : BitVec 16) (s : State) : Out :=
  if 4096 ≤ i then .next s
  else .next (s.hostReg (0x1000 + i / 4 * 8) (wordN (0xFFFF * 2 ^ (16 * (i % 4)))) (wordN (v.toNat * 2 ^ (16 * (i % 4)))))
def execMigreq (v : Word) (s : State) : Out := .next (s.hostReg 0x1C0 allBits v)
def execLqwidxWrite (q : Nat) (v : Word) (s : State) : Out :=
  if 64 ≤ q then .next s else .next (s.hostReg (0x10010 + 0x40 * q) allBits v)
def execLqctlWrite (q : Nat) (v : Word) (s : State) : Out :=
  if 64 ≤ q then .next s else .next (s.hostReg (0x10008 + 0x40 * q) allBits v)
def execLqnextWrite (p : Nat) (v : Word) (s : State) : Out :=
  if 2 ≤ p then .next s else .next (s.hostReg (0x130 + 8 * p) allBits v)
def execCspreWrite (cluster : Nat) (v : Word) (s : State) : Out :=
  if 64 ≤ cluster then .next s else .next (s.hostReg (0x11010 + 0x40 * cluster) allBits v)
def execHwake (v : Word) (s : State) : Out := .next (s.hostReg 0x188 allBits v)
def execOmcfgWrite (cluster : Nat) (v : Word) (s : State) : Out :=
  if 64 ≤ cluster then .next s else .next (s.hostReg (0x8000 + 0x40 * cluster) allBits v)
def execMeqidxWrite (v : Word) (s : State) : Out := .next (s.hostReg 0x158 allBits v)
def execMeqbaseWrite (v : Word) (s : State) : Out := .next (s.hostReg 0x150 allBits v)
/-- A write of MEQANS1 delivers a verdict. -/
def execMeqAnswer (v : Word) (s : State) : Out := .next (s.hostReg 0x168 allBits v)
def execAttctlGo (v : Word) (s : State) : Out := .next (s.hostReg 0x180 allBits v)
/-- Any other register of the window. -/
def execRegisterWrite (off : Nat) (v : Word) (s : State) : Out :=
  if off % 8 = 0 && decide (off < 0x1000000) then .next (s.hostReg off allBits v) else .next s

/-- An invalidation or a HOMETAB switch is finished: BUSY clears, and held writes go on. -/
def execInvalidationComplete (s : State) : Out :=
  if !s.regs.tcinvBusy then .next s
  else .next (State.releaseWrites s.windowQ.length { s with regs := { s.regs with tcinvBusy := false }, switching := none })

/-! ### The host's windows (R284, R76) -/

/-- Where byte `off` of a BAR stands in the translated space, and the domain of its access; none where it reads as 0. -/
def State.barByte (s : State) (bar off : Nat) : Option (Nat × Nat) :=
  if bar = 2 then (if off < 0x8000 then some (s.counterVa 0 + off, 0) else none)
  else if bar = 4 then
    let q := off / 0x400000
    let x := off % 0x400000
    let b := s.regs.lqbase.get 0 q
    if q < 64 && decide (x < 64 * 2 ^ (b.toNat % 32)) then some (bitsOf b.toNat 63 12 * 2 ^ 12 + x, s.lqDom q) else none
  else none

/-- Cut bytes of a BAR at multiples of `u`. -/
def cutBar {α : Type} (u : Nat) : Nat → Nat → List α → List (Nat × List α)
  | 0, _, _ => []
  | f + 1, off, l =>
    if l.isEmpty then []
    else
      let k := u - off % u
      (off, l.take k) :: cutBar u f (off + k) (l.drop k)

/-- A write of part of a register window word. -/
def State.barWord (s : State) (p : Nat × List Byte) : State :=
  let sh := 8 * (p.1 % 8)
  s.hostWrite (p.1 / 8 * 8) (wordN ((2 ^ (8 * p.2.length) - 1) * 2 ^ sh)) (wordN (leNat p.2 * 2 ^ sh))

/-- Store pieces of a translated window in order; answers what is left where a page is absent. A piece that is unmapped or lacks the
right changes nothing (log 48). -/
def State.barStore (s : State) (bar : Nat) : List (Nat × List Byte) → State × Option (Nat × List Byte)
  | [] => (s, none)
  | p :: ps =>
    match s.barByte bar p.1 with
    | none => State.barStore s bar ps
    | some (va, dom) =>
      match s.parserSpot dom 2 va [(va, .store p.2)] with
      | (.here sa, s) => State.barStore (s.spotPut 0 va sa p.2 false) bar ps
      | (.away _, s) | (.fault .., s) => State.barStore s bar ps
      | (.absent, s) => (s.awaitPage va, some (p.1, p.2 ++ ps.flatMap fun x => x.2))

/-- Load pieces of a translated window; none where a page is absent. What cannot be read reads as free bytes (log 48). -/
def State.barLoad (s : State) (bar : Nat) : List (Nat × List Unit) → Option (List Byte) × State
  | [] => (some [], s)
  | p :: ps =>
    let n := p.2.length
    let join (b : List Byte) (s : State) : Option (List Byte) × State :=
      let r := State.barLoad s bar ps
      (r.1.map fun l => b ++ l, r.2)
    match s.barByte bar p.1 with
    | none => join (List.replicate n 0) s
    | some (va, dom) =>
      match s.parserSpot dom 1 va (peerLoads n va) with
      | (.absent, s) => (none, s.awaitPage va)
      | (d, s) =>
        let r := s.parserRead d va n
        join r.1 r.2

/-- One access of the host: the state after it, and what of it must wait for a page. -/
def State.hostServe (s : State) (bar off : Nat) (acc : HostAcc) : State × Option (Nat × Nat × HostAcc) :=
  match acc with
  | .store b =>
    if bar = 0 then ((cutBar 8 b.length off b).foldl (fun s p => if p.1 < 0x1000000 then s.barWord p else s) s, none)
    else
      let r := s.barStore bar (cutBar 64 b.length off b)
      (r.1, r.2.map fun p => (bar, p.1, .store p.2))
  | .load n =>
    if n = 0 then (s, none)
    else if bar = 0 then
      let at' (o : Nat) : Byte := if o < 0x1000000 then BitVec.ofNat 8 ((s.windowRead (o / 8 * 8)).toNat / 2 ^ (8 * (o % 8))) else 0
      ({ s with hostIn := s.hostIn ++ [(List.range n).map fun i => at' (off + i)] }, none)
    else
      match s.barLoad bar (cutBar 64 n off (List.replicate n ())) with
      | (some b, s) => ({ s with hostIn := s.hostIn ++ [b] }, none)
      | (none, s) => (s, some (bar, off, acc))

/-- Accesses of the host are performed in the order in which they arrive; one that waits for a page holds those behind it. -/
def State.hostQueue (s : State) : List (Nat × Nat × HostAcc) → State
  | [] => s
  | (bar, off, acc) :: rest =>
    match s.hostServe bar off acc with
    | (s, none) => s.hostQueue rest
    | (s, some left) => { s with hostHeld := left :: rest }

/-- The host writes or reads through a BAR; a load of no bytes stands for no access: those that wait are tried. -/
def execHostAccess (bar : Nat) (off : Nat) (acc : HostAcc) (s : State) : Out :=
  .next ({ s with hostHeld := [] }.hostQueue (s.hostHeld ++ [(bar, off, acc)]))

end Sys2Proof.Machine
end

