-- ==== Sys2Proof/Machine/Reset.lean ====
section
/-! DEFINITION. Bring-up and attestation (R291, R292), reset (R293), the power cap (R294), and the control core's start and halt
(R281). -/

namespace Sys2Proof.Machine

/-! ### Control cores -/

/-- The control core starts where CCGO holds an address and it idles. -/
def execControlCoreStart (cluster : Nat) (s : State) : Out :=
  if decide (64 ≤ cluster) || (s.clusterAt cluster).ccRun.isSome then .next s
  else .next ((s.probe none (ctrlSa cluster ccgoOff) 8).2.startCtrl cluster)

/-- The compare and swap of a control core's HALT. -/
def execControlCoreHalt (cluster : Nat) (s : State) : Out :=
  if (s.clusterAt cluster).ccHalting then
    let s := (s.probe none (ctrlSa cluster ccgoOff) 8).2
    if (s.clusterAt cluster).ccStopped then .next (s.modCluster cluster fun u => { u with ccHalting := false })
    else .next (s.haltCtrl cluster)
  else .next s

/-! ### Attestation (R292) -/

/-- Entry `n` of the measurement log: image id and version, reserved bytes, the image's digest. -/
def logEntry (n : Nat) : List Byte :=
  let w := leBytes 8 (Config.image n).toNat
  w ++ leBytes 8 0 ++ (List.range 64).map (Config.shake256 w)

/-- The parts of a report, but for the nonce that stands there: offset and bytes. -/
def State.report292 (s : State) (nonce fill : List Byte) : List (Nat × List Byte) :=
  let log := s.regs.log.take 64
  let ids := leBytes 8 (s.regs.devid.toNat % 2 ^ 15) ++ leBytes 8 Config.serial.toNat
  let nlog := leBytes 8 log.length
  let digest := (List.range 64).map (Config.shake256 log.flatten)
  let head := nonce ++ ids ++ nlog ++ fill ++ digest
  let sum := (List.range 64).map (Config.shake256 head)
  let n := min (Config.falconLen sum) 1280
  let sig := (List.range n).map (Config.falconSign sum)
  [(0x20, ids ++ nlog), (0x40, digest), (0x80, leBytes 8 n), (0x90, padTo 1280 sig)]

/-- Read or write bytes of the report, sector by sector, as accesses with domain 0 (log 39); none where one cannot be made. -/
def State.reportRead (s : State) (va n : Nat) : Option (List Byte × State) :=
  match s.parserSpot 0 1 va (peerLoads n va) with
  | (.here sa, s) => some (s.parserRead (.here sa) va n)
  | (.away dev, s) => some (s.parserRead (.away dev) va n)
  | (.fault .., _) | (.absent, _) => none
def State.reportWrite (s : State) : List (Nat × List Byte) → Option State
  | [] => some s
  | p :: ps =>
    match s.parserSpot 0 2 p.1 [(p.1, .store p.2)] with
    | (.here sa, s) => (s.spotWrite p.1 sa p.2).reportWrite ps
    | (.away _, s) => s.reportWrite ps
    | (.fault .., _) | (.absent, _) => none

/-- Sweteholt acts, and reads the management core's local memory, whose errors are then found (R15, R344; log 97). -/
def State.mgmtActs (s : State) : State := (s.probe none (mgmtSa 0) mgmtSize).2

/-- The report is written and GO clears. Where its page is absent it waits; where its address cannot be reached nothing is written
(log 39). -/
def execAttestationComplete (s : State) : Out :=
  if s.regs.attctl.toNat % 2 = 0 then .next s
  else
    let va := bitsOf s.regs.attctl.toNat 63 8 * 2 ^ 8
    let done (s : State) : State := { s with regs := { s.regs with attctl := wordN va } }
    let s := s.mgmtActs
    match s.parserSpot 0 2 va [], s.parserSpot 0 2 ((va + 0x58F) % 2 ^ 64) [] with
    | (.absent, s), _ => .next (s.awaitPage va)
    | _, (.absent, s) => .next (s.awaitPage (va + 0x58F))
    | _, _ =>
      match s.reportRead va 0x40 with
      | none => .next (done s)
      | some (b, s) =>
        let parts := (s.report292 (b.take 32) (b.drop 56)).flatMap fun p => cutRow p.2.length (va + p.1) p.2
        .next (done ((s.reportWrite parts).getD s))

/-! ### Power (R294) -/

/-- Sweteholt compares the measured package power with the cap. With the cap disabled no turn is withheld (log 18). -/
def execPowerCapTick (watts : Nat) (s : State) : Out :=
  let s := s.mgmtActs
  let r := s.regs
  let k :=
    if r.pwrCap = 0 then 0
    else if r.pwrCap < watts then min (r.pwrK + 1) 12
    else if 100 * watts < 95 * r.pwrCap then r.pwrK - 1
    else r.pwrK
  .next { s with regs := { r with pwrK := k } }

/-! ### Reset (R291, R293) -/

/-- Cold reset: the machine as `State.reset` gives it. Memory of the host, errors not yet found, and what has gone to the outside
are not this device's to reset; the model's own counters go on. -/
def State.coldReset (s : State) : State :=
  { State.reset with
    agenda := s.agenda, ticket := s.ticket, free := s.free, mem := s.mem.filter (fun c => decide (2 ^ 64 ≤ c.1)), flaws := s.flaws,
    msix := s.msix, hostIn := s.hostIn, peerIn := s.peerIn, peerOut := s.peerOut }

def execColdReset (s : State) : Out := .next s.coldReset

/-- A core, a cluster and a die after function-level reset. -/
def CoreSt.flr (q : CoreSt) : CoreSt :=
  { q with
    rot := List.range 16, issued := [], owner := none, deque := [], parkStore := [], arrivals := [], mboxes := [], outbound := [], nqUp := [], nqDown := [], dicts := []
    plb := [], l1 := [], icache := [], divQ := [], sfuQ := [], normQ := [], trBase := 0, trEn := false, trHead := 0 }
def ClusterSt.flr (u : ClusterSt) : ClusterSt :=
  { ClusterSt.reset with
    clock := u.clock, lcs := u.lcs
    accs := u.accs.map fun (a : Nat × AccSlot) => (a.1, { a.2 with orph := false, rmax := [], rsum := [], mask := AccSlot.maskReset }) }
def DieSt.flr (d : DieSt) : DieSt := { d with tc := [], l2 := [], hot := [] }

/-- Every dirty sector of the first-level and second-level caches is written back, and its errors are found (R293, R344). -/
def State.writeAllBack (s : State) : State :=
  let s := s.cores.foldl (fun (s : State) e => (e.2.l1.filter fun l => !l.upd).foldl (fun (s : State) l => s.writeBack e.1 l) s) s
  s.dies.foldl (fun (s : State) e => e.2.l2.foldl State.l2Back s) s

/-- Slots that hold strands, on cores, in park stores and in dens, each with its core and number. -/
def State.keptSlots (s : State) : List (Nat × Nat × Slot) :=
  s.slotList ++ s.cores.flatMap (fun e => e.2.parkStore.map fun q => (e.1, q.own.getD 0, q.slot))
    ++ s.blocks.flatMap fun b => (b.denOf.map fun d => d.slots.map fun x => (0, 0, x)).getD []

/-- Function-level reset: launches end with what their chunks held and what engine writes were still to be made, committed elements of write
streams are performed, update-only lines merge and dirty sectors go back, caches, slots, queues and engines are emptied, and the window's registers take their reset values, but for BOOTST, the log,
DEVID and LRTBASE. -/
def State.functionReset (s : State) : State :=
  let s : State := { s with cmds := [], late := [], switching := none }
  let s := s.keptSlots.foldl (fun s e => s.landStreams e.1 e.2.1 e.2.2) s
  let s := (s.mergeWhere fun _ => true).writeAllBack
  let s := s.mapSlots fun _ _ x => x.cleared
  { s with
    upds := [], launches := [], blocks := [], packets := [], lastQueue := [], lqFresh := [], lqAsked := [], lqDue := [], faults := [], migs := [], wakes := []
    meqWait := [], meqOpen := [], meqPend := [], meqSeq := 0
    shipped := [], recalled := [], foreignParked := [], homing := [], linkHeld := [], hostHeld := [], peerHeld := [], windowQ := []
    cores := s.cores.map fun (e : Nat × CoreSt) => (e.1, e.2.flr)
    clusters := s.clusters.map fun (e : Nat × ClusterSt) => (e.1, e.2.flr)
    dies := s.dies.map fun (e : Nat × DieSt) => (e.1, e.2.flr)
    regs := { Regs.reset with
      devid := s.regs.devid, lrtbase := s.regs.lrtbase, bootReady := s.regs.bootReady, log := s.regs.log } }

def execFunctionLevelReset (s : State) : Out := .next s.functionReset

/-- Power-on: cold reset, then bring-up to its last step, which has logged each firmware image, Sweteholt's first (R291). -/
def execPowerOn (s : State) : Out :=
  let s := s.coldReset
  .next { s with regs := { s.regs with bootReady := true, log := (List.range (max 1 (min Config.imageCount 64))).map logEntry } }

end Sys2Proof.Machine
end

