-- ==== Sys2Proof/Machine/Text.lean ====
section
/-! DEFINITION. Text (R251 to R255): walking a token trie, decoding UTF-8 byte by byte, and finding an incomplete tail. -/

namespace Sys2Proof.Machine

/-! ### TRIE (R252) -/

/-- Load `n` bytes at device scope. -/
def textLoad (va : Word) (n : Nat) : M Nat := do
  let a := loadAcc va n .pred
  loadFrom a (← access a)

/-- A node record: TOKEN, NEDGE and the address of its edges, checked (R316). -/
structure TrieNode where
  token : Nat
  edges : Nat
  list : Word
deriving DecidableEq, Repr

def trieNode (base : Word) (n : Nat) : M TrieNode := do
  let va := base + wordN (16 * n)
  if va.toNat % 16 ≠ 0 then trap 3 4 va
  let w ← textLoad va 8
  let l ← textLoad (va + 8) 8
  if 256 < bitsOf w 47 32 || bitsOf w 63 48 ≠ 0 then trap 0xE 0 va
  return { token := bitsOf w 31 0, edges := bitsOf w 47 32, list := wordN l }

/-- The search of R252 between two bounds: the child found. Each step narrows the bounds, and 256 edges need at most nine. -/
def trieSearch (list : Word) (x : Nat) : Nat → Nat → Nat → M (Option Nat)
  | 0, _, _ => return none
  | f + 1, lo, hi => do
    if hi ≤ lo then return none
    let mid := (lo + hi) / 2
    let e ← textLoad (list + wordN (4 * mid)) 4
    if e % 256 = x then return some (e / 256)
    else if e % 256 < x then trieSearch list x f (mid + 1) hi
    else trieSearch list x f lo mid

def noToken : Nat := 0xFFFFFFFF
def deadNode : Nat := 0xFFFFFF

/-- The state after one byte. -/
def trieStep (st : Nat) (base : Word) (x : Nat) : M Nat := do
  let node := bitsOf st 23 0
  if node = deadNode then return st
  let n ← trieNode base node
  match ← trieSearch n.list x 10 0 n.edges with
  | none => return st / 2 ^ 24 * 2 ^ 24 + deadNode
  | some c =>
    let k ← trieNode base c
    if k.token ≠ noToken then return k.token * 2 ^ 32 + c
    else return bitsOf st 63 32 * 2 ^ 32 + min (bitsOf st 31 24 + 1) 255 * 2 ^ 24 + c

def execTrie (g : Guard) (d a b : Reg) (s : State) : Out :=
  issueStrand g (do
    let base ← readReg a
    let x ← readReg b
    let st ← readReg d
    writeReg d (wordN (← trieStep st.toNat base (x.toNat % 256)))
    return none) s

/-! ### UDEC (R253) -/

/-- A hold: accumulated bits, continuation bytes due, range of the next byte. -/
structure Hold8 where
  acc : Nat
  need : Nat
  con : Nat
deriving DecidableEq, Repr

def Hold8.empty : Hold8 := { acc := 0, need := 0, con := 0 }
def Hold8.word (h : Hold8) : Nat := h.acc + 2 ^ 15 * h.need + 2 ^ 17 * h.con

/-- Whether UDEC ever writes a hold. -/
def Hold8.reached (h : Hold8) : Bool :=
  let within (l h' : Nat) : Bool := decide (l ≤ h.acc) && decide (h.acc ≤ h')
  match h.need, h.con with
  | 1, 0 => within 0x02 0x35F || within 0x380 0x43FF
  | 2, 0 => within 1 0xC || within 0xE 0x10F
  | 2, 1 => h.acc == 0
  | 2, 2 => h.acc == 0xD
  | 3, 0 => within 1 3
  | 3, 3 => h.acc == 0
  | 3, 4 => h.acc == 4
  | _, _ => false

/-- The hold in a source word. -/
def Hold8.ofWord (v : Nat) : Hold8 :=
  let h : Hold8 := { acc := bitsOf v 14 0, need := bitsOf v 16 15, con := bitsOf v 19 17 }
  if h.reached then h else Hold8.empty

/-- Bytes that may come next. -/
def contRange (con : Nat) : Nat × Nat :=
  match con with
  | 1 => (0xA0, 0xBF) | 2 => (0x80, 0x9F) | 3 => (0x90, 0xBF) | 4 => (0x80, 0x8F) | _ => (0x80, 0xBF)

/-- U+FFFD. -/
def replacement : Nat := 0xFFFD

/-- A byte that starts afresh. -/
def utf8Start (x : Nat) : List Nat × Hold8 :=
  if x ≤ 0x7F then ([x], Hold8.empty)
  else if 0xC2 ≤ x && decide (x ≤ 0xDF) then ([], { acc := x % 32, need := 1, con := 0 })
  else if 0xE0 ≤ x && decide (x ≤ 0xEF) then
    ([], { acc := x % 16, need := 2, con := if x = 0xE0 then 1 else if x = 0xED then 2 else 0 })
  else if 0xF0 ≤ x && decide (x ≤ 0xF4) then
    ([], { acc := x % 8, need := 3, con := if x = 0xF0 then 3 else if x = 0xF4 then 4 else 0 })
  else ([replacement], Hold8.empty)

/-- One byte against a hold: characters put out, and the hold after it. -/
def utf8Step (h : Hold8) (x : Nat) : List Nat × Hold8 :=
  if h.need = 0 then utf8Start x
  else
    let r := contRange h.con
    if r.1 ≤ x && decide (x ≤ r.2) then
      let acc := h.acc * 64 + x % 64
      if h.need = 1 then ([acc], Hold8.empty) else ([], { acc, need := h.need - 1, con := 0 })
    else
      let n := utf8Start x
      (replacement :: n.1, n.2)

/-- The end of the input. -/
def utf8End (h : Hold8) : List Nat × Hold8 := (if h.need = 0 then [] else [replacement], Hold8.empty)

/-- UDEC's result word. -/
def udecWord (r : List Nat × Hold8) : Word :=
  wordN (r.1.getD 1 0 * 2 ^ 43 + r.1.getD 0 0 * 2 ^ 22 + r.1.length * 2 ^ 20 + r.2.word)

def udec (d a : Word) : Word :=
  let h := Hold8.ofWord d.toNat
  udecWord (if bitOf a.toNat 8 then utf8End h else utf8Step h (a.toNat % 256))

def execUdec (g : Guard) (d a : Reg) (s : State) : Out :=
  issueStrand g (do
    let x ← readReg a
    let y ← readReg d
    writeReg d (udec y x)
    return none) s

/-! ### UHOLD (R254) -/

/-- Length of the sequence that a lead byte starts; 0 for another byte. -/
def leadLength (x : Nat) : Nat :=
  if 0xC2 ≤ x && decide (x ≤ 0xDF) then 2
  else if 0xE0 ≤ x && decide (x ≤ 0xEF) then 3
  else if 0xF0 ≤ x && decide (x ≤ 0xF4) then 4
  else 0

/-- Characters that bytes put out from a hold. -/
def utf8Run (h : Hold8) : List Nat → List Nat
  | [] => []
  | x :: xs => (utf8Step h x).1 ++ utf8Run (utf8Step h x).2 xs

/-- Bytes of an incomplete tail: `tail` holds the last bytes, the last one first, `after` those passed already. -/
def heldTail (after : List Nat) : List Nat → Nat
  | [] => 0
  | x :: rest =>
    if 0x80 ≤ x && decide (x ≤ 0xBF) then heldTail (x :: after) rest
    else if after.length + 1 < leadLength x && (utf8Run Hold8.empty (x :: after)).isEmpty then after.length + 1
    else 0

def execUhold (g : Guard) (d a b : Reg) (s : State) : Out :=
  issueStrand g (do
    let base ← readReg a
    let n ← readReg b
    let tail ← (List.range (min n.toNat 3)).mapM fun j => textLoad (base + n - wordN (j + 1)) 1
    writeReg d (n - wordN (heldTail [] tail))
    return none) s

end Sys2Proof.Machine
end

