-- ==== Sys2Proof/Machine/Dispatch.lean ====
section
/-! DEFINITION. One arm per instruction. -/

namespace Sys2Proof.Machine

def exec (i : Instr) (s : State) : Host.Outcome State Fault Refusal :=
  match i with
  | .add x1 x2 x3 x4 x5 => Sys2Proof.Machine.execAdd x1 x2 x3 x4 x5 s
  | .sub x1 x2 x3 x4 x5 => Sys2Proof.Machine.execSub x1 x2 x3 x4 x5 s
  | .and x1 x2 x3 x4 x5 => Sys2Proof.Machine.execAnd x1 x2 x3 x4 x5 s
  | .or x1 x2 x3 x4 x5 => Sys2Proof.Machine.execOr x1 x2 x3 x4 x5 s
  | .xor x1 x2 x3 x4 x5 => Sys2Proof.Machine.execXor x1 x2 x3 x4 x5 s
  | .andn x1 x2 x3 x4 x5 => Sys2Proof.Machine.execAndn x1 x2 x3 x4 x5 s
  | .orn x1 x2 x3 x4 x5 => Sys2Proof.Machine.execOrn x1 x2 x3 x4 x5 s
  | .sll x1 x2 x3 x4 x5 => Sys2Proof.Machine.execSll x1 x2 x3 x4 x5 s
  | .srl x1 x2 x3 x4 x5 => Sys2Proof.Machine.execSrl x1 x2 x3 x4 x5 s
  | .sra x1 x2 x3 x4 x5 => Sys2Proof.Machine.execSra x1 x2 x3 x4 x5 s
  | .rol x1 x2 x3 x4 x5 => Sys2Proof.Machine.execRol x1 x2 x3 x4 x5 s
  | .ror x1 x2 x3 x4 x5 => Sys2Proof.Machine.execRor x1 x2 x3 x4 x5 s
  | .min x1 x2 x3 x4 x5 => Sys2Proof.Machine.execMin x1 x2 x3 x4 x5 s
  | .max x1 x2 x3 x4 x5 => Sys2Proof.Machine.execMax x1 x2 x3 x4 x5 s
  | .minn x1 x2 x3 x4 x5 => Sys2Proof.Machine.execMinn x1 x2 x3 x4 x5 s
  | .maxn x1 x2 x3 x4 x5 => Sys2Proof.Machine.execMaxn x1 x2 x3 x4 x5 s
  | .mul x1 x2 x3 x4 x5 => Sys2Proof.Machine.execMul x1 x2 x3 x4 x5 s
  | .mulh x1 x2 x3 x4 x5 => Sys2Proof.Machine.execMulh x1 x2 x3 x4 x5 s
  | .mulhn x1 x2 x3 x4 x5 => Sys2Proof.Machine.execMulhn x1 x2 x3 x4 x5 s
  | .clz x1 x2 x3 x4 => Sys2Proof.Machine.execClz x1 x2 x3 x4 s
  | .ctz x1 x2 x3 x4 => Sys2Proof.Machine.execCtz x1 x2 x3 x4 s
  | .popc x1 x2 x3 x4 => Sys2Proof.Machine.execPopc x1 x2 x3 x4 s
  | .brev x1 x2 x3 x4 => Sys2Proof.Machine.execBrev x1 x2 x3 x4 s
  | .bswap x1 x2 x3 x4 => Sys2Proof.Machine.execBswap x1 x2 x3 x4 s
  | .sext x1 x2 x3 x4 x5 => Sys2Proof.Machine.execSext x1 x2 x3 x4 x5 s
  | .zext x1 x2 x3 x4 x5 => Sys2Proof.Machine.execZext x1 x2 x3 x4 x5 s
  | .addi x1 x2 x3 x4 => Sys2Proof.Machine.execAddi x1 x2 x3 x4 s
  | .andi x1 x2 x3 x4 => Sys2Proof.Machine.execAndi x1 x2 x3 x4 s
  | .ori x1 x2 x3 x4 => Sys2Proof.Machine.execOri x1 x2 x3 x4 s
  | .xori x1 x2 x3 x4 => Sys2Proof.Machine.execXori x1 x2 x3 x4 s
  | .shiSll x1 x2 x3 x4 x5 => Sys2Proof.Machine.execShiSll x1 x2 x3 x4 x5 s
  | .shiSrl x1 x2 x3 x4 x5 => Sys2Proof.Machine.execShiSrl x1 x2 x3 x4 x5 s
  | .shiSra x1 x2 x3 x4 x5 => Sys2Proof.Machine.execShiSra x1 x2 x3 x4 x5 s
  | .shiRol x1 x2 x3 x4 x5 => Sys2Proof.Machine.execShiRol x1 x2 x3 x4 x5 s
  | .shiRor x1 x2 x3 x4 x5 => Sys2Proof.Machine.execShiRor x1 x2 x3 x4 x5 s
  | .li x1 x2 x3 => Sys2Proof.Machine.execLi x1 x2 x3 s
  | .lis x1 x2 x3 => Sys2Proof.Machine.execLis x1 x2 x3 s
  | .cmp x1 x2 x3 x4 x5 x6 x7 => Sys2Proof.Machine.execCmp x1 x2 x3 x4 x5 x6 x7 s
  | .cmpi x1 x2 x3 x4 x5 x6 x7 => Sys2Proof.Machine.execCmpi x1 x2 x3 x4 x5 x6 x7 s
  | .pand x1 x2 x3 x4 => Sys2Proof.Machine.execPand x1 x2 x3 x4 s
  | .por x1 x2 x3 x4 => Sys2Proof.Machine.execPor x1 x2 x3 x4 s
  | .pxor x1 x2 x3 x4 => Sys2Proof.Machine.execPxor x1 x2 x3 x4 s
  | .pnot x1 x2 x3 => Sys2Proof.Machine.execPnot x1 x2 x3 s
  | .pget x1 x2 => Sys2Proof.Machine.execPget x1 x2 s
  | .pset x1 x2 => Sys2Proof.Machine.execPset x1 x2 s
  | .sel x1 x2 x3 x4 x5 => Sys2Proof.Machine.execSel x1 x2 x3 x4 x5 s
  | .tern x1 x2 x3 x4 x5 => Sys2Proof.Machine.execTern x1 x2 x3 x4 x5 s
  | .bfx x1 x2 x3 x4 => Sys2Proof.Machine.execBfx x1 x2 x3 x4 s
  | .bfxs x1 x2 x3 x4 => Sys2Proof.Machine.execBfxs x1 x2 x3 x4 s
  | .bfi x1 x2 x3 x4 => Sys2Proof.Machine.execBfi x1 x2 x3 x4 s
  | .div x1 x2 x3 x4 x5 => Sys2Proof.Machine.execDiv x1 x2 x3 x4 x5 s
  | .divn x1 x2 x3 x4 x5 => Sys2Proof.Machine.execDivn x1 x2 x3 x4 x5 s
  | .rem x1 x2 x3 x4 x5 => Sys2Proof.Machine.execRem x1 x2 x3 x4 x5 s
  | .remn x1 x2 x3 x4 x5 => Sys2Proof.Machine.execRemn x1 x2 x3 x4 x5 s
  | .divideComplete x1 => Sys2Proof.Machine.execDivideComplete x1 s
  | .br x1 x2 => Sys2Proof.Machine.execBr x1 x2 s
  | .bl x1 x2 => Sys2Proof.Machine.execBl x1 x2 s
  | .jmp x1 x2 => Sys2Proof.Machine.execJmp x1 x2 s
  | .jmpl x1 x2 x3 => Sys2Proof.Machine.execJmpl x1 x2 x3 s
  | .fadd x1 x2 x3 x4 x5 x6 => Sys2Proof.Machine.execFadd x1 x2 x3 x4 x5 x6 s
  | .fsub x1 x2 x3 x4 x5 x6 => Sys2Proof.Machine.execFsub x1 x2 x3 x4 x5 x6 s
  | .fmul x1 x2 x3 x4 x5 x6 => Sys2Proof.Machine.execFmul x1 x2 x3 x4 x5 x6 s
  | .fmin x1 x2 x3 x4 x5 => Sys2Proof.Machine.execFmin x1 x2 x3 x4 x5 s
  | .fmax x1 x2 x3 x4 x5 => Sys2Proof.Machine.execFmax x1 x2 x3 x4 x5 s
  | .fabs x1 x2 x3 x4 => Sys2Proof.Machine.execFabs x1 x2 x3 x4 s
  | .fneg x1 x2 x3 x4 => Sys2Proof.Machine.execFneg x1 x2 x3 x4 s
  | .fcpys x1 x2 x3 x4 x5 => Sys2Proof.Machine.execFcpys x1 x2 x3 x4 x5 s
  | .fclass x1 x2 x3 x4 => Sys2Proof.Machine.execFclass x1 x2 x3 x4 s
  | .fma x1 x2 x3 x4 x5 x6 => Sys2Proof.Machine.execFma x1 x2 x3 x4 x5 x6 s
  | .fcmp x1 x2 x3 x4 x5 x6 x7 => Sys2Proof.Machine.execFcmp x1 x2 x3 x4 x5 x6 x7 s
  | .cvt x1 x2 x3 x4 x5 x6 => Sys2Proof.Machine.execCvt x1 x2 x3 x4 x5 x6 s
  | .cvte x1 x2 x3 x4 x5 x6 => Sys2Proof.Machine.execCvte x1 x2 x3 x4 x5 x6 s
  | .rcp x1 x2 x3 => Sys2Proof.Machine.execRcp x1 x2 x3 s
  | .rsq x1 x2 x3 => Sys2Proof.Machine.execRsq x1 x2 x3 s
  | .sqrt x1 x2 x3 => Sys2Proof.Machine.execSqrt x1 x2 x3 s
  | .log2 x1 x2 x3 => Sys2Proof.Machine.execLog2 x1 x2 x3 s
  | .exp2 x1 x2 x3 => Sys2Proof.Machine.execExp2 x1 x2 x3 s
  | .sin x1 x2 x3 => Sys2Proof.Machine.execSin x1 x2 x3 s
  | .cos x1 x2 x3 => Sys2Proof.Machine.execCos x1 x2 x3 s
  | .tanh x1 x2 x3 => Sys2Proof.Machine.execTanh x1 x2 x3 s
  | .sigm x1 x2 x3 => Sys2Proof.Machine.execSigm x1 x2 x3 s
  | .sfuComplete x1 => Sys2Proof.Machine.execSfuComplete x1 s
  | .normaliserService x1 => Sys2Proof.Machine.execNormaliserService x1 s
  | .ldn x1 x2 x3 x4 x5 => Sys2Proof.Machine.execLdn x1 x2 x3 x4 x5 s
  | .lds x1 x2 x3 x4 x5 => Sys2Proof.Machine.execLds x1 x2 x3 x4 x5 s
  | .st x1 x2 x3 x4 x5 => Sys2Proof.Machine.execSt x1 x2 x3 x4 x5 s
  | .ldx x1 x2 x3 x4 x5 x6 x7 => Sys2Proof.Machine.execLdx x1 x2 x3 x4 x5 x6 x7 s
  | .stx x1 x2 x3 x4 x5 x6 => Sys2Proof.Machine.execStx x1 x2 x3 x4 x5 x6 s
  | .ldfeKeep x1 x2 x3 x4 x5 => Sys2Proof.Machine.execLdfeKeep x1 x2 x3 x4 x5 s
  | .ldfeTake x1 x2 x3 x4 x5 => Sys2Proof.Machine.execLdfeTake x1 x2 x3 x4 x5 s
  | .ldfePeek x1 x2 x3 x4 x5 => Sys2Proof.Machine.execLdfePeek x1 x2 x3 x4 x5 s
  | .stfeFill x1 x2 x3 x4 x5 => Sys2Proof.Machine.execStfeFill x1 x2 x3 x4 x5 s
  | .stfeForce x1 x2 x3 x4 x5 => Sys2Proof.Machine.execStfeForce x1 x2 x3 x4 x5 s
  | .stfeClear x1 x2 x3 x4 => Sys2Proof.Machine.execStfeClear x1 x2 x3 x4 s
  | .fullEmptyRetest x1 => Sys2Proof.Machine.execFullEmptyRetest x1 s
  | .atomAdd x1 x2 x3 x4 x5 x6 => Sys2Proof.Machine.execAtomAdd x1 x2 x3 x4 x5 x6 s
  | .atomMin x1 x2 x3 x4 x5 x6 => Sys2Proof.Machine.execAtomMin x1 x2 x3 x4 x5 x6 s
  | .atomMax x1 x2 x3 x4 x5 x6 => Sys2Proof.Machine.execAtomMax x1 x2 x3 x4 x5 x6 s
  | .atomMinn x1 x2 x3 x4 x5 x6 => Sys2Proof.Machine.execAtomMinn x1 x2 x3 x4 x5 x6 s
  | .atomMaxn x1 x2 x3 x4 x5 x6 => Sys2Proof.Machine.execAtomMaxn x1 x2 x3 x4 x5 x6 s
  | .atomAnd x1 x2 x3 x4 x5 x6 => Sys2Proof.Machine.execAtomAnd x1 x2 x3 x4 x5 x6 s
  | .atomOr x1 x2 x3 x4 x5 x6 => Sys2Proof.Machine.execAtomOr x1 x2 x3 x4 x5 x6 s
  | .atomXor x1 x2 x3 x4 x5 x6 => Sys2Proof.Machine.execAtomXor x1 x2 x3 x4 x5 x6 s
  | .atomSwap x1 x2 x3 x4 x5 x6 => Sys2Proof.Machine.execAtomSwap x1 x2 x3 x4 x5 x6 s
  | .atomCas x1 x2 x3 x4 x5 x6 => Sys2Proof.Machine.execAtomCas x1 x2 x3 x4 x5 x6 s
  | .atomFaddF32 x1 x2 x3 x4 x5 => Sys2Proof.Machine.execAtomFaddF32 x1 x2 x3 x4 x5 s
  | .cupdAdd x1 x2 x3 x4 => Sys2Proof.Machine.execCupdAdd x1 x2 x3 x4 s
  | .cupdMin x1 x2 x3 x4 => Sys2Proof.Machine.execCupdMin x1 x2 x3 x4 s
  | .cupdMax x1 x2 x3 x4 => Sys2Proof.Machine.execCupdMax x1 x2 x3 x4 s
  | .cupdOr x1 x2 x3 x4 => Sys2Proof.Machine.execCupdOr x1 x2 x3 x4 s
  | .cupdFaddF32 x1 x2 x3 => Sys2Proof.Machine.execCupdFaddF32 x1 x2 x3 s
  | .fence x1 x2 => Sys2Proof.Machine.execFence x1 x2 s
  | .cend x1 => Sys2Proof.Machine.execCend x1 s
  | .home x1 x2 x3 => Sys2Proof.Machine.execHome x1 x2 x3 s
  | .migr x1 x2 => Sys2Proof.Machine.execMigr x1 x2 s
  | .stay x1 => Sys2Proof.Machine.execStay x1 s
  | .linit x1 x2 => Sys2Proof.Machine.execLinit x1 x2 s
  | .lmove x1 x2 x3 x4 => Sys2Proof.Machine.execLmove x1 x2 x3 x4 s
  | .lpop x1 x2 x3 => Sys2Proof.Machine.execLpop x1 x2 x3 s
  | .stbind x1 x2 x3 => Sys2Proof.Machine.execStbind x1 x2 x3 s
  | .stfree x1 x2 => Sys2Proof.Machine.execStfree x1 x2 s
  | .ststat x1 x2 x3 => Sys2Proof.Machine.execStstat x1 x2 x3 s
  | .streamElementArrival x1 x2 x3 => Sys2Proof.Machine.execStreamElementArrival x1 x2 x3 s
  | .streamDrain x1 x2 x3 => Sys2Proof.Machine.execStreamDrain x1 x2 x3 s
  | .xcopyCopy x1 x2 x3 x4 x5 x6 x7 x8 => Sys2Proof.Machine.execXcopyCopy x1 x2 x3 x4 x5 x6 x7 x8 s
  | .xcopyFill x1 x2 x3 x4 x5 x6 x7 x8 => Sys2Proof.Machine.execXcopyFill x1 x2 x3 x4 x5 x6 x7 x8 s
  | .xcopyPack x1 x2 x3 x4 x5 x6 x7 x8 => Sys2Proof.Machine.execXcopyPack x1 x2 x3 x4 x5 x6 x7 x8 s
  | .xcopyUnpack x1 x2 x3 x4 x5 x6 x7 x8 => Sys2Proof.Machine.execXcopyUnpack x1 x2 x3 x4 x5 x6 x7 x8 s
  | .fork x1 x2 x3 x4 => Sys2Proof.Machine.execFork x1 x2 x3 x4 s
  | .fget x1 x2 x3 => Sys2Proof.Machine.execFget x1 x2 x3 s
  | .fput x1 x2 x3 => Sys2Proof.Machine.execFput x1 x2 x3 s
  | .exit x1 x2 => Sys2Proof.Machine.execExit x1 x2 s
  | .yield x1 => Sys2Proof.Machine.execYield x1 s
  | .slstart x1 x2 x3 x4 => Sys2Proof.Machine.execSlstart x1 x2 x3 x4 s
  | .slreap x1 x2 x3 => Sys2Proof.Machine.execSlreap x1 x2 x3 s
  | .slquery x1 x2 x3 => Sys2Proof.Machine.execSlquery x1 x2 x3 s
  | .wake x1 x2 => Sys2Proof.Machine.execWake x1 x2 s
  | .wakeMessage x1 => Sys2Proof.Machine.execWakeMessage x1 s
  | .gang x1 x2 => Sys2Proof.Machine.execGang x1 x2 s
  | .gangFormation x1 x2 => Sys2Proof.Machine.execGangFormation x1 x2 s
  | .ungang x1 => Sys2Proof.Machine.execUngang x1 s
  | .barinit x1 x2 x3 => Sys2Proof.Machine.execBarinit x1 x2 x3 s
  | .bararr x1 x2 x3 => Sys2Proof.Machine.execBararr x1 x2 x3 s
  | .barwait x1 x2 x3 => Sys2Proof.Machine.execBarwait x1 x2 x3 s
  | .barrierRelease x1 x2 => Sys2Proof.Machine.execBarrierRelease x1 x2 s
  | .barleave x1 x2 => Sys2Proof.Machine.execBarleave x1 x2 s
  | .send x1 x2 x3 => Sys2Proof.Machine.execSend x1 x2 x3 s
  | .mailboxDelivery x1 x2 => Sys2Proof.Machine.execMailboxDelivery x1 x2 s
  | .recv x1 x2 x3 => Sys2Proof.Machine.execRecv x1 x2 x3 s
  | .mbstat x1 x2 x3 => Sys2Proof.Machine.execMbstat x1 x2 x3 s
  | .nqHop x1 => Sys2Proof.Machine.execNqHop x1 s
  | .wqput x1 x2 x3 => Sys2Proof.Machine.execWqput x1 x2 x3 s
  | .wqget x1 x2 x3 => Sys2Proof.Machine.execWqget x1 x2 x3 s
  | .wqlen x1 x2 x3 => Sys2Proof.Machine.execWqlen x1 x2 x3 s
  | .turn x1 x2 => Sys2Proof.Machine.execTurn x1 x2 s
  | .turnReg x1 x2 => Sys2Proof.Machine.execTurnReg x1 x2 s
  | .poolid x1 x2 => Sys2Proof.Machine.execPoolid x1 x2 s
  | .omTurn x1 => Sys2Proof.Machine.execOmTurn x1 s
  | .trap x1 x2 => Sys2Proof.Machine.execTrap x1 x2 s
  | .eret x1 => Sys2Proof.Machine.execEret x1 s
  | .crd x1 x2 x3 => Sys2Proof.Machine.execCrd x1 x2 x3 s
  | .cwr x1 x2 x3 => Sys2Proof.Machine.execCwr x1 x2 x3 s
  | .brk x1 => Sys2Proof.Machine.execBrk x1 s
  | .lcset x1 x2 x3 => Sys2Proof.Machine.execLcset x1 x2 x3 s
  | .lcget x1 x2 x3 => Sys2Proof.Machine.execLcget x1 x2 x3 s
  | .halt x1 => Sys2Proof.Machine.execHalt x1 s
  | .vadd x1 x2 x3 x4 x5 x6 => Sys2Proof.Machine.execVadd x1 x2 x3 x4 x5 x6 s
  | .vaddScalar x1 x2 x3 x4 x5 x6 => Sys2Proof.Machine.execVaddScalar x1 x2 x3 x4 x5 x6 s
  | .vsub x1 x2 x3 x4 x5 x6 => Sys2Proof.Machine.execVsub x1 x2 x3 x4 x5 x6 s
  | .vsubScalar x1 x2 x3 x4 x5 x6 => Sys2Proof.Machine.execVsubScalar x1 x2 x3 x4 x5 x6 s
  | .vmul x1 x2 x3 x4 x5 x6 => Sys2Proof.Machine.execVmul x1 x2 x3 x4 x5 x6 s
  | .vmulScalar x1 x2 x3 x4 x5 x6 => Sys2Proof.Machine.execVmulScalar x1 x2 x3 x4 x5 x6 s
  | .vfma x1 x2 x3 x4 x5 x6 => Sys2Proof.Machine.execVfma x1 x2 x3 x4 x5 x6 s
  | .vfmaScalar x1 x2 x3 x4 x5 x6 => Sys2Proof.Machine.execVfmaScalar x1 x2 x3 x4 x5 x6 s
  | .vmin x1 x2 x3 x4 x5 x6 => Sys2Proof.Machine.execVmin x1 x2 x3 x4 x5 x6 s
  | .vminScalar x1 x2 x3 x4 x5 x6 => Sys2Proof.Machine.execVminScalar x1 x2 x3 x4 x5 x6 s
  | .vmax x1 x2 x3 x4 x5 x6 => Sys2Proof.Machine.execVmax x1 x2 x3 x4 x5 x6 s
  | .vmaxScalar x1 x2 x3 x4 x5 x6 => Sys2Proof.Machine.execVmaxScalar x1 x2 x3 x4 x5 x6 s
  | .vabs x1 x2 x3 x4 x5 => Sys2Proof.Machine.execVabs x1 x2 x3 x4 x5 s
  | .vneg x1 x2 x3 x4 x5 => Sys2Proof.Machine.execVneg x1 x2 x3 x4 x5 s
  | .vcmp x1 x2 x3 x4 x5 x6 => Sys2Proof.Machine.execVcmp x1 x2 x3 x4 x5 x6 s
  | .vcmpScalar x1 x2 x3 x4 x5 x6 => Sys2Proof.Machine.execVcmpScalar x1 x2 x3 x4 x5 x6 s
  | .vsel x1 x2 x3 x4 x5 x6 => Sys2Proof.Machine.execVsel x1 x2 x3 x4 x5 x6 s
  | .vselScalar x1 x2 x3 x4 x5 x6 => Sys2Proof.Machine.execVselScalar x1 x2 x3 x4 x5 x6 s
  | .vand x1 x2 x3 x4 x5 x6 => Sys2Proof.Machine.execVand x1 x2 x3 x4 x5 x6 s
  | .vandScalar x1 x2 x3 x4 x5 x6 => Sys2Proof.Machine.execVandScalar x1 x2 x3 x4 x5 x6 s
  | .vor x1 x2 x3 x4 x5 x6 => Sys2Proof.Machine.execVor x1 x2 x3 x4 x5 x6 s
  | .vorScalar x1 x2 x3 x4 x5 x6 => Sys2Proof.Machine.execVorScalar x1 x2 x3 x4 x5 x6 s
  | .vxor x1 x2 x3 x4 x5 x6 => Sys2Proof.Machine.execVxor x1 x2 x3 x4 x5 x6 s
  | .vxorScalar x1 x2 x3 x4 x5 x6 => Sys2Proof.Machine.execVxorScalar x1 x2 x3 x4 x5 x6 s
  | .vtern x1 x2 x3 x4 x5 => Sys2Proof.Machine.execVtern x1 x2 x3 x4 x5 s
  | .vshl x1 x2 x3 x4 x5 x6 => Sys2Proof.Machine.execVshl x1 x2 x3 x4 x5 x6 s
  | .vshlScalar x1 x2 x3 x4 x5 x6 => Sys2Proof.Machine.execVshlScalar x1 x2 x3 x4 x5 x6 s
  | .vshr x1 x2 x3 x4 x5 x6 => Sys2Proof.Machine.execVshr x1 x2 x3 x4 x5 x6 s
  | .vshrScalar x1 x2 x3 x4 x5 x6 => Sys2Proof.Machine.execVshrScalar x1 x2 x3 x4 x5 x6 s
  | .vcvt x1 x2 x3 x4 x5 x6 x7 => Sys2Proof.Machine.execVcvt x1 x2 x3 x4 x5 x6 x7 s
  | .vcvte x1 x2 x3 x4 x5 => Sys2Proof.Machine.execVcvte x1 x2 x3 x4 x5 s
  | .vlog2 x1 x2 x3 x4 => Sys2Proof.Machine.execVlog2 x1 x2 x3 x4 s
  | .vexp2 x1 x2 x3 x4 => Sys2Proof.Machine.execVexp2 x1 x2 x3 x4 s
  | .vrcp x1 x2 x3 x4 => Sys2Proof.Machine.execVrcp x1 x2 x3 x4 s
  | .vrsq x1 x2 x3 x4 => Sys2Proof.Machine.execVrsq x1 x2 x3 x4 s
  | .vtanh x1 x2 x3 x4 => Sys2Proof.Machine.execVtanh x1 x2 x3 x4 s
  | .vsigm x1 x2 x3 x4 => Sys2Proof.Machine.execVsigm x1 x2 x3 x4 s
  | .vredadd x1 x2 x3 x4 x5 => Sys2Proof.Machine.execVredadd x1 x2 x3 x4 x5 s
  | .vredmax x1 x2 x3 x4 x5 => Sys2Proof.Machine.execVredmax x1 x2 x3 x4 x5 s
  | .vimax x1 x2 x3 x4 x5 x6 => Sys2Proof.Machine.execVimax x1 x2 x3 x4 x5 x6 s
  | .vimaxScalar x1 x2 x3 x4 x5 x6 => Sys2Proof.Machine.execVimaxScalar x1 x2 x3 x4 x5 x6 s
  | .vscan x1 x2 x3 x4 => Sys2Proof.Machine.execVscan x1 x2 x3 x4 s
  | .vperm x1 x2 x3 x4 x5 x6 => Sys2Proof.Machine.execVperm x1 x2 x3 x4 x5 x6 s
  | .vpermScalar x1 x2 x3 x4 x5 x6 => Sys2Proof.Machine.execVpermScalar x1 x2 x3 x4 x5 x6 s
  | .vbcast x1 x2 x3 x4 x5 x6 => Sys2Proof.Machine.execVbcast x1 x2 x3 x4 x5 x6 s
  | .vbcastScalar x1 x2 x3 x4 x5 x6 => Sys2Proof.Machine.execVbcastScalar x1 x2 x3 x4 x5 x6 s
  | .vsplat x1 x2 x3 x4 x5 => Sys2Proof.Machine.execVsplat x1 x2 x3 x4 x5 s
  | .vpopc x1 x2 x3 x4 x5 => Sys2Proof.Machine.execVpopc x1 x2 x3 x4 x5 s
  | .vld x1 x2 x3 x4 x5 x6 x7 => Sys2Proof.Machine.execVld x1 x2 x3 x4 x5 x6 x7 s
  | .vst x1 x2 x3 x4 x5 x6 => Sys2Proof.Machine.execVst x1 x2 x3 x4 x5 x6 s
  | .vldx x1 x2 x3 x4 x5 x6 x7 => Sys2Proof.Machine.execVldx x1 x2 x3 x4 x5 x6 x7 s
  | .vstx x1 x2 x3 x4 x5 x6 => Sys2Proof.Machine.execVstx x1 x2 x3 x4 x5 x6 s
  | .vbitsLd x1 x2 x3 x4 => Sys2Proof.Machine.execVbitsLd x1 x2 x3 x4 s
  | .vbitsSt x1 x2 x3 x4 => Sys2Proof.Machine.execVbitsSt x1 x2 x3 x4 s
  | .vfence x1 => Sys2Proof.Machine.execVfence x1 s
  | .vbusy x1 x2 => Sys2Proof.Machine.execVbusy x1 x2 s
  | .vrel x1 => Sys2Proof.Machine.execVrel x1 s
  | .vmand x1 x2 x3 x4 => Sys2Proof.Machine.execVmand x1 x2 x3 x4 s
  | .vmor x1 x2 x3 x4 => Sys2Proof.Machine.execVmor x1 x2 x3 x4 s
  | .vmxor x1 x2 x3 x4 => Sys2Proof.Machine.execVmxor x1 x2 x3 x4 s
  | .vmnot x1 x2 x3 => Sys2Proof.Machine.execVmnot x1 x2 x3 s
  | .vmget x1 x2 x3 => Sys2Proof.Machine.execVmget x1 x2 x3 s
  | .vmset x1 x2 x3 => Sys2Proof.Machine.execVmset x1 x2 x3 s
  | .vimaxs x1 x2 x3 x4 => Sys2Proof.Machine.execVimaxs x1 x2 x3 x4 s
  | .svuComplete x1 x2 => Sys2Proof.Machine.execSvuComplete x1 x2 s
  | .mfmt x1 x2 x3 => Sys2Proof.Machine.execMfmt x1 x2 x3 s
  | .mma x1 x2 x3 x4 x5 x6 x7 x8 => Sys2Proof.Machine.execMma x1 x2 x3 x4 x5 x6 x7 x8 s
  | .mld x1 x2 x3 x4 x5 => Sys2Proof.Machine.execMld x1 x2 x3 x4 x5 s
  | .mst x1 x2 x3 x4 x5 => Sys2Proof.Machine.execMst x1 x2 x3 x4 x5 s
  | .mclr x1 x2 x3 x4 => Sys2Proof.Machine.execMclr x1 x2 x3 x4 s
  | .mqry x1 x2 x3 x4 x5 => Sys2Proof.Machine.execMqry x1 x2 x3 x4 x5 s
  | .mrecl x1 x2 x3 x4 x5 => Sys2Proof.Machine.execMrecl x1 x2 x3 x4 x5 s
  | .attn x1 x2 x3 x4 x5 x6 x7 x8 => Sys2Proof.Machine.execAttn x1 x2 x3 x4 x5 x6 x7 x8 s
  | .maskset x1 x2 x3 x4 x5 => Sys2Proof.Machine.execMaskset x1 x2 x3 x4 x5 s
  | .kvapp x1 x2 x3 x4 x5 x6 => Sys2Proof.Machine.execKvapp x1 x2 x3 x4 x5 x6 s
  | .kvcommit x1 x2 x3 x4 x5 x6 => Sys2Proof.Machine.execKvcommit x1 x2 x3 x4 x5 x6 s
  | .kvtrunc x1 x2 x3 x4 x5 x6 => Sys2Proof.Machine.execKvtrunc x1 x2 x3 x4 x5 x6 s
  | .linfold x1 x2 x3 x4 x5 => Sys2Proof.Machine.execLinfold x1 x2 x3 x4 x5 s
  | .pref x1 x2 x3 x4 => Sys2Proof.Machine.execPref x1 x2 x3 x4 s
  | .rcat x1 x2 x3 x4 x5 => Sys2Proof.Machine.execRcat x1 x2 x3 x4 x5 s
  | .rsplitLo x1 x2 x3 x4 x5 => Sys2Proof.Machine.execRsplitLo x1 x2 x3 x4 x5 s
  | .rsplitHi x1 x2 x3 x4 x5 => Sys2Proof.Machine.execRsplitHi x1 x2 x3 x4 x5 s
  | .rsplice x1 x2 x3 x4 x5 => Sys2Proof.Machine.execRsplice x1 x2 x3 x4 x5 s
  | .rleaf x1 x2 x3 x4 x5 => Sys2Proof.Machine.execRleaf x1 x2 x3 x4 x5 s
  | .ridx x1 x2 x3 x4 x5 => Sys2Proof.Machine.execRidx x1 x2 x3 x4 x5 s
  | .rsum x1 x2 x3 x4 x5 => Sys2Proof.Machine.execRsum x1 x2 x3 x4 x5 s
  | .rsumFix x1 x2 x3 x4 x5 => Sys2Proof.Machine.execRsumFix x1 x2 x3 x4 x5 s
  | .rlen x1 x2 x3 x4 x5 => Sys2Proof.Machine.execRlen x1 x2 x3 x4 x5 s
  | .rref x1 x2 x3 x4 => Sys2Proof.Machine.execRref x1 x2 x3 x4 s
  | .rdrop x1 x2 x3 x4 x5 => Sys2Proof.Machine.execRdrop x1 x2 x3 x4 x5 s
  | .rwalk x1 x2 x3 x4 x5 => Sys2Proof.Machine.execRwalk x1 x2 x3 x4 x5 s
  | .rclass x1 x2 x3 x4 x5 => Sys2Proof.Machine.execRclass x1 x2 x3 x4 x5 s
  | .trie x1 x2 x3 x4 => Sys2Proof.Machine.execTrie x1 x2 x3 x4 s
  | .udec x1 x2 x3 => Sys2Proof.Machine.execUdec x1 x2 x3 s
  | .uhold x1 x2 x3 x4 => Sys2Proof.Machine.execUhold x1 x2 x3 x4 s
  | .iqput x1 x2 x3 x4 x5 => Sys2Proof.Machine.execIqput x1 x2 x3 x4 x5 s
  | .iqget x1 x2 x3 x4 x5 x6 => Sys2Proof.Machine.execIqget x1 x2 x3 x4 x5 x6 s
  | .iqgetWaitServe x1 x2 => Sys2Proof.Machine.execIqgetWaitServe x1 x2 s
  | .iqwave x1 x2 x3 x4 x5 => Sys2Proof.Machine.execIqwave x1 x2 x3 x4 x5 s
  | .iqcons x1 x2 x3 x4 x5 => Sys2Proof.Machine.execIqcons x1 x2 x3 x4 x5 s
  | .iqbind x1 x2 x3 x4 x5 => Sys2Proof.Machine.execIqbind x1 x2 x3 x4 x5 s
  | .iqbindStage x1 x2 x3 x4 x5 => Sys2Proof.Machine.execIqbindStage x1 x2 x3 x4 x5 s
  | .iqprobe x1 x2 x3 x4 x5 => Sys2Proof.Machine.execIqprobe x1 x2 x3 x4 x5 s
  | .iqupd x1 x2 x3 x4 x5 => Sys2Proof.Machine.execIqupd x1 x2 x3 x4 x5 s
  | .iqquiet x1 x2 x3 x4 x5 => Sys2Proof.Machine.execIqquiet x1 x2 x3 x4 x5 s
  | .dictionaryCode x1 => Sys2Proof.Machine.execDictionaryCode x1 s
  | .dictionaryLoad x1 x2 => Sys2Proof.Machine.execDictionaryLoad x1 x2 s
  | .chunkCommit x1 x2 => Sys2Proof.Machine.execChunkCommit x1 x2 s
  | .lockedReservation x1 x2 => Sys2Proof.Machine.execLockedReservation x1 x2 s
  | .steal x1 x2 => Sys2Proof.Machine.execSteal x1 x2 s
  | .strandArrival x1 => Sys2Proof.Machine.execStrandArrival x1 s
  | .remoteWordAccess x1 x2 => Sys2Proof.Machine.execRemoteWordAccess x1 x2 s
  | .remoteReply x1 x2 x3 => Sys2Proof.Machine.execRemoteReply x1 x2 x3 s
  | .translationWalk x1 x2 => Sys2Proof.Machine.execTranslationWalk x1 x2 s
  | .pageService x1 => Sys2Proof.Machine.execPageService x1 s
  | .pageMigration x1 => Sys2Proof.Machine.execPageMigration x1 s
  | .migrationEpoch x1 => Sys2Proof.Machine.execMigrationEpoch x1 s
  | .engineCompletion x1 x2 => Sys2Proof.Machine.execEngineCompletion x1 x2 s
  | .dmodeWrite x1 => Sys2Proof.Machine.execDmodeWrite x1 s
  | .ptrootWrite x1 => Sys2Proof.Machine.execPtrootWrite x1 s
  | .drtbaseWrite x1 => Sys2Proof.Machine.execDrtbaseWrite x1 s
  | .plbflush x1 => Sys2Proof.Machine.execPlbflush x1 s
  | .tcinv x1 => Sys2Proof.Machine.execTcinv x1 s
  | .hometabWrite x1 x2 => Sys2Proof.Machine.execHometabWrite x1 x2 s
  | .invalidationComplete => Sys2Proof.Machine.execInvalidationComplete s
  | .migreq x1 => Sys2Proof.Machine.execMigreq x1 s
  | .lqwidxWrite x1 x2 => Sys2Proof.Machine.execLqwidxWrite x1 x2 s
  | .lqnextWrite x1 x2 => Sys2Proof.Machine.execLqnextWrite x1 x2 s
  | .launchPacket x1 => Sys2Proof.Machine.execLaunchPacket x1 s
  | .fencePacket x1 => Sys2Proof.Machine.execFencePacket x1 s
  | .fencePacketRecheck x1 => Sys2Proof.Machine.execFencePacketRecheck x1 s
  | .signalPacket x1 => Sys2Proof.Machine.execSignalPacket x1 s
  | .copyPacket x1 => Sys2Proof.Machine.execCopyPacket x1 s
  | .modePacket x1 => Sys2Proof.Machine.execModePacket x1 s
  | .blockDeal x1 => Sys2Proof.Machine.execBlockDeal x1 s
  | .launchComplete x1 => Sys2Proof.Machine.execLaunchComplete x1 s
  | .sliceExpiry x1 => Sys2Proof.Machine.execSliceExpiry x1 s
  | .cspreWrite x1 x2 => Sys2Proof.Machine.execCspreWrite x1 x2 s
  | .idleThreshold x1 x2 => Sys2Proof.Machine.execIdleThreshold x1 x2 s
  | .blockSwapOut x1 x2 => Sys2Proof.Machine.execBlockSwapOut x1 x2 s
  | .denReadmit x1 x2 => Sys2Proof.Machine.execDenReadmit x1 x2 s
  | .hwake x1 => Sys2Proof.Machine.execHwake x1 s
  | .omcfgWrite x1 x2 => Sys2Proof.Machine.execOmcfgWrite x1 x2 s
  | .meqidxWrite x1 => Sys2Proof.Machine.execMeqidxWrite x1 s
  | .meqAnswer x1 => Sys2Proof.Machine.execMeqAnswer x1 s
  | .attctlGo x1 => Sys2Proof.Machine.execAttctlGo x1 s
  | .attestationComplete => Sys2Proof.Machine.execAttestationComplete s
  | .powerCapTick x1 => Sys2Proof.Machine.execPowerCapTick x1 s
  | .registerWrite x1 x2 => Sys2Proof.Machine.execRegisterWrite x1 x2 s
  | .controlCoreStart x1 => Sys2Proof.Machine.execControlCoreStart x1 s
  | .controlCoreHalt x1 => Sys2Proof.Machine.execControlCoreHalt x1 s
  | .hostAccess x1 x2 x3 => Sys2Proof.Machine.execHostAccess x1 x2 x3 s
  | .peerRequest x1 x2 x3 => Sys2Proof.Machine.execPeerRequest x1 x2 x3 s
  | .peerStrandArrival x1 x2 x3 => Sys2Proof.Machine.execPeerStrandArrival x1 x2 x3 s
  | .linkRetransmit x1 x2 => Sys2Proof.Machine.execLinkRetransmit x1 x2 s
  | .linkRetrain x1 x2 => Sys2Proof.Machine.execLinkRetrain x1 x2 s
  | .scrubRead x1 => Sys2Proof.Machine.execScrubRead x1 s
  | .errorEntryExpiry x1 x2 => Sys2Proof.Machine.execErrorEntryExpiry x1 x2 s
  | .coldReset => Sys2Proof.Machine.execColdReset s
  | .functionLevelReset => Sys2Proof.Machine.execFunctionLevelReset s
  | .powerOn => Sys2Proof.Machine.execPowerOn s
  | .lqctlWrite x1 x2 => Sys2Proof.Machine.execLqctlWrite x1 x2 s
  | .meqbaseWrite x1 => Sys2Proof.Machine.execMeqbaseWrite x1 s

end Sys2Proof.Machine
end

