-- ==== Sys2Proof/Machine/Step.lean ====
section
/-! DEFINITION. One step: the next move of the agenda, or, where the agenda is empty, the move the model itself takes next. -/

namespace Sys2Proof.Machine

/-- Run a unit in the current slot, which records it. -/
noncomputable def runUnit (u : Decoded) (s : State) : Host.Outcome State Fault Refusal :=
  let s := s.withUnit u
  match u with
  | .instr i => exec i s
  | .never => .next (s.openChunk.retire none)
  | .illegal r => s.illegalUnit r

/-- A dictionary code that has found its word runs it in the same turn (R101). -/
noncomputable def runCode (u : Decoded) (s : State) : Host.Outcome State Fault Refusal :=
  match runUnit u s with
  | .next t =>
    match s.cur.dictWord, t.cur.dictWord with
    | none, some w => runUnit (decodeWord w) t
    | _, _ => .next t
  | .fault f => .fault f
  | .refused r => .refused r

/-- A slot has its turn: its next unit is fetched and run. -/
noncomputable def issueNext (s : State) : Host.Outcome State Fault Refusal :=
  let r := s.fetch
  match r.1 with
  | .unit u => runCode u r.2
  | .stop e => (r.2.withUnit .never).settle e

/-- The slot whose turn it was has found no unit to issue: its turn passes, and it keeps its place (R22, R102). -/
def State.passes (s : State) (c k : Nat) : Bool := (s.slotAt c k).wait.any fun w => w.kind == .unit
def State.turnBack (s : State) (c : Nat) (q : CoreSt) : State := s.modCore c fun p => { p with rot := q.rot, issued := q.issued }

/-- The turns of one cycle of a core, and the strand that issues: at most one slot does. -/
noncomputable def turns (c : Nat) : Nat → State → Host.Outcome (Option Ctx × State) Fault Refusal
  | 0, s => .next (none, s)
  | n + 1, s =>
    let r := s.coreCycle c
    match r.1 with
    | none => .next (none, r.2)
    | some k =>
      match issueNext r.2 with
      | .next t => if t.passes c k then turns c n (t.turnBack c (s.coreAt c)) else .next (some (s.slotAt c k).ctx, t)
      | .fault f => .fault f
      | .refused f => .refused f

/-- One cycle of a core (R22). -/
noncomputable def tick (c : Nat) (s : State) : Host.Outcome State Fault Refusal :=
  match turns c 16 s with
  | .next r => .next (r.2.countCycle c r.1)
  | .fault f => .fault f
  | .refused f => .refused f

/-- An instruction that waited completes in its slot (R23); a unit that could not yet be fetched is fetched again. -/
noncomputable def complete (c k : Nat) (s : State) : Host.Outcome State Fault Refusal :=
  if s.finishes c k then
    let s := { s with core := c, slot := k }
    if s.cur.unit = .never then issueNext s else runCode s.cur.unit s
  else .next s

/-- One instruction of a control core that runs (R281). -/
noncomputable def ctrlTick (k : Nat) (s : State) : Host.Outcome State Fault Refusal :=
  let s := s.atCtrl k
  if s.ctrlRuns k then
    match s.fetchCtrl with
    | .inr u => runUnit u.1 u.2
    | .inl s => .next s
  else .next s

/-- Carry out a move. A word's instruction is no event: it runs only where a slot issues it. -/
noncomputable def move (m : Move) (s : State) : Host.Outcome State Fault Refusal :=
  match m with
  | .tick c => tick c s
  | .sched k => .next (s.schedCycle k)
  | .finish c k => complete c k s
  | .ctrl k => ctrlTick k s
  | .late n => .next (s.performLate n)
  | .event i => if i.isEvent then exec i s else .next s

/-- A move from `old` that would put a locked chunk in conflict waits: no commit, write or invalidation reaches a line while a locked
chunk that has touched it holds its reservation, so that the chunk commits (R38). -/
def State.breaksLock (s old : State) : Bool :=
  old.slotList.any fun e =>
    !e.2.2.reserved.isEmpty && e.2.2.chunk.isOpen && !e.2.2.chunk.conflict && (s.slotAt e.1 e.2.1).chunk.conflict

/-- The first of the moves given that changes the machine; where none does, the machine stands still. -/
noncomputable def firstMove (s : State) : List Move → Host.Outcome State Fault Refusal
  | [] => .next s
  | m :: ms =>
    match move m s with
    | .next s' => if s' = s || s'.breaksLock s then firstMove s ms else .next s'
    | .fault f => .fault f
    | .refused r => .refused r

/-- What a move from `old` leaves to be done at once: records that the event ring now takes, and those of the parsers (R289), candidates for retirement that it found
(R351), requests that have a route again (R355), what follows where dens, frames and held cores have changed (R280, R339), replays that
others now wait for (R335), strands whose updates have met poison (R346), and gangs that park or are ready again (R331). A move that has to wait for a locked chunk has not
been made. -/
def State.attend (s old : State) : State :=
  let drain (s : State) : State := State.meqDrain (s.meqPend.length + s.meqWait.length + 1) s
  if s.breaksLock old then { old with agenda := s.agenda }
  else ((((((drain (drain s).retireDue.lqRetry).sendHeld).keepFrames old).framesFreed old).noteEmpty).endReplays).parkMergers.parkGangs
def attended (old : State) : Host.Outcome State Fault Refusal → Host.Outcome State Fault Refusal
  | .next s => .next (s.attend old)
  | .fault f => .fault f
  | .refused r => .refused r

/-- One step (log 3). -/
noncomputable def step (s : State) : Host.Outcome State Fault Refusal :=
  attended s <| match s.agenda with
    | m :: ms => move m { s with agenda := ms }
    | [] => firstMove s s.autoMoves

/-- The state in which the next step runs the instruction given: a strand stands alone at the head of core 0's rotation with
that instruction at its PC, on a page it may execute (log 5). -/
def State.withFetchWord (s : State) (nbits w : Nat) : State :=
  let va := 0x100000
  let s := { s with
    agenda := [.tick 0]
    mem := s.mem.writeN va (leBytes 8 (w % 2 ^ nbits))
    regs := { s.regs with pwrK := 0 } }
  let s := s.setSlot 0 0 { Slot.empty with occ := .running, ctx := { Ctx.zero with pc := wordN va } }
  let s := s.modCore 0 fun q =>
    { q with rot := 0 :: q.rot.filter fun n => n != 0, issued := [], plb := [(0, 0, 15)], icache := [] }
  s.modDie 0 fun d => { d with tc := [{ va := va, bits := 15, key := 0, pa := va, peer := none }] }

end Sys2Proof.Machine
end

