-- ==== Sys2Proof/Safety.lean ====
section
/-! DEFINITION. The terms in which statements about the machine are made: operands and accesses that can be had, what an
instruction may change, and what holds of every state a run passes through. -/

/-- A general register, or `z`: an operand that no state of a queue or stream can hold up. -/
def Sys2Proof.Reg.plain (r : Sys2Proof.Reg) : Bool := (Sys2Proof.Machine.regIndex r).isSome || r == .z

/-- Source registers and destination of the instructions that only compute a register from registers (R118 to R127, R175): every
other effect of theirs is PC's advance. -/
def Sys2Proof.Instr.computes : Sys2Proof.Instr → Option (List Sys2Proof.Reg × Sys2Proof.Reg)
  | .add _ _ d a b | .sub _ _ d a b | .and _ _ d a b | .or _ _ d a b | .xor _ _ d a b | .andn _ _ d a b | .orn _ _ d a b
  | .sll _ _ d a b | .srl _ _ d a b | .sra _ _ d a b | .rol _ _ d a b | .ror _ _ d a b | .min _ _ d a b | .max _ _ d a b
  | .minn _ _ d a b | .maxn _ _ d a b | .mul _ _ d a b | .mulh _ _ d a b | .mulhn _ _ d a b | .bfx _ d a b
  | .bfxs _ d a b | .sel _ _ d a b => some ([a, b], d)
  | .clz _ _ d a | .ctz _ _ d a | .popc _ _ d a | .brev _ _ d a | .bswap _ _ d a | .sext _ _ _ d a | .zext _ _ _ d a
  | .addi _ d a _ | .andi _ d a _ | .ori _ d a _ | .xori _ d a _ | .shiSll _ _ d a _ | .shiSrl _ _ d a _
  | .shiSra _ _ d a _ | .shiRol _ _ d a _ | .shiRor _ _ d a _ => some ([a], d)
  | .li _ d _ | .pget _ d => some ([], d)
  | .lis _ d _ => some ([d], d)
  | .tern _ _ d a b | .bfi _ d a b => some ([a, b, d], d)
  | _ => none

/-- Source registers and destinations of the instructions that compute a float (R130 to R132, R134 to R136): they also raise sticky flags,
and may keep their slot waiting for the normaliser or the special-function unit. -/
def Sys2Proof.Instr.floats : Sys2Proof.Instr → Option (List Sys2Proof.Reg × List Sys2Proof.Reg)
  | .fadd _ _ _ d a b | .fsub _ _ _ d a b | .fmul _ _ _ d a b | .fmin _ _ d a b | .fmax _ _ d a b | .fcpys _ _ d a b =>
    some ([a, b], [d])
  | .fabs _ _ d a | .fneg _ _ d a | .fclass _ _ d a | .cvt _ _ _ _ d a | .rcp _ d a | .rsq _ d a | .sqrt _ d a | .log2 _ d a
  | .exp2 _ d a | .sin _ d a | .cos _ d a | .tanh _ d a | .sigm _ d a => some ([a], [d])
  | .fma _ _ _ d a b => some ([a, b, d], [d])
  | .cvte _ _ _ d a b => some ([a], [d, b])
  | _ => none

/-- Source registers and target predicate of the instructions that write one predicate (R122 to R124, R133). -/
def Sys2Proof.Instr.predicates : Sys2Proof.Instr → Option (List Sys2Proof.Reg × Fin 16)
  | .cmp _ _ _ _ p a b | .fcmp _ _ _ _ p a b => some ([a, b], p)
  | .cmpi _ _ _ _ p a _ => some ([a], p)
  | .pand _ p _ _ | .por _ p _ _ | .pxor _ p _ _ | .pnot _ p _ => some ([], p)
  | _ => none

/-- The guard of an instruction that has one (R104): every word but the dictionary code. -/
def Sys2Proof.Instr.guarded : Sys2Proof.Instr → Option Sys2Proof.Guard
  | .add g .. | .sub g .. | .and g .. | .or g .. | .xor g .. | .andn g .. | .orn g .. | .sll g .. | .srl g .. | .sra g ..
  | .rol g .. | .ror g .. | .min g .. | .max g .. | .minn g .. | .maxn g .. | .mul g .. | .mulh g .. | .mulhn g .. | .clz g ..
  | .ctz g .. | .popc g .. | .brev g .. | .bswap g .. | .sext g .. | .zext g .. | .addi g .. | .andi g .. | .ori g ..
  | .xori g .. | .shiSll g .. | .shiSrl g .. | .shiSra g .. | .shiRol g .. | .shiRor g .. | .li g .. | .lis g .. | .cmp g ..
  | .cmpi g .. | .pand g .. | .por g .. | .pxor g .. | .pnot g .. | .pget g .. | .pset g .. | .sel g .. | .tern g ..
  | .bfx g .. | .bfxs g .. | .bfi g .. | .div g .. | .divn g .. | .rem g .. | .remn g .. | .br g .. | .bl g .. | .jmp g ..
  | .jmpl g .. | .fadd g .. | .fsub g .. | .fmul g .. | .fmin g .. | .fmax g .. | .fabs g .. | .fneg g .. | .fcpys g ..
  | .fclass g .. | .fma g .. | .fcmp g .. | .cvt g .. | .cvte g .. | .rcp g .. | .rsq g .. | .sqrt g .. | .log2 g ..
  | .exp2 g .. | .sin g .. | .cos g .. | .tanh g .. | .sigm g .. | .ldn g .. | .lds g .. | .st g .. | .ldx g .. | .stx g ..
  | .ldfeKeep g .. | .ldfeTake g .. | .ldfePeek g .. | .stfeFill g .. | .stfeForce g .. | .stfeClear g .. | .atomAdd g ..
  | .atomMin g .. | .atomMax g .. | .atomMinn g .. | .atomMaxn g .. | .atomAnd g .. | .atomOr g .. | .atomXor g ..
  | .atomSwap g .. | .atomCas g .. | .atomFaddF32 g .. | .cupdAdd g .. | .cupdMin g .. | .cupdMax g .. | .cupdOr g ..
  | .cupdFaddF32 g .. | .fence g .. | .cend g | .home g .. | .migr g .. | .stay g | .linit g .. | .lmove g ..
  | .lpop g .. | .stbind g .. | .stfree g .. | .ststat g .. | .xcopyCopy g .. | .xcopyFill g .. | .xcopyPack g ..
  | .xcopyUnpack g .. | .fork g .. | .fget g .. | .fput g .. | .exit g .. | .yield g | .slstart g .. | .slreap g ..
  | .slquery g .. | .wake g .. | .gang g .. | .ungang g | .barinit g .. | .bararr g .. | .barwait g .. | .barleave g ..
  | .send g .. | .recv g .. | .mbstat g .. | .wqput g .. | .wqget g .. | .wqlen g .. | .turn g .. | .turnReg g ..
  | .poolid g .. | .trap g .. | .eret g | .crd g .. | .cwr g .. | .brk g | .lcset g .. | .lcget g .. | .halt g
  | .vadd g .. | .vaddScalar g .. | .vsub g .. | .vsubScalar g .. | .vmul g .. | .vmulScalar g .. | .vfma g ..
  | .vfmaScalar g .. | .vmin g .. | .vminScalar g .. | .vmax g .. | .vmaxScalar g .. | .vabs g .. | .vneg g .. | .vcmp g ..
  | .vcmpScalar g .. | .vsel g .. | .vselScalar g .. | .vand g .. | .vandScalar g .. | .vor g .. | .vorScalar g .. | .vxor g ..
  | .vxorScalar g .. | .vtern g .. | .vshl g .. | .vshlScalar g .. | .vshr g .. | .vshrScalar g .. | .vcvt g .. | .vcvte g ..
  | .vlog2 g .. | .vexp2 g .. | .vrcp g .. | .vrsq g .. | .vtanh g .. | .vsigm g .. | .vredadd g .. | .vredmax g ..
  | .vimax g .. | .vimaxScalar g .. | .vscan g .. | .vperm g .. | .vpermScalar g .. | .vbcast g .. | .vbcastScalar g ..
  | .vsplat g .. | .vpopc g .. | .vld g .. | .vst g .. | .vldx g .. | .vstx g .. | .vbitsLd g .. | .vbitsSt g .. | .vfence g
  | .vbusy g .. | .vrel g | .vmand g .. | .vmor g .. | .vmxor g .. | .vmnot g .. | .vmget g .. | .vmset g .. | .vimaxs g ..
  | .mfmt g .. | .mma g .. | .mld g .. | .mst g .. | .mclr g .. | .mqry g .. | .mrecl g .. | .attn g .. | .maskset g ..
  | .kvapp g .. | .kvcommit g .. | .kvtrunc g .. | .linfold g .. | .pref g .. | .rcat g .. | .rsplitLo g .. | .rsplitHi g ..
  | .rsplice g .. | .rleaf g .. | .ridx g .. | .rsum g .. | .rsumFix g .. | .rlen g .. | .rref g .. | .rdrop g .. | .rwalk g ..
  | .rclass g .. | .trie g .. | .udec g .. | .uhold g .. | .iqput g .. | .iqget g .. | .iqwave g .. | .iqcons g ..
  | .iqbind g .. | .iqbindStage g .. | .iqprobe g .. | .iqupd g .. | .iqquiet g .. => some g
  | _ => none

/-- The cross-lane commands of R192, which a gang's members issue jointly whatever their guards say. -/
def Sys2Proof.Instr.crossLane : Sys2Proof.Instr → Bool
  | .vredadd .. | .vredmax .. | .vscan .. | .vperm .. | .vpermScalar .. | .vbcast .. | .vbcastScalar .. | .vimaxs .. => true
  | _ => false

/-- R281's list: the instructions that the control core has. -/
def Sys2Proof.Instr.controlCore (i : Sys2Proof.Instr) : Bool :=
  i.computes.isSome || match i with
    | .cmp .. | .cmpi .. | .pand .. | .por .. | .pxor .. | .pnot .. | .pset .. | .div .. | .divn .. | .rem .. | .remn ..
    | .br .. | .bl .. | .jmp .. | .jmpl .. | .ldn .. | .lds .. | .st .. | .lcset .. | .lcget .. | .halt .. => true
    | _ => false

namespace Sys2Proof.Machine

/-! ### When an instruction has what it needs -/

/-- Reading operand `r` in `s` gives `v` at once and leaves `s'`. -/
def Reads (r : Reg) (s : State) (v : Word) (s' : State) : Prop := (readReg r).run s = .ok (v, s')

/-- Writing `v` to destination `r` in `s` is possible at once and leaves `s'`. -/
def Writes (r : Reg) (v : Word) (s s' : State) : Prop := (writeReg r v).run s = .ok ((), s')

/-- An access can be made at once: its bytes stand at a place of this device or of the host, or a peer has answered; reaching them
leaves `s'`. -/
def Finds (a : Acc) (s : State) (p : Spot) (s' : State) : Prop := (access a).run s = .ok (p, s')

/-- The current slot is a strand's and the guard lets the instruction run. -/
structure Strand (g : Guard) (s : State) : Prop where
  strand : s.isCtrl = false
  guard : g.holds s.cur.ctx.pred = true

/-- What a plain operand holds. -/
def State.val (s : State) (r : Reg) : Word :=
  match regIndex r with
  | some n => s.cur.ctx.gpr[n]
  | none => 0

/-- `i` waits in `s` for `w`: what it did is undone, but that a pop of `nq` has pinned its strand (R23, R35, R158). -/
def Waits (i : Instr) (s : State) (w : Wait) : Prop :=
  ∃ t, exec i s = .next t ∧ t.cur.wait = some w ∧ t.cur.ctx = { s.cur.ctx with pinq := t.cur.ctx.pinq } ∧
    (s.cur.ctx.pinq = true → t.cur.ctx.pinq = true) ∧ t.mem = s.mem

/-- The slot's instruction holds no entry that it has taken from a queue (R158). -/
abbrev State.HoldsNone (s : State) : Prop := s.cur.kept = []

/-! ### Instructions that compute a value from operands: what each answers, whatever its operands are -/

/-- `i` reads `a` and writes `f` of it to `d`. -/
def Unary (i : Instr) (g : Guard) (d a : Reg) (f : Word → Word) : Prop :=
  ∀ s x s1 s2, g.holds s.cur.ctx.pred = true → Reads a s.openChunk x s1 → Writes d (f x) s1 s2 →
    exec i s = .next (s2.retire none)

/-- `i` reads `a`, then `b`, and writes `f` of them to `d`. -/
def Binary (i : Instr) (g : Guard) (d a b : Reg) (f : Word → Word → Word) : Prop :=
  ∀ s x y s1 s2 s3, g.holds s.cur.ctx.pred = true → Reads a s.openChunk x s1 → Reads b s1 y s2 → Writes d (f x y) s2 s3 →
    exec i s = .next (s3.retire none)

/-- `i` reads `a`, `b`, then `d`, and writes `f` of the values of d, a and b to `d`. -/
def Ternary (i : Instr) (g : Guard) (d a b : Reg) (f : Word → Word → Word → Word) : Prop :=
  ∀ s x y z s1 s2 s3 s4, g.holds s.cur.ctx.pred = true → Reads a s.openChunk x s1 → Reads b s1 y s2 → Reads d s2 z s3 →
    Writes d (f z x y) s3 s4 → exec i s = .next (s4.retire none)

/-- Operand width of an instruction with a `.w` bit, and an operand read at it, without and with sign (R118). -/
def opWidth (w : Bool) : Nat := if w then 32 else 64
def uns (w : Bool) (x : Word) : Nat := x.toNat % 2 ^ opWidth w
def sgn (w : Bool) (x : Word) : Int := signedOf (opWidth w) x.toNat
/-- A result of that width, sign-extended to 64 bits. -/
def res (w : Bool) (v : Nat) : Word := sextN (opWidth w) v

def resI (w : Bool) (v : Int) : Word := res w (v % (2 : Int) ^ opWidth w).toNat

/-- A condition of an integer comparison (R109, R122). -/
def condOf (n : ICond) (w : Bool) (x y : Word) : Bool :=
  match n with
  | .eq => uns w x == uns w y
  | .ne => uns w x != uns w y
  | .lt => decide (sgn w x < sgn w y)
  | .ge => decide (sgn w y ≤ sgn w x)
  | .ltn => decide (uns w x < uns w y)
  | .gen => decide (uns w y ≤ uns w x)

/-- Predicate `p` as an instruction reads it: p0 is 1. -/
def State.predOf (s : State) (p : Fin 16) : Bool := p == 0 || s.cur.ctx.pred.getLsbD p.val
/-- The state in which predicate `p` alone has received an outcome: p0 discards it. -/
def State.putPred (s : State) (p : Fin 16) (v : Bool) : State :=
  s.modCtx fun x =>
    { x with pred := if p = 0 then x.pred else (List.finRange 16).foldl (fun w i =>
        if (if i = p then v else x.pred.getLsbD i.val) then w ||| BitVec.twoPow 16 i.val else w) 0 }
/-- What a compare writes, from its outcome and the predicate's old value (R122). -/
def combined (c : Combine) (old v : Bool) : Bool :=
  match c with
  | .set => v
  | .and => old && v
  | .or => old || v

/-- Sticky flags are raised; and `n` subnormal operands are handed to the core's normaliser (R24, R90). -/
def State.raised (s : State) (f : NFlags) : State := s.modCtx fun x => { x with tmode := x.tmode ||| (f &&& flAll) }
def State.normalised (s : State) (n : Nat) : State :=
  if n = 0 then s
  else (s.modCore s.core fun k => { k with normQ := k.normQ ++ [s.slot] }).modCur fun x => { x with wait := some (.normaliser n) }

/-- `i` reads `a` and `b` as floats of format F and writes `f` of them, in the rounding mode `r` stands for, to `d`; its flags are
raised and its subnormal operands served by the normaliser. -/
def FloatBinary (i : Instr) (g : Guard) (F : FFmt) (r : Rnd) (d a b : Reg)
    (f : RMode → Bool → Nat → Nat → Nat × NFlags) : Prop :=
  ∀ s x y s1 s2 s3 v, Strand g s → Reads a s.openChunk x s1 → Reads b s1 y s2 →
    v = f (r.resolve s.cur.ctx.tmode) (s.cur.ctx.tmode.getLsbD 0) (x.toNat % 2 ^ F.width) (y.toNat % 2 ^ F.width) →
    Writes d (wordN v.1)
      ((s2.normalised (subnormals F (s.cur.ctx.tmode.getLsbD 0) [x.toNat % 2 ^ F.width, y.toNat % 2 ^ F.width])).raised v.2) s3 →
    exec i s = .next (s3.retire none)
def FloatUnary (i : Instr) (g : Guard) (F : FFmt) (d a : Reg) (f : Bool → Nat → Nat × NFlags) : Prop :=
  ∀ s x s1 s2 v, Strand g s → Reads a s.openChunk x s1 → v = f (s.cur.ctx.tmode.getLsbD 0) (x.toNat % 2 ^ F.width) →
    Writes d (wordN v.1)
      ((s1.normalised (subnormals F (s.cur.ctx.tmode.getLsbD 0) [x.toNat % 2 ^ F.width])).raised v.2) s2 →
    exec i s = .next (s2.retire none)

/-- A slot waits for a unit of its core that its slots share. -/
structure InUnit (s t : State) (w : Wait) (q : CoreSt → List UnitOp) (o : UnitOp) : Prop where
  waits : t.cur.wait = some w
  queued : q (t.coreAt s.core) = q (s.coreAt s.core) ++ [o]

/-- `i` reads `a` and `b`, hands the value `f` gives to the core's divider for `d`, and waits for it (R24, R128). A result for a
queue, a stream or `z` is put at issue (R158). The control core has its result at once (R281). -/
def Divides (i : Instr) (g : Guard) (d a b : Reg) (f : Word → Word → Word) : Prop :=
  ∀ s x y s1 s2 s3, g.holds s.cur.ctx.pred = true → Reads a s.openChunk x s1 → Reads b s1 y s2 →
    (s.isCtrl = false → (regIndex d).isSome →
      ∃ t, exec i s = .next t ∧ InUnit s t .divider CoreSt.divQ { slot := s.slot, dst := d, value := f x y, flags := 0 }) ∧
    (s.isCtrl = false → (regIndex d).isNone → Writes d (f x y) s2 s3 →
      ∃ t, exec i s = .next t ∧ InUnit s t .divider CoreSt.divQ { slot := s.slot, dst := .z, value := f x y, flags := 0 }) ∧
    (s.isCtrl = true → Writes d (f x y) s2 s3 → exec i s = .next (s3.retire none))
/-- `i` reads `a`, hands a special function of it, with its flags, to the core's special-function unit for `d`, and waits: for the
normaliser first where its operand is a subnormal (R24, R136). -/
def SpecialOf (i : Instr) (g : Guard) (d a : Reg) (f : SFn) : Prop :=
  ∀ s x s1 s2 v n, Strand g s → Reads a s.openChunk x s1 → v = special f fmtF32 (s.cur.ctx.tmode.getLsbD 0) (x.toNat % 2 ^ 32) →
    n = subnormals fmtF32 (s.cur.ctx.tmode.getLsbD 0) [x.toNat % 2 ^ 32] →
    ((regIndex d).isSome → ∃ t, exec i s = .next t ∧
      InUnit s t (if n = 0 then .sfu else .normaliser 1) CoreSt.sfuQ
        { slot := s.slot, dst := d, value := wordN v.1, flags := v.2 }) ∧
    ((regIndex d).isNone → Writes d (wordN v.1) (s1.normalised n) s2 → ∃ t, exec i s = .next t ∧
      InUnit s t (if n = 0 then .sfu else .normaliser 1) CoreSt.sfuQ
        { slot := s.slot, dst := .z, value := wordN v.1, flags := v.2 })

/-- A slot after a shared unit has finished an operation of it: the result stands in its register, its flags are raised, and
the slot waits no more. -/
def Slot.finished (x : Slot) (o : UnitOp) : Slot :=
  { x with
    wait := none
    ctx := { x.ctx with
      gpr := match regIndex o.dst with | some n => x.ctx.gpr.set n o.value | none => x.ctx.gpr
      tmode := x.ctx.tmode ||| (o.flags &&& flAll) } }

/-- Control may pass to a target (R312): it is even, lies in the translated space, and a walk of it meets no malformed entry. A
gang's follower takes its leader's way, unless that one trapped at the transfer, and a control core goes where it is told. -/
def State.Enters (s : State) (t : Word) : Prop :=
  s.isCtrl = true ∨ (s.cur.isFollower = true ∧ ∀ e, s.cur.gbuf.head? = some e → e.faulted = false) ∨
    (t.toNat % 2 = 0 ∧ t.toNat < 2 ^ 56 ∧ ((s.tcFind (dieOf s.core) t.toNat).isSome ∨ s.walk t.toNat ≠ .malformed))

/-- The launch's trap vector and future vector, as a strand's control registers show them (R174). -/
def State.tvec (s : State) : Word := ((s.launchOf s.cur.ctx).map (·.tvec)).getD 0
def State.tfut (s : State) : Word := ((s.launchOf s.cur.ctx).map (·.tfut)).getD 0

/-- A strand at the first instruction of a chunk, outside a gang and outside its trap handler, in a launch that has one. -/
structure TakesTraps (s : State) : Prop where
  strand : s.isCtrl = false
  fresh : s.openChunk.cur.chunk.count = 0
  alone : s.cur.ctx.gang = false
  outside : s.cur.ctx.intrap = false
  handler : s.tvec ≠ 0
  holds : s.HoldsNone
  /-- No woken strand waits for the slot (R334). -/
  own : ∀ p ∈ (s.coreAt s.core).parkStore, p.own ≠ some s.slot

/-- `t` is `s` after the entry of R309: TEPC, TCAUSE and TADDR are written, INTRAP is set, the strand stands at the handler, and its
registers, predicates and TMODE, other slots, and memory are as they were. -/
structure Entered (s t : State) (cause info : Nat) (addr epc handler : Word) : Prop where
  tepc : t.cur.tepc = epc
  tcause : t.cur.tcause = wordN (info * 2 ^ 16 + cause)
  taddr : t.cur.taddr = addr
  ctx : t.cur.ctx = { s.cur.ctx with intrap := true, pc := handler }
  rest : t = { s with slots := t.slots }
  others : ∀ c k, 16 * c + k ≠ 16 * s.core + s.slot → t.slotAt c k = s.slotAt c k

/-- `i` takes a trap of TVEC's handler in `s`, with this cause, INFO, address and return point. -/
def Traps (i : Instr) (s : State) (cause info : Nat) (addr epc : Word) : Prop :=
  ∃ t, exec i s = .next t ∧ Entered s t cause info addr (epc &&& ~~~1) (s.tvec &&& ~~~1)

/-! ### Memory as a strand sees it -/

/-- Before main memory is read, the holders of its line are recalled (R57). -/
def State.fetched (s : State) (va : Word) (sa : Nat) : State := if sa < 2 ^ 40 then s.recall (lineOf va.toNat) else s
/-- `n` bytes as the strand sees them, its chunk's own stores among them (R62), and the state once they are read. -/
def State.seen (s : State) (va : Word) (sa n : Nat) : Nat := leNat ((s.fetched va sa).view.readN sa n)
def Spot.value (p : Spot) (a : Acc) (s : State) : Nat :=
  match p with
  | .here sa => s.seen a.va sa a.size
  | .peer v => v.toNat % 2 ^ (8 * a.size)
def Spot.after (p : Spot) (a : Acc) (s : State) : State :=
  match p with
  | .here sa => s.fetched a.va sa
  | .peer _ => s

/-- The chunk of the current slot holds one more effect for its commit (R37). -/
def State.withHeld (s : State) (h : Held) : State := s.modChunk fun c => { c with held := c.held ++ [h] }
/-- The chunk ends after its current instruction. -/
def State.ending (s : State) : State := s.modChunk fun c => { c with ended := true }
/-- Bytes are stored: by a strand's chunk at its commit, by a control core at once; a peer has stored its own. -/
def Spot.stored (p : Spot) (a : Acc) (bytes : List Byte) (atomic : Bool) (s : State) : State :=
  match p with
  | .peer _ => s
  | .here sa =>
    if s.isCtrl then s.devWrite sa sa bytes
    else s.withHeld (.store sa (if sa < 2 ^ 64 then a.va.toNat else sa) bytes atomic)

/-- `i` applies an atomic operation to `n` bytes at the address in `a`: `f` gives the new value from the old one, the operand in
`b`, and for CAS the value compared in `d`; `e` gives what `d` receives of the old one (R144). -/
def Atomic (i : Instr) (g : Guard) (op : AtomOp) (n : Nat) (m : AtMode) (d a b : Reg) (f : Nat → Nat → Nat → Nat × NFlags)
    (e : Nat → Word) : Prop :=
  ∀ s va y c s1 s2 s3 p s4 s5 acc old, Strand g s → Reads a s.openChunk va s1 → Reads b s1 y s2 →
    (if op = .cas then Reads d s2 c s3 else c = 0 ∧ s3 = s2) →
    acc = ({ va, size := n, need := 9, way := if m = .dev then .stay else .y, op := .atom op n y c } : Acc) →
    Finds acc s3 p s4 → old = p.value acc s4 →
    Writes d (e old) ((p.stored acc (leBytes n (f old y.toNat c.toNat).1) true (p.after acc s4)).raised (f old y.toNat c.toNat).2) s5 →
    exec i s = .next (s5.retire none)

/-- `i` sends the update of `n` bytes at the address in `a` by the value in `b` along with its chunk, whose write signature the
line joins (R56, R145). -/
def Updates (i : Instr) (g : Guard) (op : CupdOp) (n : Nat) (a b : Reg) : Prop :=
  ∀ s va y s1 s2 sa s3, Strand g s → Reads a s.openChunk va s1 → Reads b s1 y s2 → va.toNat < 2 ^ 56 →
    Finds { va, size := n, need := 8, way := .stay, op := .cupd op.atomOp n y, upd := true } s2 (.here sa) s3 → sa < 2 ^ 64 →
    s3.cur.chunk.count = 0 ∨ s3.cur.chunk.written.length < 32 →
    exec i s = .next (((s3.modChunk fun c =>
        { c with upds := insertNat (lineOf va.toNat) c.upds, conflict := c.conflict || c.seen.contains (lineOf va.toNat) }).withHeld
      (.cupd sa va.toNat op n (y.toNat % 2 ^ (8 * n)))).retire none)

/-- An address in a scratchpad window: a core's, or one's own (R42). -/
def InPads (va : Word) : Prop := ∃ c o, regionOf va.toNat = .scratch c o ∨ regionOf va.toNat = .own o

/-- A list's granule at an address of a per-core window stands at `sa` (R148). -/
def Granule (va : Word) (s : State) (sa : Nat) (s' : State) : Prop :=
  (∃ c o, regionOf va.toNat = .scratch c o) ∧
    Finds { va, size := 16, need := 9, way := .stay, op := .load 16 } s (.here sa) s'
/-- Field `k` of a granule is stored; field `k` as the chunk sees it. -/
def State.putField (s : State) (sa k v : Nat) : State :=
  s.withHeld (.store (sa + 4 * k) (sa + 4 * k) (leBytes 4 v) true)
def State.field (s : State) (sa k : Nat) : Nat := s.view.readNat (sa + 4 * k) 4
/-- The granule a link names, where it names one; else the head (R149). -/
def Linked (link hd : Nat) (s : State) (sa : Nat) (s' : State) : Prop :=
  (link = 0xFFFFFFFF ∧ sa = hd ∧ s' = s) ∨ (link ≠ 0xFFFFFFFF ∧ Granule (wordN (scratchBase + link)) s sa s')
/-- A record leaves the list whose head stands at `hd`: its neighbours, or the head, receive each other's links, and the count
falls by 1 (R149). -/
def Unlinked (r hd : Nat) (s s' : State) : Prop :=
  ∃ p n s1 s2 s3, Linked (s.field r 1) hd s p s1 ∧ Linked (s.field r 0) hd s1 n s2 ∧
    s3 = (s2.putField p 0 (s.field r 0)).putField n 1 (s.field r 1) ∧ s' = s3.putField hd 2 (s3.field hd 2 + 2 ^ 32 - 1)

/-! ### Engines, vectors, futures, barriers -/

/-- A register that may be absent: the instruction then has 0 in its place. -/
def ReadsOpt (r : Option Reg) (s : State) (v : Word) (s' : State) : Prop :=
  match r with
  | some r => Reads r s v s'
  | none => v = 0 ∧ s' = s

/-- A run of loads, the `i`th of `n` bytes at `va i`, reached in the way `w i`: their values `v i`, from `s` to `s'`. -/
def LoadsAll (k n : Nat) (va : Nat → Word) (w : Nat → Way) (v : Nat → Nat) (s s' : State) : Prop :=
  ∃ (t u : Nat → State) (p : Nat → Spot), t 0 = s ∧ t k = s' ∧ ∀ i, i < k → ∃ c : Acc,
    c = { va := va i, size := n, need := 1, way := w i, op := .load n } ∧ Finds c (t i) (p i) (u i) ∧
      v i = (p i).value c (u i) ∧ t (i + 1) = (p i).after c (u i)

/-- `i` reads `a`, and `d` where `src`, and hands its engine a command, which its chunk's commit dispatches: where the queue has
room, and a queue or stream that is to receive its result is one that can (R73, R372). Its chunk ends (R36). -/
def Issues (i : Instr) (g : Guard) (e : EngUnit) (op : EngOp) (q r : Flag) (d a : Reg) (src dst : Bool) : Prop :=
  ∀ s x y s1 s2, Strand g s → Reads a s.openChunk x s1 → ReadsOpt (if src then some d else none) s1 y s2 →
    (dst = true → (regIndex d).isSome = true ∨ (checkDst d).run s2 = .ok ((), s2)) →
    (op = .mqry ∨ op = .mrecl ∨ s2.engRoom (clusterOf s.core) e = true →
      exec i s = .next (((s2.withHeld (.engine (s2.newCmd e op q r y x (a == .z) (if dst then some d else none)))).ending).retire
        none)) ∧
    (op ≠ .mqry → op ≠ .mrecl → s2.engRoom (clusterOf s.core) e = false →
      Waits i s (.engineFull e))

/-- The SVU command that an instruction queues. -/
def State.svuCmd (s : State) (op : SvuOp) (x y : Word) : SvuCmd :=
  { op, x, y, tmode := s.cur.ctx.tmode, seq := s.cur.nextSeq
    gang := if s.cur.ctx.gang then some (s.cur.ctx.lane, s.cur.ctx.gsz) else none, since := s.ticket }
/-- The strand is pinned by a vector instruction, and the command takes its place in the order of issue. -/
def State.vectorPinned (s : State) : State :=
  ({ s with ticket := s.ticket + 1 } : State).modCtx fun k => { k with pinv := true }

/-- `i` reads its general registers and hands `op` to the SVU, which pins the strand (R35, R179): where the queue of 8 has room; a
memory command of a chunk that executes again or is locked is carried out before the next unit (R317), once the slot's queue is empty and
its turn at the SVU has come. -/
def Queues (i : Instr) (g : Guard) (op : SvuOp) (a b : Option Reg) : Prop :=
  ∀ s x y s1 s2, Strand g s → ReadsOpt a s.openChunk x s1 → ReadsOpt b s1 y s2 →
    (op.isMem = false ∨ (s2.cur.svuSerial = false ∧ s2.cur.lockLeft = 0) →
      (s2.cur.svuQ.length < 8 →
        exec i s = .next ((s2.vectorPinned.modCur fun z => { z with svuQ := z.svuQ ++ [s2.svuCmd op x y] }).retire none)) ∧
      (8 ≤ s2.cur.svuQ.length → Waits i s .svuFull)) ∧
    (op.isMem = true → s2.cur.svuSerial = true ∨ 0 < s2.cur.lockLeft →
      (s2.cur.svuQ ≠ [] → Waits i s .svu) ∧
      (s2.cur.svuQ = [] → ∀ k : SvuCmd, k = { s2.svuCmd op x y with since := s2.cur.ticket.getD s2.ticket } →
        (s2.svuNext s2.core s2.slot k = false → Waits i s .svuFull) ∧
        (s2.svuNext s2.core s2.slot k = true → ∀ s3, (svuRun (s2.svuCmd op x y)).run s2.vectorPinned = .ok ((), s3) →
          exec i s = .next (s3.retire none))))

/-- No write stream of the slot has an element still to be performed, nor anything to report. -/
def State.StreamsDry (s : State) : Prop :=
  (∀ (t : Fin 4) (st : Stream), s.cur.streams[t] = some st → st.write = true →
    st.buf = [] ∧ st.refused = none ∧ st.absent = none ∧ st.tainted = none) ∧
  ∀ (t : Fin 4) (w : Word), Held.streamOut t w ∉ s.cur.chunk.held

/-- An address that a future or a barrier may have: the translated space, or a core's window (R159, R168). -/
def Shared (va : Word) : Prop := va.toNat % 16 = 0 ∧ (va.toNat < 2 ^ 56 ∨ ∃ c o, regionOf va.toNat = .scratch c o)

/-- A barrier's granule at an address stands at `sa`; `ro`: it is only read. -/
def Barrier (va : Word) (ro : Bool) (s : State) (sa : Nat) (s' : State) : Prop :=
  Shared va ∧ ∃ u, Finds { va, size := 16, need := 8, way := .stay, op := .load 8, own := true, ro } s (.here sa) u ∧
    s' = u.fetched va sa
/-- Its fields MEMBERS, ARRIVED and GEN, 0 to 2, are stored with one access of the granule, whose last field stays. -/
def State.putBar (s : State) (va : Word) (sa : Nat) (f : Nat × Nat × Nat) : State :=
  s.withHeld (.store sa va.toNat (leBytes 4 f.1 ++ leBytes 4 f.2.1 ++ leBytes 4 f.2.2 ++ leBytes 4 (s.field sa 3)) true)
/-- What the fields become where `m` members are due and `a` have arrived: with the last arrival, where `b` says it counts, ARRIVED is 0
and the generation moves on. -/
def barFields (b : Bool) (m a g : Nat) : Nat × Nat × Nat := if b && decide (m ≤ a) then (m, 0, (g + 1) % 2 ^ 32) else (m, a, g)

/-! ### The occupancy monitor (R41, R249, R250) -/

/-- Cores of a pool of a cluster, 1 to 3, the depth of its queue, and its minimum. -/
def ClusterSt.poolCores (u : ClusterSt) (p : Nat) : List Nat := (List.range 8).filter fun k => u.ompool.toNat / 4 ^ k % 4 == p
def ClusterSt.poolDepth (u : ClusterSt) (p : Nat) : Nat := (u.wqs.get [] (u.omcfg.toNat / 2 ^ (8 * (p - 1)) % 16)).length
def ClusterSt.poolLeast (u : ClusterSt) (p : Nat) : Nat := u.omcfg.toNat / 2 ^ (8 * (p - 1) + 4) % 16

/-- The ratio of pool `a`, its depth by its cores, is at least `n` times that of pool `b`; without a core a pool's is infinite where its
depth is above 0, and 0 otherwise. -/
abbrev ClusterSt.RatioGe (u : ClusterSt) (n a b : Nat) : Prop :=
  (u.poolCores a = [] ∧ 0 < u.poolDepth a) ∨
    (¬(u.poolCores b = [] ∧ 0 < u.poolDepth b) ∧
      n * u.poolDepth b * max 1 (u.poolCores a).length ≤ u.poolDepth a * max 1 (u.poolCores b).length)

/-- The pool of the highest and that of the lowest ratio; of equals the first. -/
structure ClusterSt.Highest (u : ClusterSt) (p : Nat) : Prop where
  range : 1 ≤ p ∧ p ≤ 3
  most : ∀ q, 1 ≤ q → q ≤ 3 → u.RatioGe 1 p q
  first : ∀ q, 1 ≤ q → q < p → ¬u.RatioGe 1 q p
structure ClusterSt.Lowest (u : ClusterSt) (q : Nat) : Prop where
  range : 1 ≤ q ∧ q ≤ 3
  least : ∀ p, 1 ≤ p → p ≤ 3 → u.RatioGe 1 p q
  first : ∀ p, 1 ≤ p → p < q → ¬u.RatioGe 1 q p

/-! ### What faces system software -/

/-- No write of the register window is held back (R328) or behind an earlier access of the host (R76), no record waits in the device or
at its source (R289), and no parser has one to post, or one that waits for room (R273, R289). -/
structure State.Quiet (s : State) : Prop where
  writes : s.windowQ = []
  host : s.hostHeld = []
  records : s.meqWait = []
  pending : s.meqPend = []
  parsers : s.lqFresh = []
  due : s.lqDue = []

/-- A parser that turns to queue `q` reads packet `p` at its head, in storage of this device (R271, R273); `u` is the state then. -/
def Head (q : Nat) (s : State) (p : Pkt) (u : State) : Prop :=
  q < 64 ∧ s.lqPick (q / 32) = some q ∧ 6 ≤ (s.regs.lqbase.get 0 q).toNat % 32 ∧ (s.regs.lqbase.get 0 q).toNat % 32 ≤ 16 ∧
    ∃ sa v b, s.parserSpot (s.lqDom q) 1 (s.pktVa q) (peerLoads 64 (s.pktVa q)) = (.here sa, v) ∧
      v.parserRead (.here sa) (s.pktVa q) 64 = (b, u) ∧
      pktOf b q (s.lqPrio q) s.launchSeq = .ok p

/-- No strand of a core waits to return to slot `k` from its park store (R334). -/
def State.NoOwner (s : State) (c k : Nat) : Prop := ∀ p ∈ (s.coreAt c).parkStore, p.own ≠ some k
/-- No strand is in a park store. -/
def State.NoneStored (s : State) : Prop := ∀ e ∈ s.cores, e.2.parkStore = []

/-! ### What an instruction leaves -/

/-- All that a gang's leader may change of another slot: what stands in its buffer, and whether it is to leave (R34). -/
def Slot.BufferOnly (x y : Slot) : Prop := y = { x with gbuf := y.gbuf, releasing := y.releasing }

/-- `t` differs from `s` in the current slot alone, but for what a gang's leader hands out. -/
structure CurOnly (s t : State) : Prop where
  rest : t = { s with slots := t.slots }
  others : ∀ c k, 16 * c + k ≠ 16 * s.core + s.slot → Slot.BufferOnly (s.slotAt c k) (t.slotAt c k)

/-- The context changes at most its general registers, predicates, TMODE and PC, the FSEQ that a replay ends (R335), and membership of a
gang that its leader has dissolved (R34). -/
def Ctx.ComputeOnly (x y : Ctx) : Prop :=
  y = { x with gpr := y.gpr, pred := y.pred, tmode := y.tmode, pc := y.pc, gang := y.gang, leader := y.leader,
               lane := y.lane, gsz := y.gsz, fseq := y.fseq }

/-- The frame of an instruction that only computes: no other slot, no memory, no queue, no special register, no stream, no vector
register, nothing that its chunk holds for its commit. -/
structure Computes (s t : State) : Prop where
  cur : CurOnly s t
  ctx : Ctx.ComputeOnly s.cur.ctx t.cur.ctx
  trap : t.cur.tepc = s.cur.tepc ∧ t.cur.tcause = s.cur.tcause ∧ t.cur.taddr = s.cur.taddr
  vec : t.cur.vec = s.cur.vec ∧ t.cur.svuQ = s.cur.svuQ
  streams : t.cur.streams = s.cur.streams
  occ : t.cur.occ = s.cur.occ

/-! ### Safe runs -/

/-- What every state of a run keeps: memory in its one canonical form. -/
def State.Inv (s : State) : Prop := s.mem.wf = true

/-- One step after another from `s` leads to `t`. -/
inductive Reaches (s : State) : State → Prop where
  | here : Reaches s s
  | more {t u : State} : Reaches s t → step t = .next u → Reaches s u

/-- A run is safe where no step of it ends in a fault or a refusal. -/
def State.Safe (s : State) : Prop := ∀ t, Reaches s t → ∃ u, step t = .next u

end Sys2Proof.Machine
end

