-- ==== Sys2Proof/Certificates/Slice0/Obligations.lean ====
section
/-! DEFINITION. The statements for the provers. -/

open Sys2Proof Sys2Proof.Machine

/-! ### Scalar instructions -/

/-- R118: each integer function of two operands, at both widths, on whatever its operands give, and each of one operand. -/
def Obligations.IntegerFunctionResults : Prop :=
  (∀ (g : Guard) (w : Bool) (d a b : Reg),
    Binary (.add g w d a b) g d a b (fun x y => res w (uns w x + uns w y)) ∧
    Binary (.sub g w d a b) g d a b (fun x y => res w (uns w x + 2 ^ opWidth w - uns w y)) ∧
    Binary (.and g w d a b) g d a b (fun x y => res w (uns w x &&& uns w y)) ∧
    Binary (.or g w d a b) g d a b (fun x y => res w (uns w x ||| uns w y)) ∧
    Binary (.xor g w d a b) g d a b (fun x y => res w (uns w x ^^^ uns w y)) ∧
    Binary (.andn g w d a b) g d a b (fun x y => res w (uns w x &&& (2 ^ opWidth w - 1 - uns w y))) ∧
    Binary (.orn g w d a b) g d a b (fun x y => res w (uns w x ||| (2 ^ opWidth w - 1 - uns w y))) ∧
    Binary (.sll g w d a b) g d a b (fun x y => res w (uns w x * 2 ^ (uns w y % opWidth w))) ∧
    Binary (.srl g w d a b) g d a b (fun x y => res w (uns w x / 2 ^ (uns w y % opWidth w))) ∧
    Binary (.sra g w d a b) g d a b (fun x y => wordI (sgn w x / 2 ^ (uns w y % opWidth w))) ∧
    Binary (.rol g w d a b) g d a b (fun x y =>
      res w (uns w x * 2 ^ (uns w y % opWidth w) + uns w x / 2 ^ (opWidth w - uns w y % opWidth w))) ∧
    Binary (.ror g w d a b) g d a b (fun x y =>
      res w (uns w x / 2 ^ (uns w y % opWidth w) + uns w x * 2 ^ (opWidth w - uns w y % opWidth w))) ∧
    Binary (.min g w d a b) g d a b (fun x y => wordI (min (sgn w x) (sgn w y))) ∧
    Binary (.max g w d a b) g d a b (fun x y => wordI (max (sgn w x) (sgn w y))) ∧
    Binary (.minn g w d a b) g d a b (fun x y => res w (min (uns w x) (uns w y))) ∧
    Binary (.maxn g w d a b) g d a b (fun x y => res w (max (uns w x) (uns w y))) ∧
    Binary (.mul g w d a b) g d a b (fun x y => res w (uns w x * uns w y)) ∧
    Binary (.mulh g w d a b) g d a b (fun x y => wordI (sgn w x * sgn w y / 2 ^ opWidth w)) ∧
    Binary (.mulhn g w d a b) g d a b (fun x y => res w (uns w x * uns w y / 2 ^ opWidth w))) ∧
  (∀ (g : Guard) (w : Bool) (n : ExtW) (d a : Reg),
    Unary (.clz g w d a) g d a (fun x => wordN (opWidth w - Nat.size (uns w x))) ∧
    Unary (.ctz g w d a) g d a (fun x =>
      wordN (((List.range (opWidth w)).find? fun i => (uns w x).testBit i).getD (opWidth w))) ∧
    Unary (.popc g w d a) g d a (fun x => wordN ((List.range (opWidth w)).filter fun i => (uns w x).testBit i).length) ∧
    Unary (.brev g w d a) g d a (fun x =>
      res w (((List.range (opWidth w)).map fun i => if (uns w x).testBit i then 2 ^ (opWidth w - 1 - i) else 0).sum)) ∧
    Unary (.bswap g w d a) g d a (fun x => res w (leNat (leBytes (opWidth w / 8) (uns w x)).reverse)) ∧
    Unary (.sext g w n d a) g d a (fun x => wordI (signedOf (extWidth n) x.toNat)) ∧
    Unary (.zext g w n d a) g d a (fun x => res w (x.toNat % 2 ^ extWidth n)))

/-- R119 to R121, R126, R127: instructions with an immediate operand; three-input logic and bit fields, bit by bit, a field that runs past
bit 63 ending there. -/
def Obligations.ImmediateLogicAndBitFieldResults : Prop :=
  (∀ (g : Guard) (w : Bool) (d a : Reg) (i : BitVec 12) (k : BitVec 6) (l : BitVec 17),
    Unary (.addi g d a i) g d a (fun x => wordI ((x.toNat : Int) + i.toInt)) ∧
    Unary (.andi g d a i) g d a (fun x => x &&& wordI i.toInt) ∧
    Unary (.ori g d a i) g d a (fun x => x ||| wordI i.toInt) ∧
    Unary (.xori g d a i) g d a (fun x => x ^^^ wordI i.toInt) ∧
    Unary (.shiSll g w d a k) g d a (fun x => res w (uns w x * 2 ^ (k.toNat % opWidth w))) ∧
    Unary (.shiSrl g w d a k) g d a (fun x => res w (uns w x / 2 ^ (k.toNat % opWidth w))) ∧
    Unary (.shiSra g w d a k) g d a (fun x => wordI (sgn w x / 2 ^ (k.toNat % opWidth w))) ∧
    Unary (.shiRol g w d a k) g d a (fun x =>
      res w (uns w x * 2 ^ (k.toNat % opWidth w) + uns w x / 2 ^ (opWidth w - k.toNat % opWidth w))) ∧
    Unary (.shiRor g w d a k) g d a (fun x =>
      res w (uns w x / 2 ^ (k.toNat % opWidth w) + uns w x * 2 ^ (opWidth w - k.toNat % opWidth w))) ∧
    Unary (.lis g d l) g d d (fun x => wordN (x.toNat * 2 ^ 17 + l.toNat)) ∧
    ∀ s s1, g.holds s.cur.ctx.pred = true → Writes d (wordI l.toInt) s.openChunk s1 → exec (.li g d l) s = .next (s1.retire none)) ∧
  (∀ (g : Guard) (t : BitVec 8) (d a b : Reg),
    (∃ f, Ternary (.tern g t d a b) g d a b f ∧ ∀ (z x y : Word) (i : Nat), i < 64 →
      (f z x y).getLsbD i = t.getLsbD (4 * (z.getLsbD i).toNat + 2 * (x.getLsbD i).toNat + (y.getLsbD i).toNat)) ∧
    Binary (.bfx g d a b) g d a b (fun x y => wordN (x.toNat / 2 ^ (y.toNat % 64) % 2 ^ (y.toNat / 2 ^ 8 % 64 + 1))) ∧
    Binary (.bfxs g d a b) g d a b (fun x y => wordI (signedOf (y.toNat / 2 ^ 8 % 64 + 1) (x.toNat / 2 ^ (y.toNat % 64)))) ∧
    (∃ f, Ternary (.bfi g d a b) g d a b f ∧ ∀ (z x y : Word) (i : Nat), i < 64 →
      (f z x y).getLsbD i =
        if y.toNat % 64 ≤ i ∧ i < y.toNat % 64 + (y.toNat / 2 ^ 8 % 64 + 1) then x.getLsbD (i - y.toNat % 64) else z.getLsbD i))

/-- R122, R124, R125: compares combine into one predicate, and the predicate instructions; SEL reads both its sources; p0 reads as 1 and
discards what is written to it. -/
def Obligations.PredicateResults : Prop :=
  (∀ (s : State) (p q : Fin 16) (v : Bool),
    (s.putPred p v).predOf q = (if q = 0 then true else if q = p then v else s.predOf q)) ∧
  ∀ (g : Guard) (c : Combine) (n : ICond) (w : Bool) (p q r : Fin 16) (d a b : Reg) (i : BitVec 7) (s s1 s2 s3 : State)
    (x y : Word), g.holds s.cur.ctx.pred = true →
    (Reads a s.openChunk x s1 → Reads b s1 y s2 →
      exec (.cmp g c n w p a b) s =
        .next ((s2.putPred p (combined c (s2.cur.ctx.pred.getLsbD p.val) (condOf n w x y))).retire none)) ∧
    (Reads a s.openChunk x s1 →
      exec (.cmpi g c n w p a i) s =
        .next ((s1.putPred p (combined c (s1.cur.ctx.pred.getLsbD p.val) (condOf n w x (wordI i.toInt)))).retire none)) ∧
    exec (.pand g p q r) s = .next ((s.openChunk.putPred p (s.predOf q && s.predOf r)).retire none) ∧
    exec (.por g p q r) s = .next ((s.openChunk.putPred p (s.predOf q || s.predOf r)).retire none) ∧
    exec (.pxor g p q r) s = .next ((s.openChunk.putPred p (s.predOf q ^^ s.predOf r)).retire none) ∧
    exec (.pnot g p q) s = .next ((s.openChunk.putPred p (!s.predOf q)).retire none) ∧
    (Writes d (wordN (s.cur.ctx.pred ||| 1).toNat) s.openChunk s1 → exec (.pget g d) s = .next (s1.retire none)) ∧
    (Reads a s.openChunk x s1 →
      exec (.pset g a) s = .next ((s1.modCtx fun k => { k with pred := x.setWidth 16 ||| 1 }).retire none)) ∧
    (Reads a s.openChunk x s1 → Reads b s1 y s2 → Writes d (if s.predOf p then x else y) s2 s3 →
      exec (.sel g p d a b) s = .next (s3.retire none))

/-- R128: division goes to the core's divider, whose operations complete in order of issue; division by zero, and the overflow of
the signed quotient. -/
def Obligations.DivisionResults : Prop :=
  (∀ (g : Guard) (w : Bool) (d a b : Reg),
    Divides (.div g w d a b) g d a b (fun x y => if sgn w y = 0 then BitVec.allOnes 64 else resI w ((sgn w x).tdiv (sgn w y))) ∧
    Divides (.divn g w d a b) g d a b (fun x y => if uns w y = 0 then BitVec.allOnes 64 else res w (uns w x / uns w y)) ∧
    Divides (.rem g w d a b) g d a b (fun x y => if sgn w y = 0 then res w (uns w x) else wordI ((sgn w x).tmod (sgn w y))) ∧
    Divides (.remn g w d a b) g d a b (fun x y => if uns w y = 0 then res w (uns w x) else res w (uns w x % uns w y))) ∧
  ∀ (c : Nat) (s : State) (o : UnitOp) (l : List UnitOp), (s.coreAt c).divQ = o :: l →
    ∃ t, exec (.divideComplete c) s = .next t ∧ (t.coreAt c).divQ = l ∧
      t.slotAt c o.slot = (s.slotAt c o.slot).finished o ∧
      ∀ e k, 16 * e + k ≠ 16 * c + o.slot → t.slotAt e k = s.slotAt e k

/-- R129, R116: the branches, and what they leave in the link register; a branch that its guard suppresses goes on with the next unit; an
odd target traps, at the jump (DEDUCED, log 29; R312). -/
def Obligations.BranchesTransferControl : Prop :=
  ∀ (g : Guard) (o : BitVec 22) (d a : Reg) (s s1 s2 : State) (x : Word),
    (g.holds s.cur.ctx.pred = true →
      (s.Enters (s.cur.ctx.pc + wordI (2 * o.toInt)) →
        exec (.br g o) s = .next (s.openChunk.retire (some (s.cur.ctx.pc + wordI (2 * o.toInt))))) ∧
      (s.Enters (s.cur.ctx.pc + wordI (2 * o.toInt)) → Writes (.m 15) s.cur.nextPc s.openChunk s1 →
        exec (.bl g o) s = .next (s1.retire (some (s.cur.ctx.pc + wordI (2 * o.toInt))))) ∧
      (Reads a s.openChunk x s1 → s1.Enters x → exec (.jmp g a) s = .next (s1.retire (some x))) ∧
      (Reads a s.openChunk x s1 → Writes d s1.cur.nextPc s1 s2 → s2.Enters x →
        exec (.jmpl g d a) s = .next (s2.retire (some x))) ∧
      (s.isCtrl = false → TakesTraps s → Reads a s.openChunk x s1 → x.toNat % 2 = 1 →
        Traps (.jmp g a) s 2 0 x s.cur.ctx.pc ∧
        (Writes d s1.cur.nextPc s1 s2 → s2.cur.isFollower = false → Traps (.jmpl g d a) s 2 0 x s.cur.ctx.pc))) ∧
    (g.holds s.cur.ctx.pred = false →
      exec (.br g o) s = .next (s.openChunk.retire none) ∧ exec (.bl g o) s = .next (s.openChunk.retire none) ∧
      exec (.jmp g a) s = .next (s.openChunk.retire none) ∧ exec (.jmpl g d a) s = .next (s.openChunk.retire none)) ∧
    (s.cur.isFollower = false →
      (s.cur.dictWord = none → s.cur.nextPc = s.cur.ctx.pc + 4) ∧ (s.cur.dictWord.isSome → s.cur.nextPc = s.cur.ctx.pc + 2)) ∧
    ∀ e l, s.cur.isFollower = true → s.cur.gbuf = e :: l → s.cur.nextPc = s.cur.ctx.pc + if e.code then 2 else 4

/-- R130 to R132, R81: the float functions, each with its format's operation (R80 to R91), flags and the normaliser's service; an
arithmetic result is the canonical NaN as soon as one operand is a NaN. -/
def Obligations.FloatFunctionResults : Prop :=
  (∀ (g : Guard) (r : Rnd) (t : FType) (d a b : Reg),
    FloatBinary (.fadd g r t d a b) g t.fmt r d a b t.fmt.add ∧
    FloatBinary (.fsub g r t d a b) g t.fmt r d a b t.fmt.sub ∧
    FloatBinary (.fmul g r t d a b) g t.fmt r d a b t.fmt.mul ∧
    FloatBinary (.fmin g t d a b) g t.fmt r d a b (fun _ => t.fmt.minmax false) ∧
    FloatBinary (.fmax g t d a b) g t.fmt r d a b (fun _ => t.fmt.minmax true) ∧
    FloatBinary (.fcpys g t d a b) g t.fmt r d a b (fun _ z x y => t.fmt.setSign z x fun _ => y.testBit (t.fmt.width - 1)) ∧
    FloatUnary (.fabs g t d a) g t.fmt d a (fun z x => t.fmt.setSign z x fun _ => false) ∧
    FloatUnary (.fneg g t d a) g t.fmt d a (fun z x => t.fmt.setSign z x fun n => !n) ∧
    FloatUnary (.fclass g t d a) g t.fmt d a (fun z x => (t.fmt.classMask z x, 0)) ∧
    ∀ s x y z s1 s2 s3 s4 v, Strand g s → Reads a s.openChunk x s1 → Reads b s1 y s2 → Reads d s2 z s3 →
      v = t.fmt.fma (r.resolve s.cur.ctx.tmode) (s.cur.ctx.tmode.getLsbD 0) (x.toNat % 2 ^ t.fmt.width)
        (y.toNat % 2 ^ t.fmt.width) (z.toNat % 2 ^ t.fmt.width) →
      Writes d (wordN v.1)
        ((s3.normalised (subnormals t.fmt (s.cur.ctx.tmode.getLsbD 0)
          [x.toNat % 2 ^ t.fmt.width, y.toNat % 2 ^ t.fmt.width, z.toNat % 2 ^ t.fmt.width])).raised v.2) s4 →
      exec (.fma g r t d a b) s = .next (s4.retire none)) ∧
  (∀ (t : FType) (m : RMode) (z : Bool) (a b c : Nat), (t.fmt.read z a).isNan = true ∨ (t.fmt.read z b).isNan = true →
    (t.fmt.add m z a b).1 = t.fmt.nan ∧ (t.fmt.sub m z a b).1 = t.fmt.nan ∧ (t.fmt.mul m z a b).1 = t.fmt.nan ∧
    (t.fmt.fma m z a b c).1 = t.fmt.nan)

/-- R133 to R135: float compares, conversions, and conversions with a residual, which write two registers. A zero residual's
sign, a residual that f32 cannot hold (log 101) and conversions between tapered types (log 102) are the model's choice. -/
def Obligations.FloatCompareAndConversionResults : Prop :=
  ∀ (g : Guard) (r : Rnd) (c : Combine) (n : FCond) (t : FType) (p : Fin 16) (x y : NumType) (k : NarrowType) (d a b : Reg)
    (s s1 s2 s3 : State) (v w : Word) (z : Bool), Strand g s → Reads a s.openChunk v s1 → z = s.cur.ctx.tmode.getLsbD 0 →
    (∀ o, Reads b s1 w s2 → o = t.fmt.cmp n z (v.toNat % 2 ^ t.fmt.width) (w.toNat % 2 ^ t.fmt.width) →
      exec (.fcmp g c n t p a b) s =
        .next ((((s2.normalised (subnormals t.fmt z [v.toNat % 2 ^ t.fmt.width, w.toNat % 2 ^ t.fmt.width])).raised o.2).putPred p
          (combined c (s2.cur.ctx.pred.getLsbD p.val) o.1)).retire none)) ∧
    (∀ o, o = convert x y (r.resolve s.cur.ctx.tmode) z v.toNat →
      Writes d (wordN o.1) ((s1.normalised (match y.float? with
        | some F => subnormals F z [v.toNat % 2 ^ F.width]
        | none => 0)).raised o.2) s2 →
      exec (.cvt g r x y d a) s = .next (s2.retire none)) ∧
    (∀ o, o = convertWithResidual k (r.resolve s.cur.ctx.tmode) z (v.toNat % 2 ^ 32) →
      Writes d (wordN o.1) ((s1.normalised (subnormals fmtF32 z [v.toNat % 2 ^ 32])).raised o.2.2) s2 →
      Writes b (wordN o.2.1) s2 s3 → exec (.cvte g r k d a b) s = .next (s3.retire none))

/-- R136, R99, R24: the special functions go to the core's unit in order of issue; the unit and the normaliser finish them. Their values
rest on log 7: R99 bounds them, and the model rounds the exact value. -/
def Obligations.SpecialFunctionResults : Prop :=
  (∀ (g : Guard) (d a : Reg),
    SpecialOf (.rcp g d a) g d a .rcp ∧ SpecialOf (.rsq g d a) g d a .rsq ∧ SpecialOf (.sqrt g d a) g d a .sqrt ∧
    SpecialOf (.log2 g d a) g d a .log2 ∧ SpecialOf (.exp2 g d a) g d a .exp2 ∧ SpecialOf (.sin g d a) g d a .sin ∧
    SpecialOf (.cos g d a) g d a .cos ∧ SpecialOf (.tanh g d a) g d a .tanh ∧ SpecialOf (.sigm g d a) g d a .sigm) ∧
  (∀ (c : Nat) (s : State) (o : UnitOp) (l : List UnitOp), (s.coreAt c).sfuQ = o :: l → o.slot ∉ (s.coreAt c).normQ →
    ∃ t, exec (.sfuComplete c) s = .next t ∧ (t.coreAt c).sfuQ = l ∧ t.slotAt c o.slot = (s.slotAt c o.slot).finished o) ∧
  (∀ (c k : Nat) (s : State) (l : List Nat) (n : Nat), k < 16 →
    ((s.coreAt c).normQ = k :: l → (s.slotAt c k).wait = some (.normaliser n) →
      ∃ t, exec (.normaliserService c) s = .next t ∧
        (1 < n → t.coreAt c = s.coreAt c ∧ t.slotAt c k = { s.slotAt c k with wait := some (.normaliser (n - 1)) }) ∧
        (n ≤ 1 → (t.coreAt c).normQ = l ∧ t.slotAt c k = { s.slotAt c k with
          wait := if (s.coreAt c).sfuQ.any (fun o => o.slot == k) then some .sfu else none })) ∧
    ((s.coreAt c).normQ = (16 + k) :: l →
      ∃ t, exec (.normaliserService c) s = .next t ∧ (t.coreAt c).normQ = l ∧
        t.slotAt c k = { s.slotAt c k with vnorm := (s.slotAt c k).vnorm - 1 }))

/-! ### Operands -/

/-- R28, R107, R151, R158, R172, R324: what each form of source gives and takes, and what each form of destination receives. -/
def Obligations.OperandForms : Prop :=
  (∀ (s : State) (r : Reg) (t : Fin 4) (w : Word) (l : List Word) (st : Stream),
    (r.plain → Reads r s (s.val r) s) ∧
    (s.isCtrl = false → Reads .id s s.idWord s) ∧
    (s.isCtrl = false → s.cur.ctx.guest = false → s.HoldsNone → (s.coreAt s.core).nqUp = w :: l →
      ∃ u, Reads .nq s w u ∧ (u.coreAt s.core).nqUp = l ∧ u.cur.ctx.pinq = true ∧
        u.cur.chunk.takes = s.cur.chunk.takes ++ [.nq w] ∧ u.cur.ctx.gpr = s.cur.ctx.gpr) ∧
    (s.isCtrl = false → s.cur.ctx.guest = false → s.HoldsNone → (s.coreAt s.core).nqUp = [] →
      (readReg .nq).run s = .error (.wait .nqEmpty s.cur.chunk.takes)) ∧
    (∀ r, s.isCtrl = false → s.cur.ctx.guest = false → s.cur.kept = .nq w :: r →
      Reads .nq s w (s.modCur fun x => { x with kept := r })) ∧
    (s.isCtrl = false → s.cur.ctx.guest = true →
      (readReg .nq).run s = .error (.after fun s => s.guestLeaves s.core s.slot)) ∧
    (s.isCtrl = false → s.cur.streams[t] = some st → st.write = false → st.refused = none → st.absent = none →
      st.tainted = none → st.pos < st.total → st.buf = w :: l →
      ∃ u, Reads (.st t) s w u ∧ u.cur.streams[t] = some { st with pos := st.pos + 1, buf := l } ∧
        u.cur.ctx = s.cur.ctx ∧ u.mem = s.mem)) ∧
  (∀ (s : State) (n : Fin 24) (r : Reg) (t : Fin 4) (w : Word) (st : Stream),
    (regIndex r = some n → Writes r w s (s.modCtx fun x => { x with gpr := x.gpr.set n w })) ∧
    Writes .z w s s ∧
    (s.isCtrl = false → s.cur.ctx.guest = false → s.nqRoom s.core = true →
      ∃ u, Writes .nq w s u ∧ u.cur.chunk.held = s.cur.chunk.held ++ [.nqPush w] ∧ u.cur.ctx.pinq = true ∧
        u.cur.ctx.gpr = s.cur.ctx.gpr ∧ u.mem = s.mem) ∧
    (s.isCtrl = false → s.cur.ctx.guest = false → s.nqRoom s.core = false →
      (writeReg .nq w).run s = .error (.wait .nqFull s.cur.chunk.takes)) ∧
    (s.isCtrl = false → s.cur.ctx.guest = true →
      (writeReg .nq w).run s = .error (.after fun s => s.guestLeaves s.core s.slot)) ∧
    (s.isCtrl = false → s.cur.streams[t] = some st → st.write = true → st.refused = none → st.absent = none →
      st.tainted = none → st.pos < st.total → st.buf.length < 16 → (st.addr st.pos).toNat < 2 ^ 56 →
      s.walk (st.addr st.pos).toNat ≠ .malformed →
      ∃ u, Writes (.st t) w s u ∧ u.cur.streams[t] = some { st with pos := st.pos + 1 } ∧
        u.cur.chunk.held = s.cur.chunk.held ++ [.streamOut t w] ∧ u.cur.ctx = s.cur.ctx ∧ u.mem = s.mem))

/-- R28: the fields of the identity word. -/
def Obligations.IdentityWordFields : Prop :=
  ∀ (s : State), s.core < 512 → s.slot < 16 → s.cur.ctx.bcore < 8 → s.cur.ctx.lane < 8 → s.cur.ctx.gsz < 4 →
    bitsOf s.idWord.toNat 11 3 = s.core ∧ bitsOf s.idWord.toNat 15 12 = s.slot ∧ bitsOf s.idWord.toNat 17 16 = s.cur.ctx.gsz ∧
    bitsOf s.idWord.toNat 20 18 = s.cur.ctx.lane ∧ bitsOf s.idWord.toNat 23 21 = s.cur.ctx.bcore ∧
    bitsOf s.idWord.toNat 39 24 = s.cur.ctx.launch.toNat ∧ bitsOf s.idWord.toNat 63 40 = s.cur.ctx.block.toNat ∧
    bitsOf s.idWord.toNat 2 0 = 0

/-! ### What instructions leave unchanged -/

/-- R36, R100, R281: an instruction that retires moves PC to the next unit, or to the target it transfers control to, counts in its chunk,
and leaves registers, memory, and what its chunk holds; a gang's follower goes where its leader went (R34); a control core's PC advances by 4. -/
def Obligations.RetireAdvancesThePc : Prop :=
  (∀ (s : State) (t : Option Word), s.isCtrl = false →
    (s.cur.isFollower = false → (s.retire t).cur.ctx.pc = t.getD s.cur.nextPc) ∧
    (∀ e l, s.cur.isFollower = true → s.cur.gbuf = e :: l → (s.retire t).cur.ctx.pc = e.next) ∧
    (s.retire t).cur.chunk.count = s.cur.chunk.count + 1 ∧ (s.retire t).cur.chunk.held = s.cur.chunk.held ∧
    (s.retire t).cur.ctx.gpr = s.cur.ctx.gpr ∧ Computes s (s.retire t)) ∧
  (∀ (s : State) (t : Option Word), s.isCtrl = true →
    s.retire t = s.modCtx fun x => { x with pc := t.getD (x.pc + 4) })

/-- The frame of the instructions that compute a register, on registers: whatever they answer, only the destination and PC
change. -/
def Obligations.ComputingInstructionsLeaveTheRest : Prop :=
  ∀ (i : Instr) (l : List Reg) (d : Reg) (s t : State), i.computes = some (l, d) → (∀ r ∈ l, r.plain = true) → d.plain = true →
    exec i s = .next t →
    Computes s t ∧ t.cur.ctx.pred = s.cur.ctx.pred ∧ t.cur.ctx.tmode = s.cur.ctx.tmode ∧
    t.cur.chunk.held = s.openChunk.cur.chunk.held ∧
    (∀ n : Fin 24, regIndex d ≠ some n → t.cur.ctx.gpr[n] = s.cur.ctx.gpr[n]) ∧ ∀ a, t.mem.read a = s.mem.read a

/-- The frame of the float instructions, on registers: their destinations and PC change, sticky flags of TMODE are set and none is
cleared, RM and FTZ stay, and of all else only the queues of the core's normaliser and special-function unit may grow (R24, R90). -/
def Obligations.FloatInstructionsLeaveTheRest : Prop :=
  ∀ (i : Instr) (l ds : List Reg) (s t : State), i.floats = some (l, ds) → (∀ r ∈ l, r.plain = true) → (∀ r ∈ ds, r.plain = true) →
    s.isCtrl = false → exec i s = .next t →
    CurOnly s { t with cores := s.cores } ∧ Ctx.ComputeOnly s.cur.ctx t.cur.ctx ∧ t.cur.ctx.pred = s.cur.ctx.pred ∧
    (∃ f : NFlags, t.cur.ctx.tmode = s.cur.ctx.tmode ||| (f &&& flAll)) ∧
    (∀ n : Fin 24, (∀ d ∈ ds, regIndex d ≠ some n) → t.cur.ctx.gpr[n] = s.cur.ctx.gpr[n]) ∧
    (∀ c, t.coreAt c = { s.coreAt c with normQ := (t.coreAt c).normQ, sfuQ := (t.coreAt c).sfuQ }) ∧ ∀ a, t.mem.read a = s.mem.read a

/-- The frame of the instructions that write a predicate, on registers: no other predicate, no general register. -/
def Obligations.PredicateInstructionsLeaveTheRest : Prop :=
  ∀ (i : Instr) (l : List Reg) (p : Fin 16) (s t : State), i.predicates = some (l, p) → (∀ r ∈ l, r.plain = true) →
    exec i s = .next t → (s.isCtrl = true → ∀ g c n u q a b, i ≠ .fcmp g c n u q a b) →
    CurOnly s { t with cores := s.cores } ∧ t.cur.ctx.gpr = s.cur.ctx.gpr ∧
    (∀ q : Fin 16, q ≠ p → t.cur.ctx.pred.getLsbD q.val = s.cur.ctx.pred.getLsbD q.val) ∧
    (p = 0 → t.cur.ctx.pred = s.cur.ctx.pred) ∧ ∀ a, t.mem.read a = s.mem.read a

/-- R104: an instruction that its guard suppresses, whichever it is, has no effect but to count: p0 reads as 1, a negated guard holds
where its predicate is 0. Only a gang's member goes on to what R192 says of the cross-lane commands. -/
def Obligations.SuppressedInstructionsOnlyCount : Prop :=
  ∀ (i : Instr) (g : Guard) (s : State), s.isCtrl = false → i.guarded = some g →
    (s.predOf ⟨g.p.val, by omega⟩ ^^ g.neg) = false → (i.crossLane = true → s.cur.ctx.gang = false) →
    exec i s = .next (s.openChunk.retire none) ∧ Computes s (s.openChunk.retire none)

/-! ### Traps -/

/-- R309: the entry to a trap handler: of TFUT for the future-empty trap of a launch that has one, else of TVEC. -/
def Obligations.TrapEntry : Prop :=
  ∀ (s : State) (cause info : Nat) (addr epc : Word), cause < 2 ^ 16 → info < 2 ^ 16 → s.cur.ctx.gang = false → s.HoldsNone →
    s.cur.ctx.intrap = false → s.tvec ≠ 0 ∨ (cause = 7 ∧ s.tfut ≠ 0) →
    Entered s (s.takeTrap cause info addr epc) cause info addr (epc &&& ~~~1)
      ((if cause = 7 ∧ s.tfut ≠ 0 then s.tfut else s.tvec) &&& ~~~1)

/-- R309, R310: a trap inside a handler, or of a launch without one, stops the strand where the entry would have returned to, and reports
it in a KIND 7 record; TEPC, TCAUSE and TADDR stay, and INTRAP is set. -/
def Obligations.DoubleTrapStopsTheStrand : Prop :=
  ∀ (s : State) (cause info : Nat) (addr epc : Word), s.cur.ctx.gang = false → s.HoldsNone →
    s.cur.ctx.intrap = true ∨ (s.tvec = 0 ∧ (cause = 7 → s.tfut = 0)) →
    ∃ u : State, s.takeTrap cause info addr epc =
        u.post 7 (clusterOf s.core) (wordN s.cur.ctx.strandId.toNat) (epc &&& ~~~1) 0 ∧
      u = { s with slots := u.slots } ∧ (∀ c k, 16 * c + k ≠ 16 * s.core + s.slot → u.slotAt c k = s.slotAt c k) ∧
      u.cur.ctx.parked = true ∧ u.cur.wait = some .verdict ∧ u.cur.ctx.pc = epc &&& ~~~1 ∧ u.cur.ctx.intrap = true ∧
      u.cur.tepc = s.cur.tepc ∧ u.cur.tcause = s.cur.tcause ∧ u.cur.taddr = s.cur.taddr ∧ u.cur.ctx.gpr = s.cur.ctx.gpr

/-- R174, R312, R116, R165, R160, R34: TRAP returns to the next unit with its code as INFO, BRK to itself; jumps to bad targets trap at the
jump (odd ones: DEDUCED, log 29); SLSTART, SLREAP, FORK and ERET trap where they may not run. -/
def Obligations.InstructionsThatTrap : Prop :=
  (∀ (g : Guard) (c : BitVec 15) (s : State), Strand g s → TakesTraps s →
    Traps (.trap g c) s 0xC c.toNat 0 s.cur.nextPc ∧ Traps (.brk g) s 0xD 0 0 s.cur.ctx.pc) ∧
  (∀ (g : Guard) (a : Reg) (s s1 : State) (x : Word), Strand g s → TakesTraps s → Reads a s.openChunk x s1 →
    (x.toNat % 2 = 1 → Traps (.jmp g a) s 2 0 x s.cur.ctx.pc) ∧
    (x.toNat % 2 = 0 → 2 ^ 56 ≤ x.toNat → Traps (.jmp g a) s 2 1 x s.cur.ctx.pc)) ∧
  (∀ (g : Guard) (d a b : Reg) (s s1 s2 : State) (x y : Word), Strand g s → TakesTraps s → Reads a s.openChunk x s1 →
    Reads b s1 y s2 →
    (s.manualCore s.core = false → s.openChunk.cur.chunk.held = [] →
      Traps (.slstart g d a b) s 0xB 0 0 s.cur.ctx.pc ∧ Traps (.slreap g d a) s 0xB 0 0 s.cur.ctx.pc) ∧
    (s.manualCore s.core = true → s.slot ≠ 0 → s.openChunk.cur.chunk.held = [] →
      Traps (.slstart g d a b) s 0xB 1 0 s.cur.ctx.pc ∧ Traps (.slreap g d a) s 0xB 1 0 s.cur.ctx.pc) ∧
    (s2.forkPlace s.core = none → Traps (.fork g d a b) s 9 0 0 s.cur.ctx.pc) ∧
    Traps (.eret g) s 1 6 s.cur.ctx.pc s.cur.ctx.pc)

/-- R43, R46, R47, R138, R312: misaligned loads, stores and atomics; addresses that name nothing, or the register window; pages that the
domain may not read. -/
def Obligations.AccessesThatTrap : Prop :=
  (∀ (g : Guard) (z : Fin 4) (o : BitVec 10) (d a b : Reg) (m : AtMode) (k : Bool) (s s1 s2 s3 : State) (x y v : Word),
    Strand g s → TakesTraps s → Reads a s.openChunk x s1 →
    ((x + wordI (o.toInt * 2 ^ z.val)).toNat % 2 ^ z.val ≠ 0 →
      Traps (.ldn g z o d a) s 3 z.val (x + wordI (o.toInt * 2 ^ z.val)) s.cur.ctx.pc ∧
      Traps (.lds g z o d a) s 3 z.val (x + wordI (o.toInt * 2 ^ z.val)) s.cur.ctx.pc ∧
      (Reads d s1 v s2 → Traps (.st g z o d a) s 3 z.val (x + wordI (o.toInt * 2 ^ z.val)) s.cur.ctx.pc)) ∧
    (Reads b s1 y s2 → (x + wordN (y.toNat * 2 ^ z.val)).toNat % 2 ^ z.val ≠ 0 →
      Traps (.ldx g .pred false z d a b) s 3 z.val (x + wordN (y.toNat * 2 ^ z.val)) s.cur.ctx.pc ∧
      (Reads d s2 v s3 → Traps (.stx g .pred z d a b) s 3 z.val (x + wordN (y.toNat * 2 ^ z.val)) s.cur.ctx.pc)) ∧
    (Reads b s1 y s2 → x.toNat % size48 k ≠ 0 →
      Traps (.atomAdd g m k d a b) s 3 (if k then 3 else 2) x s.cur.ctx.pc ∧
      Traps (.atomSwap g m k d a b) s 3 (if k then 3 else 2) x s.cur.ctx.pc)) ∧
  (∀ (g : Guard) (z : Fin 4) (o : BitVec 10) (d a : Reg) (s s1 : State) (x va : Word), Strand g s → TakesTraps s →
    Reads a s.openChunk x s1 → va = x + wordI (o.toInt * 2 ^ z.val) → va.toNat % 2 ^ z.val = 0 →
    (2 ^ 56 ≤ va.toNat ∧ va.toNat < 0xFF00000000000000 → Traps (.ldn g z o d a) s 4 0 va s.cur.ctx.pc) ∧
    (0xFF00000100000000 ≤ va.toNat ∧ va.toNat < 0xFF00000101000000 → Traps (.ldn g z o d a) s 4 1 va s.cur.ctx.pc)) ∧
  (∀ (g : Guard) (z : Fin 4) (o : BitVec 10) (d a : Reg) (s s1 u : State) (x va : Word) (l : Nat), Strand g s → TakesTraps s →
    Reads a s.openChunk x s1 → va = x + wordI (o.toInt * 2 ^ z.val) → va.toNat % 2 ^ z.val = 0 → va.toNat < 2 ^ 56 →
    s1.homeOf va.toNat = s.core → s1.switches va.toNat = false → s1.resolve s.core (s.cur.ctx.tdom.toNat % 4096) 1 va.toNat false =
    (.lacks l, u) → l < 2 ^ 16 → Traps (.ldn g z o d a) s 5 l va s.cur.ctx.pc)

/-- R313, R312, R281, R327: a unit that the decoder finds illegal traps whatever its guard, and stops a control core; so does every
instruction that the control core does not have, changing no register of it. -/
def Obligations.IllegalUnitsTrapOrStop : Prop :=
  (∀ (s : State) (r : Illegal),
    (TakesTraps s → ∃ t, s.illegalUnit r = .next t ∧
      Entered s t 1 r.code s.cur.ctx.pc (s.cur.ctx.pc &&& ~~~1) (s.tvec &&& ~~~1)) ∧
    (s.isCtrl = true → s.illegalUnit r = .next ((s.modCluster (clusterOf s.core) fun u => { u with ccStopped := true }).post 8
      (clusterOf s.core) (wordN (0x100 + clusterOf s.core)) s.cur.ctx.pc 5))) ∧
  ∀ (i : Instr) (s : State), s.isCtrl = true → i.isEvent = false → i.controlCore = false →
    exec i s = .next ((s.modCluster (clusterOf s.core) fun u => { u with ccStopped := true }).post 8
      (clusterOf s.core) (wordN (0x100 + clusterOf s.core)) s.cur.ctx.pc 5)

/-! ### Memory -/

/-- R42, R49, R138, R281: where an access's bytes stand: in a scratchpad by either of its names, in main memory by the translation of a
page homed here, in a control core's local memory. An access waits while its page's home is being switched (log 72 says from when to when:
DESIGN CHOICE). -/
def Obligations.AccessesReachTheirBytes : Prop :=
  (∀ (a : Acc) (s : State) (o : Nat), s.isCtrl = false → s.core < 512 → o < 0x40000 → a.va.toNat % a.size = 0 → a.way ≠ .y →
    (a.va.toNat = 0xFF00000008000000 + o ∨ a.va.toNat = 0xFF00000000000000 + 0x40000 * s.core + o) →
    s.sameLaunch s.cur.ctx s.core = true ∨ s.ownCore s.cur.ctx s.core = true →
    s.cur.chunk.count = 0 → s.cur.lockLeft = 0 → s.flaws = [] →
    s.poisonedIn (0xFF00000000000000 + 0x40000 * s.core + o) a.size = none →
    ∃ u, Finds a s (.here (0xFF00000000000000 + 0x40000 * s.core + o)) u ∧ u.cur.ctx = s.cur.ctx ∧
      u.cur.chunk.held = s.cur.chunk.held ∧ u.mem = s.mem) ∧
  (∀ (a : Acc) (s : State) (x : Xlat) (k : Nat), s.isCtrl = false → a.va.toNat < 2 ^ 56 → a.va.toNat % a.size = 0 → a.way ≠ .y →
    s.homeOf a.va.toNat = s.core → s.switches a.va.toNat = false → (s.coreAt s.core).l1 = [] → (s.coreAt s.core).plb = [] → (s.dieAt (dieOf s.core)).tc = [x] →
    x.covers a.va.toNat = true → x.peer = none → k = x.pa + (a.va.toNat - x.va) →
    lacking a.need (s.mem.read (bitsOf s.regs.drtbase.toNat 39 24 * 2 ^ 24 + 4096 * (s.cur.ctx.tdom.toNat % 4096) + x.key)).toNat = 0 →
    s.cur.chunk.count = 0 → s.cur.lockLeft = 0 → s.flaws = [] → s.poisonedIn k a.size = none →
    ∃ u, Finds a s (.here k) u ∧ u.cur.ctx = s.cur.ctx ∧ u.cur.chunk.held = s.cur.chunk.held ∧ u.mem = s.mem ∧
      ∃ l ∈ (u.coreAt s.core).l1, l.line = lineOf a.va.toNat ∧ l.key = x.key) ∧
  (∀ (a : Acc) (s : State), s.isCtrl = false → a.va.toNat < 2 ^ 56 → a.va.toNat % a.size = 0 → a.way ≠ .y →
    s.homeOf a.va.toNat = s.core → s.switches a.va.toNat = true →
    (access a).run s = .error (.wait (.home a.va.toNat) s.cur.chunk.takes)) ∧
  ∀ (a : Acc) (s : State), s.isCtrl = true → a.va.toNat % a.size = 0 → a.va.toNat + a.size ≤ 0xC000 → s.flaws = [] →
    Finds a s (.here (0xFF00000010000000 + 0x10000 * clusterOf s.core + a.va.toNat)) s

/-- R139, R140: the loads, on bytes of this device and on what a peer answers. -/
def Obligations.LoadResults : Prop :=
  ∀ (g : Guard) (z : Fin 4) (o : BitVec 10) (m : LdMode) (x : Bool) (d a b : Reg) (s s1 s2 s3 s4 : State) (v w va : Word)
    (p : Spot) (c : Acc), g.holds s.cur.ctx.pred = true → Reads a s.openChunk v s1 →
    (va = v + wordI (o.toInt * 2 ^ z.val) → c = { va, size := 2 ^ z.val, need := 1, way := .pred, op := .load (2 ^ z.val) } →
      Finds c s1 p s2 →
      (Writes d (wordN (p.value c s2)) (p.after c s2) s3 → exec (.ldn g z o d a) s = .next (s3.retire none)) ∧
      (Writes d (sextN (8 * 2 ^ z.val) (p.value c s2)) (p.after c s2) s3 → exec (.lds g z o d a) s = .next (s3.retire none))) ∧
    (s.isCtrl = false → Reads b s1 w s2 → va = v + wordN (w.toNat * 2 ^ z.val) →
      c = { va, size := 2 ^ z.val, need := 1, way := ldWay m, op := .load (2 ^ z.val) } → Finds c s2 p s3 →
      Writes d (if x then sextN (8 * 2 ^ z.val) (p.value c s3) else wordN (p.value c s3)) (p.after c s3) s4 →
      exec (.ldx g m x z d a b) s = .next (s4.retire none))

/-- R139, R140, R37: the stores: the low bytes of the operand, held until the chunk commits. -/
def Obligations.StoreResults : Prop :=
  ∀ (g : Guard) (z : Fin 4) (o : BitVec 10) (m : StMode) (d a b : Reg) (s s1 s2 s3 s4 : State) (v w y va : Word) (p : Spot)
    (l : List Byte), g.holds s.cur.ctx.pred = true → Reads a s.openChunk v s1 → l = leBytes (2 ^ z.val) y.toNat →
    (∀ c : Acc, va = v + wordI (o.toInt * 2 ^ z.val) → Reads d s1 y s2 →
      c = { va, size := 2 ^ z.val, need := 2, way := .pred, op := .store l } → Finds c s2 p s3 →
      exec (.st g z o d a) s = .next ((p.stored c l false s3).retire none)) ∧
    (∀ c : Acc, s.isCtrl = false → Reads b s1 w s2 → va = v + wordN (w.toNat * 2 ^ z.val) → Reads d s2 y s3 →
      c = { va, size := 2 ^ z.val, need := 2, way := stWay m, op := .store l } → Finds c s3 p s4 →
      exec (.stx g m z d a b) s = .next ((p.stored c l false s4).retire none))

/-- R37, R62, R281: a store changes, in memory as its strand sees it, the bytes it stores to and no other; memory itself it leaves to
its chunk's commit, and a control core's store is made at once. Loads and stores leave predicates, TMODE and special registers. -/
def Obligations.StoresChangeOnlyTheirBytes : Prop :=
  ∀ (c : Acc) (sa : Nat) (l : List Byte) (k : Bool) (s : State),
    ((Spot.here sa).stored c l k s).cur.ctx = s.cur.ctx ∧
    (s.isCtrl = false →
      ((Spot.here sa).stored c l k s).mem = s.mem ∧
      (∀ i, i < l.length → ((Spot.here sa).stored c l k s).view.read (sa + i) = l.getD i 0) ∧
      ∀ n, n < sa ∨ sa + l.length ≤ n → ((Spot.here sa).stored c l k s).view.read n = s.view.read n) ∧
    (s.isCtrl = true → 2 ^ 56 ≤ sa → s.flaws = [] →
      (∀ i, i < l.length → ((Spot.here sa).stored c l k s).mem.read (sa + i) = l.getD i 0) ∧
      ∀ n, n < sa ∨ sa + l.length ≤ n → ((Spot.here sa).stored c l k s).mem.read n = s.mem.read n)

/-- R141 to R143: full-empty loads and stores: each form, what the forms that wait wait for, and the wait's end. -/
def Obligations.FullEmptyResults : Prop :=
  (∀ (g : Guard) (z : Fin 4) (d a b : Reg) (s s1 s2 s3 s4 s5 : State) (x y v va : Word) (sa k : Nat) (l : List Byte),
    Strand g s → Reads a s.openChunk x s1 → Reads b s1 y s2 → va = x + wordN (y.toNat * 2 ^ z.val) → InPads va →
    granuleOf sa = some k →
    (∀ c : Acc, c = { va, size := 2 ^ z.val, need := 1, way := .stay, op := .load (2 ^ z.val) } → Finds c s2 (.here sa) s3 →
      (s3.fullView k = true → Writes d (wordN (s3.seen va sa (2 ^ z.val))) (s3.fetched va sa) s4 →
        exec (.ldfeKeep g z d a b) s = .next (s4.retire none)) ∧
      (Writes d (wordN (s3.seen va sa (2 ^ z.val))) (s3.fetched va sa) s4 →
        exec (.ldfePeek g z d a b) s = .next (s4.retire none)) ∧
      (s3.fullView k = false → Waits (.ldfeKeep g z d a b) s (.fullEmpty k true))) ∧
    (∀ c : Acc, c = { va, size := 2 ^ z.val, need := 3, way := .stay, op := .load (2 ^ z.val) } → Finds c s2 (.here sa) s3 →
      (s3.fullView k = true →
        Writes d (wordN (s3.seen va sa (2 ^ z.val))) ((s3.fetched va sa).withHeld (.fullBit k false)) s4 →
        exec (.ldfeTake g z d a b) s = .next (s4.retire none)) ∧
      (s3.fullView k = false → Waits (.ldfeTake g z d a b) s (.fullEmpty k true))) ∧
    (Reads d s2 v s3 → l = leBytes (2 ^ z.val) v.toNat →
      (∀ c : Acc, c = { va, size := 2 ^ z.val, need := 3, way := .stay, op := .store l } → Finds c s3 (.here sa) s4 →
        (s4.fullView k = false →
          exec (.stfeFill g z d a b) s =
            .next ((((Spot.here sa).stored c l false s4).withHeld (.fullBit k true)).retire none)) ∧
        (s4.fullView k = true → Waits (.stfeFill g z d a b) s (.fullEmpty k false))) ∧
      ∀ c : Acc, c = { va, size := 2 ^ z.val, need := 2, way := .stay, op := .store l } → Finds c s3 (.here sa) s5 →
        exec (.stfeForce g z d a b) s =
          .next ((((Spot.here sa).stored c l false s5).withHeld (.fullBit k true)).retire none)) ∧
    (Finds { va, size := 2 ^ z.val, need := 2, way := .stay, op := .store [] } s2 (.here sa) s3 →
      exec (.stfeClear g z a b) s = .next ((s3.withHeld (.fullBit k false)).retire none))) ∧
  ∀ (k c n : Nat) (f : Bool) (s : State), n < 16 → (s.slotAt c n).wait = some (.fullEmpty k f) →
    ({ s with core := c, slot := n } : State).fullView k = f →
    ∃ t, exec (.fullEmptyRetest k) s = .next t ∧ t.slotAt c n = { s.slotAt c n with wait := none } ∧ t.mem = s.mem

/-- R144: each atomic operation's new value, and what its destination receives of the old one. -/
def Obligations.AtomicResults : Prop :=
  ∀ (g : Guard) (m : AtMode) (k : Bool) (d a b : Reg),
    Atomic (.atomAdd g m k d a b) g .add (size48 k) m d a b (fun x y _ => ((x + y) % 2 ^ (8 * size48 k), 0))
      (sextN (8 * size48 k)) ∧
    Atomic (.atomMin g m k d a b) g .min (size48 k) m d a b
      (fun x y _ => (if signedOf (8 * size48 k) x ≤ signedOf (8 * size48 k) y then x else y % 2 ^ (8 * size48 k), 0))
      (sextN (8 * size48 k)) ∧
    Atomic (.atomMax g m k d a b) g .max (size48 k) m d a b
      (fun x y _ => (if signedOf (8 * size48 k) x ≤ signedOf (8 * size48 k) y then y % 2 ^ (8 * size48 k) else x, 0))
      (sextN (8 * size48 k)) ∧
    Atomic (.atomMinn g m k d a b) g .minn (size48 k) m d a b (fun x y _ => (min x (y % 2 ^ (8 * size48 k)), 0)) wordN ∧
    Atomic (.atomMaxn g m k d a b) g .maxn (size48 k) m d a b (fun x y _ => (max x (y % 2 ^ (8 * size48 k)), 0)) wordN ∧
    Atomic (.atomAnd g m k d a b) g .and (size48 k) m d a b (fun x y _ => (x &&& y, 0)) (sextN (8 * size48 k)) ∧
    Atomic (.atomOr g m k d a b) g .or (size48 k) m d a b (fun x y _ => (x ||| y % 2 ^ (8 * size48 k), 0))
      (sextN (8 * size48 k)) ∧
    Atomic (.atomXor g m k d a b) g .xor (size48 k) m d a b (fun x y _ => (x ^^^ y % 2 ^ (8 * size48 k), 0))
      (sextN (8 * size48 k)) ∧
    Atomic (.atomSwap g m k d a b) g .swap (size48 k) m d a b (fun _ y _ => (y % 2 ^ (8 * size48 k), 0))
      (sextN (8 * size48 k)) ∧
    Atomic (.atomCas g m k d a b) g .cas (size48 k) m d a b
      (fun x y c => (if x = c % 2 ^ (8 * size48 k) then y % 2 ^ (8 * size48 k) else x, 0)) (sextN (8 * size48 k)) ∧
    Atomic (.atomFaddF32 g m d a b) g .fadd 4 m d a b (fun x y _ => fmtF32.add .rne false x (y % 2 ^ 32)) wordN

/-- R56, R57, R145, R37: commutative updates travel with their chunk, and merging a line applies its operation to each touched word. That
the line joins the chunk's write signature, and is tested against commits since its start, is DEDUCED (log 11). -/
def Obligations.CommutativeUpdateResults : Prop :=
  (∀ (g : Guard) (k : Bool) (a b : Reg),
    Updates (.cupdAdd g k a b) g .add (size48 k) a b ∧ Updates (.cupdMin g k a b) g .min (size48 k) a b ∧
    Updates (.cupdMax g k a b) g .max (size48 k) a b ∧ Updates (.cupdOr g k a b) g .or (size48 k) a b ∧
    Updates (.cupdFaddF32 g a b) g .fadd 4 a b) ∧
  ∀ (u : UpdLine) (s : State) (x y : Nat), (s.coreAt (s.homeOf (256 * u.line))).trEn = false → u.words = [(x, y)] →
    s.flaws = [] → s.poisonedIn (u.pa + x) u.size = none →
    (s.mergeOne u).mem = s.mem.writeNat (u.pa + x) u.size (match u.op with
      | .add => s.mem.readNat (u.pa + x) u.size + y
      | .min => if signedOf (8 * u.size) (s.mem.readNat (u.pa + x) u.size) ≤ signedOf (8 * u.size) y
          then s.mem.readNat (u.pa + x) u.size else y
      | .max => if signedOf (8 * u.size) (s.mem.readNat (u.pa + x) u.size) ≤ signedOf (8 * u.size) y
          then y else s.mem.readNat (u.pa + x) u.size
      | .or => s.mem.readNat (u.pa + x) u.size ||| y
      | .fadd => (fmtF32.add .rne false (s.mem.readNat (u.pa + x) u.size) y).1) ∧
    u ∉ (s.mergeOne u).upds

/-- R149: lists of records in scratchpads: an empty head, moving a record to a list's tail, taking a list's first record. -/
def Obligations.ListResults : Prop :=
  ∀ (g : Guard) (d a b : Reg) (s s1 s2 s3 s4 s5 s6 s7 s8 : State) (x y : Word) (r h k q : Nat), Strand g s →
    Reads a s.openChunk x s1 →
    (Granule x s1 h s2 →
      exec (.linit g a) s =
        .next ((((s2.putField h 0 0xFFFFFFFF).putField h 1 0xFFFFFFFF).putField h 2 0).retire none)) ∧
    (Granule x s1 h s2 → s2.field h 0 = 0xFFFFFFFF → Writes d 0 s2 s3 → exec (.lpop g d a) s = .next (s3.retire none)) ∧
    (Granule x s1 h s2 → s2.field h 0 ≠ 0xFFFFFFFF → Granule (wordN (0xFF00000000000000 + s2.field h 0)) s2 r s3 →
      Unlinked r h s3 s4 →
      Writes d (wordN (0xFF00000000000000 + s2.field h 0))
        (((s4.putField r 2 0xFFFFFFFF).putField r 0 0xFFFFFFFF).putField r 1 0xFFFFFFFF) s5 →
      exec (.lpop g d a) s = .next (s5.retire none)) ∧
    (Reads b s1 y s2 → Granule x s2 r s3 → Granule y s3 h s4 →
      (if s4.field r 2 = 0xFFFFFFFF then s6 = s4
        else Granule (wordN (0xFF00000000000000 + s4.field r 2)) s4 k s5 ∧ Unlinked r k s5 s6) →
      Linked (s6.field h 1) h
        (((s6.putField r 1 (s6.field h 1)).putField r 0 0xFFFFFFFF).putField r 2 (h - 0xFF00000000000000)) q s7 →
      Writes d (if s4.field r 2 = 0xFFFFFFFF then 0 else wordN (0xFF00000000000000 + s4.field r 2))
        (let t := (s7.putField q 0 (r - 0xFF00000000000000)).putField h 1 (r - 0xFF00000000000000)
         t.putField h 2 (t.field h 2 + 1)) s8 →
      exec (.lmove g d a b) s = .next (s8.retire none))

/-- R66, R146, R147: FENCE, CEND, HOME, MIGR and STAY. -/
def Obligations.SynchronisationResults : Prop :=
  ∀ (g : Guard) (sc : Scope) (d a : Reg) (s s1 s2 : State) (x : Word), Strand g s →
    (s.openChunk.StreamsDry → (sc = .y → s.openChunk.cur.chunk.count = 0) →
      (sc ≠ .s → s.fenced sc s.core (s.pendingOf s.cur.ctx.strandId) = true →
        exec (.fence g sc) s = .next ((((if sc = .y then s.openChunk.ending else s.openChunk).modCur fun k =>
          { k with streams := k.streams.map fun o => o.map fun t => if t.write then t else { t with buf := [] } })).retire none)) ∧
      (sc = .s → exec (.fence g sc) s = .next ((s.openChunk.modCur fun k =>
          { k with streams := k.streams.map fun o => o.map fun t => if t.write then t else { t with buf := [] } }).retire none)) ∧
      (sc ≠ .s → s.fenced sc s.core (s.pendingOf s.cur.ctx.strandId) = false →
        ∃ t, exec (.fence g sc) s = .next t ∧ t.cur.wait = some (.fence (s.pendingOf s.cur.ctx.strandId) sc) ∧
          t.cur.ctx = s.cur.ctx)) ∧
    exec (.cend g) s = .next (s.openChunk.ending.retire none) ∧
    exec (.stay g) s = .next ((s.openChunk.modCur fun k => { k with predN := 0 }).retire none) ∧
    (Reads a s.openChunk x s1 →
      Writes d (if x.toNat < 2 ^ 56 then wordN (s1.homeOf x.toNat)
        else if x.toNat < 0xFF00000000000000 then BitVec.allOnes 64
        else if x.toNat < 0xFF00000008000000 then wordN ((x.toNat - 0xFF00000000000000) / 0x40000)
        else if x.toNat < 0xFF00000008040000 then wordN s.core
        else BitVec.allOnes 64) s1 s2 →
      exec (.home g d a) s = .next (s2.retire none)) ∧
    (Reads a s.openChunk x s1 →
      (2 ^ 56 ≤ x.toNat ∨ s1.homeOf x.toNat = s.core ∨ s1.mayMove (s1.homeOf x.toNat) = false →
        exec (.migr g a) s = .next (s1.retire none)) ∧
      (∀ h, x.toNat < 2 ^ 56 → h = s1.homeOf x.toNat → h ≠ s.core → s1.mayMove h = true → s.openChunk.cur.chunk.count = 0 →
        (∀ p ∈ (s.coreAt s.core).parkStore, p.own ≠ some s.slot) →
        ∃ t, exec (.migr g a) s = .next t ∧ (t.slotAt s.core s.slot).occ = .empty ∧
          (t.coreAt h).arrivals = (s.coreAt h).arrivals ++
            [{ ctx := { s.cur.ctx with pc := s.cur.nextPc }, predH := h, predN := 3 }] ∧ t.mem = s.mem))

/-- R59, R150 to R152: binding a stream to the pattern its descriptor gives, freeing it, its status, an element's arrival and an
element's drain. That STSTAT of an unbound stream writes 0 in every field is the model's choice (log 103). -/
def Obligations.StreamResults : Prop :=
  (∀ (g : Guard) (t : Fin 4) (a : Reg) (s s1 s2 : State) (x : Word) (w : Nat → Nat) (st : Stream), Strand g s →
    Reads a s.openChunk x s1 → x.toNat % 8 = 0 →
    LoadsAll 5 8 (fun i => x + wordN (8 * i)) (fun i => if i = 0 then .pred else .stay) w s1 s2 →
    Stream.ofWords [w 0, w 1, w 2, w 3, w 4] = some st → (∀ old, s2.cur.streams[t] = some old → s2.StreamsDry) →
    exec (.stbind g t a) s = .next (((({ s2 with ticket := s2.ticket + 1 } : State).setStream t (some { st with gen := s2.ticket })).modCtx
      fun k => { k with pins := true }).retire none)) ∧
  (∀ (w0 w1 w2 w3 w4 : Nat) (st : Stream) (i0 i1 i2 i3 c0 c1 c2 : Nat), Stream.ofWords [w0, w1, w2, w3, w4] = some st →
    st.base = wordN w0 ∧ st.size = 2 ^ (w1 % 4) ∧ st.write = w1.testBit 2 ∧ w1 < 8 ∧ st.pos = 0 ∧ st.buf = [] ∧
    st.total = (w2 % 2 ^ 16 + 1) * (w2 / 2 ^ 16 % 2 ^ 16 + 1) * (w2 / 2 ^ 32 % 2 ^ 16 + 1) * (w2 / 2 ^ 48 % 2 ^ 16 + 1) ∧
    (c0 = w2 % 2 ^ 16 + 1 → c1 = w2 / 2 ^ 16 % 2 ^ 16 + 1 → c2 = w2 / 2 ^ 32 % 2 ^ 16 + 1 → i0 < c0 → i1 < c1 → i2 < c2 →
      i3 < w2 / 2 ^ 48 % 2 ^ 16 + 1 →
      st.addr (i0 + c0 * (i1 + c1 * (i2 + c2 * i3))) = wordN w0 + wordI (i0 * signedOf 32 w3 + i1 * signedOf 32 (w3 / 2 ^ 32)
        + i2 * signedOf 32 w4 + i3 * signedOf 32 (w4 / 2 ^ 32)))) ∧
  (∀ (g : Guard) (t : Fin 4) (d : Reg) (s s1 : State), Strand g s →
    (s.cur.streams[t] = none → exec (.stfree g t) s = .next (s.openChunk.retire none)) ∧
    (∀ st, s.cur.streams[t] = some st → s.openChunk.StreamsDry →
      exec (.stfree g t) s = .next (((s.openChunk.setStream t none).modCtx fun k =>
        { k with pins := (s.openChunk.setStream t none).cur.streams.any Option.isSome }).retire none)) ∧
    ((∀ st, s.cur.streams[t] = some st → st.write = true → st.refused = none ∧ st.absent = none ∧ st.tainted = none) →
      Writes d (match s.cur.streams[t] with
        | some st => wordN ((match st.size with | 1 => 0 | 2 => 1 | 4 => 2 | _ => bitLen (st.size - 1)) * 2 ^ 56 + st.write.toNat * 2 ^ 55
            + 2 ^ 54 + min st.buf.length 16 * 2 ^ 49 + (st.total - st.pos) % 2 ^ 49)
        | none => 0) s.openChunk s1 →
      exec (.ststat g t d) s = .next (s1.retire none))) ∧
  ∀ (c n : Nat) (t : Fin 4) (s u : State) (st : Stream) (sa : Nat), (s.slotAt c n).streams[t] = some st →
    (st.write = false → st.buf.length < 16 → st.pos + st.buf.length < st.total →
      s.elemSpot (s.slotAt c n).ctx c (st.addr (st.pos + st.buf.length)).toNat st.size 1 = (.here sa, u) →
      ∃ v, exec (.streamElementArrival c n t) s = .next v ∧
        (v.slotAt c n).streams[t] = some { st with
          buf := st.buf ++ [wordN (leNat (u.spotRead (st.addr (st.pos + st.buf.length)).toNat sa st.size).1)] }) ∧
    (∀ w l, st.write = true → st.refused = none → st.buf = w :: l →
      s.elemSpot (s.slotAt c n).ctx c (st.addr st.drained).toNat st.size 2 = (.here sa, u) →
      (u.cmds.any fun m => m.guardsRange sa st.size) = false →
      ∃ v, exec (.streamDrain c n t) s = .next v ∧
        (v.slotAt c n).streams[t] = some { st with buf := l, seqs := st.seqs.drop 1, drained := st.drained + 1 } ∧
        ∀ va z, va = (st.addr st.drained).toNat → z = u.spotWrite va sa (leBytes st.size w.toNat) →
          2 ^ 56 ≤ va ∨ z.homeOf va = c ∨ (z.coreAt (z.homeOf va)).trEn = false → v.mem = z.mem)

/-! ### Engines -/

/-- R73, R153, R193, R195, R199, R202, R215, R230, R233 to R235, R240, R241, R260, R283: an instruction of an engine's group hands its command
to its engine; and MFMT. -/
def Obligations.EngineCommandsAreHanded : Prop :=
  (∀ (g : Guard) (x y h : Bool) (p : Fin 16) (k : KeySrc) (q r : Flag) (d a : Reg),
    Issues (.xcopyCopy g x y h q r d a) g (.xfer (if h then 1 else 0)) (.xcopyCopy x y) q r d a true false ∧
    Issues (.xcopyFill g x y h q r d a) g (.xfer (if h then 1 else 0)) (.xcopyFill x y) q r d a true false ∧
    Issues (.xcopyPack g x y h q r d a) g (.xfer (if h then 1 else 0)) (.xcopyPack x y) q r d a true false ∧
    Issues (.xcopyUnpack g x y h q r d a) g (.xfer (if h then 1 else 0)) (.xcopyUnpack x y) q r d a true false ∧
    Issues (.mma g x y p q r d a) g .matrix (.mma x y p.val) q r d a true false ∧
    Issues (.mld g q r d a) g .matrix .mld q r d a true false ∧ Issues (.mst g q r d a) g .matrix .mst q r d a true false ∧
    Issues (.mclr g q r a) g .matrix .mclr q r .z a false false ∧
    Issues (.mqry g q r d a) g .matrix .mqry q r d a false true ∧
    Issues (.mrecl g q r d a) g .matrix .mrecl q r d a false true ∧
    Issues (.attn g x y k q r d a) g .matrix (.attn x y k) q r d a true false ∧
    Issues (.maskset g q r d a) g .matrix .maskset q r d a true false ∧
    ∀ (c : Fin 4) (s s1 : State) (v : Word), Strand g s → Reads a s.openChunk v s1 →
      v.toNat < 2 ^ 10 → v.toNat % 16 < 7 → v.toNat / 16 % 16 < 7 →
      (v.toNat.testBit 8 = true → v.toNat % 16 = 2 ∨ v.toNat % 16 = 3 ∨ v.toNat % 16 = 4) →
      (v.toNat.testBit 9 = true → v.toNat / 16 % 16 = 2 ∨ v.toNat / 16 % 16 = 3 ∨ v.toNat / 16 % 16 = 4) →
      exec (.mfmt g c a) s = .next ((s1.withHeld (.mfmt c v)).retire none)) ∧
  (∀ (g : Guard) (w : Bool) (q r : Flag) (d a : Reg),
    Issues (.kvapp g w q r d a) g .walker (.kvapp w) q r d a false true ∧
    Issues (.kvcommit g w q r d a) g .walker (.kvcommit w) q r d a false true ∧
    Issues (.kvtrunc g w q r d a) g .walker (.kvtrunc w) q r d a false true ∧
    Issues (.linfold g q r d a) g .walker .linfold q r d a false true ∧
    Issues (.pref g q r a) g .walker .pref q r .z a false false ∧
    Issues (.rcat g q r d a) g .walker .rcat q r d a true true ∧
    Issues (.rsplitLo g q r d a) g .walker .rsplitLo q r d a true true ∧
    Issues (.rsplitHi g q r d a) g .walker .rsplitHi q r d a true true ∧
    Issues (.rsplice g q r d a) g .walker .rsplice q r d a false true ∧
    Issues (.rleaf g q r d a) g .walker .rleaf q r d a false true ∧
    Issues (.ridx g q r d a) g .walker .ridx q r d a true true ∧
    Issues (.rsum g q r d a) g .walker .rsum q r d a false true ∧
    Issues (.rsumFix g q r d a) g .walker .rsumFix q r d a false true ∧
    Issues (.rlen g q r d a) g .walker .rlen q r d a false true ∧
    Issues (.rref g q r a) g .walker .rref q r .z a false false ∧
    Issues (.rdrop g q r d a) g .walker .rdrop q r d a false true ∧
    Issues (.rwalk g q r d a) g .walker .rwalk q r d a false true ∧
    Issues (.rclass g q r d a) g .walker .rclass q r d a true false ∧
    Issues (.iqput g q r d a) g .consol .iqput q r d a false true ∧
    Issues (.iqget g w q r d a) g .consol (.iqget w) q r d a false true ∧
    Issues (.iqwave g q r d a) g .consol .iqwave q r d a false true ∧
    Issues (.iqcons g q r d a) g .consol .iqcons q r d a false true ∧
    Issues (.iqbind g q r d a) g .consol .iqbind q r d a false true ∧
    Issues (.iqbindStage g q r d a) g .consol .iqbindStage q r d a false true ∧
    Issues (.iqprobe g q r d a) g .consol .iqprobe q r d a false true ∧
    Issues (.iqupd g q r d a) g .consol .iqupd q r d a false true ∧
    Issues (.iqquiet g q r d a) g .consol .iqquiet q r d a false true)

/-- R193, R199, R215, R260, R264, R318, R329: an engine's event: a waited result reaches its register and its slot goes on, a refused
command traps its strand, one that is held stays, MCLR clears its accumulator slot, and a held IQGET.wait is performed. -/
def Obligations.EngineEvents : Prop :=
  (∀ (s : State) (c : Cmd) (v : Word) (r : Reg) (k : Fin 24) (n : Nat), s.cmds = [c] → c.answer = some v → c.dst = some r →
    regIndex r = some k → c.acc = none → c.core < 512 → n < 16 → s.waiter c.id = some (c.core, n) →
    (c.refused = none →
      ∃ t, exec (.engineCompletion c.cluster c.eng) s = .next t ∧ t.cmds = [] ∧
        t.slotAt c.core n = { s.slotAt c.core n with
          wait := none, ticket := none,
          ctx := { (s.slotAt c.core n).ctx with gpr := (s.slotAt c.core n).ctx.gpr.set k v } }) ∧
    (∀ why at', c.refused = some (why, at') → why < 2 ^ 12 → (s.slotAt c.core n).ctx.gang = false →
      (s.slotAt c.core n).ctx.intrap = false → ({ s with core := c.core, slot := n } : State).tvec ≠ 0 →
      ∃ t, exec (.engineCompletion c.cluster c.eng) s = .next t ∧ t.cmds = [] ∧ (t.slotAt c.core n).ctx.intrap = true ∧
        (t.slotAt c.core n).tepc = (s.slotAt c.core n).ctx.pc &&& ~~~1 ∧
        (t.slotAt c.core n).tcause = wordN (((match c.eng with
          | .matrix => 1 | .xfer _ => 2 | .walker => 3 | .consol => 4) * 2 ^ 12 + why) * 2 ^ 16 + 0xF) ∧
        (t.slotAt c.core n).taddr = wordN at')) ∧
  (∀ (s : State) (c : Cmd), s.cmds = [c] → c.answer = none → c.waiting = false →
    (c.heldPage.isSome = true ∨ c.heldPoison.isSome = true → exec (.engineCompletion c.cluster c.eng) s = .next s) ∧
    (c.op = .mclr → c.eng = .matrix → c.heldPage = none → c.heldPoison = none → c.refused = none → c.ran = false → c.acq = none →
      (∀ w ∈ s.late, w.cmd ≠ c.id) →
      ∃ t, exec (.engineCompletion c.cluster .matrix) s = .next t ∧ t.cmds = [] ∧ t.mem = s.mem ∧
        t.accAt c.cluster (c.a.toNat % 16) = { s.accAt c.cluster (c.a.toNat % 16) with
          cells := [], rmax := [], rsum := [], edat := false, refused := false, tag := c.tag,
          done := ((s.accAt c.cluster (c.a.toNat % 16)).done + 1) % 2 ^ 16 })) ∧
  ∀ (s u : State) (c k : Cmd) (v : Word) (w : Bool), s.cmds = [c] → c.waiting = true → c.op = .iqget w → c.eng = .consol →
    c.heldPage = none → c.heldPoison = none → c.refused = none → c.ran = false → c.desc.isSome = true → c.acq = none →
    s.unfit c = none → c.begun = false → (runIqget c w).run s = .ok (some v, u) →
    k = { (u.cmdAt c.id).getD c with ran := true, value := v } → k.counts = false → (∀ w ∈ u.late, w.cmd ≠ c.id) →
    exec (.iqgetWaitServe c.cluster 0) s = .next ((u.modCmd c.id fun _ => k).finishCmd k v)

/-- R252 to R254: walking a token trie, decoding UTF-8, finding an incomplete tail. -/
def Obligations.TextResults : Prop :=
  (∀ (g : Guard) (d a b : Reg) (s s1 s2 s3 s4 s5 : State) (x y z : Word) (v : Nat), Strand g s → Reads a s.openChunk x s1 →
    Reads b s1 y s2 →
    (Reads d s2 z s3 → (trieStep z.toNat x (y.toNat % 256)).run s3 = .ok (v, s4) → Writes d (wordN v) s4 s5 →
      exec (.trie g d a b) s = .next (s5.retire none)) ∧
    (Reads d s2 z s3 → z.toNat % 2 ^ 24 = 0xFFFFFF → Writes d z s3 s4 → exec (.trie g d a b) s = .next (s4.retire none)) ∧
    (Reads d s1 z s2 → Writes d (udec z x) s2 s3 → exec (.udec g d a) s = .next (s3.retire none)) ∧
    (∀ l : Nat → Nat, LoadsAll (min y.toNat 3) 1 (fun j => x + y - wordN (j + 1)) (fun _ => .pred) l s2 s3 →
      Writes d (y - wordN (heldTail [] ((List.range (min y.toNat 3)).map l))) s3 s4 →
      exec (.uhold g d a b) s = .next (s4.retire none))) ∧
  (∀ c : Nat, c < 0x80 → udec 0 (wordN c) = wordN (c * 2 ^ 22 + 2 ^ 20)) ∧
  (∀ c : Nat, 0x80 ≤ c → c < 0x800 →
    udec (udec 0 (wordN (0xC0 + c / 64))) (wordN (0x80 + c % 64)) = wordN (c * 2 ^ 22 + 2 ^ 20)) ∧
  (∀ c : Nat, 0x80 ≤ c → c < 0xC2 → udec 0 (wordN c) = wordN (0xFFFD * 2 ^ 22 + 2 ^ 20)) ∧
  (∀ (x : Nat) (l : List Nat), (x < 0x80 → heldTail [] (x :: l) = 0) ∧ (0xC2 ≤ x → x ≤ 0xF4 → heldTail [] (x :: l) = 1))

/-! ### Parallel work -/

/-- R160 to R164: FORK, FGET, FPUT, EXIT and YIELD. -/
def Obligations.StrandAndFutureResults : Prop :=
  ∀ (g : Guard) (d a b : Reg) (s s1 s2 s3 : State) (x y : Word) (k sa : Nat) (p : Bool), Strand g s →
    Reads a s.openChunk x s1 →
    (Reads b s1 y s2 → s2.forkPlace s.core = some p → ∀ u,
      (if b = .z then u = s2 else
        Shared y ∧ ∃ v, Finds { va := y, size := 16, need := 8, way := .stay, op := .clear, off := 8 } s2 (.here sa) v ∧
          u = (Spot.here (sa + 8)).stored
            { va := y + 8, size := 16, need := 8, way := .stay, op := .clear, off := 8 } (leBytes 8 0) true v) →
      Writes d (wordN u.newId.1.toNat) ((u.newId.2).withHeld (.fork
        { s2.cur.ctx with
          pc := x, strandId := u.newId.1, future := y, tmode := s2.cur.ctx.tmode &&& 0xF, pinq := false,
          pins := false, pinv := false, intrap := false, leader := false, gang := false, parked := false, lane := 0, gsz := 0,
          fseq := none } p)) s3 →
      exec (.fork g d a b) s = .next (s3.retire none)) ∧
    (Shared x → Finds { va := x, size := 16, need := 1, way := .pred, op := .fget } s1 (.here sa) s2 → k = s2.seen x sa 16 →
      (k.testBit 64 = true → Writes d (wordN k) (s2.fetched x sa) s3 → exec (.fget g d a) s = .next (s3.retire none)) ∧
      (k.testBit 64 = false → TakesTraps s → s.tfut = 0 → Traps (.fget g d a) s 7 0 x s.cur.ctx.pc)) ∧
    (Reads b s1 y s2 → Shared x → Finds { va := x, size := 16, need := 8, way := .stay, op := .fput y } s2 (.here sa) s3 →
      ((s3.seen x sa 16).testBit 64 = false →
        exec (.fput g a b) s = .next (((Spot.here sa).stored { va := x, size := 16, need := 8, way := .stay, op := .fput y }
          (leBytes 8 y.toNat ++ leBytes 8 1) true (s3.fetched x sa)).retire none)) ∧
      ((s3.seen x sa 16).testBit 64 = true → TakesTraps s → Traps (.fput g a b) s 8 0 x s.cur.ctx.pc)) ∧
    (s1.StreamsDry → s1.cur.svuQ = [] →
      (s1.cur.ctx.future = 0 → exec (.exit g a) s = .next (((s1.withHeld .exit).ending).retire none)) ∧
      (∀ f, f = s1.cur.ctx.future → f ≠ 0 → Shared f →
        Finds { va := f, size := 16, need := 8, way := .stay, op := .fput x } s1 (.here sa) s2 →
        (s2.seen f sa 16).testBit 64 = false →
        exec (.exit g a) s = .next (((((Spot.here sa).stored { va := f, size := 16, need := 8, way := .stay, op := .fput x }
          (leBytes 8 x.toNat ++ leBytes 8 1) true (s2.fetched f sa)).withHeld .exit).ending).retire none))) ∧
    (s.cur.ctx.intrap = false →
      exec (.yield g) s = .next (((if s.staysAtYield then s.openChunk else s.openChunk.withHeld .yield).ending).retire none)) ∧
    (s.cur.ctx.intrap = true → s.openChunk.Enters s.cur.tepc →
      exec (.yield g) s = .next ((((if s.staysAtYield then s.openChunk.modCtx fun k => { k with intrap := false }
        else (s.openChunk.modCtx fun k => { k with intrap := false }).withHeld .yield)).ending).retire (some s.cur.tepc)))

/-- R27: a strand that FORK, SLSTART, GANG or a dealing creates takes an id that no live strand has. Which one is the model's choice
(log 15). -/
def Obligations.NewStrandIdsAreUnused : Prop :=
  ∀ s : State, s.liveIds.length < 2 ^ 32 → s.newId.1 ∉ s.liveIds

/-- R165, R166, R334: slots of a manual block, and wakes. The flags of SLSTART's child, clear in `Ctx.child`, are DEDUCED (log 31). -/
def Obligations.SlotAndWakeResults : Prop :=
  (∀ (g : Guard) (d a b : Reg) (s s1 s2 s3 : State) (x y : Word) (n : Nat), Strand g s → Reads a s.openChunk x s1 →
    n = x.toNat % 16 → (∀ c, Held.slstart n c ∉ s1.cur.chunk.held) → Held.slreap n ∉ s1.cur.chunk.held →
    (Reads b s1 y s2 → s2.manualCore s.core = true → s.slot = 0 →
      (n ≠ 0 → s2.idleSlot s.core n = true →
        Writes d (wordN s2.newId.1.toNat) ((s2.newId.2).withHeld (.slstart n
          (s2.cur.ctx.child y s2.newId.1 0))) s3 →
        exec (.slstart g d a b) s = .next (s3.retire none)) ∧
      (n = 0 ∨ s2.idleSlot s.core n = false → Writes d (BitVec.allOnes 64) s2 s3 →
        exec (.slstart g d a b) s = .next (s3.retire none))) ∧
    (s1.manualCore s.core = true → s.slot = 0 →
      ((s1.slotAt s.core n).occ = .finished →
        Writes d (wordN (s1.slotAt s.core n).ctx.strandId.toNat) (s1.withHeld (.slreap n)) s2 →
        exec (.slreap g d a) s = .next (s2.retire none)) ∧
      ((s1.slotAt s.core n).occ ≠ .finished → Writes d (BitVec.allOnes 64) s1 s2 →
        exec (.slreap g d a) s = .next (s2.retire none))) ∧
    (∀ y : Slot, y = s1.slotAt s.core n →
      ((y.occ = .empty → Writes d 0 s1 s2 → exec (.slquery g d a) s = .next (s2.retire none)) ∧
      (y.occ = .running → y.ctx.parked = false →
        (y.ctx.gang = true → ∀ e ∈ y.ctx.gangCores s.core, (s1.slotAt e n).ctx.gang = true → (s1.slotAt e n).ctx.parked = false) →
        y.vnorm = 0 ∧ (∀ w, y.wait = some w → s1.waitOver s.core n w = true) →
        Writes d (wordN (1 * 2 ^ 32 + y.ctx.strandId.toNat)) s1 s2 → exec (.slquery g d a) s = .next (s2.retire none)) ∧
      (y.occ = .running → y.ctx.parked = false →
        (y.ctx.gang = true → ∀ e ∈ y.ctx.gangCores s.core, (s1.slotAt e n).ctx.gang = true → (s1.slotAt e n).ctx.parked = false) →
        y.vnorm ≠ 0 ∨ (∃ w, y.wait = some w ∧ s1.waitOver s.core n w = false) →
        Writes d (wordN (2 * 2 ^ 32 + y.ctx.strandId.toNat)) s1 s2 → exec (.slquery g d a) s = .next (s2.retire none)) ∧
      (y.occ = .running →
        y.ctx.parked = true ∨ (y.ctx.gang = true ∧ ∃ e ∈ y.ctx.gangCores s.core, (s1.slotAt e n).ctx.gang = true ∧ (s1.slotAt e n).ctx.parked = true) →
        Writes d (wordN (3 * 2 ^ 32 + y.ctx.strandId.toNat)) s1 s2 →
        exec (.slquery g d a) s = .next (s2.retire none)) ∧
      (y.occ = .finished → Writes d (wordN (4 * 2 ^ 32 + y.ctx.strandId.toNat)) s1 s2 →
        exec (.slquery g d a) s = .next (s2.retire none)))) ∧
    exec (.wake g a) s = .next ((s1.withHeld (.wake (x.setWidth 32))).retire none)) ∧
  ∀ (n c k : Nat) (s : State) (w : Wake), s.wakes[n]? = some w → k < 16 → (∀ e ∈ s.cores, e.2.parkStore = []) →
    ∃ t, exec (.wakeMessage n) s = .next t ∧ t.wakes = s.wakes.eraseIdx n ∧ t.mem = s.mem ∧
      ((s.slotAt c k).ctx.parked = true → (s.slotAt c k).wait ≠ some .verdict → (s.slotAt c k).ctx.strandId = w.id →
        (∀ l, w.launch = some l → (s.slotAt c k).ctx.launch = l) → t.slotAt c k = (s.slotAt c k).woken) ∧
      ((s.slotAt c k).ctx.strandId ≠ w.id → t.slotAt c k = s.slotAt c k)

/-- R34, R167: GANG waits while a slot of its number on another core of its gang is not reserved for it; empty slots are reserved, and with
the last one it goes on; its gang forms; and UNGANG leaves it. That the leader's guard decides whether followers leave is the model's choice
(log 106). -/
def Obligations.GangResults : Prop :=
  (∀ (g : Guard) (n : GangN) (s : State), Strand g s →
    (s.cur.ctx.gang = false → s.openChunk.ownCore s.cur.ctx s.core = true →
      (∀ c ∈ gangOthers (gangSize n) s.core, s.openChunk.ownCore s.cur.ctx c = true) →
      ((∃ c ∈ gangOthers (gangSize n) s.core, (s.slotAt c s.slot).occ ≠ .reserved s.core s.slot) →
        ∃ t, exec (.gang g n) s = .next t ∧ t.cur.wait = some .gang ∧ t.cur.ctx = s.cur.ctx) ∧
      (s.core < 512 → s.slot < 16 → s.cur.releasing = false →
        (∀ c ∈ gangOthers (gangSize n) s.core, (s.slotAt c s.slot).occ = .reserved s.core s.slot) →
        ∃ t, exec (.gang g n) s = .next t ∧
          t.cur.ctx = { s.cur.ctx with
            pc := s.cur.nextPc, gang := true, pinv := true, leader := true, lane := s.core % gangSize n, fseq := t.cur.ctx.fseq,
            gsz := match n with | .two => 1 | .four => 2 | .eight => 3 } ∧
          t.mem = s.mem ∧
          ∀ e ∈ gangOthers (gangSize n) s.core, (t.slotAt e s.slot).occ = .running ∧
            (t.slotAt e s.slot).ctx.gpr = s.cur.ctx.gpr ∧ (t.slotAt e s.slot).ctx.pred = s.cur.ctx.pred ∧
            (t.slotAt e s.slot).ctx.pc = s.cur.nextPc ∧ (t.slotAt e s.slot).ctx.gang = true ∧
            (t.slotAt e s.slot).ctx.leader = false ∧ (t.slotAt e s.slot).ctx.lane = e % gangSize n ∧
            (t.slotAt e s.slot).ctx.future = 0)) ∧
    (TakesTraps s → (∃ c ∈ gangOthers (gangSize n) s.core, s.openChunk.ownCore s.cur.ctx c = false) →
      Traps (.gang g n) s 0xA 1 0 s.cur.ctx.pc) ∧
    (s.cur.ctx.gang = false → exec (.ungang g) s = .next (s.openChunk.retire none)) ∧
    (s.cur.ctx.gang = true → s.cur.ctx.leader = true →
      exec (.ungang g) s = .next ((s.openChunk.modCur fun x => { x with releasing := true }).retire none) ∧
      ∃ t, exec (.ungang g) s = .next t ∧
        (s.cur.gbuf = [] → t.cur.ctx.gang = false ∧ t.cur.ctx.leader = false ∧ t.cur.ctx.pinv = s.cur.ctx.pinv) ∧
        ∀ d ∈ s.cur.ctx.gangCores s.core, d ≠ s.core → s.cur.gskip = 0 → (s.slotAt d s.slot).occ = .running →
          (s.slotAt d s.slot).isFollower = true → (s.slotAt d s.slot).gseq ≤ s.cur.gseq → (t.slotAt d s.slot).releasing = true) ∧
    (s.cur.isFollower = true → exec (.ungang g) s = .next (s.openChunk.retire none) ∧
      ∀ e, s.cur.gbuf = [e] → s.cur.releasing = true →
        ∃ t, exec (.ungang g) s = .next t ∧ t.cur.ctx.gang = false ∧ t.cur.ctx.pinv = s.cur.ctx.pinv)) ∧
  ∀ (g : Guard) (n : GangN) (c k : Nat) (s : State) (x : Slot), c < 512 → k < 16 → x = s.slotAt c k → x.wait = some .gang →
    x.unit = .instr (.gang g n) →
    ((∀ e ∈ gangOthers (gangSize n) c, s.slotFree e k = true ∨ (s.slotAt e k).occ = .reserved c k) →
      ∃ t, exec (.gangFormation c k) s = .next t ∧ t.slotAt c k = { x with wait := none } ∧ t.mem = s.mem ∧
        ∀ e ∈ gangOthers (gangSize n) c, t.slotAt e k = { s.slotAt e k with occ := .reserved c k }) ∧
    ((∃ e ∈ gangOthers (gangSize n) c, s.slotFree e k = false ∧ (s.slotAt e k).occ ≠ .reserved c k) →
      ∃ t, exec (.gangFormation c k) s = .next t ∧ t.slotAt c k = x ∧ t.mem = s.mem ∧
        ∀ e ∈ gangOthers (gangSize n) c, s.slotFree e k = true → (t.slotAt e k).occ = .reserved c k)

/-- R168, R169: barriers. -/
def Obligations.BarrierResults : Prop :=
  (∀ (g : Guard) (d a b : Reg) (s s1 s2 s3 s4 : State) (x y : Word) (k : Nat), Strand g s →
    (Reads a s.openChunk x s1 → Reads b s1 y s2 → Barrier x false s2 k s3 →
      exec (.barinit g a b) s = .next ((s3.putBar x k (y.toNat % 2 ^ 32, 0, s3.field k 2)).retire none)) ∧
    (Reads a s.openChunk x s1 → Barrier x false s1 k s2 →
      Writes d (wordN (s2.field k 2))
        (s2.putBar x k (barFields true (s2.field k 0) (s2.field k 1 + 1) (s2.field k 2))) s4 →
      exec (.bararr g d a) s = .next (s4.retire none)) ∧
    (Reads a s.openChunk x s1 → Reads b s1 y s2 → s2.cur.chunk.count = 0 → Barrier x true s2.ending k s3 →
      (s3.field k 2 ≠ y.toNat % 2 ^ 32 → exec (.barwait g a b) s = .next (s3.retire none)) ∧
      (s3.field k 2 = y.toNat % 2 ^ 32 → Waits (.barwait g a b) s (.barrier k (y.toNat % 2 ^ 32)))) ∧
    (Reads a s.openChunk x s1 → Barrier x false s1 k s2 →
      exec (.barleave g a) s = .next ((s2.putBar x k
        (barFields (decide (0 < s2.field k 1)) (s2.field k 0 - 1) (s2.field k 1) (s2.field k 2))).retire none))) ∧
  ∀ (c k sa n : Nat) (s : State), (s.slotAt c k).wait = some (.barrier sa n) →
    (s.mem.readNat (sa + 8) 4 = n → exec (.barrierRelease c k) s = .next s) ∧
    (s.mem.readNat (sa + 8) 4 ≠ n → ∃ t, exec (.barrierRelease c k) s = .next t ∧
      t.slotAt c k = { s.slotAt c k with wait := none } ∧ t.mem = s.mem)

/-- R170 to R172: mailboxes and neighbour queues. -/
def Obligations.MessageResults : Prop :=
  (∀ (g : Guard) (d a b : Reg) (s s1 s2 : State) (x y w : Word) (l : List Word), Strand g s → Reads a s.openChunk x s1 →
    (Reads b s1 y s2 → s2.sameLaunch s2.cur.ctx (x.toNat / 2 ^ 4 % 2 ^ 9) = true →
      (s2.sendRoom s.core = true → exec (.send g a b) s =
        .next ((s2.withHeld (.send (x.toNat / 2 ^ 4 % 2 ^ 9) (x.toNat % 2 ^ 4) y)).retire none)) ∧
      (s2.sendRoom s.core = false → Waits (.send g a b) s .outbound)) ∧
    (Reads b s1 y s2 → s2.sameLaunch s2.cur.ctx (x.toNat / 2 ^ 4 % 2 ^ 9) = false → TakesTraps s →
      Traps (.send g a b) s 4 4 x s.cur.ctx.pc) ∧
    (s1.HoldsNone → (s1.coreAt s.core).mboxes.get [] (x.toNat % 16) = w :: l →
      s1.ahead s.core (.mailbox (x.toNat % 16)) (myTicket s1) < l.length + 1 →
      Writes d w ((s1.modCore s.core fun k => { k with mboxes := k.mboxes.set (x.toNat % 16) l }).modChunk fun c =>
        { c with takes := c.takes ++ [.mbox (x.toNat % 16) w] }) s2 →
      exec (.recv g d a) s = .next ((s2.ending).retire none)) ∧
    (s1.HoldsNone → (s1.coreAt s.core).mboxes.get [] (x.toNat % 16) = [] → Waits (.recv g d a) s (.mailbox (x.toNat % 16))) ∧
    (∀ n r, s1.cur.kept = .mbox n w :: r → Writes d w (s1.modCur fun z => { z with kept := r }) s2 →
      exec (.recv g d a) s = .next ((s2.ending).retire none)) ∧
    (Writes d (wordN (((s1.coreAt s.core).mboxes.get [] (x.toNat % 16)).length % 16
        + 16 * ((List.range 16).any fun k => (s1.slotAt s.core k).wait == some (.mailbox (x.toNat % 16))).toNat)) s1 s2 →
      exec (.mbstat g d a) s = .next (s2.retire none))) ∧
  (∀ (c n d : Nat) (s : State) (m : Msg), (s.coreAt c).outbound[n]? = some m →
    (∀ q ∈ s.cores, ∀ e ∈ q.2.outbound, e.since < m.since → s.msgBox e ≠ s.msgBox m) →
    s.msgCore m = some d →
    ((s.coreAt d).mboxes.get [] m.mbox).length + s.mboxTaken d m.mbox < 8 →
    ∃ t, exec (.mailboxDelivery c n) s = .next t ∧ (t.coreAt c).outbound = (s.coreAt c).outbound.eraseIdx n ∧
      (t.coreAt d).mboxes.get [] m.mbox = (s.coreAt d).mboxes.get [] m.mbox ++ [m.w] ∧ t.mem = s.mem) ∧
  ∀ (c n d : Nat) (s : State), s.ringNext c = d → n = 16 - ((s.coreAt d).nqUp.length + s.nqTaken d) →
    ∃ t, exec (.nqHop c) s = .next t ∧ (t.coreAt c).nqDown = (s.coreAt c).nqDown.drop n ∧
      (t.coreAt d).nqUp = (s.coreAt d).nqUp ++ (s.coreAt c).nqDown.take n ∧ t.mem = s.mem

/-- R173, R41, R250: work queues, pools, turns, and the monitor's turn. -/
def Obligations.WorkQueueAndTurnResults : Prop :=
  (∀ (g : Guard) (d a b : Reg) (k : BitVec 15) (s s1 s2 : State) (x y w : Word) (l : List Word), Strand g s →
    exec (.turn g k) s = .next ((s.openChunk.withHeld (.turn k.toNat)).retire none) ∧
    (Writes d (wordN (bitsOf (s.clusterAt (clusterOf s.core)).ompool.toNat (2 * (s.core % 8) + 1) (2 * (s.core % 8))))
      s.openChunk s1 → exec (.poolid g d) s = .next (s1.retire none)) ∧
    (Reads a s.openChunk x s1 →
      exec (.turnReg g a) s = .next ((s1.withHeld (.turn (x.toNat % 2 ^ 32))).retire none) ∧
      (Reads b s1 y s2 → s2.wqRoom (clusterOf s.core) (x.toNat % 16) = true →
        exec (.wqput g a b) s = .next ((s2.withHeld (.wqput (x.toNat % 16) y)).retire none)) ∧
      (Reads b s1 y s2 → s2.wqRoom (clusterOf s.core) (x.toNat % 16) = false →
        Waits (.wqput g a b) s (.wqFull (x.toNat % 16))) ∧
      (s1.HoldsNone → (s1.clusterAt (clusterOf s.core)).wqs.get [] (x.toNat % 16) = w :: l →
        s1.aheadCluster (clusterOf s.core) (.wqEmpty (x.toNat % 16)) (myTicket s1) < l.length + 1 →
        Writes d w ((s1.modCluster (clusterOf s.core) fun u => { u with wqs := u.wqs.set (x.toNat % 16) l }).modChunk fun c =>
          { c with takes := c.takes ++ [.wq (x.toNat % 16) w] }) s2 →
        exec (.wqget g d a) s = .next (s2.retire none)) ∧
      (s1.HoldsNone → (s1.clusterAt (clusterOf s.core)).wqs.get [] (x.toNat % 16) = [] →
        Waits (.wqget g d a) s (.wqEmpty (x.toNat % 16))) ∧
      (∀ n r, s1.cur.kept = .wq n w :: r → Writes d w (s1.modCur fun z => { z with kept := r }) s2 →
        exec (.wqget g d a) s = .next (s2.retire none)) ∧
      (Writes d (wordN ((s1.clusterAt (clusterOf s.core)).wqs.get [] (x.toNat % 16)).length) s1 s2 →
        exec (.wqlen g d a) s = .next (s2.retire none)))) ∧
  ∀ (k t : Nat) (l : List Nat) (s : State) (u : ClusterSt), u = s.clusterAt k → u.turns = t :: l → t < 2 ^ 32 → u.named = [] →
    (u.omstat.toNat.testBit 48 = true → t ≤ u.omstat.toNat % 2 ^ 32 →
      ∃ v, exec (.omTurn k) s = .next v ∧ v.clusterAt k = { u with turns := l, turnSoft := none }) ∧
    (u.omstat.toNat.testBit 48 = false ∨ u.omstat.toNat % 2 ^ 32 < t → u.capctl.toNat.testBit 16 = false →
      ∃ v, exec (.omTurn k) s = .next v ∧ (v.clusterAt k).turns = l ∧ (v.clusterAt k).omstat.toNat.testBit 48 = true ∧
        (v.clusterAt k).omstat.toNat % 2 ^ 32 = t ∧
        ∀ p q, u.Highest p → u.Lowest q →
          (p = q ∨ ¬u.RatioGe 2 p q ∨ (u.poolCores q).length ≤ u.poolLeast q →
            (v.clusterAt k).ompool = u.ompool ∧ (v.clusterAt k).omstat.toNat / 2 ^ 32 % 2 ^ 16 = u.omstat.toNat / 2 ^ 32 % 2 ^ 16) ∧
          ∀ c, c ∈ u.poolCores q → (∀ e ∈ u.poolCores q, e ≤ c) → p ≠ q → u.RatioGe 2 p q → u.poolLeast q < (u.poolCores q).length →
            (v.clusterAt k).ompool.toNat / 4 ^ c % 4 = p ∧
            (∀ e, e ≠ c → (v.clusterAt k).ompool.toNat / 4 ^ e % 4 = u.ompool.toNat / 4 ^ e % 4) ∧
            (v.clusterAt k).omstat.toNat / 2 ^ 32 % 2 ^ 16 = (u.omstat.toNat / 2 ^ 32 + 1) % 2 ^ 16)

/-- R89, R174 to R176, R281, R290, R309: control registers, loop counts, the return from a trap, and HALT, in whose record ARG1 is the
address of the next unit (DEDUCED, log 82). -/
def Obligations.ControlRegisterResults : Prop :=
  ∀ (g : Guard) (n : CtrlReg) (k : Fin 16) (d a : Reg) (s s1 : State) (x : Word),
    (Strand g s →
      (s.cur.ctx.intrap = true → s.openChunk.Enters s.cur.tepc →
        exec (.eret g) s = .next ((s.openChunk.modCtx fun c => { c with intrap := false }).retire (some s.cur.tepc))) ∧
      (Writes d (match n with
          | .tmode => wordN (s.cur.ctx.tmode.toNat &&& 0x00FE000F)
          | .tdom => wordN (s.cur.ctx.tdom.toNat % 4096)
          | .flags => wordN s.cur.ctx.flags
          | .tepc => s.cur.tepc
          | .tcause => s.cur.tcause
          | .taddr => s.cur.taddr
          | .tvec => s.tvec &&& ~~~1
          | .tfut => s.tfut &&& ~~~1
          | .strandid => wordN s.cur.ctx.strandId.toNat
          | .cycle => wordN (s.coreAt s.core).cycle) s.openChunk s1 →
        exec (.crd g n d) s = .next (s1.retire none)) ∧
      (Reads d s.openChunk x s1 →
        (∃ m : BitVec 32, exec (.cwr g .tmode d) s = .next ((s1.modCtx fun c => { c with tmode := m }).retire none) ∧
          m.getLsbD 0 = x.getLsbD 0 ∧
          (m.extractLsb' 1 3 = if (x.extractLsb' 1 3).toNat < 5 then x.extractLsb' 1 3 else s1.cur.ctx.tmode.extractLsb' 1 3) ∧
          ∀ i, 4 ≤ i → m.getLsbD i = (flAll.getLsbD i && s1.cur.ctx.tmode.getLsbD i && !x.getLsbD i)) ∧
        exec (.cwr g .tepc d) s = .next ((s1.modCur fun c => { c with tepc := x &&& ~~~1 }).retire none) ∧
        (n ≠ .tmode → n ≠ .tepc → exec (.cwr g n d) s = .next (s1.retire none))) ∧
      (Reads a s.openChunk x s1 →
        exec (.lcset g k a) s = .next ((s1.withHeld (.lcset k (x.setWidth 32))).retire none)) ∧
      ((∀ v, Held.lcset k v ∉ s.openChunk.cur.chunk.held) →
        Writes d (wordN ((s.clusterAt (clusterOf s.core)).lcs[k]).toNat) s.openChunk s1 →
        exec (.lcget g k d) s = .next (s1.retire none)) ∧
      (s.openChunk.cur.chunk.count = 0 → (∀ p ∈ (s.coreAt s.core).parkStore, p.own ≠ some s.slot) →
        ∃ u : State, exec (.halt g) s = .next (u.post 7 (clusterOf s.core) (wordN s.cur.ctx.strandId.toNat) s.cur.nextPc 0) ∧
          u.cur.ctx = { s.cur.ctx with parked := true, pc := s.cur.nextPc } ∧ u.cur.wait = some .verdict ∧
          u = { s with slots := u.slots })) ∧
    (s.isCtrl = true → g.holds s.cur.ctx.pred = true →
      (Reads a s.openChunk x s1 → exec (.lcset g k a) s =
        .next ((s1.modCluster (clusterOf s1.core) fun u => { u with lcs := u.lcs.set k (x.setWidth 32) }).retire none)) ∧
      (Writes d (wordN ((s.clusterAt (clusterOf s.core)).lcs[k]).toNat) s.openChunk s1 → s.cur.chunk.held = [] →
        exec (.lcget g k d) s = .next (s1.retire none)) ∧
      exec (.halt g) s = .next (s.modCluster (clusterOf s.core) fun u => { u with ccHalting := true }))

/-! ### The vector unit -/

/-- R35, R179, R181, R317: vector instructions are handed to the SVU, with their scalar operands as read at issue. -/
def Obligations.VectorCommandsAreQueued : Prop :=
  ∀ (g : Guard) (t : LType) (o : VType) (x : Bool) (z : ElSize) (y : NarrowType) (f : BitVec 8) (c : Fin 5) (m v : Fin 4)
    (d a b : Fin 8) (r q : Reg),
    (Queues (.vadd g t m d a b) g (.bin .add t m d a (.vec b)) none none ∧
      Queues (.vaddScalar g t m d a r) g (.bin .add t m d a .scalar) none (some r) ∧
      Queues (.vsub g t m d a b) g (.bin .sub t m d a (.vec b)) none none ∧
      Queues (.vsubScalar g t m d a r) g (.bin .sub t m d a .scalar) none (some r) ∧
      Queues (.vmul g t m d a b) g (.bin .mul t m d a (.vec b)) none none ∧
      Queues (.vmulScalar g t m d a r) g (.bin .mul t m d a .scalar) none (some r) ∧
      Queues (.vfma g t m d a b) g (.bin .fma t m d a (.vec b)) none none ∧
      Queues (.vfmaScalar g t m d a r) g (.bin .fma t m d a .scalar) none (some r) ∧
      Queues (.vmin g t m d a b) g (.bin .min t m d a (.vec b)) none none ∧
      Queues (.vminScalar g t m d a r) g (.bin .min t m d a .scalar) none (some r) ∧
      Queues (.vmax g t m d a b) g (.bin .max t m d a (.vec b)) none none ∧
      Queues (.vmaxScalar g t m d a r) g (.bin .max t m d a .scalar) none (some r)) ∧
    (Queues (.vabs g t m d a) g (.un .abs t m d a) none none ∧ Queues (.vneg g t m d a) g (.un .neg t m d a) none none ∧
      Queues (.vpopc g t m d a) g (.un .popc t m d a) none none ∧
      Queues (.vlog2 g m d a) g (.un .log2 .f32 m d a) none none ∧ Queues (.vexp2 g m d a) g (.un .exp2 .f32 m d a) none none ∧
      Queues (.vrcp g m d a) g (.un .rcp .f32 m d a) none none ∧ Queues (.vrsq g m d a) g (.un .rsq .f32 m d a) none none ∧
      Queues (.vtanh g m d a) g (.un .tanh .f32 m d a) none none ∧ Queues (.vsigm g m d a) g (.un .sigm .f32 m d a) none none) ∧
    (Queues (.vcmp g t c v a b) g (.cmp t c v a (.vec b)) none none ∧
      Queues (.vcmpScalar g t c v a r) g (.cmp t c v a .scalar) none (some r) ∧
      Queues (.vsel g t m d a b) g (.sel m d a (.vec b)) none none ∧
      Queues (.vselScalar g t m d a r) g (.sel m d a .scalar) none (some r) ∧
      Queues (.vand g t m d a b) g (.bin .and t m d a (.vec b)) none none ∧
      Queues (.vandScalar g t m d a r) g (.bin .and t m d a .scalar) none (some r) ∧
      Queues (.vor g t m d a b) g (.bin .or t m d a (.vec b)) none none ∧
      Queues (.vorScalar g t m d a r) g (.bin .or t m d a .scalar) none (some r) ∧
      Queues (.vxor g t m d a b) g (.bin .xor t m d a (.vec b)) none none ∧
      Queues (.vxorScalar g t m d a r) g (.bin .xor t m d a .scalar) none (some r) ∧
      Queues (.vshl g t m d a b) g (.bin .shl t m d a (.vec b)) none none ∧
      Queues (.vshlScalar g t m d a r) g (.bin .shl t m d a .scalar) none (some r) ∧
      Queues (.vshr g t m d a b) g (.bin .shr t m d a (.vec b)) none none ∧
      Queues (.vshrScalar g t m d a r) g (.bin .shr t m d a .scalar) none (some r) ∧
      Queues (.vtern g f d a b) g (.tern f d a b) none none ∧ Queues (.vcvt g t x o m d a) g (.cvt t x o m d a) none none ∧
      Queues (.vcvte g y d a b) g (.cvte y d a b) none none ∧ Queues (.vsplat g t m d r) g (.splat m d) none (some r)) ∧
    (Queues (.vredadd g t m d a) g (.red false t m d a) none none ∧ Queues (.vredmax g t m d a) g (.red true t m d a) none none ∧
      Queues (.vimax g t m d a b) g (.imax t m d a (.vec b)) none none ∧
      Queues (.vimaxScalar g t m d a r) g (.imax t m d a .scalar) none (some r) ∧
      Queues (.vscan g t d a) g (.scan t d a) none none ∧ Queues (.vperm g t m d a b) g (.perm m d a (.vec b)) none none ∧
      Queues (.vpermScalar g t m d a r) g (.perm m d a .scalar) none (some r) ∧
      Queues (.vbcast g t m d a b) g (.bcast m d a (.vec b)) none none ∧
      Queues (.vbcastScalar g t m d a r) g (.bcast m d a .scalar) none (some r)) ∧
    (Queues (.vld g x z m d q r) g (.ld x z m d) (some q) (some r) ∧ Queues (.vst g z m d q r) g (.st z m d) (some q) (some r) ∧
      Queues (.vldx g x z m d q b) g (.ldx x z m d b) (some q) none ∧ Queues (.vstx g z m d q b) g (.stx z m d b) (some q) none ∧
      Queues (.vbitsLd g v q r) g (.bitsLd v) (some q) (some r) ∧ Queues (.vbitsSt g v q r) g (.bitsSt v) (some q) (some r)) ∧
    ∀ e h : Fin 4,
      Queues (.vmand g v e h) g (.mand v e h) none none ∧ Queues (.vmor g v e h) g (.mor v e h) none none ∧
      Queues (.vmxor g v e h) g (.mxor v e h) none none ∧ Queues (.vmnot g v e) g (.mnot v e) none none ∧
      Queues (.vmset g v q) g (.mset v) (some q) none

/-- R35, R188: instructions that wait for the SVU, ask after it, or move a mask. -/
def Obligations.VectorControlResults : Prop :=
  ∀ (g : Guard) (t : LType) (k : Fin 4) (d : Reg) (a : Fin 8) (s s1 : State), Strand g s →
    (s.cur.svuQ = [] →
      exec (.vfence g) s = .next (s.openChunk.retire none) ∧
      exec (.vrel g) s = .next ((s.openChunk.modCur fun x =>
        { x with vec := Vec.zero, ctx := { x.ctx with pinv := false, pinq := false } }).retire none) ∧
      (Writes d 0 s.openChunk s1 → exec (.vbusy g d) s = .next (s1.retire none)) ∧
      (Writes d (wordN (s.cur.vec.vm[k]).toNat) s.openChunk s1 → exec (.vmget g d k) s = .next (s1.retire none)) ∧
      (∀ v z, s.cur.ctx.gang = false → z = s.cur.ctx.tmode.getLsbD 0 → v = vimaxsOf t z [s.cur.vec.pair a] →
        Writes d v (((s.openChunk.normalised (vimaxsSub t z (s.cur.vec.pair a))).raised (vimaxsFlags t [s.cur.vec.pair a])).putPred 7
          (v.toNat % 2 ^ 32 == 0xFFFFFFFF)) s1 →
        exec (.vimaxs g t d a) s = .next (s1.retire none))) ∧
    (s.cur.svuQ ≠ [] →
      Waits (.vfence g) s .svu ∧ Waits (.vrel g) s .svu ∧
      (Writes d 1 s.openChunk s1 → exec (.vbusy g d) s = .next (s1.retire none)) ∧
      Waits (.vmget g d k) s .svu ∧ Waits (.vimaxs g t d a) s .svu)

/-- R179 to R188, R317: the oldest command of a slot's queue completes, lane by lane under its write mask or over all lanes; one that meets
a fault discards its chunk, and one that meets a page whose home is being switched stays where it is (R49; log 72); what the integer functions, the selections, the masks and the sums do. -/
def Obligations.VectorCommandsComplete : Prop :=
  (∀ (c k : Nat) (s : State) (x : Slot) (h : SvuCmd) (l : List SvuCmd), x = s.slotAt c k → x.svuQ = h :: l →
    (∀ b n t a, x.wait ≠ some (.vimaxs b n t a)) → s.svuNext c k h = true →
    (h.op.isMem = false → h.op.isCross = false → h.subnormalVecs x.vec = 0 →
      ∃ t, exec (.svuComplete c k) s = .next t ∧ (t.slotAt c k).svuQ = l ∧ (t.slotAt c k).vec = (h.local x.vec).1 ∧
        (t.slotAt c k).ctx = { x.ctx with tmode := x.ctx.tmode ||| ((h.local x.vec).2 &&& flAll) } ∧ t.mem = s.mem) ∧
    (h.op.isCross = true → h.gang = none → h.subnormalVecs x.vec = 0 →
      ∃ t, exec (.svuComplete c k) s = .next t ∧ (t.slotAt c k).svuQ = l ∧
        (t.slotAt c k).vec = (h.cross 0 [h.brings x.vec] x.vec).1 ∧ t.mem = s.mem) ∧
    (h.op.isMem = true →
      (∀ u, (svuRun h).run { s with core := c, slot := k } = .ok ((), u) →
        exec (.svuComplete c k) s = .next (u.svuPop c k 0)) ∧
      (∀ e, (∀ v l, e ≠ .wait (.home v) l) → (svuRun h).run { s with core := c, slot := k } = .error e →
        exec (.svuComplete c k) s = .next (s.discardChunk c k true)) ∧
      ∀ v l, (svuRun h).run { s with core := c, slot := k } = .error (.wait (.home v) l) → exec (.svuComplete c k) s = .next s)) ∧
  (∀ (f : VBin) (t : LType) (m e p : Fin 4) (d a b : Fin 8) (h : SvuCmd) (v : Vec) (i : Fin 16), t ≠ .f32 →
    (h.op = .bin f t m d a (.vec b) →
      (h.local v).1.lane d i = (if m ≠ 0 ∧ v.vm[m].getLsbD i.val = false then v.lane d i else
        match f with
        | .add => v.lane a i + v.lane b i
        | .sub => v.lane a i - v.lane b i
        | .mul => v.lane a i * v.lane b i
        | .fma => v.lane a i * v.lane b i + v.lane d i
        | .min => if (if t = .i32 then (v.lane a i).slt (v.lane b i) else (v.lane a i).ult (v.lane b i)) then v.lane a i else v.lane b i
        | .max => if (if t = .i32 then (v.lane a i).slt (v.lane b i) else (v.lane a i).ult (v.lane b i)) then v.lane b i else v.lane a i
        | .and => v.lane a i &&& v.lane b i
        | .or => v.lane a i ||| v.lane b i
        | .xor => v.lane a i ^^^ v.lane b i
        | .shl => v.lane a i <<< ((v.lane b i).toNat % 32)
        | .shr => if t = .i32 then (v.lane a i).sshiftRight ((v.lane b i).toNat % 32)
            else v.lane a i >>> ((v.lane b i).toNat % 32)) ∧
      (∀ r, r ≠ d → (h.local v).1.lane r i = v.lane r i) ∧ (h.local v).1.vm = v.vm ∧ (h.local v).2 = 0) ∧
    (h.op = .bin .add t m d a .scalar → m = 0 → (h.local v).1.lane d i = v.lane a i + h.y.setWidth 32) ∧
    (h.op = .sel m d a (.vec b) → (h.local v).1.lane d i = if v.vm[m].getLsbD i.val then v.lane a i else v.lane b i) ∧
    (∀ c, h.op = .cmp t c e a (.vec b) → (h.local v).1.v = v.v ∧ ((h.local v).1.vm[e]).getLsbD i.val = (match c.val with
      | 0 => v.lane a i == v.lane b i
      | 1 => v.lane a i != v.lane b i
      | 2 => if t = .i32 then (v.lane a i).slt (v.lane b i) else (v.lane a i).ult (v.lane b i)
      | _ => !(if t = .i32 then (v.lane a i).slt (v.lane b i) else (v.lane a i).ult (v.lane b i)))) ∧
    (h.op = .splat m d → (h.local v).1.lane d i =
      if m ≠ 0 ∧ v.vm[m].getLsbD i.val = false then v.lane d i else h.y.setWidth 32) ∧
    (h.op = .mand e m p → (h.local v).1.vm[e] = v.vm[m] &&& v.vm[p] ∧ (h.local v).1.v = v.v) ∧
    (h.op = .mor e m p → (h.local v).1.vm[e] = v.vm[m] ||| v.vm[p]) ∧
    (h.op = .mxor e m p → (h.local v).1.vm[e] = v.vm[m] ^^^ v.vm[p]) ∧
    (h.op = .mnot e m → (h.local v).1.vm[e] = ~~~v.vm[m]) ∧
    (h.op = .mset e → (h.local v).1.vm[e] = h.x.setWidth 16) ∧
    (h.op = .red false t m d a → (h.cross 0 [h.brings v] v).1.lane d i =
      (List.finRange 16).foldl (fun n j => n + if m ≠ 0 ∧ v.vm[m].getLsbD j.val = false then 0 else v.lane a j) 0) ∧
    (h.op = .scan t d a → (h.cross 0 [h.brings v] v).1.lane d i =
      ((List.finRange 16).take (i.val + 1)).foldl (fun n j => n + v.lane a j) 0) ∧
    (h.op = .perm 0 d a (.vec b) → (h.cross 0 [h.brings v] v).1.lane d i =
      v.lane a ⟨(v.lane b i).toNat % 16, by omega⟩) ∧
    (h.op = .bcast 0 d a (.vec b) → (h.cross 0 [h.brings v] v).1.lane d i =
      v.lane a ⟨(v.lane b 0).toNat % 16, by omega⟩))

/-! ### Events of cores -/

/-- R37, R38, R346: a chunk's commit performs what it holds and marks the chunks that touched its lines; a chunk that conflicts, or would
write part of a unit that has become poisoned, is discarded; one that has not ended stays; the homes grant a locked chunk its lines, a gang's
follower's once no discard of its leader can undo it (log 108). -/
def Obligations.CommitTakesEffect : Prop :=
  ∀ (c k : Nat) (s : State) (x : Slot), c < 512 → k < 16 → x = s.slotAt c k →
    (x.chunk.isOpen = true → x.chunk.ended = true → s.fate c k = .free → s.NoOwner c k → s.flaws = [] →
      (∀ h ∈ x.chunk.held, ∃ sa va b a, h = .store sa va b a ∧ 2 ^ 56 ≤ va) →
      ∃ t, exec (.chunkCommit c k) s = .next t ∧ t.mem = x.chunk.held.foldl Held.onMem s.mem ∧
        (t.slotAt c k).chunk = Chunk.none ∧ (t.slotAt c k).ctx.gpr = x.ctx.gpr ∧ (t.slotAt c k).ctx.pc = x.ctx.pc ∧
        (t.slotAt c k).reserved = [] ∧
        ∀ d j l, 16 * d + j ≠ 16 * c + k → l ∈ x.chunk.writes → (s.slotAt d j).chunk.isOpen = true →
          l ∈ (s.slotAt d j).chunk.reads ∨ l ∈ (s.slotAt d j).chunk.writes → (t.slotAt d j).chunk.conflict = true) ∧
    (x.chunk.isOpen = true → x.chunk.conflict = true ∨ (∃ h ∈ x.chunk.held, s.spoils h = true) → x.formedBy ≠ some (16 * c + k) →
      ∃ t, exec (.chunkCommit c k) s = .next t ∧ t.mem = s.mem ∧
        (x.chunk.freed = false ∨ x.chunk.snapCtx.leader = false → (t.slotAt c k).ctx = x.chunk.snapCtx) ∧
        (t.slotAt c k).ctx.gpr = x.chunk.snapCtx.gpr ∧ (t.slotAt c k).ctx.pc = x.chunk.snapCtx.pc ∧
        (t.slotAt c k).vec = x.chunk.snapVec ∧ (t.slotAt c k).chunk = Chunk.none ∧
        (x.discardPc = x.chunk.snapCtx.pc → x.discards = 3 → 0 < (t.slotAt c k).lockLeft)) ∧
    (x.chunk.isOpen = true → x.chunk.ended = false → x.chunk.conflict = false → (∀ h ∈ x.chunk.held, s.spoils h = false) →
      exec (.chunkCommit c k) s = .next s) ∧
    (∀ l, x.wait = some (.lock l) → s.awaits c k = none → (∀ e ∈ s.slots, e.1 ≠ 16 * c + k → (∀ n ∈ e.2.reserved, n ∉ l) ∧
        ∀ m, e.2.wait = some (.lock m) → ∀ n ∈ m, n ∉ l) →
      ∃ t, exec (.lockedReservation c k) s = .next t ∧ t.slotAt c k = { x with wait := none, reserved := l } ∧ t.mem = s.mem)

/-- R23, R31, R49, R50, R52, R53, R101, R102, R355: dictionaries, stealing, arrivals, remote accesses and page walks. An access waits while
its page's home is being switched (log 72), and a peer's answer while its link does not pass traffic. -/
def Obligations.CoreEventsTakeEffect : Prop :=
  (∀ (i : BitVec 10) (s : State) (l : Launch) (w : List (BitVec 32)), s.isCtrl = false → s.launchOf s.cur.ctx = some l →
    i.toNat < l.dcnt →
    ((s.coreAt s.core).dicts.find? (fun d => d.1 == l.num) = some (l.num, w) →
      (w.getD i.toNat 0).toNat % 64 ≠ 0x3E →
      ∃ t, exec (.dictionaryCode i) s = .next t ∧ t.cur.dictWord = some (w.getD i.toNat 0) ∧ t.cur.ctx = s.cur.ctx) ∧
    ((s.coreAt s.core).dicts.find? (fun d => d.1 == l.num) = none →
      ∃ t, exec (.dictionaryCode i) s = .next t ∧ t.cur.wait = some .dictionary ∧ t.cur.ctx = s.cur.ctx)) ∧
  ∀ (c k : Nat) (s : State) (x : Slot), c < 512 → k < 16 → x = s.slotAt c k →
    (∀ l w u, s.launchOf x.ctx = some l → x.wait = some .dictionary →
      s.dictWords c (x.ctx.tdom.toNat % 4096) x.ctx.pc.toNat l.dcnt l.dict = (.inr w, u) →
      ∃ t, exec (.dictionaryLoad c k) s = .next t ∧ (t.coreAt c).dicts.head? = some (l.num, w) ∧
        (t.coreAt c).dicts.length ≤ 2 ∧ (t.slotAt c k).wait = none) ∧
    (∀ y, s.idleSlot c k = true → s.staying c = true → (s.coreAt c).arrivals = [] → s.manualCore c = false →
      (∀ p ∈ (s.coreAt c).parkStore, p.own = none → p.slot.ctx.parked = true) →
      (s.coreAt c).deque.getLast? = some y → (∀ o, (s.coreAt c).owner = some o → y.isOf o.1 o.2.1 = true) →
      ∃ t, exec (.steal c k) s = .next t ∧ (t.slotAt c k).occ = .running ∧ (t.slotAt c k).ctx = s.seatCtx c y ∧
        (t.coreAt c).deque = (s.coreAt c).deque.dropLast) ∧
    (∀ a l, (s.coreAt c).arrivals = a :: l → s.idleSlot c k = true → (∀ j, j < k → s.idleSlot c j = false) →
      ∃ t, exec (.strandArrival c) s = .next t ∧ (t.coreAt c).arrivals = l ∧ (t.slotAt c k).occ = .running ∧
        (t.slotAt c k).ctx = s.seatCtx c a.ctx ∧ (t.slotAt c k).predH = a.predH ∧ (t.slotAt c k).predN = a.predN) ∧
    (∀ r, x.wait = some (.request r) →
      (∀ h sa, s.reachOf x.ctx c r.va = .window h sa →
        ∃ t, exec (.remoteWordAccess c k) s = .next t ∧ t.slotAt c k = { x with wait := some (.reply (.ok r.va sa)) }) ∧
      (∀ n, s.reachOf x.ctx c r.va = .bad n →
        ∃ t, exec (.remoteWordAccess c k) s = .next t ∧
          t.slotAt c k = { x with wait := some (.reply (.fault 4 n (wordN r.va))) }) ∧
      (s.reachOf x.ctx c r.va = .space → s.switches r.va = true →
        ∃ t, exec (.remoteWordAccess c k) s = .next t ∧ t.slotAt c k = x) ∧
      (∀ u sa, s.reachOf x.ctx c r.va = .space → s.switches r.va = false →
        s.resolve (s.homeOf r.va) (x.ctx.tdom.toNat % 4096) r.need r.va false = (.ok sa, u) →
        ∃ t, exec (.remoteWordAccess c k) s = .next t ∧ t.slotAt c k = { u.slotAt c k with wait := some (.reply (.ok r.va sa)) })) ∧
    (∀ r v, x.wait = some (.reply r) →
      ∃ t, exec (.remoteReply c k v) s = .next t ∧ t.slotAt c k = { x with wait := none, replies := x.replies ++ [r] } ∧
        t.mem = s.mem) ∧
    (∀ d r v, x.wait = some (.peer d r) →
      (s.linkStalled d = true → exec (.remoteReply c k v) s = .next s) ∧
      (s.linkStalled d = false → ∃ t, exec (.remoteReply c k v) s = .next t ∧ t.slotAt c k = { x with
        wait := none
        replies := x.replies ++ [match v with | .value w => .peer r.va w | .fault n i => .fault n i (wordN r.va)] })) ∧
    (∀ va d r e, x.wait = some (.walk va d r) → s.walking c k = true → s.flaws = [] → s.walk va = .leaf e →
      ∃ t, exec (.translationWalk c k) s = .next t ∧ t.slotAt c k = { x with wait := r.map Wait.request } ∧
        e ∈ (t.dieAt d).tc) ∧
    (∀ va e, x.wait = some (.fetch va) → s.walking c k = true → s.flaws = [] → s.walk va = .leaf e →
      ∃ t, exec (.translationWalk c k) s = .next t ∧ t.slotAt c k = { x with wait := none } ∧ e ∈ (t.dieAt (dieOf c)).tc)

/-- R77, R78, R333: service of an absent page by the device, a page move, and the end of a migration epoch. A move waits while a home is
being switched (DESIGN CHOICE, log 72). -/
def Obligations.PageEventsTakeEffect : Prop :=
  (∀ (s : State) (f : PageFault) (ea e lo c k : Nat), f ∈ s.faults → f.posted = false → (∀ g ∈ s.faults, g.va = f.va → g = f) →
    s.entryOf f.va = some (ea, e, lo) → e % 2 = 0 → s.NoneStored → k < 16 → s.flaws = [] →
    ∃ t, exec (.pageService f.va) s = .next t ∧ t.mem = s.mem.writeNat ea 8 (e + 1) ∧ f ∉ t.faults ∧
      ∀ va, (s.slotAt c k).wait = some (.page va) → (s.slotAt c k).ctx.parked = true → f.covers va = true →
        (t.slotAt c k).wait = none ∧ (t.slotAt c k).ctx = { (s.slotAt c k).ctx with parked := false }) ∧
  (∀ (va d : Nat) (s : State), (∃ t, exec (.pageService va) s = .next t) ∧ (∃ t, exec (.pageMigration d) s = .next t) ∧
    (s.switching ≠ none → exec (.pageMigration d) s = .next s) ∧ ∃ t, exec (.migrationEpoch d) s = .next t) ∧
  (∀ (d n : Nat) (s w : State) (m : Mig) (l : List Mig), s.migs = m :: l → m.die = d → m ∉ l → w = { s with migs := l } →
    n = (if m.either && (w.freeHead m.stack).isNone then m.stack + 1 else m.stack) →
    s.switching = none →
    (w.canMove m.va n = none →
      ∃ t, exec (.pageMigration d) s = .next t ∧ t.migs = l ∧ t.mem = s.mem ∧
        (m.asked = true → t.regs.migBusy = false ∧ t.regs.migFail = true)) ∧
    (∀ old new u, w.canMove m.va n = some old → w.takeFrame n = some (new, u) →
      ∃ t, exec (.pageMigration d) s = .next t ∧ t.mem = ((u.movePage m.va old new).giveFrame old).mem ∧
        (m.asked = true → t.regs.migBusy = false ∧ t.regs.migFail = false))) ∧
  ∀ (d : Nat) (s : State),
    (s.regs.dmode.toNat.testBit 4 = false →
      ∃ t l, exec (.migrationEpoch d) s = .next t ∧ t.migs = s.migs ++ l ∧ l.length ≤ bitsOf s.regs.migctl.toNat 15 8 ∧
        (∀ m ∈ l, m.asked = false ∧ m.either = true ∧ ∃ e ∈ (s.dieAt d).hot, e.va = some m.va ∧ m.stack = 2 * e.top ∧ e.top ≠ d ∧
          bitsOf s.regs.migctl.toNat 31 16 ≤ e.count e.top ∧ 2 * e.count d ≤ e.count e.top ∧
          s.smallFrame m.va = some (e.frame * 2 ^ 15)) ∧
        (t.dieAt d).hot = ((s.dieAt d).hot.map fun e => { e with counts := e.counts.map (· / 2) }).filter fun e =>
          e.counts.toList.any (0 < ·)) ∧
    (s.regs.dmode.toNat.testBit 4 = true → ∃ t, exec (.migrationEpoch d) s = .next t ∧ t.migs = s.migs)

/-! ### System software -/

/-- R7, R8, R19, R43, R44, R47, R49, R53, R54, R78, R249, R271, R280, R289, R290, R292, R328, R334: writes of the register window. A write
of 0 to ATTCTL's GO while it is 1 leaves it 1 and takes the address (DEDUCED, log 76). -/
def Obligations.WindowWritesTakeEffect : Prop :=
  ∀ (s : State) (v : Word), s.Quiet →
    (∃ t, exec (.dmodeWrite (v.setWidth 32)) s = .next t ∧ t.regs.dmode = (v.setWidth 32 : BitVec 32) &&& 0x3F) ∧
    (∃ t, exec (.ptrootWrite v) s = .next t ∧ t.regs.ptroot = wordN (bitsOf v.toNat 39 8 * 2 ^ 8) ∧ ∀ d, (t.dieAt d).tc = []) ∧
    (∃ t, exec (.drtbaseWrite v) s = .next t ∧ t.regs.drtbase = wordN (bitsOf v.toNat 39 24 * 2 ^ 24) ∧
      ∀ c, (t.coreAt c).plb = []) ∧
    (∃ t, exec (.plbflush v) s = .next t ∧ t.regs = s.regs ∧ ∀ c, (t.coreAt c).plb = []) ∧
    (∃ t, exec (.tcinv v) s = .next t ∧ t.regs.tcinvBusy = true ∧
      ∀ d, ∀ x ∈ (t.dieAt d).tc, x.covers (bitsOf v.toNat 63 15 * 2 ^ 15) = false) ∧
    (∀ (i : Nat) (w : BitVec 16), i < 4096 →
      (s.regs.tcinvBusy = false → ∃ t, exec (.hometabWrite i w) s = .next t ∧ t.regs.tcinvBusy = true ∧
        t.regs.hometab.get 0x8000 i = w &&& 0x81FF ∧
        ∀ j, j ≠ i → t.regs.hometab.get 0x8000 j = s.regs.hometab.get 0x8000 j) ∧
      (s.regs.tcinvBusy = true → ∃ t, exec (.hometabWrite i w) s = .next t ∧ t.regs = s.regs ∧ t.windowQ.length = 1)) ∧
    (s.regs.tcinvBusy = true → ∃ t, exec .invalidationComplete s = .next t ∧ t.regs = { s.regs with tcinvBusy := false }) ∧
    (s.regs.migBusy = false →
      ((s.canMove (bitsOf v.toNat 63 15 * 2 ^ 15) (bitsOf v.toNat 5 2)) = none →
        ∃ t, exec (.migreq v) s = .next t ∧ t.regs.migFail = true ∧ t.regs.migBusy = false ∧ t.migs = s.migs) ∧
      (∀ f, (s.canMove (bitsOf v.toNat 63 15 * 2 ^ 15) (bitsOf v.toNat 5 2)) = some f →
        ∃ t, exec (.migreq v) s = .next t ∧ t.regs.migFail = false ∧ t.regs.migBusy = true ∧
          t.migs = s.migs ++
            [{ va := bitsOf v.toNat 63 15 * 2 ^ 15, stack := bitsOf v.toNat 5 2, die := f / 2 ^ 37, asked := true, either := false }])) ∧
    (∀ q, q < 64 →
      (∃ t, exec (.lqwidxWrite q v) s = .next t ∧ t.regs.lqwidx.get 0 q = v.setWidth 32) ∧
      (∃ t, exec (.lqctlWrite q v) s = .next t ∧
        t.regs.lqctl.get 0 q = wordN (bitsOf v.toNat 27 16 * 2 ^ 16 + bitsOf v.toNat 3 0)) ∧
      (∃ t, exec (.registerWrite (0x10000 + 0x40 * q) v) s = .next t ∧
        t.regs.lqbase.get 0 q = wordN (bitsOf v.toNat 63 12 * 2 ^ 12 + bitsOf v.toNat 4 0))) ∧
    (∀ p, p < 2 → ∃ t, exec (.lqnextWrite p v) s = .next t ∧ t.regs.lqnext.get 0 p = v.setWidth 7) ∧
    (∀ k, k < 64 →
      (∃ t, exec (.cspreWrite k v) s = .next t ∧ (t.clusterAt k).held = v.setWidth 8) ∧
      (bitsOf v.toNat 7 4 ≤ 8 → bitsOf v.toNat 15 12 ≤ 8 → bitsOf v.toNat 23 20 ≤ 8 → v.toNat.testBit 32 = true →
        ∃ t, exec (.omcfgWrite k v) s = .next t ∧ (t.clusterAt k).omcfg = wordN (v.toNat % 2 ^ 24) ∧
          (t.clusterAt k).omstat.toNat.testBit 48 = false ∧ (t.clusterAt k).omstat.toNat % 2 ^ 32 = 0) ∧
      (∃ t, exec (.registerWrite (0x11000 + 0x40 * k) v) s = .next t ∧ (t.clusterAt k).slice = v.setWidth 32)) ∧
    (∃ t, exec (.hwake v) s = .next t ∧
      t.wakes = s.wakes ++ [{ id := v.setWidth 32, launch := some (BitVec.ofNat 16 (bitsOf v.toNat 47 32)) }]) ∧
    (∃ t, exec (.meqidxWrite v) s = .next t ∧ t.regs.meqRidx = BitVec.ofNat 32 (v.toNat / 2 ^ 32)) ∧
    (∃ t, exec (.meqbaseWrite v) s = .next t ∧
      t.regs.meqbase = wordN (bitsOf v.toNat 63 15 * 2 ^ 15 + bitsOf v.toNat 6 0)) ∧
    ((∀ r ∈ s.meqOpen, r.seq ≠ v.toNat % 2 ^ 32) →
      ∃ t, exec (.meqAnswer v) s = .next t ∧ t.regs = s.regs ∧ t.meqOpen = s.meqOpen ∧ t.slots = s.slots) ∧
    (∀ r c k, s.meqOpen = [r] → r.kind = 7 → r.seq = v.toNat % 2 ^ 32 → bitsOf v.toNat 35 32 = 1 → k < 16 →
      (s.slotAt c k).ctx.parked = true → (s.slotAt c k).wait = some .verdict →
      r.arg0 = wordN (s.slotAt c k).ctx.strandId.toNat →
      ∃ t, exec (.meqAnswer v) s = .next t ∧ t.meqOpen = [] ∧ t.slotAt c k = (s.slotAt c k).woken) ∧
    (∃ t, exec (.attctlGo v) s = .next t ∧
      t.regs.attctl = wordN (bitsOf v.toNat 63 8 * 2 ^ 8 + (if v.toNat.testBit 0 ∨ s.regs.attctl.toNat.testBit 0 then 1 else 0))) ∧
    (∃ t, exec (.registerWrite 0x160 v) s = .next t ∧ t.regs.meqans0 = v) ∧
    (∃ t, exec (.registerWrite 0x128 v) s = .next t ∧ t.regs.mcbase = wordN (bitsOf v.toNat 63 15 * 2 ^ 15)) ∧
    (bitsOf v.toNat 3 0 ≤ 8 → ∃ t, exec (.registerWrite 0x1A0 v) s = .next t ∧ t.regs.kvpol = wordN (bitsOf v.toNat 3 0))

/-- R19, R20, R271 to R277: packets, dealing, and a launch's completion. The piece that one event of a COPY moves, up to a 128-byte boundary
or the distance between the areas, is DEDUCED from R276 (log 85); that a parser deals the oldest launch with a block left, R277 ranking no
launches, is the model's choice (DESIGN CHOICE, log 40). -/
def Obligations.PacketsTakeEffect : Prop :=
  (∀ (q : Nat) (s u : State),
    (∀ l, Head q s (.launch l) u → ∃ t, exec (.launchPacket q) s = .next t ∧ t.launches = u.launches ++ [l] ∧
      t.launchSeq = (u.launchSeq + 1) % 2 ^ 16 ∧ (∃ p ∈ t.packets, p.queue = q ∧ p.launch = some l.num)) ∧
    (∀ (l : List (Nat × Nat × Nat)) (v : List Byte → State), Head q s (.fence l) u →
      (∀ b x, x = (u.startedPkt q).setPkt (Packet.begun q b) → x.fencePass (x.lqDom q) l = (true, v b)) →
      ∃ t b, exec (.fencePacket q) s = .next t ∧ t.regs.lqridx.get 0 q = (v b).regs.lqridx.get 0 q + 1 ∧
        ∀ p ∈ t.packets, p.queue ≠ q) ∧
    (∀ p l v, s.pktIn q = some p → pktOf p.bytes q 0 0 = .ok (.fence l) → s.fencePass (s.lqDom q) l = (true, v) →
      ∃ t, exec (.fencePacketRecheck q) s = .next t ∧ t.regs.lqridx.get 0 q = v.regs.lqridx.get 0 q + 1 ∧
        ∀ p ∈ t.packets, p.queue ≠ q) ∧
    (∀ p add int vec idx w v, s.pktIn q = some p → p.page = none → pktOf p.bytes q 0 0 = .ok (.signal add int vec idx w) →
      s.counterAtomic (s.lqDom q) idx add w = (true, v) →
      ∃ t, exec (.signalPacket q) s = .next t ∧ t.regs.lqridx.get 0 q = v.regs.lqridx.get 0 q + 1 ∧
        (int = true → vec ∈ t.msix) ∧ ∀ p ∈ t.packets, p.queue ≠ q) ∧
    (∀ p sh dh src dst len a b k, s.pktIn q = some p → p.queue = q → p.page = none →
      pktOf p.bytes q 0 0 = .ok (.copy sh dh src dst len) → a = (src + p.done) % 2 ^ 64 → b = (dst + p.done) % 2 ^ 64 →
      k = min (min (len - p.done) (min (128 - a % 128) (128 - b % 128))) (if b = a then 128 else (b + 2 ^ 64 - a) % 2 ^ 64) →
      s.lqArb = false → s.lqDue = [] →
      (sh = true → dh = true → s.flaws = [] →
        ∃ t, exec (.copyPacket q) s = .next t ∧ t.mem = s.mem.writeN (2 ^ 64 + b) (s.mem.readN (2 ^ 64 + a) k)) ∧
      (∀ sa da u v w z l, s.copySpot sh (s.lqDom q) 1 a (peerLoads k a) = (.here sa, u) → u.parserRead (.here sa) a k = (l, v) →
        v.copySpot dh (s.lqDom q) 2 b [(b, .store l)] = (.here da, w) →
        z = w.spotPut (parserAgent q) b da l (v.poisonedIn sa k).isSome →
        ∃ t, exec (.copyPacket q) s = .next t ∧ t.mem = z.mem ∧
          (p.done + k = len → t.regs.lqridx.get 0 q = z.regs.lqridx.get 0 q + 1 ∧ ∀ x ∈ t.packets, x.queue ≠ q) ∧
          (p.done + k ≠ len → ∃ x ∈ t.packets, x.queue = q ∧ x.done = p.done + k))) ∧
    (∀ m n, Head q s (.mode m n) u → ∃ t, exec (.modePacket q) s = .next t ∧
      (∀ i, i < 6 → t.regs.dmode.getLsbD i = if m.testBit i then n.testBit i else u.regs.dmode.getLsbD i) ∧
      t.regs.lqridx.get 0 q = u.regs.lqridx.get 0 q + 1)) ∧
  (∀ (s : State) (l : Launch) (r q : List Launch), s.launches = r ++ l :: q → l.dealt < l.count →
    (∀ x ∈ r, x.queue / 32 ≠ l.queue / 32 ∨ x.count ≤ x.dealt) → (∀ x ∈ r ++ q, x.num ≠ l.num) → (∀ j, j < 64 → s.nextOn j = none) →
    (∀ k base, s.dealCluster l = some k → s.groupOn k l.cores = some base →
      (∀ i j, i < l.cores → j < 16 → (s.slotAt (base + i) j).occ = .empty) → (∀ i, i < l.cores → (s.coreAt (base + i)).deque = []) →
      ∃ t, exec (.blockDeal (l.queue / 32)) s = .next t ∧ t.launches = r ++ { l with dealt := l.dealt + 1 } :: q ∧
        (∀ i, i < l.cores → (t.coreAt (base + i)).owner = some (l.num, l.dealt, i)) ∧ (t.slotAt base 0).occ = .running ∧
        (t.slotAt base 0).ctx.gpr[0] = l.param ∧ (t.slotAt base 0).ctx.gpr[1] = wordN l.dealt ∧
        (t.slotAt base 0).ctx.gpr[2] = wordN l.count ∧ (t.slotAt base 0).ctx.pc = l.entry) ∧
    ∀ k, s.dealCluster l = none → k < 64 → l.permits k = true → (s.waitingOn k).length < 4 →
      (∀ j, j < 64 → j ≠ k → l.permits j = true → (s.waitingOn k).length < (s.waitingOn j).length ∨
        ((s.waitingOn k).length = (s.waitingOn j).length ∧ k < j)) →
      ∃ t b, exec (.blockDeal (l.queue / 32)) s = .next t ∧ t.launches = r ++ { l with dealt := l.dealt + 1 } :: q ∧
        t.blocks = s.blocks ++ [b] ∧ b.launch = l.num ∧ b.index = l.dealt ∧ b.place = .waiting k none) ∧
  ∀ (s : State) (l : Launch), s.launches = [l] → l.complete = l.count → l.doneEn = false → s.cmds = [] → s.late = [] →
    ∃ t, exec (.launchComplete l.num) s = .next t ∧ t.launches = [] ∧
      t.regs.lqridx.get 0 l.queue = s.regs.lqridx.get 0 l.queue + 1

/-- R278 to R280, R337 to R341: time slices, thresholds, swapping a block out and its return. -/
def Obligations.BlockEventsTakeEffect : Prop :=
  (∀ (s : State) (b : Block) (l : List Block) (k c : Nat), s.blocks = b :: l → b.base? = some c → clusterOf c = k →
    b.swapping = none → s.framesFor b = true →
    ((s.clusterAt k).slice ≠ 0 → s.queueOf k ≠ [] → (s.clusterAt k).cost.toNat ≤ (s.clusterAt k).slice.toNat →
      (s.clusterAt k).slice.toNat < b.run →
      ∃ t, exec (.sliceExpiry k) s = .next t ∧
        ∃ x ∈ t.blocks, x.launch = b.launch ∧ x.index = b.index ∧ x.swapping = some .slice) ∧
    (s.crosses b = true → s.swapAsked b = false → b.short = false → s.regs.dmode.toNat.testBit 1 = false →
      ∃ t, exec (.idleThreshold b.launch b.index) s = .next t ∧
        ∃ x ∈ t.blocks, x.launch = b.launch ∧ x.index = b.index ∧ x.swapping = some .threshold)) ∧
  (∀ (s : State) (b : Block) (c n : Nat) (k : SwapKind) (p : List (List Nat)), s.block? b.launch b.index = some b →
    b.base? = some c → b.swapping = some k → n = s.coresOf b → s.slots = [] → s.shipped = [] → s.cmds = [] →
    n ≤ s.freeFrames.length →
    (s.freeFrames.take n).mapM (fun i => s.framePages (s.denBase + denFrame * i) 10) = .ok p →
    ∃ t, exec (.blockSwapOut b.launch b.index) s = .next t ∧ (∀ i, i < n → (t.coreAt (c + i)).owner = none) ∧
      ∃ x ∈ t.blocks, x.launch = b.launch ∧ x.index = b.index ∧ ∃ d, x.place = .den d ∧ d.kind = k ∧ d.frames = s.freeFrames.take n) ∧
  ∀ (s : State) (b : Block) (l : Launch) (k c : Nat) (d : Den) (p : List (List Nat)), s.block? b.launch b.index = some b →
    s.launch? b.launch = some l → b.place = .waiting k (some d) → s.nextOn k = some (b, c) → s.groupClear c l.cores = true →
    s.denFits d c = true → d.frames.mapM (fun i => s.framePages (d.base + denFrame * i) 10) = .ok p →
    exec (.denReadmit b.launch b.index) s = .next (s.restoreDen b d c p)

/-- R281, R284, R292, R294: control cores start and halt, the host's accesses, attestation, and the power cap. The attestation's accesses
have domain 0, and GO is cleared though the report's address cannot be reached (PRESUMED, log 39). -/
def Obligations.OutsideEventsTakeEffect : Prop :=
  (∀ (k : Nat) (s : State), k < 64 → s.flaws = [] →
    ((s.clusterAt k).ccRun = none → s.mem.readNat (0xFF00000010000000 + 0x10000 * k + 0xBFF8) 8 ≠ 0 →
      ∃ t, exec (.controlCoreStart k) s = .next t ∧
        (t.clusterAt k).ccRun = some (s.mem.readNat (0xFF00000010000000 + 0x10000 * k + 0xBFF8) 8) ∧
        (t.slotAt (512 + k) 0).ctx.pc = wordN (s.mem.readNat (0xFF00000010000000 + 0x10000 * k + 0xBFF8) 8) ∧ t.mem = s.mem) ∧
    ((s.clusterAt k).ccHalting = true → (s.clusterAt k).ccStopped = false →
      (s.clusterAt k).ccRun = some (s.mem.readNat (0xFF00000010000000 + 0x10000 * k + 0xBFF8) 8) →
      ∃ t, exec (.controlCoreHalt k) s = .next t ∧ (t.clusterAt k).ccRun = none ∧
        t.mem.readNat (0xFF00000010000000 + 0x10000 * k + 0xBFF8) 8 = 0)) ∧
  (∀ (s : State) (o : Nat) (b : List Byte), s.hostHeld = [] → o % 8 = 0 → o < 0x1000000 →
    (∃ t, exec (.hostAccess 0 o (.load 8)) s = .next t ∧ t.hostIn = s.hostIn ++ [leBytes 8 (s.windowRead o).toNat] ∧
      t.regs = s.regs) ∧
    (b.length = 8 → exec (.hostAccess 0 o (.store b)) s = .next (({ s with hostHeld := [] } : State).hostWrite o (BitVec.allOnes 64)
      (wordN (leNat b))))) ∧
  (∀ (s : State) (va : Nat), va = bitsOf s.regs.attctl.toNat 63 8 * 2 ^ 8 → s.regs.attctl.toNat.testBit 0 = true →
    s.flaws = [] → (∀ u, s.parserSpot 0 2 va [] ≠ (.absent, u)) →
    (∀ u, s.parserSpot 0 2 ((va + 0x58F) % 2 ^ 64) [] ≠ (.absent, u)) →
    ∃ t, exec .attestationComplete s = .next t ∧ t.regs = { s.regs with attctl := wordN va }) ∧
  ∀ (w : Nat) (s : State), s.regs.pwrCap ≠ 0 → s.flaws = [] →
    exec (.powerCapTick w) s = .next { s with regs := { s.regs with pwrK :=
      (if s.regs.pwrCap < w then min (s.regs.pwrK + 1) 12
       else if 100 * w < 95 * s.regs.pwrCap then s.regs.pwrK - 1
       else s.regs.pwrK) } }

/-- R76, R286, R288, R344, R350, R354, R355: peers, links, scrubbing and corrected-error tables. What arrives by a link waits while the link
does not pass traffic. -/
def Obligations.PeerAndErrorEventsTakeEffect : Prop :=
  (∀ (s u : State) (dom : Nat) (va : Word) (op : PeerOp) (a : PeerAns), s.peerHeld = [] → op ≠ .load 0 →
    ((s.links.get LinkSt.reset (dom / 4096)).flows = false → exec (.peerRequest dom va op) s = .next s) ∧
    ((s.links.get LinkSt.reset (dom / 4096)).flows = true →
    (({ s with peerHeld := [] } : State).servePeer (dom % 4096) va.toNat op = (some a, u) →
      exec (.peerRequest dom va op) s = .next { u with peerIn := u.peerIn ++ [a] }) ∧
    (({ s with peerHeld := [] } : State).servePeer (dom % 4096) va.toNat op = (none, u) →
      exec (.peerRequest dom va op) s = .next { u with peerHeld := u.peerHeld ++ [(dom / 4096, dom % 4096, va, op)] }) ∧
    (∀ n, op = .load n → 2 ^ 56 ≤ va.toNat →
      ∃ t, exec (.peerRequest dom va op) s = .next t ∧ t.peerIn = s.peerIn ++ [.fault 4 0] ∧ t.mem = s.mem))) ∧
  (∀ (s : State) (dev h : Nat) (l : List Byte) (va : Word), s.shipped = [] → va.toNat < 2 ^ 56 → h = s.homeOf va.toNat →
    (s.coreAt h).arrivals.length < 16 → s.manualCore h = false →
    (s.linkStalled dev = true → exec (.peerStrandArrival dev l va) s = .next s) ∧
    (s.linkStalled dev = false → ∃ t, exec (.peerStrandArrival dev l va) s = .next t ∧ (t.coreAt h).arrivals = (s.coreAt h).arrivals ++
      [{ ctx := { Ctx.ofLine l with guest := true, foreign := some dev }, predH := 0, predN := 0 }])) ∧
  (∀ (s : State) (n k : Nat) (x : LinkSt), n < 18 → x = s.links.get LinkSt.reset n → x.up = true →
    (x.replays < 16 → k < 4 → ∃ t, exec (.linkRetransmit n k) s = .next t ∧
      t.links.get LinkSt.reset n = { x with replays := x.replays + 1 } ∧ t.mem = s.mem) ∧
    (x.replays < 16 → 4 ≤ k → k < 8 →
      ∃ t, exec (.linkRetransmit n k) s = .next t ∧ t.links.get LinkSt.reset n = { x with replays := 0 }) ∧
    (16 ≤ x.replays → exec (.linkRetransmit n k) s = .next s) ∧
    (16 ≤ x.replays →
      (∃ t, exec (.linkRetrain n true) s = .next t ∧ t.links.get LinkSt.reset n = { up := true, replays := 0, failed := 0 }) ∧
      (x.failed < 2 → ∃ t, exec (.linkRetrain n false) s = .next t ∧
        t.links.get LinkSt.reset n = { x with failed := x.failed + 1 }) ∧
      (2 ≤ x.failed → s.slots = [] → s.shipped = [] → ∃ u : State,
        exec (.linkRetrain n false) s = .next (u.post 9 0xFFFF (BitVec.allOnes 64) (wordN (5 * 2 ^ 32 + 6 * 2 ^ 40)) (wordN n)) ∧
        (u.links.get LinkSt.reset n).up = false ∧ u.mem = s.mem))) ∧
  (∀ (s : State) (f : Flaw) (a : Nat), s.flaws = [f] → f.kind = .corrected → f.store = 0 → f.unit = a / 128 * 128 → a < 2 ^ 40 →
    s.corrected = [] →
    ∃ t, exec (.scrubRead a) s = .next t ∧ t.flaws = [] ∧ t.poison = s.poison ∧ t.mem = s.mem ∧
      t.corrected = [{ frame := a / 2 ^ 15, count := 1, va := none, due := false, soft := s.regs.dmode.toNat.testBit 3, posted := false }] ∧
      bitsOf t.regs.errcnt.toNat 15 0 = (bitsOf s.regs.errcnt.toNat 15 0 + 1) % 2 ^ 16) ∧
  ∀ (s : State) (e : CorrEntry), e ∈ s.corrected →
    ∃ t, exec (.errorEntryExpiry (e.frame / 2 ^ 21) e.frame) s = .next t ∧ (e.due = false → e ∉ t.corrected) ∧
      (e.due = true → e ∈ t.corrected) ∧ t.mem = s.mem

/-- R291, R293: power-on, cold reset and function-level reset. That memory, scratchpads too, stays at a function-level reset is DEDUCED
(log 74); a register without a stated reset value is 0, and MEQ's numbers begin at 0 again, by the model's choice (logs 2, 23). -/
def Obligations.ResetEventsTakeEffect : Prop :=
  ∀ s : State,
    (∃ t, exec .coldReset s = .next t ∧ t.regs = Regs.reset ∧ t.slots = [] ∧ t.cores = [] ∧ t.clusters = [] ∧ t.dies = [] ∧
      t.cmds = [] ∧ t.launches = [] ∧ t.blocks = [] ∧ t.full = [] ∧ t.meqWait = [] ∧ t.meqSeq = 0) ∧
    (∃ t, exec .powerOn s = .next t ∧ t.regs.bootReady = true ∧ 1 ≤ t.regs.log.length ∧ t.regs.log.length ≤ 64 ∧ t.slots = [] ∧
      t.regs = { Regs.reset with bootReady := true, log := t.regs.log }) ∧
    (s.upds = [] → ∃ t, exec .functionLevelReset s = .next t ∧
      (s.flaws = [] → (∀ e ∈ s.keptSlots, ∀ (n : Fin 4) (st : Stream), e.2.2.streams[n] = some st → st.write = true → st.buf = []) → t.mem = s.mem) ∧
      (∀ u, u = s.keptSlots.foldl (fun v e => v.landStreams e.1 e.2.1 e.2.2) { s with cmds := [], late := [], switching := none } →
        u.upds = [] → u.flaws = [] → t.mem = u.mem) ∧
      t.launches = [] ∧ t.blocks = [] ∧ t.cmds = [] ∧
      t.meqWait = [] ∧ t.meqSeq = 0 ∧ t.regs = { Regs.reset with
        devid := s.regs.devid, lrtbase := s.regs.lrtbase, bootReady := s.regs.bootReady, log := s.regs.log } ∧
      ∀ c k, (t.slotAt c k).occ = .empty)

/-! ### The machine as a whole -/

/-- R22, R23, R34, R53, R100 to R103, R281, R294: a core's turn goes to the first eligible slot of its rotation, whose unit is read where
its translation says and decoded; the step is then what `exec` makes of the decoded instruction, and the core's cycle is counted. A
dictionary code's word runs in the same turn; an instruction that waited completes without one; an event on the agenda is carried out. -/
def Obligations.StepRunsTheDecodedInstruction : Prop :=
  (∀ (s : State) (c k : Nat) (l r : List Nat), c < 512 → s.regs.pwrK ≤ (s.coreAt c).cycle % 16 → (s.coreAt c).rot = l ++ k :: r →
    (∀ j ∈ l, s.eligible c j = false) → s.eligible c k = true →
    ∃ u, s.coreCycle c = (some k, u) ∧ u.core = c ∧ u.slot = k ∧ u.mem = s.mem ∧ u.slots = s.slots ∧
      (u.coreAt c).rot = (l ++ r).filter (fun n => n != k) ++ [k]) ∧
  (∀ (s v w : State) (pc : Word) (va sa : Nat) (x : Xlat), va < 2 ^ 56 →
    (s.icFind s.core va = none → s.tcFind (dieOf s.core) va = some (x, v) → x.peer = none →
      (v.icFill s.core x.key va (x.pa + (va - x.va))).checked s.core (s.cur.ctx.tdom.toNat % 4096) 4 x.key (x.pa + (va - x.va)) =
        (.ok sa, w) →
      s.resolveFetch s.core (s.cur.ctx.tdom.toNat % 4096) va = (.ok sa, w)) ∧
    (s.resolveFetch s.core (s.cur.ctx.tdom.toNat % 4096) va = (.ok sa, w) →
      (w.icFind s.core va = none → w.poisonedIn sa 2 = none → s.parcel pc va = (.inr (w.mem.readN sa 2), w)) ∧
      (∀ l b, w.icFind s.core va = some l → l.sector va = some b →
        ((b.drop (va % 128)).take 2 = w.mem.readN sa 2 → s.parcel pc va = (.inr (w.mem.readN sa 2), w)) ∧
        ∃ p u, s.parcel pc va = (.inr p, u) ∧ (p = (b.drop (va % 128)).take 2 ∨ p = w.mem.readN sa 2)))) ∧
  (∀ (s u : State) (c k : Nat) (ms : List Move) (x : Slot), s.agenda = .tick c :: ms →
    ({ s with agenda := ms } : State).coreCycle c = (some k, u) → x = u.cur →
    (∀ e l i t, x.isFollower = true → x.gbuf = e :: l → e.unit = .instr i → exec i (u.withUnit (.instr i)) = .next t →
      t.cur.dictWord = none → t.passes c k = false → step s = .next ((t.countCycle c (some x.ctx)).attend s)) ∧
    (∀ w i t, x.isFollower = false → x.dictWord = some w → decodeWord w = .instr i → exec i (u.withUnit (.instr i)) = .next t →
      t.passes c k = false → step s = .next ((t.countCycle c (some x.ctx)).attend s)) ∧
    (∀ p v, x.isFollower = false → x.dictWord = none → x.ctx.pc.toNat % 2 = 0 → u.parcel x.ctx.pc x.ctx.pc.toNat = (.inr p, v) →
      v.cur.dictWord = none →
      (∀ i j w t r, decodeBytes p = some (.instr i, 2) → exec i (v.withUnit (.instr i)) = .next t → t.cur.dictWord = some w →
        decodeWord w = .instr j → exec j (t.withUnit (.instr j)) = .next r → r.passes c k = false →
        step s = .next ((r.countCycle c (some x.ctx)).attend s)) ∧
      (∀ p' w i t, v.parcel x.ctx.pc (x.ctx.pc.toNat + 2) = (.inr p', w) → decodeBytes (p ++ p') = some (.instr i, 4) →
        exec i (w.withUnit (.instr i)) = .next t → t.cur.dictWord = none → t.passes c k = false →
        step s = .next ((t.countCycle c (some x.ctx)).attend s)))) ∧
  (∀ (s u t : State) (c k : Nat) (ms : List Move) (i : Instr), s.agenda = .finish c k :: ms →
    u = { s with agenda := ms, core := c, slot := k } → u.finishes c k = true → u.cur.unit = .instr i →
    exec i (u.withUnit (.instr i)) = .next t → t.cur.dictWord = none → step s = .next (t.attend s)) ∧
  (∀ (s u t : State) (k : Nat) (ms : List Move) (pc : Nat) (i : Instr), s.agenda = .ctrl k :: ms →
    u = { s with agenda := ms, core := 512 + k, slot := 0 } → u.ctrlRuns k = true → pc = u.cur.ctx.pc.toNat → pc % 2 = 0 →
    pc + 4 ≤ 0xC000 → u.flaws = [] → decodeBytes (u.mem.readN (0xFF00000010000000 + 0x10000 * k + pc) 4) = some (.instr i, 4) →
    exec i (u.withUnit (.instr i)) = .next t → step s = .next (t.attend s)) ∧
  ∀ (s t : State) (i : Instr) (ms : List Move), s.agenda = .event i :: ms → i.isEvent = true →
    exec i { s with agenda := ms } = .next t → step s = .next (t.attend s)

/-- R18, R19, R48, R78, R249, R278, R293, R336, R356: what reset leaves, as the register window shows it; memory in its one form. -/
def Obligations.ResetState : Prop :=
  State.reset.windowRead 0x1B8 = 0x04001000 ∧
  (∀ i, i < 1024 → State.reset.windowRead (0x1000 + 8 * i) = 0x8000800080008000) ∧
  (∀ k, k < 64 → State.reset.windowRead (0x8000 + 0x40 * k) = 0x00020100 ∧
    State.reset.windowRead (0x12000 + 0x40 * k) = 0x3000 ∧ State.reset.windowRead (0x11018 + 0x40 * k) = 0x0010000000000010) ∧
  (∀ o, o % 8 = 0 → o < 0x1000 ∨ 0x3000 ≤ o → o ≠ 0x1B8 →
    (∀ k, k < 64 → o ≠ 0x8000 + 0x40 * k ∧ o ≠ 0x12000 + 0x40 * k ∧ o ≠ 0x11018 + 0x40 * k) → State.reset.windowRead o = 0) ∧
  (∀ c k, (State.reset.slotAt c k).occ = .empty) ∧ (∀ c, (State.reset.coreAt c).rot = List.range 16) ∧
  State.reset.full = [] ∧ State.reset.Inv

/-- R100 to R114: the spec's worked encodings decode to the instructions it says they are, and its examples of illegal words are
illegal for the reason it gives. -/
def Obligations.SpecWordsDecode : Prop :=
  decodeWord 0x018C6000 = .instr (.add ⟨false, 0⟩ false .z .z .z) ∧
  decodeWord 0x0184E480 = .instr (.add ⟨false, 2⟩ false .nq (.m 9) .z) ∧
  decodeWord 0xFFB20C01 = .instr (.addi ⟨false, 0⟩ (.m 3) (.m 4) (-5)) ∧
  decodeWord 0x043F1805 = .instr (.shiSrl ⟨false, 0⟩ false (.m 6) .id 3) ∧
  decodeWord 0xFE0BC409 = .instr (.cmpi ⟨false, 0⟩ .set .eq true 1 (.l 1) (-1)) ∧
  decodeWord 0xD031040D = .instr (.tern ⟨false, 0⟩ 0xE8 (.m 1) (.m 2) (.m 3)) ∧
  decodeWord 0x8062900F = .instr (.div ⟨false, 0⟩ true (.m 4) (.m 5) (.m 6)) ∧
  decodeWord 0xFFFFF050 = .instr (.br ⟨false, 1⟩ (-4)) ∧
  decodeWord 0x00078012 = .instr (.jmp ⟨false, 0⟩ (.m 15)) ∧
  decodeWord 0x00308413 = .instr (.fadd ⟨false, 0⟩ .rne .f32 (.m 1) (.m 1) (.m 3)) ∧
  decodeWord 0x10731414 = .instr (.fma ⟨false, 0⟩ .rup .f32 (.m 5) (.m 6) (.m 7)) ∧
  decodeWord 0x14308817 = .instr (.cvte ⟨false, 0⟩ .rne .bf16 (.m 2) (.m 1) (.m 3)) ∧
  decodeWord 0x4008441A = .instr (.lds ⟨false, 0⟩ 1 0 (.s 1) (.s 0)) ∧
  decodeWord 0xC025069B = .instr (.st ⟨true, 2⟩ 3 2 (.m 1) (.m 10)) ∧
  decodeWord 0x8785881C = .instr (.ldx ⟨false, 0⟩ .acq false 3 (.m 2) (.m 11) .z) ∧
  decodeWord 0x0F8BE01D = .instr (.ldfeTake ⟨false, 0⟩ 3 .z (.l 1) .z) ∧
  decodeWord 0x3235081F = .instr (.atomCas ⟨false, 0⟩ .dev true (.m 2) (.m 10) (.m 3)) ∧
  decodeWord 0x30000021 = .instr (.fence ⟨false, 0⟩ .d) ∧
  decodeWord 0x02628822 = .instr (.lmove ⟨false, 0⟩ (.m 2) (.m 5) (.m 6)) ∧
  decodeWord 0x442C0824 = .instr (.xcopyFill ⟨false, 0⟩ true false false (some .c) none (.m 2) .z) ∧
  decodeWord 0x00520825 = .instr (.fork ⟨false, 0⟩ (.m 2) (.m 4) (.m 5)) ∧
  decodeWord 0x08000027 = .instr (.gang ⟨false, 0⟩ .four) ∧
  decodeWord 0x04220028 = .instr (.barwait ⟨false, 0⟩ (.m 4) (.m 2)) ∧
  decodeWord 0x00730029 = .instr (.send ⟨false, 0⟩ (.m 6) (.m 7)) ∧
  decodeWord 0x0600142A = .instr (.turn ⟨false, 0⟩ 5) ∧
  decodeWord 0x0404042B = .instr (.crd ⟨false, 0⟩ .tepc (.m 1)) ∧
  decodeWord 0x2120842C = .instr (.vcvt ⟨false, 0⟩ .f32 true .n32 0 1 1) ∧
  decodeWord 0x9D00002D = .instr (.vshlScalar ⟨false, 0⟩ .n32 0 0 0 (.s 0)) ∧
  decodeWord 0x1182002E = .instr (.vld ⟨false, 0⟩ false .b2 0 0 (.m 4) .z) ∧
  decodeWord 0x1202282F = .instr (.vimaxs ⟨false, 0⟩ .f32 (.m 10) 4) ∧
  decodeWord 0x4184A031 = .instr (.mma ⟨false, 0⟩ false true 0 none (some .k) (.m 8) (.m 9)) ∧
  decodeWord 0x302C0933 = .instr (.attn ⟨false, 4⟩ false true .sp (some .c) none (.m 2) .z) ∧
  decodeWord 0x24018834 = .instr (.kvcommit ⟨false, 0⟩ true none none (.m 2) (.m 3)) ∧
  decodeWord 0x14020835 = .instr (.rsplitHi ⟨false, 0⟩ none none (.m 2) (.m 4)) ∧
  decodeWord 0x28431436 = .instr (.rsumFix ⟨false, 0⟩ (some .d) none (.m 5) (.m 6)) ∧
  decodeWord 0x04941C37 = .instr (.uhold ⟨false, 0⟩ (.m 7) (.m 8) (.m 9)) ∧
  decodeWord 0x14028C38 = .instr (.iqget ⟨false, 0⟩ true none none (.m 3) (.m 5)) ∧
  decodeWord 0x08441C39 = .instr (.iqupd ⟨false, 0⟩ (some .d) none (.m 7) (.m 8)) ∧
  decodeBytes [0x7E, 0x01] = some (.instr (.dictionaryCode 5), 2) ∧
  (decodeWord 0x0000003A = .illegal .majorOpcode ∧ Illegal.code .majorOpcode = 0) ∧
  (∃ r, decodeWord 0x0020F800 = .illegal r ∧ r.code = 3) ∧ ∃ r, decodeWord 0xC00D0419 = .illegal r ∧ r.code = 4

/-- R100 to R114: for every instruction that has a word, at every value of its operands that the encoding admits, what decoding reads
from the encoded bytes, whatever follows them, is that instruction, and how many bytes it takes. -/
def Obligations.DecodeEncodeAgree : Prop :=
  ∀ (i : Instr) (b rest : List Byte), i.wf = true → encode i = some b → decodeBytes (b ++ rest) = some (.instr i, b.length)

/-- R100, R106, R313, R314: what the decoder reads as an instruction is well formed, and its bytes are that instruction's only ones: no
bit of them is ignored. -/
def Obligations.DecodedInstructionsAreWellFormed : Prop :=
  ∀ (b : List Byte) (i : Instr) (n : Nat), decodeBytes b = some (.instr i, n) → i.wf = true ∧ encode i = some (b.take n)

/-- Every instruction that has a word, and every event, answers a next state in every state; and so does every step, where the
instructions that slots have begun, or that gang members were handed, are ones that words can hold: the machine never stops. -/
def Obligations.TheMachineNeverStops : Prop :=
  (∀ (i : Instr) (s : State), i.wf = true → ∃ t, exec i s = .next t) ∧
  ∀ s : State, (∀ e ∈ s.slots, ∀ i, (e.2.unit = .instr i ∨ ∃ g ∈ e.2.gbuf, g.unit = .instr i) → i.wf = true) →
    ∃ t, step s = .next t

/-- R4, R37, R42: memory keeps its one form (addresses rising, no entry equal to what an unlisted address reads as) over every step,
whatever the state. -/
def Obligations.EveryStepKeepsTheInvariant : Prop :=
  ∀ s t : State, s.Inv → step s = .next t → t.Inv
end

