-- ==== Sys2Proof/Laws/State.lean ====
section
/-! SUPPORT. What each named update of the state leaves of each field: one lemma per field per update. -/

namespace Sys2Proof.Machine

variable (s : State)

/-! ### State.setSlot -/

@[simp] theorem State.setSlot_core (c k : Nat) (x : Slot) : (s.setSlot c k x).core = s.core := rfl
@[simp] theorem State.setSlot_slot (c k : Nat) (x : Slot) : (s.setSlot c k x).slot = s.slot := rfl
@[simp] theorem State.setSlot_agenda (c k : Nat) (x : Slot) : (s.setSlot c k x).agenda = s.agenda := rfl
@[simp] theorem State.setSlot_ticket (c k : Nat) (x : Slot) : (s.setSlot c k x).ticket = s.ticket := rfl
@[simp] theorem State.setSlot_free (c k : Nat) (x : Slot) : (s.setSlot c k x).free = s.free := rfl
@[simp] theorem State.setSlot_cmdSeq (c k : Nat) (x : Slot) : (s.setSlot c k x).cmdSeq = s.cmdSeq := rfl
@[simp] theorem State.setSlot_mem (c k : Nat) (x : Slot) : (s.setSlot c k x).mem = s.mem := rfl
@[simp] theorem State.setSlot_full (c k : Nat) (x : Slot) : (s.setSlot c k x).full = s.full := rfl
@[simp] theorem State.setSlot_cores (c k : Nat) (x : Slot) : (s.setSlot c k x).cores = s.cores := rfl
@[simp] theorem State.setSlot_clusters (c k : Nat) (x : Slot) : (s.setSlot c k x).clusters = s.clusters := rfl
@[simp] theorem State.setSlot_dies (c k : Nat) (x : Slot) : (s.setSlot c k x).dies = s.dies := rfl
@[simp] theorem State.setSlot_cmds (c k : Nat) (x : Slot) : (s.setSlot c k x).cmds = s.cmds := rfl
@[simp] theorem State.setSlot_late (c k : Nat) (x : Slot) : (s.setSlot c k x).late = s.late := rfl
@[simp] theorem State.setSlot_upds (c k : Nat) (x : Slot) : (s.setSlot c k x).upds = s.upds := rfl
@[simp] theorem State.setSlot_regs (c k : Nat) (x : Slot) : (s.setSlot c k x).regs = s.regs := rfl
@[simp] theorem State.setSlot_launchSeq (c k : Nat) (x : Slot) : (s.setSlot c k x).launchSeq = s.launchSeq := rfl
@[simp] theorem State.setSlot_strandSeq (c k : Nat) (x : Slot) : (s.setSlot c k x).strandSeq = s.strandSeq := rfl
@[simp] theorem State.setSlot_launches (c k : Nat) (x : Slot) : (s.setSlot c k x).launches = s.launches := rfl
@[simp] theorem State.setSlot_blocks (c k : Nat) (x : Slot) : (s.setSlot c k x).blocks = s.blocks := rfl
@[simp] theorem State.setSlot_lastQueue (c k : Nat) (x : Slot) : (s.setSlot c k x).lastQueue = s.lastQueue := rfl
@[simp] theorem State.setSlot_packets (c k : Nat) (x : Slot) : (s.setSlot c k x).packets = s.packets := rfl
@[simp] theorem State.setSlot_lqFresh (c k : Nat) (x : Slot) : (s.setSlot c k x).lqFresh = s.lqFresh := rfl
@[simp] theorem State.setSlot_lqAsked (c k : Nat) (x : Slot) : (s.setSlot c k x).lqAsked = s.lqAsked := rfl
@[simp] theorem State.setSlot_lqDue (c k : Nat) (x : Slot) : (s.setSlot c k x).lqDue = s.lqDue := rfl
@[simp] theorem State.setSlot_faults (c k : Nat) (x : Slot) : (s.setSlot c k x).faults = s.faults := rfl
@[simp] theorem State.setSlot_migs (c k : Nat) (x : Slot) : (s.setSlot c k x).migs = s.migs := rfl
@[simp] theorem State.setSlot_wakes (c k : Nat) (x : Slot) : (s.setSlot c k x).wakes = s.wakes := rfl
@[simp] theorem State.setSlot_meqWait (c k : Nat) (x : Slot) : (s.setSlot c k x).meqWait = s.meqWait := rfl
@[simp] theorem State.setSlot_meqOpen (c k : Nat) (x : Slot) : (s.setSlot c k x).meqOpen = s.meqOpen := rfl
@[simp] theorem State.setSlot_meqPend (c k : Nat) (x : Slot) : (s.setSlot c k x).meqPend = s.meqPend := rfl
@[simp] theorem State.setSlot_meqSeq (c k : Nat) (x : Slot) : (s.setSlot c k x).meqSeq = s.meqSeq := rfl
@[simp] theorem State.setSlot_msix (c k : Nat) (x : Slot) : (s.setSlot c k x).msix = s.msix := rfl
@[simp] theorem State.setSlot_hostIn (c k : Nat) (x : Slot) : (s.setSlot c k x).hostIn = s.hostIn := rfl
@[simp] theorem State.setSlot_peerIn (c k : Nat) (x : Slot) : (s.setSlot c k x).peerIn = s.peerIn := rfl
@[simp] theorem State.setSlot_hostHeld (c k : Nat) (x : Slot) : (s.setSlot c k x).hostHeld = s.hostHeld := rfl
@[simp] theorem State.setSlot_peerHeld (c k : Nat) (x : Slot) : (s.setSlot c k x).peerHeld = s.peerHeld := rfl
@[simp] theorem State.setSlot_peerOut (c k : Nat) (x : Slot) : (s.setSlot c k x).peerOut = s.peerOut := rfl
@[simp] theorem State.setSlot_poison (c k : Nat) (x : Slot) : (s.setSlot c k x).poison = s.poison := rfl
@[simp] theorem State.setSlot_poisonStore (c k : Nat) (x : Slot) : (s.setSlot c k x).poisonStore = s.poisonStore := rfl
@[simp] theorem State.setSlot_covering (c k : Nat) (x : Slot) : (s.setSlot c k x).covering = s.covering := rfl
@[simp] theorem State.setSlot_flaws (c k : Nat) (x : Slot) : (s.setSlot c k x).flaws = s.flaws := rfl
@[simp] theorem State.setSlot_corrected (c k : Nat) (x : Slot) : (s.setSlot c k x).corrected = s.corrected := rfl
@[simp] theorem State.setSlot_retired (c k : Nat) (x : Slot) : (s.setSlot c k x).retired = s.retired := rfl
@[simp] theorem State.setSlot_tolerant (c k : Nat) (x : Slot) : (s.setSlot c k x).tolerant = s.tolerant := rfl
@[simp] theorem State.setSlot_links (c k : Nat) (x : Slot) : (s.setSlot c k x).links = s.links := rfl
@[simp] theorem State.setSlot_shipped (c k : Nat) (x : Slot) : (s.setSlot c k x).shipped = s.shipped := rfl
@[simp] theorem State.setSlot_recalled (c k : Nat) (x : Slot) : (s.setSlot c k x).recalled = s.recalled := rfl
@[simp] theorem State.setSlot_foreignParked (c k : Nat) (x : Slot) : (s.setSlot c k x).foreignParked = s.foreignParked := rfl
@[simp] theorem State.setSlot_homing (c k : Nat) (x : Slot) : (s.setSlot c k x).homing = s.homing := rfl
@[simp] theorem State.setSlot_linkHeld (c k : Nat) (x : Slot) : (s.setSlot c k x).linkHeld = s.linkHeld := rfl
@[simp] theorem State.setSlot_denLost (c k : Nat) (x : Slot) : (s.setSlot c k x).denLost = s.denLost := rfl
@[simp] theorem State.setSlot_windowQ (c k : Nat) (x : Slot) : (s.setSlot c k x).windowQ = s.windowQ := rfl
@[simp] theorem State.setSlot_switching (c k : Nat) (x : Slot) : (s.setSlot c k x).switching = s.switching := rfl

/-! ### State.modSlot -/

@[simp] theorem State.modSlot_core (c k : Nat) (f : Slot → Slot) : (s.modSlot c k f).core = s.core := rfl
@[simp] theorem State.modSlot_slot (c k : Nat) (f : Slot → Slot) : (s.modSlot c k f).slot = s.slot := rfl
@[simp] theorem State.modSlot_agenda (c k : Nat) (f : Slot → Slot) : (s.modSlot c k f).agenda = s.agenda := rfl
@[simp] theorem State.modSlot_ticket (c k : Nat) (f : Slot → Slot) : (s.modSlot c k f).ticket = s.ticket := rfl
@[simp] theorem State.modSlot_free (c k : Nat) (f : Slot → Slot) : (s.modSlot c k f).free = s.free := rfl
@[simp] theorem State.modSlot_cmdSeq (c k : Nat) (f : Slot → Slot) : (s.modSlot c k f).cmdSeq = s.cmdSeq := rfl
@[simp] theorem State.modSlot_mem (c k : Nat) (f : Slot → Slot) : (s.modSlot c k f).mem = s.mem := rfl
@[simp] theorem State.modSlot_full (c k : Nat) (f : Slot → Slot) : (s.modSlot c k f).full = s.full := rfl
@[simp] theorem State.modSlot_cores (c k : Nat) (f : Slot → Slot) : (s.modSlot c k f).cores = s.cores := rfl
@[simp] theorem State.modSlot_clusters (c k : Nat) (f : Slot → Slot) : (s.modSlot c k f).clusters = s.clusters := rfl
@[simp] theorem State.modSlot_dies (c k : Nat) (f : Slot → Slot) : (s.modSlot c k f).dies = s.dies := rfl
@[simp] theorem State.modSlot_cmds (c k : Nat) (f : Slot → Slot) : (s.modSlot c k f).cmds = s.cmds := rfl
@[simp] theorem State.modSlot_late (c k : Nat) (f : Slot → Slot) : (s.modSlot c k f).late = s.late := rfl
@[simp] theorem State.modSlot_upds (c k : Nat) (f : Slot → Slot) : (s.modSlot c k f).upds = s.upds := rfl
@[simp] theorem State.modSlot_regs (c k : Nat) (f : Slot → Slot) : (s.modSlot c k f).regs = s.regs := rfl
@[simp] theorem State.modSlot_launchSeq (c k : Nat) (f : Slot → Slot) : (s.modSlot c k f).launchSeq = s.launchSeq := rfl
@[simp] theorem State.modSlot_strandSeq (c k : Nat) (f : Slot → Slot) : (s.modSlot c k f).strandSeq = s.strandSeq := rfl
@[simp] theorem State.modSlot_launches (c k : Nat) (f : Slot → Slot) : (s.modSlot c k f).launches = s.launches := rfl
@[simp] theorem State.modSlot_blocks (c k : Nat) (f : Slot → Slot) : (s.modSlot c k f).blocks = s.blocks := rfl
@[simp] theorem State.modSlot_lastQueue (c k : Nat) (f : Slot → Slot) : (s.modSlot c k f).lastQueue = s.lastQueue := rfl
@[simp] theorem State.modSlot_packets (c k : Nat) (f : Slot → Slot) : (s.modSlot c k f).packets = s.packets := rfl
@[simp] theorem State.modSlot_lqFresh (c k : Nat) (f : Slot → Slot) : (s.modSlot c k f).lqFresh = s.lqFresh := rfl
@[simp] theorem State.modSlot_lqAsked (c k : Nat) (f : Slot → Slot) : (s.modSlot c k f).lqAsked = s.lqAsked := rfl
@[simp] theorem State.modSlot_lqDue (c k : Nat) (f : Slot → Slot) : (s.modSlot c k f).lqDue = s.lqDue := rfl
@[simp] theorem State.modSlot_faults (c k : Nat) (f : Slot → Slot) : (s.modSlot c k f).faults = s.faults := rfl
@[simp] theorem State.modSlot_migs (c k : Nat) (f : Slot → Slot) : (s.modSlot c k f).migs = s.migs := rfl
@[simp] theorem State.modSlot_wakes (c k : Nat) (f : Slot → Slot) : (s.modSlot c k f).wakes = s.wakes := rfl
@[simp] theorem State.modSlot_meqWait (c k : Nat) (f : Slot → Slot) : (s.modSlot c k f).meqWait = s.meqWait := rfl
@[simp] theorem State.modSlot_meqOpen (c k : Nat) (f : Slot → Slot) : (s.modSlot c k f).meqOpen = s.meqOpen := rfl
@[simp] theorem State.modSlot_meqPend (c k : Nat) (f : Slot → Slot) : (s.modSlot c k f).meqPend = s.meqPend := rfl
@[simp] theorem State.modSlot_meqSeq (c k : Nat) (f : Slot → Slot) : (s.modSlot c k f).meqSeq = s.meqSeq := rfl
@[simp] theorem State.modSlot_msix (c k : Nat) (f : Slot → Slot) : (s.modSlot c k f).msix = s.msix := rfl
@[simp] theorem State.modSlot_hostIn (c k : Nat) (f : Slot → Slot) : (s.modSlot c k f).hostIn = s.hostIn := rfl
@[simp] theorem State.modSlot_peerIn (c k : Nat) (f : Slot → Slot) : (s.modSlot c k f).peerIn = s.peerIn := rfl
@[simp] theorem State.modSlot_hostHeld (c k : Nat) (f : Slot → Slot) : (s.modSlot c k f).hostHeld = s.hostHeld := rfl
@[simp] theorem State.modSlot_peerHeld (c k : Nat) (f : Slot → Slot) : (s.modSlot c k f).peerHeld = s.peerHeld := rfl
@[simp] theorem State.modSlot_peerOut (c k : Nat) (f : Slot → Slot) : (s.modSlot c k f).peerOut = s.peerOut := rfl
@[simp] theorem State.modSlot_poison (c k : Nat) (f : Slot → Slot) : (s.modSlot c k f).poison = s.poison := rfl
@[simp] theorem State.modSlot_poisonStore (c k : Nat) (f : Slot → Slot) : (s.modSlot c k f).poisonStore = s.poisonStore := rfl
@[simp] theorem State.modSlot_covering (c k : Nat) (f : Slot → Slot) : (s.modSlot c k f).covering = s.covering := rfl
@[simp] theorem State.modSlot_flaws (c k : Nat) (f : Slot → Slot) : (s.modSlot c k f).flaws = s.flaws := rfl
@[simp] theorem State.modSlot_corrected (c k : Nat) (f : Slot → Slot) : (s.modSlot c k f).corrected = s.corrected := rfl
@[simp] theorem State.modSlot_retired (c k : Nat) (f : Slot → Slot) : (s.modSlot c k f).retired = s.retired := rfl
@[simp] theorem State.modSlot_tolerant (c k : Nat) (f : Slot → Slot) : (s.modSlot c k f).tolerant = s.tolerant := rfl
@[simp] theorem State.modSlot_links (c k : Nat) (f : Slot → Slot) : (s.modSlot c k f).links = s.links := rfl
@[simp] theorem State.modSlot_shipped (c k : Nat) (f : Slot → Slot) : (s.modSlot c k f).shipped = s.shipped := rfl
@[simp] theorem State.modSlot_recalled (c k : Nat) (f : Slot → Slot) : (s.modSlot c k f).recalled = s.recalled := rfl
@[simp] theorem State.modSlot_foreignParked (c k : Nat) (f : Slot → Slot) : (s.modSlot c k f).foreignParked = s.foreignParked := rfl
@[simp] theorem State.modSlot_homing (c k : Nat) (f : Slot → Slot) : (s.modSlot c k f).homing = s.homing := rfl
@[simp] theorem State.modSlot_linkHeld (c k : Nat) (f : Slot → Slot) : (s.modSlot c k f).linkHeld = s.linkHeld := rfl
@[simp] theorem State.modSlot_denLost (c k : Nat) (f : Slot → Slot) : (s.modSlot c k f).denLost = s.denLost := rfl
@[simp] theorem State.modSlot_windowQ (c k : Nat) (f : Slot → Slot) : (s.modSlot c k f).windowQ = s.windowQ := rfl
@[simp] theorem State.modSlot_switching (c k : Nat) (f : Slot → Slot) : (s.modSlot c k f).switching = s.switching := rfl

/-! ### State.setCur -/

@[simp] theorem State.setCur_core (x : Slot) : (s.setCur x).core = s.core := rfl
@[simp] theorem State.setCur_slot (x : Slot) : (s.setCur x).slot = s.slot := rfl
@[simp] theorem State.setCur_agenda (x : Slot) : (s.setCur x).agenda = s.agenda := rfl
@[simp] theorem State.setCur_ticket (x : Slot) : (s.setCur x).ticket = s.ticket := rfl
@[simp] theorem State.setCur_free (x : Slot) : (s.setCur x).free = s.free := rfl
@[simp] theorem State.setCur_cmdSeq (x : Slot) : (s.setCur x).cmdSeq = s.cmdSeq := rfl
@[simp] theorem State.setCur_mem (x : Slot) : (s.setCur x).mem = s.mem := rfl
@[simp] theorem State.setCur_full (x : Slot) : (s.setCur x).full = s.full := rfl
@[simp] theorem State.setCur_cores (x : Slot) : (s.setCur x).cores = s.cores := rfl
@[simp] theorem State.setCur_clusters (x : Slot) : (s.setCur x).clusters = s.clusters := rfl
@[simp] theorem State.setCur_dies (x : Slot) : (s.setCur x).dies = s.dies := rfl
@[simp] theorem State.setCur_cmds (x : Slot) : (s.setCur x).cmds = s.cmds := rfl
@[simp] theorem State.setCur_late (x : Slot) : (s.setCur x).late = s.late := rfl
@[simp] theorem State.setCur_upds (x : Slot) : (s.setCur x).upds = s.upds := rfl
@[simp] theorem State.setCur_regs (x : Slot) : (s.setCur x).regs = s.regs := rfl
@[simp] theorem State.setCur_launchSeq (x : Slot) : (s.setCur x).launchSeq = s.launchSeq := rfl
@[simp] theorem State.setCur_strandSeq (x : Slot) : (s.setCur x).strandSeq = s.strandSeq := rfl
@[simp] theorem State.setCur_launches (x : Slot) : (s.setCur x).launches = s.launches := rfl
@[simp] theorem State.setCur_blocks (x : Slot) : (s.setCur x).blocks = s.blocks := rfl
@[simp] theorem State.setCur_lastQueue (x : Slot) : (s.setCur x).lastQueue = s.lastQueue := rfl
@[simp] theorem State.setCur_packets (x : Slot) : (s.setCur x).packets = s.packets := rfl
@[simp] theorem State.setCur_lqFresh (x : Slot) : (s.setCur x).lqFresh = s.lqFresh := rfl
@[simp] theorem State.setCur_lqAsked (x : Slot) : (s.setCur x).lqAsked = s.lqAsked := rfl
@[simp] theorem State.setCur_lqDue (x : Slot) : (s.setCur x).lqDue = s.lqDue := rfl
@[simp] theorem State.setCur_faults (x : Slot) : (s.setCur x).faults = s.faults := rfl
@[simp] theorem State.setCur_migs (x : Slot) : (s.setCur x).migs = s.migs := rfl
@[simp] theorem State.setCur_wakes (x : Slot) : (s.setCur x).wakes = s.wakes := rfl
@[simp] theorem State.setCur_meqWait (x : Slot) : (s.setCur x).meqWait = s.meqWait := rfl
@[simp] theorem State.setCur_meqOpen (x : Slot) : (s.setCur x).meqOpen = s.meqOpen := rfl
@[simp] theorem State.setCur_meqPend (x : Slot) : (s.setCur x).meqPend = s.meqPend := rfl
@[simp] theorem State.setCur_meqSeq (x : Slot) : (s.setCur x).meqSeq = s.meqSeq := rfl
@[simp] theorem State.setCur_msix (x : Slot) : (s.setCur x).msix = s.msix := rfl
@[simp] theorem State.setCur_hostIn (x : Slot) : (s.setCur x).hostIn = s.hostIn := rfl
@[simp] theorem State.setCur_peerIn (x : Slot) : (s.setCur x).peerIn = s.peerIn := rfl
@[simp] theorem State.setCur_hostHeld (x : Slot) : (s.setCur x).hostHeld = s.hostHeld := rfl
@[simp] theorem State.setCur_peerHeld (x : Slot) : (s.setCur x).peerHeld = s.peerHeld := rfl
@[simp] theorem State.setCur_peerOut (x : Slot) : (s.setCur x).peerOut = s.peerOut := rfl
@[simp] theorem State.setCur_poison (x : Slot) : (s.setCur x).poison = s.poison := rfl
@[simp] theorem State.setCur_poisonStore (x : Slot) : (s.setCur x).poisonStore = s.poisonStore := rfl
@[simp] theorem State.setCur_covering (x : Slot) : (s.setCur x).covering = s.covering := rfl
@[simp] theorem State.setCur_flaws (x : Slot) : (s.setCur x).flaws = s.flaws := rfl
@[simp] theorem State.setCur_corrected (x : Slot) : (s.setCur x).corrected = s.corrected := rfl
@[simp] theorem State.setCur_retired (x : Slot) : (s.setCur x).retired = s.retired := rfl
@[simp] theorem State.setCur_tolerant (x : Slot) : (s.setCur x).tolerant = s.tolerant := rfl
@[simp] theorem State.setCur_links (x : Slot) : (s.setCur x).links = s.links := rfl
@[simp] theorem State.setCur_shipped (x : Slot) : (s.setCur x).shipped = s.shipped := rfl
@[simp] theorem State.setCur_recalled (x : Slot) : (s.setCur x).recalled = s.recalled := rfl
@[simp] theorem State.setCur_foreignParked (x : Slot) : (s.setCur x).foreignParked = s.foreignParked := rfl
@[simp] theorem State.setCur_homing (x : Slot) : (s.setCur x).homing = s.homing := rfl
@[simp] theorem State.setCur_linkHeld (x : Slot) : (s.setCur x).linkHeld = s.linkHeld := rfl
@[simp] theorem State.setCur_denLost (x : Slot) : (s.setCur x).denLost = s.denLost := rfl
@[simp] theorem State.setCur_windowQ (x : Slot) : (s.setCur x).windowQ = s.windowQ := rfl
@[simp] theorem State.setCur_switching (x : Slot) : (s.setCur x).switching = s.switching := rfl

/-! ### State.modCur -/

@[simp] theorem State.modCur_core (f : Slot → Slot) : (s.modCur f).core = s.core := rfl
@[simp] theorem State.modCur_slot (f : Slot → Slot) : (s.modCur f).slot = s.slot := rfl
@[simp] theorem State.modCur_agenda (f : Slot → Slot) : (s.modCur f).agenda = s.agenda := rfl
@[simp] theorem State.modCur_ticket (f : Slot → Slot) : (s.modCur f).ticket = s.ticket := rfl
@[simp] theorem State.modCur_free (f : Slot → Slot) : (s.modCur f).free = s.free := rfl
@[simp] theorem State.modCur_cmdSeq (f : Slot → Slot) : (s.modCur f).cmdSeq = s.cmdSeq := rfl
@[simp] theorem State.modCur_mem (f : Slot → Slot) : (s.modCur f).mem = s.mem := rfl
@[simp] theorem State.modCur_full (f : Slot → Slot) : (s.modCur f).full = s.full := rfl
@[simp] theorem State.modCur_cores (f : Slot → Slot) : (s.modCur f).cores = s.cores := rfl
@[simp] theorem State.modCur_clusters (f : Slot → Slot) : (s.modCur f).clusters = s.clusters := rfl
@[simp] theorem State.modCur_dies (f : Slot → Slot) : (s.modCur f).dies = s.dies := rfl
@[simp] theorem State.modCur_cmds (f : Slot → Slot) : (s.modCur f).cmds = s.cmds := rfl
@[simp] theorem State.modCur_late (f : Slot → Slot) : (s.modCur f).late = s.late := rfl
@[simp] theorem State.modCur_upds (f : Slot → Slot) : (s.modCur f).upds = s.upds := rfl
@[simp] theorem State.modCur_regs (f : Slot → Slot) : (s.modCur f).regs = s.regs := rfl
@[simp] theorem State.modCur_launchSeq (f : Slot → Slot) : (s.modCur f).launchSeq = s.launchSeq := rfl
@[simp] theorem State.modCur_strandSeq (f : Slot → Slot) : (s.modCur f).strandSeq = s.strandSeq := rfl
@[simp] theorem State.modCur_launches (f : Slot → Slot) : (s.modCur f).launches = s.launches := rfl
@[simp] theorem State.modCur_blocks (f : Slot → Slot) : (s.modCur f).blocks = s.blocks := rfl
@[simp] theorem State.modCur_lastQueue (f : Slot → Slot) : (s.modCur f).lastQueue = s.lastQueue := rfl
@[simp] theorem State.modCur_packets (f : Slot → Slot) : (s.modCur f).packets = s.packets := rfl
@[simp] theorem State.modCur_lqFresh (f : Slot → Slot) : (s.modCur f).lqFresh = s.lqFresh := rfl
@[simp] theorem State.modCur_lqAsked (f : Slot → Slot) : (s.modCur f).lqAsked = s.lqAsked := rfl
@[simp] theorem State.modCur_lqDue (f : Slot → Slot) : (s.modCur f).lqDue = s.lqDue := rfl
@[simp] theorem State.modCur_faults (f : Slot → Slot) : (s.modCur f).faults = s.faults := rfl
@[simp] theorem State.modCur_migs (f : Slot → Slot) : (s.modCur f).migs = s.migs := rfl
@[simp] theorem State.modCur_wakes (f : Slot → Slot) : (s.modCur f).wakes = s.wakes := rfl
@[simp] theorem State.modCur_meqWait (f : Slot → Slot) : (s.modCur f).meqWait = s.meqWait := rfl
@[simp] theorem State.modCur_meqOpen (f : Slot → Slot) : (s.modCur f).meqOpen = s.meqOpen := rfl
@[simp] theorem State.modCur_meqPend (f : Slot → Slot) : (s.modCur f).meqPend = s.meqPend := rfl
@[simp] theorem State.modCur_meqSeq (f : Slot → Slot) : (s.modCur f).meqSeq = s.meqSeq := rfl
@[simp] theorem State.modCur_msix (f : Slot → Slot) : (s.modCur f).msix = s.msix := rfl
@[simp] theorem State.modCur_hostIn (f : Slot → Slot) : (s.modCur f).hostIn = s.hostIn := rfl
@[simp] theorem State.modCur_peerIn (f : Slot → Slot) : (s.modCur f).peerIn = s.peerIn := rfl
@[simp] theorem State.modCur_hostHeld (f : Slot → Slot) : (s.modCur f).hostHeld = s.hostHeld := rfl
@[simp] theorem State.modCur_peerHeld (f : Slot → Slot) : (s.modCur f).peerHeld = s.peerHeld := rfl
@[simp] theorem State.modCur_peerOut (f : Slot → Slot) : (s.modCur f).peerOut = s.peerOut := rfl
@[simp] theorem State.modCur_poison (f : Slot → Slot) : (s.modCur f).poison = s.poison := rfl
@[simp] theorem State.modCur_poisonStore (f : Slot → Slot) : (s.modCur f).poisonStore = s.poisonStore := rfl
@[simp] theorem State.modCur_covering (f : Slot → Slot) : (s.modCur f).covering = s.covering := rfl
@[simp] theorem State.modCur_flaws (f : Slot → Slot) : (s.modCur f).flaws = s.flaws := rfl
@[simp] theorem State.modCur_corrected (f : Slot → Slot) : (s.modCur f).corrected = s.corrected := rfl
@[simp] theorem State.modCur_retired (f : Slot → Slot) : (s.modCur f).retired = s.retired := rfl
@[simp] theorem State.modCur_tolerant (f : Slot → Slot) : (s.modCur f).tolerant = s.tolerant := rfl
@[simp] theorem State.modCur_links (f : Slot → Slot) : (s.modCur f).links = s.links := rfl
@[simp] theorem State.modCur_shipped (f : Slot → Slot) : (s.modCur f).shipped = s.shipped := rfl
@[simp] theorem State.modCur_recalled (f : Slot → Slot) : (s.modCur f).recalled = s.recalled := rfl
@[simp] theorem State.modCur_foreignParked (f : Slot → Slot) : (s.modCur f).foreignParked = s.foreignParked := rfl
@[simp] theorem State.modCur_homing (f : Slot → Slot) : (s.modCur f).homing = s.homing := rfl
@[simp] theorem State.modCur_linkHeld (f : Slot → Slot) : (s.modCur f).linkHeld = s.linkHeld := rfl
@[simp] theorem State.modCur_denLost (f : Slot → Slot) : (s.modCur f).denLost = s.denLost := rfl
@[simp] theorem State.modCur_windowQ (f : Slot → Slot) : (s.modCur f).windowQ = s.windowQ := rfl
@[simp] theorem State.modCur_switching (f : Slot → Slot) : (s.modCur f).switching = s.switching := rfl

/-! ### State.modCtx -/

@[simp] theorem State.modCtx_core (f : Ctx → Ctx) : (s.modCtx f).core = s.core := rfl
@[simp] theorem State.modCtx_slot (f : Ctx → Ctx) : (s.modCtx f).slot = s.slot := rfl
@[simp] theorem State.modCtx_agenda (f : Ctx → Ctx) : (s.modCtx f).agenda = s.agenda := rfl
@[simp] theorem State.modCtx_ticket (f : Ctx → Ctx) : (s.modCtx f).ticket = s.ticket := rfl
@[simp] theorem State.modCtx_free (f : Ctx → Ctx) : (s.modCtx f).free = s.free := rfl
@[simp] theorem State.modCtx_cmdSeq (f : Ctx → Ctx) : (s.modCtx f).cmdSeq = s.cmdSeq := rfl
@[simp] theorem State.modCtx_mem (f : Ctx → Ctx) : (s.modCtx f).mem = s.mem := rfl
@[simp] theorem State.modCtx_full (f : Ctx → Ctx) : (s.modCtx f).full = s.full := rfl
@[simp] theorem State.modCtx_cores (f : Ctx → Ctx) : (s.modCtx f).cores = s.cores := rfl
@[simp] theorem State.modCtx_clusters (f : Ctx → Ctx) : (s.modCtx f).clusters = s.clusters := rfl
@[simp] theorem State.modCtx_dies (f : Ctx → Ctx) : (s.modCtx f).dies = s.dies := rfl
@[simp] theorem State.modCtx_cmds (f : Ctx → Ctx) : (s.modCtx f).cmds = s.cmds := rfl
@[simp] theorem State.modCtx_late (f : Ctx → Ctx) : (s.modCtx f).late = s.late := rfl
@[simp] theorem State.modCtx_upds (f : Ctx → Ctx) : (s.modCtx f).upds = s.upds := rfl
@[simp] theorem State.modCtx_regs (f : Ctx → Ctx) : (s.modCtx f).regs = s.regs := rfl
@[simp] theorem State.modCtx_launchSeq (f : Ctx → Ctx) : (s.modCtx f).launchSeq = s.launchSeq := rfl
@[simp] theorem State.modCtx_strandSeq (f : Ctx → Ctx) : (s.modCtx f).strandSeq = s.strandSeq := rfl
@[simp] theorem State.modCtx_launches (f : Ctx → Ctx) : (s.modCtx f).launches = s.launches := rfl
@[simp] theorem State.modCtx_blocks (f : Ctx → Ctx) : (s.modCtx f).blocks = s.blocks := rfl
@[simp] theorem State.modCtx_lastQueue (f : Ctx → Ctx) : (s.modCtx f).lastQueue = s.lastQueue := rfl
@[simp] theorem State.modCtx_packets (f : Ctx → Ctx) : (s.modCtx f).packets = s.packets := rfl
@[simp] theorem State.modCtx_lqFresh (f : Ctx → Ctx) : (s.modCtx f).lqFresh = s.lqFresh := rfl
@[simp] theorem State.modCtx_lqAsked (f : Ctx → Ctx) : (s.modCtx f).lqAsked = s.lqAsked := rfl
@[simp] theorem State.modCtx_lqDue (f : Ctx → Ctx) : (s.modCtx f).lqDue = s.lqDue := rfl
@[simp] theorem State.modCtx_faults (f : Ctx → Ctx) : (s.modCtx f).faults = s.faults := rfl
@[simp] theorem State.modCtx_migs (f : Ctx → Ctx) : (s.modCtx f).migs = s.migs := rfl
@[simp] theorem State.modCtx_wakes (f : Ctx → Ctx) : (s.modCtx f).wakes = s.wakes := rfl
@[simp] theorem State.modCtx_meqWait (f : Ctx → Ctx) : (s.modCtx f).meqWait = s.meqWait := rfl
@[simp] theorem State.modCtx_meqOpen (f : Ctx → Ctx) : (s.modCtx f).meqOpen = s.meqOpen := rfl
@[simp] theorem State.modCtx_meqPend (f : Ctx → Ctx) : (s.modCtx f).meqPend = s.meqPend := rfl
@[simp] theorem State.modCtx_meqSeq (f : Ctx → Ctx) : (s.modCtx f).meqSeq = s.meqSeq := rfl
@[simp] theorem State.modCtx_msix (f : Ctx → Ctx) : (s.modCtx f).msix = s.msix := rfl
@[simp] theorem State.modCtx_hostIn (f : Ctx → Ctx) : (s.modCtx f).hostIn = s.hostIn := rfl
@[simp] theorem State.modCtx_peerIn (f : Ctx → Ctx) : (s.modCtx f).peerIn = s.peerIn := rfl
@[simp] theorem State.modCtx_hostHeld (f : Ctx → Ctx) : (s.modCtx f).hostHeld = s.hostHeld := rfl
@[simp] theorem State.modCtx_peerHeld (f : Ctx → Ctx) : (s.modCtx f).peerHeld = s.peerHeld := rfl
@[simp] theorem State.modCtx_peerOut (f : Ctx → Ctx) : (s.modCtx f).peerOut = s.peerOut := rfl
@[simp] theorem State.modCtx_poison (f : Ctx → Ctx) : (s.modCtx f).poison = s.poison := rfl
@[simp] theorem State.modCtx_poisonStore (f : Ctx → Ctx) : (s.modCtx f).poisonStore = s.poisonStore := rfl
@[simp] theorem State.modCtx_covering (f : Ctx → Ctx) : (s.modCtx f).covering = s.covering := rfl
@[simp] theorem State.modCtx_flaws (f : Ctx → Ctx) : (s.modCtx f).flaws = s.flaws := rfl
@[simp] theorem State.modCtx_corrected (f : Ctx → Ctx) : (s.modCtx f).corrected = s.corrected := rfl
@[simp] theorem State.modCtx_retired (f : Ctx → Ctx) : (s.modCtx f).retired = s.retired := rfl
@[simp] theorem State.modCtx_tolerant (f : Ctx → Ctx) : (s.modCtx f).tolerant = s.tolerant := rfl
@[simp] theorem State.modCtx_links (f : Ctx → Ctx) : (s.modCtx f).links = s.links := rfl
@[simp] theorem State.modCtx_shipped (f : Ctx → Ctx) : (s.modCtx f).shipped = s.shipped := rfl
@[simp] theorem State.modCtx_recalled (f : Ctx → Ctx) : (s.modCtx f).recalled = s.recalled := rfl
@[simp] theorem State.modCtx_foreignParked (f : Ctx → Ctx) : (s.modCtx f).foreignParked = s.foreignParked := rfl
@[simp] theorem State.modCtx_homing (f : Ctx → Ctx) : (s.modCtx f).homing = s.homing := rfl
@[simp] theorem State.modCtx_linkHeld (f : Ctx → Ctx) : (s.modCtx f).linkHeld = s.linkHeld := rfl
@[simp] theorem State.modCtx_denLost (f : Ctx → Ctx) : (s.modCtx f).denLost = s.denLost := rfl
@[simp] theorem State.modCtx_windowQ (f : Ctx → Ctx) : (s.modCtx f).windowQ = s.windowQ := rfl
@[simp] theorem State.modCtx_switching (f : Ctx → Ctx) : (s.modCtx f).switching = s.switching := rfl

/-! ### State.modChunk -/

@[simp] theorem State.modChunk_core (f : Chunk → Chunk) : (s.modChunk f).core = s.core := rfl
@[simp] theorem State.modChunk_slot (f : Chunk → Chunk) : (s.modChunk f).slot = s.slot := rfl
@[simp] theorem State.modChunk_agenda (f : Chunk → Chunk) : (s.modChunk f).agenda = s.agenda := rfl
@[simp] theorem State.modChunk_ticket (f : Chunk → Chunk) : (s.modChunk f).ticket = s.ticket := rfl
@[simp] theorem State.modChunk_free (f : Chunk → Chunk) : (s.modChunk f).free = s.free := rfl
@[simp] theorem State.modChunk_cmdSeq (f : Chunk → Chunk) : (s.modChunk f).cmdSeq = s.cmdSeq := rfl
@[simp] theorem State.modChunk_mem (f : Chunk → Chunk) : (s.modChunk f).mem = s.mem := rfl
@[simp] theorem State.modChunk_full (f : Chunk → Chunk) : (s.modChunk f).full = s.full := rfl
@[simp] theorem State.modChunk_cores (f : Chunk → Chunk) : (s.modChunk f).cores = s.cores := rfl
@[simp] theorem State.modChunk_clusters (f : Chunk → Chunk) : (s.modChunk f).clusters = s.clusters := rfl
@[simp] theorem State.modChunk_dies (f : Chunk → Chunk) : (s.modChunk f).dies = s.dies := rfl
@[simp] theorem State.modChunk_cmds (f : Chunk → Chunk) : (s.modChunk f).cmds = s.cmds := rfl
@[simp] theorem State.modChunk_late (f : Chunk → Chunk) : (s.modChunk f).late = s.late := rfl
@[simp] theorem State.modChunk_upds (f : Chunk → Chunk) : (s.modChunk f).upds = s.upds := rfl
@[simp] theorem State.modChunk_regs (f : Chunk → Chunk) : (s.modChunk f).regs = s.regs := rfl
@[simp] theorem State.modChunk_launchSeq (f : Chunk → Chunk) : (s.modChunk f).launchSeq = s.launchSeq := rfl
@[simp] theorem State.modChunk_strandSeq (f : Chunk → Chunk) : (s.modChunk f).strandSeq = s.strandSeq := rfl
@[simp] theorem State.modChunk_launches (f : Chunk → Chunk) : (s.modChunk f).launches = s.launches := rfl
@[simp] theorem State.modChunk_blocks (f : Chunk → Chunk) : (s.modChunk f).blocks = s.blocks := rfl
@[simp] theorem State.modChunk_lastQueue (f : Chunk → Chunk) : (s.modChunk f).lastQueue = s.lastQueue := rfl
@[simp] theorem State.modChunk_packets (f : Chunk → Chunk) : (s.modChunk f).packets = s.packets := rfl
@[simp] theorem State.modChunk_lqFresh (f : Chunk → Chunk) : (s.modChunk f).lqFresh = s.lqFresh := rfl
@[simp] theorem State.modChunk_lqAsked (f : Chunk → Chunk) : (s.modChunk f).lqAsked = s.lqAsked := rfl
@[simp] theorem State.modChunk_lqDue (f : Chunk → Chunk) : (s.modChunk f).lqDue = s.lqDue := rfl
@[simp] theorem State.modChunk_faults (f : Chunk → Chunk) : (s.modChunk f).faults = s.faults := rfl
@[simp] theorem State.modChunk_migs (f : Chunk → Chunk) : (s.modChunk f).migs = s.migs := rfl
@[simp] theorem State.modChunk_wakes (f : Chunk → Chunk) : (s.modChunk f).wakes = s.wakes := rfl
@[simp] theorem State.modChunk_meqWait (f : Chunk → Chunk) : (s.modChunk f).meqWait = s.meqWait := rfl
@[simp] theorem State.modChunk_meqOpen (f : Chunk → Chunk) : (s.modChunk f).meqOpen = s.meqOpen := rfl
@[simp] theorem State.modChunk_meqPend (f : Chunk → Chunk) : (s.modChunk f).meqPend = s.meqPend := rfl
@[simp] theorem State.modChunk_meqSeq (f : Chunk → Chunk) : (s.modChunk f).meqSeq = s.meqSeq := rfl
@[simp] theorem State.modChunk_msix (f : Chunk → Chunk) : (s.modChunk f).msix = s.msix := rfl
@[simp] theorem State.modChunk_hostIn (f : Chunk → Chunk) : (s.modChunk f).hostIn = s.hostIn := rfl
@[simp] theorem State.modChunk_peerIn (f : Chunk → Chunk) : (s.modChunk f).peerIn = s.peerIn := rfl
@[simp] theorem State.modChunk_hostHeld (f : Chunk → Chunk) : (s.modChunk f).hostHeld = s.hostHeld := rfl
@[simp] theorem State.modChunk_peerHeld (f : Chunk → Chunk) : (s.modChunk f).peerHeld = s.peerHeld := rfl
@[simp] theorem State.modChunk_peerOut (f : Chunk → Chunk) : (s.modChunk f).peerOut = s.peerOut := rfl
@[simp] theorem State.modChunk_poison (f : Chunk → Chunk) : (s.modChunk f).poison = s.poison := rfl
@[simp] theorem State.modChunk_poisonStore (f : Chunk → Chunk) : (s.modChunk f).poisonStore = s.poisonStore := rfl
@[simp] theorem State.modChunk_covering (f : Chunk → Chunk) : (s.modChunk f).covering = s.covering := rfl
@[simp] theorem State.modChunk_flaws (f : Chunk → Chunk) : (s.modChunk f).flaws = s.flaws := rfl
@[simp] theorem State.modChunk_corrected (f : Chunk → Chunk) : (s.modChunk f).corrected = s.corrected := rfl
@[simp] theorem State.modChunk_retired (f : Chunk → Chunk) : (s.modChunk f).retired = s.retired := rfl
@[simp] theorem State.modChunk_tolerant (f : Chunk → Chunk) : (s.modChunk f).tolerant = s.tolerant := rfl
@[simp] theorem State.modChunk_links (f : Chunk → Chunk) : (s.modChunk f).links = s.links := rfl
@[simp] theorem State.modChunk_shipped (f : Chunk → Chunk) : (s.modChunk f).shipped = s.shipped := rfl
@[simp] theorem State.modChunk_recalled (f : Chunk → Chunk) : (s.modChunk f).recalled = s.recalled := rfl
@[simp] theorem State.modChunk_foreignParked (f : Chunk → Chunk) : (s.modChunk f).foreignParked = s.foreignParked := rfl
@[simp] theorem State.modChunk_homing (f : Chunk → Chunk) : (s.modChunk f).homing = s.homing := rfl
@[simp] theorem State.modChunk_linkHeld (f : Chunk → Chunk) : (s.modChunk f).linkHeld = s.linkHeld := rfl
@[simp] theorem State.modChunk_denLost (f : Chunk → Chunk) : (s.modChunk f).denLost = s.denLost := rfl
@[simp] theorem State.modChunk_windowQ (f : Chunk → Chunk) : (s.modChunk f).windowQ = s.windowQ := rfl
@[simp] theorem State.modChunk_switching (f : Chunk → Chunk) : (s.modChunk f).switching = s.switching := rfl

/-! ### State.withUnit -/

@[simp] theorem State.withUnit_core (u : Decoded) : (s.withUnit u).core = s.core := rfl
@[simp] theorem State.withUnit_slot (u : Decoded) : (s.withUnit u).slot = s.slot := rfl
@[simp] theorem State.withUnit_agenda (u : Decoded) : (s.withUnit u).agenda = s.agenda := rfl
@[simp] theorem State.withUnit_ticket (u : Decoded) : (s.withUnit u).ticket = s.ticket := rfl
@[simp] theorem State.withUnit_free (u : Decoded) : (s.withUnit u).free = s.free := rfl
@[simp] theorem State.withUnit_cmdSeq (u : Decoded) : (s.withUnit u).cmdSeq = s.cmdSeq := rfl
@[simp] theorem State.withUnit_mem (u : Decoded) : (s.withUnit u).mem = s.mem := rfl
@[simp] theorem State.withUnit_full (u : Decoded) : (s.withUnit u).full = s.full := rfl
@[simp] theorem State.withUnit_cores (u : Decoded) : (s.withUnit u).cores = s.cores := rfl
@[simp] theorem State.withUnit_clusters (u : Decoded) : (s.withUnit u).clusters = s.clusters := rfl
@[simp] theorem State.withUnit_dies (u : Decoded) : (s.withUnit u).dies = s.dies := rfl
@[simp] theorem State.withUnit_cmds (u : Decoded) : (s.withUnit u).cmds = s.cmds := rfl
@[simp] theorem State.withUnit_late (u : Decoded) : (s.withUnit u).late = s.late := rfl
@[simp] theorem State.withUnit_upds (u : Decoded) : (s.withUnit u).upds = s.upds := rfl
@[simp] theorem State.withUnit_regs (u : Decoded) : (s.withUnit u).regs = s.regs := rfl
@[simp] theorem State.withUnit_launchSeq (u : Decoded) : (s.withUnit u).launchSeq = s.launchSeq := rfl
@[simp] theorem State.withUnit_strandSeq (u : Decoded) : (s.withUnit u).strandSeq = s.strandSeq := rfl
@[simp] theorem State.withUnit_launches (u : Decoded) : (s.withUnit u).launches = s.launches := rfl
@[simp] theorem State.withUnit_blocks (u : Decoded) : (s.withUnit u).blocks = s.blocks := rfl
@[simp] theorem State.withUnit_lastQueue (u : Decoded) : (s.withUnit u).lastQueue = s.lastQueue := rfl
@[simp] theorem State.withUnit_packets (u : Decoded) : (s.withUnit u).packets = s.packets := rfl
@[simp] theorem State.withUnit_lqFresh (u : Decoded) : (s.withUnit u).lqFresh = s.lqFresh := rfl
@[simp] theorem State.withUnit_lqAsked (u : Decoded) : (s.withUnit u).lqAsked = s.lqAsked := rfl
@[simp] theorem State.withUnit_lqDue (u : Decoded) : (s.withUnit u).lqDue = s.lqDue := rfl
@[simp] theorem State.withUnit_faults (u : Decoded) : (s.withUnit u).faults = s.faults := rfl
@[simp] theorem State.withUnit_migs (u : Decoded) : (s.withUnit u).migs = s.migs := rfl
@[simp] theorem State.withUnit_wakes (u : Decoded) : (s.withUnit u).wakes = s.wakes := rfl
@[simp] theorem State.withUnit_meqWait (u : Decoded) : (s.withUnit u).meqWait = s.meqWait := rfl
@[simp] theorem State.withUnit_meqOpen (u : Decoded) : (s.withUnit u).meqOpen = s.meqOpen := rfl
@[simp] theorem State.withUnit_meqPend (u : Decoded) : (s.withUnit u).meqPend = s.meqPend := rfl
@[simp] theorem State.withUnit_meqSeq (u : Decoded) : (s.withUnit u).meqSeq = s.meqSeq := rfl
@[simp] theorem State.withUnit_msix (u : Decoded) : (s.withUnit u).msix = s.msix := rfl
@[simp] theorem State.withUnit_hostIn (u : Decoded) : (s.withUnit u).hostIn = s.hostIn := rfl
@[simp] theorem State.withUnit_peerIn (u : Decoded) : (s.withUnit u).peerIn = s.peerIn := rfl
@[simp] theorem State.withUnit_hostHeld (u : Decoded) : (s.withUnit u).hostHeld = s.hostHeld := rfl
@[simp] theorem State.withUnit_peerHeld (u : Decoded) : (s.withUnit u).peerHeld = s.peerHeld := rfl
@[simp] theorem State.withUnit_peerOut (u : Decoded) : (s.withUnit u).peerOut = s.peerOut := rfl
@[simp] theorem State.withUnit_poison (u : Decoded) : (s.withUnit u).poison = s.poison := rfl
@[simp] theorem State.withUnit_poisonStore (u : Decoded) : (s.withUnit u).poisonStore = s.poisonStore := rfl
@[simp] theorem State.withUnit_covering (u : Decoded) : (s.withUnit u).covering = s.covering := rfl
@[simp] theorem State.withUnit_flaws (u : Decoded) : (s.withUnit u).flaws = s.flaws := rfl
@[simp] theorem State.withUnit_corrected (u : Decoded) : (s.withUnit u).corrected = s.corrected := rfl
@[simp] theorem State.withUnit_retired (u : Decoded) : (s.withUnit u).retired = s.retired := rfl
@[simp] theorem State.withUnit_tolerant (u : Decoded) : (s.withUnit u).tolerant = s.tolerant := rfl
@[simp] theorem State.withUnit_links (u : Decoded) : (s.withUnit u).links = s.links := rfl
@[simp] theorem State.withUnit_shipped (u : Decoded) : (s.withUnit u).shipped = s.shipped := rfl
@[simp] theorem State.withUnit_recalled (u : Decoded) : (s.withUnit u).recalled = s.recalled := rfl
@[simp] theorem State.withUnit_foreignParked (u : Decoded) : (s.withUnit u).foreignParked = s.foreignParked := rfl
@[simp] theorem State.withUnit_homing (u : Decoded) : (s.withUnit u).homing = s.homing := rfl
@[simp] theorem State.withUnit_linkHeld (u : Decoded) : (s.withUnit u).linkHeld = s.linkHeld := rfl
@[simp] theorem State.withUnit_denLost (u : Decoded) : (s.withUnit u).denLost = s.denLost := rfl
@[simp] theorem State.withUnit_windowQ (u : Decoded) : (s.withUnit u).windowQ = s.windowQ := rfl
@[simp] theorem State.withUnit_switching (u : Decoded) : (s.withUnit u).switching = s.switching := rfl

/-! ### State.setStream -/

@[simp] theorem State.setStream_core (t : Fin 4) (v : Option Stream) : (s.setStream t v).core = s.core := rfl
@[simp] theorem State.setStream_slot (t : Fin 4) (v : Option Stream) : (s.setStream t v).slot = s.slot := rfl
@[simp] theorem State.setStream_agenda (t : Fin 4) (v : Option Stream) : (s.setStream t v).agenda = s.agenda := rfl
@[simp] theorem State.setStream_ticket (t : Fin 4) (v : Option Stream) : (s.setStream t v).ticket = s.ticket := rfl
@[simp] theorem State.setStream_free (t : Fin 4) (v : Option Stream) : (s.setStream t v).free = s.free := rfl
@[simp] theorem State.setStream_cmdSeq (t : Fin 4) (v : Option Stream) : (s.setStream t v).cmdSeq = s.cmdSeq := rfl
@[simp] theorem State.setStream_mem (t : Fin 4) (v : Option Stream) : (s.setStream t v).mem = s.mem := rfl
@[simp] theorem State.setStream_full (t : Fin 4) (v : Option Stream) : (s.setStream t v).full = s.full := rfl
@[simp] theorem State.setStream_cores (t : Fin 4) (v : Option Stream) : (s.setStream t v).cores = s.cores := rfl
@[simp] theorem State.setStream_clusters (t : Fin 4) (v : Option Stream) : (s.setStream t v).clusters = s.clusters := rfl
@[simp] theorem State.setStream_dies (t : Fin 4) (v : Option Stream) : (s.setStream t v).dies = s.dies := rfl
@[simp] theorem State.setStream_cmds (t : Fin 4) (v : Option Stream) : (s.setStream t v).cmds = s.cmds := rfl
@[simp] theorem State.setStream_late (t : Fin 4) (v : Option Stream) : (s.setStream t v).late = s.late := rfl
@[simp] theorem State.setStream_upds (t : Fin 4) (v : Option Stream) : (s.setStream t v).upds = s.upds := rfl
@[simp] theorem State.setStream_regs (t : Fin 4) (v : Option Stream) : (s.setStream t v).regs = s.regs := rfl
@[simp] theorem State.setStream_launchSeq (t : Fin 4) (v : Option Stream) : (s.setStream t v).launchSeq = s.launchSeq := rfl
@[simp] theorem State.setStream_strandSeq (t : Fin 4) (v : Option Stream) : (s.setStream t v).strandSeq = s.strandSeq := rfl
@[simp] theorem State.setStream_launches (t : Fin 4) (v : Option Stream) : (s.setStream t v).launches = s.launches := rfl
@[simp] theorem State.setStream_blocks (t : Fin 4) (v : Option Stream) : (s.setStream t v).blocks = s.blocks := rfl
@[simp] theorem State.setStream_lastQueue (t : Fin 4) (v : Option Stream) : (s.setStream t v).lastQueue = s.lastQueue := rfl
@[simp] theorem State.setStream_packets (t : Fin 4) (v : Option Stream) : (s.setStream t v).packets = s.packets := rfl
@[simp] theorem State.setStream_lqFresh (t : Fin 4) (v : Option Stream) : (s.setStream t v).lqFresh = s.lqFresh := rfl
@[simp] theorem State.setStream_lqAsked (t : Fin 4) (v : Option Stream) : (s.setStream t v).lqAsked = s.lqAsked := rfl
@[simp] theorem State.setStream_lqDue (t : Fin 4) (v : Option Stream) : (s.setStream t v).lqDue = s.lqDue := rfl
@[simp] theorem State.setStream_faults (t : Fin 4) (v : Option Stream) : (s.setStream t v).faults = s.faults := rfl
@[simp] theorem State.setStream_migs (t : Fin 4) (v : Option Stream) : (s.setStream t v).migs = s.migs := rfl
@[simp] theorem State.setStream_wakes (t : Fin 4) (v : Option Stream) : (s.setStream t v).wakes = s.wakes := rfl
@[simp] theorem State.setStream_meqWait (t : Fin 4) (v : Option Stream) : (s.setStream t v).meqWait = s.meqWait := rfl
@[simp] theorem State.setStream_meqOpen (t : Fin 4) (v : Option Stream) : (s.setStream t v).meqOpen = s.meqOpen := rfl
@[simp] theorem State.setStream_meqPend (t : Fin 4) (v : Option Stream) : (s.setStream t v).meqPend = s.meqPend := rfl
@[simp] theorem State.setStream_meqSeq (t : Fin 4) (v : Option Stream) : (s.setStream t v).meqSeq = s.meqSeq := rfl
@[simp] theorem State.setStream_msix (t : Fin 4) (v : Option Stream) : (s.setStream t v).msix = s.msix := rfl
@[simp] theorem State.setStream_hostIn (t : Fin 4) (v : Option Stream) : (s.setStream t v).hostIn = s.hostIn := rfl
@[simp] theorem State.setStream_peerIn (t : Fin 4) (v : Option Stream) : (s.setStream t v).peerIn = s.peerIn := rfl
@[simp] theorem State.setStream_hostHeld (t : Fin 4) (v : Option Stream) : (s.setStream t v).hostHeld = s.hostHeld := rfl
@[simp] theorem State.setStream_peerHeld (t : Fin 4) (v : Option Stream) : (s.setStream t v).peerHeld = s.peerHeld := rfl
@[simp] theorem State.setStream_peerOut (t : Fin 4) (v : Option Stream) : (s.setStream t v).peerOut = s.peerOut := rfl
@[simp] theorem State.setStream_poison (t : Fin 4) (v : Option Stream) : (s.setStream t v).poison = s.poison := rfl
@[simp] theorem State.setStream_poisonStore (t : Fin 4) (v : Option Stream) : (s.setStream t v).poisonStore = s.poisonStore := rfl
@[simp] theorem State.setStream_covering (t : Fin 4) (v : Option Stream) : (s.setStream t v).covering = s.covering := rfl
@[simp] theorem State.setStream_flaws (t : Fin 4) (v : Option Stream) : (s.setStream t v).flaws = s.flaws := rfl
@[simp] theorem State.setStream_corrected (t : Fin 4) (v : Option Stream) : (s.setStream t v).corrected = s.corrected := rfl
@[simp] theorem State.setStream_retired (t : Fin 4) (v : Option Stream) : (s.setStream t v).retired = s.retired := rfl
@[simp] theorem State.setStream_tolerant (t : Fin 4) (v : Option Stream) : (s.setStream t v).tolerant = s.tolerant := rfl
@[simp] theorem State.setStream_links (t : Fin 4) (v : Option Stream) : (s.setStream t v).links = s.links := rfl
@[simp] theorem State.setStream_shipped (t : Fin 4) (v : Option Stream) : (s.setStream t v).shipped = s.shipped := rfl
@[simp] theorem State.setStream_recalled (t : Fin 4) (v : Option Stream) : (s.setStream t v).recalled = s.recalled := rfl
@[simp] theorem State.setStream_foreignParked (t : Fin 4) (v : Option Stream) : (s.setStream t v).foreignParked = s.foreignParked := rfl
@[simp] theorem State.setStream_homing (t : Fin 4) (v : Option Stream) : (s.setStream t v).homing = s.homing := rfl
@[simp] theorem State.setStream_linkHeld (t : Fin 4) (v : Option Stream) : (s.setStream t v).linkHeld = s.linkHeld := rfl
@[simp] theorem State.setStream_denLost (t : Fin 4) (v : Option Stream) : (s.setStream t v).denLost = s.denLost := rfl
@[simp] theorem State.setStream_windowQ (t : Fin 4) (v : Option Stream) : (s.setStream t v).windowQ = s.windowQ := rfl
@[simp] theorem State.setStream_switching (t : Fin 4) (v : Option Stream) : (s.setStream t v).switching = s.switching := rfl

/-! ### State.modCore -/

@[simp] theorem State.modCore_core (c : Nat) (f : CoreSt → CoreSt) : (s.modCore c f).core = s.core := rfl
@[simp] theorem State.modCore_slot (c : Nat) (f : CoreSt → CoreSt) : (s.modCore c f).slot = s.slot := rfl
@[simp] theorem State.modCore_agenda (c : Nat) (f : CoreSt → CoreSt) : (s.modCore c f).agenda = s.agenda := rfl
@[simp] theorem State.modCore_ticket (c : Nat) (f : CoreSt → CoreSt) : (s.modCore c f).ticket = s.ticket := rfl
@[simp] theorem State.modCore_free (c : Nat) (f : CoreSt → CoreSt) : (s.modCore c f).free = s.free := rfl
@[simp] theorem State.modCore_cmdSeq (c : Nat) (f : CoreSt → CoreSt) : (s.modCore c f).cmdSeq = s.cmdSeq := rfl
@[simp] theorem State.modCore_mem (c : Nat) (f : CoreSt → CoreSt) : (s.modCore c f).mem = s.mem := rfl
@[simp] theorem State.modCore_full (c : Nat) (f : CoreSt → CoreSt) : (s.modCore c f).full = s.full := rfl
@[simp] theorem State.modCore_slots (c : Nat) (f : CoreSt → CoreSt) : (s.modCore c f).slots = s.slots := rfl
@[simp] theorem State.modCore_clusters (c : Nat) (f : CoreSt → CoreSt) : (s.modCore c f).clusters = s.clusters := rfl
@[simp] theorem State.modCore_dies (c : Nat) (f : CoreSt → CoreSt) : (s.modCore c f).dies = s.dies := rfl
@[simp] theorem State.modCore_cmds (c : Nat) (f : CoreSt → CoreSt) : (s.modCore c f).cmds = s.cmds := rfl
@[simp] theorem State.modCore_late (c : Nat) (f : CoreSt → CoreSt) : (s.modCore c f).late = s.late := rfl
@[simp] theorem State.modCore_upds (c : Nat) (f : CoreSt → CoreSt) : (s.modCore c f).upds = s.upds := rfl
@[simp] theorem State.modCore_regs (c : Nat) (f : CoreSt → CoreSt) : (s.modCore c f).regs = s.regs := rfl
@[simp] theorem State.modCore_launchSeq (c : Nat) (f : CoreSt → CoreSt) : (s.modCore c f).launchSeq = s.launchSeq := rfl
@[simp] theorem State.modCore_strandSeq (c : Nat) (f : CoreSt → CoreSt) : (s.modCore c f).strandSeq = s.strandSeq := rfl
@[simp] theorem State.modCore_launches (c : Nat) (f : CoreSt → CoreSt) : (s.modCore c f).launches = s.launches := rfl
@[simp] theorem State.modCore_blocks (c : Nat) (f : CoreSt → CoreSt) : (s.modCore c f).blocks = s.blocks := rfl
@[simp] theorem State.modCore_lastQueue (c : Nat) (f : CoreSt → CoreSt) : (s.modCore c f).lastQueue = s.lastQueue := rfl
@[simp] theorem State.modCore_packets (c : Nat) (f : CoreSt → CoreSt) : (s.modCore c f).packets = s.packets := rfl
@[simp] theorem State.modCore_lqFresh (c : Nat) (f : CoreSt → CoreSt) : (s.modCore c f).lqFresh = s.lqFresh := rfl
@[simp] theorem State.modCore_lqAsked (c : Nat) (f : CoreSt → CoreSt) : (s.modCore c f).lqAsked = s.lqAsked := rfl
@[simp] theorem State.modCore_lqDue (c : Nat) (f : CoreSt → CoreSt) : (s.modCore c f).lqDue = s.lqDue := rfl
@[simp] theorem State.modCore_faults (c : Nat) (f : CoreSt → CoreSt) : (s.modCore c f).faults = s.faults := rfl
@[simp] theorem State.modCore_migs (c : Nat) (f : CoreSt → CoreSt) : (s.modCore c f).migs = s.migs := rfl
@[simp] theorem State.modCore_wakes (c : Nat) (f : CoreSt → CoreSt) : (s.modCore c f).wakes = s.wakes := rfl
@[simp] theorem State.modCore_meqWait (c : Nat) (f : CoreSt → CoreSt) : (s.modCore c f).meqWait = s.meqWait := rfl
@[simp] theorem State.modCore_meqOpen (c : Nat) (f : CoreSt → CoreSt) : (s.modCore c f).meqOpen = s.meqOpen := rfl
@[simp] theorem State.modCore_meqPend (c : Nat) (f : CoreSt → CoreSt) : (s.modCore c f).meqPend = s.meqPend := rfl
@[simp] theorem State.modCore_meqSeq (c : Nat) (f : CoreSt → CoreSt) : (s.modCore c f).meqSeq = s.meqSeq := rfl
@[simp] theorem State.modCore_msix (c : Nat) (f : CoreSt → CoreSt) : (s.modCore c f).msix = s.msix := rfl
@[simp] theorem State.modCore_hostIn (c : Nat) (f : CoreSt → CoreSt) : (s.modCore c f).hostIn = s.hostIn := rfl
@[simp] theorem State.modCore_peerIn (c : Nat) (f : CoreSt → CoreSt) : (s.modCore c f).peerIn = s.peerIn := rfl
@[simp] theorem State.modCore_hostHeld (c : Nat) (f : CoreSt → CoreSt) : (s.modCore c f).hostHeld = s.hostHeld := rfl
@[simp] theorem State.modCore_peerHeld (c : Nat) (f : CoreSt → CoreSt) : (s.modCore c f).peerHeld = s.peerHeld := rfl
@[simp] theorem State.modCore_peerOut (c : Nat) (f : CoreSt → CoreSt) : (s.modCore c f).peerOut = s.peerOut := rfl
@[simp] theorem State.modCore_poison (c : Nat) (f : CoreSt → CoreSt) : (s.modCore c f).poison = s.poison := rfl
@[simp] theorem State.modCore_poisonStore (c : Nat) (f : CoreSt → CoreSt) : (s.modCore c f).poisonStore = s.poisonStore := rfl
@[simp] theorem State.modCore_covering (c : Nat) (f : CoreSt → CoreSt) : (s.modCore c f).covering = s.covering := rfl
@[simp] theorem State.modCore_flaws (c : Nat) (f : CoreSt → CoreSt) : (s.modCore c f).flaws = s.flaws := rfl
@[simp] theorem State.modCore_corrected (c : Nat) (f : CoreSt → CoreSt) : (s.modCore c f).corrected = s.corrected := rfl
@[simp] theorem State.modCore_retired (c : Nat) (f : CoreSt → CoreSt) : (s.modCore c f).retired = s.retired := rfl
@[simp] theorem State.modCore_tolerant (c : Nat) (f : CoreSt → CoreSt) : (s.modCore c f).tolerant = s.tolerant := rfl
@[simp] theorem State.modCore_links (c : Nat) (f : CoreSt → CoreSt) : (s.modCore c f).links = s.links := rfl
@[simp] theorem State.modCore_shipped (c : Nat) (f : CoreSt → CoreSt) : (s.modCore c f).shipped = s.shipped := rfl
@[simp] theorem State.modCore_recalled (c : Nat) (f : CoreSt → CoreSt) : (s.modCore c f).recalled = s.recalled := rfl
@[simp] theorem State.modCore_foreignParked (c : Nat) (f : CoreSt → CoreSt) : (s.modCore c f).foreignParked = s.foreignParked := rfl
@[simp] theorem State.modCore_homing (c : Nat) (f : CoreSt → CoreSt) : (s.modCore c f).homing = s.homing := rfl
@[simp] theorem State.modCore_linkHeld (c : Nat) (f : CoreSt → CoreSt) : (s.modCore c f).linkHeld = s.linkHeld := rfl
@[simp] theorem State.modCore_denLost (c : Nat) (f : CoreSt → CoreSt) : (s.modCore c f).denLost = s.denLost := rfl
@[simp] theorem State.modCore_windowQ (c : Nat) (f : CoreSt → CoreSt) : (s.modCore c f).windowQ = s.windowQ := rfl
@[simp] theorem State.modCore_switching (c : Nat) (f : CoreSt → CoreSt) : (s.modCore c f).switching = s.switching := rfl

/-! ### State.modCluster -/

@[simp] theorem State.modCluster_core (k : Nat) (f : ClusterSt → ClusterSt) : (s.modCluster k f).core = s.core := rfl
@[simp] theorem State.modCluster_slot (k : Nat) (f : ClusterSt → ClusterSt) : (s.modCluster k f).slot = s.slot := rfl
@[simp] theorem State.modCluster_agenda (k : Nat) (f : ClusterSt → ClusterSt) : (s.modCluster k f).agenda = s.agenda := rfl
@[simp] theorem State.modCluster_ticket (k : Nat) (f : ClusterSt → ClusterSt) : (s.modCluster k f).ticket = s.ticket := rfl
@[simp] theorem State.modCluster_free (k : Nat) (f : ClusterSt → ClusterSt) : (s.modCluster k f).free = s.free := rfl
@[simp] theorem State.modCluster_cmdSeq (k : Nat) (f : ClusterSt → ClusterSt) : (s.modCluster k f).cmdSeq = s.cmdSeq := rfl
@[simp] theorem State.modCluster_mem (k : Nat) (f : ClusterSt → ClusterSt) : (s.modCluster k f).mem = s.mem := rfl
@[simp] theorem State.modCluster_full (k : Nat) (f : ClusterSt → ClusterSt) : (s.modCluster k f).full = s.full := rfl
@[simp] theorem State.modCluster_slots (k : Nat) (f : ClusterSt → ClusterSt) : (s.modCluster k f).slots = s.slots := rfl
@[simp] theorem State.modCluster_cores (k : Nat) (f : ClusterSt → ClusterSt) : (s.modCluster k f).cores = s.cores := rfl
@[simp] theorem State.modCluster_dies (k : Nat) (f : ClusterSt → ClusterSt) : (s.modCluster k f).dies = s.dies := rfl
@[simp] theorem State.modCluster_cmds (k : Nat) (f : ClusterSt → ClusterSt) : (s.modCluster k f).cmds = s.cmds := rfl
@[simp] theorem State.modCluster_late (k : Nat) (f : ClusterSt → ClusterSt) : (s.modCluster k f).late = s.late := rfl
@[simp] theorem State.modCluster_upds (k : Nat) (f : ClusterSt → ClusterSt) : (s.modCluster k f).upds = s.upds := rfl
@[simp] theorem State.modCluster_regs (k : Nat) (f : ClusterSt → ClusterSt) : (s.modCluster k f).regs = s.regs := rfl
@[simp] theorem State.modCluster_launchSeq (k : Nat) (f : ClusterSt → ClusterSt) : (s.modCluster k f).launchSeq = s.launchSeq := rfl
@[simp] theorem State.modCluster_strandSeq (k : Nat) (f : ClusterSt → ClusterSt) : (s.modCluster k f).strandSeq = s.strandSeq := rfl
@[simp] theorem State.modCluster_launches (k : Nat) (f : ClusterSt → ClusterSt) : (s.modCluster k f).launches = s.launches := rfl
@[simp] theorem State.modCluster_blocks (k : Nat) (f : ClusterSt → ClusterSt) : (s.modCluster k f).blocks = s.blocks := rfl
@[simp] theorem State.modCluster_lastQueue (k : Nat) (f : ClusterSt → ClusterSt) : (s.modCluster k f).lastQueue = s.lastQueue := rfl
@[simp] theorem State.modCluster_packets (k : Nat) (f : ClusterSt → ClusterSt) : (s.modCluster k f).packets = s.packets := rfl
@[simp] theorem State.modCluster_lqFresh (k : Nat) (f : ClusterSt → ClusterSt) : (s.modCluster k f).lqFresh = s.lqFresh := rfl
@[simp] theorem State.modCluster_lqAsked (k : Nat) (f : ClusterSt → ClusterSt) : (s.modCluster k f).lqAsked = s.lqAsked := rfl
@[simp] theorem State.modCluster_lqDue (k : Nat) (f : ClusterSt → ClusterSt) : (s.modCluster k f).lqDue = s.lqDue := rfl
@[simp] theorem State.modCluster_faults (k : Nat) (f : ClusterSt → ClusterSt) : (s.modCluster k f).faults = s.faults := rfl
@[simp] theorem State.modCluster_migs (k : Nat) (f : ClusterSt → ClusterSt) : (s.modCluster k f).migs = s.migs := rfl
@[simp] theorem State.modCluster_wakes (k : Nat) (f : ClusterSt → ClusterSt) : (s.modCluster k f).wakes = s.wakes := rfl
@[simp] theorem State.modCluster_meqWait (k : Nat) (f : ClusterSt → ClusterSt) : (s.modCluster k f).meqWait = s.meqWait := rfl
@[simp] theorem State.modCluster_meqOpen (k : Nat) (f : ClusterSt → ClusterSt) : (s.modCluster k f).meqOpen = s.meqOpen := rfl
@[simp] theorem State.modCluster_meqPend (k : Nat) (f : ClusterSt → ClusterSt) : (s.modCluster k f).meqPend = s.meqPend := rfl
@[simp] theorem State.modCluster_meqSeq (k : Nat) (f : ClusterSt → ClusterSt) : (s.modCluster k f).meqSeq = s.meqSeq := rfl
@[simp] theorem State.modCluster_msix (k : Nat) (f : ClusterSt → ClusterSt) : (s.modCluster k f).msix = s.msix := rfl
@[simp] theorem State.modCluster_hostIn (k : Nat) (f : ClusterSt → ClusterSt) : (s.modCluster k f).hostIn = s.hostIn := rfl
@[simp] theorem State.modCluster_peerIn (k : Nat) (f : ClusterSt → ClusterSt) : (s.modCluster k f).peerIn = s.peerIn := rfl
@[simp] theorem State.modCluster_hostHeld (k : Nat) (f : ClusterSt → ClusterSt) : (s.modCluster k f).hostHeld = s.hostHeld := rfl
@[simp] theorem State.modCluster_peerHeld (k : Nat) (f : ClusterSt → ClusterSt) : (s.modCluster k f).peerHeld = s.peerHeld := rfl
@[simp] theorem State.modCluster_peerOut (k : Nat) (f : ClusterSt → ClusterSt) : (s.modCluster k f).peerOut = s.peerOut := rfl
@[simp] theorem State.modCluster_poison (k : Nat) (f : ClusterSt → ClusterSt) : (s.modCluster k f).poison = s.poison := rfl
@[simp] theorem State.modCluster_poisonStore (k : Nat) (f : ClusterSt → ClusterSt) : (s.modCluster k f).poisonStore = s.poisonStore := rfl
@[simp] theorem State.modCluster_covering (k : Nat) (f : ClusterSt → ClusterSt) : (s.modCluster k f).covering = s.covering := rfl
@[simp] theorem State.modCluster_flaws (k : Nat) (f : ClusterSt → ClusterSt) : (s.modCluster k f).flaws = s.flaws := rfl
@[simp] theorem State.modCluster_corrected (k : Nat) (f : ClusterSt → ClusterSt) : (s.modCluster k f).corrected = s.corrected := rfl
@[simp] theorem State.modCluster_retired (k : Nat) (f : ClusterSt → ClusterSt) : (s.modCluster k f).retired = s.retired := rfl
@[simp] theorem State.modCluster_tolerant (k : Nat) (f : ClusterSt → ClusterSt) : (s.modCluster k f).tolerant = s.tolerant := rfl
@[simp] theorem State.modCluster_links (k : Nat) (f : ClusterSt → ClusterSt) : (s.modCluster k f).links = s.links := rfl
@[simp] theorem State.modCluster_shipped (k : Nat) (f : ClusterSt → ClusterSt) : (s.modCluster k f).shipped = s.shipped := rfl
@[simp] theorem State.modCluster_recalled (k : Nat) (f : ClusterSt → ClusterSt) : (s.modCluster k f).recalled = s.recalled := rfl
@[simp] theorem State.modCluster_foreignParked (k : Nat) (f : ClusterSt → ClusterSt) : (s.modCluster k f).foreignParked = s.foreignParked := rfl
@[simp] theorem State.modCluster_homing (k : Nat) (f : ClusterSt → ClusterSt) : (s.modCluster k f).homing = s.homing := rfl
@[simp] theorem State.modCluster_linkHeld (k : Nat) (f : ClusterSt → ClusterSt) : (s.modCluster k f).linkHeld = s.linkHeld := rfl
@[simp] theorem State.modCluster_denLost (k : Nat) (f : ClusterSt → ClusterSt) : (s.modCluster k f).denLost = s.denLost := rfl
@[simp] theorem State.modCluster_windowQ (k : Nat) (f : ClusterSt → ClusterSt) : (s.modCluster k f).windowQ = s.windowQ := rfl
@[simp] theorem State.modCluster_switching (k : Nat) (f : ClusterSt → ClusterSt) : (s.modCluster k f).switching = s.switching := rfl

/-! ### State.modAcc -/

@[simp] theorem State.modAcc_core (k n : Nat) (f : AccSlot → AccSlot) : (s.modAcc k n f).core = s.core := rfl
@[simp] theorem State.modAcc_slot (k n : Nat) (f : AccSlot → AccSlot) : (s.modAcc k n f).slot = s.slot := rfl
@[simp] theorem State.modAcc_agenda (k n : Nat) (f : AccSlot → AccSlot) : (s.modAcc k n f).agenda = s.agenda := rfl
@[simp] theorem State.modAcc_ticket (k n : Nat) (f : AccSlot → AccSlot) : (s.modAcc k n f).ticket = s.ticket := rfl
@[simp] theorem State.modAcc_free (k n : Nat) (f : AccSlot → AccSlot) : (s.modAcc k n f).free = s.free := rfl
@[simp] theorem State.modAcc_cmdSeq (k n : Nat) (f : AccSlot → AccSlot) : (s.modAcc k n f).cmdSeq = s.cmdSeq := rfl
@[simp] theorem State.modAcc_mem (k n : Nat) (f : AccSlot → AccSlot) : (s.modAcc k n f).mem = s.mem := rfl
@[simp] theorem State.modAcc_full (k n : Nat) (f : AccSlot → AccSlot) : (s.modAcc k n f).full = s.full := rfl
@[simp] theorem State.modAcc_slots (k n : Nat) (f : AccSlot → AccSlot) : (s.modAcc k n f).slots = s.slots := rfl
@[simp] theorem State.modAcc_cores (k n : Nat) (f : AccSlot → AccSlot) : (s.modAcc k n f).cores = s.cores := rfl
@[simp] theorem State.modAcc_dies (k n : Nat) (f : AccSlot → AccSlot) : (s.modAcc k n f).dies = s.dies := rfl
@[simp] theorem State.modAcc_cmds (k n : Nat) (f : AccSlot → AccSlot) : (s.modAcc k n f).cmds = s.cmds := rfl
@[simp] theorem State.modAcc_late (k n : Nat) (f : AccSlot → AccSlot) : (s.modAcc k n f).late = s.late := rfl
@[simp] theorem State.modAcc_upds (k n : Nat) (f : AccSlot → AccSlot) : (s.modAcc k n f).upds = s.upds := rfl
@[simp] theorem State.modAcc_regs (k n : Nat) (f : AccSlot → AccSlot) : (s.modAcc k n f).regs = s.regs := rfl
@[simp] theorem State.modAcc_launchSeq (k n : Nat) (f : AccSlot → AccSlot) : (s.modAcc k n f).launchSeq = s.launchSeq := rfl
@[simp] theorem State.modAcc_strandSeq (k n : Nat) (f : AccSlot → AccSlot) : (s.modAcc k n f).strandSeq = s.strandSeq := rfl
@[simp] theorem State.modAcc_launches (k n : Nat) (f : AccSlot → AccSlot) : (s.modAcc k n f).launches = s.launches := rfl
@[simp] theorem State.modAcc_blocks (k n : Nat) (f : AccSlot → AccSlot) : (s.modAcc k n f).blocks = s.blocks := rfl
@[simp] theorem State.modAcc_lastQueue (k n : Nat) (f : AccSlot → AccSlot) : (s.modAcc k n f).lastQueue = s.lastQueue := rfl
@[simp] theorem State.modAcc_packets (k n : Nat) (f : AccSlot → AccSlot) : (s.modAcc k n f).packets = s.packets := rfl
@[simp] theorem State.modAcc_lqFresh (k n : Nat) (f : AccSlot → AccSlot) : (s.modAcc k n f).lqFresh = s.lqFresh := rfl
@[simp] theorem State.modAcc_lqAsked (k n : Nat) (f : AccSlot → AccSlot) : (s.modAcc k n f).lqAsked = s.lqAsked := rfl
@[simp] theorem State.modAcc_lqDue (k n : Nat) (f : AccSlot → AccSlot) : (s.modAcc k n f).lqDue = s.lqDue := rfl
@[simp] theorem State.modAcc_faults (k n : Nat) (f : AccSlot → AccSlot) : (s.modAcc k n f).faults = s.faults := rfl
@[simp] theorem State.modAcc_migs (k n : Nat) (f : AccSlot → AccSlot) : (s.modAcc k n f).migs = s.migs := rfl
@[simp] theorem State.modAcc_wakes (k n : Nat) (f : AccSlot → AccSlot) : (s.modAcc k n f).wakes = s.wakes := rfl
@[simp] theorem State.modAcc_meqWait (k n : Nat) (f : AccSlot → AccSlot) : (s.modAcc k n f).meqWait = s.meqWait := rfl
@[simp] theorem State.modAcc_meqOpen (k n : Nat) (f : AccSlot → AccSlot) : (s.modAcc k n f).meqOpen = s.meqOpen := rfl
@[simp] theorem State.modAcc_meqPend (k n : Nat) (f : AccSlot → AccSlot) : (s.modAcc k n f).meqPend = s.meqPend := rfl
@[simp] theorem State.modAcc_meqSeq (k n : Nat) (f : AccSlot → AccSlot) : (s.modAcc k n f).meqSeq = s.meqSeq := rfl
@[simp] theorem State.modAcc_msix (k n : Nat) (f : AccSlot → AccSlot) : (s.modAcc k n f).msix = s.msix := rfl
@[simp] theorem State.modAcc_hostIn (k n : Nat) (f : AccSlot → AccSlot) : (s.modAcc k n f).hostIn = s.hostIn := rfl
@[simp] theorem State.modAcc_peerIn (k n : Nat) (f : AccSlot → AccSlot) : (s.modAcc k n f).peerIn = s.peerIn := rfl
@[simp] theorem State.modAcc_hostHeld (k n : Nat) (f : AccSlot → AccSlot) : (s.modAcc k n f).hostHeld = s.hostHeld := rfl
@[simp] theorem State.modAcc_peerHeld (k n : Nat) (f : AccSlot → AccSlot) : (s.modAcc k n f).peerHeld = s.peerHeld := rfl
@[simp] theorem State.modAcc_peerOut (k n : Nat) (f : AccSlot → AccSlot) : (s.modAcc k n f).peerOut = s.peerOut := rfl
@[simp] theorem State.modAcc_poison (k n : Nat) (f : AccSlot → AccSlot) : (s.modAcc k n f).poison = s.poison := rfl
@[simp] theorem State.modAcc_poisonStore (k n : Nat) (f : AccSlot → AccSlot) : (s.modAcc k n f).poisonStore = s.poisonStore := rfl
@[simp] theorem State.modAcc_covering (k n : Nat) (f : AccSlot → AccSlot) : (s.modAcc k n f).covering = s.covering := rfl
@[simp] theorem State.modAcc_flaws (k n : Nat) (f : AccSlot → AccSlot) : (s.modAcc k n f).flaws = s.flaws := rfl
@[simp] theorem State.modAcc_corrected (k n : Nat) (f : AccSlot → AccSlot) : (s.modAcc k n f).corrected = s.corrected := rfl
@[simp] theorem State.modAcc_retired (k n : Nat) (f : AccSlot → AccSlot) : (s.modAcc k n f).retired = s.retired := rfl
@[simp] theorem State.modAcc_tolerant (k n : Nat) (f : AccSlot → AccSlot) : (s.modAcc k n f).tolerant = s.tolerant := rfl
@[simp] theorem State.modAcc_links (k n : Nat) (f : AccSlot → AccSlot) : (s.modAcc k n f).links = s.links := rfl
@[simp] theorem State.modAcc_shipped (k n : Nat) (f : AccSlot → AccSlot) : (s.modAcc k n f).shipped = s.shipped := rfl
@[simp] theorem State.modAcc_recalled (k n : Nat) (f : AccSlot → AccSlot) : (s.modAcc k n f).recalled = s.recalled := rfl
@[simp] theorem State.modAcc_foreignParked (k n : Nat) (f : AccSlot → AccSlot) : (s.modAcc k n f).foreignParked = s.foreignParked := rfl
@[simp] theorem State.modAcc_homing (k n : Nat) (f : AccSlot → AccSlot) : (s.modAcc k n f).homing = s.homing := rfl
@[simp] theorem State.modAcc_linkHeld (k n : Nat) (f : AccSlot → AccSlot) : (s.modAcc k n f).linkHeld = s.linkHeld := rfl
@[simp] theorem State.modAcc_denLost (k n : Nat) (f : AccSlot → AccSlot) : (s.modAcc k n f).denLost = s.denLost := rfl
@[simp] theorem State.modAcc_windowQ (k n : Nat) (f : AccSlot → AccSlot) : (s.modAcc k n f).windowQ = s.windowQ := rfl
@[simp] theorem State.modAcc_switching (k n : Nat) (f : AccSlot → AccSlot) : (s.modAcc k n f).switching = s.switching := rfl

/-! ### State.modDie -/

@[simp] theorem State.modDie_core (d : Nat) (f : DieSt → DieSt) : (s.modDie d f).core = s.core := rfl
@[simp] theorem State.modDie_slot (d : Nat) (f : DieSt → DieSt) : (s.modDie d f).slot = s.slot := rfl
@[simp] theorem State.modDie_agenda (d : Nat) (f : DieSt → DieSt) : (s.modDie d f).agenda = s.agenda := rfl
@[simp] theorem State.modDie_ticket (d : Nat) (f : DieSt → DieSt) : (s.modDie d f).ticket = s.ticket := rfl
@[simp] theorem State.modDie_free (d : Nat) (f : DieSt → DieSt) : (s.modDie d f).free = s.free := rfl
@[simp] theorem State.modDie_cmdSeq (d : Nat) (f : DieSt → DieSt) : (s.modDie d f).cmdSeq = s.cmdSeq := rfl
@[simp] theorem State.modDie_mem (d : Nat) (f : DieSt → DieSt) : (s.modDie d f).mem = s.mem := rfl
@[simp] theorem State.modDie_full (d : Nat) (f : DieSt → DieSt) : (s.modDie d f).full = s.full := rfl
@[simp] theorem State.modDie_slots (d : Nat) (f : DieSt → DieSt) : (s.modDie d f).slots = s.slots := rfl
@[simp] theorem State.modDie_cores (d : Nat) (f : DieSt → DieSt) : (s.modDie d f).cores = s.cores := rfl
@[simp] theorem State.modDie_clusters (d : Nat) (f : DieSt → DieSt) : (s.modDie d f).clusters = s.clusters := rfl
@[simp] theorem State.modDie_cmds (d : Nat) (f : DieSt → DieSt) : (s.modDie d f).cmds = s.cmds := rfl
@[simp] theorem State.modDie_late (d : Nat) (f : DieSt → DieSt) : (s.modDie d f).late = s.late := rfl
@[simp] theorem State.modDie_upds (d : Nat) (f : DieSt → DieSt) : (s.modDie d f).upds = s.upds := rfl
@[simp] theorem State.modDie_regs (d : Nat) (f : DieSt → DieSt) : (s.modDie d f).regs = s.regs := rfl
@[simp] theorem State.modDie_launchSeq (d : Nat) (f : DieSt → DieSt) : (s.modDie d f).launchSeq = s.launchSeq := rfl
@[simp] theorem State.modDie_strandSeq (d : Nat) (f : DieSt → DieSt) : (s.modDie d f).strandSeq = s.strandSeq := rfl
@[simp] theorem State.modDie_launches (d : Nat) (f : DieSt → DieSt) : (s.modDie d f).launches = s.launches := rfl
@[simp] theorem State.modDie_blocks (d : Nat) (f : DieSt → DieSt) : (s.modDie d f).blocks = s.blocks := rfl
@[simp] theorem State.modDie_lastQueue (d : Nat) (f : DieSt → DieSt) : (s.modDie d f).lastQueue = s.lastQueue := rfl
@[simp] theorem State.modDie_packets (d : Nat) (f : DieSt → DieSt) : (s.modDie d f).packets = s.packets := rfl
@[simp] theorem State.modDie_lqFresh (d : Nat) (f : DieSt → DieSt) : (s.modDie d f).lqFresh = s.lqFresh := rfl
@[simp] theorem State.modDie_lqAsked (d : Nat) (f : DieSt → DieSt) : (s.modDie d f).lqAsked = s.lqAsked := rfl
@[simp] theorem State.modDie_lqDue (d : Nat) (f : DieSt → DieSt) : (s.modDie d f).lqDue = s.lqDue := rfl
@[simp] theorem State.modDie_faults (d : Nat) (f : DieSt → DieSt) : (s.modDie d f).faults = s.faults := rfl
@[simp] theorem State.modDie_migs (d : Nat) (f : DieSt → DieSt) : (s.modDie d f).migs = s.migs := rfl
@[simp] theorem State.modDie_wakes (d : Nat) (f : DieSt → DieSt) : (s.modDie d f).wakes = s.wakes := rfl
@[simp] theorem State.modDie_meqWait (d : Nat) (f : DieSt → DieSt) : (s.modDie d f).meqWait = s.meqWait := rfl
@[simp] theorem State.modDie_meqOpen (d : Nat) (f : DieSt → DieSt) : (s.modDie d f).meqOpen = s.meqOpen := rfl
@[simp] theorem State.modDie_meqPend (d : Nat) (f : DieSt → DieSt) : (s.modDie d f).meqPend = s.meqPend := rfl
@[simp] theorem State.modDie_meqSeq (d : Nat) (f : DieSt → DieSt) : (s.modDie d f).meqSeq = s.meqSeq := rfl
@[simp] theorem State.modDie_msix (d : Nat) (f : DieSt → DieSt) : (s.modDie d f).msix = s.msix := rfl
@[simp] theorem State.modDie_hostIn (d : Nat) (f : DieSt → DieSt) : (s.modDie d f).hostIn = s.hostIn := rfl
@[simp] theorem State.modDie_peerIn (d : Nat) (f : DieSt → DieSt) : (s.modDie d f).peerIn = s.peerIn := rfl
@[simp] theorem State.modDie_hostHeld (d : Nat) (f : DieSt → DieSt) : (s.modDie d f).hostHeld = s.hostHeld := rfl
@[simp] theorem State.modDie_peerHeld (d : Nat) (f : DieSt → DieSt) : (s.modDie d f).peerHeld = s.peerHeld := rfl
@[simp] theorem State.modDie_peerOut (d : Nat) (f : DieSt → DieSt) : (s.modDie d f).peerOut = s.peerOut := rfl
@[simp] theorem State.modDie_poison (d : Nat) (f : DieSt → DieSt) : (s.modDie d f).poison = s.poison := rfl
@[simp] theorem State.modDie_poisonStore (d : Nat) (f : DieSt → DieSt) : (s.modDie d f).poisonStore = s.poisonStore := rfl
@[simp] theorem State.modDie_covering (d : Nat) (f : DieSt → DieSt) : (s.modDie d f).covering = s.covering := rfl
@[simp] theorem State.modDie_flaws (d : Nat) (f : DieSt → DieSt) : (s.modDie d f).flaws = s.flaws := rfl
@[simp] theorem State.modDie_corrected (d : Nat) (f : DieSt → DieSt) : (s.modDie d f).corrected = s.corrected := rfl
@[simp] theorem State.modDie_retired (d : Nat) (f : DieSt → DieSt) : (s.modDie d f).retired = s.retired := rfl
@[simp] theorem State.modDie_tolerant (d : Nat) (f : DieSt → DieSt) : (s.modDie d f).tolerant = s.tolerant := rfl
@[simp] theorem State.modDie_links (d : Nat) (f : DieSt → DieSt) : (s.modDie d f).links = s.links := rfl
@[simp] theorem State.modDie_shipped (d : Nat) (f : DieSt → DieSt) : (s.modDie d f).shipped = s.shipped := rfl
@[simp] theorem State.modDie_recalled (d : Nat) (f : DieSt → DieSt) : (s.modDie d f).recalled = s.recalled := rfl
@[simp] theorem State.modDie_foreignParked (d : Nat) (f : DieSt → DieSt) : (s.modDie d f).foreignParked = s.foreignParked := rfl
@[simp] theorem State.modDie_homing (d : Nat) (f : DieSt → DieSt) : (s.modDie d f).homing = s.homing := rfl
@[simp] theorem State.modDie_linkHeld (d : Nat) (f : DieSt → DieSt) : (s.modDie d f).linkHeld = s.linkHeld := rfl
@[simp] theorem State.modDie_denLost (d : Nat) (f : DieSt → DieSt) : (s.modDie d f).denLost = s.denLost := rfl
@[simp] theorem State.modDie_windowQ (d : Nat) (f : DieSt → DieSt) : (s.modDie d f).windowQ = s.windowQ := rfl
@[simp] theorem State.modDie_switching (d : Nat) (f : DieSt → DieSt) : (s.modDie d f).switching = s.switching := rfl

/-! ### State.modBlock -/

@[simp] theorem State.modBlock_core (l b : Nat) (f : Block → Block) : (s.modBlock l b f).core = s.core := rfl
@[simp] theorem State.modBlock_slot (l b : Nat) (f : Block → Block) : (s.modBlock l b f).slot = s.slot := rfl
@[simp] theorem State.modBlock_agenda (l b : Nat) (f : Block → Block) : (s.modBlock l b f).agenda = s.agenda := rfl
@[simp] theorem State.modBlock_ticket (l b : Nat) (f : Block → Block) : (s.modBlock l b f).ticket = s.ticket := rfl
@[simp] theorem State.modBlock_free (l b : Nat) (f : Block → Block) : (s.modBlock l b f).free = s.free := rfl
@[simp] theorem State.modBlock_cmdSeq (l b : Nat) (f : Block → Block) : (s.modBlock l b f).cmdSeq = s.cmdSeq := rfl
@[simp] theorem State.modBlock_mem (l b : Nat) (f : Block → Block) : (s.modBlock l b f).mem = s.mem := rfl
@[simp] theorem State.modBlock_full (l b : Nat) (f : Block → Block) : (s.modBlock l b f).full = s.full := rfl
@[simp] theorem State.modBlock_slots (l b : Nat) (f : Block → Block) : (s.modBlock l b f).slots = s.slots := rfl
@[simp] theorem State.modBlock_cores (l b : Nat) (f : Block → Block) : (s.modBlock l b f).cores = s.cores := rfl
@[simp] theorem State.modBlock_clusters (l b : Nat) (f : Block → Block) : (s.modBlock l b f).clusters = s.clusters := rfl
@[simp] theorem State.modBlock_dies (l b : Nat) (f : Block → Block) : (s.modBlock l b f).dies = s.dies := rfl
@[simp] theorem State.modBlock_cmds (l b : Nat) (f : Block → Block) : (s.modBlock l b f).cmds = s.cmds := rfl
@[simp] theorem State.modBlock_late (l b : Nat) (f : Block → Block) : (s.modBlock l b f).late = s.late := rfl
@[simp] theorem State.modBlock_upds (l b : Nat) (f : Block → Block) : (s.modBlock l b f).upds = s.upds := rfl
@[simp] theorem State.modBlock_regs (l b : Nat) (f : Block → Block) : (s.modBlock l b f).regs = s.regs := rfl
@[simp] theorem State.modBlock_launchSeq (l b : Nat) (f : Block → Block) : (s.modBlock l b f).launchSeq = s.launchSeq := rfl
@[simp] theorem State.modBlock_strandSeq (l b : Nat) (f : Block → Block) : (s.modBlock l b f).strandSeq = s.strandSeq := rfl
@[simp] theorem State.modBlock_launches (l b : Nat) (f : Block → Block) : (s.modBlock l b f).launches = s.launches := rfl
@[simp] theorem State.modBlock_lastQueue (l b : Nat) (f : Block → Block) : (s.modBlock l b f).lastQueue = s.lastQueue := rfl
@[simp] theorem State.modBlock_packets (l b : Nat) (f : Block → Block) : (s.modBlock l b f).packets = s.packets := rfl
@[simp] theorem State.modBlock_lqFresh (l b : Nat) (f : Block → Block) : (s.modBlock l b f).lqFresh = s.lqFresh := rfl
@[simp] theorem State.modBlock_lqAsked (l b : Nat) (f : Block → Block) : (s.modBlock l b f).lqAsked = s.lqAsked := rfl
@[simp] theorem State.modBlock_lqDue (l b : Nat) (f : Block → Block) : (s.modBlock l b f).lqDue = s.lqDue := rfl
@[simp] theorem State.modBlock_faults (l b : Nat) (f : Block → Block) : (s.modBlock l b f).faults = s.faults := rfl
@[simp] theorem State.modBlock_migs (l b : Nat) (f : Block → Block) : (s.modBlock l b f).migs = s.migs := rfl
@[simp] theorem State.modBlock_wakes (l b : Nat) (f : Block → Block) : (s.modBlock l b f).wakes = s.wakes := rfl
@[simp] theorem State.modBlock_meqWait (l b : Nat) (f : Block → Block) : (s.modBlock l b f).meqWait = s.meqWait := rfl
@[simp] theorem State.modBlock_meqOpen (l b : Nat) (f : Block → Block) : (s.modBlock l b f).meqOpen = s.meqOpen := rfl
@[simp] theorem State.modBlock_meqPend (l b : Nat) (f : Block → Block) : (s.modBlock l b f).meqPend = s.meqPend := rfl
@[simp] theorem State.modBlock_meqSeq (l b : Nat) (f : Block → Block) : (s.modBlock l b f).meqSeq = s.meqSeq := rfl
@[simp] theorem State.modBlock_msix (l b : Nat) (f : Block → Block) : (s.modBlock l b f).msix = s.msix := rfl
@[simp] theorem State.modBlock_hostIn (l b : Nat) (f : Block → Block) : (s.modBlock l b f).hostIn = s.hostIn := rfl
@[simp] theorem State.modBlock_peerIn (l b : Nat) (f : Block → Block) : (s.modBlock l b f).peerIn = s.peerIn := rfl
@[simp] theorem State.modBlock_hostHeld (l b : Nat) (f : Block → Block) : (s.modBlock l b f).hostHeld = s.hostHeld := rfl
@[simp] theorem State.modBlock_peerHeld (l b : Nat) (f : Block → Block) : (s.modBlock l b f).peerHeld = s.peerHeld := rfl
@[simp] theorem State.modBlock_peerOut (l b : Nat) (f : Block → Block) : (s.modBlock l b f).peerOut = s.peerOut := rfl
@[simp] theorem State.modBlock_poison (l b : Nat) (f : Block → Block) : (s.modBlock l b f).poison = s.poison := rfl
@[simp] theorem State.modBlock_poisonStore (l b : Nat) (f : Block → Block) : (s.modBlock l b f).poisonStore = s.poisonStore := rfl
@[simp] theorem State.modBlock_covering (l b : Nat) (f : Block → Block) : (s.modBlock l b f).covering = s.covering := rfl
@[simp] theorem State.modBlock_flaws (l b : Nat) (f : Block → Block) : (s.modBlock l b f).flaws = s.flaws := rfl
@[simp] theorem State.modBlock_corrected (l b : Nat) (f : Block → Block) : (s.modBlock l b f).corrected = s.corrected := rfl
@[simp] theorem State.modBlock_retired (l b : Nat) (f : Block → Block) : (s.modBlock l b f).retired = s.retired := rfl
@[simp] theorem State.modBlock_tolerant (l b : Nat) (f : Block → Block) : (s.modBlock l b f).tolerant = s.tolerant := rfl
@[simp] theorem State.modBlock_links (l b : Nat) (f : Block → Block) : (s.modBlock l b f).links = s.links := rfl
@[simp] theorem State.modBlock_shipped (l b : Nat) (f : Block → Block) : (s.modBlock l b f).shipped = s.shipped := rfl
@[simp] theorem State.modBlock_recalled (l b : Nat) (f : Block → Block) : (s.modBlock l b f).recalled = s.recalled := rfl
@[simp] theorem State.modBlock_foreignParked (l b : Nat) (f : Block → Block) : (s.modBlock l b f).foreignParked = s.foreignParked := rfl
@[simp] theorem State.modBlock_homing (l b : Nat) (f : Block → Block) : (s.modBlock l b f).homing = s.homing := rfl
@[simp] theorem State.modBlock_linkHeld (l b : Nat) (f : Block → Block) : (s.modBlock l b f).linkHeld = s.linkHeld := rfl
@[simp] theorem State.modBlock_denLost (l b : Nat) (f : Block → Block) : (s.modBlock l b f).denLost = s.denLost := rfl
@[simp] theorem State.modBlock_windowQ (l b : Nat) (f : Block → Block) : (s.modBlock l b f).windowQ = s.windowQ := rfl
@[simp] theorem State.modBlock_switching (l b : Nat) (f : Block → Block) : (s.modBlock l b f).switching = s.switching := rfl

end Sys2Proof.Machine
end

