-- ==== Sys2Proof/Laws/Tables.lean ====
section
/-! SUPPORT. Sparse tables: what an entry reads as after a write, and what that says of slots, cores, clusters and dies. -/

namespace Sys2Proof.Machine

variable {α : Type}

@[simp] theorem Table.get_nil (d : α) (n : Nat) : Table.get d [] n = d := rfl

theorem Table.get_set_same (d : α) (t : Table α) (n : Nat) (x : α) : Table.get d (t.set n x) n = x := by
  induction t with
  | nil => simp [Table.set, Table.get]
  | cons e r ih =>
    obtain ⟨k, v⟩ := e
    by_cases h1 : n < k
    · simp [Table.set, Table.get, h1]
    · by_cases h2 : n = k
      · simp [Table.set, Table.get, h2]
      · simp [Table.set, Table.get, h1, h2, Ne.symm h2, ih]

theorem Table.get_set_other (d : α) (t : Table α) {n m : Nat} (x : α) (h : m ≠ n) :
    Table.get d (t.set n x) m = Table.get d t m := by
  induction t with
  | nil => simp [Table.set, Table.get, h.symm]
  | cons e r ih =>
    obtain ⟨k, v⟩ := e
    by_cases h1 : n < k
    · simp [Table.set, Table.get, h1, h.symm]
    · by_cases h2 : n = k
      · subst h2; simp [Table.set, Table.get, h.symm]
      · simp [Table.set, Table.get, h1, h2, ih]

/-- Rewriting one entry twice keeps the last value. -/
theorem Table.set_set (t : Table α) (n : Nat) (x y : α) : (t.set n x).set n y = t.set n y := by
  induction t with
  | nil => simp [Table.set]
  | cons e r ih =>
    obtain ⟨k, v⟩ := e
    by_cases h1 : n < k
    · simp [Table.set, h1]
    · by_cases h2 : n = k
      · subst h2; simp [Table.set]
      · simp [Table.set, h1, h2, ih]

@[simp] theorem State.slotAt_setSlot (s : State) (c k : Nat) (x : Slot) : (s.setSlot c k x).slotAt c k = x :=
  Table.get_set_same ..
@[simp] theorem State.setSlot_setSlot (s : State) (c k : Nat) (x y : Slot) :
    (s.setSlot c k x).setSlot c k y = s.setSlot c k y := by
  simp [State.setSlot, Table.set_set]
theorem State.slotAt_setSlot_other (s : State) {c k d j : Nat} (x : Slot) (h : 16 * d + j ≠ 16 * c + k) :
    (s.setSlot c k x).slotAt d j = s.slotAt d j := Table.get_set_other _ _ _ h
@[simp] theorem State.cur_setCur (s : State) (x : Slot) : (s.setCur x).cur = x := Table.get_set_same ..
@[simp] theorem State.cur_modCur (s : State) (f : Slot → Slot) : (s.modCur f).cur = f s.cur := Table.get_set_same ..
@[simp] theorem State.setCur_setCur (s : State) (x y : Slot) : (s.setCur x).setCur y = s.setCur y := by
  simp [State.setCur]
@[simp] theorem State.cur_modCtx (s : State) (f : Ctx → Ctx) : (s.modCtx f).cur = { s.cur with ctx := f s.cur.ctx } :=
  Table.get_set_same ..
@[simp] theorem State.cur_modChunk (s : State) (f : Chunk → Chunk) :
    (s.modChunk f).cur = { s.cur with chunk := f s.cur.chunk } := Table.get_set_same ..
@[simp] theorem State.coreAt_modCore (s : State) (c : Nat) (f : CoreSt → CoreSt) : (s.modCore c f).coreAt c = f (s.coreAt c) :=
  Table.get_set_same ..
theorem State.coreAt_modCore_other (s : State) {c d : Nat} (f : CoreSt → CoreSt) (h : d ≠ c) :
    (s.modCore c f).coreAt d = s.coreAt d := Table.get_set_other _ _ _ h
@[simp] theorem State.clusterAt_modCluster (s : State) (c : Nat) (f : ClusterSt → ClusterSt) :
    (s.modCluster c f).clusterAt c = f (s.clusterAt c) := Table.get_set_same ..
@[simp] theorem State.dieAt_modDie (s : State) (d : Nat) (f : DieSt → DieSt) : (s.modDie d f).dieAt d = f (s.dieAt d) :=
  Table.get_set_same ..
@[simp] theorem State.slotAt_modCore (s : State) (c d k : Nat) (f : CoreSt → CoreSt) :
    (s.modCore c f).slotAt d k = s.slotAt d k := rfl
@[simp] theorem State.cur_modCore (s : State) (c : Nat) (f : CoreSt → CoreSt) : (s.modCore c f).cur = s.cur := rfl
@[simp] theorem State.cur_modCluster (s : State) (c : Nat) (f : ClusterSt → ClusterSt) : (s.modCluster c f).cur = s.cur := rfl
@[simp] theorem State.cur_modDie (s : State) (c : Nat) (f : DieSt → DieSt) : (s.modDie c f).cur = s.cur := rfl
@[simp] theorem State.coreAt_setSlot (s : State) (c k d : Nat) (x : Slot) : (s.setSlot c k x).coreAt d = s.coreAt d := rfl
@[simp] theorem State.coreAt_modCur (s : State) (f : Slot → Slot) (d : Nat) : (s.modCur f).coreAt d = s.coreAt d := rfl

end Sys2Proof.Machine
end

