-- ==== Sys2Proof/Laws/Memory.lean ====
section
/-! SUPPORT. Memory: the canonical form (Memory.wf) as an ordering, that every operation on memory keeps it, and read
after write. -/

namespace Sys2Proof.Machine

/-- Every cell from an address up, in the order of addresses and none holding what an unlisted address reads as. -/
def Memory.From (lo : Nat) : Memory → Prop
  | [] => True
  | (a, b) :: r => lo ≤ a ∧ b ≠ Memory.unlisted ∧ Memory.From (a + 1) r

theorem Memory.From.weaken {m : Memory} {lo hi : Nat} (h : m.From hi) (le : lo ≤ hi) : m.From lo := by
  cases m with
  | nil => trivial
  | cons e r => exact ⟨le.trans h.1, h.2⟩

theorem Memory.wf_iff (m : Memory) : m.wf = true ↔ m.From 0 := by
  suffices ∀ (r : Memory) (a : Nat) (b : Byte), Memory.wf ((a, b) :: r) = true ↔ b ≠ Memory.unlisted ∧ Memory.From (a + 1) r by
    cases m with
    | nil => simp [Memory.wf, Memory.From]
    | cons e r => simpa [Memory.From] using this r e.1 e.2
  intro r
  induction r with
  | nil => simp [Memory.wf, Memory.From]
  | cons e r ih =>
    intro a b
    obtain ⟨a', b'⟩ := e
    have := ih a' b'
    simp only [Memory.wf, Bool.and_eq_true, decide_eq_true_eq, bne_iff_ne, this, Memory.From]
    constructor <;> rintro ⟨h1, h2⟩
    · exact ⟨h1.2, h1.1, h2⟩
    · exact ⟨⟨h2.1, h1⟩, h2.2⟩

theorem Memory.From.write {m : Memory} {lo : Nat} (h : m.From lo) (n : Nat) (x : Byte) (hn : lo ≤ n) : (m.write n x).From lo := by
  induction m generalizing lo with
  | nil => by_cases hx : x = Memory.unlisted <;> simp [Memory.write, Memory.From, hx, hn]
  | cons e r ih =>
    obtain ⟨a, b⟩ := e
    obtain ⟨h1, h2, h3⟩ := h
    by_cases c1 : n < a
    · by_cases hx : x = Memory.unlisted
      · simpa [Memory.write, c1, hx] using ⟨h1, h2, h3⟩
      · simp only [Memory.write, c1, hx, if_true, if_false]
        exact ⟨hn, hx, by omega, h2, h3⟩
    · by_cases c2 : n = a
      · by_cases hx : x = Memory.unlisted
        · simpa [Memory.write, c2, hx] using h3.weaken (by omega)
        · subst c2
          simp only [Memory.write, lt_irrefl, hx, if_true, if_false]
          exact ⟨hn, hx, h3⟩
      · simp only [Memory.write, c1, c2, if_false]
        exact ⟨h1, h2, ih h3 (by omega)⟩

/-- One byte written keeps the canonical form. -/
theorem Memory.wf_write {m : Memory} (h : m.wf = true) (n : Nat) (x : Byte) : (m.write n x).wf = true := by
  rw [Memory.wf_iff] at *; exact h.write n x (Nat.zero_le n)

theorem Memory.wf_writeN {m : Memory} (h : m.wf = true) (a : Nat) (l : List Byte) : (m.writeN a l).wf = true := by
  induction l generalizing m a with
  | nil => exact h
  | cons b r ih => exact ih (Memory.wf_write h a b) (a + 1)

theorem Memory.wf_writeNat {m : Memory} (h : m.wf = true) (a n v : Nat) : (m.writeNat a n v).wf = true :=
  Memory.wf_writeN h a _

theorem Memory.From.filter {m : Memory} {lo : Nat} (h : m.From lo) (p : Host.Cell → Bool) : Memory.From lo (m.filter p) := by
  induction m generalizing lo with
  | nil => trivial
  | cons e r ih =>
    obtain ⟨a, b⟩ := e
    by_cases hp : p (a, b)
    · rw [List.filter_cons_of_pos hp]
      exact ⟨h.1, h.2.1, ih h.2.2⟩
    · simpa [hp] using (ih h.2.2).weaken (by have := h.1; omega)

/-- Dropping cells keeps the canonical form. -/
theorem Memory.wf_filter {m : Memory} (h : m.wf = true) (p : Host.Cell → Bool) : Memory.wf (m.filter p) = true := by
  rw [Memory.wf_iff] at *; exact h.filter p

theorem Memory.read_below {m : Memory} {lo n : Nat} (h : m.From lo) (hn : n < lo) : m.read n = Memory.unlisted := by
  cases m with
  | nil => rfl
  | cons e r =>
    obtain ⟨a, b⟩ := e
    have := h.1
    simp [Memory.read, show a ≠ n by omega, show n < a by omega]

/-- Read after write, at the byte written and at every other. -/
theorem Memory.read_write {m : Memory} (h : m.wf = true) (n k : Nat) (x : Byte) :
    (m.write n x).read k = if k = n then x else m.read k := by
  suffices ∀ (m : Memory) (lo : Nat), m.From lo → (m.write n x).read k = if k = n then x else m.read k from
    this m 0 ((Memory.wf_iff m).1 h)
  intro m
  induction m with
  | nil =>
    intro lo _
    by_cases hx : x = Memory.unlisted <;> by_cases hk : k = n
      <;> simp [Memory.write, Memory.read, hx, hk]
    intro e; exact absurd e.symm hk
  | cons e r ih =>
    intro lo hm
    obtain ⟨a, b⟩ := e
    obtain ⟨h1, h2, h3⟩ := hm
    by_cases c1 : n < a
    · by_cases hx : x = Memory.unlisted
      · simp only [Memory.write, c1, if_true, hx]
        by_cases hk : k = n
        · simp [hk, Memory.read, show a ≠ n by omega, c1]
        · simp [hk]
      · simp only [Memory.write, c1, if_true, hx, if_false]
        by_cases hk : k = n
        · simp [hk, Memory.read]
        · by_cases c3 : k < n
          · simp [Memory.read, Ne.symm hk, hk, c3, show a ≠ k by omega, show k < a by omega]
          · simp [Memory.read, Ne.symm hk, hk, c3]
    · by_cases c2 : n = a
      · subst c2
        by_cases hx : x = Memory.unlisted
        · by_cases hk : k = n
          · simp [Memory.write, hx, hk, Memory.read_below h3]
          · simp only [Memory.write, lt_irrefl, if_false, if_true, hx, hk]
            by_cases c3 : k < n
            · simp [Memory.read, Ne.symm hk, c3, Memory.read_below h3 (show k < n + 1 by omega)]
            · simp [Memory.read, Ne.symm hk, c3]
        · by_cases hk : k = n
          · simp [Memory.write, hx, hk, Memory.read]
          · simp [Memory.write, hx, hk, Memory.read, Ne.symm hk]
      · simp only [Memory.write, c1, if_false, c2]
        by_cases c4 : a = k
        · simp [Memory.read, c4, show k ≠ n by omega]
        · by_cases c5 : k < a
          · simp [Memory.read, c4, c5, show k ≠ n by omega]
          · simp [Memory.read, c4, c5, ih (a + 1) h3]

/-- A write of several bytes: the bytes written, and every other byte as before. -/
theorem Memory.read_writeN {m : Memory} (h : m.wf = true) (a k : Nat) (l : List Byte) :
    (m.writeN a l).read k = if a ≤ k ∧ k < a + l.length then l.getD (k - a) 0 else m.read k := by
  induction l generalizing m a with
  | nil => simp [Memory.writeN, show ¬(a ≤ k ∧ k < a) by omega]
  | cons b r ih =>
    rw [Memory.writeN, ih (Memory.wf_write h a b), Memory.read_write h]
    by_cases hk : k = a
    · subst hk; simp
    · by_cases h2 : a + 1 ≤ k ∧ k < a + 1 + r.length
      · have h3 : k - a = (k - (a + 1)) + 1 := by omega
        simp [h2, h3, show a ≤ k ∧ k < a + (r.length + 1) by omega]
      · rw [if_neg h2, if_neg hk, if_neg (by rw [List.length_cons]; omega)]

@[simp] theorem leBytes_length (n v : Nat) : (leBytes n v).length = n := by
  induction n generalizing v with
  | zero => rfl
  | succ n ih => simp [leBytes, ih]

/-- Bytes written lowest first read back as the number they were made from. -/
theorem leNat_leBytes (n v : Nat) : leNat (leBytes n v) = v % 256 ^ n := by
  induction n generalizing v with
  | zero => simp [leBytes, leNat, Nat.mod_one]
  | succ n ih =>
    rw [leBytes, leNat, ih, BitVec.toNat_ofNat, pow_succ' 256 n, Nat.mod_mul]

/-- A number written and read back at the same place. -/
theorem Memory.readNat_writeNat {m : Memory} (h : m.wf = true) (a n v : Nat) :
    (m.writeNat a n v).readNat a n = v % 256 ^ n := by
  have : (m.writeN a (leBytes n v)).readN a n = leBytes n v := by
    apply List.ext_getElem
    · simp [Memory.readN]
    · intro i h1 h2
      simp only [leBytes_length] at h2
      simp [Memory.readN, Memory.read_writeN h, h2]
  rw [Memory.writeNat, Memory.readNat, this, leNat_leBytes]

/-- The machine after reset holds canonical memory. -/
theorem reset_mem_wf : State.reset.mem.wf = true := rfl

end Sys2Proof.Machine
end

