-- ==== Sys2Proof/Laws/Issue.lean ====
section
/-! SUPPORT. Issuing: all that `issue`, `settle` and `closeBefore` can answer, what opening a chunk and retiring leave, and how
a meaning's steps run one after another. -/

namespace Sys2Proof.Machine

/-! ### Meanings run step by step -/

theorem M.run_bind {α β : Type} (m : M α) (f : α → M β) (s : State) :
    (m >>= f).run s = match m.run s with
      | .ok r => (f r.1).run r.2
      | .error e => .error e := by
  rw [StateT.run_bind]
  cases m.run s <;> rfl
theorem M.run_bind_ok {α β : Type} {m : M α} {f : α → M β} {s s' : State} {x : α} (h : m.run s = .ok (x, s')) :
    (m >>= f).run s = (f x).run s' := by
  rw [M.run_bind, h]
@[simp] theorem M.run_pure {α : Type} (x : α) (s : State) : (pure x : M α).run s = .ok (x, s) := rfl
@[simp] theorem M.run_get (s : State) : (get : M State).run s = .ok (s, s) := rfl
@[simp] theorem M.run_set (s t : State) : (set t : M PUnit).run s = .ok (⟨⟩, t) := rfl
@[simp] theorem M.run_modify (f : State → State) (s : State) : (modify f : M Unit).run s = .ok ((), f s) := rfl
@[simp] theorem M.run_stop {α : Type} (e : Stop) (s : State) : (stop e : M α).run s = .error e := rfl
@[simp] theorem M.run_waitFor {α : Type} (w : Wait) (s : State) : (waitFor w : M α).run s = .error (.wait w s.cur.chunk.takes) := rfl
@[simp] theorem run_hold (h : Held) (s : State) :
    (hold h).run s = .ok ((), s.modChunk fun c => { c with held := c.held ++ [h] }) := rfl
@[simp] theorem run_endAfter (s : State) : endAfter.run s = .ok ((), s.modChunk fun c => { c with ended := true }) := rfl

/-! ### Opening a chunk -/

theorem State.openChunk_eq (s : State) : s.openChunk = s.setCur (s.cur.opened s.isCtrl) := rfl

theorem Slot.opened_keeps (x : Slot) (b : Bool) :
    (x.opened b).ctx = x.ctx ∧ (x.opened b).vec = x.vec ∧ (x.opened b).streams = x.streams ∧ (x.opened b).svuQ = x.svuQ
      ∧ (x.opened b).occ = x.occ ∧ (x.opened b).gbuf = x.gbuf ∧ (x.opened b).tepc = x.tepc ∧ (x.opened b).tcause = x.tcause
      ∧ (x.opened b).taddr = x.taddr ∧ (x.opened b).unit = x.unit ∧ (x.opened b).dictWord = x.dictWord := by
  unfold Slot.opened; split <;> simp

@[simp] theorem State.cur_openChunk (s : State) : s.openChunk.cur = s.cur.opened s.isCtrl := by
  rw [State.openChunk_eq, State.cur_setCur]
@[simp] theorem Slot.ctx_opened (x : Slot) (b : Bool) : (x.opened b).ctx = x.ctx := (x.opened_keeps b).1
theorem State.openChunk_rest (s : State) : s.openChunk = { s with slots := s.openChunk.slots } := by
  rw [State.openChunk_eq]; rfl
@[simp] theorem State.openChunk_core (s : State) : s.openChunk.core = s.core := by rw [State.openChunk_eq]; rfl
@[simp] theorem State.openChunk_slot (s : State) : s.openChunk.slot = s.slot := by rw [State.openChunk_eq]; rfl
@[simp] theorem State.openChunk_mem (s : State) : s.openChunk.mem = s.mem := by rw [State.openChunk_eq]; rfl
@[simp] theorem State.openChunk_isCtrl (s : State) : s.openChunk.isCtrl = s.isCtrl := by simp [State.isCtrl]

/-! ### What an issue answers -/

/-- The outcome of a meaning that runs to its end, of one that stops, and of one that its guard suppresses. -/
theorem issue_cases (g : Guard) (body : M (Option Word)) (s : State) :
    (g.holds s.cur.ctx.pred = false ∧ issue g body s = .next (s.openChunk.retire none)) ∨
    (∃ t s', g.holds s.cur.ctx.pred = true ∧ body.run s.openChunk = .ok (t, s') ∧ issue g body s = .next (s'.retire t)) ∨
    (∃ e, g.holds s.cur.ctx.pred = true ∧ body.run s.openChunk = .error e ∧ issue g body s = s.openChunk.settle e) := by
  unfold issue
  simp only [State.cur_openChunk, Slot.ctx_opened]
  cases hg : g.holds s.cur.ctx.pred with
  | false => exact .inl ⟨rfl, by simp⟩
  | true =>
    cases hb : body.run s.openChunk with
    | ok r => exact .inr (.inl ⟨r.1, r.2, rfl, rfl, by simp⟩)
    | error e => exact .inr (.inr ⟨e, rfl, rfl, by simp⟩)

theorem issue_ok {g : Guard} {body : M (Option Word)} {s s' : State} {t : Option Word} (hg : g.holds s.cur.ctx.pred = true)
    (hb : body.run s.openChunk = .ok (t, s')) : issue g body s = .next (s'.retire t) := by
  simp [issue, hg, hb]
theorem issueStrand_ok {g : Guard} {body : M (Option Word)} {s s' : State} {t : Option Word} (hc : s.isCtrl = false)
    (hg : g.holds s.cur.ctx.pred = true) (hb : body.run s.openChunk = .ok (t, s')) :
    issueStrand g body s = .next (s'.retire t) := by
  simp [issueStrand, hc, issue_ok hg hb]

/-- A stop that is no ill-formed term answers a next state. -/
theorem settle_next (s : State) {e : Stop} (h : ∀ t, s.settle e ≠ .refused t) : ∃ t, s.settle e = .next t := by
  cases e <;> simp_all [State.settle]

/-! ### The shapes of Scalar -/

theorem op1_run {f : Word → Word} {d a : Reg} {s s1 s2 : State} {x : Word} (ha : (readReg a).run s = .ok (x, s1))
    (hd : (writeReg d (f x)).run s1 = .ok ((), s2)) : (op1 f d a).run s = .ok (none, s2) := by
  unfold op1; rw [M.run_bind_ok ha, M.run_bind_ok hd, M.run_pure]
theorem op2_run {f : Word → Word → Word} {d a b : Reg} {s s1 s2 s3 : State} {x y : Word}
    (ha : (readReg a).run s = .ok (x, s1)) (hb : (readReg b).run s1 = .ok (y, s2))
    (hd : (writeReg d (f x y)).run s2 = .ok ((), s3)) : (op2 f d a b).run s = .ok (none, s3) := by
  unfold op2; rw [M.run_bind_ok ha, M.run_bind_ok hb, M.run_bind_ok hd, M.run_pure]
theorem op3_run {f : Word → Word → Word → Word} {d a b : Reg} {s s1 s2 s3 s4 : State} {x y z : Word}
    (ha : (readReg a).run s = .ok (x, s1)) (hb : (readReg b).run s1 = .ok (y, s2)) (hz : (readReg d).run s2 = .ok (z, s3))
    (hd : (writeReg d (f z x y)).run s3 = .ok ((), s4)) : (op3 f d a b).run s = .ok (none, s4) := by
  unfold op3; rw [M.run_bind_ok ha, M.run_bind_ok hb, M.run_bind_ok hz, M.run_bind_ok hd, M.run_pure]

end Sys2Proof.Machine
end

