-- ==== Sys2Proof/Tests/Slice0.lean ====
section
/-! SUPPORT. Tests: ill-formed terms, a word of every instruction, single steps, and for every statement machines that meet its
hypotheses. -/

open Sys2Proof Sys2Proof.Machine

namespace Sys2Proof.Tests

set_option Elab.async false

/-! ### Small machines

Every machine below is State.reset with one block of one launch on core 0 and a strand in slot 0. -/

/-- A launch with a trap handler at 0x40. -/
def launch1 : Launch :=
  { num := 1, queue := 0, prio := 0, bsz := 0, steal := 0, manual := false, dom := 0, count := 1, entry := 0x80, tvec := 0x40,
    tfut := 0, dict := 0, dcnt := 0, spill := 0, spl := 0, param := 0, doneIdx := 0, doneEn := false, dies := 0, dealt := 1,
    complete := 0 }
def block1 : Block :=
  { launch := 1, index := 0, place := .running 0, spillHead := 0, spillTail := 0, spillSide := [], idle := 0, refusedAt := none,
    run := 0, active := true, swapping := none, vacate := false, short := false, crossed := false }
/-- A strand at 0x80 whose first registers hold these words. -/
def strand (l : List Word) : Slot :=
  { Slot.empty with
    occ := .running
    ctx := { Ctx.zero with
      pc := 0x80, launch := 1, strandId := 7, gpr := Vector.ofFn fun i : Fin 24 => l.getD i.val 0 } }
/-- The page at 0, in the translation cache, readable and writable by the strand's domain. -/
def page1 : Xlat := { va := 0, bits := 15, key := 3, pa := 0x8000, peer := none }
def withSlot (x : Slot) : State :=
  { State.reset with
    slots := [(0, x)], cores := [(0, { CoreSt.reset with owner := some (1, 0, 0) })], dies := [(0, { DieSt.reset with tc := [page1] })],
    mem := [(3, 0x0F)], launches := [launch1], blocks := [block1] }
def machine (l : List Word) : State := withSlot (strand l)
/-- The control core of cluster 0. -/
def control (l : List Word) : State :=
  { State.reset with core := 512, slots := [(8192, strand l)] }

/-! ### What a reading, a writing or an access of such a machine gives -/

def isOk {α : Type} (x : Except Stop α) : Bool := match x with | .ok _ => true | .error _ => false
/-- The result of steps that go through; `d` where they stop. -/
def got {α : Type} (d : α) (m : M α) (s : State) : α × State := match m.run s with | .ok p => p | .error _ => (d, s)
theorem got_ok {α : Type} (d : α) (m : M α) (s : State) (h : isOk (m.run s) = true) :
    m.run s = .ok ((got d m s).1, (got d m s).2) := by
  unfold got; revert h; cases m.run s <;> simp [isOk]

/-- The value of a source, and the state it leaves. -/
def rv (r : Reg) (s : State) : Word := (got 0 (readReg r) s).1
def rs (r : Reg) (s : State) : State := (got 0 (readReg r) s).2
def ws (r : Reg) (v : Word) (s : State) : State := (got () (writeReg r v) s).2
def fp (a : Acc) (s : State) : Spot := (got (.peer 0) (access a) s).1
def fs (a : Acc) (s : State) : State := (got (.peer 0) (access a) s).2
theorem reads {r : Reg} {s : State} (h : isOk ((readReg r).run s) = true) : Reads r s (rv r s) (rs r s) := got_ok _ _ _ h
theorem writes {r : Reg} {v : Word} {s : State} (h : isOk ((writeReg r v).run s) = true) : Writes r v s (ws r v s) :=
  got_ok _ _ _ h
theorem finds {a : Acc} {s : State} (h : isOk ((access a).run s) = true) : Finds a s (fp a s) (fs a s) := got_ok _ _ _ h
/-- The state after an instruction that answers one. -/
def nx (i : Instr) (s : State) : State := match exec i s with | .next t => t | _ => s
def goes (i : Instr) (s : State) : Bool := match exec i s with | .next _ => true | _ => false
theorem goes_next {i : Instr} {s : State} (h : goes i s = true) : exec i s = .next (nx i s) := by
  revert h; unfold goes nx; cases exec i s <;> simp

abbrev p0 : Guard := ⟨false, 0⟩
abbrev allOnes : Word := 0xFFFFFFFFFFFFFFFF
/-! ### Ill-formed terms, one for each check of `Instr.wf` (R106, R313, R314, R11) -/

theorem test_ill_formed : [
    Instr.add p0 false .id .z .z, .clz p0 false .id .z, .sext p0 true .w32 (.m 0) .z, .zext p0 false .w8 .id .z, .addi p0 .id .z 0,
    .shiSll p0 true (.m 0) .z 32, .shiRor p0 false .id .z 0, .li p0 .id 0, .sel p0 1 .id .z .z, .jmp p0 .nq, .jmpl p0 .id .z,
    .jmpl p0 .z (.st 0), .fadd p0 .rne .f32 .id .z .z, .fmin p0 .f16 .id .z .z, .fabs p0 .bf16 .id .z, .cvt p0 .rne .i8 .f32 .id .z,
    .cvte p0 .rne .t8 .id .z .z, .cvte p0 .rne .t8 .z .z .id, .rcp p0 .id .z, .ldn p0 0 0 .id .z, .lds p0 0 0 .z .nq,
    .st p0 0 0 .z (.st 3), .ldx p0 .y false 0 .z .z .nq, .ldx p0 .y false 0 .id .z .z, .stx p0 .y 0 .z .nq .z,
    .ldfeKeep p0 0 .z .z .nq, .stfeFill p0 0 .z .nq .z, .stfeClear p0 0 .z (.st 1), .atomAdd p0 .dev true .id .z .z,
    .atomFaddF32 p0 .acq .z .nq .z, .cupdAdd p0 true .nq .z, .home p0 .id .z, .linit p0 .nq, .lmove p0 .z .nq .z, .lpop p0 .id .z,
    .stbind p0 0 .nq, .ststat p0 0 .id, .fork p0 .id .z .z, .fget p0 .z .nq, .fput p0 (.st 0) .z, .slreap p0 .id .z,
    .barinit p0 .nq .z, .bararr p0 .id .z, .crd p0 .tmode .id].all (fun i => !i.wf) = true := by decide +kernel

theorem test_ill_formed_units : [
    Instr.vcmp p0 .i32 4 0 0 0, .vshl p0 .f32 0 0 0 0, .vpopc p0 .f32 0 0 0, .vimax p0 .i32 0 1 0 0, .vld p0 false .b4 0 0 .nq .z,
    .vld p0 true .b4 0 0 .z .z, .vst p0 .b4 0 0 .z .nq, .vldx p0 true .b4 0 0 .z 0, .vldx p0 false .b2 0 0 .nq 0, .vstx p0 .b4 0 0 .nq 0,
    .vbitsLd p0 0 .z .nq, .vbusy p0 .id, .vimaxs p0 .f32 .id 0, .vimaxs p0 .f32 .z 1, .mqry p0 none none .id .z,
    .kvapp p0 false none none .id .z, .linfold p0 none none .id .z, .rcat p0 none none .id .z, .trie p0 .z .nq .z, .trie p0 .id .z .z,
    .udec p0 .id .z, .iqput p0 none none .id .z, .iqget p0 true none none .id .z, .divideComplete 512, .fullEmptyRetest 8388608,
    .chunkCommit 512 0, .chunkCommit 0 16, .mailboxDelivery 512 0, .omTurn 64, .pageMigration 8, .errorEntryExpiry 16 0,
    .hometabWrite 4096 0, .launchPacket 64, .lqnextWrite 2 0, .launchComplete 65536, .denReadmit 65536 0, .denReadmit 0 16777216,
    .linkRetransmit 18 0, .linkRetransmit 0 8, .linkRetrain 18 true].all (fun i => !i.wf) = true := by decide +kernel

/-! ### Decoding: a word of every instruction, its fields laid out as R105 to R114 give them -/

theorem test_decode_code : decodeBytes [0x7E, 0x01, 0xFF] = some (.instr (.dictionaryCode 5), 2) := by decide +kernel
theorem test_decode_short : decodeBytes [0x00, 0x60, 0x8C] = none := by decide +kernel
theorem test_decode_suppressed : decodeWord 0x018C6200 = .instr (.add ⟨true, 0⟩ false .z .z .z) := by decide +kernel

/-- Whether each word decodes to its instruction. -/
noncomputable def decodesTo (l : List (BitVec 32 × Instr)) : Bool := l.all fun p => decodeWord p.1 == .instr p.2

theorem test_decode_opcode_00 : decodesTo [
    (0x8020DCC0, .add ⟨false, 3⟩ true (.l 1) (.m 1) (.m 2)),
    (0x8350D9C0, .sub ⟨false, 7⟩ true (.l 0) (.m 1) (.s 5)),
    (0x0427BC80, .and ⟨false, 2⟩ false (.m 15) (.m 15) (.m 2)),
    (0x862B0480, .or ⟨false, 2⟩ true (.m 1) (.l 0) (.m 2)),
    (0x88128480, .xor ⟨false, 2⟩ true (.m 1) (.m 5) (.m 1)),
    (0x8B51BD40, .andn ⟨false, 5⟩ true (.m 15) (.m 3) (.s 5)),
    (0x0D6B0A40, .orn ⟨true, 1⟩ false (.m 2) (.l 0) (.l 0)),
    (0x8F8A8980, .sll ⟨false, 6⟩ true (.m 2) (.s 5) .z),
    (0x115BC040, .srl ⟨false, 1⟩ false (.s 0) (.l 1) (.s 5)),
    (0x92E85B00, .sra ⟨true, 4⟩ true (.l 0) (.s 0) (.m 14)),
    (0x1422E0C0, .rol ⟨false, 3⟩ false .z (.m 5) (.m 2)),
    (0x970C3B40, .ror ⟨true, 5⟩ true (.m 14) .z (.s 0)),
    (0x1837D4C0, .min ⟨false, 3⟩ false (.s 5) (.m 15) (.m 3)),
    (0x1A17C3C0, .max ⟨true, 7⟩ false (.s 0) (.m 15) (.m 1)),
    (0x9CEC3980, .minn ⟨false, 6⟩ true (.m 14) .z (.m 14)),
    (0x9E910B40, .maxn ⟨true, 5⟩ true (.m 2) (.m 2) (.m 9)),
    (0x209C6100, .mul ⟨false, 4⟩ false .z .z (.m 9)),
    (0xA377E380, .mulh ⟨true, 6⟩ true .z (.m 15) (.l 1)),
    (0xA561B8C0, .mulhn ⟨false, 3⟩ true (.m 14) (.m 3) (.l 0)),
    (0x26049640, .clz ⟨true, 1⟩ false (.m 5) (.m 9)),
    (0xA8083C80, .ctz ⟨false, 2⟩ true (.m 15) (.s 0)),
    (0xAA0ABC40, .popc ⟨false, 1⟩ true (.m 15) (.s 5)),
    (0xAC04D4C0, .brev ⟨false, 3⟩ true (.s 5) (.m 9)),
    (0xAE07DF80, .bswap ⟨true, 6⟩ true (.l 1) (.m 15)),
    (0x30128C80, .sext ⟨false, 2⟩ false .w16 (.m 3) (.m 5)),
    (0x3221D980, .zext ⟨false, 6⟩ false .w32 (.l 0) (.m 3))] = true := by decide +kernel

theorem test_decode_opcode_01 : decodesTo [
    (0xEB4186C1, .addi ⟨true, 3⟩ (.m 1) (.m 3) 0xEB4)] = true := by decide +kernel

theorem test_decode_opcode_02 : decodesTo [
    (0xD19B5B42, .andi ⟨true, 5⟩ (.l 0) (.l 0) 0xD19)] = true := by decide +kernel

theorem test_decode_opcode_03 : decodesTo [
    (0xE47BC083, .ori ⟨false, 2⟩ (.s 0) (.l 1) 0xE47)] = true := by decide +kernel

theorem test_decode_opcode_04 : decodesTo [
    (0xFB413F04, .xori ⟨true, 4⟩ (.m 15) (.m 2) 0xFB4)] = true := by decide +kernel

theorem test_decode_opcode_05 : decodesTo [
    (0x21311785, .shiSll ⟨true, 6⟩ true (.m 5) (.m 2) 0x13),
    (0x25370A85, .shiSrl ⟨true, 2⟩ true (.m 2) (.m 14) 0x13),
    (0x293B0545, .shiSra ⟨false, 5⟩ true (.m 1) (.l 0) 0x13),
    (0x2D30D885, .shiRol ⟨false, 2⟩ true (.l 0) (.m 1) 0x13),
    (0x313B8C45, .shiRor ⟨false, 1⟩ true (.m 3) (.l 1) 0x13)] = true := by decide +kernel

theorem test_decode_opcode_06 : decodesTo [
    (0xDD39DAC6, .li ⟨true, 3⟩ (.l 0) 0x1BA73)] = true := by decide +kernel

theorem test_decode_opcode_07 : decodesTo [
    (0xFCF20907, .lis ⟨false, 4⟩ (.m 2) 0x1F9E4)] = true := by decide +kernel

theorem test_decode_opcode_08 : decodesTo [
    (0x27810F08, .cmp ⟨true, 4⟩ .or .ge false 3 (.m 2) .z)] = true := by decide +kernel

theorem test_decode_opcode_09 : decodesTo [
    (0xDD2A92C9, .cmpi ⟨true, 3⟩ .or .lt false 4 (.s 5) 0x6E)] = true := by decide +kernel

theorem test_decode_opcode_0A : decodesTo [
    (0x0054B48A, .pand ⟨false, 2⟩ 13 9 5),
    (0x0257318A, .por ⟨false, 6⟩ 12 14 5),
    (0x0461BF4A, .pxor ⟨true, 5⟩ 15 3 6),
    (0x0604A5CA, .pnot ⟨false, 7⟩ 9 9),
    (0x08005FCA, .pget ⟨true, 7⟩ (.l 1)),
    (0x0A02808A, .pset ⟨false, 2⟩ (.m 5))] = true := by decide +kernel

theorem test_decode_opcode_0B : decodesTo [
    (0x195297CB, .sel ⟨true, 7⟩ 12 (.m 5) (.m 5) (.s 5))] = true := by decide +kernel

theorem test_decode_opcode_0D : decodesTo [
    (0x6E10E30D, .tern ⟨true, 4⟩ 0xB7 .z (.m 1) (.m 1))] = true := by decide +kernel

theorem test_decode_opcode_0E : decodesTo [
    (0x0054C3CE, .bfx ⟨true, 7⟩ (.s 0) (.m 9) (.m 5)),
    (0x02EC438E, .bfxs ⟨true, 6⟩ (.s 0) .z (.m 14)),
    (0x045114CE, .bfi ⟨false, 3⟩ (.m 5) (.m 2) (.m 5))] = true := by decide +kernel

theorem test_decode_opcode_0F : decodesTo [
    (0x8168150F, .div ⟨false, 4⟩ true (.m 5) (.s 0) (.l 0)),
    (0x83775D4F, .divn ⟨false, 5⟩ true (.l 1) (.m 14) (.l 1)),
    (0x8502E04F, .rem ⟨false, 1⟩ true .z (.m 5) (.s 0)),
    (0x86FC0A8F, .remn ⟨true, 2⟩ true (.m 2) .z (.m 15))] = true := by decide +kernel

theorem test_decode_opcode_10 : decodesTo [
    (0x95BD4710, .br ⟨true, 4⟩ 0x256F51)] = true := by decide +kernel

theorem test_decode_opcode_11 : decodesTo [
    (0xAB855D91, .bl ⟨false, 6⟩ 0x2AE157)] = true := by decide +kernel

theorem test_decode_opcode_12 : decodesTo [
    (0x00018092, .jmp ⟨false, 2⟩ (.m 3)),
    (0x0201DF52, .jmpl ⟨true, 5⟩ (.l 1) (.m 3))] = true := by decide +kernel

theorem test_decode_opcode_13 : decodesTo [
    (0x683AD753, .fadd ⟨true, 5⟩ .rdn .f16 (.s 5) (.s 5) (.m 3)),
    (0x2A52BC53, .fsub ⟨false, 1⟩ .rtz .f16 (.m 15) (.m 5) (.m 5)),
    (0x5562D653, .fmul ⟨true, 1⟩ .rup .bf16 (.s 5) (.m 5) (.l 0)),
    (0x17808ED3, .fmin ⟨true, 3⟩ .bf16 (.m 3) (.m 1) .z),
    (0x3751D6D3, .fmax ⟨true, 3⟩ .bf16 (.s 5) (.m 3) (.s 5)),
    (0x560B0C93, .fabs ⟨false, 2⟩ .bf16 (.m 3) (.l 0)),
    (0x6E080C53, .fneg ⟨false, 1⟩ .f16 (.m 3) (.s 0)),
    (0x8F5BB953, .fcpys ⟨false, 5⟩ .f16 (.m 14) (.l 1) (.s 5)),
    (0xAE00D753, .fclass ⟨true, 5⟩ .f16 (.s 5) (.m 1))] = true := by decide +kernel

theorem test_decode_opcode_14 : decodesTo [
    (0x1B0A8894, .fma ⟨false, 2⟩ .rdn .f16 (.m 2) (.s 5) (.s 0))] = true := by decide +kernel

theorem test_decode_opcode_15 : decodesTo [
    (0x656AA955, .fcmp ⟨false, 5⟩ .and .un .bf16 10 (.s 5) (.l 0))] = true := by decide +kernel

theorem test_decode_opcode_16 : decodesTo [
    (0x70985556, .cvt ⟨false, 5⟩ .rdn .f32 .f16 (.s 5) (.s 0))] = true := by decide +kernel

theorem test_decode_opcode_17 : decodesTo [
    (0x7702D557, .cvte ⟨false, 5⟩ .rdn .t8 (.s 5) (.m 5) (.s 0))] = true := by decide +kernel

theorem test_decode_opcode_18 : decodesTo [
    (0x00078A98, .rcp ⟨true, 2⟩ (.m 2) (.m 15)),
    (0x020B8B18, .rsq ⟨true, 4⟩ (.m 2) (.l 1)),
    (0x04028A98, .sqrt ⟨true, 2⟩ (.m 2) (.m 5)),
    (0x06018B98, .log2 ⟨true, 6⟩ (.m 2) (.m 3)),
    (0x08048F98, .exp2 ⟨true, 6⟩ (.m 3) (.m 9)),
    (0x0A0C1698, .sin ⟨true, 2⟩ (.m 5) .z),
    (0x0C01C258, .cos ⟨true, 1⟩ (.s 0) (.m 3)),
    (0x0E0C0D98, .tanh ⟨false, 6⟩ (.m 3) .z),
    (0x1007BB18, .sigm ⟨true, 4⟩ (.m 14) (.m 15))] = true := by decide +kernel

theorem test_decode_opcode_19 : decodesTo [
    (0xA5E76299, .ldn ⟨true, 2⟩ 2 0x25E .z (.m 14))] = true := by decide +kernel

theorem test_decode_opcode_1A : decodesTo [
    (0xFD5C425A, .lds ⟨true, 1⟩ 3 0x3D5 (.s 0) .z)] = true := by decide +kernel

theorem test_decode_opcode_1B : decodesTo [
    (0xB2E1565B, .st ⟨true, 1⟩ 2 0x32E (.s 5) (.m 2))] = true := by decide +kernel

theorem test_decode_opcode_1C : decodesTo [
    (0x2430A45C, .ldx ⟨false, 1⟩ .stay false 2 (.m 9) (.m 1) (.m 3)),
    (0xAE37A4DC, .stx ⟨false, 3⟩ .rel 3 (.m 9) (.m 15) (.m 3))] = true := by decide +kernel

theorem test_decode_opcode_1D : decodesTo [
    (0x06913B5D, .ldfeKeep ⟨true, 5⟩ 3 (.m 14) (.m 2) (.m 9)),
    (0x0C14885D, .ldfeTake ⟨false, 1⟩ 2 (.m 2) (.m 9) (.m 1)),
    (0x145B099D, .ldfePeek ⟨false, 6⟩ 2 (.m 2) (.l 0) (.m 5))] = true := by decide +kernel

theorem test_decode_opcode_1E : decodesTo [
    (0x02E0C25E, .stfeFill ⟨true, 1⟩ 1 (.s 0) (.m 1) (.m 14)),
    (0x0C11DB5E, .stfeForce ⟨true, 5⟩ 2 (.l 0) (.m 3) (.m 1)),
    (0x1291E15E, .stfeClear ⟨false, 5⟩ 1 (.m 3) (.m 9))] = true := by decide +kernel

theorem test_decode_opcode_1F : decodesTo [
    (0x6154DC5F, .atomAdd ⟨false, 1⟩ .y true (.l 1) (.m 9) (.s 5)),
    (0xA23BD5DF, .atomMin ⟨false, 7⟩ .acq true (.s 5) (.l 1) (.m 3)),
    (0x641086DF, .atomMax ⟨true, 3⟩ .y true (.m 1) (.m 1) (.m 1)),
    (0xE628159F, .atomMinn ⟨false, 6⟩ .rel true (.m 5) (.s 0) (.m 2)),
    (0xE957D79F, .atomMaxn ⟨true, 6⟩ .rel true (.s 5) (.m 15) (.s 5)),
    (0x6B8C14DF, .atomAnd ⟨false, 3⟩ .y true (.m 5) .z .z),
    (0xAC11859F, .atomOr ⟨false, 6⟩ .acq true (.m 1) (.m 3) (.m 1)),
    (0x8F71065F, .atomXor ⟨true, 1⟩ .acq false (.m 1) (.m 2) (.l 1)),
    (0xF182DBDF, .atomSwap ⟨true, 7⟩ .rel true (.l 0) (.m 5) .z),
    (0x93048CDF, .atomCas ⟨false, 3⟩ .acq false (.m 3) (.m 9) (.s 0)),
    (0x94EABA5F, .atomFaddF32 ⟨true, 1⟩ .acq (.m 14) (.s 5) (.m 14))] = true := by decide +kernel

theorem test_decode_opcode_20 : decodesTo [
    (0x10E2E0A0, .cupdAdd ⟨false, 2⟩ true (.m 5) (.m 14)),
    (0x1227E0A0, .cupdMin ⟨false, 2⟩ true (.m 15) (.m 2)),
    (0x0552E320, .cupdMax ⟨true, 4⟩ false (.m 5) (.s 5)),
    (0x0624E1E0, .cupdOr ⟨false, 7⟩ false (.m 9) (.m 2)),
    (0x081B62A0, .cupdFaddF32 ⟨true, 2⟩ (.l 0) (.m 1))] = true := by decide +kernel

theorem test_decode_opcode_21 : decodesTo [
    (0x30000121, .fence ⟨false, 4⟩ .d),
    (0x020000E1, .cend ⟨false, 3⟩),
    (0x040C5C61, .home ⟨false, 1⟩ (.l 1) .z),
    (0x060703E1, .migr ⟨true, 7⟩ (.m 14)),
    (0x080003A1, .stay ⟨true, 6⟩)] = true := by decide +kernel

theorem test_decode_opcode_22 : decodesTo [
    (0x000C62A2, .linit ⟨true, 2⟩ .z),
    (0x035C0562, .lmove ⟨false, 5⟩ (.m 1) .z (.s 5)),
    (0x040C63A2, .lpop ⟨true, 6⟩ .z .z)] = true := by decide +kernel

theorem test_decode_opcode_23 : decodesTo [
    (0x01AB81E3, .stbind ⟨false, 7⟩ 0 (.l 1)),
    (0x03A00163, .stfree ⟨false, 5⟩ 0),
    (0x05B05C63, .ststat ⟨false, 1⟩ 1 (.l 1))] = true := by decide +kernel

theorem test_decode_opcode_24 : decodesTo [
    (0x6292DCE4, .xcopyCopy ⟨false, 3⟩ true true false (some .s) (some .y) (.l 1) (.m 5)),
    (0x26DB8B24, .xcopyFill ⟨true, 4⟩ false true false (some .y) (some .y) (.m 2) (.l 1)),
    (0x6932E164, .xcopyPack ⟨false, 5⟩ true true false (some .k) (some .c) .z (.m 5)),
    (0x6DCB06A4, .xcopyUnpack ⟨true, 2⟩ true true false (some .d) (some .k) (.m 1) (.l 0))] = true := by decide +kernel

theorem test_decode_opcode_25 : decodesTo [
    (0x003B09A5, .fork ⟨false, 6⟩ (.m 2) (.l 0) (.m 3)),
    (0x020C5EE5, .fget ⟨true, 3⟩ (.l 1) .z),
    (0x056B03A5, .fput ⟨true, 6⟩ (.l 0) (.l 0)),
    (0x060800A5, .exit ⟨false, 2⟩ (.s 0)),
    (0x08000265, .yield ⟨true, 1⟩)] = true := by decide +kernel

theorem test_decode_opcode_26 : decodesTo [
    (0x0172E0E6, .slstart ⟨false, 3⟩ .z (.m 5) (.l 1)),
    (0x020AE326, .slreap ⟨true, 4⟩ .z (.s 5)),
    (0x040842E6, .slquery ⟨true, 3⟩ (.s 0) (.s 0)),
    (0x060A81E6, .wake ⟨false, 7⟩ (.s 5))] = true := by decide +kernel

theorem test_decode_opcode_27 : decodesTo [
    (0x040002A7, .gang ⟨true, 2⟩ .two),
    (0x02000127, .ungang ⟨false, 4⟩)] = true := by decide +kernel

theorem test_decode_opcode_28 : decodesTo [
    (0x015102E8, .barinit ⟨true, 3⟩ (.m 2) (.s 5)),
    (0x0202BF28, .bararr ⟨true, 4⟩ (.m 15) (.m 5)),
    (0x042B00A8, .barwait ⟨false, 2⟩ (.l 0) (.m 2)),
    (0x060702A8, .barleave ⟨true, 2⟩ (.m 14))] = true := by decide +kernel

theorem test_decode_opcode_29 : decodesTo [
    (0x018102A9, .send ⟨true, 2⟩ (.m 2) .z),
    (0x020840E9, .recv ⟨false, 3⟩ (.s 0) (.s 0)),
    (0x04008D29, .mbstat ⟨false, 4⟩ (.m 3) (.m 1))] = true := by decide +kernel

theorem test_decode_opcode_2A : decodesTo [
    (0x0097832A, .wqput ⟨true, 4⟩ (.m 15) (.m 9)),
    (0x02073DAA, .wqget ⟨false, 6⟩ (.m 15) (.m 14)),
    (0x04070B2A, .wqlen ⟨true, 4⟩ (.m 2) (.m 14)),
    (0x07AD326A, .turn ⟨true, 1⟩ 0x6B4C),
    (0x160103EA, .turnReg ⟨true, 7⟩ (.m 2)),
    (0x080060AA, .poolid ⟨false, 2⟩ .z)] = true := by decide +kernel

theorem test_decode_opcode_2B : decodesTo [
    (0x01BE92EB, .trap ⟨true, 3⟩ 0x6FA4),
    (0x0200026B, .eret ⟨true, 1⟩),
    (0x04053D2B, .crd ⟨false, 4⟩ .taddr (.m 15)),
    (0x060027EB, .cwr ⟨true, 7⟩ .tmode (.m 9)),
    (0x0800006B, .brk ⟨false, 1⟩),
    (0x0AB183EB, .lcset ⟨true, 7⟩ 11 (.m 3)),
    (0x0C7056AB, .lcget ⟨true, 2⟩ 7 (.s 5)),
    (0x0E0000EB, .halt ⟨false, 3⟩)] = true := by decide +kernel

theorem test_decode_opcode_2C : decodesTo [
    (0x8063BFEC, .vadd ⟨true, 7⟩ .n32 1 7 7 6),
    (0x8222C56C, .vsub ⟨false, 5⟩ .n32 2 1 5 2),
    (0x8441EBAC, .vmul ⟨true, 6⟩ .n32 3 2 3 4),
    (0x4643CEAC, .vfma ⟨true, 2⟩ .i32 2 3 7 4),
    (0x8871AD6C, .vmin ⟨false, 5⟩ .n32 1 3 3 7),
    (0x8A13CD2C, .vmax ⟨false, 4⟩ .n32 2 3 7 1),
    (0x4C0249AC, .vabs ⟨false, 6⟩ .i32 2 2 4),
    (0x8E03DF2C, .vneg ⟨true, 4⟩ .n32 2 7 7),
    (0x507339EC, .vcmp ⟨false, 7⟩ .i32 3 2 6 7),
    (0x9220BFEC, .vsel ⟨true, 7⟩ .n32 1 7 1 2),
    (0x5412A86C, .vand ⟨false, 1⟩ .i32 1 2 5 1),
    (0x5652AD2C, .vor ⟨false, 4⟩ .i32 1 3 5 5),
    (0x98734E6C, .vxor ⟨true, 1⟩ .n32 2 3 6 7),
    (0x9AA0E7AC, .vtern ⟨true, 6⟩ 0xB1 1 1 2),
    (0x5C434B2C, .vshl ⟨true, 4⟩ .i32 2 2 6 4),
    (0x9E33A72C, .vshr ⟨true, 4⟩ .n32 1 1 7 3),
    (0x615236AC, .vcvt ⟨true, 2⟩ .i32 true .t8 1 5 4),
    (0x2242696C, .vcvte ⟨false, 5⟩ .t8 2 4 4),
    (0x240269AC, .vlog2 ⟨false, 6⟩ 3 2 4),
    (0x2601346C, .vexp2 ⟨false, 1⟩ 1 5 2),
    (0x2801652C, .vrcp ⟨false, 4⟩ 3 1 2),
    (0x2A036F2C, .vrsq ⟨true, 4⟩ 3 3 6),
    (0x2C012C6C, .vtanh ⟨false, 1⟩ 1 3 2),
    (0x2E032EAC, .vsigm ⟨true, 2⟩ 1 3 6),
    (0xB00153AC, .vredadd ⟨true, 6⟩ .n32 2 4 2),
    (0x7201C46C, .vredmax ⟨false, 1⟩ .i32 2 1 3),
    (0x7473D92C, .vimax ⟨false, 4⟩ .i32 2 6 7 7),
    (0x76018EEC, .vscan ⟨true, 3⟩ .i32 3 3),
    (0x787173AC, .vperm ⟨true, 6⟩ .i32 3 4 2 7),
    (0xBA50B9EC, .vbcast ⟨false, 7⟩ .n32 1 6 1 5),
    (0x7E0225EC, .vpopc ⟨false, 7⟩ .i32 1 1 4)] = true := by decide +kernel

theorem test_decode_opcode_2D : decodesTo [
    (0x4102392D, .vaddScalar ⟨false, 4⟩ .i32 1 6 4 (.s 0)),
    (0x8291CEAD, .vsubScalar ⟨true, 2⟩ .n32 2 3 3 (.m 9)),
    (0x44213B6D, .vmulScalar ⟨true, 5⟩ .i32 1 6 2 (.m 2)),
    (0x46E1252D, .vfmaScalar ⟨false, 4⟩ .i32 1 1 2 (.m 14)),
    (0x48F27D6D, .vminScalar ⟨false, 5⟩ .i32 3 7 4 (.m 15)),
    (0x8B52BB2D, .vmaxScalar ⟨true, 4⟩ .n32 1 6 5 (.s 5)),
    (0x915237ED, .vcmpScalar ⟨true, 7⟩ .n32 3 1 4 (.s 5)),
    (0x530378AD, .vselScalar ⟨false, 2⟩ .i32 3 6 6 (.s 0)),
    (0x5572EFAD, .vandScalar ⟨true, 6⟩ .i32 3 3 5 (.l 1)),
    (0x9612BEAD, .vorScalar ⟨true, 2⟩ .n32 1 7 5 (.m 1)),
    (0x58F0EAAD, .vxorScalar ⟨true, 2⟩ .i32 3 2 1 (.m 15)),
    (0x9D81B8ED, .vshlScalar ⟨false, 3⟩ .n32 1 6 3 .z),
    (0x5E51C9AD, .vshrScalar ⟨false, 6⟩ .i32 2 2 3 (.m 5)),
    (0x74523AED, .vimaxScalar ⟨true, 3⟩ .i32 1 6 4 (.m 5)),
    (0x782247AD, .vpermScalar ⟨true, 6⟩ .i32 2 1 4 (.m 2)),
    (0xBA90D6ED, .vbcastScalar ⟨true, 3⟩ .n32 2 5 1 (.m 9)),
    (0xBD8047AD, .vsplat ⟨true, 6⟩ .n32 2 1 .z)] = true := by decide +kernel

theorem test_decode_opcode_2E : decodesTo [
    (0x60385FAE, .vld ⟨true, 6⟩ true .b1 2 7 (.s 0) (.m 3)),
    (0x123C6D2E, .vst ⟨false, 4⟩ .b2 3 3 .z (.m 3)),
    (0x641B4D6E, .vldx ⟨false, 5⟩ true .b1 2 3 (.l 0) 1),
    (0x2617A96E, .vstx ⟨false, 5⟩ .b1 1 2 (.m 15) 1),
    (0x095A89AE, .vbitsLd ⟨false, 6⟩ 2 (.s 5) (.s 5)),
    (0x182108EE, .vbitsSt ⟨false, 3⟩ 2 (.m 2) (.m 2))] = true := by decide +kernel

theorem test_decode_opcode_2F : decodesTo [
    (0x000000EF, .vfence ⟨false, 3⟩),
    (0x02003CAF, .vbusy ⟨false, 2⟩ (.m 15)),
    (0x0400032F, .vrel ⟨true, 4⟩),
    (0x062104AF, .vmand ⟨false, 2⟩ 1 2 2),
    (0x08318D6F, .vmor ⟨false, 5⟩ 3 3 3),
    (0x0A2109EF, .vmxor ⟨false, 7⟩ 2 2 2),
    (0x0C010B6F, .vmnot ⟨true, 5⟩ 2 2),
    (0x0E0117AF, .vmget ⟨true, 6⟩ (.m 5) 2),
    (0x100284AF, .vmset ⟨false, 2⟩ 1 (.m 5)),
    (0x52033AAF, .vimaxs ⟨true, 2⟩ .i32 (.m 14) 6)] = true := by decide +kernel

theorem test_decode_opcode_30 : decodesTo [
    (0x000A8730, .mfmt ⟨true, 4⟩ 1 (.s 5))] = true := by decide +kernel

theorem test_decode_opcode_31 : decodesTo [
    (0x4492C171, .mma ⟨false, 5⟩ false true 1 (some .s) (some .s) (.s 0) (.m 5))] = true := by decide +kernel

theorem test_decode_opcode_32 : decodesTo [
    (0x00B2A7F2, .mld ⟨true, 7⟩ (some .k) (some .s) (.m 9) (.m 5)),
    (0x06A2D872, .mst ⟨false, 1⟩ (some .c) (some .y) (.l 0) (.m 5)),
    (0x09586272, .mclr ⟨true, 1⟩ (some .y) (some .c) (.s 0)),
    (0x0C9B5F72, .mqry ⟨true, 5⟩ (some .s) (some .s) (.l 1) (.l 0)),
    (0x10A73BB2, .mrecl ⟨true, 6⟩ (some .c) (some .s) (.m 14) (.m 14))] = true := by decide +kernel

theorem test_decode_opcode_33 : decodesTo [
    (0x295704B3, .attn ⟨false, 2⟩ false true .window (some .y) (some .c) (.m 1) (.m 14)),
    (0x06A12733, .maskset ⟨true, 4⟩ (some .c) (some .y) (.m 9) (.m 2))] = true := by decide +kernel

theorem test_decode_opcode_34 : decodesTo [
    (0x225788B4, .kvapp ⟨false, 2⟩ true (some .y) (some .d) (.m 2) (.m 15)),
    (0x04D1DE74, .kvcommit ⟨true, 1⟩ false (some .y) (some .s) (.l 1) (.m 3)),
    (0x29B0BF34, .kvtrunc ⟨true, 4⟩ true (some .k) (some .k) (.m 15) (.m 1)),
    (0x0E4706F4, .linfold ⟨true, 3⟩ (some .d) (some .d) (.m 1) (.m 14)),
    (0x1242E1B4, .pref ⟨false, 6⟩ (some .d) (some .d) (.m 5))] = true := by decide +kernel

theorem test_decode_opcode_35 : decodesTo [
    (0x02210A75, .rcat ⟨true, 1⟩ (some .c) (some .d) (.m 2) (.m 2)),
    (0x05408F35, .rsplitLo ⟨true, 4⟩ (some .d) (some .c) (.m 3) (.m 1)),
    (0x14CB5875, .rsplitHi ⟨false, 1⟩ (some .d) (some .s) (.l 0) (.l 0)),
    (0x09A1A4F5, .rsplice ⟨false, 3⟩ (some .c) (some .k) (.m 9) (.m 3))] = true := by decide +kernel

theorem test_decode_opcode_36 : decodesTo [
    (0x00983D76, .rleaf ⟨false, 5⟩ (some .s) (some .s) (.m 15) (.s 0)),
    (0x053805F6, .ridx ⟨false, 7⟩ (some .k) (some .c) (.m 1) (.s 0)),
    (0x0A5C08F6, .rsum ⟨false, 3⟩ (some .y) (some .d) (.m 2) .z),
    (0x2AAB3D76, .rsumFix ⟨false, 5⟩ (some .c) (some .y) (.m 15) (.l 0)),
    (0x0D42D9F6, .rlen ⟨false, 7⟩ (some .d) (some .c) (.l 0) (.m 5)),
    (0x1157E276, .rref ⟨true, 1⟩ (some .y) (some .c) (.m 15)),
    (0x1522E0F6, .rdrop ⟨false, 3⟩ (some .c) (some .c) .z (.m 5)),
    (0x18BB3C76, .rwalk ⟨false, 1⟩ (some .k) (some .s) (.m 15) (.l 0)),
    (0x1DC2DB36, .rclass ⟨true, 4⟩ (some .d) (some .k) (.l 0) (.m 5))] = true := by decide +kernel

theorem test_decode_opcode_37 : decodesTo [
    (0x01075F37, .trie ⟨true, 4⟩ (.l 1) (.m 14) (.s 0)),
    (0x02008F77, .udec ⟨true, 5⟩ (.m 3) (.m 1)),
    (0x0502C277, .uhold ⟨true, 1⟩ (.s 0) (.m 5) (.s 0))] = true := by decide +kernel

theorem test_decode_opcode_38 : decodesTo [
    (0x02213FF8, .iqput ⟨true, 7⟩ (some .c) (some .d) (.m 15) (.m 2)),
    (0x15C80878, .iqget ⟨false, 1⟩ true (some .d) (some .k) (.m 2) (.s 0)),
    (0x091C0978, .iqwave ⟨false, 5⟩ (some .s) (some .c) (.m 2) .z),
    (0x0E9BBCF8, .iqcons ⟨false, 3⟩ (some .s) (some .y) (.m 15) (.l 1))] = true := by decide +kernel

theorem test_decode_opcode_39 : decodesTo [
    (0x009C59F9, .iqbind ⟨false, 7⟩ (some .s) (some .s) (.l 0) .z),
    (0x1124C1B9, .iqbindStage ⟨false, 6⟩ (some .c) (some .c) (.s 0) (.m 9)),
    (0x04AB39F9, .iqprobe ⟨false, 7⟩ (some .c) (some .s) (.m 14) (.l 0)),
    (0x09A4DBF9, .iqupd ⟨true, 7⟩ (some .c) (some .k) (.l 0) (.m 9)),
    (0x0DA857F9, .iqquiet ⟨true, 7⟩ (some .c) (some .k) (.s 5) (.s 0))] = true := by decide +kernel

/-! ### Witnesses: for each statement, and each of its clauses, a machine and operands that meet its hypotheses -/

/-- m0 = −1, m1 = 64, m2 = 1, m3 = 0. -/
abbrev wA : State := machine [allOnes, 64, 1]
abbrev wA1 : State := rs (.m 0) wA.openChunk
abbrev wA2 : State := rs (.m 1) wA1
abbrev wA3 : State := rs (.m 2) wA2
/-- The same registers in a control core. -/
abbrev wC : State := control [allOnes, 64, 1]
abbrev wC1 : State := rs (.m 0) wC.openChunk
abbrev wC2 : State := rs (.m 1) wC1

theorem witness_IntegerFunctionResults_Binary :
    p0.holds wA.cur.ctx.pred = true ∧ Reads (.m 0) wA.openChunk (rv (.m 0) wA.openChunk) (rs (.m 0) wA.openChunk) ∧
    Reads (.m 1) wA1 (rv (.m 1) wA1) (rs (.m 1) wA1) ∧ Writes (.m 0) (63) wA2 (ws (.m 0) (63) wA2) :=
  ⟨by decide +kernel, reads (by decide +kernel), reads (by decide +kernel), writes (by decide +kernel)⟩

theorem witness_IntegerFunctionResults_Unary :
    p0.holds wA.cur.ctx.pred = true ∧ Reads (.m 0) wA.openChunk (rv (.m 0) wA.openChunk) (rs (.m 0) wA.openChunk) ∧
    Writes .z (0) wA1 (ws .z (0) wA1) :=
  ⟨by decide +kernel, reads (by decide +kernel), writes (by decide +kernel)⟩

theorem witness_ImmediateLogicAndBitFieldResults :
    p0.holds wA.cur.ctx.pred = true ∧ Writes (.l 1) (allOnes) wA.openChunk (ws (.l 1) (allOnes) wA.openChunk) ∧
    (63 : Nat) < 64 :=
  ⟨by decide +kernel, writes (by decide +kernel), by decide +kernel⟩

theorem witness_ImmediateLogicAndBitFieldResults_Ternary :
    p0.holds wA.cur.ctx.pred = true ∧ Reads (.m 0) wA.openChunk (rv (.m 0) wA.openChunk) (rs (.m 0) wA.openChunk) ∧
    Reads (.m 1) wA1 (rv (.m 1) wA1) (rs (.m 1) wA1) ∧ Reads (.m 2) wA2 (rv (.m 2) wA2) (rs (.m 2) wA2) ∧
    Writes (.m 2) (0) wA3 (ws (.m 2) (0) wA3) :=
  ⟨by decide +kernel, reads (by decide +kernel), reads (by decide +kernel), reads (by decide +kernel),
   writes (by decide +kernel)⟩

theorem witness_PredicateResults :
    p0.holds wA.cur.ctx.pred = true ∧ Reads (.m 0) wA.openChunk (rv (.m 0) wA.openChunk) (rs (.m 0) wA.openChunk) ∧
    Reads (.m 1) wA1 (rv (.m 1) wA1) (rs (.m 1) wA1) ∧ Writes (.m 2) (1) wA.openChunk (ws (.m 2) (1) wA.openChunk) ∧
    Writes (.m 2) (64) wA2 (ws (.m 2) (64) wA2) :=
  ⟨by decide +kernel, reads (by decide +kernel), reads (by decide +kernel), writes (by decide +kernel),
   writes (by decide +kernel)⟩

theorem witness_DivisionResults_register :
    p0.holds wA.cur.ctx.pred = true ∧ Reads (.m 0) wA.openChunk (rv (.m 0) wA.openChunk) (rs (.m 0) wA.openChunk) ∧
    Reads (.m 1) wA1 (rv (.m 1) wA1) (rs (.m 1) wA1) ∧ wA.isCtrl = false ∧ (regIndex (.m 0)).isSome = true :=
  ⟨by decide +kernel, reads (by decide +kernel), reads (by decide +kernel), by decide +kernel, by decide +kernel⟩

theorem witness_DivisionResults_discarded :
    p0.holds wA.cur.ctx.pred = true ∧ Reads (.m 0) wA.openChunk (rv (.m 0) wA.openChunk) (rs (.m 0) wA.openChunk) ∧
    Reads (.m 1) wA1 (rv (.m 1) wA1) (rs (.m 1) wA1) ∧ wA.isCtrl = false ∧ (regIndex .z).isNone = true ∧
    Writes .z (0) wA2 (ws .z (0) wA2) :=
  ⟨by decide +kernel, reads (by decide +kernel), reads (by decide +kernel), by decide +kernel, by decide +kernel,
   writes (by decide +kernel)⟩

theorem witness_DivisionResults_control :
    p0.holds wC.cur.ctx.pred = true ∧ Reads (.m 0) wC.openChunk (rv (.m 0) wC.openChunk) (rs (.m 0) wC.openChunk) ∧
    Reads (.m 1) wC1 (rv (.m 1) wC1) (rs (.m 1) wC1) ∧ wC.isCtrl = true ∧ Writes (.m 2) (0) wC2 (ws (.m 2) (0) wC2) :=
  ⟨by decide +kernel, reads (by decide +kernel), reads (by decide +kernel), by decide +kernel, writes (by decide +kernel)⟩

/-- An operation of slot 15 in each shared unit. -/
abbrev op15 : UnitOp := { slot := 15, dst := .m 1, value := 9, flags := 0 }
abbrev wU (n : Nat) : State :=
  { wA with
    slots := [(15, { strand [] with wait := some (.normaliser n) })]
    cores := [(0, { CoreSt.reset with divQ := [op15], sfuQ := [op15], normQ := [15] })] }

theorem witness_DivisionResults_completes :
    ((wU 1).coreAt 0).divQ = op15 :: [] := by decide +kernel

/-- A target at the start of the page, an odd one, one just past the translated space, and m3 to be written. -/
abbrev wJ (t : Word) : State := machine [t]
abbrev wJ1 (t : Word) : State := rs (.m 0) (wJ t).openChunk

theorem witness_BranchesTransferControl_branch :
    p0.holds (wJ 0).cur.ctx.pred = true ∧ (wJ 0).Enters ((wJ 0).cur.ctx.pc + wordI (2 * (-64 : BitVec 22).toInt)) ∧
    Writes (.m 15) ((wJ 0).cur.nextPc) (wJ 0).openChunk (ws (.m 15) ((wJ 0).cur.nextPc) (wJ 0).openChunk) :=
  ⟨by decide +kernel, .inr (.inr (by decide +kernel)), writes (by decide +kernel)⟩

theorem witness_BranchesTransferControl_jump :
    p0.holds (wJ 0).cur.ctx.pred = true ∧
    Reads (.m 0) (wJ 0).openChunk (rv (.m 0) (wJ 0).openChunk) (rs (.m 0) (wJ 0).openChunk) ∧
    (wJ1 0).Enters (rv (.m 0) (wJ 0).openChunk) ∧
    Writes (.m 3) ((wJ1 0).cur.nextPc) (wJ1 0) (ws (.m 3) ((wJ1 0).cur.nextPc) (wJ1 0)) ∧
    (ws (.m 3) (wJ1 0).cur.nextPc (wJ1 0)).Enters 0 :=
  ⟨by decide +kernel, reads (by decide +kernel), .inr (.inr (by decide +kernel)), writes (by decide +kernel),
   .inr (.inr (by decide +kernel))⟩

theorem witness_BranchesTransferControl_odd :
    p0.holds (wJ 1).cur.ctx.pred = true ∧ (wJ 1).isCtrl = false ∧ TakesTraps (wJ 1) ∧
    Reads (.m 0) (wJ 1).openChunk (rv (.m 0) (wJ 1).openChunk) (rs (.m 0) (wJ 1).openChunk) ∧
    (rv (.m 0) (wJ 1).openChunk).toNat % 2 = 1 ∧
    Writes (.m 3) ((wJ1 1).cur.nextPc) (wJ1 1) (ws (.m 3) ((wJ1 1).cur.nextPc) (wJ1 1)) ∧
    (ws (.m 3) (wJ1 1).cur.nextPc (wJ1 1)).cur.isFollower = false :=
  ⟨by decide +kernel, by decide +kernel,
   ⟨by decide +kernel, by decide +kernel, by decide +kernel, by decide +kernel, by decide +kernel, by decide +kernel, by decide +kernel⟩,
   reads (by decide +kernel), by decide +kernel, writes (by decide +kernel), by decide +kernel⟩

theorem witness_BranchesTransferControl_suppressed :
    (⟨true, 0⟩ : Guard).holds wA.cur.ctx.pred = false ∧ wA.cur.dictWord = none ∧
    (withSlot { strand [] with dictWord := some 0 }).cur.dictWord.isSome = true := by decide +kernel

/-- m0 = the least subnormal of f32 and m1 = 1, m2 = −1, in f32. -/
abbrev wF : State := machine [1, 0x3F800000, 0xBF800000]
abbrev wF1 : State := rs (.m 0) wF.openChunk
abbrev wF2 : State := rs (.m 1) wF1
abbrev wF3 : State := rs (.m 2) wF2

theorem witness_FloatFunctionResults_Binary :
    Strand p0 wF ∧ Reads (.m 0) wF.openChunk (rv (.m 0) wF.openChunk) (rs (.m 0) wF.openChunk) ∧
    Reads (.m 1) wF1 (rv (.m 1) wF1) (rs (.m 1) wF1) ∧
    Writes (.m 3) (wordN (fmtF32.mul .rne false 1 0x3F800000).1) ((wF2.normalised 1).raised (fmtF32.mul .rne false 1 0x3F800000).2) (ws (.m 3) (wordN (fmtF32.mul .rne false 1 0x3F800000).1) ((wF2.normalised 1).raised (fmtF32.mul .rne false 1 0x3F800000).2)) :=
  ⟨⟨by decide +kernel, by decide +kernel⟩, reads (by decide +kernel), reads (by decide +kernel), writes (by decide +kernel)⟩

theorem witness_FloatFunctionResults_Unary :
    Strand p0 wF ∧ Reads (.m 0) wF.openChunk (rv (.m 0) wF.openChunk) (rs (.m 0) wF.openChunk) ∧
    Writes (.m 3) (0x80000001) ((wF1.normalised 1).raised 0) (ws (.m 3) (0x80000001) ((wF1.normalised 1).raised 0)) :=
  ⟨⟨by decide +kernel, by decide +kernel⟩, reads (by decide +kernel), writes (by decide +kernel)⟩

theorem witness_FloatFunctionResults_fma :
    Strand p0 wF ∧ Reads (.m 0) wF.openChunk (rv (.m 0) wF.openChunk) (rs (.m 0) wF.openChunk) ∧
    Reads (.m 1) wF1 (rv (.m 1) wF1) (rs (.m 1) wF1) ∧ Reads (.m 2) wF2 (rv (.m 2) wF2) (rs (.m 2) wF2) ∧
    Writes (.m 2) (wordN (fmtF32.fma .rne false 1 0x3F800000 0xBF800000).1) ((wF3.normalised 1).raised (fmtF32.fma .rne false 1 0x3F800000 0xBF800000).2) (ws (.m 2) (wordN (fmtF32.fma .rne false 1 0x3F800000 0xBF800000).1) ((wF3.normalised 1).raised (fmtF32.fma .rne false 1 0x3F800000 0xBF800000).2)) :=
  ⟨⟨by decide +kernel, by decide +kernel⟩, reads (by decide +kernel), reads (by decide +kernel), reads (by decide +kernel),
   writes (by decide +kernel)⟩

theorem witness_FloatFunctionResults_nan :
    (fmtF32.read false 0x7F800001).isNan = true ∧ (fmtF16.read false 0xFFFF).isNan = true ∧
    (fmtBf16.read true 0x7FC0).isNan = true := by decide +kernel

theorem witness_FloatCompareAndConversionResults :
    Strand p0 wF ∧ Reads (.m 0) wF.openChunk (rv (.m 0) wF.openChunk) (rs (.m 0) wF.openChunk) ∧
    Reads (.m 1) wF1 (rv (.m 1) wF1) (rs (.m 1) wF1) ∧
    Writes (.m 3) (wordN (convert .f16 .f32 .rne false 1).1) ((wF1.normalised 1).raised (convert .f16 .f32 .rne false 1).2) (ws (.m 3) (wordN (convert .f16 .f32 .rne false 1).1) ((wF1.normalised 1).raised (convert .f16 .f32 .rne false 1).2)) :=
  ⟨⟨by decide +kernel, by decide +kernel⟩, reads (by decide +kernel), reads (by decide +kernel), writes (by decide +kernel)⟩

theorem witness_FloatCompareAndConversionResults_residual :
    Strand p0 wF ∧ Reads (.m 0) wF.openChunk (rv (.m 0) wF.openChunk) (rs (.m 0) wF.openChunk) ∧
    Writes (.m 3) (wordN (convertWithResidual .bf16 .rne false 1).1) ((wF1.normalised 1).raised (convertWithResidual .bf16 .rne false 1).2.2) (ws (.m 3) (wordN (convertWithResidual .bf16 .rne false 1).1) ((wF1.normalised 1).raised (convertWithResidual .bf16 .rne false 1).2.2)) ∧
    Writes (.m 4) (wordN (convertWithResidual .bf16 .rne false 1).2.1) (ws (.m 3) (wordN (convertWithResidual .bf16 .rne false 1).1) ((wF1.normalised 1).raised (convertWithResidual .bf16 .rne false 1).2.2)) (ws (.m 4) (wordN (convertWithResidual .bf16 .rne false 1).2.1) (ws (.m 3) (wordN (convertWithResidual .bf16 .rne false 1).1) ((wF1.normalised 1).raised (convertWithResidual .bf16 .rne false 1).2.2))) :=
  ⟨⟨by decide +kernel, by decide +kernel⟩, reads (by decide +kernel), writes (by decide +kernel), writes (by decide +kernel)⟩

theorem witness_SpecialFunctionResults_register :
    Strand p0 wF ∧ Reads (.m 0) wF.openChunk (rv (.m 0) wF.openChunk) (rs (.m 0) wF.openChunk) ∧
    subnormals fmtF32 (wF.cur.ctx.tmode.getLsbD 0) [(rv (.m 0) wF.openChunk).toNat % 2 ^ 32] = 1 ∧
    (regIndex (.l 1)).isSome = true :=
  ⟨⟨by decide +kernel, by decide +kernel⟩, reads (by decide +kernel), by decide +kernel, by decide +kernel⟩

theorem witness_SpecialFunctionResults_discarded :
    Strand p0 wF ∧ Reads (.m 1) wF1 (rv (.m 1) wF1) (rs (.m 1) wF1) ∧ (regIndex .z).isNone = true ∧
    Writes .z (0x3F800000) (wF2.normalised 0) (ws .z (0x3F800000) (wF2.normalised 0)) :=
  ⟨⟨by decide +kernel, by decide +kernel⟩, reads (by decide +kernel), by decide +kernel, writes (by decide +kernel)⟩

theorem witness_SpecialFunctionResults_completes :
    (({ wU 1 with cores := [(0, { CoreSt.reset with sfuQ := [op15] })] } : State).coreAt 0).sfuQ = op15 :: [] ∧
    15 ∉ (({ wU 1 with cores := [(0, { CoreSt.reset with sfuQ := [op15] })] } : State).coreAt 0).normQ := by decide +kernel

theorem witness_SpecialFunctionResults_normaliser :
    ((wU 2).coreAt 0).normQ = 15 :: [] ∧ ((wU 2).slotAt 0 15).wait = some (.normaliser 2) ∧ 1 < 2 ∧
    ((wU 1).slotAt 0 15).wait = some (.normaliser 1) := by decide +kernel

theorem witness_SpecialFunctionResults_normaliserVector :
    15 < 16 ∧ (({ wU 2 with cores := [(0, { CoreSt.reset with normQ := [31] })] } : State).coreAt 0).normQ = (16 + 15) :: [] := by
  decide +kernel
/-- A bound stream of two bytes at 0, and a slot with streams, a core with queues. -/
abbrev stream (w : Bool) (b : List Word) : Stream :=
  { base := 0, size := 1, write := w, counts := #v[2, 1, 1, 1], strides := #v[1, 0, 0, 0], pos := 0, buf := b, drained := 0,
    seqs := [], refused := none, absent := none, tainted := none, gen := 0, sent := false }
abbrev wS (x : Stream) : State := withSlot { strand [] with streams := Vector.replicate 4 (some x) }
abbrev wQ (up down : List Word) : State :=
  { wA with cores := [(0, { CoreSt.reset with owner := some (1, 0, 0), nqUp := up, nqDown := down })] }

theorem witness_OperandForms_plain :
    (Reg.l 1).plain = true ∧ wA.isCtrl = false ∧ wA.cur.ctx.guest = false := by decide +kernel

theorem witness_OperandForms_queueRead :
    (wQ [9] []).isCtrl = false ∧ (wQ [9] []).cur.ctx.guest = false ∧ (wQ [9] []).HoldsNone ∧
    ((wQ [9] []).coreAt 0).nqUp = 9 :: [] ∧ ((wQ [] []).coreAt 0).nqUp = [] ∧ (wQ [] []).HoldsNone ∧
    (withSlot { strand [] with kept := [.nq 9] }).cur.kept = .nq 9 :: [] ∧
    (withSlot { strand [] with kept := [.nq 9] }).isCtrl = false ∧
    (withSlot { strand [] with kept := [.nq 9] }).cur.ctx.guest = false := by decide +kernel

theorem witness_OperandForms_queueWrite :
    (wQ [] (List.replicate 15 0)).nqRoom 0 = true ∧ (wQ [] (List.replicate 16 0)).nqRoom 0 = false ∧
    (wQ [] (List.replicate 16 0)).cur.ctx.guest = false := by decide +kernel

theorem witness_OperandForms_guest :
    (withSlot { strand [] with ctx := { (strand []).ctx with guest := true } }).isCtrl = false ∧
    (withSlot { strand [] with ctx := { (strand []).ctx with guest := true } }).cur.ctx.guest = true := by decide +kernel

theorem witness_OperandForms_streamRead :
    (wS (stream false [9])).isCtrl = false ∧ (wS (stream false [9])).cur.streams[(3 : Fin 4)] = some (stream false [9]) ∧
    (stream false [9]).write = false ∧ (stream false [9]).pos < (stream false [9]).total ∧ (stream false [9]).buf = 9 :: [] := by decide +kernel

theorem witness_OperandForms_streamWrite :
    (wS (stream true [])).cur.streams[(0 : Fin 4)] = some (stream true []) ∧ (stream true []).pos < (stream true []).total ∧
    (stream true []).buf.length < 16 ∧ ((stream true []).addr 0).toNat < 2 ^ 56 ∧
    (wS (stream true [])).walk ((stream true []).addr 0).toNat ≠ .malformed := by decide +kernel

theorem witness_OperandForms_register :
    regIndex (.l 1) = some 23 ∧ regIndex (.m 0) = some 0 := by decide +kernel

theorem witness_IdentityWordFields :
    ({ wA with core := 511, slot := 15 } : State).core < 512 ∧ ({ wA with core := 511, slot := 15 } : State).slot < 16 ∧
    ({ wA with core := 511, slot := 15 } : State).cur.ctx.bcore < 8 ∧
    ({ wA with core := 511, slot := 15 } : State).cur.ctx.lane < 8 ∧
    ({ wA with core := 511, slot := 15 } : State).cur.ctx.gsz < 4 := by decide +kernel

/-- A gang's follower that has one instruction in its buffer. -/
abbrev wFollower : State :=
  withSlot { strand [] with
    ctx := { (strand []).ctx with gang := true }
    gbuf := [{ unit := .instr (.cend p0), code := false, pc := 0x80, next := 0x90, seq := 1, faulted := false }] }

theorem witness_RetireAdvancesThePc :
    wA.isCtrl = false ∧ wA.cur.isFollower = false ∧ wFollower.isCtrl = false ∧ wFollower.cur.isFollower = true ∧
    wFollower.cur.gbuf.length = 1 ∧ wC.isCtrl = true := by decide +kernel

theorem witness_ComputingInstructionsLeaveTheRest :
    (Instr.add p0 true (.m 0) (.m 0) (.m 1)).computes = some ([.m 0, .m 1], .m 0) ∧ (∀ r ∈ [Reg.m 0, .m 1], r.plain = true) ∧
    (Reg.m 0).plain = true ∧ exec (.add p0 true (.m 0) (.m 0) (.m 1)) wA = .next (nx (.add p0 true (.m 0) (.m 0) (.m 1)) wA) :=
  ⟨by decide +kernel, by decide +kernel, by decide +kernel, goes_next (by decide +kernel)⟩

theorem witness_FloatInstructionsLeaveTheRest :
    (Instr.fma p0 .rna .f32 (.m 2) (.m 0) (.m 1)).floats = some ([.m 0, .m 1, .m 2], [.m 2]) ∧
    (Instr.cvte p0 .rne .bf16 (.m 3) (.m 0) (.m 4)).floats = some ([.m 0], [.m 3, .m 4]) ∧
    (Instr.rcp p0 (.m 3) (.m 1)).floats = some ([.m 1], [.m 3]) ∧
    (∀ r ∈ [Reg.m 0, .m 1, .m 2], r.plain = true) ∧ (∀ r ∈ [Reg.m 3, .m 4], r.plain = true) ∧ wF.isCtrl = false ∧
    exec (.fma p0 .rna .f32 (.m 2) (.m 0) (.m 1)) wF = .next (nx (.fma p0 .rna .f32 (.m 2) (.m 0) (.m 1)) wF) ∧
    exec (.cvte p0 .rne .bf16 (.m 3) (.m 0) (.m 4)) wF = .next (nx (.cvte p0 .rne .bf16 (.m 3) (.m 0) (.m 4)) wF) ∧
    exec (.rcp p0 (.m 3) (.m 1)) wF = .next (nx (.rcp p0 (.m 3) (.m 1)) wF) :=
  ⟨by decide +kernel, by decide +kernel, by decide +kernel, by decide +kernel, by decide +kernel, by decide +kernel,
   goes_next (by decide +kernel), goes_next (by decide +kernel), goes_next (by decide +kernel)⟩

theorem witness_PredicateInstructionsLeaveTheRest :
    (Instr.cmp p0 .or .lt true 15 (.m 0) (.m 1)).predicates = some ([.m 0, .m 1], 15) ∧
    (Instr.pnot p0 0 3).predicates = some ([], 0) ∧ (∀ r ∈ [Reg.m 0, .m 1], r.plain = true) ∧
    exec (.cmp p0 .or .lt true 15 (.m 0) (.m 1)) wA = .next (nx (.cmp p0 .or .lt true 15 (.m 0) (.m 1)) wA) ∧
    exec (.pnot p0 0 3) wA = .next (nx (.pnot p0 0 3) wA) ∧ wA.isCtrl = false :=
  ⟨by decide +kernel, by decide +kernel, by decide +kernel, goes_next (by decide +kernel), goes_next (by decide +kernel),
   by decide +kernel⟩

theorem witness_SuppressedInstructionsOnlyCount :
    wA.isCtrl = false ∧ (wA.predOf ⟨(⟨true, 0⟩ : Guard).p.val, by omega⟩ ^^ true) = false ∧
    (wA.predOf ⟨(⟨false, 7⟩ : Guard).p.val, by omega⟩ ^^ false) = false ∧ (Instr.barwait ⟨false, 7⟩ (.m 0) (.m 1)).guarded = some ⟨false, 7⟩ ∧
    (Instr.vscan ⟨true, 0⟩ .i32 0 0).crossLane = true ∧ wA.cur.ctx.gang = false := by decide +kernel

/-- A launch with another handler for future-empty traps, a launch with none, and a strand inside its handler. -/
abbrev wT (tv tf : Word) (inside : Bool) : State :=
  { withSlot { strand [] with ctx := { (strand []).ctx with intrap := inside } } with
    launches := [{ launch1 with tvec := tv, tfut := tf }] }

theorem witness_TrapEntry :
    (0xFFFF : Nat) < 2 ^ 16 ∧ (wT 0x40 0 false).cur.ctx.gang = false ∧ (wT 0x40 0 false).cur.ctx.intrap = false ∧
    (wT 0x40 0 false).HoldsNone ∧ (wT 0x40 0 false).tvec ≠ 0 ∧ (wT 0 0x48 false).HoldsNone ∧ (wT 0 0x48 false).tfut ≠ 0 ∧ (wT 0 0x48 false).cur.ctx.intrap = false := by decide +kernel

theorem witness_DoubleTrapStopsTheStrand :
    (wT 0x40 0 true).cur.ctx.gang = false ∧ (wT 0x40 0 true).HoldsNone ∧ (wT 0x40 0 true).cur.ctx.intrap = true ∧
    (wT 0 0 false).HoldsNone ∧ ((wT 0 0 false).tvec = 0 ∧ (wT 0 0 false).tfut = 0) := by decide +kernel

theorem witness_InstructionsThatTrap_software :
    Strand p0 wA ∧ TakesTraps wA :=
  ⟨⟨by decide +kernel, by decide +kernel⟩,
   ⟨by decide +kernel, by decide +kernel, by decide +kernel, by decide +kernel, by decide +kernel, by decide +kernel, by decide +kernel⟩⟩

theorem witness_InstructionsThatTrap_odd :
    Strand p0 (wJ 1) ∧ TakesTraps (wJ 1) ∧
    Reads (.m 0) (wJ 1).openChunk (rv (.m 0) (wJ 1).openChunk) (rs (.m 0) (wJ 1).openChunk) ∧
    (rv (.m 0) (wJ 1).openChunk).toNat % 2 = 1 :=
  ⟨⟨by decide +kernel, by decide +kernel⟩,
   ⟨by decide +kernel, by decide +kernel, by decide +kernel, by decide +kernel, by decide +kernel, by decide +kernel, by decide +kernel⟩,
   reads (by decide +kernel), by decide +kernel⟩

theorem witness_InstructionsThatTrap_outside :
    Strand p0 (wJ 0x100000000000000) ∧ TakesTraps (wJ 0x100000000000000) ∧
    Reads (.m 0) (wJ 0x100000000000000).openChunk (rv (.m 0) (wJ 0x100000000000000).openChunk) (rs (.m 0) (wJ 0x100000000000000).openChunk) ∧
    (rv (.m 0) (wJ 0x100000000000000).openChunk).toNat % 2 = 0 ∧ 2 ^ 56 ≤ (rv (.m 0) (wJ 0x100000000000000).openChunk).toNat :=
  ⟨⟨by decide +kernel, by decide +kernel⟩,
   ⟨by decide +kernel, by decide +kernel, by decide +kernel, by decide +kernel, by decide +kernel, by decide +kernel, by decide +kernel⟩,
   reads (by decide +kernel), by decide +kernel, by decide +kernel⟩

/-- Slot 1 of a manual block; a core that belongs to no block and whose deque is full. -/
abbrev wManual : State :=
  { wA with slot := 1, slots := [(1, strand [allOnes, 64, 1])], launches := [{ launch1 with manual := true }] }
abbrev wFull : State :=
  { wA with cores := [(0, { CoreSt.reset with deque := List.replicate 64 Ctx.zero })] }

theorem witness_InstructionsThatTrap_slots :
    Strand p0 wA ∧ TakesTraps wA ∧ Reads (.m 0) wA.openChunk (rv (.m 0) wA.openChunk) (rs (.m 0) wA.openChunk) ∧
    Reads (.m 1) (rs (.m 0) wA.openChunk) (rv (.m 1) (rs (.m 0) wA.openChunk)) (rs (.m 1) (rs (.m 0) wA.openChunk)) ∧
    wA.manualCore wA.core = false ∧ wA.openChunk.cur.chunk.held = [] :=
  ⟨⟨by decide +kernel, by decide +kernel⟩,
   ⟨by decide +kernel, by decide +kernel, by decide +kernel, by decide +kernel, by decide +kernel, by decide +kernel, by decide +kernel⟩,
   reads (by decide +kernel), reads (by decide +kernel), by decide +kernel, by decide +kernel⟩

theorem witness_InstructionsThatTrap_otherSlot :
    Strand p0 wManual ∧ TakesTraps wManual ∧
    Reads (.m 0) wManual.openChunk (rv (.m 0) wManual.openChunk) (rs (.m 0) wManual.openChunk) ∧
    Reads (.m 1) (rs (.m 0) wManual.openChunk) (rv (.m 1) (rs (.m 0) wManual.openChunk)) (rs (.m 1) (rs (.m 0) wManual.openChunk)) ∧
    wManual.manualCore wManual.core = true ∧ wManual.slot ≠ 0 ∧ wManual.openChunk.cur.chunk.held = [] :=
  ⟨⟨by decide +kernel, by decide +kernel⟩,
   ⟨by decide +kernel, by decide +kernel, by decide +kernel, by decide +kernel, by decide +kernel, by decide +kernel, by decide +kernel⟩,
   reads (by decide +kernel), reads (by decide +kernel), by decide +kernel, by decide +kernel, by decide +kernel⟩

theorem witness_InstructionsThatTrap_fork :
    Strand p0 wFull ∧ TakesTraps wFull ∧
    Reads (.m 0) wFull.openChunk (rv (.m 0) wFull.openChunk) (rs (.m 0) wFull.openChunk) ∧
    Reads (.m 1) (rs (.m 0) wFull.openChunk) (rv (.m 1) (rs (.m 0) wFull.openChunk)) (rs (.m 1) (rs (.m 0) wFull.openChunk)) ∧
    (rs (.m 1) (rs (.m 0) wFull.openChunk)).forkPlace wFull.core = none :=
  ⟨⟨by decide +kernel, by decide +kernel⟩,
   ⟨by decide +kernel, by decide +kernel, by decide +kernel, by decide +kernel, by decide +kernel, by decide +kernel, by decide +kernel⟩,
   reads (by decide +kernel), reads (by decide +kernel), by decide +kernel⟩

/-- An address that a displacement makes misaligned, and one just below the windows; the register window. -/
abbrev wM (a : Word) : State := machine [a, 0, 5]

theorem witness_AccessesThatTrap_misaligned :
    Strand p0 (wM 7) ∧ TakesTraps (wM 7) ∧
    Reads (.m 0) (wM 7).openChunk (rv (.m 0) (wM 7).openChunk) (rs (.m 0) (wM 7).openChunk) ∧
    ((7 : Word) + wordI ((-1 : BitVec 10).toInt * 2 ^ (3 : Fin 4).val)).toNat % 2 ^ (3 : Fin 4).val ≠ 0 ∧
    Reads (.m 2) (rs (.m 0) (wM 7).openChunk) (rv (.m 2) (rs (.m 0) (wM 7).openChunk)) (rs (.m 2) (rs (.m 0) (wM 7).openChunk)) :=
  ⟨⟨by decide +kernel, by decide +kernel⟩,
   ⟨by decide +kernel, by decide +kernel, by decide +kernel, by decide +kernel, by decide +kernel, by decide +kernel, by decide +kernel⟩,
   reads (by decide +kernel), by decide +kernel, reads (by decide +kernel)⟩

theorem witness_AccessesThatTrap_indexed :
    Strand p0 (wM 7) ∧ TakesTraps (wM 7) ∧
    Reads (.m 0) (wM 7).openChunk (rv (.m 0) (wM 7).openChunk) (rs (.m 0) (wM 7).openChunk) ∧
    Reads (.m 1) (rs (.m 0) (wM 7).openChunk) (rv (.m 1) (rs (.m 0) (wM 7).openChunk)) (rs (.m 1) (rs (.m 0) (wM 7).openChunk)) ∧
    ((7 : Word) + wordN ((rv (.m 1) (rs (.m 0) (wM 7).openChunk)).toNat * 2 ^ (1 : Fin 4).val)).toNat % 2 ^ (1 : Fin 4).val ≠ 0 ∧
    Reads (.m 2) (rs (.m 1) (rs (.m 0) (wM 7).openChunk)) (rv (.m 2) (rs (.m 1) (rs (.m 0) (wM 7).openChunk))) (rs (.m 2) (rs (.m 1) (rs (.m 0) (wM 7).openChunk))) ∧
    (7 : Word).toNat % size48 true ≠ 0 :=
  ⟨⟨by decide +kernel, by decide +kernel⟩,
   ⟨by decide +kernel, by decide +kernel, by decide +kernel, by decide +kernel, by decide +kernel, by decide +kernel, by decide +kernel⟩,
   reads (by decide +kernel), reads (by decide +kernel), by decide +kernel, reads (by decide +kernel), by decide +kernel⟩

theorem witness_AccessesThatTrap_unmapped :
    Strand p0 (wM 0x100000000000000) ∧ TakesTraps (wM 0x100000000000000) ∧
    Reads (.m 0) (wM 0x100000000000000).openChunk (rv (.m 0) (wM 0x100000000000000).openChunk) (rs (.m 0) (wM 0x100000000000000).openChunk) ∧
    (2 ^ 56 ≤ (0x100000000000000 : Word).toNat ∧ (0x100000000000000 : Word).toNat < 0xFF00000000000000) ∧
    (0x100000000000000 : Word).toNat % 2 ^ (3 : Fin 4).val = 0 :=
  ⟨⟨by decide +kernel, by decide +kernel⟩,
   ⟨by decide +kernel, by decide +kernel, by decide +kernel, by decide +kernel, by decide +kernel, by decide +kernel, by decide +kernel⟩,
   reads (by decide +kernel), by decide +kernel, by decide +kernel⟩

theorem witness_AccessesThatTrap_window :
    Strand p0 (wM 0xFF00000100FFFFF8) ∧ TakesTraps (wM 0xFF00000100FFFFF8) ∧
    Reads (.m 0) (wM 0xFF00000100FFFFF8).openChunk (rv (.m 0) (wM 0xFF00000100FFFFF8).openChunk) (rs (.m 0) (wM 0xFF00000100FFFFF8).openChunk) ∧
    (0xFF00000100000000 ≤ (0xFF00000100FFFFF8 : Word).toNat ∧ (0xFF00000100FFFFF8 : Word).toNat < 0xFF00000101000000) ∧
    (0xFF00000100FFFFF8 : Word).toNat % 2 ^ (3 : Fin 4).val = 0 :=
  ⟨⟨by decide +kernel, by decide +kernel⟩,
   ⟨by decide +kernel, by decide +kernel, by decide +kernel, by decide +kernel, by decide +kernel, by decide +kernel, by decide +kernel⟩,
   reads (by decide +kernel), by decide +kernel, by decide +kernel⟩

/-- A page that the domain may not read. -/
abbrev wLacks : State := { wM 0 with mem := [(3, 0x0E)] }
abbrev wLacks1 : State := rs (.m 0) wLacks.openChunk

theorem witness_AccessesThatTrap_rights :
    Strand p0 wLacks ∧ TakesTraps wLacks ∧
    Reads (.m 0) wLacks.openChunk (rv (.m 0) wLacks.openChunk) (rs (.m 0) wLacks.openChunk) ∧ wLacks1.homeOf 0 = wLacks.core ∧ wLacks1.switches 0 = false ∧
    wLacks1.resolve wLacks.core (wLacks.cur.ctx.tdom.toNat % 4096) 1 0 false =
      (.lacks 1, (wLacks1.resolve wLacks.core (wLacks.cur.ctx.tdom.toNat % 4096) 1 0 false).2) :=
  ⟨⟨by decide +kernel, by decide +kernel⟩,
   ⟨by decide +kernel, by decide +kernel, by decide +kernel, by decide +kernel, by decide +kernel, by decide +kernel, by decide +kernel⟩,
   reads (by decide +kernel), by decide +kernel, by decide +kernel, Prod.ext (by decide +kernel) rfl⟩

theorem witness_IllegalUnitsTrapOrStop :
    TakesTraps wA ∧ wC.isCtrl = true ∧ (Instr.fabs p0 .f16 (.m 1) (.m 0)).isEvent = false ∧
    (Instr.fabs p0 .f16 (.m 1) (.m 0)).controlCore = false ∧ (Instr.dictionaryCode 0).isEvent = false :=
  ⟨⟨by decide +kernel, by decide +kernel, by decide +kernel, by decide +kernel, by decide +kernel, by decide +kernel, by decide +kernel⟩,
   by decide +kernel, by decide +kernel, by decide +kernel, by decide +kernel⟩
/-- Addresses: the last doubleword of the own scratchpad, the page, the control core's local memory. -/
abbrev acc (va : Word) (n need : Nat) (w : Way) (op : PeerOp) : Acc := { va, size := n, need, way := w, op }

theorem witness_AccessesReachTheirBytes_scratchpad :
    wA.isCtrl = false ∧ wA.core < 512 ∧ 0x3FFF8 < 0x40000 ∧ (0xFF0000000803FFF8 : Word).toNat % 8 = 0 ∧
    (0xFF0000000803FFF8 : Word).toNat = 0xFF00000008000000 + 0x3FFF8 ∧
    wA.sameLaunch wA.cur.ctx wA.core = true ∧ wA.cur.chunk.count = 0 ∧ wA.cur.lockLeft = 0 ∧
    wA.flaws = [] ∧ wA.poisonedIn (0xFF00000000000000 + 0x40000 * wA.core + 0x3FFF8) 8 = none := by decide +kernel

/-- The home of the pages of index 0 is being switched. -/
abbrev wSwitch : State := { wA with switching := some 0 }

theorem witness_AccessesReachTheirBytes_memory :
    wA.isCtrl = false ∧ (0xF8 : Word).toNat < 2 ^ 56 ∧ (0xF8 : Word).toNat % 8 = 0 ∧ wA.homeOf 0xF8 = wA.core ∧ wA.switches 0xF8 = false ∧
    (wA.coreAt 0).l1 = [] ∧ (wA.coreAt 0).plb = [] ∧ (wA.dieAt 0).tc = [page1] ∧ page1.covers 0xF8 = true ∧
    page1.peer = none ∧
    lacking 1 (wA.mem.read (bitsOf wA.regs.drtbase.toNat 39 24 * 2 ^ 24 + 4096 * (wA.cur.ctx.tdom.toNat % 4096) + 3)).toNat = 0 ∧
    wA.poisonedIn 0x80F8 8 = none := by decide +kernel

theorem witness_AccessesReachTheirBytes_switch :
    wSwitch.isCtrl = false ∧ (0xF8 : Word).toNat < 2 ^ 56 ∧ (0xF8 : Word).toNat % 8 = 0 ∧ wSwitch.homeOf 0xF8 = wSwitch.core ∧
    wSwitch.switches 0xF8 = true := by decide +kernel

theorem witness_AccessesReachTheirBytes_control :
    wC.isCtrl = true ∧ (0xBFF8 : Word).toNat % 8 = 0 ∧ (0xBFF8 : Word).toNat + 8 ≤ 0xC000 ∧ wC.flaws = [] := by decide +kernel

/-- m0 = an address, m1 = an index or operand of 0, m2 = 5, m3 = 1. -/
abbrev wP (a : Word) : State := machine [a, 0, 5, 1]
abbrev wP1 (a : Word) : State := rs (.m 0) (wP a).openChunk
abbrev wP2 (a : Word) : State := rs (.m 1) (wP1 a)
abbrev wP3 (a : Word) : State := rs (.m 2) (wP2 a)
/-- A page of device 5, and its answer to the access. -/
abbrev wPeer : State :=
  { withSlot { strand [0, 0, 5] with replies := [.peer 0 9] } with dies := [(0, { DieSt.reset with tc := [{ page1 with peer := some 5 }] })] }
abbrev ldA (va : Word) : Acc := acc va 8 1 .pred (.load 8)
abbrev own0 : Word := 0xFF00000008000000

theorem witness_LoadResults_scratchpad :
    p0.holds (wP own0).cur.ctx.pred = true ∧
    Reads (.m 0) (wP own0).openChunk (rv (.m 0) (wP own0).openChunk) (rs (.m 0) (wP own0).openChunk) ∧
    Finds (ldA own0) (wP1 own0) (fp (ldA own0) (wP1 own0)) (fs (ldA own0) (wP1 own0)) ∧
    Writes (.m 4) (wordN ((fp (ldA own0) (wP1 own0)).value (ldA own0) (fs (ldA own0) (wP1 own0)))) ((fp (ldA own0) (wP1 own0)).after (ldA own0) (fs (ldA own0) (wP1 own0))) (ws (.m 4) (wordN ((fp (ldA own0) (wP1 own0)).value (ldA own0) (fs (ldA own0) (wP1 own0)))) ((fp (ldA own0) (wP1 own0)).after (ldA own0) (fs (ldA own0) (wP1 own0)))) :=
  ⟨by decide +kernel, reads (by decide +kernel), finds (by decide +kernel), writes (by decide +kernel)⟩

theorem witness_LoadResults_memory :
    p0.holds (wP 0x40).cur.ctx.pred = true ∧
    Reads (.m 0) (wP 0x40).openChunk (rv (.m 0) (wP 0x40).openChunk) (rs (.m 0) (wP 0x40).openChunk) ∧
    Finds (ldA 0x40) (wP1 0x40) (fp (ldA 0x40) (wP1 0x40)) (fs (ldA 0x40) (wP1 0x40)) ∧
    Writes (.m 4) (wordN ((fp (ldA 0x40) (wP1 0x40)).value (ldA 0x40) (fs (ldA 0x40) (wP1 0x40)))) ((fp (ldA 0x40) (wP1 0x40)).after (ldA 0x40) (fs (ldA 0x40) (wP1 0x40))) (ws (.m 4) (wordN ((fp (ldA 0x40) (wP1 0x40)).value (ldA 0x40) (fs (ldA 0x40) (wP1 0x40)))) ((fp (ldA 0x40) (wP1 0x40)).after (ldA 0x40) (fs (ldA 0x40) (wP1 0x40)))) :=
  ⟨by decide +kernel, reads (by decide +kernel), finds (by decide +kernel), writes (by decide +kernel)⟩

theorem witness_LoadResults_peer :
    p0.holds wPeer.cur.ctx.pred = true ∧
    Reads (.m 0) wPeer.openChunk (rv (.m 0) wPeer.openChunk) (rs (.m 0) wPeer.openChunk) ∧
    Finds (ldA 0) (rs (.m 0) wPeer.openChunk) (.peer 9) (fs (ldA 0) (rs (.m 0) wPeer.openChunk)) ∧
    Writes (.m 4) (9) (fs (ldA 0) (rs (.m 0) wPeer.openChunk)) (ws (.m 4) (9) (fs (ldA 0) (rs (.m 0) wPeer.openChunk))) :=
  ⟨by decide +kernel, reads (by decide +kernel), finds (by decide +kernel), writes (by decide +kernel)⟩

theorem witness_LoadResults_indexed :
    p0.holds (wP 0x40).cur.ctx.pred = true ∧
    Reads (.m 0) (wP 0x40).openChunk (rv (.m 0) (wP 0x40).openChunk) (rs (.m 0) (wP 0x40).openChunk) ∧
    (wP 0x40).isCtrl = false ∧ Reads (.m 1) (wP1 0x40) (rv (.m 1) (wP1 0x40)) (rs (.m 1) (wP1 0x40)) ∧
    Finds (acc 0x40 1 1 .stay (.load 1)) (wP2 0x40) (fp (acc 0x40 1 1 .stay (.load 1)) (wP2 0x40)) (fs (acc 0x40 1 1 .stay (.load 1)) (wP2 0x40)) ∧
    Writes .z (0) (fs (acc 0x40 1 1 .stay (.load 1)) (wP2 0x40)) (ws .z (0) (fs (acc 0x40 1 1 .stay (.load 1)) (wP2 0x40))) :=
  ⟨by decide +kernel, reads (by decide +kernel), by decide +kernel, reads (by decide +kernel), finds (by decide +kernel),
   writes (by decide +kernel)⟩

theorem witness_StoreResults :
    p0.holds (wP 0x40).cur.ctx.pred = true ∧
    Reads (.m 0) (wP 0x40).openChunk (rv (.m 0) (wP 0x40).openChunk) (rs (.m 0) (wP 0x40).openChunk) ∧
    Reads (.m 2) (wP1 0x40) (rv (.m 2) (wP1 0x40)) (rs (.m 2) (wP1 0x40)) ∧
    Finds (acc 0x40 8 2 .pred (.store (leBytes 8 5))) (rs (.m 2) (wP1 0x40)) (fp (acc 0x40 8 2 .pred (.store (leBytes 8 5))) (rs (.m 2) (wP1 0x40))) (fs (acc 0x40 8 2 .pred (.store (leBytes 8 5))) (rs (.m 2) (wP1 0x40))) :=
  ⟨by decide +kernel, reads (by decide +kernel), reads (by decide +kernel), finds (by decide +kernel)⟩

theorem witness_StoreResults_indexed :
    p0.holds (wP own0).cur.ctx.pred = true ∧
    Reads (.m 0) (wP own0).openChunk (rv (.m 0) (wP own0).openChunk) (rs (.m 0) (wP own0).openChunk) ∧
    (wP own0).isCtrl = false ∧ Reads (.m 1) (wP1 own0) (rv (.m 1) (wP1 own0)) (rs (.m 1) (wP1 own0)) ∧
    Reads (.m 2) (wP2 own0) (rv (.m 2) (wP2 own0)) (rs (.m 2) (wP2 own0)) ∧
    Finds (acc own0 1 2 .y (.store (leBytes 1 5))) (wP3 own0) (fp (acc own0 1 2 .y (.store (leBytes 1 5))) (wP3 own0)) (fs (acc own0 1 2 .y (.store (leBytes 1 5))) (wP3 own0)) :=
  ⟨by decide +kernel, reads (by decide +kernel), by decide +kernel, reads (by decide +kernel), reads (by decide +kernel),
   finds (by decide +kernel)⟩

theorem witness_StoreResults_control :
    p0.holds wC.cur.ctx.pred = true ∧ Reads (.m 1) wC.openChunk (rv (.m 1) wC.openChunk) (rs (.m 1) wC.openChunk) ∧
    Reads (.m 2) (rs (.m 1) wC.openChunk) (rv (.m 2) (rs (.m 1) wC.openChunk)) (rs (.m 2) (rs (.m 1) wC.openChunk)) ∧
    Finds (acc 64 4 2 .pred (.store (leBytes 4 1))) (rs (.m 2) (rs (.m 1) wC.openChunk)) (fp (acc 64 4 2 .pred (.store (leBytes 4 1))) (rs (.m 2) (rs (.m 1) wC.openChunk))) (fs (acc 64 4 2 .pred (.store (leBytes 4 1))) (rs (.m 2) (rs (.m 1) wC.openChunk))) :=
  ⟨by decide +kernel, reads (by decide +kernel), reads (by decide +kernel), finds (by decide +kernel)⟩

theorem witness_StoresChangeOnlyTheirBytes :
    wA.isCtrl = false ∧ wC.isCtrl = true ∧ wC.flaws = [] ∧ 2 ^ 56 ≤ 0xFF00000010000000 ∧ (0 : Nat) < (leBytes 8 5).length := by decide +kernel

/-- A full granule 0 of the own scratchpad. -/
abbrev wE (f : List Nat) : State := { wP own0 with full := f }
abbrev wE1 (f : List Nat) : State := rs (.m 0) (wE f).openChunk
abbrev wE2 (f : List Nat) : State := rs (.m 1) (wE1 f)
abbrev wE3 (f : List Nat) : State := rs (.m 2) (wE2 f)
abbrev pad0 : Nat := 0xFF00000000000000
theorem own0_pad : InPads own0 := ⟨0, 0, .inr (by decide +kernel)⟩

theorem witness_FullEmptyResults_loadFull :
    Strand p0 (wE [0]) ∧ Reads (.m 0) (wE [0]).openChunk (rv (.m 0) (wE [0]).openChunk) (rs (.m 0) (wE [0]).openChunk) ∧
    Reads (.m 1) (wE1 [0]) (rv (.m 1) (wE1 [0])) (rs (.m 1) (wE1 [0])) ∧ InPads own0 ∧ granuleOf pad0 = some 0 ∧
    Finds (acc own0 8 1 .stay (.load 8)) (wE2 [0]) (.here pad0) (fs (acc own0 8 1 .stay (.load 8)) (wE2 [0])) ∧
    (fs (acc own0 8 1 .stay (.load 8)) (wE2 [0])).fullView 0 = true ∧
    Writes (.m 4) (0) ((fs (acc own0 8 1 .stay (.load 8)) (wE2 [0])).fetched own0 pad0) (ws (.m 4) (0) ((fs (acc own0 8 1 .stay (.load 8)) (wE2 [0])).fetched own0 pad0)) :=
  ⟨⟨by decide +kernel, by decide +kernel⟩, reads (by decide +kernel), reads (by decide +kernel), own0_pad, by decide +kernel,
   finds (by decide +kernel), by decide +kernel, writes (by decide +kernel)⟩

theorem witness_FullEmptyResults_loadEmpty :
    Strand p0 (wE []) ∧ Reads (.m 0) (wE []).openChunk (rv (.m 0) (wE []).openChunk) (rs (.m 0) (wE []).openChunk) ∧
    Reads (.m 1) (wE1 []) (rv (.m 1) (wE1 [])) (rs (.m 1) (wE1 [])) ∧ InPads own0 ∧ granuleOf pad0 = some 0 ∧
    Finds (acc own0 8 1 .stay (.load 8)) (wE2 []) (.here pad0) (fs (acc own0 8 1 .stay (.load 8)) (wE2 [])) ∧
    (fs (acc own0 8 1 .stay (.load 8)) (wE2 [])).fullView 0 = false :=
  ⟨⟨by decide +kernel, by decide +kernel⟩, reads (by decide +kernel), reads (by decide +kernel), own0_pad, by decide +kernel,
   finds (by decide +kernel), by decide +kernel⟩

theorem witness_FullEmptyResults_take :
    Strand p0 (wE [0]) ∧ Reads (.m 0) (wE [0]).openChunk (rv (.m 0) (wE [0]).openChunk) (rs (.m 0) (wE [0]).openChunk) ∧
    Reads (.m 1) (wE1 [0]) (rv (.m 1) (wE1 [0])) (rs (.m 1) (wE1 [0])) ∧ InPads own0 ∧ granuleOf pad0 = some 0 ∧
    Finds (acc own0 8 3 .stay (.load 8)) (wE2 [0]) (.here pad0) (fs (acc own0 8 3 .stay (.load 8)) (wE2 [0])) ∧
    (fs (acc own0 8 3 .stay (.load 8)) (wE2 [0])).fullView 0 = true ∧
    Writes (.m 4) (0) (((fs (acc own0 8 3 .stay (.load 8)) (wE2 [0])).fetched own0 pad0).withHeld (.fullBit 0 false)) (ws (.m 4) (0) (((fs (acc own0 8 3 .stay (.load 8)) (wE2 [0])).fetched own0 pad0).withHeld (.fullBit 0 false))) :=
  ⟨⟨by decide +kernel, by decide +kernel⟩, reads (by decide +kernel), reads (by decide +kernel), own0_pad, by decide +kernel,
   finds (by decide +kernel), by decide +kernel, writes (by decide +kernel)⟩

theorem witness_FullEmptyResults_store :
    Strand p0 (wE []) ∧ Reads (.m 0) (wE []).openChunk (rv (.m 0) (wE []).openChunk) (rs (.m 0) (wE []).openChunk) ∧
    Reads (.m 1) (wE1 []) (rv (.m 1) (wE1 [])) (rs (.m 1) (wE1 [])) ∧ InPads own0 ∧ granuleOf pad0 = some 0 ∧
    Reads (.m 2) (wE2 []) (rv (.m 2) (wE2 [])) (rs (.m 2) (wE2 [])) ∧
    Finds (acc own0 8 3 .stay (.store (leBytes 8 5))) (wE3 []) (.here pad0) (fs (acc own0 8 3 .stay (.store (leBytes 8 5))) (wE3 [])) ∧
    (fs (acc own0 8 3 .stay (.store (leBytes 8 5))) (wE3 [])).fullView 0 = false ∧
    Finds (acc own0 8 2 .stay (.store (leBytes 8 5))) (wE3 []) (.here pad0) (fs (acc own0 8 2 .stay (.store (leBytes 8 5))) (wE3 [])) ∧
    Finds (acc own0 8 2 .stay (.store [])) (wE2 []) (.here pad0) (fs (acc own0 8 2 .stay (.store [])) (wE2 [])) :=
  ⟨⟨by decide +kernel, by decide +kernel⟩, reads (by decide +kernel), reads (by decide +kernel), own0_pad, by decide +kernel,
   reads (by decide +kernel), finds (by decide +kernel), by decide +kernel, finds (by decide +kernel),
   finds (by decide +kernel)⟩

theorem witness_FullEmptyResults_takeEmpty :
    Strand p0 (wE []) ∧ InPads own0 ∧ granuleOf pad0 = some 0 ∧
    Finds (acc own0 8 3 .stay (.load 8)) (wE2 []) (.here pad0) (fs (acc own0 8 3 .stay (.load 8)) (wE2 [])) ∧
    (fs (acc own0 8 3 .stay (.load 8)) (wE2 [])).fullView 0 = false :=
  ⟨⟨by decide +kernel, by decide +kernel⟩, own0_pad, by decide +kernel, finds (by decide +kernel), by decide +kernel⟩

theorem witness_FullEmptyResults_fillFull :
    Strand p0 (wE [0]) ∧ InPads own0 ∧ granuleOf pad0 = some 0 ∧ Reads (.m 2) (wE2 [0]) (rv (.m 2) (wE2 [0])) (rs (.m 2) (wE2 [0])) ∧
    Finds (acc own0 8 3 .stay (.store (leBytes 8 5))) (wE3 [0]) (.here pad0) (fs (acc own0 8 3 .stay (.store (leBytes 8 5))) (wE3 [0])) ∧
    (fs (acc own0 8 3 .stay (.store (leBytes 8 5))) (wE3 [0])).fullView 0 = true :=
  ⟨⟨by decide +kernel, by decide +kernel⟩, own0_pad, by decide +kernel, reads (by decide +kernel), finds (by decide +kernel),
   by decide +kernel⟩

theorem witness_FullEmptyResults_retest :
    (15 : Nat) < 16 ∧
    ({ wA with slots := [(8191, { strand [] with wait := some (.fullEmpty 0 true) })], full := [0] } : State).slotAt 511 15 = { strand [] with wait := some (.fullEmpty 0 true) } ∧
    ({ wA with full := [0], core := 511, slot := 15 } : State).fullView 0 = true := by decide +kernel

theorem witness_AtomicResults :
    Strand p0 (wP own0) ∧ Reads (.m 0) (wP own0).openChunk (rv (.m 0) (wP own0).openChunk) (rs (.m 0) (wP own0).openChunk) ∧
    Reads (.m 1) (wP1 own0) (rv (.m 1) (wP1 own0)) (rs (.m 1) (wP1 own0)) ∧
    Finds (acc own0 8 9 .stay (.atom .add 8 0 0)) (wP2 own0) (fp (acc own0 8 9 .stay (.atom .add 8 0 0)) (wP2 own0)) (fs (acc own0 8 9 .stay (.atom .add 8 0 0)) (wP2 own0)) ∧
    Writes (.m 4) (0) ((((fp (acc own0 8 9 .stay (.atom .add 8 0 0)) (wP2 own0)).stored (acc own0 8 9 .stay (.atom .add 8 0 0)) (leBytes 8 0) true ((fp (acc own0 8 9 .stay (.atom .add 8 0 0)) (wP2 own0)).after (acc own0 8 9 .stay (.atom .add 8 0 0)) (fs (acc own0 8 9 .stay (.atom .add 8 0 0)) (wP2 own0))))).raised 0) (ws (.m 4) (0) ((((fp (acc own0 8 9 .stay (.atom .add 8 0 0)) (wP2 own0)).stored (acc own0 8 9 .stay (.atom .add 8 0 0)) (leBytes 8 0) true ((fp (acc own0 8 9 .stay (.atom .add 8 0 0)) (wP2 own0)).after (acc own0 8 9 .stay (.atom .add 8 0 0)) (fs (acc own0 8 9 .stay (.atom .add 8 0 0)) (wP2 own0))))).raised 0)) :=
  ⟨⟨by decide +kernel, by decide +kernel⟩, reads (by decide +kernel), reads (by decide +kernel), finds (by decide +kernel),
   writes (by decide +kernel)⟩

theorem witness_AtomicResults_cas :
    Strand p0 (wP own0) ∧ Reads (.m 0) (wP own0).openChunk (rv (.m 0) (wP own0).openChunk) (rs (.m 0) (wP own0).openChunk) ∧
    Reads (.m 1) (wP1 own0) (rv (.m 1) (wP1 own0)) (rs (.m 1) (wP1 own0)) ∧
    ((if AtomOp.cas = .cas then Reads (.m 2) (wP2 own0) 5 (wP3 own0) else (5 : Word) = 0 ∧ wP3 own0 = wP2 own0)) ∧
    Finds (acc own0 8 9 .y (.atom .cas 8 0 5)) (wP3 own0) (fp (acc own0 8 9 .y (.atom .cas 8 0 5)) (wP3 own0)) (fs (acc own0 8 9 .y (.atom .cas 8 0 5)) (wP3 own0)) ∧
    Writes (.m 2) (0) ((((fp (acc own0 8 9 .y (.atom .cas 8 0 5)) (wP3 own0)).stored (acc own0 8 9 .y (.atom .cas 8 0 5)) (leBytes 8 0) true ((fp (acc own0 8 9 .y (.atom .cas 8 0 5)) (wP3 own0)).after (acc own0 8 9 .y (.atom .cas 8 0 5)) (fs (acc own0 8 9 .y (.atom .cas 8 0 5)) (wP3 own0))))).raised 0) (ws (.m 2) (0) ((((fp (acc own0 8 9 .y (.atom .cas 8 0 5)) (wP3 own0)).stored (acc own0 8 9 .y (.atom .cas 8 0 5)) (leBytes 8 0) true ((fp (acc own0 8 9 .y (.atom .cas 8 0 5)) (wP3 own0)).after (acc own0 8 9 .y (.atom .cas 8 0 5)) (fs (acc own0 8 9 .y (.atom .cas 8 0 5)) (wP3 own0))))).raised 0)) :=
  ⟨⟨by decide +kernel, by decide +kernel⟩, reads (by decide +kernel), reads (by decide +kernel),
   by rw [if_pos rfl]; exact reads (by decide +kernel), finds (by decide +kernel), writes (by decide +kernel)⟩

/-- A CUPD's access, and an update-only line of one word. -/
abbrev cuA : Acc := { va := 0x40, size := 8, need := 8, way := .stay, op := .atom CupdOp.max.atomOp 8 0 0, upd := true }
abbrev updLine : UpdLine := { core := 0, line := 0, pa := 0x8000, op := .max, size := 8, words := [(0xF8, 2 ^ 64 - 1)], marks := [] }

theorem witness_CommutativeUpdateResults :
    Strand p0 (wP 0x40) ∧ Reads (.m 0) (wP 0x40).openChunk (rv (.m 0) (wP 0x40).openChunk) (rs (.m 0) (wP 0x40).openChunk) ∧
    Reads (.m 1) (wP1 0x40) (rv (.m 1) (wP1 0x40)) (rs (.m 1) (wP1 0x40)) ∧ (0x40 : Word).toNat < 2 ^ 56 ∧
    Finds cuA (wP2 0x40) (.here 0x8040) (fs cuA (wP2 0x40)) ∧ (0x8040 : Nat) < 2 ^ 64 ∧
    (fs cuA (wP2 0x40)).cur.chunk.count = 0 :=
  ⟨⟨by decide +kernel, by decide +kernel⟩, reads (by decide +kernel), reads (by decide +kernel), by decide +kernel,
   finds (by decide +kernel), by decide +kernel, by decide +kernel⟩

theorem witness_CommutativeUpdateResults_merge :
    (wA.coreAt (wA.homeOf (256 * updLine.line))).trEn = false ∧ updLine.words = [(0xF8, 2 ^ 64 - 1)] ∧
    wA.flaws = [] ∧ wA.poisonedIn (updLine.pa + 0xF8) updLine.size = none := by decide +kernel

/-- A list of one record: its head at 0 of core 0's scratchpad, the record at 16; or an empty list. -/
abbrev wL (one : Bool) : State :=
  { machine [0xFF00000000000010, 0xFF00000000000000] with
    mem := Memory.writeNat (Memory.writeNat [(3, 0x0F)] pad0 12
      (if one then 0x10 + 0x10 * 2 ^ 32 + 2 ^ 64 else 2 ^ 64 - 1)) (pad0 + 16) 12
        (2 ^ 64 - 1 + (if one then 0 else 0xFFFFFFFF) * 2 ^ 64) }
/-- After reading the record's address (m0), or the head's (m1). -/
abbrev grA (va : Word) : Acc := acc va 16 9 .stay (.load 16)
abbrev wL1 (r : Reg) (one : Bool) : State := rs r (wL one).openChunk
abbrev wL2 (va : Word) (s : State) : State := fs (grA va) s
theorem granule_pad {va : Word} {s : State} (h : regionOf va.toNat = .scratch 0 (va.toNat - pad0)) (f : isOk ((access (grA va)).run s) = true)
    {sa : Nat} (e : fp (grA va) s = .here sa) : Granule va s sa (wL2 va s) :=
  ⟨⟨0, _, h⟩, by have := finds f; rwa [e] at this⟩

theorem witness_ListResults_init :
    Strand p0 (wL false) ∧
    Reads (.m 1) (wL false).openChunk (rv (.m 1) (wL false).openChunk) (rs (.m 1) (wL false).openChunk) ∧
    Granule 0xFF00000000000000 (wL1 (.m 1) false) pad0 (wL2 0xFF00000000000000 (wL1 (.m 1) false)) ∧
    (wL2 0xFF00000000000000 (wL1 (.m 1) false)).field pad0 0 = 0xFFFFFFFF ∧
    Writes (.m 2) (0) (wL2 0xFF00000000000000 (wL1 (.m 1) false)) (ws (.m 2) (0) (wL2 0xFF00000000000000 (wL1 (.m 1) false))) :=
  ⟨⟨by decide +kernel, by decide +kernel⟩, reads (by decide +kernel),
   granule_pad (by decide +kernel) (by decide +kernel) (by decide +kernel), by decide +kernel, writes (by decide +kernel)⟩

/-- The list's head, then its first record, have been reached. -/
abbrev wL3 : State := (wL2 0xFF00000000000000 (wL1 (.m 1) true))
abbrev wL4 : State := wL2 0xFF00000000000010 wL3
/-- The record has left the list. -/
abbrev wL5 : State :=
  let s := (wL4.putField pad0 0 (wL4.field (pad0 + 16) 0)).putField pad0 1 (wL4.field (pad0 + 16) 1)
  s.putField pad0 2 (s.field pad0 2 + 2 ^ 32 - 1)

theorem witness_ListResults_pop :
    Strand p0 (wL true) ∧ Reads (.m 1) (wL true).openChunk (rv (.m 1) (wL true).openChunk) (rs (.m 1) (wL true).openChunk) ∧
    Granule 0xFF00000000000000 (wL1 (.m 1) true) pad0 (wL2 0xFF00000000000000 (wL1 (.m 1) true)) ∧
    wL3.field pad0 0 ≠ 0xFFFFFFFF ∧
    Granule (wordN (0xFF00000000000000 + wL3.field pad0 0)) wL3 (pad0 + 16) (wL2 (wordN (0xFF00000000000000 + wL3.field pad0 0)) wL3) ∧
    Unlinked (pad0 + 16) pad0 wL4 wL5 ∧
    Writes (.m 2) (0xFF00000000000010) (((wL5.putField (pad0 + 16) 2 0xFFFFFFFF).putField (pad0 + 16) 0 0xFFFFFFFF).putField (pad0 + 16) 1 0xFFFFFFFF) (ws (.m 2) (0xFF00000000000010) (((wL5.putField (pad0 + 16) 2 0xFFFFFFFF).putField (pad0 + 16) 0 0xFFFFFFFF).putField (pad0 + 16) 1 0xFFFFFFFF)) :=
  ⟨⟨by decide +kernel, by decide +kernel⟩, reads (by decide +kernel),
   granule_pad (by decide +kernel) (by decide +kernel) (by decide +kernel), by decide +kernel,
   granule_pad (by decide +kernel) (by decide +kernel) (by decide +kernel),
   ⟨pad0, pad0, wL4, wL4, _, .inl ⟨by decide +kernel, rfl, rfl⟩, .inl ⟨by decide +kernel, rfl, rfl⟩, rfl, rfl⟩,
   writes (by decide +kernel)⟩

/-- A record in no list, and the head of an empty one, have been reached. -/
abbrev wL6 : State := wL2 0xFF00000000000000 (wL2 0xFF00000000000010 (rs (.m 1) (wL1 (.m 0) false)))
abbrev wL7 : State := ((wL6.putField (pad0 + 16) 1 (wL6.field pad0 1)).putField (pad0 + 16) 0 0xFFFFFFFF).putField (pad0 + 16) 2 (pad0 - 0xFF00000000000000)
abbrev wL8 : State := (wL7.putField pad0 0 16).putField pad0 1 16

theorem witness_ListResults_move :
    Strand p0 (wL false) ∧
    Reads (.m 0) (wL false).openChunk (rv (.m 0) (wL false).openChunk) (rs (.m 0) (wL false).openChunk) ∧
    Reads (.m 1) (wL1 (.m 0) false) (rv (.m 1) (wL1 (.m 0) false)) (rs (.m 1) (wL1 (.m 0) false)) ∧
    Granule 0xFF00000000000010 (rs (.m 1) (wL1 (.m 0) false)) (pad0 + 16) (wL2 0xFF00000000000010 (rs (.m 1) (wL1 (.m 0) false))) ∧
    Granule 0xFF00000000000000 (wL2 0xFF00000000000010 (rs (.m 1) (wL1 (.m 0) false))) pad0 (wL2 0xFF00000000000000 (wL2 0xFF00000000000010 (rs (.m 1) (wL1 (.m 0) false)))) ∧
    wL6.field (pad0 + 16) 2 = 0xFFFFFFFF ∧ Linked (wL6.field pad0 1) pad0 wL7 pad0 wL7 ∧
    Writes (.m 2) (0) (wL8.putField pad0 2 (wL8.field pad0 2 + 1)) (ws (.m 2) (0) (wL8.putField pad0 2 (wL8.field pad0 2 + 1))) :=
  ⟨⟨by decide +kernel, by decide +kernel⟩, reads (by decide +kernel), reads (by decide +kernel),
   granule_pad (by decide +kernel) (by decide +kernel) (by decide +kernel),
   granule_pad (by decide +kernel) (by decide +kernel) (by decide +kernel), by decide +kernel,
   .inl ⟨by decide +kernel, rfl, rfl⟩, writes (by decide +kernel)⟩
theorem dry_none {s : State} (h : s.cur.streams = Vector.replicate 4 none) (c : s.cur.chunk.held = []) : s.StreamsDry :=
  ⟨fun t st e => (by simp [h] at e), fun t w => by simp [c]⟩
theorem dry_read {s : State} {x : Stream} (h : s.cur.streams = Vector.replicate 4 (some x)) (r : x.write = false)
    (c : s.cur.chunk.held = []) : s.StreamsDry :=
  ⟨fun t st e w => (by simp [h] at e; subst e; rw [r] at w; cases w), fun t w => by simp [c]⟩
/-- A command of the strand, and a device that holds it. -/
abbrev cmdOf (e : EngUnit) (o : EngOp) : Cmd := { wA.newCmd e o none none 0 0 false none with id := 1 }
abbrev wB : State := { wA with cmds := [cmdOf .matrix .mclr] }

theorem witness_SynchronisationResults_fence :
    Strand p0 wA ∧ wA.openChunk.StreamsDry ∧ wA.openChunk.cur.chunk.count = 0 ∧
    wA.fenced .y wA.core (wA.pendingOf wA.cur.ctx.strandId) = true ∧ wB.openChunk.StreamsDry ∧
    wB.fenced .c wB.core (wB.pendingOf wB.cur.ctx.strandId) = false :=
  ⟨⟨by decide +kernel, by decide +kernel⟩, dry_none (by decide +kernel) (by decide +kernel), by decide +kernel,
   by decide +kernel, dry_none (by decide +kernel) (by decide +kernel), by decide +kernel⟩

theorem witness_SynchronisationResults_home :
    Reads (.m 0) (wP 0xFFFFFFFFFFFFFF).openChunk (rv (.m 0) (wP 0xFFFFFFFFFFFFFF).openChunk) (rs (.m 0) (wP 0xFFFFFFFFFFFFFF).openChunk) ∧
    (0xFFFFFFFFFFFFFF : Word).toNat < 2 ^ 56 ∧
    Writes (.m 1) (wordN ((wP1 0xFFFFFFFFFFFFFF).homeOf 0xFFFFFFFFFFFFFF)) (wP1 0xFFFFFFFFFFFFFF) (ws (.m 1) (wordN ((wP1 0xFFFFFFFFFFFFFF).homeOf 0xFFFFFFFFFFFFFF)) (wP1 0xFFFFFFFFFFFFFF)) ∧
    Reads (.m 0) (wP 0xFF0000000803FFFF).openChunk (rv (.m 0) (wP 0xFF0000000803FFFF).openChunk) (rs (.m 0) (wP 0xFF0000000803FFFF).openChunk) ∧
    Writes (.m 1) (wordN 0) (wP1 0xFF0000000803FFFF) (ws (.m 1) (wordN 0) (wP1 0xFF0000000803FFFF)) :=
  ⟨reads (by decide +kernel), by decide +kernel, writes (by decide +kernel), reads (by decide +kernel),
   writes (by decide +kernel)⟩

theorem witness_SynchronisationResults_stays :
    Strand p0 (wP 0x100000000000000) ∧
    Reads (.m 0) (wP 0x100000000000000).openChunk (rv (.m 0) (wP 0x100000000000000).openChunk) (rs (.m 0) (wP 0x100000000000000).openChunk) ∧
    2 ^ 56 ≤ (0x100000000000000 : Word).toNat ∧ (wP1 0x40).homeOf 0x40 = (wP 0x40).core :=
  ⟨⟨by decide +kernel, by decide +kernel⟩, reads (by decide +kernel), by decide +kernel, by decide +kernel⟩

theorem witness_SynchronisationResults_moves :
    Strand p0 (wP 0x100) ∧
    Reads (.m 0) (wP 0x100).openChunk (rv (.m 0) (wP 0x100).openChunk) (rs (.m 0) (wP 0x100).openChunk) ∧
    (wP1 0x100).homeOf 0x100 = 1 ∧ 1 ≠ (wP 0x100).core ∧ (wP1 0x100).mayMove 1 = true ∧
    (wP 0x100).openChunk.cur.chunk.count = 0 ∧
    (∀ p ∈ ((wP 0x100).coreAt (wP 0x100).core).parkStore, p.own ≠ some (wP 0x100).slot) :=
  ⟨⟨by decide +kernel, by decide +kernel⟩, reads (by decide +kernel), by decide +kernel, by decide +kernel, by decide +kernel,
   by decide +kernel, by decide +kernel⟩

/-- Loads one after another. -/
def seqA (n : Nat) (va : Nat → Word) (w : Nat → Way) (i : Nat) : Acc := acc (va i) n 1 (w i) (.load n)
def seqS (n : Nat) (va : Nat → Word) (w : Nat → Way) (s : State) : Nat → State
  | 0 => s
  | i + 1 => (fp (seqA n va w i) (seqS n va w s i)).after (seqA n va w i) (fs (seqA n va w i) (seqS n va w s i))
def seqV (n : Nat) (va : Nat → Word) (w : Nat → Way) (s : State) (i : Nat) : Nat :=
  (fp (seqA n va w i) (seqS n va w s i)).value (seqA n va w i) (fs (seqA n va w i) (seqS n va w s i))
theorem loads_all {k n : Nat} {va : Nat → Word} {w : Nat → Way} {s : State}
    (h : ∀ i, i < k → isOk ((access (seqA n va w i)).run (seqS n va w s i)) = true) :
    LoadsAll k n va w (seqV n va w s) s (seqS n va w s k) :=
  ⟨seqS n va w s, fun i => fs (seqA n va w i) (seqS n va w s i), fun i => fp (seqA n va w i) (seqS n va w s i), rfl, rfl,
    fun i hi => ⟨_, rfl, finds (h i hi), rfl, rfl⟩⟩
/-- A descriptor at the start of the scratchpad: 0x10000 × 2 bytes of stride −1 from 0x40, written. -/
abbrev wD : State := { wP own0 with mem := Memory.writeNat [(3, 0x0F)] pad0 32 (0x40 + 4 * 2 ^ 64 + 0x1FFFF * 2 ^ 128 + 0xFFFFFFFF * 2 ^ 192) }
abbrev wD1 : State := rs (.m 0) wD.openChunk
abbrev dVa (i : Nat) : Word := own0 + wordN (8 * i)
abbrev dWay (i : Nat) : Way := if i = 0 then .pred else .stay
abbrev dV (i : Nat) : Nat := seqV 8 dVa dWay wD1 i

theorem witness_StreamResults_bind :
    Strand p0 wD ∧ Reads (.m 0) wD.openChunk (rv (.m 0) wD.openChunk) (rs (.m 0) wD.openChunk) ∧
    (rv (.m 0) wD.openChunk).toNat % 8 = 0 ∧ LoadsAll 5 8 dVa dWay dV wD1 (seqS 8 dVa dWay wD1 5) ∧
    (Stream.ofWords [dV 0, dV 1, dV 2, dV 3, dV 4]).isSome = true ∧ (seqS 8 dVa dWay wD1 5).cur.streams[(3 : Fin 4)] = none ∧
    (0xFFFF < dV 2 % 2 ^ 16 + 1 ∧ 0 < dV 2 / 2 ^ 16 % 2 ^ 16 + 1 ∧ 0 < dV 2 / 2 ^ 32 % 2 ^ 16 + 1 ∧ 0 < dV 2 / 2 ^ 48 % 2 ^ 16 + 1) :=
  ⟨⟨by decide +kernel, by decide +kernel⟩, reads (by decide +kernel), by decide +kernel, loads_all (by decide +kernel),
   by decide +kernel, by decide +kernel, by decide +kernel⟩

/-- The same where the stream is bound already. -/
abbrev wDb : State := { wD with slots := [(0, { strand [own0] with streams := Vector.replicate 4 (some (stream false [9])) })] }
abbrev wDb1 : State := rs (.m 0) wDb.openChunk
abbrev dVb (i : Nat) : Nat := seqV 8 dVa dWay wDb1 i

theorem witness_StreamResults_rebind :
    Strand p0 wDb ∧ Reads (.m 0) wDb.openChunk (rv (.m 0) wDb.openChunk) (rs (.m 0) wDb.openChunk) ∧
    LoadsAll 5 8 dVa dWay dVb wDb1 (seqS 8 dVa dWay wDb1 5) ∧ (Stream.ofWords [dVb 0, dVb 1, dVb 2, dVb 3, dVb 4]).isSome = true ∧
    (seqS 8 dVa dWay wDb1 5).cur.streams[(3 : Fin 4)] = some (stream false [9]) ∧ (seqS 8 dVa dWay wDb1 5).StreamsDry :=
  ⟨⟨by decide +kernel, by decide +kernel⟩, reads (by decide +kernel), loads_all (by decide +kernel), by decide +kernel,
   by decide +kernel, dry_read (x := stream false [9]) (by decide +kernel) rfl (by decide +kernel)⟩

theorem witness_StreamResults_free :
    Strand p0 wA ∧ wA.cur.streams[(0 : Fin 4)] = none ∧ Strand p0 (wS (stream false [9])) ∧
    (wS (stream false [9])).cur.streams[(0 : Fin 4)] = some (stream false [9]) ∧
    (wS (stream false [9])).openChunk.StreamsDry ∧
    Writes (.m 1) (0) (wS (stream false [9])).openChunk (ws (.m 1) (0) (wS (stream false [9])).openChunk) :=
  ⟨⟨by decide +kernel, by decide +kernel⟩, by decide +kernel, ⟨by decide +kernel, by decide +kernel⟩, by decide +kernel,
   dry_read (x := stream false [9]) (by decide +kernel) rfl (by decide +kernel), writes (by decide +kernel)⟩

theorem witness_StreamResults_arrives :
    ((wS (stream false [])).slotAt 0 0).streams[(1 : Fin 4)] = some (stream false []) ∧ (stream false []).buf.length < 16 ∧
    (stream false []).pos + (stream false []).buf.length < (stream false []).total ∧
    ((wS (stream false [])).elemSpot ((wS (stream false [])).slotAt 0 0).ctx 0 ((stream false []).addr 0).toNat 1 1).1 = .here 0x8000 := by decide +kernel

/-- After the translation of the drained element. -/
abbrev wDr : State := ((wS (stream true [9])).elemSpot ((wS (stream true [9])).slotAt 0 0).ctx 0 ((stream true [9]).addr 0).toNat 1 2).2

theorem witness_StreamResults_drains :
    ((wS (stream true [9])).slotAt 0 0).streams[(1 : Fin 4)] = some (stream true [9]) ∧ (stream true [9]).buf = 9 :: [] ∧
    ((wS (stream true [9])).elemSpot ((wS (stream true [9])).slotAt 0 0).ctx 0 ((stream true [9]).addr 0).toNat 1 2).1 = .here 0x8000 ∧
    (((wS (stream true [9])).elemSpot ((wS (stream true [9])).slotAt 0 0).ctx 0 ((stream true [9]).addr 0).toNat 1 2).2.cmds.any
      fun m => m.guardsRange 0x8000 1) = false ∧ (stream true [9]).refused = none ∧
    (wDr.spotWrite 0 0x8000 (leBytes 1 9)).homeOf 0 = 0 := by decide +kernel

/-- A device whose engine's queue is full. -/
abbrev wBusy (e : EngUnit) : State := { wA with cmds := List.replicate 64 (cmdOf e .mclr) }

theorem witness_EngineCommandsAreHanded_room :
    Strand p0 wA ∧ Reads (.m 0) wA.openChunk (rv (.m 0) wA.openChunk) (rs (.m 0) wA.openChunk) ∧
    ReadsOpt (if true then some (.m 1) else none) wA1 64 wA2 ∧ (regIndex (.m 1)).isSome = true ∧
    wA2.engRoom (clusterOf wA.core) .matrix = true ∧ wA2.engRoom (clusterOf wA.core) (.xfer 1) = true :=
  ⟨⟨by decide +kernel, by decide +kernel⟩, reads (by decide +kernel), by rw [if_pos rfl]; exact reads (by decide +kernel),
   by decide +kernel, by decide +kernel, by decide +kernel⟩

theorem witness_EngineCommandsAreHanded_full :
    Strand p0 (wBusy .walker) ∧
    Reads (.m 0) (wBusy .walker).openChunk (rv (.m 0) (wBusy .walker).openChunk) (rs (.m 0) (wBusy .walker).openChunk) ∧
    ReadsOpt (if false then some (.m 1) else none) (rs (.m 0) (wBusy .walker).openChunk) 0 (rs (.m 0) (wBusy .walker).openChunk) ∧
    (rs (.m 0) (wBusy .walker).openChunk).engRoom (clusterOf (wBusy .walker).core) .walker = false :=
  ⟨⟨by decide +kernel, by decide +kernel⟩, reads (by decide +kernel), ⟨rfl, rfl⟩, by decide +kernel⟩

theorem witness_EngineCommandsAreHanded_mfmt :
    Strand p0 (wP 0x344) ∧
    Reads (.m 0) (wP 0x344).openChunk (rv (.m 0) (wP 0x344).openChunk) (rs (.m 0) (wP 0x344).openChunk) ∧
    (0x344 : Word).toNat < 2 ^ 10 ∧ (0x344 : Word).toNat % 16 = 4 ∧ (0x344 : Word).toNat / 16 % 16 = 4 ∧
    (0x344 : Word).toNat.testBit 8 = true ∧ (0x344 : Word).toNat.testBit 9 = true :=
  ⟨⟨by decide +kernel, by decide +kernel⟩, reads (by decide +kernel), by decide +kernel, by decide +kernel, by decide +kernel,
   by decide +kernel, by decide +kernel⟩

/-- A strand in slot 15 that waits for command 1. -/
abbrev wWaits (c : Cmd) : State :=
  { wA with slots := [(15, { strand [] with wait := some (.engine 1) })], cmds := [c] }
abbrev ans1 : Cmd := { cmdOf .walker .rlen with answer := some 9, dst := some (.l 1) }
abbrev ref1 : Cmd := { ans1 with refused := some (0xFFF, 64) }

theorem witness_EngineEvents_answer :
    (wWaits ans1).cmds = [ans1] ∧ ans1.answer = some 9 ∧ ans1.dst = some (.l 1) ∧ regIndex (.l 1) = some 23 ∧
    ans1.acc = none ∧ ans1.core < 512 ∧ 15 < 16 ∧ (wWaits ans1).waiter ans1.id = some (ans1.core, 15) ∧ ans1.refused = none ∧
    ref1.refused = some (0xFFF, 64) ∧ 0xFFF < 2 ^ 12 ∧ ((wWaits ref1).slotAt 0 15).ctx.gang = false ∧
    ((wWaits ref1).slotAt 0 15).ctx.intrap = false ∧ ({ wWaits ref1 with core := 0, slot := 15 } : State).tvec ≠ 0 := by decide +kernel

theorem witness_EngineEvents_held :
    ({ cmdOf .matrix .mclr with heldPage := some 0 } : Cmd).answer = none ∧
    ({ cmdOf .matrix .mclr with heldPage := some 0 } : Cmd).waiting = false ∧
    ({ cmdOf .matrix .mclr with heldPage := some 0 } : Cmd).heldPage.isSome = true ∧ wB.cmds = [cmdOf .matrix .mclr] ∧
    (cmdOf .matrix .mclr).heldPoison = none ∧ (cmdOf .matrix .mclr).refused = none ∧ (cmdOf .matrix .mclr).ran = false ∧
    (cmdOf .matrix .mclr).acq = none ∧ wB.late = [] := by decide +kernel

/-- A bound queue of 256 slots at the start of the page, its ring, which holds one record, at 0x2000, and a held IQGET.wait
for one record. -/
abbrev get1 : Cmd :=
  { cmdOf .consol (.iqget true) with
    waiting := true, desc := some (leBytes 8 0 ++ leBytes 8 0x1000 ++ leBytes 8 1) }
abbrev wIq : State :=
  { wA with
    cmds := [get1]
    mem := Memory.writeNat (Memory.writeNat [(3, 0x0F)] 0x8000 64 (0x2000 + 0x108 * 2 ^ 64 + 1 * 2 ^ 192 + 1 * 2 ^ 320))
      0xA000 24 (7 + (1 + 2 ^ 32) * 2 ^ 128) }

theorem witness_EngineEvents_serve :
    wIq.cmds = [get1] ∧ get1.waiting = true ∧ get1.op = .iqget true ∧
    (get1.heldPage = none ∧ get1.heldPoison = none ∧ get1.refused = none ∧ get1.ran = false ∧ get1.acq = none) ∧
    get1.desc.isSome = true ∧ wIq.unfit get1 = none ∧ get1.begun = false ∧
    (match (runIqget get1 true).run wIq with
      | .ok (some v, u) => v == 1 && !({ (u.cmdAt get1.id).getD get1 with ran := true, value := v } : Cmd).counts && u.late.isEmpty
      | _ => false) = true := by decide +kernel

/-- A trie whose root, node 0, stands at the start of the scratchpad and has no edge. -/
abbrev wTr (st : Word) : State := { machine [own0, 0x61, st] with mem := Memory.writeNat [(3, 0x0F)] pad0 4 0xFFFFFFFF }
abbrev wTr2 (st : Word) : State := rs (.m 1) (rs (.m 0) (wTr st).openChunk)
abbrev wTr3 (st : Word) : State := rs (.m 2) (wTr2 st)
abbrev wTr4 : State := (got 0 (trieStep 0 own0 0x61) (wTr3 0)).2

theorem witness_TextResults_trie :
    Strand p0 (wTr 0) ∧ Reads (.m 0) (wTr 0).openChunk (rv (.m 0) (wTr 0).openChunk) (rs (.m 0) (wTr 0).openChunk) ∧
    Reads (.m 1) (rs (.m 0) (wTr 0).openChunk) (rv (.m 1) (rs (.m 0) (wTr 0).openChunk)) (rs (.m 1) (rs (.m 0) (wTr 0).openChunk)) ∧
    Reads (.m 2) (wTr2 0) (rv (.m 2) (wTr2 0)) (rs (.m 2) (wTr2 0)) ∧
    (trieStep 0 own0 0x61).run (wTr3 0) = .ok ((got 0 (trieStep 0 own0 0x61) (wTr3 0)).1, wTr4) ∧
    Writes (.m 2) (0xFFFFFF) wTr4 (ws (.m 2) (0xFFFFFF) wTr4) :=
  ⟨⟨by decide +kernel, by decide +kernel⟩, reads (by decide +kernel), reads (by decide +kernel), reads (by decide +kernel),
   got_ok _ _ _ (by decide +kernel), writes (by decide +kernel)⟩

theorem witness_TextResults_dead :
    Strand p0 (wTr 0xFFFFFF) ∧ Reads (.m 2) (wTr2 0xFFFFFF) (rv (.m 2) (wTr2 0xFFFFFF)) (rs (.m 2) (wTr2 0xFFFFFF)) ∧
    (rv (.m 2) (wTr2 0xFFFFFF)).toNat % 2 ^ 24 = 0xFFFFFF ∧
    Writes (.m 2) (0xFFFFFF) (wTr3 0xFFFFFF) (ws (.m 2) (0xFFFFFF) (wTr3 0xFFFFFF)) :=
  ⟨⟨by decide +kernel, by decide +kernel⟩, reads (by decide +kernel), by decide +kernel, writes (by decide +kernel)⟩

theorem witness_TextResults_udec :
    Strand p0 (wTr 0) ∧
    Reads (.m 1) (rs (.m 0) (wTr 0).openChunk) (rv (.m 1) (rs (.m 0) (wTr 0).openChunk)) (rs (.m 1) (rs (.m 0) (wTr 0).openChunk)) ∧
    Writes (.m 1) (udec 0 0x61) (wTr2 0) (ws (.m 1) (udec 0 0x61) (wTr2 0)) ∧ 0x7F < 0x80 ∧ (0x80 ≤ 0x7FF ∧ 0x7FF < 0x800) ∧
    (0x80 ≤ 0xC1 ∧ 0xC1 < 0xC2) ∧ (0xC2 ≤ 0xF4 ∧ 0xF4 ≤ 0xF4) :=
  ⟨⟨by decide +kernel, by decide +kernel⟩, reads (by decide +kernel), writes (by decide +kernel), by decide +kernel,
   by decide +kernel, by decide +kernel, by decide +kernel⟩

abbrev hVa (j : Nat) : Word := own0 + 3 - wordN (j + 1)

theorem witness_TextResults_hold :
    LoadsAll (min 3 3) 1 hVa (fun _ => .pred) (seqV 1 hVa (fun _ => .pred) (wTr2 0)) (wTr2 0) (seqS 1 hVa (fun _ => .pred) (wTr2 0) (min 3 3)) ∧
    Writes (.m 2) (3) (seqS 1 hVa (fun _ => .pred) (wTr2 0) (min 3 3)) (ws (.m 2) (3) (seqS 1 hVa (fun _ => .pred) (wTr2 0) (min 3 3))) :=
  ⟨loads_all (by decide +kernel), writes (by decide +kernel)⟩
/-- A general register can be written in any state. -/
theorem writes_general {r : Reg} (h : (regIndex r).isSome = true) (v : Word) (s : State) : ∃ t, Writes r v s t := by
  obtain ⟨n, e⟩ := Option.isSome_iff_exists.mp h
  exact ⟨s.modCtx fun x => { x with gpr := x.gpr.set n v }, by simp [Writes, writeReg, e]; rfl⟩
theorem not_held {s : State} (h : s.cur.chunk.held = []) (x : Held) : x ∉ s.cur.chunk.held := by simp [h]
/-- A future at 16 of the scratchpad, filled or empty; m1 holds its address. -/
abbrev fut : Word := 0xFF00000000000010
theorem fut_shared : Shared fut := ⟨by decide +kernel, .inr ⟨0, 16, by decide +kernel⟩⟩
abbrev wFu (full : Bool) : State :=
  { withSlot { strand [0x80, fut, 5] with ctx := { (strand [0x80, fut, 5]).ctx with future := fut } } with
    mem := Memory.writeNat [(3, 0x0F)] (pad0 + 24) 1 full.toNat }
abbrev wFu1 (r : Reg) (full : Bool) : State := rs r (wFu full).openChunk

theorem witness_StrandAndFutureResults_fork :
    Strand p0 (wFu false) ∧
    Reads (.m 0) (wFu false).openChunk (rv (.m 0) (wFu false).openChunk) (rs (.m 0) (wFu false).openChunk) ∧
    Reads (.m 1) (wFu1 (.m 0) false) (rv (.m 1) (wFu1 (.m 0) false)) (rs (.m 1) (wFu1 (.m 0) false)) ∧
    (rs (.m 1) (wFu1 (.m 0) false)).forkPlace 0 = some false ∧ Shared fut ∧
    Finds { acc fut 16 8 .stay (.store (leBytes 8 0)) with off := 8 } (rs (.m 1) (wFu1 (.m 0) false)) (.here (pad0 + 16)) (fs { acc fut 16 8 .stay (.store (leBytes 8 0)) with off := 8 } (rs (.m 1) (wFu1 (.m 0) false))) ∧
    (∀ s, ∃ t, Writes (.m 3) 0 s t) :=
  ⟨⟨by decide +kernel, by decide +kernel⟩, reads (by decide +kernel), reads (by decide +kernel), by decide +kernel,
   fut_shared, finds (by decide +kernel), fun s => writes_general rfl 0 s⟩

theorem witness_StrandAndFutureResults_get :
    Strand p0 (wFu true) ∧
    Reads (.m 1) (wFu true).openChunk (rv (.m 1) (wFu true).openChunk) (rs (.m 1) (wFu true).openChunk) ∧ Shared fut ∧
    Finds (acc fut 16 1 .pred .fget) (wFu1 (.m 1) true) (.here (pad0 + 16)) (fs (acc fut 16 1 .pred .fget) (wFu1 (.m 1) true)) ∧
    ((fs (acc fut 16 1 .pred .fget) (wFu1 (.m 1) true)).seen fut (pad0 + 16) 16).testBit 64 = true ∧
    Finds (acc fut 16 1 .pred .fget) (wFu1 (.m 1) false) (.here (pad0 + 16)) (fs (acc fut 16 1 .pred .fget) (wFu1 (.m 1) false)) ∧
    ((fs (acc fut 16 1 .pred .fget) (wFu1 (.m 1) false)).seen fut (pad0 + 16) 16).testBit 64 = false ∧
    TakesTraps (wFu false) ∧ (wFu false).tfut = 0 :=
  ⟨⟨by decide +kernel, by decide +kernel⟩, reads (by decide +kernel), fut_shared, finds (by decide +kernel),
   by decide +kernel, finds (by decide +kernel), by decide +kernel,
   ⟨by decide +kernel, by decide +kernel, by decide +kernel, by decide +kernel, by decide +kernel, by decide +kernel, by decide +kernel⟩,
   by decide +kernel⟩

theorem witness_StrandAndFutureResults_put_empty :
    Strand p0 (wFu false) ∧
    Reads (.m 1) (wFu false).openChunk (rv (.m 1) (wFu false).openChunk) (rs (.m 1) (wFu false).openChunk) ∧
    Reads (.m 2) (wFu1 (.m 1) false) (rv (.m 2) (wFu1 (.m 1) false)) (rs (.m 2) (wFu1 (.m 1) false)) ∧ Shared fut ∧
    Finds (acc fut 16 8 .stay (.fput 5)) (rs (.m 2) (wFu1 (.m 1) false)) (.here (pad0 + 16)) (fs (acc fut 16 8 .stay (.fput 5)) (rs (.m 2) (wFu1 (.m 1) false))) ∧
    ((fs (acc fut 16 8 .stay (.fput 5)) (rs (.m 2) (wFu1 (.m 1) false))).seen fut (pad0 + 16) 16).testBit 64 = false ∧
    TakesTraps (wFu false) :=
  ⟨⟨by decide +kernel, by decide +kernel⟩, reads (by decide +kernel), reads (by decide +kernel), fut_shared,
   finds (by decide +kernel), by decide +kernel,
   ⟨by decide +kernel, by decide +kernel, by decide +kernel, by decide +kernel, by decide +kernel, by decide +kernel, by decide +kernel⟩⟩

theorem witness_StrandAndFutureResults_put_full :
    Strand p0 (wFu true) ∧
    Reads (.m 1) (wFu true).openChunk (rv (.m 1) (wFu true).openChunk) (rs (.m 1) (wFu true).openChunk) ∧
    Reads (.m 2) (wFu1 (.m 1) true) (rv (.m 2) (wFu1 (.m 1) true)) (rs (.m 2) (wFu1 (.m 1) true)) ∧ Shared fut ∧
    Finds (acc fut 16 8 .stay (.fput 5)) (rs (.m 2) (wFu1 (.m 1) true)) (.here (pad0 + 16)) (fs (acc fut 16 8 .stay (.fput 5)) (rs (.m 2) (wFu1 (.m 1) true))) ∧
    ((fs (acc fut 16 8 .stay (.fput 5)) (rs (.m 2) (wFu1 (.m 1) true))).seen fut (pad0 + 16) 16).testBit 64 = true ∧
    TakesTraps (wFu true) :=
  ⟨⟨by decide +kernel, by decide +kernel⟩, reads (by decide +kernel), reads (by decide +kernel), fut_shared,
   finds (by decide +kernel), by decide +kernel,
   ⟨by decide +kernel, by decide +kernel, by decide +kernel, by decide +kernel, by decide +kernel, by decide +kernel, by decide +kernel⟩⟩

theorem witness_StrandAndFutureResults_exit :
    Strand p0 wA ∧ Reads (.m 0) wA.openChunk (rv (.m 0) wA.openChunk) (rs (.m 0) wA.openChunk) ∧ wA1.StreamsDry ∧
    wA1.cur.svuQ = [] ∧ wA1.cur.ctx.future = 0 :=
  ⟨⟨by decide +kernel, by decide +kernel⟩, reads (by decide +kernel), dry_none (by decide +kernel) (by decide +kernel),
   by decide +kernel, by decide +kernel⟩

theorem witness_StrandAndFutureResults_exitFills :
    Strand p0 (wFu false) ∧
    Reads (.m 2) (wFu false).openChunk (rv (.m 2) (wFu false).openChunk) (rs (.m 2) (wFu false).openChunk) ∧
    (wFu1 (.m 2) false).StreamsDry ∧ (wFu1 (.m 2) false).cur.svuQ = [] ∧ (wFu1 (.m 2) false).cur.ctx.future = fut ∧ fut ≠ 0 ∧
    Shared fut ∧
    Finds (acc fut 16 8 .stay (.fput 5)) (wFu1 (.m 2) false) (.here (pad0 + 16)) (fs (acc fut 16 8 .stay (.fput 5)) (wFu1 (.m 2) false)) ∧
    ((fs (acc fut 16 8 .stay (.fput 5)) (wFu1 (.m 2) false)).seen fut (pad0 + 16) 16).testBit 64 = false :=
  ⟨⟨by decide +kernel, by decide +kernel⟩, reads (by decide +kernel), dry_none (by decide +kernel) (by decide +kernel),
   by decide +kernel, by decide +kernel, by decide +kernel, fut_shared, finds (by decide +kernel), by decide +kernel⟩

theorem witness_StrandAndFutureResults_yield :
    Strand p0 wA ∧ wA.cur.ctx.intrap = false ∧ Strand p0 (wT 0x40 0 true) ∧ (wT 0x40 0 true).cur.ctx.intrap = true ∧
    (wT 0x40 0 true).openChunk.Enters (wT 0x40 0 true).cur.tepc :=
  ⟨⟨by decide +kernel, by decide +kernel⟩, by decide +kernel, ⟨by decide +kernel, by decide +kernel⟩, by decide +kernel,
   .inr (.inr (by decide +kernel))⟩

/-- Slot 0 of a manual block whose slot 15 holds what is given, and whose m0 is 15. -/
abbrev wSl (y : Slot) : State :=
  { machine [15, 64] with slots := [(0, strand [15, 64]), (15, y)], launches := [{ launch1 with manual := true }] }
abbrev wSl1 (y : Slot) : State := rs (.m 0) (wSl y).openChunk
abbrev other (o : Occ) (p : Bool) : Slot := { strand [] with occ := o, ctx := { (strand []).ctx with parked := p } }

theorem witness_NewStrandIdsAreUnused : (machine []).liveIds = [7] ∧ (machine []).liveIds.length < 2 ^ 32 := by decide +kernel

theorem witness_SlotAndWakeResults_start :
    Strand p0 (wSl Slot.empty) ∧
    Reads (.m 0) (wSl Slot.empty).openChunk (rv (.m 0) (wSl Slot.empty).openChunk) (rs (.m 0) (wSl Slot.empty).openChunk) ∧
    (rv (.m 0) (wSl Slot.empty).openChunk).toNat % 16 = 15 ∧
    ((wSl1 Slot.empty).cur.chunk.held = [] ∧ ∀ x, x ∉ (wSl1 Slot.empty).cur.chunk.held) ∧
    Reads (.m 1) (wSl1 Slot.empty) (rv (.m 1) (wSl1 Slot.empty)) (rs (.m 1) (wSl1 Slot.empty)) ∧
    (rs (.m 1) (wSl1 Slot.empty)).manualCore 0 = true ∧ (wSl Slot.empty).slot = 0 ∧
    (rs (.m 1) (wSl1 Slot.empty)).idleSlot 0 15 = true ∧ 15 ≠ 0 ∧
    (rs (.m 1) (wSl1 (other .running false))).idleSlot 0 15 = false :=
  ⟨⟨by decide +kernel, by decide +kernel⟩, reads (by decide +kernel), by decide +kernel,
   ⟨by decide +kernel, not_held (by decide +kernel)⟩, reads (by decide +kernel), by decide +kernel, by decide +kernel,
   by decide +kernel, by decide +kernel, by decide +kernel⟩

theorem witness_SlotAndWakeResults_reap :
    (wSl1 (other .finished false)).manualCore 0 = true ∧ ((wSl1 (other .finished false)).slotAt 0 15).occ = .finished ∧
    ((wSl1 (other .running false)).slotAt 0 15).occ ≠ .finished := by decide +kernel

theorem witness_SlotAndWakeResults_query :
    ((wSl1 Slot.empty).slotAt 0 15).occ = .empty ∧ ((wSl1 (other .running false)).slotAt 0 15).occ = .running ∧
    ((wSl1 (other .running false)).slotAt 0 15).ctx.gang = false ∧
    ((wSl1 (other .running false)).slotAt 0 15).ctx.parked = false ∧ ((wSl1 (other .running false)).slotAt 0 15).wait = none ∧
    ((wSl1 (other .running true)).slotAt 0 15).ctx.parked = true ∧
    ((wSl1 (other .finished false)).slotAt 0 15).occ = .finished := by decide +kernel

/-- A slot that waits for its normaliser services, or for its SVU queue; and a member of a gang with a parked one. -/
abbrev waitsN : Slot := { strand [] with vnorm := 1 }
abbrev waitsS : Slot := { strand [] with wait := some .svu, svuQ := [{ op := .nothing, x := 0, y := 0, tmode := 0, seq := 0, gang := none, since := 0 }] }
abbrev mate (p : Bool) : Slot := { strand [] with ctx := { (strand []).ctx with gang := true, gsz := 1, parked := p } }
abbrev wGp (p : Bool) : State := { wSl1 (mate false) with slots := [(0, strand [15, 64]), (15, mate false), (31, mate p)] }

theorem witness_SlotAndWakeResults_queryWaits :
    (waitsN.occ = .running ∧ waitsN.ctx.parked = false ∧ waitsN.ctx.gang = false ∧ waitsN.vnorm ≠ 0) ∧
    ((wSl1 waitsS).slotAt 0 15).wait = some .svu ∧ (wSl1 waitsS).waitOver 0 15 .svu = false ∧
    (wGp true).slotAt 0 15 = mate false ∧ (mate false).ctx.gang = true ∧
    (∃ e ∈ (mate false).ctx.gangCores 0, ((wGp true).slotAt e 15).ctx.gang = true ∧ ((wGp true).slotAt e 15).ctx.parked = true) ∧
    (∀ e ∈ (mate false).ctx.gangCores 0, ((wGp false).slotAt e 15).ctx.gang = true → ((wGp false).slotAt e 15).ctx.parked = false) := by
  decide +kernel

abbrev wWk : State := { wSl (other .running true) with wakes := [{ id := 9, launch := none }, { id := 7, launch := some 1 }] }

theorem witness_SlotAndWakeResults_wake :
    wWk.wakes[1]? = some { id := 7, launch := some 1 } ∧ 15 < 16 ∧ (∀ e ∈ wWk.cores, e.2.parkStore = []) ∧
    (wWk.slotAt 0 15).ctx.parked = true ∧ (wWk.slotAt 0 15).wait ≠ some .verdict ∧ (wWk.slotAt 0 15).ctx.strandId = 7 ∧
    (wWk.slotAt 0 15).ctx.launch = 1 ∧ (wWk.slotAt 0 15).ctx.strandId ≠ 9 := by decide +kernel

/-- A strand of a block of eight cores, on core 7; and a leader, and a strand that waits for its gang to form. -/
abbrev wG (x : Slot) : State :=
  { wA with core := 7, slots := [(112, x)], launches := [{ launch1 with bsz := 3 }], cores := [] }
abbrev leaderSlot : Slot := { strand [] with ctx := { (strand []).ctx with gang := true, leader := true } }
abbrev gangSlot : Slot := { strand [] with wait := some .gang, unit := .instr (.gang p0 .eight) }

theorem witness_GangResults_waits :
    Strand p0 (wG (strand [])) ∧ (wG (strand [])).cur.ctx.gang = false ∧
    (wG (strand [])).openChunk.ownCore (wG (strand [])).cur.ctx 7 = true ∧
    (∀ c ∈ gangOthers (gangSize .eight) 7, (wG (strand [])).openChunk.ownCore (wG (strand [])).cur.ctx c = true) ∧
    (∃ c ∈ gangOthers (gangSize .eight) 7, ((wG (strand [])).slotAt c 0).occ ≠ .reserved 7 0) :=
  ⟨⟨by decide +kernel, by decide +kernel⟩, by decide +kernel, by decide +kernel, by decide +kernel, by decide +kernel⟩

/-- The other slots of the gang are reserved. -/
abbrev wGr : State :=
  { wG (strand []) with slots := (112, strand []) :: (List.range 7).map fun c => (16 * c, { Slot.empty with occ := .reserved 7 0 }) }

theorem witness_GangResults_forms :
    Strand p0 wGr ∧ wGr.cur.ctx.gang = false ∧ wGr.openChunk.ownCore wGr.cur.ctx 7 = true ∧
    (∀ c ∈ gangOthers (gangSize .eight) 7, wGr.openChunk.ownCore wGr.cur.ctx c = true) ∧ (wGr.core < 512 ∧ wGr.slot < 16) ∧
    wGr.cur.releasing = false ∧ (∀ c ∈ gangOthers (gangSize .eight) 7, (wGr.slotAt c 0).occ = .reserved 7 0) :=
  ⟨⟨by decide +kernel, by decide +kernel⟩, by decide +kernel, by decide +kernel, by decide +kernel, by decide +kernel,
   by decide +kernel, by decide +kernel⟩

theorem witness_GangResults_outside :
    Strand p0 wA ∧ TakesTraps wA ∧ (∃ c ∈ gangOthers (gangSize .two) 0, wA.openChunk.ownCore wA.cur.ctx c = false) :=
  ⟨⟨by decide +kernel, by decide +kernel⟩,
   ⟨by decide +kernel, by decide +kernel, by decide +kernel, by decide +kernel, by decide +kernel, by decide +kernel, by decide +kernel⟩,
   by decide +kernel⟩

theorem witness_GangResults_leaves :
    Strand p0 (wG leaderSlot) ∧ (wG leaderSlot).cur.ctx.gang = true ∧ (wG leaderSlot).cur.ctx.leader = true ∧
    (wG leaderSlot).cur.gbuf = [] ∧ (wG (strand [])).cur.ctx.gang = false :=
  ⟨⟨by decide +kernel, by decide +kernel⟩, by decide +kernel, by decide +kernel, by decide +kernel, by decide +kernel⟩

/-- A leader with a follower on the other core of its group of two; a follower at the end of its buffer. -/
abbrev wLead : State :=
  { wG (strand []) with
    slots := [(112, { leaderSlot with ctx := { leaderSlot.ctx with lane := 1, gsz := 1 } }),
      (96, { strand [] with ctx := { (strand []).ctx with gang := true, gsz := 1 } })] }
abbrev wLast : State := wFollower.modCur fun x => { x with releasing := true }

theorem witness_GangResults_releases :
    6 ∈ wLead.cur.ctx.gangCores 7 ∧ 6 ≠ wLead.core ∧ wLead.cur.gskip = 0 ∧ (wLead.slotAt 6 0).occ = .running ∧
    (wLead.slotAt 6 0).isFollower = true ∧ (wLead.slotAt 6 0).gseq ≤ wLead.cur.gseq ∧ wLead.cur.ctx.leader = true ∧
    wLast.cur.isFollower = true ∧ wLast.cur.gbuf.length = 1 ∧ wLast.cur.releasing = true := by decide +kernel

theorem witness_GangResults_reserves :
    7 < 512 ∧ (wG gangSlot).slotAt 7 0 = gangSlot ∧ gangSlot.wait = some .gang ∧ gangSlot.unit = .instr (.gang p0 .eight) ∧
    (∀ e ∈ gangOthers (gangSize .eight) 7, (wG gangSlot).slotFree e 0 = true) ∧
    (∃ e ∈ gangOthers (gangSize .eight) 7, ({ wG gangSlot with slots := [(112, gangSlot), (0, strand [])] } : State).slotFree e 0 = false ∧
      (({ wG gangSlot with slots := [(112, gangSlot), (0, strand [])] } : State).slotAt e 0).occ ≠ .reserved 7 0) := by decide +kernel

/-- A barrier at 16 of the scratchpad: its members, arrivals and generation. m1 holds its address, m2 the generation 5. -/
abbrev wBa (m a g : Nat) : State :=
  { machine [0, fut, 5] with mem := Memory.writeNat [(3, 0x0F)] (pad0 + 16) 12 (m + a * 2 ^ 32 + g * 2 ^ 64) }
abbrev wBa1 (m a g : Nat) : State := rs (.m 1) (wBa m a g).openChunk
abbrev barA (ro : Bool) : Acc := { va := fut, size := 16, need := 8, way := .stay, op := .load 8, own := true, ro }
theorem barrier_pad {s : State} {ro : Bool} (f : isOk ((access (barA ro)).run s) = true) (e : fp (barA ro) s = .here (pad0 + 16)) :
    Barrier fut ro s (pad0 + 16) ((fs (barA ro) s).fetched fut (pad0 + 16)) :=
  ⟨fut_shared, _, by have := finds f; rwa [e] at this, rfl⟩
abbrev afterBar (ro : Bool) (s : State) : State := (fs (barA ro) s).fetched fut (pad0 + 16)

theorem witness_BarrierResults_init :
    Strand p0 (wBa 0 0 0) ∧
    Reads (.m 1) (wBa 0 0 0).openChunk (rv (.m 1) (wBa 0 0 0).openChunk) (rs (.m 1) (wBa 0 0 0).openChunk) ∧
    Reads (.m 2) (wBa1 0 0 0) (rv (.m 2) (wBa1 0 0 0)) (rs (.m 2) (wBa1 0 0 0)) ∧
    Barrier fut false (rs (.m 2) (wBa1 0 0 0)) (pad0 + 16) (afterBar false (rs (.m 2) (wBa1 0 0 0))) :=
  ⟨⟨by decide +kernel, by decide +kernel⟩, reads (by decide +kernel), reads (by decide +kernel),
   barrier_pad (by decide +kernel) (by decide +kernel)⟩

theorem witness_BarrierResults_arrive :
    Barrier fut false (wBa1 2 1 0) (pad0 + 16) (afterBar false (wBa1 2 1 0)) ∧
    barFields true ((afterBar false (wBa1 2 1 0)).field (pad0 + 16) 0) ((afterBar false (wBa1 2 1 0)).field (pad0 + 16) 1 + 1)
      ((afterBar false (wBa1 2 1 0)).field (pad0 + 16) 2) = (2, 0, 1) ∧
    Barrier fut false (wBa1 3 1 0) (pad0 + 16) (afterBar false (wBa1 3 1 0)) ∧
    barFields true ((afterBar false (wBa1 3 1 0)).field (pad0 + 16) 0) ((afterBar false (wBa1 3 1 0)).field (pad0 + 16) 1 + 1)
      ((afterBar false (wBa1 3 1 0)).field (pad0 + 16) 2) = (3, 2, 0) ∧
    (∀ s, ∃ t, Writes (.m 3) 0 s t) :=
  ⟨barrier_pad (by decide +kernel) (by decide +kernel), by decide +kernel,
   barrier_pad (by decide +kernel) (by decide +kernel), by decide +kernel, fun s => writes_general rfl 0 s⟩

theorem witness_BarrierResults_wait :
    Reads (.m 2) (wBa1 2 1 5) (rv (.m 2) (wBa1 2 1 5)) (rs (.m 2) (wBa1 2 1 5)) ∧
    (rs (.m 2) (wBa1 2 1 5)).cur.chunk.count = 0 ∧
    Barrier fut true (rs (.m 2) (wBa1 2 1 5)).ending (pad0 + 16) (afterBar true (rs (.m 2) (wBa1 2 1 5)).ending) ∧
    (afterBar true (rs (.m 2) (wBa1 2 1 5)).ending).field (pad0 + 16) 2 = (rv (.m 2) (wBa1 2 1 5)).toNat % 2 ^ 32 ∧
    (afterBar true (rs (.m 2) (wBa1 2 1 6)).ending).field (pad0 + 16) 2 ≠ (rv (.m 2) (wBa1 2 1 6)).toNat % 2 ^ 32 :=
  ⟨reads (by decide +kernel), by decide +kernel, barrier_pad (by decide +kernel) (by decide +kernel), by decide +kernel,
   by decide +kernel⟩

theorem witness_BarrierResults_leave :
    Barrier fut false (wBa1 1 1 0) (pad0 + 16) (afterBar false (wBa1 1 1 0)) ∧
    0 < (afterBar false (wBa1 1 1 0)).field (pad0 + 16) 0 ∧
    Barrier fut false (wBa1 0 0 0) (pad0 + 16) (afterBar false (wBa1 0 0 0)) ∧
    (afterBar false (wBa1 0 0 0)).field (pad0 + 16) 0 = 0 :=
  ⟨barrier_pad (by decide +kernel) (by decide +kernel), by decide +kernel,
   barrier_pad (by decide +kernel) (by decide +kernel), by decide +kernel⟩

theorem witness_BarrierResults_release :
    ({ wBa 2 0 5 with slots := [(15, { strand [] with wait := some (.barrier (pad0 + 16) 5) })] } : State).slotAt 0 15 = { strand [] with wait := some (.barrier (pad0 + 16) 5) } ∧
    (wBa 2 0 5).mem.readNat (pad0 + 16 + 8) 4 = 5 ∧ (wBa 2 0 6).mem.readNat (pad0 + 16 + 8) 4 ≠ 5 := by decide +kernel

/-- Mailbox 15 of core 0, and the outbound buffer. m0 names the mailbox, or core 511's. -/
abbrev wMb (d : Word) (q : List Word) (o : List Msg) : State :=
  { machine [d, 9] with cores := [(0, { CoreSt.reset with owner := some (1, 0, 0), mboxes := [(15, q)], outbound := o })] }
abbrev msg0 : Msg := { core := 0, mbox := 15, w := 9, blk := some (1, 0, 0), since := 0 }
abbrev wMb1 (d : Word) (q : List Word) (o : List Msg) : State := rs (.m 0) (wMb d q o).openChunk

theorem witness_MessageResults_send :
    Strand p0 (wMb 15 [] []) ∧
    Reads (.m 0) (wMb 15 [] []).openChunk (rv (.m 0) (wMb 15 [] []).openChunk) (rs (.m 0) (wMb 15 [] []).openChunk) ∧
    Reads (.m 1) (wMb1 15 [] []) (rv (.m 1) (wMb1 15 [] [])) (rs (.m 1) (wMb1 15 [] [])) ∧
    (rs (.m 1) (wMb1 15 [] [])).sameLaunch (rs (.m 1) (wMb1 15 [] [])).cur.ctx 0 = true ∧
    (rs (.m 1) (wMb1 15 [] [])).sendRoom 0 = true ∧ (rs (.m 1) (wMb1 15 [] (List.replicate 16 msg0))).sendRoom 0 = false ∧
    TakesTraps (wMb 0x1FFF [] []) ∧
    (rs (.m 1) (wMb1 0x1FFF [] [])).sameLaunch (rs (.m 1) (wMb1 0x1FFF [] [])).cur.ctx 511 = false :=
  ⟨⟨by decide +kernel, by decide +kernel⟩, reads (by decide +kernel), reads (by decide +kernel), by decide +kernel,
   by decide +kernel, by decide +kernel,
   ⟨by decide +kernel, by decide +kernel, by decide +kernel, by decide +kernel, by decide +kernel, by decide +kernel, by decide +kernel⟩,
   by decide +kernel⟩

/-- A strand whose RECV, or WQGET, has taken its word already. -/
abbrev keeps (r : List Take) : State → State := fun s => s.modCur fun x => { x with kept := r }

theorem witness_MessageResults_receive :
    (wMb1 15 [9] []).HoldsNone ∧ (wMb1 15 [] []).HoldsNone ∧ (keeps [.mbox 15 9] (wMb1 15 [] [])).cur.kept = Take.mbox 15 9 :: [] ∧
    ((wMb1 15 [9] []).coreAt 0).mboxes.get [] 15 = 9 :: [] ∧
    (wMb1 15 [9] []).ahead 0 (.mailbox 15) (myTicket (wMb1 15 [9] [])) < 0 + 1 ∧
    ((wMb1 15 [] []).coreAt 0).mboxes.get [] 15 = [] ∧ (∀ s, ∃ t, Writes (.m 3) 9 s t) :=
  ⟨by decide +kernel, by decide +kernel, by decide +kernel, by decide +kernel, by decide +kernel, by decide +kernel,
   fun s => writes_general rfl 9 s⟩

theorem witness_MessageResults_delivers :
    ((wMb 15 [] [msg0]).coreAt 0).outbound[0]? = some msg0 ∧ (wMb 15 [] [msg0]).msgCore msg0 = some 0 ∧
    (((wMb 15 (List.replicate 7 1) [msg0]).coreAt 0).mboxes.get [] 15).length + (wMb 15 (List.replicate 7 1) [msg0]).mboxTaken 0 15 < 8 ∧
    (∀ q ∈ (wMb 15 [] [msg0]).cores, ∀ e ∈ q.2.outbound, e.since < msg0.since →
      (wMb 15 [] [msg0]).msgBox e ≠ (wMb 15 [] [msg0]).msgBox msg0) := by decide +kernel

theorem witness_MessageResults_hop :
    (wQ [] [9]).ringNext 0 = 0 ∧ 16 = 16 - (((wQ [] [9]).coreAt 0).nqUp.length + (wQ [] [9]).nqTaken 0) := by decide +kernel

/-- Work queue 15 of cluster 0, and its occupancy monitor's turns. -/
abbrev wWq (q : List Word) (t : List Nat) (m c : Word) : State :=
  { machine [15, 9] with clusters := [(0, { ClusterSt.reset with wqs := [(15, q)], turns := t, omstat := m, capctl := c })] }
abbrev wWq1 (q : List Word) : State := rs (.m 0) (wWq q [] 0 0).openChunk

theorem witness_WorkQueueAndTurnResults_queue :
    Strand p0 (wWq [] [] 0 0) ∧
    Reads (.m 0) (wWq [] [] 0 0).openChunk (rv (.m 0) (wWq [] [] 0 0).openChunk) (rs (.m 0) (wWq [] [] 0 0).openChunk) ∧
    Reads (.m 1) (wWq1 []) (rv (.m 1) (wWq1 [])) (rs (.m 1) (wWq1 [])) ∧
    (rs (.m 1) (wWq1 (List.replicate 255 0))).wqRoom 0 15 = true ∧
    (rs (.m 1) (wWq1 (List.replicate 256 0))).wqRoom 0 15 = false ∧ ((wWq1 [9]).clusterAt 0).wqs.get [] 15 = 9 :: [] ∧
    (wWq1 [9]).aheadCluster 0 (.wqEmpty 15) (myTicket (wWq1 [9])) < 0 + 1 ∧ ((wWq1 []).clusterAt 0).wqs.get [] 15 = [] ∧
    (wWq1 [9]).HoldsNone ∧ (wWq1 []).HoldsNone ∧ (keeps [.wq 15 9] (wWq1 [])).cur.kept = Take.wq 15 9 :: [] :=
  ⟨⟨by decide +kernel, by decide +kernel⟩, reads (by decide +kernel), reads (by decide +kernel), by decide +kernel,
   by decide +kernel, by decide +kernel, by decide +kernel, by decide +kernel, by decide +kernel, by decide +kernel, by decide +kernel⟩

abbrev wTurn (c : Word) (t : Nat) : State := wWq [] [t] (wordN (2 ^ 48 + 5)) c

theorem witness_WorkQueueAndTurnResults_turn :
    ((wTurn 0 5).clusterAt 0).turns = 5 :: [] ∧ 5 < 2 ^ 32 ∧ ((wTurn 0 5).clusterAt 0).omstat.toNat.testBit 48 = true ∧
    5 ≤ ((wTurn 0 5).clusterAt 0).omstat.toNat % 2 ^ 32 ∧ ((wTurn 0 6).clusterAt 0).omstat.toNat % 2 ^ 32 < 6 ∧
    ((wTurn 0 6).clusterAt 0).capctl.toNat.testBit 16 = false ∧
    ((wWq [] [0] 0 0).clusterAt 0).omstat.toNat.testBit 48 = false ∧
    ((wTurn 0 6).clusterAt 0).named = [] := by decide +kernel

/-- A monitor whose pool 1 has work and no core. -/
abbrev wMoves : State :=
  { wTurn 0 6 with clusters := [(0, { (wTurn 0 6).clusterAt 0 with wqs := [(0, [9])], ompool := 0xFFAA })] }
/-- Pools of highest and lowest ratio, pool by pool. -/
theorem highest {u : ClusterSt} {p : Nat} (h : 1 ≤ p ∧ p ≤ 3) (m : ∀ q : Fin 4, 1 ≤ q.val → u.RatioGe 1 p q.val)
    (f : ∀ q : Fin 4, 1 ≤ q.val → q.val < p → ¬u.RatioGe 1 q.val p) : u.Highest p :=
  ⟨h, fun q a b => m ⟨q, by omega⟩ a, fun q a b => f ⟨q, by omega⟩ a b⟩
theorem lowest {u : ClusterSt} {q : Nat} (h : 1 ≤ q ∧ q ≤ 3) (m : ∀ p : Fin 4, 1 ≤ p.val → u.RatioGe 1 p.val q)
    (f : ∀ p : Fin 4, 1 ≤ p.val → p.val < q → ¬u.RatioGe 1 q p.val) : u.Lowest q :=
  ⟨h, fun p a b => m ⟨p, by omega⟩ a, fun p a b => f ⟨p, by omega⟩ a b⟩

theorem witness_WorkQueueAndTurnResults_stays :
    ((wTurn 0 6).clusterAt 0).Highest 1 ∧ ((wTurn 0 6).clusterAt 0).Lowest 1 :=
  ⟨highest (by decide) (by decide +kernel) (by decide +kernel), lowest (by decide) (by decide +kernel) (by decide +kernel)⟩

theorem witness_WorkQueueAndTurnResults_moves :
    (wMoves.clusterAt 0).turns = 6 :: [] ∧ (wMoves.clusterAt 0).omstat.toNat % 2 ^ 32 < 6 ∧ (wMoves.clusterAt 0).named = [] ∧
    (wMoves.clusterAt 0).capctl.toNat.testBit 16 = false ∧ (wMoves.clusterAt 0).Highest 1 ∧ (wMoves.clusterAt 0).Lowest 2 ∧
    (wMoves.clusterAt 0).RatioGe 2 1 2 ∧ 3 ∈ (wMoves.clusterAt 0).poolCores 2 ∧ (∀ e ∈ (wMoves.clusterAt 0).poolCores 2, e ≤ 3) ∧
    (wMoves.clusterAt 0).poolLeast 2 < ((wMoves.clusterAt 0).poolCores 2).length :=
  ⟨by decide +kernel, by decide +kernel, by decide +kernel, by decide +kernel,
   highest (by decide) (by decide +kernel) (by decide +kernel), lowest (by decide) (by decide +kernel) (by decide +kernel),
   by decide +kernel, by decide +kernel, by decide +kernel, by decide +kernel⟩

theorem witness_ControlRegisterResults_strand :
    Strand p0 (wT 0x40 0 true) ∧ (wT 0x40 0 true).cur.ctx.intrap = true ∧
    (wT 0x40 0 true).openChunk.Enters (wT 0x40 0 true).cur.tepc ∧
    Writes (.m 0) ((wT 0x40 0 true).cur.tepc) (wT 0x40 0 true).openChunk (ws (.m 0) ((wT 0x40 0 true).cur.tepc) (wT 0x40 0 true).openChunk) ∧
    Reads (.m 1) (wT 0x40 0 true).openChunk (rv (.m 1) (wT 0x40 0 true).openChunk) (rs (.m 1) (wT 0x40 0 true).openChunk) ∧
    (∀ v, Held.lcset 15 v ∉ (wT 0x40 0 true).openChunk.cur.chunk.held) ∧ (wT 0x40 0 true).openChunk.cur.chunk.count = 0 ∧
    (∀ p ∈ ((wT 0x40 0 true).coreAt 0).parkStore, p.own ≠ some 0) ∧ (CtrlReg.cycle ≠ .tmode ∧ CtrlReg.cycle ≠ .tepc) :=
  ⟨⟨by decide +kernel, by decide +kernel⟩, by decide +kernel, .inr (.inr (by decide +kernel)), writes (by decide +kernel),
   reads (by decide +kernel), fun v => not_held (by decide +kernel) _, by decide +kernel, by decide +kernel, by decide +kernel⟩

theorem witness_ControlRegisterResults_control :
    wC.isCtrl = true ∧ p0.holds wC.cur.ctx.pred = true ∧
    Reads (.m 0) wC.openChunk (rv (.m 0) wC.openChunk) (rs (.m 0) wC.openChunk) ∧
    Writes (.m 1) (0) wC.openChunk (ws (.m 1) (0) wC.openChunk) ∧ wC.cur.chunk.held = [] :=
  ⟨by decide +kernel, by decide +kernel, reads (by decide +kernel), writes (by decide +kernel), by decide +kernel⟩
/-- A slot with commands queued in the SVU, and one that executes its memory commands one by one. -/
abbrev cmdV (o : SvuOp) : SvuCmd := { op := o, x := own0, y := 0, tmode := 0, seq := 0, gang := none, since := 0 }
abbrev wV (q : List SvuCmd) : State := withSlot { strand [own0, 64] with svuQ := q }
abbrev wV1 (q : List SvuCmd) : State := rs (.m 0) (wV q).openChunk
abbrev wV2 (q : List SvuCmd) : State := rs (.m 1) (wV1 q)
abbrev wSerial : State := withSlot { strand [own0, 0] with svuSerial := true }
abbrev wSerial2 : State := rs (.m 1) (rs (.m 0) wSerial.openChunk)
abbrev ldOp : SvuOp := .ld false .b4 0 7

theorem witness_VectorCommandsAreQueued :
    Strand p0 (wV (List.replicate 7 (cmdV .nothing))) ∧
    ReadsOpt (some (.m 0)) (wV (List.replicate 7 (cmdV .nothing))).openChunk (rv (.m 0) (wV (List.replicate 7 (cmdV .nothing))).openChunk) (rs (.m 0) (wV (List.replicate 7 (cmdV .nothing))).openChunk) ∧
    ReadsOpt (some (.m 1)) (wV1 (List.replicate 7 (cmdV .nothing))) (rv (.m 1) (wV1 (List.replicate 7 (cmdV .nothing)))) (rs (.m 1) (wV1 (List.replicate 7 (cmdV .nothing)))) ∧
    ldOp.isMem = true ∧
    ((wV2 (List.replicate 7 (cmdV .nothing))).cur.svuSerial = false ∧ (wV2 (List.replicate 7 (cmdV .nothing))).cur.lockLeft = 0) ∧
    (wV2 (List.replicate 7 (cmdV .nothing))).cur.svuQ.length < 8 ∧
    8 ≤ (wV2 (List.replicate 8 (cmdV .nothing))).cur.svuQ.length :=
  ⟨⟨by decide +kernel, by decide +kernel⟩, reads (by decide +kernel), reads (by decide +kernel), by decide +kernel,
   by decide +kernel, by decide +kernel, by decide +kernel⟩

theorem witness_VectorCommandsAreQueued_serial :
    Strand p0 wSerial ∧ ReadsOpt (some (.m 0)) wSerial.openChunk (rv (.m 0) wSerial.openChunk) (rs (.m 0) wSerial.openChunk) ∧
    ReadsOpt (some (.m 1)) (rs (.m 0) wSerial.openChunk) (rv (.m 1) (rs (.m 0) wSerial.openChunk)) (rs (.m 1) (rs (.m 0) wSerial.openChunk)) ∧
    ldOp.isMem = true ∧ (wSerial2.cur.svuSerial = true ∨ 0 < wSerial2.cur.lockLeft) ∧ wSerial2.cur.svuQ = [] ∧
    wSerial2.svuNext wSerial2.core wSerial2.slot { wSerial2.svuCmd ldOp own0 0 with since := wSerial2.cur.ticket.getD wSerial2.ticket } = true ∧
    (svuRun (wSerial2.svuCmd ldOp own0 0)).run wSerial2.vectorPinned = .ok ((got () (svuRun (wSerial2.svuCmd ldOp own0 0)) wSerial2.vectorPinned).1, (got () (svuRun (wSerial2.svuCmd ldOp own0 0)) wSerial2.vectorPinned).2) :=
  ⟨⟨by decide +kernel, by decide +kernel⟩, reads (by decide +kernel), reads (by decide +kernel), by decide +kernel,
   by decide +kernel, by decide +kernel, by decide +kernel, got_ok _ _ _ (by decide +kernel)⟩

/-- The same where the slot has commands queued, or another slot's command has waited as long. -/
abbrev wSerialQ : State := withSlot { strand [own0, 0] with svuSerial := true, svuQ := [cmdV .nothing] }
abbrev wSerialO : State := { wSerial with slots := [(0, wSerial.cur), (1, { strand [] with svuQ := [cmdV ldOp] })] }

theorem witness_VectorCommandsAreQueued_serialWaits :
    wSerialQ.cur.svuSerial = true ∧ wSerialQ.cur.svuQ ≠ [] ∧ wSerialO.cur.svuSerial = true ∧ wSerialO.cur.svuQ = [] ∧
    wSerialO.svuNext 0 0 { wSerialO.svuCmd ldOp own0 0 with since := wSerialO.cur.ticket.getD wSerialO.ticket } = false := by
  decide +kernel

/-- After VIMAXS.f32 of a pair of zeros, but for its destination. -/
abbrev wVm (v : Word) : State :=
  (((wV []).openChunk.normalised (vimaxsSub .f32 false ((wV []).cur.vec.pair 0))).raised
    (vimaxsFlags .f32 [(wV []).cur.vec.pair 0])).putPred 7 (v.toNat % 2 ^ 32 == 0xFFFFFFFF)

theorem witness_VectorControlResults :
    Strand p0 (wV []) ∧ (wV []).cur.svuQ = [] ∧ (wV []).cur.ctx.gang = false ∧
    Writes (.m 2) 0 (wVm 0) (ws (.m 2) 0 (wVm 0)) ∧
    Writes (.m 2) (0) (wV []).openChunk (ws (.m 2) (0) (wV []).openChunk) ∧
    Strand p0 (wV (List.replicate 8 (cmdV .nothing))) ∧ (wV (List.replicate 8 (cmdV .nothing))).cur.svuQ ≠ [] :=
  ⟨⟨by decide +kernel, by decide +kernel⟩, by decide +kernel, by decide +kernel, writes (by decide +kernel),
   writes (by decide +kernel), ⟨by decide +kernel, by decide +kernel⟩, by decide +kernel⟩

abbrev addOp : SvuOp := .bin .add .n32 1 7 0 (.vec 6)
abbrev redOp : SvuOp := .red false .i32 3 0 7

theorem witness_VectorCommandsComplete_local :
    ((wV [cmdV addOp, cmdV redOp]).slotAt 0 0).svuQ = cmdV addOp :: [cmdV redOp] ∧
    ((wV [cmdV addOp, cmdV redOp]).slotAt 0 0).wait = none ∧ (addOp.isMem = false ∧ addOp.isCross = false) ∧
    (cmdV addOp).subnormalVecs ((wV [cmdV addOp]).slotAt 0 0).vec = 0 ∧ LType.n32 ≠ .f32 ∧ (1 : Fin 4) ≠ 0 ∧
    redOp.isCross = true ∧ (cmdV redOp).gang = none ∧ (wV [cmdV addOp, cmdV redOp]).svuNext 0 0 (cmdV addOp) = true ∧
    (wV [cmdV redOp]).svuNext 0 0 (cmdV redOp) = true ∧
    (cmdV redOp).subnormalVecs ((wV [cmdV redOp]).slotAt 0 0).vec = 0 := by decide +kernel

theorem witness_VectorCommandsComplete_memory :
    ((wV [cmdV ldOp]).slotAt 0 0).svuQ = cmdV ldOp :: [] ∧ ldOp.isMem = true ∧ (wV [cmdV ldOp]).svuNext 0 0 (cmdV ldOp) = true ∧
    isOk ((svuRun (cmdV ldOp)).run { wV [cmdV ldOp] with core := 0, slot := 0 }) = true ∧
    isOk ((svuRun { cmdV ldOp with x := 0x100000000000000 }).run { wV [cmdV ldOp] with core := 0, slot := 0 }) = false := by decide +kernel

/-- A vector load that meets a page whose home is being switched. -/
abbrev wVs : State := { wV [{ cmdV ldOp with x := 0x40 }] with switching := some 0 }

theorem witness_VectorCommandsComplete_switch :
    (wVs.slotAt 0 0).svuQ = { cmdV ldOp with x := 0x40 } :: [] ∧ wVs.svuNext 0 0 { cmdV ldOp with x := 0x40 } = true ∧
    (match (svuRun { cmdV ldOp with x := 0x40 }).run { wVs with core := 0, slot := 0 } with
      | .error (.wait (.home _) _) => true | .ok _ | .error _ => false) = true := by decide +kernel

/-- Slots 0 and 1: a chunk that has ended, and one that read a line of it; or one that conflicts, discarded twice before. -/
abbrev endedChunk : Chunk :=
  { Chunk.none with isOpen := true, ended := true, writes := [lineOf pad0], held := [.store pad0 pad0 [1] false] }
abbrev wCm (x : Slot) : State :=
  { wA with slots := [(0, x), (1, { strand [] with chunk := { Chunk.none with isOpen := true, reads := [lineOf pad0] } })] }
theorem no_owner {s : State} {c k : Nat} (h : (s.coreAt c).parkStore = []) : s.NoOwner c k := fun p m => by rw [h] at m; cases m
abbrev wEnd : State := wCm { strand [] with chunk := endedChunk }
abbrev conflicting : Slot :=
  { strand [] with chunk := { endedChunk with conflict := true, snapCtx := (strand []).ctx }, discardPc := 0x80, discards := 3 }
abbrev locking : Slot := { strand [] with wait := some (.lock [7, 9]) }

theorem witness_CommitTakesEffect_commits :
    wEnd.slotAt 0 0 = { strand [] with chunk := endedChunk } ∧ (endedChunk.isOpen = true ∧ endedChunk.ended = true) ∧
    wEnd.fate 0 0 = .free ∧ wEnd.NoOwner 0 0 ∧ wEnd.flaws = [] ∧ (∀ h ∈ endedChunk.held, ∃ sa va b a, h = .store sa va b a ∧ 2 ^ 56 ≤ va) ∧
    ((wEnd.slotAt 0 1).chunk.isOpen = true ∧ lineOf pad0 ∈ endedChunk.writes ∧ lineOf pad0 ∈ (wEnd.slotAt 0 1).chunk.reads) :=
  ⟨by decide +kernel, by decide +kernel, by decide +kernel, no_owner (by decide +kernel), by decide +kernel,
   fun h e => ⟨_, _, _, _, List.mem_singleton.mp e, by decide +kernel⟩, by decide +kernel⟩

theorem witness_CommitTakesEffect_discards :
    (wCm conflicting).slotAt 0 0 = conflicting ∧ (conflicting.chunk.isOpen = true ∧ conflicting.chunk.conflict = true) ∧
    conflicting.discardPc = conflicting.chunk.snapCtx.pc ∧ conflicting.discards = 3 ∧
    conflicting.formedBy ≠ some (16 * 0 + 0) ∧ conflicting.chunk.freed = false ∧
    (((wCm conflicting).slotAt 0 1).chunk.isOpen = true ∧ ((wCm conflicting).slotAt 0 1).chunk.ended = false ∧
      ((wCm conflicting).slotAt 0 1).chunk.conflict = false ∧ ((wCm conflicting).slotAt 0 1).chunk.held = []) ∧
    (wEnd.slotAt 0 0).chunk.isOpen = true ∧ (wEnd.slotAt 0 0).formedBy ≠ some (16 * 0 + 0) ∧
    (∃ h ∈ (wEnd.slotAt 0 0).chunk.held, ({ wEnd with poison := [pad0] } : State).spoils h = true) := by decide +kernel

theorem witness_CommitTakesEffect_locks :
    ((wCm locking).slotAt 0 0).wait = some (.lock [7, 9]) ∧ (wCm locking).awaits 0 0 = none ∧
    (∀ e ∈ (wCm locking).slots, e.1 ≠ 16 * 0 + 0 → (∀ n ∈ e.2.reserved, n ∉ [7, 9]) ∧ e.2.wait = none) := by decide +kernel

/-- A launch with a dictionary of one word at 0x40, which core 0 holds, or for which slot 15 waits. -/
abbrev launchD : Launch := { launch1 with dcnt := 1, dict := 0x40 }
abbrev wDi (d : List (Nat × List (BitVec 32))) : State :=
  { wA with
    slots := [(0, strand []), (15, { strand [] with wait := some .dictionary })], launches := [launchD]
    cores := [(0, { CoreSt.reset with dicts := d })] }

theorem witness_CoreEventsTakeEffect_code :
    (wDi [(1, [0])]).isCtrl = false ∧ (wDi [(1, [0])]).launchOf (wDi [(1, [0])]).cur.ctx = some launchD ∧
    (0 : BitVec 10).toNat < launchD.dcnt ∧
    ((wDi [(1, [0])]).coreAt 0).dicts.find? (fun d => d.1 == launchD.num) = some (launchD.num, [0]) ∧
    (([0] : List (BitVec 32)).getD 0 0).toNat % 64 ≠ 0x3E ∧
    ((wDi []).coreAt 0).dicts.find? (fun d => d.1 == launchD.num) = none := by decide +kernel

theorem witness_CoreEventsTakeEffect_load :
    (wDi []).launchOf ((wDi []).slotAt 0 15).ctx = some launchD ∧ ((wDi []).slotAt 0 15).wait = some .dictionary ∧
    (match ((wDi []).dictWords 0 0 0x80 1 0x40).1 with | .inr _ => true | .inl _ => false) = true := by decide +kernel

/-- An empty slot 15 of a core with a context on its deque, or with a strand on its way to it. -/
abbrev ctxD : Ctx := { (strand []).ctx with strandId := 9 }
abbrev wSt (d : List Ctx) (a : List Arrival) : State :=
  { wA with
    slots := (List.range 15).map fun k => (k, strand [])
    cores := [(0, { CoreSt.reset with owner := some (1, 0, 0), deque := d, arrivals := a })] }

theorem witness_CoreEventsTakeEffect_steal :
    (wSt [ctxD] []).idleSlot 0 15 = true ∧ ((wSt [ctxD] []).coreAt 0).parkStore = [] ∧ (wSt [ctxD] []).staying 0 = true ∧ ((wSt [ctxD] []).coreAt 0).arrivals = [] ∧
    (wSt [ctxD] []).manualCore 0 = false ∧ ((wSt [ctxD] []).coreAt 0).deque.getLast? = some ctxD ∧
    (((wSt [ctxD] []).coreAt 0).owner = some (1, 0, 0) ∧ ctxD.isOf 1 0 = true) := by decide +kernel

theorem witness_CoreEventsTakeEffect_arrival :
    ((wSt [] [{ ctx := ctxD, predH := 3, predN := 2 }]).coreAt 0).arrivals = { ctx := ctxD, predH := 3, predN := 2 } :: [] ∧
    (wSt [] []).idleSlot 0 15 = true ∧ (∀ j, j < 15 → (wSt [] []).idleSlot 0 j = false) := by decide +kernel

/-- A slot that waits for an access, an answer, or a walk of 0x40; a page table that maps 128 MiB at 0. -/
abbrev wWait (w : Wait) : State := withSlot { strand [] with wait := some w }
abbrev reqAt (va : Nat) : Req := { va, size := 8, need := 1, op := .load 8 }
abbrev bigTable : Memory :=
  Memory.writeNat (Memory.writeNat (Memory.writeNat [(3, 0x0F)] 0x100000 8 0x101001) 0x101000 8 0x102001) 0x102000 8 (3 + 3 * 2 ^ 52)
abbrev wWalk (w : Wait) : State := { wWait w with mem := bigTable, regs := { Regs.reset with ptroot := 0x100000 } }

theorem witness_CoreEventsTakeEffect_remote :
    ((wWait (.request (reqAt pad0))).slotAt 0 0).wait = some (.request (reqAt pad0)) ∧
    (wWait (.request (reqAt pad0))).reachOf ((wWait (.request (reqAt pad0))).slotAt 0 0).ctx 0 pad0 = .window 0 pad0 ∧
    (wWait (.request (reqAt (2 ^ 56)))).reachOf ((wWait (.request (reqAt (2 ^ 56)))).slotAt 0 0).ctx 0 (2 ^ 56) = .bad 0 ∧
    (wWait (.request (reqAt 0x140))).reachOf ((wWait (.request (reqAt 0x140))).slotAt 0 0).ctx 0 0x140 = .space ∧
    (wWait (.request (reqAt 0x140))).switches 0x140 = false ∧
    ({ wWait (.request (reqAt 0x140)) with switching := some 0 } : State).switches 0x140 = true ∧
    ((wWait (.request (reqAt 0x140))).resolve ((wWait (.request (reqAt 0x140))).homeOf 0x140) 0 1 0x140 false).1 = .ok 0x8140 := by decide +kernel

/-- Device 5 is reached by link 0, which retrains. -/
abbrev wStall : State := { wWalk (.peer 5 (reqAt 0)) with links := [(0, { up := true, replays := 16, failed := 0 })] }

theorem witness_CoreEventsTakeEffect_reply :
    ((wWait (.reply (.ok 0x40 9))).slotAt 0 0).wait = some (.reply (.ok 0x40 9)) ∧
    ((wWait (.peer 5 (reqAt 0))).slotAt 0 0).wait = some (.peer 5 (reqAt 0)) ∧ (wWait (.peer 5 (reqAt 0))).linkStalled 5 = false ∧
    (wStall.slotAt 0 0).wait = some (.peer 5 (reqAt 0)) ∧ wStall.linkStalled 5 = true := by decide +kernel

theorem witness_CoreEventsTakeEffect_walk :
    ((wWalk (.walk 0x40 0 none)).slotAt 0 0).wait = some (.walk 0x40 0 none) ∧ (wWalk (.walk 0x40 0 none)).walking 0 0 = true ∧
    (wWalk (.fetch 0x40)).walking 0 0 = true ∧ (wWalk (.fetch 0x40)).flaws = [] ∧
    (wWalk (.walk 0x40 0 none)).walk 0x40 = .leaf { va := 0, bits := 27, key := 3, pa := 0, peer := none } ∧
    ((wWalk (.fetch 0x40)).slotAt 0 0).wait = some (.fetch 0x40) ∧
    (wWalk (.fetch 0x40)).walk 0x40 = .leaf { va := 0, bits := 27, key := 3, pa := 0, peer := none } := by decide +kernel

/-- A page table that maps 32 KiB at 0 to the frame at 0x8000, absent or present, and a free frame of stack 1. -/
abbrev smallTable (p : Nat) : Memory :=
  Memory.writeNat (Memory.writeNat (Memory.writeNat (Memory.writeNat (Memory.writeNat (Memory.writeNat [(3, 0x0F)] 0x100000 8
    0x101001) 0x101000 8 0x102001) 0x102000 8 0x103001) 0x103000 8 0x104001) 0x104000 8 (0x8002 + p + 3 * 2 ^ 52)) 0x8088 8 (2 ^ 36)
abbrev wSmall (p : Nat) : State :=
  { wWait (.page 0x40) with mem := smallTable p, regs := { Regs.reset with ptroot := 0x100000, migfbase := 0x80 } }
abbrev fault0 : PageFault := { va := 0, bits := 15, posted := false }
abbrev wFault : State :=
  { wSmall 0 with
    slots := [(0, { strand [] with wait := some (.page 0x40), ctx := { (strand []).ctx with parked := true } })], faults := [fault0] }
abbrev mig1 : Mig := { va := 0, stack := 1, die := 0, asked := true, either := false }
abbrev wMig (l : List Mig) : State := { wSmall 1 with migs := l }

theorem witness_PageEventsTakeEffect_service :
    fault0 ∈ wFault.faults ∧ fault0.posted = false ∧ (∀ g ∈ wFault.faults, g.va = fault0.va → g = fault0) ∧
    wFault.entryOf fault0.va = some (0x104000, 0x8002 + 3 * 2 ^ 52, 15) ∧ (0x8002 + 3 * 2 ^ 52) % 2 = 0 ∧
    wFault.flaws = [] ∧ wFault.NoneStored ∧
    (wFault.slotAt 0 0).wait = some (.page 0x40) ∧ (wFault.slotAt 0 0).ctx.parked = true ∧ fault0.covers 0x40 = true :=
  ⟨by decide +kernel, by decide +kernel, by decide +kernel, by decide +kernel, by decide +kernel, by decide +kernel,
   fun e h => by rw [List.mem_singleton.mp h]; rfl, by decide +kernel, by decide +kernel, by decide +kernel⟩

theorem witness_PageEventsTakeEffect_move :
    (wMig [mig1]).migs = mig1 :: [] ∧ mig1.die = 0 ∧ mig1 ∉ ([] : List Mig) ∧ (wMig [mig1]).switching = none ∧ (wMig []).canMove 0 1 = some 0x8000 ∧
    ((wMig []).takeFrame 1).map (·.1) = some (2 ^ 36) ∧ (wMig []).canMove 0 0 = none := by decide +kernel

/-- A page of die 0 that die 1 has filled from most. -/
abbrev wHot (soft : Bool) : State :=
  { wSmall 1 with
    dies := [(0, { DieSt.reset with hot := [{ frame := 1, counts := #v[1, 4, 0, 0, 0, 0, 0, 0], va := some 0x40 }] })]
    regs := { (wSmall 1).regs with migctl := 0x00040801, dmode := if soft then 0x10 else 0 } }

theorem witness_PageEventsTakeEffect_epoch :
    (wHot false).regs.dmode.toNat.testBit 4 = false ∧ (wHot true).regs.dmode.toNat.testBit 4 = true ∧
    (nx (.migrationEpoch 0) (wHot false)).migs = [{ va := 0x40, stack := 2, die := 0, asked := false, either := true }] := by decide +kernel
/-- A device busy with an invalidation; with a record of a strand's trap open; with a page that can move. -/
abbrev wTc : State := { wA with regs := { Regs.reset with tcinvBusy := true } }
abbrev rec7 : MeqRec := { kind := 7, cluster := 0, seq := 5, arg0 := 7, arg1 := 0, arg2 := 0, ref := 0 }
abbrev wOpen : State :=
  { wA with
    slots := [(15, { strand [] with wait := some .verdict, ctx := { (strand []).ctx with parked := true } })], meqOpen := [rec7] }

theorem witness_WindowWritesTakeEffect :
    wA.Quiet ∧ 4095 < 4096 ∧ wA.regs.tcinvBusy = false ∧ wA.regs.migBusy = false ∧ wA.canMove 0 1 = none ∧ (63 < 64 ∧ 1 < 2) ∧
    (∀ r ∈ wA.meqOpen, r.seq ≠ 0) ∧
    (bitsOf (0x100000888 : Word).toNat 7 4 = 8 ∧ bitsOf (0x100000888 : Word).toNat 15 12 ≤ 8 ∧ (0x100000888 : Word).toNat.testBit 32 = true) ∧
    bitsOf (8 : Word).toNat 3 0 ≤ 8 :=
  ⟨⟨rfl, rfl, rfl, rfl, rfl, rfl⟩, by decide +kernel, by decide +kernel, by decide +kernel, by decide +kernel, by decide +kernel,
   fun r h => (by cases h), by decide +kernel, by decide +kernel⟩

theorem witness_WindowWritesTakeEffect_busy :
    wTc.Quiet ∧ wTc.regs.tcinvBusy = true :=
  ⟨⟨rfl, rfl, rfl, rfl, rfl, rfl⟩, by decide +kernel⟩

theorem witness_WindowWritesTakeEffect_move :
    (wMig []).Quiet ∧ (wMig []).regs.migBusy = false ∧
    (wMig []).canMove (bitsOf (4 : Word).toNat 63 15 * 2 ^ 15) (bitsOf (4 : Word).toNat 5 2) = some 0x8000 :=
  ⟨⟨rfl, rfl, rfl, rfl, rfl, rfl⟩, by decide +kernel, by decide +kernel⟩

theorem witness_WindowWritesTakeEffect_answer :
    wOpen.Quiet ∧ wOpen.meqOpen = [rec7] ∧ rec7.kind = 7 ∧ rec7.seq = (0x100000005 : Word).toNat % 2 ^ 32 ∧
    bitsOf (0x100000005 : Word).toNat 35 32 = 1 ∧ (wOpen.slotAt 0 15).ctx.parked = true ∧
    (wOpen.slotAt 0 15).wait = some .verdict ∧ rec7.arg0 = wordN (wOpen.slotAt 0 15).ctx.strandId.toNat :=
  ⟨⟨rfl, rfl, rfl, rfl, rfl, rfl⟩, by decide +kernel, by decide +kernel, by decide +kernel, by decide +kernel, by decide +kernel,
   by decide +kernel, by decide +kernel⟩

/-- Queue 63 with one packet, at 0 of the page, made of these numbers of its first bytes. -/
abbrev wLq (n : Nat) : State :=
  { State.reset with
    dies := [(0, { DieSt.reset with tc := [page1] })], mem := Memory.writeNat [(3, 0x0F)] 0x8000 64 n
    regs := { Regs.reset with lqctl := [(63, 8)], lqwidx := [(63, 1)], lqbase := [(63, 6)] } }
theorem pkt_ok {b : List Byte} {q r n : Nat} {p : Pkt}
    (h : (match pktOf b q r n with | .ok x => decide (x = p) | .error _ => false) = true) : pktOf b q r n = .ok p := by
  revert h; cases pktOf b q r n <;> simp
theorem head_of {q : Nat} {s : State} {p : Pkt} (sa : Nat) (h : q < 64) (a : s.lqPick (q / 32) = some q)
    (b : 6 ≤ (s.regs.lqbase.get 0 q).toNat % 32 ∧ (s.regs.lqbase.get 0 q).toNat % 32 ≤ 16)
    (c : (s.parserSpot (s.lqDom q) 1 (s.pktVa q) (peerLoads 64 (s.pktVa q))).1 = .here sa)
    (d : pktOf ((s.parserSpot (s.lqDom q) 1 (s.pktVa q) (peerLoads 64 (s.pktVa q))).2.parserRead (.here sa) (s.pktVa q) 64).1 q
      (s.lqPrio q) s.launchSeq = .ok p) :
    Head q s p ((s.parserSpot (s.lqDom q) 1 (s.pktVa q) (peerLoads 64 (s.pktVa q))).2.parserRead (.here sa) (s.pktVa q) 64).2 :=
  ⟨h, a, b.1, b.2, sa, _, _, Prod.ext c rfl, rfl, d⟩
abbrev launchPkt : Nat := 1 + 0x80 * 2 ^ 64
abbrev fencePkt : Nat := 2 + 16 + (2 ^ 12) * 2 ^ 32
abbrev modePkt : Nat := 5 + 0x3F * 2 ^ 32 + 1 * 2 ^ 40

theorem witness_PacketsTakeEffect_launch :
    (∃ u, Head 63 (wLq launchPkt) (.launch (pktLaunch launchPkt 63 0 0)) u) :=
  ⟨_, head_of 0x8000 (by decide) (by decide +kernel) (by decide +kernel) (by decide +kernel) (pkt_ok (by decide +kernel))⟩

theorem witness_PacketsTakeEffect_fence :
    (∃ u, Head 63 (wLq fencePkt) (.fence [(0, 1, 0)]) u) :=
  ⟨_, head_of 0x8000 (by decide) (by decide +kernel) (by decide +kernel) (by decide +kernel) (pkt_ok (by decide +kernel))⟩

theorem witness_PacketsTakeEffect_mode :
    (∃ u, Head 63 (wLq modePkt) (.mode 0x3F 1) u) :=
  ⟨_, head_of 0x8000 (by decide) (by decide +kernel) (by decide +kernel) (by decide +kernel) (pkt_ok (by decide +kernel))⟩

/-- Packets of queue 63 in progress; counter 0 stands at 0 of the page. -/
abbrev pk (n d : Nat) : Packet := { queue := 63, bytes := leBytes 64 n, done := d, launch := none, stopped := false, page := none }
abbrev wPk (n d : Nat) : State := { wLq 0 with packets := [pk n d] }
abbrev fenceOk : Nat := 2 + 16
abbrev signalPkt : Nat := 3 + 16 + 32 + 0xFFFF * 2 ^ 16 + 9 * 2 ^ 64
abbrev copyPkt : Nat := 4 + 16 + 32 + 0x10 * 2 ^ 64 + 0x20 * 2 ^ 128 + 8 * 2 ^ 192

theorem witness_PacketsTakeEffect_recheck :
    (wPk fenceOk 0).pktIn 63 = some (pk fenceOk 0) ∧ pktOf (pk fenceOk 0).bytes 63 0 0 = .ok (.fence [(0, 0, 0)]) ∧
    ((wPk fenceOk 0).fencePass ((wPk fenceOk 0).lqDom 63) [(0, 0, 0)]).1 = true :=
  ⟨by decide +kernel, pkt_ok (by decide +kernel), by decide +kernel⟩

theorem witness_PacketsTakeEffect_signal :
    (wPk signalPkt 0).pktIn 63 = some (pk signalPkt 0) ∧
    pktOf (pk signalPkt 0).bytes 63 0 0 = .ok (.signal true true 0xFFFF 0 9) ∧
    ((wPk signalPkt 0).counterAtomic ((wPk signalPkt 0).lqDom 63) 0 true 9).1 = true :=
  ⟨by decide +kernel, pkt_ok (by decide +kernel), by decide +kernel⟩

abbrev copyDev : Nat := 4 + 0x10 * 2 ^ 64 + 0x20 * 2 ^ 128 + 8 * 2 ^ 192
abbrev wCp : State := (wPk copyDev 7).copySpot false ((wPk copyDev 7).lqDom 63) 1 0x17 (peerLoads 1 0x17) |>.2
abbrev wCp1 : State := (wCp.parserRead (.here 0x8017) 0x17 1).2

theorem witness_PacketsTakeEffect_copy :
    (wPk copyPkt 7).pktIn 63 = some (pk copyPkt 7) ∧ pktOf (pk copyPkt 7).bytes 63 0 0 = .ok (.copy true true 0x10 0x20 8) ∧
    (pk copyPkt 7).queue = 63 ∧ (pk copyPkt 7).page = none ∧
    min (min (8 - 7) (min (128 - 0x17 % 128) (128 - 0x27 % 128))) (if 0x27 = 0x17 then 128 else (0x27 + 2 ^ 64 - 0x17) % 2 ^ 64) = 1 ∧
    ((wPk copyPkt 7).lqArb = false ∧ (wPk copyPkt 7).lqDue = []) ∧ (wPk copyPkt 7).flaws = [] :=
  ⟨by decide +kernel, pkt_ok (by decide +kernel), by decide +kernel, by decide +kernel, by decide +kernel, by decide +kernel,
   by decide +kernel⟩

theorem witness_PacketsTakeEffect_copyDevice :
    (wPk copyDev 7).pktIn 63 = some (pk copyDev 7) ∧ pktOf (pk copyDev 7).bytes 63 0 0 = .ok (.copy false false 0x10 0x20 8) ∧
    ((wPk copyDev 7).copySpot false ((wPk copyDev 7).lqDom 63) 1 0x17 (peerLoads 1 0x17)).1 = .here 0x8017 ∧
    (wCp1.copySpot false ((wPk copyDev 7).lqDom 63) 2 0x27 [(0x27, .store (wCp.parserRead (.here 0x8017) 0x17 1).1)]).1 = .here 0x8027 ∧
    ((wPk copyDev 7).lqArb = false ∧ (wPk copyDev 7).lqDue = []) :=
  ⟨by decide +kernel, pkt_ok (by decide +kernel), by decide +kernel, by decide +kernel, by decide +kernel⟩

/-- A launch of two blocks, none dealt; and one whose blocks are all complete. -/
abbrev wDeal : State := { State.reset with launches := [{ launch1 with count := 2, dealt := 0, bsz := 3 }] }
abbrev wDone : State := { State.reset with launches := [{ launch1 with complete := 1 }] }

theorem witness_PacketsTakeEffect_deal :
    (wDeal.launches = [] ++ { launch1 with count := 2, dealt := 0, bsz := 3 } :: [] ∧ 0 < 2) ∧ (∀ j, j < 64 → wDeal.nextOn j = none) ∧
    wDeal.dealCluster { launch1 with count := 2, dealt := 0, bsz := 3 } = some 0 ∧ wDeal.groupOn 0 8 = some 0 ∧
    (∀ i j, i < 8 → j < 16 → (wDeal.slotAt (0 + i) j).occ = .empty) ∧ (∀ i, i < 8 → (wDeal.coreAt (0 + i)).deque = []) ∧ wDone.launches = [{ launch1 with complete := 1 }] ∧
    (wDone.cmds = [] ∧ wDone.late = []) :=
  ⟨by decide +kernel, by decide +kernel, by decide +kernel, by decide +kernel, fun i j _ _ => rfl, fun i _ => rfl, by decide +kernel,
   by decide +kernel⟩

/-- Die 0's cores are withheld, and the launch may run nowhere else. -/
abbrev dealH : Launch := { launch1 with count := 2, dealt := 0, bsz := 3, dies := 1 }
abbrev wHeld : State :=
  { State.reset with
    launches := [dealH], clusters := (List.range 8).map fun k => (k, { ClusterSt.reset with held := 0xFF }) }

theorem witness_PacketsTakeEffect_waits :
    wHeld.dealCluster dealH = none ∧ dealH.permits 0 = true ∧ (wHeld.waitingOn 0).length < 4 ∧ (∀ j, j < 64 → wHeld.nextOn j = none) ∧
    (∀ j, j < 64 → j ≠ 0 → dealH.permits j = true → (wHeld.waitingOn 0).length < (wHeld.waitingOn j).length ∨
      ((wHeld.waitingOn 0).length = (wHeld.waitingOn j).length ∧ 0 < j)) := by decide +kernel

/-- A block of one core that runs, one that waits on cluster 0, and dens: free frames are at 0 of a 128 MiB page. -/
abbrev den1 : Den := { kind := .slice, pages := false, frames := [1], base := 0, cores := [], orphs := [], fromCluster := 0 }
abbrev blockW (d : Option Den) : Block := { block1 with index := 1, place := .waiting 0 d }
abbrev wSw (b : List Block) (u : ClusterSt) : State :=
  { wA with
    slots := [], blocks := b, clusters := [(0, u)], mem := bigTable, regs := { Regs.reset with ptroot := 0x100000, dennum := 2 } }
abbrev ran : Block := { block1 with run := 0xFFFFFFFF }
abbrev sliced : ClusterSt := { ClusterSt.reset with slice := 0xFFFFFFFE, cost := 0xFFFFFFFE }
abbrev wSlice : State := wSw [ran, blockW none] sliced
/-- One parked strand, where the threshold is one. -/
abbrev wIdle : State :=
  { wSw [block1] { ClusterSt.reset with kpark := 1 } with
    slots := [(0, { strand [] with ctx := { (strand []).ctx with parked := true }, wait := some (.page 0) })] }
abbrev wOut : State := wSw [{ block1 with swapping := some .slice }] ClusterSt.reset
abbrev wBack : State := { wSw [blockW (some den1)] ClusterSt.reset with cores := [] }

theorem witness_BlockEventsTakeEffect_slice :
    wSlice.blocks = ran :: [blockW none] ∧ (ran.base? = some 0 ∧ clusterOf 0 = 0 ∧ ran.swapping = none) ∧
    wSlice.framesFor ran = true ∧ (wSlice.clusterAt 0).slice ≠ 0 ∧ wSlice.queueOf 0 ≠ [] ∧
    (wSlice.clusterAt 0).cost.toNat ≤ (wSlice.clusterAt 0).slice.toNat ∧ (wSlice.clusterAt 0).slice.toNat < ran.run := by decide +kernel

theorem witness_BlockEventsTakeEffect_threshold :
    wIdle.blocks = block1 :: [] ∧ wIdle.framesFor block1 = true ∧ wIdle.swapAsked block1 = false ∧ wIdle.crosses block1 = true ∧ block1.short = false ∧
    wIdle.regs.dmode.toNat.testBit 1 = false := by decide +kernel

theorem witness_BlockEventsTakeEffect_out :
    wOut.block? 1 0 = some { block1 with swapping := some .slice } ∧ (wOut.slots = [] ∧ wOut.shipped = [] ∧ wOut.cmds = []) ∧
    1 ≤ wOut.freeFrames.length ∧
    (match (wOut.freeFrames.take 1).mapM (fun i => wOut.framePages (wOut.denBase + denFrame * i) 10) with | .ok _ => true | .error _ => false) = true := by decide +kernel

theorem witness_BlockEventsTakeEffect_back :
    wBack.block? 1 1 = some (blockW (some den1)) ∧ wBack.launch? 1 = some launch1 ∧
    (blockW (some den1)).place = .waiting 0 (some den1) ∧ wBack.nextOn 0 = some (blockW (some den1), 0) ∧
    wBack.groupClear 0 launch1.cores = true ∧ wBack.denFits den1 0 = true ∧
    (match den1.frames.mapM (fun i => wBack.framePages (den1.base + denFrame * i) 10) with | .ok _ => true | .error _ => false) = true := by decide +kernel

/-- Cluster 63's control core, told to start at 8, or at its HALT; an attestation under way. -/
abbrev wGo (u : ClusterSt) : State :=
  { State.reset with mem := Memory.writeNat [] (0xFF00000010000000 + 0x10000 * 63 + 0xBFF8) 8 8, clusters := [(63, u)] }
abbrev wAtt : State := { wA with regs := { Regs.reset with attctl := 1 } }
theorem spot_here {s : State} {n va sa : Nat} (h : (s.parserSpot 0 n va []).1 = .here sa) (u : State) : s.parserSpot 0 n va [] ≠ (.absent, u) :=
  fun e => by rw [e] at h; cases h

theorem witness_OutsideEventsTakeEffect_control :
    63 < 64 ∧ (wGo ClusterSt.reset).flaws = [] ∧ ((wGo ClusterSt.reset).clusterAt 63).ccRun = none ∧
    (wGo ClusterSt.reset).mem.readNat (0xFF00000010000000 + 0x10000 * 63 + 0xBFF8) 8 ≠ 0 ∧
    ((wGo { ClusterSt.reset with ccHalting := true, ccRun := some 8 }).clusterAt 63).ccHalting = true ∧
    ((wGo { ClusterSt.reset with ccHalting := true, ccRun := some 8 }).clusterAt 63).ccStopped = false ∧
    ((wGo { ClusterSt.reset with ccHalting := true, ccRun := some 8 }).clusterAt 63).ccRun = some ((wGo ClusterSt.reset).mem.readNat (0xFF00000010000000 + 0x10000 * 63 + 0xBFF8) 8) := by decide +kernel

theorem witness_OutsideEventsTakeEffect_host :
    wA.hostHeld = [] ∧ (0xFFFFF8 % 8 = 0 ∧ 0xFFFFF8 < 0x1000000) ∧ (leBytes 8 5).length = 8 := by decide +kernel

theorem witness_OutsideEventsTakeEffect_attestation :
    bitsOf wAtt.regs.attctl.toNat 63 8 * 2 ^ 8 = 0 ∧ wAtt.regs.attctl.toNat.testBit 0 = true ∧
    wAtt.flaws = [] ∧ (∀ u, wAtt.parserSpot 0 2 0 [] ≠ (.absent, u)) ∧ (∀ u, wAtt.parserSpot 0 2 ((0 + 0x58F) % 2 ^ 64) [] ≠ (.absent, u)) :=
  ⟨by decide +kernel, by decide +kernel, by decide +kernel, spot_here (sa := 0x8000) (by decide +kernel),
   spot_here (sa := 0x858F) (by decide +kernel)⟩

theorem witness_OutsideEventsTakeEffect_power :
    ({ wA with regs := { Regs.reset with pwrCap := 100, pwrK := 12 } } : State).regs.pwrCap ≠ 0 ∧
    (100 < 101 ∧ 100 * 94 < 95 * 100 ∧ ¬ 100 * 95 < 95 * 100) := by decide +kernel

/-- A flaw at the last sector of main memory, an entry of the last stack's table, a failing link 17. -/
abbrev flaw1 : Flaw := { unit := 2 ^ 40 - 128, kind := .corrected, store := 0, core := 0 }
abbrev entry1 : CorrEntry := { frame := 2 ^ 25 - 1, count := 3, va := none, due := true, soft := false, posted := false }
abbrev wErr : State := { wA with flaws := [flaw1] }
abbrev wLink (n f : Nat) : State := { State.reset with links := [(17, { up := true, replays := n, failed := f })] }

theorem witness_PeerAndErrorEventsTakeEffect_peer :
    wA.peerHeld = [] ∧ PeerOp.fput 9 ≠ .load 0 ∧ (wA.links.get LinkSt.reset (0 / 4096)).flows = true ∧
    ((wLink 16 0).peerHeld = [] ∧ ((wLink 16 0).links.get LinkSt.reset (17 * 4096 / 4096)).flows = false) ∧
    (({ wA with peerHeld := [] } : State).servePeer 0 0x40 (.fput 9)).1 = some (.value 0) ∧
    (({ wA with peerHeld := [], dies := [] } : State).servePeer 0 0x40 (.fput 9)).1 = none ∧
    2 ^ 56 ≤ (0x100000000000000 : Word).toNat := by decide +kernel

theorem witness_PeerAndErrorEventsTakeEffect_ship :
    wA.shipped = [] ∧ wA.linkStalled 5 = false ∧ wStall.linkStalled 5 = true ∧ (0xFFFFFFFFFFFFFF : Word).toNat < 2 ^ 56 ∧
    (wA.coreAt (wA.homeOf 0xFFFFFFFFFFFFFF)).arrivals.length < 16 ∧ wA.manualCore (wA.homeOf 0xFFFFFFFFFFFFFF) = false := by decide +kernel

theorem witness_PeerAndErrorEventsTakeEffect_link :
    (17 < 18 ∧ 3 < 4 ∧ 4 ≤ 7 ∧ 7 < 8) ∧ ((wLink 16 0).links.get LinkSt.reset 17).up = true ∧
    ((wLink 15 0).links.get LinkSt.reset 17).replays < 16 ∧
    16 ≤ ((wLink 16 0).links.get LinkSt.reset 17).replays ∧ ((wLink 16 1).links.get LinkSt.reset 17).failed < 2 ∧
    2 ≤ ((wLink 16 2).links.get LinkSt.reset 17).failed ∧
    ((wLink 16 2).slots = [] ∧ (wLink 16 2).shipped = []) := by decide +kernel

theorem witness_PeerAndErrorEventsTakeEffect_scrub :
    wErr.flaws = [flaw1] ∧ (flaw1.kind = .corrected ∧ flaw1.store = 0) ∧ flaw1.unit = (2 ^ 40 - 1) / 128 * 128 ∧
    wErr.corrected = [] ∧ entry1 ∈ ({ wA with corrected := [entry1] } : State).corrected := by decide +kernel

theorem witness_ResetEventsTakeEffect :
    wA.upds = [] ∧ wA.flaws = [] ∧ (∀ e ∈ wA.keptSlots, ∀ n : Fin 4, (e.2.2.streams[n]).isNone = true) ∧
    (wA.keptSlots.foldl (fun (v : State) e => v.landStreams e.1 e.2.1 e.2.2) { wA with cmds := [], late := [], switching := none }).upds = [] ∧
    (wA.keptSlots.foldl (fun (v : State) e => v.landStreams e.1 e.2.1 e.2.2) { wA with cmds := [], late := [], switching := none }).flaws = [] := by decide +kernel

/-- A machine whose next move is core 0's cycle, or control core 0's, or an event; units of both lengths at 0x80. -/
abbrev wRun (n : Nat) : State := { wA with mem := Memory.writeNat [(3, 0x0F)] 0x8080 4 n, agenda := [.tick 0] }
abbrev wRun0 (n : Nat) : State := { wRun n with agenda := [] }
abbrev wRun1 (n : Nat) : State := ((wRun0 n).coreCycle 0).2
abbrev wCtl : State :=
  { wC with
    agenda := [.ctrl 0], clusters := [(0, { ClusterSt.reset with ccRun := some 1 })]
    mem := Memory.writeNat [] (0xFF00000010000000 + 0x80) 4 0x018C6000 }
theorem parcel_ok {s : State} {pc : Word} {va : Nat} {p : List Byte} (h : (s.parcel pc va).1.getRight? = some p) :
    s.parcel pc va = (.inr p, (s.parcel pc va).2) :=
  Prod.ext (Sum.getRight?_eq_some_iff.mp h) rfl
abbrev nop : Instr := .add p0 false .z .z .z

theorem witness_StepRunsTheDecodedInstruction_turn :
    (wRun0 0x018C6000).regs.pwrK ≤ ((wRun0 0x018C6000).coreAt 0).cycle % 16 ∧
    ((wRun0 0x018C6000).coreAt 0).rot = [] ++ 0 :: (List.range 15).map (· + 1) ∧ (wRun0 0x018C6000).eligible 0 0 = true := by decide +kernel

theorem witness_StepRunsTheDecodedInstruction_parcel :
    ((wRun0 0).tcFind (dieOf 0) 0x80).map (·.1) = some page1 ∧ page1.peer = none ∧
    ((wRun0 0).checked 0 0 4 3 0x8080).1 = .ok 0x8080 := by decide +kernel

theorem witness_StepRunsTheDecodedInstruction_word :
    (wRun 0x018C6000).agenda = .tick 0 :: [] ∧ ((wRun0 0x018C6000).coreCycle 0).1 = some 0 ∧
    (wRun1 0x018C6000).cur.isFollower = false ∧ (wRun1 0x018C6000).cur.dictWord = none ∧
    (wRun1 0x018C6000).cur.ctx.pc.toNat % 2 = 0 ∧
    (wRun1 0x018C6000).parcel 0x80 0x80 = (.inr [0x00, 0x60], ((wRun1 0x018C6000).parcel 0x80 0x80).2) ∧
    ((wRun1 0x018C6000).parcel 0x80 0x80).2.parcel 0x80 0x82 = (.inr [0x8C, 0x01], (((wRun1 0x018C6000).parcel 0x80 0x80).2.parcel 0x80 0x82).2) ∧
    decodeBytes ([0x00, 0x60] ++ [0x8C, 0x01]) = some (.instr nop, 4) ∧
    goes nop ((((wRun1 0x018C6000).parcel 0x80 0x80).2.parcel 0x80 0x82).2.withUnit (.instr nop)) = true ∧
    ((nx nop ((((wRun1 0x018C6000).parcel 0x80 0x80).2.parcel 0x80 0x82).2.withUnit (.instr nop))).cur.dictWord = none ∧
      (nx nop ((((wRun1 0x018C6000).parcel 0x80 0x80).2.parcel 0x80 0x82).2.withUnit (.instr nop))).passes 0 0 = false) :=
  ⟨by decide +kernel, by decide +kernel, by decide +kernel, by decide +kernel, by decide +kernel,
   parcel_ok (by decide +kernel), parcel_ok (by decide +kernel), by decide +kernel, by decide +kernel, by decide +kernel⟩

/-- A dictionary code 5, whose word is `nop`'s. -/
abbrev wCode : State :=
  { wRun1 0x017E with
    launches := [{ launch1 with dcnt := 6 }]
    cores := [(0, { CoreSt.reset with owner := some (1, 0, 0), dicts := [(1, [0, 0, 0, 0, 0, 0x018C6000])] })] }
abbrev wCode1 (i : Instr) : State := nx i ((wCode.parcel 0x80 0x80).2.withUnit (.instr i))

theorem witness_StepRunsTheDecodedInstruction_code :
    wCode.parcel 0x80 0x80 = (.inr [0x7E, 0x01], (wCode.parcel 0x80 0x80).2) ∧
    decodeBytes [0x7E, 0x01] = some (.instr (.dictionaryCode 5), 2) ∧
    goes (.dictionaryCode 5) ((wCode.parcel 0x80 0x80).2.withUnit (.instr (.dictionaryCode 5))) = true ∧
    (wCode1 (.dictionaryCode 5)).cur.dictWord = some 0x018C6000 ∧ decodeWord 0x018C6000 = .instr nop ∧ goes nop ((wCode1 (.dictionaryCode 5)).withUnit (.instr nop)) = true ∧
    (nx nop ((wCode1 (.dictionaryCode 5)).withUnit (.instr nop))).passes 0 0 = false :=
  ⟨parcel_ok (by decide +kernel), by decide +kernel, by decide +kernel, by decide +kernel, by decide +kernel, by decide +kernel,
   by decide +kernel⟩

theorem witness_StepRunsTheDecodedInstruction_cached :
    ((wRun0 0x018C6000).icFind 0 0x80).isNone = true ∧ ((wRun1 0x018C6000).resolveFetch 0 0 0x80).1 = .ok 0x8080 ∧
    ((((wRun1 0x018C6000).resolveFetch 0 0 0x80).2.icFind 0 0x80).bind fun l => l.sector 0x80).map (fun b => (b.drop (0x80 % 128)).take 2) =
      some [0x00, 0x60] := by decide +kernel

/-- A strand whose STAY waited for nothing more. -/
abbrev wFin : State := { withSlot { strand [] with begun := true, unit := .instr (.stay p0) } with agenda := [.finish 0 0] }

theorem witness_StepRunsTheDecodedInstruction_finish :
    wFin.agenda = .finish 0 0 :: [] ∧ ({ wFin with agenda := [] } : State).finishes 0 0 = true ∧
    ({ wFin with agenda := [] } : State).cur.unit = .instr (.stay p0) ∧
    goes (.stay p0) (({ wFin with agenda := [] } : State).withUnit (.instr (.stay p0))) = true := by decide +kernel

theorem witness_StepRunsTheDecodedInstruction_control :
    wCtl.agenda = .ctrl 0 :: [] ∧ ({ wCtl with agenda := [], core := 512, slot := 0 } : State).ctrlRuns 0 = true ∧
    ({ wCtl with agenda := [], core := 512, slot := 0 } : State).cur.ctx.pc = 0x80 ∧ 0x80 + 4 ≤ 0xC000 ∧ wCtl.flaws = [] ∧
    decodeBytes (wCtl.mem.readN (0xFF00000010000000 + 0x10000 * 0 + 0x80) 4) = some (.instr nop, 4) := by decide +kernel

theorem witness_StepRunsTheDecodedInstruction_event :
    ({ wA with agenda := [.event .powerOn] } : State).agenda = .event .powerOn :: [] ∧ Instr.powerOn.isEvent = true := by decide +kernel

theorem witness_StepRunsTheDecodedInstruction_follower :
    wFollower.cur.isFollower = true ∧ wFollower.cur.gbuf.map (·.unit) = [.instr (.cend p0)] ∧
    goes (.cend p0) (wFollower.withUnit (.instr (.cend p0))) = true := by decide +kernel

theorem witness_ResetState :
    (1023 < 1024 ∧ 63 < 64) ∧ (0xFFFFF8 % 8 = 0 ∧ 0x3000 ≤ 0xFFFFF8) := by decide +kernel

theorem witness_DecodeEncodeAgree :
    (Instr.dictionaryCode 0x3FF).wf = true ∧ encode (.dictionaryCode 0x3FF) = some [0xFE, 0xFF] ∧
    (Instr.vimaxs ⟨true, 7⟩ .n32 .nq 6).wf = true ∧ (encode (.vimaxs ⟨true, 7⟩ .n32 .nq 6)).isSome = true ∧
    decodeBytes [0xFE, 0xFF] = some (.instr (.dictionaryCode 0x3FF), 2) := by decide +kernel

theorem witness_TheMachineNeverStops :
    (Instr.vimaxs ⟨true, 7⟩ .n32 .nq 6).wf = true ∧
    (∀ e ∈ wFollower.slots, ∀ i, (e.2.unit = .instr i ∨ ∃ g ∈ e.2.gbuf, g.unit = .instr i) → i.wf = true) :=
  ⟨by decide +kernel, by
    intro e h i u
    rw [List.mem_singleton.mp h] at u
    obtain u | ⟨g, m, u⟩ := u
    · cases u
    · rw [List.mem_singleton.mp m] at u; cases u; rfl⟩

theorem witness_EveryStepKeepsTheInvariant :
    State.reset.Inv ∧ (match step State.reset with | .next _ => true | _ => false) = true :=
  ⟨rfl, by decide +kernel⟩
/-! ### One step: results by hand from the rules -/

/-- Register `n` after an instruction. -/
def after (i : Instr) (s : State) (n : Fin 24) : Word := (nx i s).cur.ctx.gpr[n]

/-- R118: a 32-bit result is sign-extended; the operands of the other half are not seen. -/
theorem test_add_w : after (.add p0 true (.m 2) (.m 0) (.m 1)) (machine [0x17FFFFFFF, 1]) 2 = 0xFFFFFFFF80000000 := by decide +kernel
theorem test_sra : after (.sra p0 true (.m 0) (.m 0) (.m 1)) (machine [0x80000000, 33]) 0 = 0xFFFFFFFFC0000000 := by decide +kernel
theorem test_rol : after (.rol p0 false (.m 1) (.m 0) (.m 1)) (machine [0x8000000000000001, 1]) 1 = 3 := by decide +kernel
theorem test_mulh : after (.mulh p0 false (.m 2) (.m 0) (.m 1)) (machine [allOnes, allOnes]) 2 = 0 := by decide +kernel
theorem test_mulhn : after (.mulhn p0 false (.m 2) (.m 0) (.m 1)) (machine [allOnes, allOnes]) 2 = 0xFFFFFFFFFFFFFFFE := by
  decide +kernel
theorem test_ctz_zero : after (.ctz p0 true (.m 2) (.m 1)) (machine [0, 0x100000000]) 2 = 32 := by decide +kernel
/-- R120, R121: LI sign-extends 17 bits, and LIS shifts 17 more in. -/
theorem test_lis : after (.lis p0 (.m 0) 0x1FFFF) (machine [1]) 0 = 0x3FFFF := by decide +kernel
/-- R127: a field from bit 60 that would run past bit 63 ends there. -/
theorem test_bfi : after (.bfi p0 (.m 2) (.m 0) (.m 1)) (machine [0xFF, 0x073C, 1]) 2 = 0xF000000000000001 := by decide +kernel
/-- R122: `.and` keeps a predicate that is 0, and p0 discards. -/
theorem test_cmp_and : (nx (.cmp p0 .and .eq false 3 (.m 0) (.m 0)) (machine [5])).cur.ctx.pred = 1 := by decide +kernel
theorem test_cmp_set : (nx (.cmpi p0 .set .lt true 3 (.m 0) 0) (machine [0x80000000])).cur.ctx.pred = 9 := by decide +kernel
/-- R129: a branch is relative to its own address, in halfwords; BL leaves the next unit's address in m15. -/
theorem test_bl : (nx (.bl p0 8) (machine [])).cur.ctx.pc = 0x90 ∧ after (.bl p0 8) (machine []) 15 = 0x84 := by decide +kernel
/-- R130, R83: 1 + 2^−24 is halfway between two floats and goes to the even one, inexactly; upward it does not. -/
theorem test_fadd_ties : after (.fadd p0 .rne .f32 (.m 2) (.m 0) (.m 1)) (machine [0x3F800000, 0x33800000]) 2 = 0x3F800000 := by
  decide +kernel
theorem test_fadd_up : after (.fadd p0 .rup .f32 (.m 2) (.m 0) (.m 1)) (machine [0x3F800000, 0x33800000]) 2 = 0x3F800001 := by
  decide +kernel
/-- R131: FMA rounds once: (1 + 2^−12)² − (1 + 2^−11) is 2^−24 exactly. -/
theorem test_fma_exact :
    after (.fma p0 .rne .f32 (.m 2) (.m 0) (.m 0)) (machine [0x3F800800, 0, 0xBF801000]) 2 = 0x33800000 := by decide +kernel
/-- R134: a float beyond the integers saturates. -/
theorem test_cvt_saturates : after (.cvt p0 .rtz .i32 .f32 (.m 1) (.m 0)) (machine [0x4F000000]) 1 = 0x7FFFFFFF := by decide +kernel
/-- R138: a misaligned load traps with its size's logarithm, at the handler. -/
theorem test_misaligned : (nx (.ldn p0 2 0 (.m 1) (.m 0)) (machine [2])).cur.tcause = 0x20003 ∧
    (nx (.ldn p0 2 0 (.m 1) (.m 0)) (machine [2])).cur.ctx.pc = 0x40 := by decide +kernel
/-- R62: a load sees its own chunk's store; memory does not yet hold it (R37). -/
theorem test_store_forwarded :
    after (.ldn p0 0 0 (.m 2) (.m 0)) (nx (.st p0 3 0 (.m 1) (.m 0)) (machine [own0, 0x1FE])) 2 = 0xFE ∧
    (nx (.st p0 3 0 (.m 1) (.m 0)) (machine [own0, 0x1FE])).mem = (machine []).mem := by decide +kernel
/-- R144: the old value comes back, and the sum wraps. -/
theorem test_atom : after (.atomAdd p0 .dev false (.m 2) (.m 0) (.m 1)) { machine [own0, 1] with mem := Memory.writeNat [] pad0 4 0xFFFFFFFF } 2 =
    allOnes := by decide +kernel
/-- R104: nothing but PC moves where the guard does not hold. -/
theorem test_suppressed : after (.addi ⟨false, 1⟩ (.m 0) (.m 0) 1) (machine [5]) 0 = 5 := by decide +kernel
/-- R253: the bytes C3 A9 are U+00E9. -/
theorem test_udec : after (.udec p0 (.m 0) (.m 1)) (machine [after (.udec p0 (.m 0) (.m 1)) (machine [0, 0xC3]) 0, 0xA9]) 0 =
    wordN (0xE9 * 2 ^ 22 + 2 ^ 20) := by decide +kernel
/-- R293, R249: reset values in the register window. -/
theorem test_reset_window : State.reset.windowRead 0x1B8 = 0x04001000 ∧ State.reset.windowRead 0x8FC0 = 0x00020100 ∧
    State.reset.windowRead 0x9000 = 0 := by decide +kernel
/-- R118's examples: BREV of 1 and MUL of 0x80000000 and 2 at width 32. -/
theorem test_brev_w : after (.brev p0 true (.m 0) (.m 0)) (machine [1]) 0 = 0xFFFFFFFF80000000 := by decide +kernel
theorem test_mul_w : after (.mul p0 true (.m 2) (.m 0) (.m 1)) (machine [0x80000000, 2]) 2 = 0 := by decide +kernel
/-- R27: the next number is passed over where a live strand has it. -/
theorem test_new_id : ({ machine [] with strandSeq := 7 } : State).newId.1 = 8 := by decide +kernel

end Sys2Proof.Tests
end

/-! SUPPORT and O60. Every step keeps memory in its canonical form.

Ten functions of the model write memory, each through `Memory.write` or `Memory.writeN` or by dropping cells, which keep
`Memory.wf`. The rest of the development carries that through everything a step can run, with one lemma per function,
in the model's order:

* `f_mem` says that `f` leaves memory as it is;
* `f_memWf` says that `f` takes a state with canonical memory to one;
* `keeps_f` says the same of a meaning `f` in `M` or `E`: of the state it ends in and, where it stops, of what its stop
  still does.

A lemma's proof goes through the branches of its function and cites the lemmas of the functions it calls. -/

namespace Sys2Proof.Machine

/-! ### The invariant, and meanings that keep it -/

/-- The invariant of O60: memory stands in its one canonical form. -/
abbrev State.MemWf (s : State) : Prop := s.mem.wf = true

/-- What a stopped instruction still does to the machine keeps memory canonical. -/
def Stop.Safe : Stop → Prop
  | .after f => ∀ s : State, s.MemWf → (f s).MemWf
  | .wait .. | .ctrl _ | .illFormed => True

/-- A stopped engine command changes nothing by itself. -/
def EStop.Safe (_ : EStop) : Prop := True

/-- From canonical memory, a meaning ends with canonical memory, or stops with a stop of which `P` holds. -/
structure Keeps {ε α : Type} (P : ε → Prop) (m : StateT State (Except ε) α) : Prop where
  run : ∀ s : State, s.MemWf → match m.run s with
    | .ok r => r.2.MemWf
    | .error e => P e

abbrev KeepsM {α : Type} (m : M α) : Prop := Keeps Stop.Safe m
abbrev KeepsE {α : Type} (m : E α) : Prop := Keeps EStop.Safe m

section
variable {ε α β γ : Type} {P : ε → Prop} {m m' : StateT State (Except ε) α} {f : α → StateT State (Except ε) β}

theorem Keeps.ok {s : State} {r : α × State} (hm : Keeps P m) (h : s.MemWf) (e : m.run s = .ok r) : r.2.MemWf := by
  have hr := hm.run s h
  rwa [e] at hr

theorem Keeps.error {s : State} {x : ε} (hm : Keeps P m) (h : s.MemWf) (e : m.run s = .error x) : P x := by
  have hr := hm.run s h
  rwa [e] at hr

theorem keeps_pure (x : α) : Keeps P (pure x) := ⟨fun _ h => h⟩

theorem keeps_bind (hm : Keeps P m) (hf : ∀ x, Keeps P (f x)) : Keeps P (m >>= f) := by
  refine ⟨fun s h => ?_⟩
  have hs := hm.run s h
  rw [StateT.run_bind]
  cases hr : m.run s with
  | ok r => rw [hr] at hs; exact (hf r.1).run r.2 hs
  | error e => rw [hr] at hs; exact hs

theorem keeps_get_bind {f : State → StateT State (Except ε) β} (hf : ∀ s : State, s.MemWf → Keeps P (f s)) :
    Keeps P (get >>= f) :=
  ⟨fun s h => (hf s h).run s h⟩

theorem keeps_set {t : State} (h : t.MemWf) : Keeps P (set t) := ⟨fun _ _ => h⟩
theorem keeps_modify {f : State → State} (h : ∀ s : State, s.MemWf → (f s).MemWf) : Keeps P (modify f) := ⟨h⟩

theorem keeps_modify_mem {f : State → State} (h : ∀ s : State, (f s).mem = s.mem) :
    Keeps P (modify f : StateT State (Except ε) PUnit) :=
  keeps_modify fun s hs => by rwa [State.MemWf, h]

theorem keeps_throw {e : ε} (h : P e) : Keeps P (throw e : StateT State (Except ε) α) := ⟨fun _ _ => h⟩
theorem keeps_throw_bind {e : ε} (h : P e) : Keeps P (throw e >>= f) := ⟨fun _ _ => h⟩

theorem keeps_map {f : α → β} (hm : Keeps P m) : Keeps P (f <$> m) := by
  rw [map_eq_pure_bind]
  exact keeps_bind hm fun _ => keeps_pure _

/-! A branch of a do block that falls through to the actions `f` after it. -/

theorem keeps_ite {c : Prop} [Decidable c] (hm : Keeps P m) (hm' : Keeps P m') : Keeps P (if c then m else m') := by
  split
  · exact hm
  · exact hm'

theorem keeps_ite_bind {c : Prop} [Decidable c] (hm : Keeps P m) (hm' : Keeps P m') (hf : ∀ x, Keeps P (f x)) :
    Keeps P (if c then m >>= f else m' >>= f) :=
  keeps_ite (keeps_bind hm hf) (keeps_bind hm' hf)

theorem keeps_when_bind {c : Prop} [Decidable c] {m : StateT State (Except ε) PUnit}
    {f : PUnit → StateT State (Except ε) β}
    (hm : Keeps P m) (hf : ∀ x, Keeps P (f x)) : Keeps P (if c then m >>= f else f ⟨⟩) :=
  keeps_ite (keeps_bind hm hf) (hf _)

theorem keeps_when_bind_bind {c : Prop} [Decidable c] {m : StateT State (Except ε) γ}
    {m' : γ → StateT State (Except ε) PUnit}
    {f : PUnit → StateT State (Except ε) β} (hm : Keeps P m) (hm' : ∀ y, Keeps P (m' y)) (hf : ∀ x, Keeps P (f x)) :
    Keeps P (if c then m >>= fun y => m' y >>= f else f ⟨⟩) :=
  keeps_ite (keeps_bind hm fun y => keeps_bind (hm' y) hf) (hf _)

/-! Loops. -/

theorem keeps_mapM (hf : ∀ x, Keeps P (f x)) (l : List α) : Keeps P (l.mapM f) := by
  induction l with
  | nil => exact keeps_pure _
  | cons x l ih =>
    rw [List.mapM_cons]
    exact keeps_bind (hf x) fun _ => keeps_bind ih fun _ => keeps_pure _

theorem keeps_forM {f : α → StateT State (Except ε) PUnit} (hf : ∀ x, Keeps P (f x))
    (l : List α) : Keeps P (l.forM f) := by
  induction l with
  | nil => exact keeps_pure _
  | cons x l ih => exact keeps_bind (hf x) fun _ => ih

theorem keeps_foldlM {f : β → α → StateT State (Except ε) β} (hf : ∀ b x, Keeps P (f b x)) (l : List α) (b : β) :
    Keeps P (l.foldlM f b) := by
  induction l generalizing b with
  | nil => exact keeps_pure _
  | cons x l ih => exact keeps_bind (hf b x) fun _ => ih _

end

section
variable {α β : Type}

theorem keeps_stop {e : Stop} (h : e.Safe) : KeepsM (stop e : M α) := keeps_throw h
theorem keeps_waitFor (w : Wait) : KeepsM (waitFor w : M α) := keeps_get_bind fun _ _ => keeps_stop trivial
theorem keeps_after {f : State → State} (h : ∀ s : State, s.MemWf → (f s).MemWf) : KeepsM (stop (.after f) : M α) :=
  keeps_stop h
theorem keeps_ctrl (n : Nat) : KeepsM (stop (.ctrl n) : M α) := keeps_stop trivial
theorem keeps_illFormed : KeepsM (stop .illFormed : M α) := keeps_stop trivial
theorem keeps_refuse (reason addr : Nat) : KeepsE (refuse reason addr : E α) := keeps_throw trivial

theorem keeps_throwE (e : EStop) : KeepsE (throw e : E α) := keeps_throw trivial

/-! Whatever stands after a stop does not run. -/

theorem keeps_stop_bind {e : Stop} {f : α → M β} (h : e.Safe) : KeepsM (stop e >>= f) := ⟨fun _ _ => h⟩

theorem keeps_after_bind {g : State → State} {f : α → M β} (h : ∀ s : State, s.MemWf → (g s).MemWf) :
    KeepsM (stop (.after g) >>= f) :=
  keeps_stop_bind h

theorem keeps_waitFor_bind {w : Wait} {f : α → M β} : KeepsM (waitFor w >>= f) := ⟨fun _ _ => trivial⟩
theorem keeps_refuse_bind {reason addr : Nat} {f : α → E β} : KeepsE (refuse reason addr >>= f) := ⟨fun _ _ => trivial⟩

theorem keeps_throwE_bind {e : EStop} {f : α → E β} : KeepsE (throw e >>= f) := ⟨fun _ _ => trivial⟩

/-! ### Folds and optional answers -/

theorem foldl_memWf {f : State → α → State} (hf : ∀ s x, s.MemWf → (f s x).MemWf) (l : List α)
    {s : State} (h : s.MemWf) :
    (l.foldl f s).MemWf := by
  induction l generalizing s with
  | nil => exact h
  | cons x l ih => exact ih (hf s x h)

theorem foldl_mem {f : State → α → State} (hf : ∀ s x, (f s x).mem = s.mem) (l : List α) (s : State) :
    (l.foldl f s).mem = s.mem := by
  induction l generalizing s with
  | nil => rfl
  | cons x l ih => exact (ih _).trans (hf s x)

theorem foldr_mem {f : α → State → State} (hf : ∀ x s, (f x s).mem = s.mem) (l : List α) (s : State) :
    (l.foldr f s).mem = s.mem := by
  induction l generalizing s with
  | nil => rfl
  | cons x l ih => exact (hf x _).trans (ih s)

theorem foldl_option_memWf {f : Option State → α → Option State}
    (hf : ∀ o x t, (∀ u, o = some u → u.MemWf) → f o x = some t → t.MemWf) (l : List α) {o : Option State} {t : State}
    (ho : ∀ u, o = some u → u.MemWf) (e : l.foldl f o = some t) : t.MemWf := by
  induction l generalizing o with
  | nil => exact ho t e
  | cons x l ih => exact ih (fun u => hf o x u ho) e

theorem foldl_memory_wf {f : Memory → α → Memory} (hf : ∀ m x, m.wf = true → (f m x).wf = true) (l : List α)
    {m : Memory}
    (h : m.wf = true) : (l.foldl f m).wf = true := by
  induction l generalizing m with
  | nil => exact h
  | cons x l ih => exact ih (hf m x h)

theorem findSome_memWf {f : α → Option State} {l : List α} {t : State} (hf : ∀ x t, f x = some t → t.MemWf)
    (e : l.findSome? f = some t) : t.MemWf := by
  obtain ⟨x, -, hx⟩ := List.exists_of_findSome?_eq_some e
  exact hf x t hx

theorem getD_memWf {s : State} {o : Option State} (h : s.MemWf) (ho : ∀ t,
    o = some t → t.MemWf) : (o.getD s).MemWf := by
  cases o with
  | none => exact h
  | some t => exact ho t rfl

theorem next_memWf {s t : State} (h : s.MemWf) (e : (.next s : Out) = .next t) : t.MemWf := by
  cases e
  exact h

end

section
variable {s t : State}

/-! ### The address map, poison, flaws and caches -/

@[simp] theorem State.mapSlots_mem (s : State) (f) : (s.mapSlots f).mem = s.mem := rfl
@[simp] theorem State.drawBit_mem (s : State) : s.drawBit.2.mem = s.mem := rfl
theorem State.tcFind_mem {die va} {y} (e : s.tcFind die va = some (y, t)) : t.mem = s.mem := by
  grind [State.tcFind, State.modDie_mem]
@[simp] theorem State.tcFill_mem (s : State) (die x) : (s.tcFill die x).mem = s.mem := rfl
@[simp] theorem State.addPoison_mem (s : State) (unit store) : (s.addPoison unit store).mem = s.mem := rfl
@[simp] theorem State.cleanUnits_mem (s : State) (p) : (s.cleanUnits p).mem = s.mem := rfl
@[simp] theorem State.unpoison_mem (s : State) (sa n) : (s.unpoison sa n).mem = s.mem := rfl
@[simp] theorem State.cover_mem (s : State) (who sa n) : (s.cover who sa n).mem = s.mem := by
  grind [State.cover, State.cleanUnits_mem, foldl_mem]
@[simp] theorem State.noteUnit_mem (s : State) (unit va cluster) : (s.noteUnit unit va cluster).mem = s.mem := by
  grind [State.noteUnit]
@[simp] theorem State.notePoison_mem (s : State) (unit va cluster) : (s.notePoison unit va cluster).mem = s.mem := by
  grind [State.notePoison, State.noteUnit_mem]
@[simp] theorem State.errAdd_mem (s : State) (hi lo) : (s.errAdd hi lo).mem = s.mem := rfl
@[simp] theorem State.countFrame_mem (s : State) (pa va lost) : (s.countFrame pa va lost).mem = s.mem := by
  grind [State.countFrame]

theorem State.ctrlLost_memWf (h : s.MemWf) (x) : (s.ctrlLost x).MemWf := by
  have hw (bytes) := Memory.wf_writeN h x bytes
  grind [State.ctrlLost, State.modCluster_mem]

@[simp] theorem State.dropSector_mem (s : State) (f) : (s.dropSector f).mem = s.mem := by
  unfold State.dropSector
  split <;> rfl

theorem State.meetFlaw_memWf (h : s.MemWf) (f va copy) : (s.meetFlaw f va copy).MemWf := by
  unfold State.meetFlaw
  grind [State.countFrame_mem, State.errAdd_mem, State.ctrlLost_memWf, State.addPoison_mem, State.dropSector_mem]

theorem State.found_memWf (h : s.MemWf) (f va) : (s.found f va).MemWf := by
  grind [State.found, State.meetFlaw_memWf]
theorem State.probe_memWf (h : s.MemWf) (va sa n) : (s.probe va sa n).2.MemWf := by
  grind [State.probe, State.found_memWf, foldl_memWf]
theorem State.tableProbe_memWf (h : s.MemWf) (sa n) : (s.tableProbe sa n).MemWf := by
  grind [State.tableProbe, State.probe_memWf, State.noteUnit_mem]
theorem State.evictProbe_memWf (h : s.MemWf) (store cluster a) : (s.evictProbe store cluster a).MemWf := by
  grind [State.evictProbe, State.meetFlaw_memWf, foldl_memWf]
@[simp] theorem State.freshCopy_mem (s : State) (store a) : (s.freshCopy store a).mem = s.mem := rfl
theorem State.l2Back_memWf (h : s.MemWf) (y) : (s.l2Back y).MemWf := by
  grind [State.l2Back, State.freshCopy_mem, State.evictProbe_memWf, foldl_memWf]
theorem State.l2Put_memWf (h : s.MemWf) (pa dirty) : (s.l2Put pa dirty).MemWf := by
  grind [State.l2Put, State.l2Back_memWf, State.freshCopy_mem, State.modDie_mem]
@[simp] theorem State.hotCount_mem (s : State) (pa va die) : (s.hotCount pa va die).mem = s.mem := by
  grind [State.hotCount, State.modDie_mem]
theorem State.fillProbe_memWf (h : s.MemWf) (va pa) : (s.fillProbe va pa).MemWf := by
  grind [State.fillProbe, State.found_memWf, State.meetFlaw_memWf, foldl_memWf]
theorem State.l2Access_memWf (h : s.MemWf) (pa va die dirty) : (s.l2Access pa va die dirty).MemWf := by
  grind [State.l2Access, State.hotCount_mem, State.l2Put_memWf, State.fillProbe_memWf]

theorem State.writeBack_memWf (h : s.MemWf) (core l) : (s.writeBack core l).MemWf := by
  grind [State.writeBack, State.hotCount_mem, State.l2Put_memWf, State.freshCopy_mem, State.evictProbe_memWf,
    foldl_memWf]

theorem State.dirtied_memWf (h : s.MemWf) (die va sa n) : (s.dirtied die va sa n).MemWf := by
  grind [State.dirtied, State.modCore_mem, State.l2Access_memWf, foldl_memWf]

/-! ### Writes to memory, and what they do to codes -/

@[simp] theorem State.modCmd_mem (s : State) (id f) : (s.modCmd id f).mem = s.mem := rfl
@[simp] theorem State.keepOld_mem (s : State) (sa n) : (s.keepOld sa n).mem = s.mem := rfl
theorem State.probePart_memWf (h : s.MemWf) (va sa n) : (s.probePart va sa n).2.MemWf := by
  grind [State.probePart, State.found_memWf, foldl_memWf]
theorem State.freshCode_memWf (h : s.MemWf) (va sa n) : (s.freshCode va sa n).MemWf := by
  grind [State.freshCode, State.found_memWf, foldl_memWf]

@[simp] theorem State.plainCode_mem (s : State) (sa n) : (s.plainCode sa n).mem = s.mem := by
  unfold State.plainCode
  split <;> rfl

theorem State.putBytes_memWf (h : s.MemWf) (va sa bytes) : (s.putBytes va sa bytes).MemWf := by
  refine State.dirtied_memWf ?_ ..
  rw [State.MemWf, State.unpoison_mem]
  refine Memory.wf_writeN ?_ ..
  rw [State.plainCode_mem]
  exact State.freshCode_memWf (by rwa [State.MemWf, State.keepOld_mem]) ..

theorem State.putPhys_memWf (h : s.MemWf) (pa bytes) : (s.putPhys pa bytes).MemWf := by
  refine State.l2Put_memWf ?_ ..
  rw [State.MemWf, State.unpoison_mem]
  refine Memory.wf_writeN ?_ ..
  rw [State.plainCode_mem]
  exact State.freshCode_memWf (by rwa [State.MemWf, State.keepOld_mem]) ..

@[simp] theorem State.freshCells_mem (s : State) (k n p) : (s.freshCells k n p).mem = s.mem := rfl

@[simp] theorem State.accProbe_mem (s : State) (k n p) : (s.accProbe k n p).mem = s.mem := by
  grind [State.accProbe, State.errAdd_mem, State.modAcc_mem, foldl_mem]

/-! ### Update-only lines, the first-level cache and resolving an address -/

theorem State.rightsAt_memWf (h : s.MemWf) (core dom key) : (s.rightsAt core dom key).2.MemWf := by
  grind [State.rightsAt, State.modCore_mem, State.tableProbe_memWf]

theorem UpdLine.mergeWord_memWf (u : UpdLine) {r : Table ℕ × State} (h : r.2.MemWf) (w) :
    (u.mergeWord r w).2.MemWf := by
  unfold UpdLine.mergeWord
  dsimp only
  have hp := State.probe_memWf h (some (256 * u.line + w.1)) (u.pa + w.1) u.size
  split <;> rename_i hr <;> rw [hr] at hp
  · rwa [State.MemWf, State.notePoison_mem]
  · refine State.dirtied_memWf (Memory.wf_writeNat ?_ ..) ..
    rwa [State.keepOld_mem]

@[simp] theorem State.flagTouched_mem (s : State) (lines) : (s.flagTouched lines).mem = s.mem := rfl

theorem State.traceEntry_memWf (h : s.MemWf) (home srcCore srcSlot commit va kind size) :
    (s.traceEntry home srcCore srcSlot commit va kind size).MemWf := by
  grind [State.traceEntry, State.modCore_mem, State.flagTouched_mem, State.putBytes_memWf]

theorem mergeWords_memWf (u : UpdLine) (ws : List (ℕ × ℕ)) {r : Table ℕ × State} (h : r.2.MemWf) :
    (ws.foldl u.mergeWord r).2.MemWf := by
  induction ws generalizing r with
  | nil => exact h
  | cons w ws ih => exact ih (u.mergeWord_memWf h w)

theorem State.mergeOne_memWf (h : s.MemWf) (u) : (s.mergeOne u).MemWf := by
  unfold State.mergeOne
  grind [mergeWords_memWf, State.traceEntry_memWf, State.modCore_mem, foldl_memWf]

@[simp] theorem State.arriving_mem (s : State) (us) : (s.arriving us).2.mem = s.mem := by
  induction us generalizing s with
  | nil => rfl
  | cons u us ih => cases us <;> grind [State.arriving, State.drawBit_mem]

theorem State.mergeAll_memWf (h : s.MemWf) (n us) : (s.mergeAll n us).MemWf := by
  induction n generalizing s us with
  | zero => exact h
  | succ n ih =>
    have ha := State.arriving_mem s us
    grind [State.mergeAll, State.mergeOne_memWf]

theorem State.mergeWhere_memWf (h : s.MemWf) (p) : (s.mergeWhere p).MemWf := by
  grind [State.mergeWhere, State.mergeAll_memWf]
theorem State.recall_memWf (h : s.MemWf) (line) : (s.recall line).MemWf := by
  grind [State.recall, State.mergeWhere_memWf]

theorem State.l1Fill_memWf (h : s.MemWf) (core x) : (s.l1Fill core x).MemWf := by
  grind [State.l1Fill, State.freshCopy_mem, State.modCore_mem, State.writeBack_memWf, State.mergeOne_memWf,
    foldl_memWf]

theorem State.walkProbe_memWf (h : s.MemWf) (va) : (s.walkProbe va).MemWf := by
  grind [State.walkProbe, State.tableProbe_memWf, foldl_memWf]
theorem State.linkProbe_memWf (h : s.MemWf) (dev) : (s.linkProbe dev).MemWf := by
  grind [State.linkProbe, State.walkProbe_memWf, State.tableProbe_memWf]
theorem State.sendPeer_memWf (h : s.MemWf) (dev va dom op) : (s.sendPeer dev va dom op).MemWf := by
  grind [State.sendPeer, State.linkProbe_memWf]
theorem State.shipBack_memWf (h : s.MemWf) (dev va dom line) : (s.shipBack dev va dom line).MemWf := by
  grind [State.shipBack, State.sendPeer_memWf]
theorem State.sendHeld_memWf (h : s.MemWf) : s.sendHeld.MemWf := by
  grind [State.sendHeld, State.shipBack_memWf, State.sendPeer_memWf, foldl_memWf]
theorem State.checked_memWf (h : s.MemWf) (core dom need key sa) : (s.checked core dom need key sa).2.MemWf := by
  grind [State.checked, State.rightsAt_memWf]

theorem State.resolve_memWf (h : s.MemWf) (core dom need va walkNow) :
    (s.resolve core dom need va walkNow).2.MemWf := by
  unfold State.resolve
  have hw := State.walkProbe_memWf h va
  split
  · grind [State.checked_memWf, State.modCore_mem]
  · split
    · rename_i hf
      grind [State.checked_memWf, State.tcFind_mem, State.l1Fill_memWf, State.l2Access_memWf]
    · grind [State.checked_memWf, State.tcFill_mem, State.l1Fill_memWf, State.l2Access_memWf]

theorem State.icFill_memWf (h : s.MemWf) (core key va pa) : (s.icFill core key va pa).MemWf := by
  grind [State.icFill, State.l2Access_memWf, State.probe_memWf, State.modCore_mem]
theorem State.icProbe_memWf (h : s.MemWf) (core key va pa) : (s.icProbe core key va pa).MemWf := by
  grind [State.icProbe, State.errAdd_mem, State.icFill_memWf, State.modCore_mem, foldl_memWf]

theorem State.resolveFetch_memWf (h : s.MemWf) (core dom va) : (s.resolveFetch core dom va).2.MemWf := by
  unfold State.resolveFetch
  split
  · refine State.checked_memWf ?_ ..
    grind [State.modCore_mem, State.icProbe_memWf]
  · grind [State.checked_memWf, State.tcFind_mem, State.icFill_memWf]

@[simp] theorem State.codeAt_mem (s : State) (core va sa n) : (s.codeAt core va sa n).2.mem = s.mem := by
  grind [State.codeAt, State.drawBit_mem]

/-! ### Device accesses, the event queue and the life of a strand -/

@[simp] theorem State.flagLines_mem (s : State) (lines) : (s.flagLines lines).mem = s.mem := rfl
theorem State.devWrite_memWf (h : s.MemWf) (va sa bytes) : (s.devWrite va sa bytes).MemWf := by
  grind [State.devWrite, State.recall_memWf, State.flagTouched_mem, State.putBytes_memWf]
theorem State.devRead_memWf (h : s.MemWf) (va sa n) : (s.devRead va sa n).2.MemWf := by
  grind [State.devRead, State.recall_memWf]
theorem State.devResolve_memWf (h : s.MemWf) (dom need va) : (s.devResolve dom need va).2.MemWf := by
  grind [State.devResolve, State.resolve_memWf]

@[simp] theorem State.meqTake_mem (s : State) (n) : (s.meqTake n).mem = s.mem := by
  induction n generalizing s with
  | zero => rfl
  | succ n ih => grind [State.meqTake]

theorem State.ringStore_memWf {va bytes} (h : s.MemWf) (e : s.ringStore va bytes = some t) : t.MemWf := by
  grind [State.ringStore, State.devResolve_memWf, State.devWrite_memWf, State.sendPeer_memWf]
theorem State.meqWrite_memWf (h : s.MemWf) (e : s.meqWrite = some t) : t.MemWf := by
  grind [State.meqWrite, State.ringStore_memWf]

theorem State.meqDrain_memWf (h : s.MemWf) (n) : (s.meqDrain n).MemWf := by
  induction n generalizing s with
  | zero => exact h
  | succ n ih => grind [State.meqDrain, State.meqWrite_memWf, State.meqTake_mem]

theorem State.postFor_memWf (h : s.MemWf) (ref kind cluster arg0 arg1 arg2) :
    (s.postFor ref kind cluster arg0 arg1 arg2).MemWf := by
  grind [State.postFor, State.meqDrain_memWf]

theorem State.post_memWf (h : s.MemWf) (kind cluster arg0 arg1 arg2) :
    (s.post kind cluster arg0 arg1 arg2).MemWf := by
  grind [State.post, State.postFor_memWf]

@[simp] theorem State.clearSlot_mem (s : State) (c k) : (s.clearSlot c k).mem = s.mem := rfl
@[simp] theorem State.place_mem (s : State) (c k x ph n) : (s.place c k x ph n).mem = s.mem := rfl
theorem State.spill_memWf {b core x} (h : s.MemWf) (e : s.spill b core x = some t) : t.MemWf := by
  grind [State.spill, State.devResolve_memWf, State.modBlock_mem, State.devWrite_memWf]
theorem State.pushBottom_memWf (h : s.MemWf) (c x) : (s.pushBottom c x).MemWf := by
  grind [State.pushBottom, State.modCore_mem, State.spill_memWf, Option.bind_eq_some_iff]
theorem State.pushTop_memWf (h : s.MemWf) (c x) : (s.pushTop c x).MemWf := by
  grind [State.pushTop, State.modCore_mem, State.spill_memWf, Option.bind_eq_some_iff]
theorem State.spilledAt_memWf {b i} {y} (h : s.MemWf) (e : s.spilledAt b i = some (y, t)) : t.MemWf := by
  grind [State.spilledAt, State.devResolve_memWf, State.devRead_memWf, State.probe_memWf]

theorem State.unspillAt_memWf {b j} {y} (h : s.MemWf) (e : s.unspillAt b j = some (y, t)) : t.MemWf := by
  unfold State.unspillAt at e
  split at e
  · next l line s side _ hs _ =>
    have h := State.spilledAt_memWf h hs
    dsimp only at e
    split at e
    · grind [State.modBlock_mem]
    · split at e
      · next s' hd =>
        suffices hs' : s'.MemWf by grind [State.modBlock_mem]
        refine foldl_option_memWf (fun o i u ho hu => ?_) _ (fun u hu => ?_) hd
        · split at hu
          · cases hu
          · next hb =>
            obtain ⟨v, hv, hb⟩ := Option.bind_eq_some_iff.mp hb
            have hr := State.devResolve_memWf (State.spilledAt_memWf (ho v hv) hb) l.dom 2 (l.spillAt b.index
              (b.spillHead + i))
            grind [State.devWrite_memWf]
        · grind
      · cases e
  · cases e

theorem State.sendHome_memWf (h : s.MemWf) (x c) : (s.sendHome x c).MemWf := by
  grind [State.sendHome, State.pushTop_memWf]
theorem State.stealFrom_memWf {v} {y} (h : s.MemWf) (e : s.stealFrom v = some (y, t)) : t.MemWf := by
  grind [State.stealFrom, State.unspillAt_memWf, State.modCore_mem, Option.bind_eq_some_iff]
theorem State.takeOwn_memWf {c} {y} (h : s.MemWf) (e : s.takeOwn c = some (y, t)) : t.MemWf := by
  grind [State.takeOwn, State.modCore_mem, State.unspillAt_memWf, Option.bind_eq_some_iff]
@[simp] theorem State.freeCore_mem (s : State) (c) : (s.freeCore c).mem = s.mem := by
  grind [State.freeCore, State.clearSlot_mem, State.modCore_mem, foldl_mem]
@[simp] theorem State.settleBlock_mem (s : State) (l b) : (s.settleBlock l b).mem = s.mem := by
  grind [State.settleBlock, State.freeCore_mem, foldl_mem]
@[simp] theorem State.settleAt_mem (s : State) (c) : (s.settleAt c).mem = s.mem := by
  grind [State.settleAt, State.settleBlock_mem]
theorem State.endStrand_memWf (h : s.MemWf) (c k) : (s.endStrand c k).MemWf := by
  grind [State.endStrand, State.sendPeer_memWf, State.setSlot_mem, State.clearSlot_mem, State.settleBlock_mem]
theorem State.faultOn_memWf (h : s.MemWf) (va cluster who) : (s.faultOn va cluster who).MemWf := by
  grind [State.faultOn, State.post_memWf]
theorem State.poisonMet_memWf (h : s.MemWf) (unit va cluster) : (s.poisonMet unit va cluster).MemWf := by
  grind [State.poisonMet, State.notePoison_mem, State.meqDrain_memWf]
@[simp] theorem State.takeFseq_mem (s : State) (cl) : (s.takeFseq cl).2.mem = s.mem := rfl

@[simp] theorem Take.giveBack_mem (s : State) (ty : Take) (c) : (ty.giveBack c s).mem = s.mem := by
  unfold Take.giveBack
  split <;> rfl

@[simp] theorem State.giveKept_mem (s : State) (c k) : (s.giveKept c k).mem = s.mem := by
  grind [State.giveKept, State.modSlot_mem, Take.giveBack_mem, foldr_mem]

theorem State.parkIn_memWf (h : s.MemWf) (c k w) : (s.parkIn c k w).MemWf := by
  unfold State.parkIn
  grind [State.giveKept_mem, State.takeFseq_mem, State.shipBack_memWf, State.clearSlot_mem, State.modCore_mem,
    State.setSlot_mem]

theorem State.reseat_memWf (h : s.MemWf) (c k) : (s.reseat c k).MemWf := by
  grind [State.reseat, State.setSlot_mem, State.modCore_mem, State.giveKept_mem, State.pushTop_memWf,
    State.clearSlot_mem]

@[simp] theorem State.mapDens_mem (s : State) (f) : (s.mapDens f).mem = s.mem := rfl
@[simp] theorem State.mapKept_mem (s : State) (f) : (s.mapKept f).mem = s.mem := rfl

theorem State.seatWoken_memWf (h : s.MemWf) : s.seatWoken.MemWf := by
  grind [State.seatWoken, State.reseat_memWf, State.modCore_mem, State.setSlot_mem, State.pushTop_memWf,
    State.place_mem, foldl_memWf]

theorem State.guestLeaves_memWf (h : s.MemWf) (c k) : (s.guestLeaves c k).MemWf := by
  grind [State.guestLeaves, State.giveKept_mem, State.shipBack_memWf, State.clearSlot_mem, State.sendHome_memWf,
    State.seatWoken_memWf, State.modCore_mem]

theorem State.wakeWhere_memWf (h : s.MemWf) (p) : (s.wakeWhere p).MemWf := by
  grind [State.wakeWhere, State.seatWoken_memWf, State.mapKept_mem]

/-! ### What an agent reaches -/

theorem State.devSpot_memWf (h : s.MemWf) (r dom need va) : (s.devSpot r dom need va).2.MemWf := by
  unfold State.devSpot
  grind [State.devResolve_memWf]

theorem State.spotWrite_memWf (h : s.MemWf) (va sa bytes) : (s.spotWrite va sa bytes).MemWf := by
  grind [State.spotWrite, State.devWrite_memWf]
theorem State.spotRead_memWf (h : s.MemWf) (va sa n) : (s.spotRead va sa n).2.MemWf := by
  grind [State.spotRead, State.devRead_memWf]

theorem State.elemSpot_memWf (h : s.MemWf) (x core va size need) : (s.elemSpot x core va size need).2.MemWf := by
  grind [State.elemSpot, State.devSpot_memWf, State.probe_memWf]

/-! ### Accesses of engine commands -/

theorem State.spotPut_memWf (h : s.MemWf) (who va sa bytes taint) : (s.spotPut who va sa bytes taint).MemWf := by
  grind [State.spotPut, State.spotWrite_memWf, State.addPoison_mem, State.cover_mem]
@[simp] theorem State.granuleWritten_mem (s : State) (id sa n) : (s.granuleWritten id sa n).mem = s.mem := by
  grind [State.granuleWritten, State.modCmd_mem, State.flagLines_mem]
theorem State.performLate_memWf (h : s.MemWf) (n) : (s.performLate n).MemWf := by
  grind [State.performLate, State.spotPut_memWf]
theorem keeps_require (ok reason addr) : KeepsE (require ok reason addr) := by
  grind [require, keeps_refuse, keeps_pure]
theorem keeps_eSpot (c va need) : KeepsE (eSpot c va need) := by
  grind [eSpot, State.devSpot_memWf, keeps_refuse, keeps_bind, keeps_pure, keeps_get_bind, keeps_set, keeps_throwE]
theorem keeps_eHome (c va need) : KeepsE (eHome c va need) := by
  grind [eHome, keeps_eSpot, keeps_refuse, keeps_bind, keeps_pure]
theorem keeps_eReach (c va need home) : KeepsE (eReach c va need home) := by
  grind [eReach, keeps_refuse, keeps_pure, keeps_get_bind]
theorem keeps_eSend (c dev va op) : KeepsE (eSend c dev va op) := by
  grind [eSend, State.sendPeer_memWf, keeps_get_bind, keeps_modify, keeps_throwE, keeps_throwE_bind]

theorem keeps_eFree (c dev va n) : KeepsE (eFree c dev va n) := by
  grind [eFree, keeps_eSend, State.drawBit_mem, keeps_bind, keeps_pure, keeps_get_bind, keeps_set, keeps_forM,
    keeps_refuse_bind]

theorem keeps_eOld (c g) : KeepsE (eOld c g) := by
  have hdraw (r : Option (List Byte × Bool)) (e : ℕ × List Byte × Bool) : KeepsE (do
      if r.isSome then return r
      let d := (← get).drawBit
      set d.2
      return if d.1 then some e.2 else none) := by
    grind [State.drawBit_mem, keeps_bind, keeps_pure, keeps_get_bind, keeps_set]
  unfold eOld
  refine keeps_get_bind fun s h => ?_
  split
  · exact keeps_pure _
  split
  · exact keeps_pure _
  dsimp only
  split
  · exact keeps_pure _
  refine keeps_bind (keeps_foldlM hdraw _ _) fun r => ?_
  grind [keeps_bind, keeps_pure, keeps_modify, State.modCmd_mem]

theorem keeps_eReadAt (c va sa n) : KeepsE (eReadAt c va sa n) := by
  grind [eReadAt, State.spotRead_memWf, State.probe_memWf, keeps_eOld, keeps_bind, keeps_pure, keeps_get_bind,
    keeps_set, keeps_mapM]

theorem keeps_eReadP (c n va k) : KeepsE (eReadP c n va k) := by
  induction n generalizing va k with
  | zero => exact keeps_pure _
  | succ n ih => grind [eReadP, keeps_bind, keeps_pure, keeps_eSpot, keeps_eReadAt, keeps_eFree]

theorem keeps_eClean (va l) : KeepsE (eClean va l) := by
  grind [eClean, keeps_pure, keeps_throwE]
theorem keeps_eRead (c va n) : KeepsE (eRead c va n) := by
  grind [eRead, keeps_eReadP, keeps_eClean, keeps_bind]
theorem keeps_eNat (c va n) : KeepsE (eNat c va n) := by
  grind [eNat, keeps_eRead, keeps_bind, keeps_pure]
theorem keeps_eAsk (c dev va op bytes) : KeepsE (eAsk c dev va op bytes) := by
  grind [eAsk, keeps_eSend, State.drawBit_mem, keeps_bind, keeps_get_bind, keeps_modify, keeps_set, keeps_refuse_bind]

theorem keeps_ePiece (c va data fe late) : KeepsE (ePiece c va data fe late) := by
  unfold ePiece
  refine keeps_bind (keeps_eSpot ..) fun p => ?_
  dsimp only
  split
  · exact keeps_eAsk ..
  refine keeps_get_bind fun s h => keeps_when_bind (keeps_throwE _) fun _ => ?_
  have hput (sa) (b : Bool) (w) : KeepsE (if b then modify fun _ => { s.drawBit.2 with late := s.drawBit.2.late ++ [w] }
      else modify fun s => (s.spotPut (c.id + 1) va sa (data.map (·.1))
        (data.any (·.2))).granuleWritten c.id sa (data.map (·.1)).length) := by
    split
    · refine keeps_modify fun _ _ => ?_
      have := State.drawBit_mem s
      grind
    · refine keeps_modify fun s h => ?_
      rw [State.MemWf, State.granuleWritten_mem]
      exact State.spotPut_memWf h ..
  split
  · split
    · split
      · exact keeps_throwE_bind
      · exact hput ..
    · exact keeps_refuse_bind
  · exact hput ..

theorem keeps_eMay (c va n need) : KeepsE (eMay c va n need) := by
  grind [eMay, keeps_eSpot, keeps_bind, keeps_pure, keeps_forM]

theorem keeps_eCount (c va n) : KeepsE (eCount c va n) := by
  unfold eCount
  grind [keeps_eSpot, keeps_eAsk, keeps_eReadAt, keeps_eClean, State.spotPut_memWf, keeps_bind, keeps_get_bind,
    keeps_modify, keeps_throwE_bind]

theorem keeps_eBlock (c va n al) : KeepsE (eBlock c va n al) := by
  grind [eBlock, keeps_require, keeps_eRead, keeps_eHome, keeps_bind, keeps_pure, keeps_forM]

theorem State.holdCmd_memWf (h : s.MemWf) (c x) : (s.holdCmd c x).MemWf := by
  unfold State.holdCmd
  grind [State.modCmd_mem, State.faultOn_memWf, State.poisonMet_memWf, State.probe_memWf]

theorem State.readDesc_memWf (h : s.MemWf) (c) : (s.readDesc c).MemWf := by
  unfold State.readDesc
  split
  · exact h
  · next b _ =>
    have hb := (keeps_eBlock c b.1 b.2.1 b.2.2).run s h
    split <;> rename_i hr <;> rw [hr] at hb
    · rwa [State.MemWf, State.modCmd_mem]
    · rwa [State.MemWf, State.modCmd_mem]
    · exact State.holdCmd_memWf h ..

@[simp] theorem State.checkOrph_mem (s : State) (id) : (s.checkOrph id).mem = s.mem := rfl
@[simp] theorem State.answer_mem (s : State) (c) : (s.answer c).mem = s.mem := by
  grind [State.answer, State.modCmd_mem, State.modAcc_mem]

theorem State.dispatch_memWf (h : s.MemWf) (c k cmd) : (s.dispatch c k cmd).MemWf := by
  grind [State.dispatch, State.modSlot_mem, State.answer_mem, State.checkOrph_mem, State.readDesc_memWf]

/-! ### Issuing, chunks, traps and waiting -/

theorem State.cupd_memWf (h : s.MemWf) (c k strand sa va op size v) : (s.cupd c k strand sa va op size v).MemWf := by
  unfold State.cupd
  extract_lets line mine same s1 off u u' s2 tag s3 b
  have h2 : s2.MemWf := foldl_memWf (fun s u h => State.mergeOne_memWf h u) _ h
  have h3 : s3.MemWf := by
    subst s3
    split
    · rwa [State.MemWf, State.modCore_mem]
    · exact State.l1Fill_memWf h2 _ _
  clear_value s3
  have hb : b.2.MemWf := by rwa [State.MemWf, State.drawBit_mem]
  split
  · exact State.mergeOne_memWf hb _
  · exact hb

@[simp] theorem State.nqCross_mem (s : State) (c) : (s.nqCross c).mem = s.mem := rfl
theorem State.yieldSlot_memWf (h : s.MemWf) (c k) : (s.yieldSlot c k).MemWf := by
  grind [State.yieldSlot, State.pushTop_memWf, State.clearSlot_mem, State.takeOwn_memWf, State.place_mem]

theorem Held.perform_memWf (h : s.MemWf) (ph : Held) (c k x) : (ph.perform c k x s).MemWf := by
  unfold Held.perform
  grind [State.recall_memWf, State.putBytes_memWf, State.traceEntry_memWf, State.cupd_memWf, State.sendPeer_memWf,
    State.pushBottom_memWf, State.place_mem, State.clearSlot_mem, State.modCore_mem, State.modCluster_mem,
    State.nqCross_mem, State.modSlot_mem, State.dispatch_memWf, State.yieldSlot_memWf, State.endStrand_memWf]

@[simp] theorem State.unbind_mem (s : State) (c k) : (s.unbind c k).mem = s.mem := rfl

theorem State.commitEffects_memWf (h : s.MemWf) (c k) : (s.commitEffects c k).MemWf := by
  grind [State.commitEffects, State.unbind_mem, State.setSlot_mem, State.modDie_mem, State.flagLines_mem,
    Held.perform_memWf, foldl_memWf]

theorem State.commitChunk_memWf (h : s.MemWf) (c k) : (s.commitChunk c k).MemWf := by
  grind [State.commitChunk, State.reseat_memWf, State.commitEffects_memWf]
@[simp] theorem State.dropReserved_mem (s : State) (c k) : (s.dropReserved c k).mem = s.mem := rfl
@[simp] theorem State.undoChunk_mem (s : State) (c k) : (s.undoChunk c k).mem = s.mem := by
  grind [State.undoChunk, State.dropReserved_mem, Take.giveBack_mem, State.modCore_mem, foldr_mem]
@[simp] theorem State.undoGang_mem (s : State) (c k) : (s.undoGang c k).mem = s.mem := by
  grind [State.undoGang, State.clearSlot_mem, State.undoChunk_mem, foldl_mem]
@[simp] theorem State.discardSlot_mem (s : State) (c k serial) : (s.discardSlot c k serial).mem = s.mem := by
  grind [State.discardSlot, State.undoChunk_mem, State.setSlot_mem]
@[simp] theorem State.takeBack_mem (s : State) (c k) : (s.takeBack c k).mem = s.mem := by
  grind [State.takeBack, State.discardSlot_mem, State.setSlot_mem, foldl_mem]
@[simp] theorem State.discardChunk_mem (s : State) (c k serial) : (s.discardChunk c k serial).mem = s.mem := by
  grind [State.discardChunk, State.undoGang_mem, State.takeBack_mem, State.discardSlot_mem]
theorem State.closeBefore_memWf (h : s.MemWf) : s.closeBefore.2.MemWf := by
  grind [State.closeBefore, State.setCur_mem, State.commitEffects_memWf, State.discardChunk_mem, State.modChunk_mem]
@[simp] theorem State.handOut_mem (s : State) (x release) : (s.handOut x release).mem = s.mem := by
  grind [State.handOut, State.setSlot_mem, foldl_mem]
@[simp] theorem State.releaseUpTo_mem (s : State) (q) : (s.releaseUpTo q).mem = s.mem := by
  grind [State.releaseUpTo, State.discardSlot_mem, State.setSlot_mem, foldl_mem]
@[simp] theorem State.disband_mem (s : State) : s.disband.mem = s.mem := by
  grind [State.disband, State.handOut_mem, State.modCur_mem, State.releaseUpTo_mem]
theorem State.haltStrand_memWf (h : s.MemWf) (pc) : (s.haltStrand pc).MemWf := by
  grind [State.haltStrand, State.modCur_mem, State.post_memWf]

theorem State.takeTrapAt_memWf (h : s.MemWf) (cause info addr epc pc) :
    (s.takeTrapAt cause info addr epc pc).MemWf := by
  grind [State.takeTrapAt, State.giveKept_mem, State.haltStrand_memWf, State.disband_mem, State.modCtx_mem,
    State.modCur_mem]

theorem State.takeTrap_memWf (h : s.MemWf) (cause info addr epc) : (s.takeTrap cause info addr epc).MemWf := by
  grind [State.takeTrap, State.takeTrapAt_memWf]
@[simp] theorem State.eret_mem (s : State) : s.eret.2.mem = s.mem := rfl
theorem keeps_trap {α} (cause info addr) : KeepsM (trap cause info addr : M α) :=
  keeps_after fun _ h => State.takeTrap_memWf h ..

theorem keeps_trap_bind {α β : Type} {c i a} {f : α → M β} :
    KeepsM (trap c i a >>= f) :=
  keeps_after_bind fun _ h => State.takeTrap_memWf h ..

theorem keeps_trapAfter {α} (cause info addr) : KeepsM (trapAfter cause info addr : M α) :=
  keeps_after fun _ h => State.takeTrap_memWf h ..
theorem keeps_endBefore {α} : KeepsM (endBefore : M α) :=
  keeps_after fun _ h => h
theorem keeps_endBefore_bind {α β : Type} {f : α → M β} : KeepsM (endBefore >>= f) := keeps_after_bind fun _ h => h
theorem keeps_endAfter : KeepsM endAfter := by
  grind [endAfter, State.modChunk_mem, keeps_modify]
theorem keeps_ownChunk : KeepsM ownChunk := by
  grind [ownChunk, keeps_endAfter, keeps_bind, keeps_get_bind, keeps_endBefore_bind]
theorem keeps_hold (ph) : KeepsM (hold ph) := by
  grind [hold, State.modChunk_mem, keeps_modify]
@[simp] theorem State.giveAhead_mem (s : State) : s.giveAhead.mem = s.mem := by
  grind [State.giveAhead, State.modCur_mem, State.handOut_mem]
@[simp] theorem State.passUnit_mem (s : State) : s.passUnit.mem = s.mem := by
  grind [State.passUnit, State.modCur_mem, State.giveAhead_mem]
theorem State.parkDown_memWf (h : s.MemWf) (va) : (s.parkDown va).MemWf := by
  grind [State.parkDown, State.giveAhead_mem, State.parkIn_memWf]
theorem State.parkPage_memWf (h : s.MemWf) (va) : (s.parkPage va).MemWf := by
  grind [State.parkPage, State.giveAhead_mem, State.faultOn_memWf, State.parkIn_memWf, State.parkDown_memWf]
theorem keeps_parkOn {α} (va) : KeepsM (parkOn va : M α) :=
  keeps_after fun _ h => State.parkPage_memWf h ..

theorem keeps_parkOn_bind {α β : Type} {c} {f : α → M β} :
    KeepsM (parkOn c >>= f) :=
  keeps_after_bind fun _ h => State.parkPage_memWf h ..

theorem State.parkUnit_memWf (h : s.MemWf) (unit va) : (s.parkUnit unit va).MemWf := by
  grind [State.parkUnit, State.giveAhead_mem, State.poisonMet_memWf, State.parkIn_memWf]
theorem keeps_parkPoison {α} (unit va) : KeepsM (parkPoison unit va : M α) :=
  keeps_after fun _ h => State.parkUnit_memWf h ..

theorem State.waitOn_memWf (h : s.MemWf) (w) : (s.waitOn w).MemWf := by
  unfold State.waitOn
  grind [State.giveAhead_mem, State.setCur_mem, State.sendPeer_memWf]

@[simp] theorem Take.remove_mem (s : State) (ty : Take) (c) : (ty.remove c s).mem = s.mem := by
  unfold Take.remove
  split <;> rfl

@[simp] theorem State.keepTakes_mem (s : State) (takes) : (s.keepTakes takes).mem = s.mem := by
  grind [State.keepTakes, State.modCur_mem, Take.remove_mem, foldl_mem]
@[simp] theorem State.retire_mem (s : State) (target) : (s.retire target).mem = s.mem := by
  grind [State.retire, State.setCur_mem, State.handOut_mem]
theorem State.ctrlStop_memWf (h : s.MemWf) (reason) : (s.ctrlStop reason).MemWf := by
  grind [State.ctrlStop, State.modCluster_mem, State.post_memWf]

theorem State.settle_memWf {x : Stop} (h : s.MemWf) (hx : x.Safe) (e : s.settle x = .next t) : t.MemWf := by
  cases x with
  | wait w takes => grind [State.settle, State.keepTakes_mem, State.waitOn_memWf]
  | after f =>
    have hx : ∀ s : State, s.MemWf → (f s).MemWf := hx
    grind [State.settle, State.closeBefore_memWf, State.modCur_mem, State.reseat_memWf]
  | ctrl n => grind [State.settle, State.ctrlStop_memWf]
  | illFormed => cases e

theorem State.settle_after_memWf {f : State → State} (h : s.MemWf) (hf : ∀ s : State, s.MemWf → (f s).MemWf)
    (e : s.settle (.after f) = .next t) : t.MemWf :=
  State.settle_memWf (x := .after f) h hf e

theorem issue_memWf {g : Guard} {m : M (Option Word)} (hm : KeepsM m) (h : s.MemWf) (e : issue g m s = .next t) :
    t.MemWf := by
  have ho : s.openChunk.MemWf := by rwa [State.MemWf, State.openChunk_mem]
  obtain ⟨-, hi⟩ | ⟨pc, u, -, hr, hi⟩ | ⟨x, -, hr, hi⟩ := issue_cases g m s
  · rw [hi] at e
    cases e
    rwa [State.MemWf, State.retire_mem]
  · rw [hi] at e
    cases e
    rw [State.MemWf, State.retire_mem]
    exact hm.ok ho hr
  · exact State.settle_memWf ho (hm.error ho hr) (hi.symm.trans e)

theorem State.illegalUnit_memWf {r} (h : s.MemWf) (e : s.illegalUnit r = .next t) : t.MemWf := by
  unfold State.illegalUnit at e
  split at e
  · cases e
    exact State.ctrlStop_memWf h _
  · refine State.settle_after_memWf ?_ (fun s h => State.takeTrap_memWf h ..) e
    rwa [State.MemWf, State.openChunk_mem]

theorem issueStrand_memWf {g : Guard} {m : M (Option Word)} (hm : KeepsM m) (h : s.MemWf)
    (e : issueStrand g m s = .next t) :
    t.MemWf := by
  unfold issueStrand at e
  split at e
  · cases e
    exact State.ctrlStop_memWf h _
  · exact issue_memWf hm h e

/-! ### Predicates and flags -/

theorem keeps_raise (f) : KeepsM (raise f) := by
  grind [raise, State.modCtx_mem, keeps_modify]
theorem keeps_setPred (c p v) : KeepsM (setPred c p v) := by
  grind [setPred, State.modCtx_mem, keeps_modify]

theorem keeps_getPred (p) : KeepsM (getPred p) := by
  grind [getPred, keeps_pure, keeps_get_bind]

/-! ### Operands and memory accesses -/

@[simp] theorem State.modStream_mem (s : State) (ty f) : (s.modStream ty f).mem = s.mem := rfl
theorem keeps_streamTrap {α} (ty reason addr) : KeepsM (streamTrap ty reason addr : M α) := by
  grind [streamTrap, keeps_trap]
theorem keeps_streamTrap_bind {α β : Type} {c i a} {f : α → M β} : KeepsM (streamTrap c i a >>= f) := keeps_trap_bind

theorem keeps_streamReport (ty st) : KeepsM (streamReport ty st) := by
  have hmod (s : State) (h : s.MemWf) (f) : (s.modStream ty f).MemWf := by rwa [State.MemWf, State.modStream_mem]
  have htaint : KeepsM (match st.tainted with
      | some u => stop (.after fun s => (s.modStream ty fun st =>
        { st with tainted := none }).parkUnit u (st.addr st.drained).toNat)
      | none => pure () : M Unit) := by
    split
    · exact keeps_after fun s h => State.parkUnit_memWf (hmod s h _) ..
    · exact keeps_pure _
  unfold streamReport
  dsimp only
  split
  · exact keeps_after_bind fun s h => State.takeTrap_memWf (hmod s h _) ..
  split
  · exact keeps_after_bind fun s h => State.parkPage_memWf (hmod s h _) ..
  · exact htaint

theorem keeps_nextReplyOf (p) : KeepsM (nextReplyOf p) := by
  grind [nextReplyOf, State.modCur_mem, keeps_bind, keeps_pure, keeps_get_bind, keeps_modify]
theorem keeps_nextReply (va) : KeepsM (nextReply va) := by
  grind [nextReply, keeps_nextReplyOf]

theorem keeps_streamRead (ty) : KeepsM (streamRead ty) := by
  unfold streamRead
  refine keeps_get_bind fun s h => ?_
  split
  · exact keeps_streamTrap ..
  refine keeps_bind (keeps_streamReport ..) fun _ => ?_
  split
  · exact keeps_streamTrap ..
  split
  · exact keeps_streamTrap ..
  split
  · refine keeps_bind (keeps_nextReply _) fun y => ?_
    grind [State.setStream_mem, keeps_trap, keeps_parkOn, keeps_waitFor, keeps_bind, keeps_pure, keeps_modify]
  · grind [State.setStream_mem, keeps_bind, keeps_pure, keeps_modify]

theorem keeps_streamWrite (ty w) : KeepsM (streamWrite ty w) := by
  unfold streamWrite
  refine keeps_get_bind fun s h => ?_
  split
  · exact keeps_streamTrap ..
  refine keeps_bind (keeps_streamReport ..) fun _ => ?_
  dsimp only
  split
  · exact keeps_streamTrap ..
  split
  · exact keeps_streamTrap ..
  split
  all_goals grind [State.setStream_mem, keeps_trap, keeps_trap_bind, keeps_waitFor_bind, keeps_hold, keeps_bind,
    keeps_modify]

theorem keeps_guestHome : KeepsM guestHome :=
  keeps_get_bind fun _ _ => keeps_ite (keeps_after fun _ h => State.guestLeaves_memWf h ..) (keeps_pure _)

theorem keeps_nqPop : KeepsM nqPop := by
  unfold nqPop
  refine keeps_bind keeps_guestHome fun _ => keeps_get_bind fun s h => ?_
  split
  · grind [State.modCur_mem, keeps_bind, keeps_pure, keeps_modify]
  · split
    · exact keeps_waitFor _
    · grind [State.modCtx_mem, State.modChunk_mem, State.modCore_mem, keeps_bind, keeps_pure, keeps_modify]

theorem keeps_nqPush (w) : KeepsM (nqPush w) := by
  grind [nqPush, keeps_guestHome, State.modCtx_mem, keeps_hold, keeps_bind, keeps_get_bind, keeps_modify,
    keeps_waitFor_bind]

theorem keeps_readReg (r) : KeepsM (readReg r) := by
  grind [readReg, keeps_get_bind, keeps_pure, keeps_nqPop, keeps_streamRead, keeps_ctrl]

theorem keeps_writeReg (r v) : KeepsM (writeReg r v) := by
  grind [writeReg, keeps_get_bind, keeps_pure, keeps_modify, State.modCtx_mem, keeps_nqPush, keeps_streamWrite,
    keeps_ctrl,
    keeps_illFormed]

theorem keeps_normalise (n) : KeepsM (normalise n) := by
  grind [normalise, State.modCore_mem, State.modCur_mem, keeps_bind, keeps_pure, keeps_modify]

theorem keeps_touch (line reads writes) : KeepsM (touch line reads writes) := by
  grind [touch, State.modChunk_mem, keeps_endBefore, keeps_bind, keeps_get_bind, keeps_modify, keeps_waitFor_bind,
    keeps_endBefore_bind]

@[simp] theorem State.migrateTo_mem (s : State) (home ph n) : (s.migrateTo home ph n).mem = s.mem := rfl
theorem State.shipTo_memWf (h : s.MemWf) (dev va) : (s.shipTo dev va).MemWf := by
  grind [State.shipTo, State.sendPeer_memWf, State.clearSlot_mem]

theorem keeps_resFault {α} (a r) : KeepsM (resFault a r : M α) := by
  unfold resFault
  grind [keeps_trap, keeps_parkOn, keeps_waitFor]

theorem keeps_peerAccess (a dev) : KeepsM (peerAccess a dev) := by
  unfold peerAccess
  refine keeps_when_bind (keeps_trap ..) fun _ => keeps_bind keeps_ownChunk fun _ => ?_
  split
  · exact keeps_pure _
  refine keeps_get_bind fun s _ => keeps_when_bind (keeps_after fun s h => State.parkDown_memWf h ..) fun _ =>
    keeps_when_bind (keeps_after fun s h => State.shipTo_memWf h ..) fun _ => keeps_bind (keeps_nextReply _) fun y => ?_
  grind [keeps_pure, keeps_trap, keeps_parkOn, keeps_waitFor]

theorem keeps_remoteAccess (a) : KeepsM (remoteAccess a) := by
  grind [remoteAccess, keeps_nextReplyOf, keeps_trap, keeps_parkOn, keeps_peerAccess, keeps_ownChunk, keeps_waitFor,
    keeps_bind, keeps_pure]

theorem keeps_chooseKind (home way) : KeepsM (chooseKind home way) := by
  have hmigrate : KeepsM (stop (.after fun s => s.migrateTo home 0 0) : M Unit) :=
    keeps_after fun s h => by rwa [State.MemWf, State.migrateTo_mem]
  grind [chooseKind, keeps_get_bind, keeps_pure]

theorem keeps_learn (home way) : KeepsM (learn home way) := by
  grind [learn, State.modCur_mem, keeps_modify]

theorem keeps_checkPoison (a sa) : KeepsM (checkPoison a sa) := by
  unfold checkPoison
  refine keeps_get_bind fun s h => ?_
  have hp := State.probe_memWf h (some a.va.toNat) sa a.size
  dsimp only
  split <;> rename_i hr <;> rw [hr] at hp
  · exact keeps_after fun s h => State.parkUnit_memWf (State.probe_memWf h ..) ..
  · exact keeps_set hp

theorem keeps_access (a) : KeepsM (access a) := by
  unfold access
  refine keeps_get_bind fun s h => ?_
  dsimp only
  split
  · refine keeps_when_bind (keeps_ctrl _) fun _ => keeps_when_bind (keeps_after fun s h =>
      State.probe_memWf h ..) fun _ => ?_
    exact keeps_bind (keeps_set (State.probe_memWf h ..)) fun _ => keeps_pure _
  refine keeps_when_bind (keeps_trap ..) fun _ => keeps_when_bind keeps_ownChunk fun _ => ?_
  split
  · exact keeps_trap ..
  · refine keeps_bind (keeps_touch ..) fun _ => ?_
    grind [keeps_remoteAccess, keeps_checkPoison, keeps_bind, keeps_pure]
  split
  · refine keeps_when_bind (keeps_waitFor _) fun _ => ?_
    have hr := State.resolve_memWf h s.core (s.cur.ctx.tdom.toNat % 4096) a.need a.va.toNat false
    split
    · grind [keeps_touch, keeps_checkPoison, keeps_bind, keeps_pure, keeps_set]
    · exact keeps_bind (keeps_set hr) fun _ => keeps_peerAccess ..
    · refine keeps_bind (keeps_nextReply _) fun y => ?_
      grind [keeps_trap, keeps_parkOn, keeps_waitFor]
    all_goals exact keeps_resFault ..
  · refine keeps_bind (keeps_chooseKind ..) fun _ => keeps_bind (keeps_remoteAccess _) fun p => ?_
    grind [keeps_touch, keeps_learn, keeps_checkPoison, keeps_bind, keeps_pure]

theorem keeps_readAt (va sa n) : KeepsM (readAt va sa n) := by
  grind [readAt, State.recall_memWf, keeps_bind, keeps_pure, keeps_get_bind, keeps_modify]

theorem keeps_loadFrom (a p) : KeepsM (loadFrom a p) := by
  unfold loadFrom
  grind [keeps_readAt, keeps_bind, keeps_pure]

theorem keeps_storeTo (a p bytes atomic) : KeepsM (storeTo a p bytes atomic) := by
  unfold storeTo
  grind [State.devWrite_memWf, keeps_hold, keeps_pure, keeps_get_bind, keeps_modify]

/-! ### Fetching a unit -/

@[simp] theorem State.coreCycle_mem (s : State) (c) : (s.coreCycle c).2.mem = s.mem := by
  grind [State.coreCycle, State.modCore_mem]
theorem fetchTrap_safe (info pc) : (fetchTrap info pc).Safe := fun _ h => State.takeTrap_memWf h ..
theorem State.parcel_memWf (h : s.MemWf) (pc va) : (s.parcel pc va).2.MemWf := by
  grind [State.parcel, State.resolveFetch_memWf, State.codeAt_mem]

theorem State.parcel_safe {pc va} {x : Stop} (e : (s.parcel pc va).1 = .inl x) : x.Safe := by
  unfold State.parcel at e
  split at e
  · cases e
    exact fetchTrap_safe _ _
  dsimp only at e
  split at e
  · split at e <;> cases e
    exact fun s h => State.parkUnit_memWf h ..
  · cases e
    exact fetchTrap_safe _ _
  · cases e
    exact fun s h => State.takeTrap_memWf h ..
  all_goals cases e; trivial

theorem State.fetch_memWf (h : s.MemWf) : s.fetch.2.MemWf := by
  grind [State.fetch, State.parcel_memWf]

theorem State.fetch_safe {x : Stop} (e : s.fetch.1 = .stop x) : x.Safe := by
  unfold State.fetch at e
  dsimp only at e
  split at e
  · split at e <;> cases e
    trivial
  split at e
  · cases e
  split at e
  · cases e
    exact fetchTrap_safe _ _
  split at e
  · next hp =>
    cases e
    exact State.parcel_safe (congrArg Prod.fst hp)
  · split at e
    · cases e
    · split at e
      · next hp =>
        cases e
        exact State.parcel_safe (congrArg Prod.fst hp)
      · cases e

theorem State.fetchCtrl_inl_memWf (h : s.MemWf) (e : s.fetchCtrl = .inl t) : t.MemWf := by
  grind [State.fetchCtrl, State.ctrlStop_memWf, State.probe_memWf]

theorem State.fetchCtrl_inr_memWf {u} (h : s.MemWf) (e : s.fetchCtrl = .inr u) : u.2.MemWf := by
  grind [State.fetchCtrl, State.probe_memWf]

/-! ### The transfer unit -/

theorem keeps_checkDst (d) : KeepsM (checkDst d) := by
  unfold checkDst
  split <;> grind [keeps_streamTrap, keeps_streamReport, keeps_trap, keeps_guestHome, keeps_bind, keeps_pure,
    keeps_get_bind, keeps_streamTrap_bind]

theorem keeps_engineIssue (eng op q r d a src dst) : KeepsM (engineIssue eng op q r d a src dst) := by
  grind [engineIssue, keeps_readReg, keeps_hold, keeps_endAfter, keeps_checkDst, keeps_bind, keeps_pure,
    keeps_get_bind, keeps_waitFor_bind]

theorem keeps_rowData (x : Xfer) (c k) : KeepsE (x.rowData c k) := by
  grind [Xfer.rowData, keeps_eReadP, keeps_bind, keeps_pure, keeps_mapM]
theorem keeps_eCounter (c) : KeepsE (eCounter c) := by
  grind [eCounter, keeps_require, keeps_eReach, keeps_bind, keeps_pure]

theorem Xfer.pieces_memWf (h : s.MemWf) (x : Xfer) (c l) : (x.pieces c l s).2.MemWf := by
  induction l generalizing s with
  | nil => exact h
  | cons p ps ih =>
    have hp := (keeps_ePiece c p.1 p.2 x.fe (x.kind != .pack)).run s h
    unfold Xfer.pieces
    split <;> rename_i hr <;> rw [hr] at hp
    · exact ih hp
    · exact h

theorem Xfer.runRows_memWf (h : s.MemWf) (x : Xfer) (c n k) : (x.runRows c n k s).2.MemWf := by
  induction n generalizing s k with
  | zero => exact h
  | succ n ih =>
    have hd := (keeps_rowData x c k).run s h
    unfold Xfer.runRows
    split <;> rename_i hr <;> rw [hr] at hd
    · exact h
    · grind [State.modCmd_mem, Xfer.pieces_memWf]

theorem Xfer.run_memWf (h : s.MemWf) (x : Xfer) (c) : (x.run c s).2.MemWf := by
  grind [Xfer.run, Xfer.pieces_memWf, State.modCmd_mem, Xfer.runRows_memWf]

/-! ### The matrix engine -/

theorem execMfmt_memWf {g c a} (h : s.MemWf) (e : execMfmt g c a s = .next t) : t.MemWf := by
  refine issueStrand_memWf ?_ h e
  grind [keeps_readReg, keeps_hold, keeps_bind, keeps_pure, keeps_get_bind, keeps_trap_bind]

theorem keeps_eReplaced (c slot bads) : KeepsE (eReplaced c slot bads) := by
  unfold eReplaced
  dsimp only
  split
  · exact keeps_pure _
  refine keeps_bind (keeps_modify_mem fun s => State.modAcc_mem ..) fun _ =>
    keeps_bind (keeps_modify_mem fun s => State.modCluster_mem ..) fun _ => keeps_get_bind fun s h => ?_
  have hpost (firsts : List Bad) (f : _ → _) : KeepsE (do
      modify fun s => s.modCmd c.id f
      firsts.forM fun x => modify fun s =>
        let store := if (granuleOf x.unit).isSome then 3 else s.poisonStore.get 0 x.unit
        s.post 9 c.cluster (wordN (unitStart x.unit x.va)) (wordN (unitSize x.unit + 2 ^ 32 * 2 + 2 ^ 40 * store))
          (if store = 0 || store = 1 then wordN x.unit else 0) : E PUnit) :=
    keeps_bind (keeps_modify_mem fun s => State.modCmd_mem ..) fun _ =>
      keeps_forM (fun x => keeps_modify fun s h => State.post_memWf h ..) _
  refine keeps_get_bind fun s h => ?_
  split
  · exact keeps_throwE_bind
  · exact hpost _ _

theorem keeps_readLine (c base f scaled drop line slice opnd) :
    KeepsE (readLine c base f scaled drop line slice opnd) := by
  grind [readLine, keeps_eReadAt, keeps_bind, keeps_pure, keeps_get_bind, keeps_mapM]

theorem keeps_mmaCheck (c pA) : KeepsE (mmaCheck c pA) := by
  grind [mmaCheck, keeps_require, keeps_eCounter, keeps_refuse, keeps_bind]

theorem keeps_runMma (c clr pA) : KeepsE (runMma c clr pA) := by
  unfold runMma
  refine keeps_bind (keeps_mmaCheck ..) fun _ => ?_
  dsimp only
  split
  · refine keeps_when_bind (keeps_modify_mem fun s => ?_) fun _ => ?_
    · rw [State.modAcc_mem, State.freshCells_mem]
    split
    · refine keeps_when_bind (keeps_modify_mem fun s => State.accProbe_mem ..) fun _ =>
        keeps_bind (keeps_foldlM (fun bads k => ?_) _ _) fun bads => keeps_bind (keeps_eReplaced ..) fun _ =>
        keeps_modify_mem fun s => State.modAcc_mem ..
      exact keeps_bind (keeps_mapM (fun i => keeps_readLine ..) _) fun rows =>
        keeps_bind (keeps_mapM (fun i => keeps_readLine ..) _) fun cols =>
        keeps_bind (keeps_modify_mem fun s => State.modAcc_mem ..) fun _ => keeps_pure _
    · exact keeps_modify_mem fun s => State.modAcc_mem ..
  · exact keeps_refuse ..

theorem keeps_cellWord (c) : KeepsE (cellWord c) := by
  grind [cellWord, keeps_require, keeps_bind, keeps_pure]

theorem keeps_runMld (c) : KeepsE (runMld c) := by
  unfold runMld
  grind [keeps_cellWord, keeps_eReadP, State.modAcc_mem, State.freshCells_mem, keeps_eReplaced, keeps_bind,
    keeps_pure, keeps_modify, keeps_mapM]

theorem keeps_runMst (c) : KeepsE (runMst c) := by
  grind [runMst, keeps_cellWord, keeps_eMay, State.accProbe_mem, keeps_ePiece, keeps_bind, keeps_get_bind,
    keeps_modify, keeps_forM]

theorem keeps_runMclr (c) : KeepsE (runMclr c) := by
  grind [runMclr, State.modAcc_mem, State.freshCells_mem, keeps_modify]

/-! ### Ropes -/

theorem keeps_hRead (c va n) : KeepsE (hRead c va n) := by
  grind [hRead, keeps_eHome, keeps_eReadAt, keeps_eClean, keeps_bind, keeps_mapM]
theorem keeps_hNat (c va n) : KeepsE (hNat c va n) := by
  grind [hNat, keeps_eHome, keeps_eReadAt, keeps_eClean, keeps_bind, keeps_pure]

theorem keeps_hWrite (c va bytes) : KeepsE (hWrite c va bytes) := by
  grind [hWrite, keeps_eHome, State.probePart_memWf, State.devWrite_memWf, keeps_bind, keeps_get_bind, keeps_set,
    keeps_forM, keeps_throwE]

theorem keeps_hPut (c va n v) : KeepsE (hPut c va n v) := by
  grind [hPut, keeps_hWrite]

theorem keeps_hAtomic (c va n f) : KeepsE (hAtomic c va n f) := by
  grind [hAtomic, keeps_eHome, keeps_eReadAt, keeps_eClean, State.devWrite_memWf, keeps_bind, keeps_pure,
    keeps_modify]

theorem keeps_needClass (c n) : KeepsE (needClass c n) := by
  grind [needClass, keeps_refuse, keeps_pure]
theorem keeps_readElems (c x buf off n) : KeepsE (readElems c x buf off n) := by
  grind [readElems, keeps_require, keeps_hNat, keeps_bind, keeps_pure, keeps_mapM]
theorem keeps_readNode (c addr) : KeepsE (readNode c addr) := by
  grind [readNode, keeps_require, keeps_eHome, keeps_eReadAt, keeps_eClean, keeps_bind, keeps_pure]
theorem keeps_nodeKids (c n) : KeepsE (nodeKids c n) := by
  grind [nodeKids, keeps_readNode, keeps_require, keeps_bind, keeps_pure]
theorem keeps_incRef (c addr) : KeepsE (incRef c addr) := by
  grind [incRef, keeps_hAtomic, keeps_bind, keeps_pure]

theorem keeps_treeKids (c x) : KeepsE (treeKids c x) := by
  unfold treeKids
  grind [keeps_nodeKids, keeps_refuse, keeps_bind, keeps_pure]

theorem keeps_joinTree (c n x y) : KeepsE (joinTree c n x y) := by
  induction n generalizing x y with
  | zero => exact keeps_refuse ..
  | succ n ih => grind [joinTree, keeps_bind, keeps_pure, keeps_treeKids]

theorem keeps_joinRope (c x y) : KeepsE (joinRope c x y) := by
  unfold joinRope
  grind [keeps_joinTree, keeps_bind, keeps_pure]

theorem keeps_splitLo (c n x p) : KeepsE (splitLo c n x p) := by
  induction n generalizing x p with
  | zero => exact keeps_refuse ..
  | succ n ih => grind [splitLo, keeps_bind, keeps_pure, keeps_treeKids, keeps_joinRope]

theorem keeps_splitHi (c n x p) : KeepsE (splitHi c n x p) := by
  induction n generalizing x p with
  | zero => exact keeps_refuse ..
  | succ n ih => grind [splitHi, keeps_bind, keeps_pure, keeps_treeKids, keeps_joinRope]

theorem keeps_ropeLo (c x p) : KeepsE (ropeLo c x p) := by
  unfold ropeLo
  grind [keeps_splitLo, keeps_pure]

theorem keeps_ropeHi (c x p) : KeepsE (ropeHi c x p) := by
  unfold ropeHi
  grind [keeps_splitHi, keeps_pure]

theorem keeps_takeNode (c pool) : KeepsE (takeNode c pool) := by
  unfold takeNode
  refine keeps_bind (keeps_eHome ..) fun sa => keeps_bind (keeps_eReadAt ..) fun y =>
    keeps_bind (keeps_eClean ..) fun l => keeps_bind (keeps_require ..) fun _ => keeps_bind (keeps_require ..) fun _ =>
    keeps_bind (keeps_hNat ..) fun next => keeps_bind (keeps_modify fun s h => State.devWrite_memWf h ..) fun _ =>
    keeps_pure _

theorem keeps_writeNode (c addr kind cls height len left right anchor slots) :
    KeepsE (writeNode c addr kind cls height len left right anchor slots) := by
  grind [writeNode, keeps_hPut]

theorem keeps_buildTree (c k cls x start) : KeepsE (buildTree c k cls x start) := by
  induction x generalizing start with
  | old n => exact keeps_pure _
  | leaf => grind [buildTree, keeps_bind, keeps_pure, keeps_readElems, keeps_takeNode, keeps_writeNode]
  | node => grind [buildTree, keeps_bind, keeps_pure, keeps_takeNode, keeps_writeNode, keeps_incRef]

theorem keeps_buildRope (c k cls x start) : KeepsE (buildRope c k cls x start) := by
  unfold buildRope
  split <;> grind [keeps_incRef, keeps_require, keeps_eHome, keeps_eReadAt, keeps_eClean, keeps_buildTree,
    keeps_bind, keeps_pure]

theorem keeps_openRope (c ph) : KeepsE (openRope c ph) := by
  grind [openRope, keeps_readNode, keeps_bind, keeps_pure]
theorem keeps_oneClass (x y addr) : KeepsE (oneClass x y addr) := by
  grind [oneClass, keeps_refuse, keeps_pure]
theorem keeps_handleLimit (c ph) : KeepsE (handleLimit c ph) := by
  grind [handleLimit, keeps_require, keeps_eReach, keeps_bind, keeps_pure]
theorem keeps_ropeLimits (c) : KeepsE (ropeLimits c) := by
  grind [ropeLimits, keeps_handleLimit, keeps_require, keeps_needClass, keeps_refuse, keeps_bind, keeps_pure]

theorem keeps_finish (c : Cmd) (cls : Option ℕ) {x : Class → E Rope} (hx : ∀ k, KeepsE (x k)) :
    KeepsE (finish c cls x) := by
  unfold finish
  split
  · exact keeps_pure _
  · exact keeps_bind (keeps_needClass ..) fun k => keeps_bind (hx k) fun r => keeps_buildRope ..

theorem keeps_runRcat (c) : KeepsE (runRcat c) := by
  grind [runRcat, keeps_openRope, keeps_oneClass, keeps_finish, keeps_joinRope, keeps_bind]
theorem keeps_runRsplit (c hi) : KeepsE (runRsplit c hi) := by
  grind [runRsplit, keeps_openRope, keeps_require, keeps_finish, keeps_ropeHi, keeps_ropeLo, keeps_bind]

theorem keeps_runRsplice (c) : KeepsE (runRsplice c) := by
  unfold runRsplice
  refine keeps_bind (keeps_openRope ..) fun x => keeps_bind (keeps_openRope ..) fun y =>
    keeps_bind (keeps_require ..) fun _ => keeps_bind (keeps_oneClass ..) fun k => keeps_finish _ _ fun _ => ?_
  exact keeps_bind (keeps_ropeLo ..) fun l => keeps_bind (keeps_joinRope ..) fun m =>
    keeps_bind (keeps_ropeHi ..) fun r => keeps_joinRope ..

theorem keeps_runRleaf (c) : KeepsE (runRleaf c) := by
  grind [runRleaf, keeps_needClass, keeps_buildRope, keeps_bind]

theorem keeps_findElem (c n x i) : KeepsE (findElem c n x i) := by
  induction n generalizing x i with
  | zero => exact keeps_refuse ..
  | succ n ih => grind [findElem, keeps_bind, keeps_pure, keeps_nodeKids]

theorem keeps_runRidx (c) : KeepsE (runRidx c) := by
  grind [runRidx, keeps_readNode, keeps_needClass, keeps_findElem, keeps_bind, keeps_pure]
theorem keeps_runRlen (c) : KeepsE (runRlen c) := by
  grind [runRlen, keeps_readNode, keeps_needClass, keeps_bind, keeps_pure]
theorem keeps_runRref (c) : KeepsE (runRref c) := by
  grind [runRref, keeps_readNode, keeps_require, keeps_incRef, keeps_bind, keeps_pure]

theorem keeps_dropNode (c n addr) : KeepsE (dropNode c n addr) := by
  induction n generalizing addr with
  | zero => exact keeps_refuse ..
  | succ n ih =>
    unfold dropNode
    have htail (x : RNode) (k : Class) : KeepsE (do
        let sa ← eHome c k.pool 9
        let l ← eClean k.pool (← eReadAt c k.pool sa 16)
        hPut c addr 8 0
        hPut c (addr + 0x10) 8 (lineField l 0 8)
        modify fun s => s.devWrite k.pool sa (leBytes 8 addr ++ leBytes 8 (lineField l 8 8 + 1))
        if x.leaf then return 1
        let a ← dropNode c n x.left
        let b ← dropNode c n x.right
        return 1 + a + b) := by
      refine keeps_bind (keeps_eHome ..) fun sa => keeps_bind (keeps_eReadAt ..) fun y =>
        keeps_bind (keeps_eClean ..) fun l => ?_
      grind [keeps_bind, keeps_pure, keeps_hPut, keeps_modify, State.devWrite_memWf]
    refine keeps_bind (keeps_readNode c addr) fun x => keeps_bind (keeps_require ..) fun _ => ?_
    split
    · exact keeps_pure _
    refine keeps_bind (keeps_hAtomic ..) fun _ => ?_
    split
    · exact keeps_pure _
    refine keeps_bind (keeps_needClass ..) fun k => ?_
    dsimp only
    split
    · exact keeps_bind (keeps_nodeKids ..) fun _ => htail x k
    · exact htail x k

theorem keeps_runRdrop (c) : KeepsE (runRdrop c) := by
  grind [runRdrop, keeps_dropNode, keeps_bind, keeps_pure]

theorem keeps_spanOf (c k slot kind start fix n x base first len) :
    KeepsE (spanOf c k slot kind start fix n x base first len) := by
  induction n generalizing x base first len with
  | zero => exact keeps_refuse ..
  | succ n ih =>
    unfold spanOf
    grind [keeps_bind, keeps_pure, keeps_readElems, keeps_nodeKids]

theorem keeps_runRsum (c fix) : KeepsE (runRsum c fix) := by
  grind [runRsum, keeps_hPut, keeps_readNode, keeps_require, keeps_needClass, keeps_spanOf, keeps_bind, keeps_pure]

theorem keeps_walkSpan (c n x base start len cap) : KeepsE (walkSpan c n x base start len cap) := by
  induction n generalizing x base start len cap with
  | zero => exact keeps_refuse ..
  | succ n ih =>
    unfold walkSpan
    grind [keeps_bind, keeps_pure, keeps_nodeKids]

theorem keeps_runRwalk (c) : KeepsE (runRwalk c) := by
  unfold runRwalk
  grind [keeps_hPut, keeps_readNode, keeps_needClass, keeps_require, keeps_walkSpan, keeps_bind, keeps_pure,
    keeps_forM]

theorem keeps_runRclass (c) : KeepsE (runRclass c) := by
  unfold runRclass
  grind [keeps_refuse, State.modCluster_mem, foldl_mem, keeps_bind, keeps_pure, keeps_modify]

/-! ### Key-value caches -/

theorem keeps_readCache (c win base) : KeepsE (readCache c win base) := by
  grind [readCache, keeps_require, keeps_hRead, keeps_bind, keeps_pure]
theorem keeps_readLayer (c k n) : KeepsE (readLayer c k n) := by
  grind [readLayer, keeps_require, keeps_hRead, keeps_bind, keeps_pure]
theorem keeps_readTwice (c va0 va1 n) : KeepsE (readTwice c va0 va1 n) := by
  grind [readTwice, keeps_eHome, keeps_eReadAt, keeps_bind, keeps_pure, keeps_mapM]

theorem keeps_pageNext (c ph page) : KeepsE (pageNext c ph page) := by
  unfold pageNext
  grind [keeps_require, keeps_readTwice, keeps_refuse, keeps_bind, keeps_pure]

theorem keeps_chainPage (c ph n page) : KeepsE (chainPage c ph n page) := by
  induction n generalizing page <;> grind [chainPage, keeps_bind, keeps_pure, keeps_require, keeps_pageNext]
theorem keeps_slotElems (c ph page slot line opnd) : KeepsE (slotElems c ph page slot line opnd) := by
  grind [slotElems, keeps_eHome, keeps_eReadAt, keeps_readTwice, keeps_bind, keeps_pure, keeps_mapM]

theorem keeps_repair (c page off) : KeepsE (repair c page off) := by
  unfold repair
  refine keeps_bind (keeps_eHome ..) fun sa => keeps_get_bind fun s h => ?_
  refine keeps_bind (keeps_set (State.probe_memWf h ..)) fun _ => ?_
  split
  · exact keeps_pure _
  refine keeps_bind (keeps_mapM (fun i => ?_) _) fun l => ?_
  · grind [keeps_eHome, keeps_eReadAt, keeps_bind, keeps_pure]
  · grind [State.devWrite_memWf, keeps_pure, keeps_modify]

theorem keeps_freeBytes : KeepsE freeBytes :=
  keeps_get_bind fun _ _ => keeps_bind (keeps_modify fun _ h => h) fun _ => keeps_pure _
@[simp] theorem State.markTolerant_mem (s : State) (t8 sa n) : (s.markTolerant t8 sa n).mem = s.mem := rfl

theorem keeps_appendRow (c ph page slot src) : KeepsE (appendRow c ph page slot src) := by
  have hpay (va bytes) : KeepsE (do
      hWrite c va bytes
      let sa ← eHome c va 2
      modify fun s => s.markTolerant ph.fmt sa bytes.length) := by
    grind [keeps_hWrite, keeps_eHome, State.markTolerant_mem, keeps_bind, keeps_modify]
  unfold appendRow
  refine keeps_bind (keeps_require ..) fun _ => keeps_bind (keeps_mapM (fun i => keeps_hNat ..) _) fun xs => ?_
  dsimp only
  split
  · refine keeps_bind (keeps_mapM (fun k => keeps_bind keeps_freeBytes fun f => keeps_pure _) _) fun halves =>
      keeps_bind (hpay _ _) fun _ => keeps_bind (keeps_forM (fun k => keeps_forM (fun o => ?_) _) _) fun _ =>
      keeps_pure _
    exact keeps_bind (keeps_repair ..) fun _ => keeps_hPut ..
  · exact keeps_bind (hpay _ _) fun _ => keeps_pure _

theorem keeps_kvUnused (c l) : KeepsE (kvUnused c l) := by
  grind [kvUnused, keeps_require]
theorem keeps_kvLimits (c) : KeepsE (kvLimits c) := by
  grind [kvLimits, keeps_require, keeps_kvUnused, keeps_handleLimit, keeps_bind, keeps_pure, keeps_forM]
theorem keeps_kvappAt (c win) : KeepsE (kvappAt c win) := by
  grind [kvappAt, keeps_readCache, keeps_readLayer, keeps_bind, keeps_pure]

theorem keeps_runKvapp (c win) : KeepsE (runKvapp c win) := by
  grind [runKvapp, keeps_kvappAt, keeps_require, keeps_chainPage, keeps_appendRow, keeps_hAtomic, keeps_bind,
    keeps_pure]

theorem keeps_lastLeaf (c n x) : KeepsE (lastLeaf c n x) := by
  induction n generalizing x with
  | zero => exact keeps_refuse ..
  | succ n ih => grind [lastLeaf, keeps_bind, keeps_pure, keeps_nodeKids]

theorem keeps_runKvcommit (c win) : KeepsE (runKvcommit c win) := by
  unfold runKvcommit
  refine keeps_bind (keeps_readCache ..) fun k => keeps_bind (keeps_forM (fun i => ?_) _) fun _ => ?_
  · exact keeps_bind (keeps_readLayer ..) fun l => keeps_require ..
  dsimp only
  split
  · exact keeps_bind (keeps_hAtomic ..) fun _ => keeps_bind (keeps_hAtomic ..) fun _ => keeps_pure _
  refine keeps_bind (keeps_require ..) fun _ => keeps_bind (keeps_openRope ..) fun root => ?_
  have hout (out : Rope) : KeepsE (do
      let cls ← match root.cls with
        | some m => pure m
        | none => do
          let f ← freeBytes
          pure ((f 0).toNat % 16)
      let d ← buildRope c (← needClass c cls) cls out 0
      let _ ← hAtomic c (k.va + 0x10) 8 fun _ => k.committed + c.field 0x10 8
      return d) := by
    have hbuild (cls : ℕ) : KeepsE (do
        let d ← buildRope c (← needClass c cls) cls out 0
        let _ ← hAtomic c (k.va + 0x10) 8 fun _ => k.committed + c.field 0x10 8
        return d) :=
      keeps_bind (keeps_needClass ..) fun _ => keeps_bind (keeps_buildRope ..) fun _ =>
        keeps_bind (keeps_hAtomic ..) fun _ => keeps_pure _
    dsimp only
    split
    · exact keeps_bind (keeps_pure _) hbuild
    · exact keeps_bind keeps_freeBytes fun f => keeps_bind (keeps_pure _) hbuild
  split
  · refine keeps_bind (keeps_lastLeaf ..) fun last => ?_
    split
    · exact keeps_bind (keeps_splitLo ..) fun l => keeps_bind (keeps_joinRope ..) hout
    · exact keeps_bind (keeps_joinRope ..) hout
  · exact keeps_bind (keeps_pure _) hout

theorem keeps_runKvtrunc (c win) : KeepsE (runKvtrunc c win) := by
  unfold runKvtrunc
  grind [keeps_readCache, keeps_require, keeps_readLayer, keeps_hAtomic, keeps_bind, keeps_pure, keeps_foldlM]

theorem keeps_pieceRow (c buf tok layer kind line opnd d128) :
    KeepsE (pieceRow c buf tok layer kind line opnd d128) := by
  unfold pieceRow
  grind [keeps_readCache, keeps_readLayer, keeps_chainPage, keeps_slotElems, keeps_require, keeps_bind, keeps_pure]

theorem keeps_cleanRow (r) : KeepsE (cleanRow r) := by
  grind [cleanRow, keeps_pure, keeps_throwE]

theorem keeps_setFirst (c k8 n x) : KeepsE (setFirst c k8 n x) := by
  induction n generalizing x with
  | zero => exact keeps_refuse ..
  | succ n ih => cases x <;> grind [setFirst, keeps_bind, keeps_pure, keeps_nodeKids]

theorem keeps_runLinfold (c) : KeepsE (runLinfold c) := by
  unfold runLinfold
  dsimp only
  split
  · exact keeps_pure _
  refine keeps_bind (keeps_readNode ..) fun t => keeps_bind (keeps_require ..) fun _ =>
    keeps_bind (keeps_needClass ..) fun cl => ?_
  split
  · refine keeps_bind (keeps_pure _) fun slot => keeps_bind (keeps_walkSpan ..) fun leaves => ?_
    have hrope : KeepsE (do
        match ← splitHi c 64 (.old t) (c.field 0x10 8) with
        | none => return 0
        | some h =>
          buildRope c cl t.cls (some (← setFirst c (c.field 8 8, wrap64 ((t.slots.getD slot (0,
            0)).2 + c.field 0x10 8)) 64 h)) 0) := by
      grind [keeps_splitHi, keeps_setFirst, keeps_buildRope, keeps_bind, keeps_pure]
    split
    · exact hrope
    refine keeps_bind (keeps_readCache ..) fun k => keeps_bind (keeps_forM (fun layer => ?_) _) fun _ => hrope
    refine keeps_bind (keeps_mapM (fun i => keeps_hNat ..) _) fun x => keeps_bind (keeps_mapM (fun i =>
      keeps_hNat ..) _) fun y =>
      keeps_bind (keeps_foldlM (fun acc e => keeps_foldlM (fun acc i => ?_) _ _) _ _) fun out => ?_
    · exact keeps_bind (keeps_pieceRow ..) fun _ => keeps_bind (keeps_cleanRow _) fun _ =>
        keeps_bind (keeps_pieceRow ..) fun _ => keeps_bind (keeps_cleanRow _) fun _ => keeps_pure _
    · exact keeps_bind (keeps_hWrite ..) fun _ => keeps_bind (keeps_hWrite ..) fun _ =>
        keeps_bind (keeps_hNat ..) fun _ =>
        keeps_hPut ..
  · exact keeps_refuse_bind

theorem keeps_prefPages (c) : KeepsE (prefPages c) := by
  unfold prefPages
  split
  · exact keeps_pure _
  refine keeps_bind (keeps_readNode ..) fun t => keeps_bind (keeps_require ..) fun _ =>
    keeps_bind (keeps_walkSpan ..) fun leaves => keeps_bind (keeps_mapM (fun e => ?_) _) fun _ => keeps_pure _
  refine keeps_bind (keeps_readCache ..) fun k => keeps_bind (keeps_readLayer ..) fun l =>
    keeps_bind (keeps_mapM (fun kind => keeps_mapM (fun i => ?_) _) _) fun _ => keeps_pure _
  exact keeps_bind (keeps_chainPage ..) fun _ => keeps_eHome ..

theorem keeps_runPref (c) : KeepsE (runPref c) := by
  unfold runPref
  refine keeps_get_bind fun s h => ?_
  split
  · refine keeps_bind (keeps_modify fun s h => ?_) fun _ => keeps_pure _
    exact foldl_memWf (fun s pa h => foldl_memWf (fun s i h =>
      State.l2Put_memWf (State.fillProbe_memWf h ..) ..) _ h) _ h
  · exact keeps_pure _

/-! ### Attention -/

theorem keeps_masksetLimits (c) : KeepsE (masksetLimits c) := by
  grind [masksetLimits, keeps_require, keeps_eReach, keeps_bind]
theorem keeps_maskBlock (c) : KeepsE (maskBlock c) := by
  grind [maskBlock, keeps_eRead, keeps_require, keeps_bind, keeps_pure]
theorem keeps_runMaskset (c) : KeepsE (runMaskset c) := by
  grind [runMaskset, keeps_maskBlock, State.modAcc_mem, keeps_bind, keeps_modify]

theorem keeps_attnDesc (c src) : KeepsE (attnDesc c src) := by
  unfold attnDesc
  iterate 8 refine keeps_bind (keeps_require ..) fun _ => ?_
  exact keeps_pure _

theorem keeps_attnKeys (c src x) : KeepsE (attnKeys c src x) := by
  unfold attnKeys
  dsimp only
  split
  · exact keeps_pure _
  · refine keeps_bind (keeps_readCache ..) fun k => keeps_bind (keeps_require ..) fun _ =>
      keeps_bind (keeps_readLayer ..) fun l => keeps_bind (keeps_require ..) fun _ => keeps_pure _
  split
  · exact keeps_pure _
  refine keeps_bind (keeps_readNode ..) fun t => keeps_bind (keeps_require ..) fun _ =>
    keeps_bind (keeps_walkSpan ..) fun leaves => keeps_bind (keeps_forM (fun e => ?_) _) fun _ => ?_
  · exact keeps_bind (keeps_readCache ..) fun k => keeps_bind (keeps_require ..) fun _ =>
      keeps_bind (keeps_readLayer ..) fun l => keeps_pure _
  · grind [keeps_findElem, keeps_bind, keeps_pure]

theorem keeps_keyRow (c x ks kind pos line) : KeepsE (keyRow c x ks kind pos line) := by
  unfold keyRow
  grind [keeps_eReadAt, keeps_chainPage, keeps_slotElems, keeps_refuse, keeps_pieceRow, keeps_bind, keeps_pure]

theorem keeps_queryRows (c x) : KeepsE (queryRows c x) := by
  grind [queryRows, keeps_readLine, keeps_bind, keeps_pure, keeps_mapM]

theorem keeps_attnTile (c x ks theta ty n) : KeepsE (attnTile c x ks theta ty n) := by
  unfold attnTile
  grind [keeps_queryRows, keeps_keyRow, State.accProbe_mem, State.modAcc_mem, keeps_eReplaced, keeps_bind,
    keeps_pure, keeps_get_bind, keeps_modify, keeps_mapM]

theorem keeps_attnDrain (c x lstate) : KeepsE (attnDrain c x lstate) := by
  grind [attnDrain, keeps_eNat, keeps_queryRows, State.modAcc_mem, State.accProbe_mem, keeps_eReplaced, keeps_bind,
    keeps_pure, keeps_modify, keeps_mapM]

theorem keeps_attnCheck (c last src) : KeepsE (attnCheck c last src) := by
  unfold attnCheck
  refine keeps_bind (keeps_attnDesc ..) fun x => keeps_bind (keeps_attnKeys ..) fun k =>
    keeps_bind (keeps_eCounter _) fun _ => ?_
  refine keeps_when_bind_bind (keeps_require ..) (fun _ => keeps_forM (fun i => keeps_eReach ..) _) fun _ => ?_
  exact keeps_when_bind (keeps_forM (fun i => keeps_eReach ..) _) fun _ => keeps_pure _

theorem keeps_attnBegin (c last first src) : KeepsE (attnBegin c last first src) := by
  grind [attnBegin, keeps_attnCheck, State.modAcc_mem, State.freshCells_mem, keeps_eNat, keeps_bind, keeps_pure,
    keeps_modify, keeps_mapM]

theorem attnTiles_memWf (h : s.MemWf) (c x ks theta n q k) : (attnTiles c x ks theta n q k s).2.MemWf := by
  induction n generalizing s q k with
  | zero => exact h
  | succ n ih =>
    have ht := (keeps_attnTile c x ks theta q k).run s h
    unfold attnTiles
    split <;> rename_i hr <;> rw [hr] at ht
    · exact ih ht _ _
    · exact h

theorem runAttn_memWf (h : s.MemWf) (c last first src) : (runAttn c last first src s).2.MemWf := by
  have hfin (x : AttnDesc) (lstate : ℕ) : KeepsE (do
        if last then attnDrain c x lstate
        modify fun s => s.modAcc c.cluster x.slot fun a => { a with tag := c.tag }) := by
    grind [State.modAcc_mem, keeps_attnDrain, keeps_bind, keeps_modify]
  unfold runAttn
  split
  · exact h
  · next x ks lstate theta s1 hr =>
    have h1 := (keeps_attnBegin c last first src).ok h hr
    dsimp only
    have ht := attnTiles_memWf h1 c x ks theta
      (if x.count = 0 then 0 else (x.start + x.count - x.start / 128 * 128 + 127) / 128)
      (x.start / 128 * 128) 0
    split <;> rename_i hr <;> rw [hr] at ht
    · exact ht
    · exact h
    · next s2 =>
      have hf := (hfin x lstate).run s2 ht
      split <;> rename_i hr <;> rw [hr] at hf
      · exact hf
      · exact ht
      · exact h

/-! ### Incremental queues -/

theorem keeps_uPut (c va n v) : KeepsE (uPut c va n v) := by
  refine keeps_forM (fun p => keeps_bind (keeps_eSpot ..) fun q => ?_) _
  dsimp only
  split
  · next sa =>
    refine keeps_get_bind fun s h => ?_
    have hp := State.probePart_memWf h p.1 sa p.2.length
    split <;> rename_i hr <;> rw [hr] at hp
    · exact keeps_throwE_bind
    · exact keeps_bind (keeps_set hp) fun _ => keeps_ePiece ..
  · exact keeps_ePiece ..

theorem keeps_holdBit (c va bit) : KeepsE (holdBit c va bit) := by
  unfold holdBit
  grind [keeps_eSpot, keeps_eReadAt, keeps_eClean, State.spotWrite_memWf, keeps_eAsk, keeps_bind, keeps_get_bind,
    keeps_modify, keeps_throwE_bind]

theorem keeps_queueHome (c va) : KeepsE (queueHome c va) := by
  grind [queueHome, keeps_require, keeps_eHome, keeps_bind, keeps_pure]

theorem keeps_openQueue (c va) : KeepsE (openQueue c va) := by
  unfold openQueue
  refine keeps_bind (keeps_queueHome ..) fun _ => keeps_bind (keeps_eNat ..) fun n =>
    keeps_bind (keeps_require ..) fun _ =>
    keeps_bind (keeps_holdBit ..) fun _ => keeps_bind (keeps_eRead ..) fun l => keeps_bind (keeps_require ..) fun _ =>
    keeps_bind (keeps_require ..) fun _ => keeps_bind (keeps_require ..) fun _ => keeps_pure _

theorem keeps_closeQueue (c q₀ q) : KeepsE (closeQueue c q₀ q) := by
  grind [closeQueue, keeps_uPut, keeps_bind, keeps_pure]
theorem keeps_readRec (c q i) : KeepsE (readRec c q i) := by
  grind [readRec, keeps_eRead, keeps_require, keeps_bind, keeps_pure]
theorem keeps_setRec (c q i r) : KeepsE (setRec c q i r) := by
  grind [setRec, keeps_uPut]

theorem keeps_consolidate (c q) : KeepsE (consolidate c q) := by
  unfold consolidate
  split
  · exact keeps_pure _
  refine keeps_bind (keeps_mapM (fun k => keeps_bind (keeps_readRec ..) fun r => keeps_pure _) _) fun all =>
    keeps_bind (keeps_forM (fun p => ?_) _) fun _ => keeps_pure _
  split
  · exact keeps_pure _
  · exact keeps_setRec ..

theorem keeps_findRec (c q x n i) : KeepsE (findRec c q x n i) := by
  induction n generalizing i with
  | zero => exact keeps_pure _
  | succ n ih =>
    unfold findRec
    refine keeps_bind (keeps_readRec ..) fun y => ?_
    split
    · exact keeps_pure _
    · exact ih _

theorem keeps_mergeRec (c q r) : KeepsE (mergeRec c q r) := by
  grind [mergeRec, keeps_findRec, keeps_setRec, keeps_bind, keeps_pure]

theorem keeps_putRecs (c l q n) : KeepsE (putRecs c l q n) := by
  induction l generalizing q n with
  | nil => exact keeps_pure _
  | cons x l ih =>
    have hput (z : Option Queue) : KeepsE (match z with
        | some q => putRecs c l q (n + 1)
        | none => do
          if q.count = q.cap then return (q, n)
          uPut c (q.slot q.tail) 32 x.number
          let q := { q with tail := (q.tail + 1) % 2 ^ 64, live := (q.live + 1) % 2 ^ 32 }
          let q ← if q.cphalf && q.live = q.cap / 2 then do pure (← consolidate c q).1 else pure q
          putRecs c l q (n + 1)) := by
      split
      · exact ih _ _
      dsimp only
      split
      · exact keeps_pure _
      refine keeps_bind (keeps_uPut ..) fun _ => ?_
      split
      · exact keeps_bind (keeps_consolidate ..) fun _ => keeps_bind (keeps_pure _) fun _ => ih _ _
      · exact keeps_bind (keeps_pure _) fun _ => ih _ _
    unfold putRecs
    split
    · exact ih _ _
    dsimp only
    split
    · exact keeps_bind (keeps_mergeRec ..) hput
    · exact keeps_bind (keeps_pure _) hput

theorem keeps_recArea (c) : KeepsE (recArea c) := by
  grind [recArea, keeps_require, keeps_bind, keeps_pure]
theorem keeps_waveField (c) : KeepsE (waveField c) := by
  grind [waveField, keeps_require, keeps_bind, keeps_pure]
theorem keeps_bindAddr (c) : KeepsE (bindAddr c) := by
  grind [bindAddr, keeps_require, keeps_bind, keeps_pure]

theorem keeps_iqLimits (c) : KeepsE (iqLimits c) := by
  grind [iqLimits, keeps_require, keeps_eReach, keeps_recArea, keeps_waveField, keeps_bindAddr, keeps_bind,
    keeps_pure]

theorem keeps_runIqput (c) : KeepsE (runIqput c) := by
  unfold runIqput
  refine keeps_bind (keeps_recArea _) fun r => keeps_bind (keeps_openQueue ..) fun q =>
    keeps_bind (keeps_mapM (fun k => ?_) _) fun rs => ?_
  · exact keeps_bind (keeps_eRead ..) fun l => keeps_bind (keeps_require ..) fun _ =>
      keeps_bind (keeps_require ..) fun _ => keeps_pure _
  · exact keeps_bind (keeps_putRecs ..) fun r => keeps_bind (keeps_closeQueue ..) fun _ => keeps_pure _

theorem keeps_runIqwave (c) : KeepsE (runIqwave c) := by
  unfold runIqwave
  refine keeps_bind (keeps_waveField _) fun w => keeps_bind (keeps_openQueue ..) fun q =>
    keeps_bind (keeps_require ..) fun _ => ?_
  split
  · exact keeps_pure _
  refine keeps_bind (keeps_uPut ..) fun _ => ?_
  have hclose (q' : Queue) : KeepsE (do closeQueue c q q'; return (1 : Word)) :=
    keeps_bind (keeps_closeQueue ..) fun _ => keeps_pure _
  dsimp only
  split
  · exact keeps_bind (keeps_consolidate ..) fun r => keeps_bind (keeps_pure _) hclose
  · exact keeps_bind (keeps_pure _) hclose

theorem keeps_runIqcons (c) : KeepsE (runIqcons c) := by
  grind [runIqcons, keeps_openQueue, keeps_consolidate, keeps_closeQueue, keeps_bind, keeps_pure]

theorem keeps_takeRecs (c dst cap n q k) : KeepsE (takeRecs c dst cap n q k) := by
  induction n generalizing q k with
  | zero => exact keeps_pure _
  | succ n ih => grind [takeRecs, keeps_bind, keeps_pure, keeps_readRec, keeps_uPut]

theorem keeps_runIqget (c wait) : KeepsE (runIqget c wait) := by
  grind [runIqget, keeps_recArea, keeps_openQueue, keeps_takeRecs, keeps_closeQueue, keeps_bind, keeps_pure]

theorem keeps_runIqbind (c) : KeepsE (runIqbind c) := by
  unfold runIqbind
  refine keeps_bind (keeps_bindAddr _) fun va => keeps_bind (keeps_queueHome ..) fun _ =>
    keeps_bind (keeps_eNat ..) fun n =>
    keeps_when_bind (keeps_holdBit ..) fun _ => keeps_bind (keeps_eNat ..) fun w =>
    keeps_bind (keeps_eNat ..) fun ring =>
    keeps_bind (keeps_eNat ..) fun first => keeps_bind (keeps_eNat ..) fun z => ?_
  iterate 3 refine keeps_bind (keeps_require ..) fun _ => ?_
  iterate 6 refine keeps_bind (keeps_uPut ..) fun _ => ?_
  exact keeps_pure _

theorem keeps_stageQueues (c va) : KeepsE (stageQueues c va) := by
  grind [stageQueues, keeps_require, keeps_eRead, keeps_bind, keeps_pure]

theorem keeps_runIqbindStage (c) : KeepsE (runIqbindStage c) := by
  unfold runIqbindStage
  grind [keeps_bindAddr, keeps_stageQueues, keeps_queueHome, keeps_eNat, keeps_require, keeps_bind, keeps_pure,
    keeps_forM]

theorem keeps_runIqquiet (c) : KeepsE (runIqquiet c) := by
  unfold runIqquiet
  refine keeps_bind (keeps_stageQueues ..) fun r =>
    keeps_bind (keeps_mapM (fun va => keeps_bind (keeps_openQueue ..) fun q => ?_) _) fun is =>
    keeps_bind (keeps_mapM (fun va => keeps_openQueue ..) _) fun os => keeps_pure _
  exact keeps_bind (keeps_mapM (fun k => keeps_readRec ..) _) fun rs => keeps_pure _

theorem keeps_link (a x) : KeepsE (link a x) := by
  grind [link, keeps_require, keeps_bind, keeps_pure]

theorem keeps_openArr (c va) : KeepsE (openArr c va) := by
  unfold openArr
  grind [keeps_require, keeps_holdBit, keeps_eRead, keeps_link, keeps_bind, keeps_pure]

theorem keeps_readEntry (c a x) : KeepsE (readEntry c a x) := by
  grind [readEntry, keeps_eRead, keeps_require, keeps_link, keeps_bind, keeps_pure]

theorem keeps_chain (c a until' n i) : KeepsE (chain c a until' n i) := by
  induction n generalizing i with
  | zero => grind [chain, keeps_pure, keeps_refuse]
  | succ n ih => grind [chain, keeps_bind, keeps_pure, keeps_readEntry]

theorem keeps_runIqprobe (c) : KeepsE (runIqprobe c) := by
  unfold runIqprobe
  grind [keeps_openArr, keeps_eNat, keeps_link, keeps_chain, keeps_uPut, keeps_bind, keeps_pure, keeps_forM]

theorem keeps_runIqupd (c) : KeepsE (runIqupd c) := by
  unfold runIqupd
  refine keeps_bind (keeps_openArr ..) fun a => keeps_bind (keeps_eNat ..) fun n =>
    keeps_bind (keeps_link ..) fun first =>
    keeps_bind (keeps_chain ..) fun l => ?_
  dsimp only
  split
  · split
    · refine keeps_bind (keeps_require ..) fun _ => keeps_bind (keeps_link ..) fun i =>
        keeps_bind (keeps_readEntry ..) fun x => ?_
      iterate 4 refine keeps_bind (keeps_uPut ..) fun _ => ?_
      exact keeps_pure _
    · exact keeps_pure _
  · next x _ =>
    have hfree : KeepsE (do
        uPut c (a.entry x.no + 0x18) 8 (← link a a.free)
        uPut c (a.va + 0x20) 4 x.no
        uPut c (a.va + 0x28) 4 ((a.live + 2 ^ 32 - 1) % 2 ^ 32)
        return wordN x.mult) :=
      keeps_bind (keeps_link ..) fun _ => keeps_bind (keeps_uPut ..) fun _ => keeps_bind (keeps_uPut ..) fun _ =>
        keeps_bind (keeps_uPut ..) fun _ => keeps_pure _
    split
    · split
      · split
        · exact keeps_bind (keeps_uPut ..) fun _ => hfree
        · exact keeps_bind (keeps_uPut ..) fun _ => hfree
      · exact keeps_bind (keeps_uPut ..) fun _ => keeps_pure _
    · exact keeps_pure _

/-! ### An engine's event -/

theorem keeps_precheck (c : Cmd) : KeepsE c.precheck := by
  grind [Cmd.precheck, keeps_refuse, keeps_require, keeps_eCounter, keeps_mmaCheck, keeps_cellWord,
    keeps_masksetLimits, keeps_attnDesc, keeps_ropeLimits, keeps_kvLimits, keeps_iqLimits, keeps_bind, keeps_pure]

theorem keeps_look (c : Cmd) : KeepsE c.look := by
  have hlayers (k : Cache) {f : ℕ → Layer → E Unit} (hf : ∀ i l, KeepsE (f i l)) :
      KeepsE ((List.range k.layers).forM fun i => do f i (← readLayer c k i)) :=
    keeps_forM (fun i => keeps_bind (keeps_readLayer ..) (hf i)) _
  have hpages (k : Cache) (i : ℕ) (l : Layer) (n : ℕ) : KeepsE ([1, 2].forM fun kind => do
      let _ ← chainPage c (k.chain l i kind) n (k.chain l i kind).first) :=
    keeps_forM (fun kind => keeps_bind (keeps_chainPage ..) fun _ => keeps_pure _) _
  unfold Cmd.look
  dsimp only
  split
  · exact keeps_bind (keeps_maskBlock _) fun _ => keeps_pure _
  · exact keeps_bind (keeps_attnCheck ..) fun _ => keeps_pure _
  · refine keeps_bind (keeps_kvappAt ..) fun r => ?_
    split
    · exact hpages _ _ _ _
    · exact keeps_pure _
  · exact keeps_bind (keeps_readCache ..) fun k => hlayers k fun _ _ => keeps_pure _
  · exact keeps_bind (keeps_readCache ..) fun k => hlayers k fun _ _ => keeps_pure _
  · split
    · refine keeps_bind (keeps_readNode ..) fun t => keeps_bind (keeps_walkSpan ..) fun leaves =>
        keeps_forM (fun e => keeps_bind (keeps_readCache ..) fun k => hlayers k fun i l => ?_) _
      split
      · exact keeps_pure _
      · exact hpages _ _ _ _
    · exact keeps_pure _
  · exact keeps_pure _

theorem keeps_body (c : Cmd) : KeepsE c.body := by
  grind [Cmd.body, keeps_runMma, keeps_runMld, keeps_runMst, keeps_runMclr, keeps_runMaskset, keeps_runKvapp,
    keeps_runKvcommit, keeps_runKvtrunc, keeps_runLinfold, keeps_runPref, keeps_runRcat, keeps_runRsplit,
    keeps_runRsplice, keeps_runRleaf, keeps_runRidx, keeps_runRsum, keeps_runRlen, keeps_runRref, keeps_runRdrop,
    keeps_runRwalk, keeps_runRclass, keeps_runIqput, keeps_runIqget, keeps_runIqwave, keeps_runIqcons,
    keeps_runIqbind, keeps_runIqbindStage, keeps_runIqprobe, keeps_runIqupd, keeps_runIqquiet, keeps_bind,
    keeps_pure]

theorem State.runCmd_memWf (h : s.MemWf) (c) : (s.runCmd c).2.MemWf := by
  have hb := (keeps_body c).run s h
  grind [State.runCmd, Xfer.run_memWf, runAttn_memWf]

@[simp] theorem State.dropCmd_mem (s : State) (c refused) : (s.dropCmd c refused).mem = s.mem := by
  unfold State.dropCmd
  split <;> rfl

theorem State.atSlot_memWf (h : s.MemWf) (c k) {f : State → State} (hf : ∀ s : State, s.MemWf → (f s).MemWf) :
    (s.atSlot c k f).MemWf :=
  hf _ h

theorem State.giveResult_mem {c k dst v} (e : s.giveResult c k dst v = some t) : t.mem = s.mem := by
  unfold State.giveResult at e
  grind [State.modSlot_mem, State.nqCross_mem, State.modCore_mem]

theorem State.refusalTrap_memWf (h : s.MemWf) (c k info gseq addr pc) :
    (s.refusalTrap c k info gseq addr pc).MemWf := by
  grind [State.refusalTrap, State.atSlot_memWf, State.modCur_mem, State.releaseUpTo_mem, State.takeTrapAt_memWf]

theorem State.deliver_memWf {c v} (h : s.MemWf) (e : s.deliver c v = some t) : t.MemWf := by
  unfold State.deliver at e
  grind [State.giveResult_mem, State.modSlot_mem, State.dropCmd_mem, State.refusalTrap_memWf, State.mapDens_mem]

theorem State.finishCmd_memWf (h : s.MemWf) (c v) : (s.finishCmd c v).MemWf := by
  unfold State.finishCmd
  extract_lets s1
  have h1 : s1.MemWf := by rwa [State.MemWf, State.modCmd_mem]
  split
  · exact getD_memWf h1 fun t e => State.deliver_memWf h1 e
  · rwa [State.MemWf, State.dropCmd_mem]

theorem State.refuseCmd_memWf (h : s.MemWf) (c reason addr) : (s.refuseCmd c reason addr).MemWf := by
  unfold State.refuseCmd
  extract_lets c' s1
  have h1 : s1.MemWf := by rwa [State.MemWf, State.modCmd_mem]
  have hc := (keeps_eCount c' c'.a.toNat (1 + 2 ^ 48)).run s1 h1
  clear_value c' s1
  split
  · exact h1
  split
  · exact State.finishCmd_memWf h1 ..
  split
  · split <;> rename_i hr <;> rw [hr] at hc
    · rwa [State.MemWf, State.dropCmd_mem]
    · rwa [State.MemWf, State.dropCmd_mem]
    · exact State.holdCmd_memWf h1 ..
  · rwa [State.MemWf, State.dropCmd_mem]

theorem State.endCmd_memWf (h : s.MemWf) (c v part) : (s.endCmd c v part).MemWf := by
  unfold State.endCmd
  extract_lets c' s1
  have h1 : s1.MemWf := by rwa [State.MemWf, State.modCmd_mem]
  have hc := (keeps_eCount c' c'.a.toNat 1).run s1 h1
  clear_value c' s1
  split
  · exact h1
  split
  · split <;> rename_i hr <;> rw [hr] at hc
    · exact State.finishCmd_memWf hc ..
    · exact State.refuseCmd_memWf h1 ..
    · exact State.holdCmd_memWf h1 ..
  · exact State.finishCmd_memWf h1 ..

theorem State.runOn_memWf (h : s.MemWf) (c) : (s.runOn c).MemWf := by
  grind [State.runOn, State.runCmd_memWf, State.modCmd_mem, State.endCmd_memWf, State.refuseCmd_memWf,
    State.holdCmd_memWf]

theorem State.screen_memWf (h : s.MemWf) (id) : (s.screen id).MemWf := by
  grind [State.screen, State.refuseCmd_memWf, State.drawBit_mem]

theorem State.advance_memWf (h : s.MemWf) (c) : (s.advance c).MemWf := by
  grind [State.advance, State.screen_memWf, State.checkOrph_mem, State.readDesc_memWf, State.refuseCmd_memWf,
    State.runOn_memWf, State.modCmd_mem]

theorem execEngineCompletion_memWf {cluster u} (h : s.MemWf) (e : execEngineCompletion cluster u s = .next t) :
    t.MemWf := by
  unfold execEngineCompletion at e
  dsimp only at e
  split at e
  · next hf =>
    cases e
    exact findSome_memWf (fun c t hc => by grind [State.deliver_memWf]) hf
  · grind [State.advance_memWf]

theorem execIqgetWaitServe_memWf {cluster n} (h : s.MemWf) (e : execIqgetWaitServe cluster n s = .next t) :
    t.MemWf := by
  grind [execIqgetWaitServe, State.advance_memWf]

/-! ### The occupancy monitor -/

theorem execPoolid_memWf {g d} (h : s.MemWf) (e : execPoolid g d s = .next t) : t.MemWf := by
  refine issueStrand_memWf ?_ h e
  grind [keeps_writeReg, keeps_bind, keeps_pure, keeps_get_bind]

theorem State.counter_memWf (h : s.MemWf) (k dom i) : (s.counter k dom i).2.2.MemWf := by
  grind [State.counter, State.devResolve_memWf, State.probe_memWf, State.poisonMet_memWf, State.devRead_memWf]
theorem State.setPadField_memWf (h : s.MemWf) (off k v) : (s.setPadField off k v).MemWf := by
  grind [State.setPadField, State.devWrite_memWf]

theorem probes_memWf {l : List ℕ} {r : Option ℕ × State} (h : r.2.MemWf) : (l.foldl (fun (r : Option Nat × State) o =>
    let p := r.2.probe (some (scratchBase + o)) (scratchBase + o) 16
    (r.1.or p.1, p.2)) r).2.MemWf := by
  induction l generalizing r with
  | nil => exact h
  | cons o l ih => exact ih (State.probe_memWf h ..)

theorem State.padClear_memWf (h : s.MemWf) (k offs w) : (s.padClear k offs w).2.MemWf := by
  have hp := probes_memWf (l := offs) (r := (none, s)) h
  grind [State.padClear, State.poisonMet_memWf]

theorem State.moveRecord_memWf (h : s.MemWf) (r head) : (s.moveRecord r head).MemWf := by
  grind [State.moveRecord, State.setPadField_memWf]
theorem State.preempt_memWf (h : s.MemWf) (k table off action) : (s.preempt k table off action).2.MemWf := by
  grind [State.preempt, State.padClear_memWf, State.modCluster_mem, State.moveRecord_memWf]
theorem State.pressed_memWf (h : s.MemWf) (k) : (s.pressed k).2.MemWf := by
  grind [State.pressed, State.counter_memWf]
theorem State.chooseVictim_memWf (h : s.MemWf) (k) : (s.chooseVictim k).2.MemWf := by
  grind [State.chooseVictim, State.padClear_memWf, State.modCluster_mem, State.preempt_memWf]
theorem State.takeNamed_memWf (h : s.MemWf) (k addr action) : (s.takeNamed k addr action).2.MemWf := by
  grind [State.takeNamed, State.preempt_memWf]
theorem State.victimNamed_memWf (h : s.MemWf) (k addr action) : (s.victimNamed k addr action).MemWf := by
  grind [State.victimNamed, State.takeNamed_memWf, State.modCluster_mem]
theorem State.retryNamed_memWf (h : s.MemWf) (k) : (s.retryNamed k).MemWf := by
  grind [State.retryNamed, State.victimNamed_memWf, State.modCluster_mem, foldl_memWf]

theorem execOmTurn_memWf {cluster} (h : s.MemWf) (e : execOmTurn cluster s = .next t) : t.MemWf := by
  grind [execOmTurn, State.retryNamed_memWf, State.modCluster_mem, State.pressed_memWf, State.post_memWf,
    State.chooseVictim_memWf]

/-! ### Launch records and pages -/

theorem State.lqPost_memWf (h : s.MemWf) (p) : (s.lqPost p).MemWf := by
  grind [State.lqPost, State.post_memWf]
theorem State.lqRetry_memWf (h : s.MemWf) : s.lqRetry.MemWf := by
  grind [State.lqRetry, State.lqPost_memWf]

@[simp] theorem State.markReady_mem (s : State) (q) : (s.markReady q).mem = s.mem := by
  unfold State.markReady
  split <;> rfl

theorem State.lqSettle_memWf (old : State) (h : s.MemWf) : (old.lqSettle s).MemWf := by
  grind [State.lqSettle, State.lqPost_memWf, foldl_memWf]
theorem State.wakeForeign_memWf (h : s.MemWf) (p) : (s.wakeForeign p).MemWf := by
  grind [State.wakeForeign, State.sendPeer_memWf, foldl_memWf]
theorem State.pageServed_memWf (h : s.MemWf) (f) : (s.pageServed f).MemWf := by
  grind [State.pageServed, State.mapKept_mem, State.wakeForeign_memWf, State.wakeWhere_memWf]
theorem execPageService_memWf {va} (h : s.MemWf) (e : execPageService va s = .next t) : t.MemWf := by
  grind [execPageService, State.putPhys_memWf, State.pageServed_memWf]
theorem State.dropLines_memWf (h : s.MemWf) (p) : (s.dropLines p).MemWf := by
  grind [State.dropLines, State.mergeWhere_memWf, State.writeBack_memWf, foldl_memWf]
@[simp] theorem State.dropXlats_mem (s : State) (va b) : (s.dropXlats va b).mem = s.mem := rfl
@[simp] theorem State.flagPage_mem (s : State) (p) : (s.flagPage p).mem = s.mem := rfl
theorem State.invalidatePage_memWf (h : s.MemWf) (va) : (s.invalidatePage va).MemWf := by
  grind [State.invalidatePage, State.mapKept_mem, State.flagPage_mem, State.dropXlats_mem, State.dropLines_memWf]
theorem State.switchHome_memWf (h : s.MemWf) (i v) : (s.switchHome i v).MemWf := by
  grind [State.switchHome, State.dropLines_memWf]
theorem Memory.wf_copyRange {m : Memory} (h : m.wf = true) (src dst n) : (m.copyRange src dst n).wf = true :=
  foldl_memory_wf (fun _ _ h => Memory.wf_write h ..) _ (Memory.wf_filter h _)
theorem State.landLate_memWf (h : s.MemWf) (frame) : (s.landLate frame).MemWf := by
  grind [State.landLate, State.spotPut_memWf, foldl_memWf]

theorem State.movePage_memWf (h : s.MemWf) (va src dst) : (s.movePage va src dst).MemWf := by
  unfold State.movePage
  have hd := State.dropLines_memWf (State.landLate_memWf h src) fun l => 256 * l / frameSize == va / frameSize
  have hm := Memory.wf_copyRange (src := src) (dst := dst) (n := frameSize)
    (State.probe_memWf hd (some va) src frameSize)
  grind [State.mapKept_mem, State.dropXlats_mem, State.putPhys_memWf, State.keepOld_mem]

theorem State.tableWord_memWf (h : s.MemWf) (va) : (s.tableWord va).2.MemWf := by
  grind [State.tableWord, State.devResolve_memWf, State.devRead_memWf]
theorem State.takeFrame_memWf {stack} {y} (h : s.MemWf) (e : s.takeFrame stack = some (y, t)) : t.MemWf := by
  grind [State.takeFrame, State.tableWord_memWf, State.probe_memWf, State.devWrite_memWf]
theorem State.giveFrame_memWf (h : s.MemWf) (f) : (s.giveFrame f).MemWf := by
  grind [State.giveFrame, State.tableWord_memWf, State.devWrite_memWf, State.putPhys_memWf]
theorem State.addMig_memWf (h : s.MemWf) (va stack asked either) : (s.addMig va stack asked either).MemWf := by
  grind [State.addMig]
theorem State.requestMove_memWf (h : s.MemWf) (v) : (s.requestMove v).MemWf := by
  grind [State.requestMove, State.addMig_memWf]

theorem execPageMigration_memWf {die} (h : s.MemWf) (e : execPageMigration die s = .next t) : t.MemWf := by
  unfold execPageMigration at e
  dsimp only at e
  split at e
  · cases e; exact h
  split at e
  · cases e; exact h
  split at e
  · grind
  split at e
  · next hf =>
    have hm := fun va a b =>
      State.giveFrame_memWf (State.movePage_memWf (State.takeFrame_memWf (by exact h) hf) va a b) a
    grind
  · grind

theorem execMigrationEpoch_memWf {die} (h : s.MemWf) (e : execMigrationEpoch die s = .next t) : t.MemWf := by
  grind [execMigrationEpoch, State.post_memWf, State.addMig_memWf, State.modDie_mem, foldl_memWf]

/-! ### Launch queues and packets -/

theorem State.parserSpot_memWf (h : s.MemWf) (dom need va ask) : (s.parserSpot dom need va ask).2.MemWf := by
  grind [State.parserSpot, State.devSpot_memWf, State.drawBit_mem, State.sendPeer_memWf, foldl_memWf]

theorem State.parserRead_memWf (h : s.MemWf) (d va n) : (s.parserRead d va n).2.MemWf := by
  unfold State.parserRead
  grind [State.spotRead_memWf, State.probe_memWf]

theorem State.awaitPage_memWf (h : s.MemWf) (va) : (s.awaitPage va).MemWf := by
  grind [State.awaitPage, State.faultOn_memWf]

theorem State.counterAtomic_memWf (h : s.MemWf) (dom i add v) : (s.counterAtomic dom i add v).2.MemWf := by
  grind [State.counterAtomic, State.parserSpot_memWf, State.spotRead_memWf, State.probe_memWf, State.spotWrite_memWf,
    State.awaitPage_memWf]

@[simp] theorem State.dropPkt_mem (s : State) (q) : (s.dropPkt q).mem = s.mem := rfl
@[simp] theorem State.setPkt_mem (s : State) (p) : (s.setPkt p).mem = s.mem := rfl
theorem State.pktWaits_memWf (h : s.MemWf) (p va) : (s.pktWaits p va).MemWf := by
  grind [State.pktWaits, State.awaitPage_memWf, State.setPkt_mem]
@[simp] theorem State.completePkt_mem (s : State) (q) : (s.completePkt q).mem = s.mem := by
  grind [State.completePkt, State.dropPkt_mem, State.markReady_mem]
@[simp] theorem State.retryPkt_mem (s : State) (q) : (s.retryPkt q).mem = s.mem := by
  grind [State.retryPkt, State.markReady_mem, State.dropPkt_mem]
theorem State.faultyPkt_memWf (h : s.MemWf) (q va reason) : (s.faultyPkt q va reason).MemWf := by
  grind [State.faultyPkt, State.post_memWf, State.setPkt_mem]
@[simp] theorem State.startedPkt_mem (s : State) (q) : (s.startedPkt q).mem = s.mem := rfl

theorem State.startHead_memWf {q} {f : State → Pkt → List Byte → Option State}
    (hf : ∀ s p b t, s.MemWf → f s p b = some t → t.MemWf) (h : s.MemWf) (e : s.startHead q f = .next t) : t.MemWf := by
  have hs := State.parserSpot_memWf h (s.lqDom q) 1 (s.pktVa q) (peerLoads 64 (s.pktVa q))
  have hb (u : State) (hu : u.MemWf) : (if u.reading q then u else u.startedPkt q).MemWf := by
    grind [State.startedPkt_mem]
  unfold State.startHead at e
  split at e
  · cases e; exact h
  dsimp only at e
  split at e
  · cases e
    exact State.faultyPkt_memWf h ..
  split at e <;> rename_i hr <;> rw [hr] at hs
  · cases e
    exact State.faultyPkt_memWf hs ..
  · cases e
    exact State.lqSettle_memWf _ (State.pktWaits_memWf (hb _ hs) ..)
  · have hp (d) := State.parserRead_memWf hs d (s.pktVa q) 64
    split at e
    · cases e
      exact State.faultyPkt_memWf (hp _) ..
    · split at e <;> cases e
      · next hf' => exact State.lqSettle_memWf _ (hf _ _ _ _ (hb _ (hp _)) hf')
      · exact h

theorem execLaunchPacket_memWf {q} (h : s.MemWf) (e : execLaunchPacket q s = .next t) : t.MemWf := by
  grind [execLaunchPacket, State.startHead_memWf, State.setPkt_mem]

theorem State.fencePass_memWf (h : s.MemWf) (dom l) : (s.fencePass dom l).2.MemWf := by
  induction l generalizing s with
  | nil => exact h
  | cons p ps ih =>
    unfold State.fencePass
    grind [State.parserSpot_memWf, State.awaitPage_memWf, State.parserRead_memWf]

theorem State.tryFence_memWf (h : s.MemWf) (q l) : (s.tryFence q l).MemWf := by
  grind [State.tryFence, State.fencePass_memWf, State.completePkt_mem]
theorem execFencePacket_memWf {q} (h : s.MemWf) (e : execFencePacket q s = .next t) : t.MemWf := by
  grind [execFencePacket, State.startHead_memWf, State.tryFence_memWf, State.setPkt_mem]
theorem State.recheckFences_memWf (h : s.MemWf) (p) : (s.recheckFences p).MemWf := by
  grind [State.recheckFences, State.tryFence_memWf, foldl_memWf]
theorem execFencePacketRecheck_memWf {q} (h : s.MemWf) (e : execFencePacketRecheck q s = .next t) : t.MemWf := by
  grind [execFencePacketRecheck, State.lqSettle_memWf, State.tryFence_memWf]

theorem State.runSignal_memWf (h : s.MemWf) (q add int vec idx v) : (s.runSignal q add int vec idx v).MemWf := by
  grind [State.runSignal, State.counterAtomic_memWf, State.pktWaits_memWf, State.recheckFences_memWf,
    State.completePkt_mem]

theorem execSignalPacket_memWf {q} (h : s.MemWf) (e : execSignalPacket q s = .next t) : t.MemWf := by
  grind [execSignalPacket, State.lqSettle_memWf, State.runSignal_memWf, State.startHead_memWf, State.setPkt_mem]
theorem State.copySpot_memWf (h : s.MemWf) (host dom need a ask) : (s.copySpot host dom need a ask).2.MemWf := by
  grind [State.copySpot, State.parserSpot_memWf]

theorem State.copyPiece_memWf (h : s.MemWf) (p sh dh src dst len) : (s.copyPiece p sh dh src dst len).MemWf := by
  unfold State.copyPiece
  extract_lets a b ahead k dom bad
  have hbad (s : State) (h : s.MemWf) : (bad s).MemWf := State.faultyPkt_memWf h ..
  clear_value a b k bad
  have hs := State.copySpot_memWf h sh dom 1 a (peerLoads k a)
  split <;> rename_i hr <;> rw [hr] at hs
  · exact hbad _ hs
  · exact State.pktWaits_memWf hs ..
  next x s1 _ _ =>
  dsimp only
  generalize hq : s1.parserRead x a k = r
  have hp : r.2.MemWf := hq ▸ State.parserRead_memWf hs ..
  have hd := State.copySpot_memWf hp dh dom 2 b [(b, .store r.1)]
  split <;> rename_i hr <;> rw [hr] at hd
  · exact hbad _ hd
  · exact State.pktWaits_memWf hd ..
  grind [State.spotPut_memWf, State.completePkt_mem, State.setPkt_mem]

theorem execCopyPacket_memWf {q} (h : s.MemWf) (e : execCopyPacket q s = .next t) : t.MemWf := by
  grind [execCopyPacket, State.lqSettle_memWf, State.copyPiece_memWf, State.startHead_memWf, State.setPkt_mem]
theorem execModePacket_memWf {q} (h : s.MemWf) (e : execModePacket q s = .next t) : t.MemWf := by
  grind [execModePacket, State.startHead_memWf, State.completePkt_mem]
@[simp] theorem State.endLaunch_mem (s : State) (n) : (s.endLaunch n).mem = s.mem := rfl

theorem execLaunchComplete_memWf {launch} (h : s.MemWf) (e : execLaunchComplete launch s = .next t) : t.MemWf := by
  grind [execLaunchComplete, State.counterAtomic_memWf, State.lqSettle_memWf, State.recheckFences_memWf,
    State.completePkt_mem, State.endLaunch_mem]

/-! ### Memory instructions -/

theorem keeps_loadAt (va sz way signed d) : KeepsM (loadAt va sz way signed d) := by
  grind [loadAt, keeps_access, keeps_loadFrom, keeps_writeReg, keeps_bind, keeps_pure]
theorem keeps_storeAt (va sz way v) : KeepsM (storeAt va sz way v) := by
  grind [storeAt, keeps_access, keeps_storeTo, keeps_bind, keeps_pure]

theorem execLdn_memWf {g sz o d a} (h : s.MemWf) (e : execLdn g sz o d a s = .next t) : t.MemWf := by
  refine issue_memWf ?_ h e
  grind [keeps_readReg, keeps_loadAt, keeps_bind]

theorem execLds_memWf {g sz o d a} (h : s.MemWf) (e : execLds g sz o d a s = .next t) : t.MemWf := by
  refine issue_memWf ?_ h e
  grind [keeps_readReg, keeps_loadAt, keeps_bind]

theorem execSt_memWf {g sz o d a} (h : s.MemWf) (e : execSt g sz o d a s = .next t) : t.MemWf := by
  refine issue_memWf ?_ h e
  grind [keeps_readReg, keeps_storeAt, keeps_bind]

theorem keeps_indexed (sz a b) : KeepsM (indexed sz a b) := by
  grind [indexed, keeps_readReg, keeps_bind, keeps_pure]

theorem execLdx_memWf {g m x sz d a b} (h : s.MemWf) (e : execLdx g m x sz d a b s = .next t) : t.MemWf := by
  refine issueStrand_memWf ?_ h e
  grind [keeps_indexed, keeps_loadAt, keeps_bind]

theorem execStx_memWf {g m sz d a b} (h : s.MemWf) (e : execStx g m sz d a b s = .next t) : t.MemWf := by
  refine issueStrand_memWf ?_ h e
  grind [keeps_indexed, keeps_readReg, keeps_storeAt, keeps_bind]

theorem keeps_needPad (va own) : KeepsM (needPad va own) := by
  grind [needPad, keeps_trap, keeps_pure, keeps_get_bind, keeps_trap_bind]
theorem keeps_feAccess (va sz need op) : KeepsM (feAccess va sz need op) := by
  grind [feAccess, keeps_needPad, keeps_access, keeps_bind, keeps_pure, keeps_trap_bind]
theorem keeps_needBit (g full) : KeepsM (needBit g full) := by
  grind [needBit, keeps_waitFor, keeps_pure, keeps_get_bind]

theorem keeps_ldfe (sz d a b wait take) : KeepsM (ldfe sz d a b wait take) := by
  grind [ldfe, keeps_indexed, keeps_feAccess, keeps_loadFrom, keeps_writeReg, keeps_hold, keeps_needBit, keeps_bind,
    keeps_pure]

theorem keeps_stfe (sz d a b wait) : KeepsM (stfe sz d a b wait) := by
  grind [stfe, keeps_indexed, keeps_readReg, keeps_feAccess, keeps_storeTo, keeps_hold, keeps_needBit, keeps_bind,
    keeps_pure]

theorem execStfeClear_memWf {g sz a b} (h : s.MemWf) (e : execStfeClear g sz a b s = .next t) : t.MemWf := by
  refine issueStrand_memWf ?_ h e
  grind [keeps_indexed, keeps_feAccess, keeps_hold, keeps_bind, keeps_pure]

theorem execFullEmptyRetest_memWf {granule} (h : s.MemWf) (e : execFullEmptyRetest granule s = .next t) :
    t.MemWf := by
  grind [execFullEmptyRetest, State.mapSlots_mem]

theorem keeps_atom (op md n d a b) : KeepsM (atom op md n d a b) := by
  unfold atom
  refine keeps_bind (keeps_readReg a) fun va => keeps_bind (keeps_readReg b) fun y =>
    keeps_ite_bind (keeps_readReg d) (keeps_pure 0) fun c => keeps_bind (keeps_access _) fun p => ?_
  grind [keeps_loadFrom, keeps_storeTo, keeps_raise, keeps_writeReg, keeps_bind, keeps_pure]

theorem keeps_cupd (op n a b) : KeepsM (cupd op n a b) := by
  have haccess (va y : Word) (acc : Acc) : KeepsM (do
      match ← access acc with
      | .peer _ => return none
      | .here sa =>
        if 2 ^ 64 ≤ sa then
          let old ← loadFrom acc (.here sa)
          storeTo acc (.here sa) (leBytes n (op.apply n old y.toNat)) true
        else
          let line := lineOf va.toNat
          let c := (← get).cur.chunk
          if !c.written.contains line && decide (32 ≤ c.written.length) && c.count ≠ 0 then endBefore
          modify fun s => s.modChunk fun c =>
            { c with upds := insertNat line c.upds, conflict := c.conflict || c.seen.contains line }
          hold (.cupd sa va.toNat op n (y.toNat % 2 ^ (8 * n)))
        return none : M (Option Word)) := by
    refine keeps_bind (keeps_access _) fun p => ?_
    split
    · exact keeps_pure _
    dsimp only
    split
    · grind [keeps_loadFrom, keeps_storeTo, keeps_bind, keeps_pure]
    · refine keeps_get_bind fun s h => keeps_when_bind keeps_endBefore fun _ => ?_
      grind [State.modChunk_mem, keeps_hold, keeps_bind, keeps_pure, keeps_modify]
  unfold cupd
  refine keeps_bind (keeps_readReg a) fun va => keeps_bind (keeps_readReg b) fun y =>
    keeps_when_bind (keeps_trap ..) fun _ => ?_
  dsimp only
  split
  · exact haccess va y _
  all_goals exact keeps_bind (keeps_trap ..) fun _ => haccess va y _

theorem keeps_drainStreams (p) : KeepsM (drainStreams p) := by
  unfold drainStreams
  grind [keeps_streamReport, keeps_waitFor, keeps_bind, keeps_pure, keeps_get_bind, keeps_forM, keeps_waitFor_bind,
    keeps_endBefore_bind]

theorem execFence_memWf {g sc} (h : s.MemWf) (e : execFence g sc s = .next t) : t.MemWf := by
  refine issueStrand_memWf ?_ h e
  grind [keeps_drainStreams, State.modCur_mem, keeps_ownChunk, keeps_bind, keeps_pure, keeps_get_bind, keeps_modify,
    keeps_waitFor_bind]

theorem execCend_memWf {g} (h : s.MemWf) (e : execCend g s = .next t) : t.MemWf := by
  refine issueStrand_memWf ?_ h e
  grind [keeps_endAfter, keeps_bind, keeps_pure]

theorem execHome_memWf {g d a} (h : s.MemWf) (e : execHome g d a s = .next t) : t.MemWf := by
  refine issueStrand_memWf ?_ h e
  grind [keeps_readReg, keeps_writeReg, keeps_bind, keeps_pure, keeps_get_bind]

theorem execMigr_memWf {g a} (h : s.MemWf) (e : execMigr g a s = .next t) : t.MemWf := by
  refine issueStrand_memWf (keeps_bind (keeps_readReg a) fun va => keeps_get_bind fun s _ =>
    keeps_when_bind (keeps_after fun s h => ?_) fun _ => keeps_pure _) h e
  rwa [State.MemWf, State.migrateTo_mem, State.modCtx_mem]

theorem execStay_memWf {g} (h : s.MemWf) (e : execStay g s = .next t) : t.MemWf := by
  refine issueStrand_memWf ?_ h e
  grind [State.modCur_mem, keeps_bind, keeps_pure, keeps_modify]

theorem keeps_listGranule (va) : KeepsM (listGranule va) := by
  grind [listGranule, keeps_needPad, keeps_access, keeps_bind, keeps_pure, keeps_trap_bind]
theorem keeps_linkGranule (off) : KeepsM (linkGranule off) := by
  grind [linkGranule, keeps_listGranule]
theorem keeps_getField (sa k) : KeepsM (getField sa k) := by
  grind [getField, keeps_pure, keeps_get_bind]
theorem keeps_setField (sa k v) : KeepsM (setField sa k v) := by
  grind [setField, keeps_hold]

theorem keeps_unlink (rec hd) : KeepsM (unlink rec hd) := by
  unfold unlink
  refine keeps_bind (keeps_getField ..) fun nxt => keeps_bind (keeps_getField ..) fun prv =>
    keeps_ite_bind (keeps_pure _) (keeps_map (keeps_linkGranule _)) fun p =>
    keeps_ite_bind (keeps_pure _) (keeps_map (keeps_linkGranule _)) fun n => ?_
  grind [keeps_getField, keeps_setField, keeps_bind]

theorem execLinit_memWf {g a} (h : s.MemWf) (e : execLinit g a s = .next t) : t.MemWf := by
  refine issueStrand_memWf ?_ h e
  grind [keeps_readReg, keeps_listGranule, keeps_setField, keeps_bind, keeps_pure]

theorem execLmove_memWf {g d a b} (h : s.MemWf) (e : execLmove g d a b s = .next t) : t.MemWf := by
  refine issueStrand_memWf ?_ h e
  refine keeps_bind (keeps_readReg a) fun x => keeps_bind (keeps_readReg b) fun y =>
    keeps_bind (keeps_listGranule x) fun rec' => keeps_bind (keeps_listGranule y) fun dest =>
    keeps_bind (keeps_getField ..) fun head =>
    keeps_when_bind_bind (keeps_linkGranule _) (fun x => keeps_unlink ..) fun _ =>
    keeps_bind (keeps_getField ..) fun last => keeps_bind (keeps_setField ..) fun _ =>
    keeps_bind (keeps_setField ..) fun _ => keeps_bind (keeps_setField ..) fun _ => ?_
  grind [keeps_getField, keeps_setField, keeps_linkGranule, keeps_writeReg, keeps_bind, keeps_pure]

theorem execLpop_memWf {g d a} (h : s.MemWf) (e : execLpop g d a s = .next t) : t.MemWf := by
  refine issueStrand_memWf ?_ h e
  refine keeps_bind (keeps_readReg a) fun x => keeps_bind (keeps_listGranule x) fun hd =>
    keeps_bind (keeps_getField ..) fun first => ?_
  grind [keeps_writeReg, keeps_linkGranule, keeps_unlink, keeps_setField, keeps_bind, keeps_pure]

theorem keeps_freeStream (ty) : KeepsM (freeStream ty) := by
  grind [freeStream, keeps_drainStreams, State.setStream_mem, State.modCtx_mem, keeps_bind, keeps_pure,
    keeps_get_bind, keeps_modify]

theorem execStbind_memWf {g ty a} (h : s.MemWf) (e : execStbind g ty a s = .next t) : t.MemWf := by
  refine issueStrand_memWf ?_ h e
  refine keeps_bind (keeps_readReg a) fun va => keeps_when_bind (keeps_trap ..) fun _ =>
    keeps_bind (keeps_mapM (fun i => keeps_bind (keeps_access _) fun p => keeps_loadFrom ..) _) fun ws => ?_
  grind [keeps_streamTrap, keeps_freeStream, State.modCtx_mem, State.setStream_mem, keeps_bind, keeps_pure,
    keeps_modify]

theorem execStfree_memWf {g ty} (h : s.MemWf) (e : execStfree g ty s = .next t) : t.MemWf := by
  refine issueStrand_memWf ?_ h e
  grind [keeps_freeStream, keeps_bind, keeps_pure]

theorem execStstat_memWf {g ty d} (h : s.MemWf) (e : execStstat g ty d s = .next t) : t.MemWf := by
  refine issueStrand_memWf ?_ h e
  grind [keeps_writeReg, keeps_streamReport, keeps_bind, keeps_pure, keeps_get_bind]

theorem execStreamElementArrival_memWf {core slot ty} (h : s.MemWf)
    (e : execStreamElementArrival core slot ty s = .next t) :
    t.MemWf := by
  unfold execStreamElementArrival at e
  dsimp only at e
  split at e
  · cases e; exact h
  · next st _ =>
    split at e
    · cases e; exact h
    split at e
    · cases e; exact h
    have hp := State.elemSpot_memWf h (s.slotAt core slot).ctx core (st.addr (st.pos + st.buf.length)).toNat st.size 1
    have hat : ({ s with core, slot } : State).MemWf := h
    split at e <;> rename_i hr <;> rw [hr] at hp
    · cases e
      rw [State.MemWf, State.modSlot_mem]
      exact State.spotRead_memWf hp ..
    · split at e
      · exact State.settle_after_memWf hat (fun s h => State.takeTrap_memWf h ..) e
      · cases e; exact h
    · split at e
      · exact State.settle_after_memWf hat (fun s h => State.parkPage_memWf h ..) e
      · cases e; exact h
    · split at e
      · exact State.settle_after_memWf hat (fun s h => State.parkUnit_memWf h ..) e
      · cases e; exact h
    · split at e
      · exact State.settle_after_memWf hat (fun s h => State.parkDown_memWf h ..) e
      · split at e <;> cases e
        · exact State.waitOn_memWf (by exact hp) _
        · exact h

theorem State.landElement_memWf (h : s.MemWf) (core slot commit va sa bytes) :
    (s.landElement core slot commit va sa bytes).MemWf := by
  grind [State.landElement, State.spotWrite_memWf, State.traceEntry_memWf]

theorem execStreamDrain_memWf {core slot ty} (h : s.MemWf) (e : execStreamDrain core slot ty s = .next t) :
    t.MemWf := by
  grind [execStreamDrain, State.modSlot_mem, State.elemSpot_memWf, State.landElement_memWf, State.drawBit_mem,
    State.sendPeer_memWf]

theorem State.landStreams_memWf (h : s.MemWf) (core slot x) : (s.landStreams core slot x).MemWf := by
  grind [State.landStreams, State.elemSpot_memWf, State.landElement_memWf, State.sendPeer_memWf, foldl_memWf]

/-! ### Scalar instructions -/

theorem keeps_op2 (f d a b) : KeepsM (op2 f d a b) := by
  grind [op2, keeps_readReg, keeps_writeReg, keeps_bind, keeps_pure]
theorem keeps_op1 (f d a) : KeepsM (op1 f d a) := by
  grind [op1, keeps_readReg, keeps_writeReg, keeps_bind, keeps_pure]
theorem keeps_op3 (f d a b) : KeepsM (op3 f d a b) := by
  grind [op3, keeps_readReg, keeps_writeReg, keeps_bind, keeps_pure]

theorem execLi_memWf {g d i} (h : s.MemWf) (e : execLi g d i s = .next t) : t.MemWf := by
  refine issue_memWf ?_ h e
  grind [keeps_writeReg, keeps_bind, keeps_pure]

theorem execCmp_memWf {g c n w p a b} (h : s.MemWf) (e : execCmp g c n w p a b s = .next t) : t.MemWf := by
  refine issue_memWf ?_ h e
  grind [keeps_readReg, keeps_setPred, keeps_bind, keeps_pure]

theorem execCmpi_memWf {g c n w p a i} (h : s.MemWf) (e : execCmpi g c n w p a i s = .next t) : t.MemWf := by
  refine issue_memWf ?_ h e
  grind [keeps_readReg, keeps_setPred, keeps_bind, keeps_pure]

theorem keeps_predOp (f d a b) : KeepsM (predOp f d a b) := by
  grind [predOp, keeps_getPred, keeps_setPred, keeps_bind, keeps_pure]

theorem execPnot_memWf {g d a} (h : s.MemWf) (e : execPnot g d a s = .next t) : t.MemWf := by
  refine issue_memWf ?_ h e
  grind [keeps_predOp]

theorem execPget_memWf {g d} (h : s.MemWf) (e : execPget g d s = .next t) : t.MemWf := by
  refine issue_memWf ?_ h e
  grind [keeps_writeReg, keeps_bind, keeps_pure, keeps_get_bind]

theorem execPset_memWf {g a} (h : s.MemWf) (e : execPset g a s = .next t) : t.MemWf := by
  refine issue_memWf ?_ h e
  grind [keeps_readReg, State.modCtx_mem, keeps_bind, keeps_pure, keeps_modify]

theorem execSel_memWf {g p d a b} (h : s.MemWf) (e : execSel g p d a b s = .next t) : t.MemWf := by
  refine issue_memWf ?_ h e
  grind [keeps_readReg, keeps_getPred, keeps_writeReg, keeps_bind, keeps_pure]

theorem keeps_toUnit (unit d v f) : KeepsM (toUnit unit d v f) := by
  unfold toUnit
  grind [keeps_writeReg, State.modCore_mem, State.modCur_mem, keeps_bind, keeps_get_bind, keeps_modify]

theorem keeps_divOp (f d a b) : KeepsM (divOp f d a b) := by
  grind [divOp, keeps_readReg, keeps_toUnit, keeps_bind, keeps_pure]
@[simp] theorem UnitOp.finish_mem (s : State) (o : UnitOp) (c) : (o.finish c s).mem = s.mem := rfl
theorem execDivideComplete_memWf {core} (h : s.MemWf) (e : execDivideComplete core s = .next t) : t.MemWf := by
  grind [execDivideComplete, UnitOp.finish_mem, State.modCore_mem]
theorem keeps_jumpTo (ty) : KeepsM (jumpTo ty) := by
  grind [jumpTo, keeps_trap, keeps_pure, keeps_get_bind]

theorem execBr_memWf {g o} (h : s.MemWf) (e : execBr g o s = .next t) : t.MemWf := by
  refine issue_memWf ?_ h e
  grind [keeps_jumpTo, keeps_get_bind]

theorem execBl_memWf {g o} (h : s.MemWf) (e : execBl g o s = .next t) : t.MemWf := by
  refine issue_memWf ?_ h e
  grind [keeps_writeReg, keeps_jumpTo, keeps_bind, keeps_get_bind]

theorem execJmp_memWf {g a} (h : s.MemWf) (e : execJmp g a s = .next t) : t.MemWf := by
  refine issue_memWf ?_ h e
  grind [keeps_readReg, keeps_jumpTo, keeps_bind]

theorem execJmpl_memWf {g d a} (h : s.MemWf) (e : execJmpl g d a s = .next t) : t.MemWf := by
  refine issue_memWf ?_ h e
  grind [keeps_readReg, keeps_writeReg, keeps_jumpTo, keeps_bind, keeps_get_bind]

theorem keeps_fop2 (F f d a b) : KeepsM (fop2 F f d a b) := by
  grind [fop2, keeps_readReg, keeps_normalise, keeps_raise, keeps_writeReg, keeps_bind, keeps_pure, keeps_get_bind]
theorem keeps_fop1 (F f d a) : KeepsM (fop1 F f d a) := by
  grind [fop1, keeps_readReg, keeps_normalise, keeps_raise, keeps_writeReg, keeps_bind, keeps_pure, keeps_get_bind]

theorem execFma_memWf {g r ty d a b} (h : s.MemWf) (e : execFma g r ty d a b s = .next t) : t.MemWf := by
  refine issueStrand_memWf ?_ h e
  grind [keeps_readReg, keeps_normalise, keeps_raise, keeps_writeReg, keeps_bind, keeps_pure, keeps_get_bind]

theorem execFcmp_memWf {g c n ty p a b} (h : s.MemWf) (e : execFcmp g c n ty p a b s = .next t) : t.MemWf := by
  refine issueStrand_memWf ?_ h e
  grind [keeps_readReg, keeps_normalise, keeps_raise, keeps_setPred, keeps_bind, keeps_pure, keeps_get_bind]

theorem execCvt_memWf {g r x ty d a} (h : s.MemWf) (e : execCvt g r x ty d a s = .next t) : t.MemWf := by
  refine issueStrand_memWf ?_ h e
  grind [keeps_readReg, keeps_normalise, keeps_raise, keeps_writeReg, keeps_bind, keeps_pure, keeps_get_bind]

theorem execCvte_memWf {g r x d a b} (h : s.MemWf) (e : execCvte g r x d a b s = .next t) : t.MemWf := by
  refine issueStrand_memWf ?_ h e
  grind [keeps_readReg, keeps_normalise, keeps_raise, keeps_writeReg, keeps_bind, keeps_pure, keeps_get_bind]

theorem keeps_sfuOp (f d a) : KeepsM (sfuOp f d a) := by
  grind [sfuOp, keeps_readReg, keeps_normalise, keeps_toUnit, keeps_bind, keeps_pure, keeps_get_bind]
theorem execSfuComplete_memWf {core} (h : s.MemWf) (e : execSfuComplete core s = .next t) : t.MemWf := by
  grind [execSfuComplete, UnitOp.finish_mem, State.modCore_mem]

theorem execNormaliserService_memWf {core} (h : s.MemWf) (e : execNormaliserService core s = .next t) : t.MemWf := by
  grind [execNormaliserService, State.modSlot_mem, State.modCore_mem]

/-! ### Parallel work and synchronisation -/

@[simp] theorem State.newId_mem (s : State) : s.newId.2.mem = s.mem := rfl
theorem keeps_takeId : KeepsM takeId := by
  grind [takeId, State.newId_mem, keeps_bind, keeps_pure, keeps_get_bind, keeps_set]
theorem keeps_futureAccess (va need way op off) : KeepsM (futureAccess va need way op off) := by
  grind [futureAccess, keeps_access, keeps_bind, keeps_pure, keeps_trap_bind]

theorem execFork_memWf {g d a b} (h : s.MemWf) (e : execFork g d a b s = .next t) : t.MemWf := by
  refine issueStrand_memWf ?_ h e
  refine keeps_bind (keeps_readReg a) fun pc => keeps_bind (keeps_readReg b) fun fut => keeps_get_bind fun s h => ?_
  dsimp only
  split
  · exact keeps_trap ..
  · next spill _ =>
    have hchild : KeepsM (do
        let id ← takeId
        hold (.fork (s.cur.ctx.child pc id fut) spill)
        writeReg d (wordN id.toNat)
        return none : M (Option Word)) := by
      grind [keeps_takeId, keeps_hold, keeps_writeReg, keeps_bind, keeps_pure]
    split
    · refine keeps_bind (keeps_futureAccess ..) fun r => ?_
      split
      · exact keeps_bind (keeps_storeTo ..) fun _ => hchild
      · exact hchild
    · exact hchild

theorem execFget_memWf {g d a} (h : s.MemWf) (e : execFget g d a s = .next t) : t.MemWf := by
  refine issueStrand_memWf ?_ h e
  grind [keeps_readReg, keeps_futureAccess, keeps_readAt, keeps_writeReg, keeps_bind, keeps_pure, keeps_trap_bind]

theorem keeps_fillFuture (va v) : KeepsM (fillFuture va v) := by
  grind [fillFuture, keeps_futureAccess, keeps_readAt, keeps_storeTo, keeps_trap, keeps_bind, keeps_pure]

theorem execFput_memWf {g a b} (h : s.MemWf) (e : execFput g a b s = .next t) : t.MemWf := by
  refine issueStrand_memWf ?_ h e
  grind [keeps_readReg, keeps_fillFuture, keeps_bind, keeps_pure]

theorem execExit_memWf {g a} (h : s.MemWf) (e : execExit g a s = .next t) : t.MemWf := by
  refine issueStrand_memWf ?_ h e
  grind [keeps_readReg, keeps_drainStreams, keeps_hold, keeps_endAfter, keeps_fillFuture, keeps_bind, keeps_pure,
    keeps_get_bind, keeps_waitFor_bind]

theorem execYield_memWf {g} (h : s.MemWf) (e : execYield g s = .next t) : t.MemWf := by
  refine issueStrand_memWf ?_ h e
  grind [keeps_endAfter, keeps_hold, keeps_jumpTo, State.eret_mem, keeps_bind, keeps_pure, keeps_get_bind, keeps_set]

theorem keeps_slotNamed (a) : KeepsM (slotNamed a) := by
  grind [slotNamed, keeps_readReg, keeps_bind, keeps_pure]
theorem keeps_headSlot : KeepsM headSlot := by
  grind [headSlot, keeps_trap, keeps_pure, keeps_get_bind, keeps_trap_bind]

theorem execSlstart_memWf {g d a b} (h : s.MemWf) (e : execSlstart g d a b s = .next t) : t.MemWf := by
  refine issueStrand_memWf ?_ h e
  grind [keeps_slotNamed, keeps_readReg, keeps_headSlot, keeps_takeId, keeps_hold, keeps_writeReg, keeps_bind,
    keeps_pure, keeps_get_bind]

theorem execSlreap_memWf {g d a} (h : s.MemWf) (e : execSlreap g d a s = .next t) : t.MemWf := by
  refine issueStrand_memWf ?_ h e
  grind [keeps_slotNamed, keeps_headSlot, keeps_hold, keeps_writeReg, keeps_bind, keeps_pure, keeps_get_bind]

theorem execSlquery_memWf {g d a} (h : s.MemWf) (e : execSlquery g d a s = .next t) : t.MemWf := by
  refine issueStrand_memWf ?_ h e
  grind [keeps_slotNamed, keeps_writeReg, keeps_bind, keeps_pure, keeps_get_bind]

theorem execWake_memWf {g a} (h : s.MemWf) (e : execWake g a s = .next t) : t.MemWf := by
  refine issueStrand_memWf ?_ h e
  grind [keeps_readReg, keeps_hold, keeps_bind, keeps_pure]

theorem execWakeMessage_memWf {n} (h : s.MemWf) (e : execWakeMessage n s = .next t) : t.MemWf := by
  grind [execWakeMessage, State.wakeWhere_memWf]
@[simp] theorem State.formGang_mem (s : State) (n) : (s.formGang n).mem = s.mem := by
  grind [State.formGang, State.modCur_mem, State.newId_mem, State.modSlot_mem, State.place_mem, foldl_mem]

theorem execGang_memWf {g n} (h : s.MemWf) (e : execGang g n s = .next t) : t.MemWf := by
  refine issueStrand_memWf ?_ h e
  grind [State.formGang_mem, keeps_trap, keeps_bind, keeps_pure, keeps_get_bind, keeps_modify, keeps_waitFor_bind,
    keeps_trap_bind]

theorem execGangFormation_memWf {core slot} (h : s.MemWf) (e : execGangFormation core slot s = .next t) :
    t.MemWf := by
  grind [execGangFormation, State.modSlot_mem, foldl_mem]

theorem execUngang_memWf {g} (h : s.MemWf) (e : execUngang g s = .next t) : t.MemWf := by
  refine issueStrand_memWf ?_ h e
  grind [State.modCur_mem, keeps_bind, keeps_pure, keeps_get_bind, keeps_modify]

theorem keeps_barrierAccess (va ro) : KeepsM (barrierAccess va ro) := by
  grind [barrierAccess, keeps_access, keeps_readAt, keeps_bind, keeps_pure, keeps_trap_bind]
theorem keeps_getBar (sa) : KeepsM (getBar sa) := by
  grind [getBar, keeps_getField, keeps_bind, keeps_pure]
theorem keeps_setBar (va sa b) : KeepsM (setBar va sa b) := by
  grind [setBar, keeps_getField, keeps_hold, keeps_bind]

theorem execBarinit_memWf {g a b} (h : s.MemWf) (e : execBarinit g a b s = .next t) : t.MemWf := by
  refine issueStrand_memWf ?_ h e
  grind [keeps_readReg, keeps_barrierAccess, keeps_getBar, keeps_setBar, keeps_bind, keeps_pure]

theorem execBararr_memWf {g d a} (h : s.MemWf) (e : execBararr g d a s = .next t) : t.MemWf := by
  refine issueStrand_memWf ?_ h e
  grind [keeps_readReg, keeps_barrierAccess, keeps_getBar, keeps_setBar, keeps_writeReg, keeps_bind, keeps_pure]

theorem execBarwait_memWf {g a b} (h : s.MemWf) (e : execBarwait g a b s = .next t) : t.MemWf := by
  refine issueStrand_memWf ?_ h e
  grind [keeps_readReg, keeps_ownChunk, keeps_barrierAccess, keeps_getField, keeps_bind, keeps_pure,
    keeps_waitFor_bind]

theorem execBarrierRelease_memWf {core slot} (h : s.MemWf) (e : execBarrierRelease core slot s = .next t) :
    t.MemWf := by
  grind [execBarrierRelease, State.modSlot_mem]

theorem execBarleave_memWf {g a} (h : s.MemWf) (e : execBarleave g a s = .next t) : t.MemWf := by
  refine issueStrand_memWf ?_ h e
  grind [keeps_readReg, keeps_barrierAccess, keeps_getBar, keeps_setBar, keeps_bind, keeps_pure]

theorem execSend_memWf {g a b} (h : s.MemWf) (e : execSend g a b s = .next t) : t.MemWf := by
  refine issueStrand_memWf ?_ h e
  grind [keeps_readReg, keeps_hold, keeps_trap, keeps_bind, keeps_pure, keeps_get_bind, keeps_waitFor_bind,
    keeps_trap_bind]

theorem execMailboxDelivery_memWf {core n} (h : s.MemWf) (e : execMailboxDelivery core n s = .next t) : t.MemWf := by
  unfold execMailboxDelivery at e
  dsimp only at e
  split at e
  · cases e; exact h
  split at e
  · cases e; exact h
  split at e
  · grind [State.modCore_mem]
  split at e
  · cases e; exact h
  split at e
  · cases e; exact h
  split at e <;> grind [State.modCore_mem, State.modBlock_mem]

theorem execRecv_memWf {g d a} (h : s.MemWf) (e : execRecv g d a s = .next t) : t.MemWf := by
  refine issueStrand_memWf ?_ h e
  grind [keeps_readReg, State.modCur_mem, keeps_writeReg, keeps_endAfter, keeps_waitFor, State.modChunk_mem,
    State.modCore_mem, keeps_bind, keeps_pure, keeps_get_bind, keeps_modify, keeps_waitFor_bind]

theorem execMbstat_memWf {g d a} (h : s.MemWf) (e : execMbstat g d a s = .next t) : t.MemWf := by
  refine issueStrand_memWf ?_ h e
  grind [keeps_readReg, keeps_writeReg, keeps_bind, keeps_pure, keeps_get_bind]

theorem execNqHop_memWf {core} (h : s.MemWf) (e : execNqHop core s = .next t) : t.MemWf := by
  grind [execNqHop, State.nqCross_mem]

theorem execWqput_memWf {g a b} (h : s.MemWf) (e : execWqput g a b s = .next t) : t.MemWf := by
  refine issueStrand_memWf ?_ h e
  grind [keeps_readReg, keeps_hold, keeps_bind, keeps_pure, keeps_get_bind, keeps_waitFor_bind]

theorem execWqget_memWf {g d a} (h : s.MemWf) (e : execWqget g d a s = .next t) : t.MemWf := by
  refine issueStrand_memWf ?_ h e
  grind [keeps_readReg, State.modCur_mem, keeps_writeReg, keeps_waitFor, State.modChunk_mem, State.modCluster_mem,
    keeps_bind, keeps_pure, keeps_get_bind, keeps_modify, keeps_waitFor_bind]

theorem execWqlen_memWf {g d a} (h : s.MemWf) (e : execWqlen g d a s = .next t) : t.MemWf := by
  refine issueStrand_memWf ?_ h e
  grind [keeps_readReg, keeps_writeReg, keeps_bind, keeps_pure, keeps_get_bind]

theorem execTurn_memWf {g ty} (h : s.MemWf) (e : execTurn g ty s = .next t) : t.MemWf := by
  refine issueStrand_memWf ?_ h e
  grind [keeps_hold, keeps_bind, keeps_pure]

theorem execTurnReg_memWf {g a} (h : s.MemWf) (e : execTurnReg g a s = .next t) : t.MemWf := by
  refine issueStrand_memWf ?_ h e
  grind [keeps_readReg, keeps_hold, keeps_bind, keeps_pure]

theorem execTrap_memWf {g c} (h : s.MemWf) (e : execTrap g c s = .next t) : t.MemWf := by
  refine issueStrand_memWf ?_ h e
  grind [keeps_trapAfter]

theorem execEret_memWf {g} (h : s.MemWf) (e : execEret g s = .next t) : t.MemWf := by
  refine issueStrand_memWf ?_ h e
  grind [keeps_jumpTo, State.eret_mem, keeps_bind, keeps_pure, keeps_get_bind, keeps_set, keeps_trap_bind]

theorem execBrk_memWf {g} (h : s.MemWf) (e : execBrk g s = .next t) : t.MemWf := by
  refine issueStrand_memWf ?_ h e
  grind [keeps_trap]

theorem execCrd_memWf {g n d} (h : s.MemWf) (e : execCrd g n d s = .next t) : t.MemWf := by
  refine issueStrand_memWf ?_ h e
  grind [keeps_writeReg, keeps_bind, keeps_pure, keeps_get_bind]

theorem execCwr_memWf {g n d} (h : s.MemWf) (e : execCwr g n d s = .next t) : t.MemWf := by
  refine issueStrand_memWf ?_ h e
  grind [keeps_readReg, State.modCtx_mem, State.modCur_mem, keeps_bind, keeps_pure, keeps_modify]

theorem execLcset_memWf {g n a} (h : s.MemWf) (e : execLcset g n a s = .next t) : t.MemWf := by
  refine issue_memWf ?_ h e
  grind [keeps_readReg, State.modCluster_mem, keeps_hold, keeps_bind, keeps_pure, keeps_get_bind, keeps_set]

theorem execLcget_memWf {g n d} (h : s.MemWf) (e : execLcget g n d s = .next t) : t.MemWf := by
  refine issue_memWf ?_ h e
  grind [keeps_writeReg, keeps_bind, keeps_pure, keeps_get_bind]

@[simp] theorem State.startCtrl_mem (s : State) (k) : (s.startCtrl k).mem = s.mem := by
  grind [State.startCtrl, State.modSlot_mem, State.modCluster_mem]
theorem State.haltCtrl_memWf (h : s.MemWf) (k) : (s.haltCtrl k).MemWf := by
  grind [State.haltCtrl, State.modCluster_mem, State.devWrite_memWf, State.startCtrl_mem]

theorem execHalt_memWf {g} (h : s.MemWf) (e : execHalt g s = .next t) : t.MemWf := by
  unfold execHalt at e
  split at e
  · grind [State.modCluster_mem, State.retire_mem]
  · refine issue_memWf (keeps_after fun s h => State.haltStrand_memWf ?_ _) h e
    rwa [State.MemWf, State.passUnit_mem]

/-! ### Blocks, their frames and their way back -/

theorem State.contextHome_memWf (h : s.MemWf) (c x) : (s.contextHome c x).MemWf := by
  grind [State.contextHome, State.shipBack_memWf, State.sendHome_memWf]
theorem State.guestHome_memWf (h : s.MemWf) (c k) : (s.guestHome c k).MemWf := by
  grind [State.guestHome, State.giveKept_mem, State.contextHome_memWf, State.clearSlot_mem]
theorem State.dequeHome_memWf (h : s.MemWf) (c own) : (s.dequeHome c own).MemWf := by
  grind [State.dequeHome, State.contextHome_memWf, State.modCore_mem, foldl_memWf]
@[simp] theorem State.dealCore_mem (s : State) (o c) : (s.dealCore o c).mem = s.mem := rfl
theorem State.clearGroup_memWf (h : s.MemWf) (base n) : (s.clearGroup base n).MemWf := by
  grind [State.clearGroup, State.guestHome_memWf, State.dequeHome_memWf, foldl_memWf]

theorem State.startBlock_memWf (h : s.MemWf) (l b base) : (s.startBlock l b base).MemWf := by
  grind [State.startBlock, State.clearGroup_memWf, State.dealCore_mem, State.newId_mem, State.place_mem,
    State.pushTop_memWf, foldl_memWf]

theorem State.dealNext_memWf {l} (h : s.MemWf) (e : s.dealNext l = some t) : t.MemWf := by
  grind [State.dealNext, State.startBlock_memWf, Option.map_eq_some_iff]

theorem execBlockDeal_memWf {parser} (h : s.MemWf) (e : execBlockDeal parser s = .next t) : t.MemWf := by
  unfold execBlockDeal at e
  dsimp only at e
  split at e
  · next hf =>
    cases e
    refine findSome_memWf (fun k t hk => ?_) hf
    grind [State.startBlock_memWf, Option.map_eq_some_iff]
  · cases e
    exact getD_memWf h fun t ht => findSome_memWf (fun l t hl => State.dealNext_memWf h hl) ht

@[simp] theorem State.noteIssue_mem (s : State) (c issued) : (s.noteIssue c issued).mem = s.mem := by
  unfold State.noteIssue
  grind [State.modBlock_mem]

@[simp] theorem State.countCycle_mem (s : State) (c issued) : (s.countCycle c issued).mem = s.mem := by
  grind [State.countCycle, State.modCore_mem, State.noteIssue_mem]
@[simp] theorem State.schedCycle_mem (s : State) (k) : (s.schedCycle k).mem = s.mem := by
  grind [State.schedCycle, State.modCluster_mem, State.modBlock_mem, foldl_mem]
@[simp] theorem State.markParked_mem (s : State) (l b) : (s.markParked l b).mem = s.mem := rfl
@[simp] theorem State.decideSwap_mem (s : State) (l b k) : (s.decideSwap l b k).mem = s.mem := rfl

theorem execIdleThreshold_memWf {launch block} (h : s.MemWf) (e : execIdleThreshold launch block s = .next t) :
    t.MemWf := by
  grind [execIdleThreshold, State.decideSwap_mem, State.post_memWf]

@[simp] theorem State.swapVerdict_mem (s : State) (l b yes) : (s.swapVerdict l b yes).mem = s.mem := by
  grind [State.swapVerdict, State.decideSwap_mem, State.modBlock_mem]
theorem execSliceExpiry_memWf {cluster} (h : s.MemWf) (e : execSliceExpiry cluster s = .next t) : t.MemWf := by
  grind [execSliceExpiry, State.modCluster_mem, State.decideSwap_mem, foldl_mem]
@[simp] theorem State.noteEmpty_mem (s : State) : s.noteEmpty.mem = s.mem := rfl
@[simp] theorem State.writeHeld_mem (s : State) (k v) : (s.writeHeld k v).mem = s.mem := by
  grind [State.writeHeld, State.modCluster_mem, State.modBlock_mem, State.decideSwap_mem, foldl_mem]
theorem frameWrite_wf {m : Memory} (h : m.wf = true) (pages off bytes) : (frameWrite pages m off bytes).wf = true :=
  Memory.wf_writeN h ..

theorem State.copyPad_memWf (h : s.MemWf) (pages c out) : (s.copyPad pages c out).MemWf := by
  unfold State.copyPad
  refine foldl_memWf (fun s i h => ?_) _ h
  exact Memory.wf_copyRange (State.probe_memWf h ..) ..

theorem frameLines_wf {m : Memory} (h : m.wf = true) (pages b orphs i g) :
    (frameLines pages b orphs i g m).wf = true := by
  unfold frameLines
  refine foldl_memory_wf (fun _ _ h => frameWrite_wf h ..) _ (frameWrite_wf ?_ ..)
  refine foldl_memory_wf (fun _ _ h => frameWrite_wf h ..) _ (frameWrite_wf ?_ ..)
  refine foldl_memory_wf (fun _ _ h => frameWrite_wf h ..) _ ?_
  refine foldl_memory_wf (fun _ _ h => frameWrite_wf h ..) _ ?_
  exact foldl_memory_wf (fun _ _ h => frameWrite_wf h ..) _ h

theorem State.writeFrame_memWf (h : s.MemWf) (pages c b orphs i g) : (s.writeFrame pages c b orphs i g).MemWf := by
  have h1 := State.copyPad_memWf h pages c true
  unfold State.writeFrame
  generalize s.copyPad pages c true = s0 at h1
  extract_lets s1 rest s2 m
  have h2 : s2.mem.wf = true := h1
  clear_value s2
  have hm : m.wf = true := frameLines_wf (frameWrite_wf h2 pages _ _) pages b orphs i g
  clear_value m
  have hz := foldl_memory_wf (f := fun m i => frameWrite pages m (0x4B000 + 1024 * i) (leBytes 1024 0))
    (fun m i h => frameWrite_wf h ..) (List.range 20) hm
  dsimp only [State.MemWf]
  exact hz

theorem State.gatherGuests_memWf (h : s.MemWf) (l b base n) : (s.gatherGuests l b base n).MemWf := by
  grind [State.gatherGuests, State.pushTop_memWf, State.clearSlot_mem, State.modCore_mem, foldl_memWf]
theorem State.expelGuests_memWf (h : s.MemWf) (l b base n) : (s.expelGuests l b base n).MemWf := by
  grind [State.expelGuests, State.guestHome_memWf, State.dequeHome_memWf, foldl_memWf]
@[simp] theorem State.withdraw_mem (s : State) (l b base n) : (s.withdraw l b base n).mem = s.mem := by
  grind [State.withdraw, State.giveKept_mem, State.dropReserved_mem, State.modSlot_mem, foldl_mem]

theorem State.swapOut_memWf (h : s.MemWf) (blk kind base frames pages) :
    (s.swapOut blk kind base frames pages).MemWf := by
  grind [State.swapOut, State.expelGuests_memWf, State.gatherGuests_memWf, State.withdraw_mem, State.modAcc_mem,
    State.writeFrame_memWf, State.clearSlot_mem, State.freeCore_mem, State.seatWoken_memWf, foldl_memWf]

theorem State.recallShipped_memWf (h : s.MemWf) (l b) : (s.recallShipped l b).MemWf := by
  grind [State.recallShipped, State.sendPeer_memWf, foldl_memWf]

theorem execBlockSwapOut_memWf {launch block} (h : s.MemWf) (e : execBlockSwapOut launch block s = .next t) :
    t.MemWf := by
  grind [execBlockSwapOut, State.decideSwap_mem, State.mapSlots_mem, State.recallShipped_memWf, State.swapOut_memWf,
    State.awaitPage_memWf]

theorem State.keepFrames_memWf (h : s.MemWf) (old) : (s.keepFrames old).MemWf := by
  refine foldl_memWf (fun s b h => ?_) _ h
  split
  · split
    · exact h
    · split
      · exact foldl_memWf (fun _ _ h => frameLines_wf h ..) _ h
      · exact h
  · exact h

@[simp] theorem State.framesFreed_mem (s : State) (old : State) : (s.framesFreed old).mem = s.mem := by
  unfold State.framesFreed
  split <;> rfl

@[simp] theorem State.backCmds_mem (s : State) (d) : (s.backCmds d).mem = s.mem := rfl

theorem State.restoreCore_memWf (h : s.MemWf) (l b i c pages g) : (s.restoreCore l b i c pages g).MemWf := by
  grind [State.restoreCore, State.copyPad_memWf, State.dealCore_mem, State.setSlot_mem, State.modCore_mem,
    foldl_memWf]

theorem State.restoreDen_memWf (h : s.MemWf) (blk d base pages) : (s.restoreDen blk d base pages).MemWf := by
  grind [State.restoreDen, State.clearGroup_memWf, State.restoreCore_memWf, State.backCmds_mem, State.modCluster_mem,
    State.seatWoken_memWf, State.markParked_mem, State.settleBlock_mem, State.refusalTrap_memWf, State.modSlot_mem,
    foldl_memWf]

theorem execDenReadmit_memWf {launch block} (h : s.MemWf) (e : execDenReadmit launch block s = .next t) :
    t.MemWf := by
  unfold execDenReadmit at e
  split at e
  · dsimp only at e
    split at e
    · cases e; exact h
    · cases e; exact h
    · grind [State.restoreDen_memWf, State.awaitPage_memWf]
    · grind [State.restoreDen_memWf, State.awaitPage_memWf]
  · cases e; exact h

/-! ### The next move -/

@[simp] theorem State.atCtrl_mem (s : State) (k) : (s.atCtrl k).mem = s.mem := rfl

/-! ### The vector unit -/

theorem keeps_laneAccess (lane va size need op) : KeepsM (laneAccess lane va size need op) := by
  unfold laneAccess
  refine keeps_get_bind fun s h => keeps_when_bind (keeps_trap ..) fun _ =>
    keeps_when_bind (keeps_waitFor _) fun _ => ?_
  have hp := State.elemSpot_memWf h s.cur.ctx s.core va.toNat size need
  split <;> rename_i hr <;> rw [hr] at hp
  · exact keeps_trap ..
  · exact keeps_parkOn _
  · exact keeps_parkPoison ..
  · exact keeps_bind (keeps_set hp) fun _ => keeps_peerAccess ..
  · refine keeps_bind (keeps_set hp) fun _ => keeps_when_bind keeps_ownChunk fun _ =>
      keeps_when_bind (keeps_waitFor _) fun _ => ?_
    grind [State.modChunk_mem, keeps_bind, keeps_pure, keeps_modify]

theorem keeps_vload (c x sz m d addr) : KeepsM (vload c x sz m d addr) := by
  grind [vload, keeps_laneAccess, keeps_loadFrom, State.modCur_mem, keeps_bind, keeps_pure, keeps_get_bind,
    keeps_modify, keeps_forM]

theorem keeps_vstore (c sz m d addr) : KeepsM (vstore c sz m d addr) := by
  grind [vstore, keeps_laneAccess, keeps_storeTo, keeps_bind, keeps_pure, keeps_get_bind, keeps_forM]
theorem keeps_vbitsLoad (c v) : KeepsM (vbitsLoad c v) := by
  grind [vbitsLoad, keeps_laneAccess, keeps_loadFrom, State.modCur_mem, keeps_bind, keeps_modify, keeps_mapM]

theorem keeps_vbitsStore (c v) : KeepsM (vbitsStore c v) := by
  grind [vbitsStore, keeps_laneAccess, keeps_loadFrom, keeps_storeTo, keeps_bind, keeps_pure, keeps_get_bind,
    keeps_mapM, keeps_forM]

theorem keeps_svuRun (c) : KeepsM (svuRun c) := by
  grind [svuRun, keeps_vload, keeps_vstore, keeps_vbitsLoad, keeps_vbitsStore, State.modCur_mem, keeps_raise,
    keeps_bind, keeps_get_bind, keeps_modify]

theorem keeps_svuPut (op x y) : KeepsM (svuPut op x y) := by
  grind [svuPut, State.modCtx_mem, keeps_svuRun, State.modCur_mem, keeps_bind, keeps_pure, keeps_get_bind,
    keeps_modify, keeps_waitFor_bind]

theorem svu0_memWf {g op} (h : s.MemWf) (e : svu0 g op s = .next t) : t.MemWf := by
  refine issueStrand_memWf ?_ h e
  grind [keeps_svuPut]

theorem svuB_memWf {g op b} (h : s.MemWf) (e : svuB g op b s = .next t) : t.MemWf := by
  refine issueStrand_memWf ?_ h e
  grind [keeps_readReg, keeps_svuPut, keeps_bind]

theorem svuA_memWf {g op a} (h : s.MemWf) (e : svuA g op a s = .next t) : t.MemWf := by
  refine issueStrand_memWf ?_ h e
  grind [keeps_readReg, keeps_svuPut, keeps_bind]

theorem svuAB_memWf {g op a b} (h : s.MemWf) (e : svuAB g op a b s = .next t) : t.MemWf := by
  refine issueStrand_memWf ?_ h e
  grind [keeps_readReg, keeps_svuPut, keeps_bind]

theorem svuCross_memWf {g : Guard} {m : M (Option Word)} (hm : KeepsM m) (h : s.MemWf) (e : svuCross g m s = .next t) :
    t.MemWf := by
  have ho : s.openChunk.MemWf := by rwa [State.MemWf, State.openChunk_mem]
  unfold svuCross at e
  split at e
  · cases e
    exact State.ctrlStop_memWf h _
  split at e
  · dsimp only at e
    split at e <;> rename_i hr
    · cases e
      rw [State.MemWf, State.retire_mem]
      exact (keeps_svuPut ..).ok ho hr
    · exact State.settle_memWf ho ((keeps_svuPut ..).error ho hr) e
  · exact issue_memWf hm h e

theorem keeps_svuIdle : KeepsM svuIdle := by
  grind [svuIdle, keeps_waitFor, keeps_pure, keeps_get_bind]

theorem execVfence_memWf {g} (h : s.MemWf) (e : execVfence g s = .next t) : t.MemWf := by
  refine issueStrand_memWf ?_ h e
  grind [keeps_svuIdle, keeps_bind, keeps_pure]

theorem execVbusy_memWf {g d} (h : s.MemWf) (e : execVbusy g d s = .next t) : t.MemWf := by
  refine issueStrand_memWf ?_ h e
  grind [keeps_writeReg, keeps_bind, keeps_pure, keeps_get_bind]

theorem execVrel_memWf {g} (h : s.MemWf) (e : execVrel g s = .next t) : t.MemWf := by
  refine issueStrand_memWf ?_ h e
  grind [keeps_svuIdle, State.modCur_mem, keeps_bind, keeps_pure, keeps_modify]

theorem execVmget_memWf {g d a} (h : s.MemWf) (e : execVmget g d a s = .next t) : t.MemWf := by
  refine issueStrand_memWf ?_ h e
  grind [keeps_svuIdle, keeps_writeReg, keeps_bind, keeps_pure, keeps_get_bind]

theorem execVimaxs_memWf {g ty d a} (h : s.MemWf) (e : execVimaxs g ty d a s = .next t) : t.MemWf := by
  unfold execVimaxs at e
  have hmeet (sup : Bool) : KeepsM (do
      svuIdle
      let x := (← get).cur
      let own : CrossIn := if sup then { a := [], b := [], part := 0, sup := true } else x.vec.pair a
      if !x.ctx.gang then return [own]
      match x.crossOf own with
      | some ins => return ins
      | none => waitFor (.vimaxs sup x.nextSeq ty a)) := by
    refine keeps_bind keeps_svuIdle fun _ => keeps_get_bind fun s h => ?_
    grind [keeps_pure, keeps_waitFor]
  dsimp only at e hmeet
  split at e
  · have ho : s.openChunk.MemWf := by rwa [State.MemWf, State.openChunk_mem]
    split at e <;> rename_i hr
    · cases e
      rw [State.MemWf, State.retire_mem]
      exact (hmeet true).ok ho hr
    · exact State.settle_memWf ho ((hmeet true).error ho hr) e
  · refine issueStrand_memWf (keeps_bind (hmeet false) fun ins => keeps_get_bind fun s h => ?_) h e
    grind [keeps_normalise, keeps_raise, keeps_setPred, keeps_writeReg, keeps_bind, keeps_pure]

@[simp] theorem State.svuPop_mem (s : State) (core slot n) : (s.svuPop core slot n).mem = s.mem := rfl

theorem execSvuComplete_memWf {core slot} (h : s.MemWf) (e : execSvuComplete core slot s = .next t) : t.MemWf := by
  unfold execSvuComplete at e
  dsimp only at e
  split at e
  · split at e <;> cases e
    · refine foldl_memWf (fun s c h => ?_) _ h
      rwa [State.MemWf, State.modSlot_mem, State.modSlot_mem]
    · exact h
  split at e
  · cases e; exact h
  split at e
  · cases e; exact h
  split at e
  · split at e
    · cases e
      rwa [State.MemWf, State.svuPop_mem, State.modSlot_mem]
    · split at e <;> cases e
      · refine foldl_memWf (fun s p h => ?_) _ h
        rwa [State.MemWf, State.svuPop_mem, State.modSlot_mem, State.modSlot_mem]
      · exact h
  · next c _ _ _ _ =>
    have hr := (keeps_svuRun c).run { s with core, slot } h
    split at e <;> rename_i hq <;> rw [hq] at hr <;> cases e
    · rwa [State.MemWf, State.svuPop_mem]
    · exact h
    · rwa [State.MemWf, State.discardChunk_mem]

/-! ### Events of a core -/

theorem execDictionaryCode_memWf {i} (h : s.MemWf) (e : execDictionaryCode i s = .next t) : t.MemWf := by
  unfold execDictionaryCode at e
  have h1 : s.openChunk.MemWf := by rwa [State.MemWf, State.openChunk_mem]
  split at e
  · cases e
    exact State.ctrlStop_memWf h _
  dsimp only at e
  generalize s.openChunk = s1 at h1 e
  split at e
  · exact State.illegalUnit_memWf h1 e
  split at e
  · exact State.settle_memWf (x := .wait _ _) h1 trivial e
  grind [State.illegalUnit_memWf, State.modCore_mem, State.modCur_mem]

theorem State.resolveWalk_memWf (h : s.MemWf) (core dom va) : (s.resolveWalk core dom va).2.MemWf := by
  grind [State.resolveWalk, State.resolveFetch_memWf, State.walkProbe_memWf, State.tcFill_mem]

theorem State.dictWords_memWf (h : s.MemWf) (core dom pc n va) : (s.dictWords core dom pc n va).2.MemWf := by
  induction n generalizing s va with
  | zero => exact h
  | succ n ih =>
    have hw := State.resolveWalk_memWf h core dom va
    unfold State.dictWords
    split
    · exact h
    · split <;> rename_i hr <;> rw [hr] at hw
      · grind [State.codeAt_mem]
      all_goals exact hw

theorem State.dictWords_safe {core dom pc n va} {x : Stop} (e : (s.dictWords core dom pc n va).1 = .inl x) :
    x.Safe := by
  induction n generalizing s va with
  | zero => cases e
  | succ n ih =>
    unfold State.dictWords at e
    split at e
    · cases e
      exact fun s h => State.takeTrap_memWf h ..
    split at e
    · split at e
      · cases e
        exact fun s h => State.parkUnit_memWf h ..
      · dsimp only at e
        split at e
        · cases e
        · exact ih e
    · cases e
      exact fun s h => State.takeTrap_memWf h ..
    · cases e
      exact fun s h => State.parkPage_memWf h ..
    all_goals
      cases e
      exact fun s h => State.takeTrap_memWf h ..

theorem execDictionaryLoad_memWf {core slot} (h : s.MemWf) (e : execDictionaryLoad core slot s = .next t) :
    t.MemWf := by
  unfold execDictionaryLoad at e
  dsimp only at e
  split at e
  · cases e; exact h
  next l _ =>
  split at e
  · cases e; exact h
  have hd := State.dictWords_memWf h core ((s.slotAt core slot).ctx.tdom.toNat % 4096)
    (s.slotAt core slot).ctx.pc.toNat l.dcnt l.dict
  split at e <;> rename_i hr <;> rw [hr] at hd
  · cases e
    rwa [State.MemWf, State.mapSlots_mem, State.modCore_mem]
  · refine State.settle_memWf ?_ (State.dictWords_safe (congrArg Prod.fst hr)) e
    rwa [State.MemWf, State.modCur_mem]

@[simp] theorem State.unstick_mem (s : State) (c k) : (s.unstick c k).mem = s.mem := by
  grind [State.unstick, State.discardChunk_mem]

theorem execChunkCommit_memWf {core slot} (h : s.MemWf) (e : execChunkCommit core slot s = .next t) : t.MemWf := by
  grind [execChunkCommit, State.discardChunk_mem, State.unstick_mem, State.commitChunk_memWf, State.screen_memWf,
    foldl_memWf]

theorem execLockedReservation_memWf {core slot} (h : s.MemWf) (e : execLockedReservation core slot s = .next t) :
    t.MemWf := by
  grind [execLockedReservation, State.unstick_mem, State.setSlot_mem]

@[simp] theorem State.endReplays_mem (s : State) : s.endReplays.mem = s.mem := by
  grind [State.endReplays, State.modSlot_mem, State.discardChunk_mem, foldl_mem]
@[simp] theorem State.parkGangs_mem (s : State) : s.parkGangs.mem = s.mem := by
  grind [State.parkGangs, State.setSlot_mem, foldl_mem]
theorem State.parkMerger_memWf (h : s.MemWf) (unit w) : (s.parkMerger unit w).MemWf := by
  grind [State.parkMerger, State.discardChunk_mem, State.reseat_memWf, State.parkIn_memWf]
theorem State.parkMergers_memWf (h : s.MemWf) : s.parkMergers.MemWf := by
  grind [State.parkMergers, State.parkMerger_memWf, foldl_memWf]
theorem State.firstSteal_memWf {l} {v y} (h : s.MemWf) (e : s.firstSteal l = some (v, y, t)) : t.MemWf := by
  induction l <;> grind [State.firstSteal, State.stealFrom_memWf]

theorem execSteal_memWf {core slot} (h : s.MemWf) (e : execSteal core slot s = .next t) : t.MemWf := by
  grind [execSteal, State.seatWoken_memWf, State.takeOwn_memWf, State.settleAt_mem, State.place_mem,
    State.firstSteal_memWf, State.modCore_mem]

theorem execStrandArrival_memWf {core} (h : s.MemWf) (e : execStrandArrival core s = .next t) : t.MemWf := by
  grind [execStrandArrival, State.place_mem, State.modCore_mem]
theorem State.atHome_memWf (h : s.MemWf) (x core r) : (s.atHome x core r).2.MemWf := by
  grind [State.atHome, State.resolve_memWf]

theorem execRemoteWordAccess_memWf {core slot} (h : s.MemWf) (e : execRemoteWordAccess core slot s = .next t) :
    t.MemWf := by
  grind [execRemoteWordAccess, State.atHome_memWf, State.modSlot_mem]

theorem execRemoteReply_memWf {core slot v} (h : s.MemWf) (e : execRemoteReply core slot v s = .next t) :
    t.MemWf := by
  grind [execRemoteReply, State.modSlot_mem]

theorem execTranslationWalk_memWf {core slot} (h : s.MemWf) (e : execTranslationWalk core slot s = .next t) :
    t.MemWf := by
  unfold execTranslationWalk at e
  split at e
  · cases e; exact h
  dsimp only at e
  split at e
  · next va _ =>
    have hw := State.walkProbe_memWf h va
    generalize s.walkProbe va = s1 at hw e
    have hn : (({ s1 with core, slot } : State).modCur fun x => { x with wait := none, unit := .never }).MemWf := by
      rwa [State.MemWf, State.modCur_mem]
    split at e
    · grind [State.tcFill_mem, State.modSlot_mem]
    · exact State.settle_after_memWf hn (fun s h => State.parkPage_memWf h ..) e
    · exact State.settle_memWf hn (fetchTrap_safe _ _) e
  · next va die req _ =>
    have hw := State.walkProbe_memWf h va
    generalize s.walkProbe va = s1 at hw e
    have hn : (({ s1 with core, slot } : State).modCur fun x => { x with wait := none }).MemWf := by
      rwa [State.MemWf, State.modCur_mem]
    split at e
    · grind [State.tcFill_mem, State.modSlot_mem]
    · exact State.settle_after_memWf hn (fun s h => State.parkPage_memWf h ..) e
    · grind [State.modSlot_mem]
  · cases e; exact h

/-! ### Scrubbing and retiring frames -/

theorem State.report_memWf (h : s.MemWf) (start len cls store arg2) : (s.report start len cls store arg2).MemWf := by
  grind [State.report, State.post_memWf]
@[simp] theorem State.closeEntry_mem (s : State) (frame) : (s.closeEntry frame).mem = s.mem := rfl

theorem State.retireFrame_memWf (h : s.MemWf) (x) : (s.retireFrame x).MemWf := by
  grind [State.retireFrame, State.closeEntry_mem, State.report_memWf, State.probe_memWf, State.movePage_memWf,
    State.errAdd_mem]

theorem State.retireDue_memWf (h : s.MemWf) : s.retireDue.MemWf := by
  grind [State.retireDue, State.post_memWf, State.retireFrame_memWf, foldl_memWf]
theorem State.scrubbed_memWf (h : s.MemWf) (f) : (s.scrubbed f).MemWf := by
  grind [State.scrubbed, State.errAdd_mem, State.countFrame_mem, State.found_memWf]
theorem execScrubRead_memWf {pa} (h : s.MemWf) (e : execScrubRead pa s = .next t) : t.MemWf := by
  grind [execScrubRead, State.scrubbed_memWf, State.postFor_memWf, foldl_memWf]

theorem execErrorEntryExpiry_memWf {stack frame} (h : s.MemWf) (e : execErrorEntryExpiry stack frame s = .next t) :
    t.MemWf := by
  grind [execErrorEntryExpiry]

/-! ### Peer devices and links -/

theorem State.serveRecall_memWf (h : s.MemWf) (id) : (s.serveRecall id).2.MemWf := by
  grind [State.serveRecall, State.guestHome_memWf, State.modSlot_mem, State.sendPeer_memWf, State.contextHome_memWf,
    foldl_memWf]

@[simp] theorem State.cameFrom_mem (s : State) (p) : (s.cameFrom p).mem = s.mem := rfl
theorem State.strandGone_memWf (h : s.MemWf) (id) : (s.strandGone id).MemWf := by
  grind [State.strandGone, State.cameFrom_mem, State.sendPeer_memWf, State.settleBlock_mem]
theorem State.strandBorn_memWf (h : s.MemWf) (parent child) : (s.strandBorn parent child).MemWf := by
  grind [State.strandBorn, State.sendPeer_memWf, foldl_memWf]

theorem State.servePeer_memWf (h : s.MemWf) (dom va op) : (s.servePeer dom va op).2.MemWf := by
  unfold State.servePeer
  grind [State.devSpot_memWf, State.poisonMet_memWf, State.awaitPage_memWf, State.probe_memWf, State.devRead_memWf,
    State.devWrite_memWf, State.probePart_memWf, State.serveRecall_memWf, State.strandGone_memWf,
    State.strandBorn_memWf]

theorem State.retryPeers_memWf (h : s.MemWf) (l held) : (s.retryPeers l held).MemWf := by
  induction l generalizing s held with
  | nil => exact h
  | cons p ps ih =>
    unfold State.retryPeers
    grind [State.servePeer_memWf]

theorem execPeerRequest_memWf {dom va op} (h : s.MemWf) (e : execPeerRequest dom va op s = .next t) : t.MemWf := by
  unfold execPeerRequest at e
  grind [State.retryPeers_memWf]

theorem State.comeHome_memWf (h : s.MemWf) (x va) : (s.comeHome x va).MemWf := by
  grind [State.comeHome, State.takeFseq_mem, State.modCore_mem, State.pushTop_memWf]
@[simp] theorem State.welcome_mem (s : State) (dev x) : (s.welcome dev x).mem = s.mem := by
  grind [State.welcome, State.drawBit_mem]
@[simp] theorem State.arrive_mem (s : State) (x va) : (s.arrive x va).mem = s.mem := rfl

theorem State.comeBack_memWf (h : s.MemWf) (p dev x va line) : (s.comeBack p dev x va line).MemWf := by
  grind [State.comeBack, State.cameFrom_mem, State.shipBack_memWf, State.comeHome_memWf, State.arrive_mem,
    State.sendPeer_memWf]

theorem execPeerStrandArrival_memWf {dev line va} (h : s.MemWf) (e : execPeerStrandArrival dev line va s = .next t) :
    t.MemWf := by
  grind [execPeerStrandArrival, State.comeBack_memWf, State.welcome_mem, State.arrive_mem, State.shipBack_memWf]

@[simp] theorem State.setLink_mem (s : State) (l x) : (s.setLink l x).mem = s.mem := rfl

theorem execLinkRetransmit_memWf {link cls} (h : s.MemWf) (e : execLinkRetransmit link cls s = .next t) :
    t.MemWf := by
  grind [execLinkRetransmit, State.setLink_mem]

@[simp] theorem State.delivered_mem (s : State) (x) : (s.delivered x).2.mem = s.mem := by
  unfold State.delivered
  split <;> rfl

theorem State.slotCut_memWf (h : s.MemWf) (l x) : (s.slotCut l x).MemWf := by
  grind [State.slotCut, State.delivered_mem, State.atSlot_memWf, State.closeBefore_memWf, State.reseat_memWf,
    State.parkDown_memWf]

@[simp] theorem State.streamsCut_mem (s : State) (l x) : (s.streamsCut l x).mem = s.mem := by
  grind [State.streamsCut, State.delivered_mem, State.modSlot_mem, foldl_mem]

theorem State.linkLost_memWf (h : s.MemWf) (l) : (s.linkLost l).MemWf := by
  grind [State.linkLost, State.slotCut_memWf, State.streamsCut_mem, State.drawBit_mem, State.delivered_mem,
    State.cameFrom_mem, State.shipBack_memWf, State.comeHome_memWf, foldl_memWf]

theorem execLinkRetrain_memWf {link ok} (h : s.MemWf) (e : execLinkRetrain link ok s = .next t) : t.MemWf := by
  grind [execLinkRetrain, State.errAdd_mem, State.setLink_mem, State.report_memWf, State.linkLost_memWf]

/-! ### Verdicts on event records -/

theorem State.discardWhere_memWf (h : s.MemWf) (p) : (s.discardWhere p).MemWf := by
  grind [State.discardWhere, State.endStrand_memWf, State.seatWoken_memWf, State.settleBlock_mem, foldl_memWf]
@[simp] theorem State.resumeHalted_mem (s : State) (id) : (s.resumeHalted id).mem = s.mem := rfl
theorem State.idleCtrl_memWf (h : s.MemWf) (k) : (s.idleCtrl k).MemWf := by
  grind [State.idleCtrl, State.devWrite_memWf, State.modCluster_mem]
@[simp] theorem State.packetVerdict_mem (s : State) (q v) : (s.packetVerdict q v).mem = s.mem := by
  grind [State.packetVerdict, State.completePkt_mem, State.retryPkt_mem, State.dropPkt_mem]

theorem State.poisonVerdict_memWf (h : s.MemWf) (r v) : (s.poisonVerdict r v).MemWf := by
  grind [State.poisonVerdict, State.putPhys_memWf, State.devWrite_memWf, State.mapKept_mem, State.discardWhere_memWf,
    State.wakeWhere_memWf, State.wakeForeign_memWf]

theorem State.answered_memWf (h : s.MemWf) (r v arg) : (s.answered r v arg).MemWf := by
  grind [State.answered, State.pageServed_memWf, State.swapVerdict_mem, State.victimNamed_memWf,
    State.retireFrame_memWf, State.closeEntry_mem, State.addMig_memWf, State.resumeHalted_mem,
    State.discardWhere_memWf, State.packetVerdict_mem, State.idleCtrl_memWf, State.poisonVerdict_memWf, foldl_memWf]

theorem State.meqAnswered_memWf (h : s.MemWf) (w) : (s.meqAnswered w).MemWf := by
  grind [State.meqAnswered, State.answered_memWf]

/-! ### The register window -/

@[simp] theorem State.writePtroot_mem (s : State) (v) : (s.writePtroot v).mem = s.mem := rfl
@[simp] theorem State.flushPlbs_mem (s : State) : s.flushPlbs.mem = s.mem := rfl
theorem State.writeTcinv_memWf (h : s.MemWf) (v) : (s.writeTcinv v).MemWf := by
  grind [State.writeTcinv, State.invalidatePage_memWf]
theorem State.writeHome_memWf (h : s.MemWf) (i v) : (s.writeHome i v).MemWf := by
  grind [State.writeHome, State.switchHome_memWf]

@[simp] theorem State.moveDens_mem (s : State) (base num) : (s.moveDens base num).mem = s.mem := by
  unfold State.moveDens
  split <;> rfl

theorem State.deviceWrite_memWf (h : s.MemWf) (off mask v) : (s.deviceWrite off mask v).MemWf := by
  unfold State.deviceWrite
  grind [State.writePtroot_mem, State.flushPlbs_mem, State.writeTcinv_memWf, State.meqAnswered_memWf,
    State.moveDens_mem, State.requestMove_memWf]

@[simp] theorem State.clusterWrite_mem (s : State) (bank k off mask v) :
    (s.clusterWrite bank k off mask v).mem = s.mem := by
  unfold State.clusterWrite
  grind [State.modCluster_mem, State.writeHeld_mem]

@[simp] theorem State.queueWrite_mem (s : State) (q off mask v) : (s.queueWrite q off mask v).mem = s.mem := by
  unfold State.queueWrite
  split <;> rfl

theorem State.regWrite_memWf (h : s.MemWf) (off mask v) : (s.regWrite off mask v).MemWf := by
  unfold State.regWrite
  split <;> grind [State.deviceWrite_memWf, State.writeHome_memWf, State.modCore_mem, State.clusterWrite_mem,
    State.queueWrite_mem, foldl_memWf]

theorem State.windowWrite_memWf (h : s.MemWf) (off mask v) : (s.windowWrite off mask v).MemWf := by
  grind [State.windowWrite, State.lqSettle_memWf, State.meqDrain_memWf, State.regWrite_memWf]

theorem State.releaseWrites_memWf (h : s.MemWf) (n) : (s.releaseWrites n).MemWf := by
  induction n generalizing s with
  | zero => exact h
  | succ n ih =>
    unfold State.releaseWrites
    split
    · exact h
    · next off mask v rest _ =>
      split
      · exact h
      · exact ih (State.windowWrite_memWf (s := { s with windowQ := rest }) h _ _ _)

theorem State.hostWrite_memWf (h : s.MemWf) (off mask v) : (s.hostWrite off mask v).MemWf := by
  grind [State.hostWrite, State.releaseWrites_memWf]
theorem State.hostReg_memWf (h : s.MemWf) (off mask v) : (s.hostReg off mask v).MemWf := by
  grind [State.hostReg, State.hostWrite_memWf]
theorem execHometabWrite_memWf {i v} (h : s.MemWf) (e : execHometabWrite i v s = .next t) : t.MemWf := by
  grind [execHometabWrite, State.hostReg_memWf]
theorem execLqwidxWrite_memWf {q v} (h : s.MemWf) (e : execLqwidxWrite q v s = .next t) : t.MemWf := by
  grind [execLqwidxWrite, State.hostReg_memWf]
theorem execLqctlWrite_memWf {q v} (h : s.MemWf) (e : execLqctlWrite q v s = .next t) : t.MemWf := by
  grind [execLqctlWrite, State.hostReg_memWf]
theorem execLqnextWrite_memWf {p v} (h : s.MemWf) (e : execLqnextWrite p v s = .next t) : t.MemWf := by
  grind [execLqnextWrite, State.hostReg_memWf]
theorem execCspreWrite_memWf {cluster v} (h : s.MemWf) (e : execCspreWrite cluster v s = .next t) : t.MemWf := by
  grind [execCspreWrite, State.hostReg_memWf]
theorem execOmcfgWrite_memWf {cluster v} (h : s.MemWf) (e : execOmcfgWrite cluster v s = .next t) : t.MemWf := by
  grind [execOmcfgWrite, State.hostReg_memWf]
theorem execRegisterWrite_memWf {off v} (h : s.MemWf) (e : execRegisterWrite off v s = .next t) : t.MemWf := by
  grind [execRegisterWrite, State.hostReg_memWf]
theorem execInvalidationComplete_memWf (h : s.MemWf) (e : execInvalidationComplete s = .next t) : t.MemWf := by
  grind [execInvalidationComplete, State.releaseWrites_memWf]
theorem State.barWord_memWf (h : s.MemWf) (p) : (s.barWord p).MemWf := by
  grind [State.barWord, State.hostWrite_memWf]

theorem State.barStore_memWf (h : s.MemWf) (bar l) : (s.barStore bar l).1.MemWf := by
  induction l generalizing s with
  | nil => exact h
  | cons p ps ih => grind [State.barStore, State.parserSpot_memWf, State.spotPut_memWf, State.awaitPage_memWf]

theorem State.barLoad_memWf (h : s.MemWf) (bar l) : (s.barLoad bar l).2.MemWf := by
  induction l generalizing s with
  | nil => exact h
  | cons p ps ih => grind [State.barLoad, State.parserSpot_memWf, State.parserRead_memWf, State.awaitPage_memWf]

theorem State.hostServe_memWf (h : s.MemWf) (bar off acc) : (s.hostServe bar off acc).1.MemWf := by
  unfold State.hostServe
  grind [State.barWord_memWf, State.barStore_memWf, State.barLoad_memWf, foldl_memWf]

theorem State.hostQueue_memWf (h : s.MemWf) (l) : (s.hostQueue l).MemWf := by
  induction l generalizing s with
  | nil => exact h
  | cons p ps ih =>
    unfold State.hostQueue
    grind [State.hostServe_memWf]

theorem execHostAccess_memWf {bar off acc} (h : s.MemWf) (e : execHostAccess bar off acc s = .next t) : t.MemWf := by
  grind [execHostAccess, State.hostQueue_memWf]

/-! ### Reset, attestation and the control core -/

theorem execControlCoreStart_memWf {cluster} (h : s.MemWf) (e : execControlCoreStart cluster s = .next t) :
    t.MemWf := by
  grind [execControlCoreStart, State.startCtrl_mem, State.probe_memWf]

theorem execControlCoreHalt_memWf {cluster} (h : s.MemWf) (e : execControlCoreHalt cluster s = .next t) :
    t.MemWf := by
  grind [execControlCoreHalt, State.probe_memWf, State.modCluster_mem, State.haltCtrl_memWf]

theorem State.reportRead_memWf {va n} {y} (h : s.MemWf) (e : s.reportRead va n = some (y, t)) : t.MemWf := by
  grind [State.reportRead, State.parserSpot_memWf, State.parserRead_memWf]

theorem State.reportWrite_memWf {l} (h : s.MemWf) (e : s.reportWrite l = some t) : t.MemWf := by
  induction l generalizing s with
  | nil => grind [State.reportWrite]
  | cons p ps ih => grind [State.reportWrite, State.parserSpot_memWf, State.spotWrite_memWf]

theorem State.mgmtActs_memWf (h : s.MemWf) : s.mgmtActs.MemWf := by
  grind [State.mgmtActs, State.probe_memWf]

theorem execAttestationComplete_memWf (h : s.MemWf) (e : execAttestationComplete s = .next t) : t.MemWf := by
  unfold execAttestationComplete at e
  split at e
  · cases e; exact h
  extract_lets va done s1 at e
  have h1 : s1.MemWf := State.mgmtActs_memWf h
  have hdone (s : State) (h : s.MemWf) : (done s).MemWf := h
  clear_value s1 done va
  have hp (a) := State.parserSpot_memWf h1 0 2 a []
  split at e
  · next hr =>
    cases e
    refine State.awaitPage_memWf ?_ _
    have := hp va
    rwa [hr] at this
  · next hr _ =>
    cases e
    refine State.awaitPage_memWf ?_ _
    have := hp ((va + 0x58F) % 2 ^ 64)
    rwa [hr] at this
  · split at e
    · cases e
      exact hdone _ h1
    · next hr =>
      cases e
      have hr := State.reportRead_memWf h1 hr
      exact hdone _ (getD_memWf hr fun t ht => State.reportWrite_memWf hr ht)

theorem execPowerCapTick_memWf {watts} (h : s.MemWf) (e : execPowerCapTick watts s = .next t) : t.MemWf := by
  grind [execPowerCapTick, State.mgmtActs_memWf]
theorem State.coldReset_memWf (h : s.MemWf) : s.coldReset.MemWf := Memory.wf_filter h _
theorem execColdReset_memWf (h : s.MemWf) (e : execColdReset s = .next t) : t.MemWf := by
  grind [execColdReset, State.coldReset_memWf]
theorem State.writeAllBack_memWf (h : s.MemWf) : s.writeAllBack.MemWf := by
  grind [State.writeAllBack, State.writeBack_memWf, State.l2Back_memWf, foldl_memWf]

theorem State.functionReset_memWf (h : s.MemWf) : s.functionReset.MemWf := by
  grind [State.functionReset, State.landStreams_memWf, State.writeAllBack_memWf, State.mergeWhere_memWf,
    State.mapSlots_mem, foldl_memWf]

theorem execFunctionLevelReset_memWf (h : s.MemWf) (e : execFunctionLevelReset s = .next t) : t.MemWf := by
  grind [execFunctionLevelReset, State.functionReset_memWf]

theorem execPowerOn_memWf (h : s.MemWf) (e : execPowerOn s = .next t) : t.MemWf := by
  grind [execPowerOn, State.coldReset_memWf]

/-! ### Text -/

theorem keeps_textLoad (va n) : KeepsM (textLoad va n) := by
  grind [textLoad, keeps_access, keeps_loadFrom, keeps_bind]
theorem keeps_trieNode (base n) : KeepsM (trieNode base n) := by
  grind [trieNode, keeps_textLoad, keeps_bind, keeps_pure, keeps_trap_bind]

theorem keeps_trieSearch (list x n lo hi) : KeepsM (trieSearch list x n lo hi) := by
  induction n generalizing lo hi with
  | zero => exact keeps_pure _
  | succ n ih => grind [trieSearch, keeps_bind, keeps_pure, keeps_textLoad]

theorem keeps_trieStep (st base x) : KeepsM (trieStep st base x) := by
  grind [trieStep, keeps_trieNode, keeps_trieSearch, keeps_bind, keeps_pure]

theorem execTrie_memWf {g d a b} (h : s.MemWf) (e : execTrie g d a b s = .next t) : t.MemWf := by
  refine issueStrand_memWf ?_ h e
  grind [keeps_readReg, keeps_trieStep, keeps_writeReg, keeps_bind, keeps_pure]

theorem execUdec_memWf {g d a} (h : s.MemWf) (e : execUdec g d a s = .next t) : t.MemWf := by
  refine issueStrand_memWf ?_ h e
  grind [keeps_readReg, keeps_writeReg, keeps_bind, keeps_pure]

theorem execUhold_memWf {g d a b} (h : s.MemWf) (e : execUhold g d a b s = .next t) : t.MemWf := by
  refine issueStrand_memWf ?_ h e
  grind [keeps_readReg, keeps_textLoad, keeps_writeReg, keeps_bind, keeps_pure, keeps_mapM]

/-! ### Every instruction -/

theorem exec_memWf {i} (h : s.MemWf) (e : exec i s = .next t) : t.MemWf := by
  cases i with
  | add | sub | and | or | xor | andn | orn | sll | srl | sra | rol | ror | min | max | minn | maxn | mul | mulh
  | mulhn | bfx | bfxs => exact issue_memWf (keeps_op2 ..) h e
  | clz | ctz | popc | brev | bswap | sext | zext | addi | andi | ori | xori | shiSll | shiSrl | shiSra | shiRol
  | shiRor | lis => exact issue_memWf (keeps_op1 ..) h e
  | li => exact execLi_memWf h e
  | cmp => exact execCmp_memWf h e
  | cmpi => exact execCmpi_memWf h e
  | pand | por | pxor => exact issue_memWf (keeps_predOp ..) h e
  | pnot => exact execPnot_memWf h e
  | pget => exact execPget_memWf h e
  | pset => exact execPset_memWf h e
  | sel => exact execSel_memWf h e
  | tern | bfi => exact issue_memWf (keeps_op3 ..) h e
  | div | divn | rem | remn => exact issue_memWf (keeps_divOp ..) h e
  | divideComplete => exact execDivideComplete_memWf h e
  | br => exact execBr_memWf h e
  | bl => exact execBl_memWf h e
  | jmp => exact execJmp_memWf h e
  | jmpl => exact execJmpl_memWf h e
  | fadd | fsub | fmul | fmin | fmax | fcpys => exact issueStrand_memWf (keeps_fop2 ..) h e
  | fabs | fneg | fclass => exact issueStrand_memWf (keeps_fop1 ..) h e
  | fma => exact execFma_memWf h e
  | fcmp => exact execFcmp_memWf h e
  | cvt => exact execCvt_memWf h e
  | cvte => exact execCvte_memWf h e
  | rcp | rsq | sqrt | log2 | exp2 | sin | cos | tanh | sigm => exact issueStrand_memWf (keeps_sfuOp ..) h e
  | sfuComplete => exact execSfuComplete_memWf h e
  | normaliserService => exact execNormaliserService_memWf h e
  | ldn => exact execLdn_memWf h e
  | lds => exact execLds_memWf h e
  | st => exact execSt_memWf h e
  | ldx => exact execLdx_memWf h e
  | stx => exact execStx_memWf h e
  | ldfeKeep | ldfeTake | ldfePeek => exact issueStrand_memWf (keeps_ldfe ..) h e
  | stfeFill | stfeForce => exact issueStrand_memWf (keeps_stfe ..) h e
  | stfeClear => exact execStfeClear_memWf h e
  | fullEmptyRetest => exact execFullEmptyRetest_memWf h e
  | atomAdd | atomMin | atomMax | atomMinn | atomMaxn | atomAnd | atomOr | atomXor | atomSwap | atomCas
  | atomFaddF32 => exact issueStrand_memWf (keeps_atom ..) h e
  | cupdAdd | cupdMin | cupdMax | cupdOr | cupdFaddF32 => exact issueStrand_memWf (keeps_cupd ..) h e
  | fence => exact execFence_memWf h e
  | cend => exact execCend_memWf h e
  | home => exact execHome_memWf h e
  | migr => exact execMigr_memWf h e
  | stay => exact execStay_memWf h e
  | linit => exact execLinit_memWf h e
  | lmove => exact execLmove_memWf h e
  | lpop => exact execLpop_memWf h e
  | stbind => exact execStbind_memWf h e
  | stfree => exact execStfree_memWf h e
  | ststat => exact execStstat_memWf h e
  | streamElementArrival => exact execStreamElementArrival_memWf h e
  | streamDrain => exact execStreamDrain_memWf h e
  | xcopyCopy | xcopyFill | xcopyPack | xcopyUnpack | mma | mld | mst | mclr | mqry | mrecl | attn | maskset
  | kvapp | kvcommit | kvtrunc | linfold | pref | rcat | rsplitLo | rsplitHi | rsplice | rleaf | ridx | rsum
  | rsumFix | rlen | rref | rdrop | rwalk | rclass | iqput | iqget | iqwave | iqcons | iqbind | iqbindStage
  | iqprobe | iqupd | iqquiet => exact issueStrand_memWf (keeps_engineIssue ..) h e
  | fork => exact execFork_memWf h e
  | fget => exact execFget_memWf h e
  | fput => exact execFput_memWf h e
  | exit => exact execExit_memWf h e
  | yield => exact execYield_memWf h e
  | slstart => exact execSlstart_memWf h e
  | slreap => exact execSlreap_memWf h e
  | slquery => exact execSlquery_memWf h e
  | wake => exact execWake_memWf h e
  | wakeMessage => exact execWakeMessage_memWf h e
  | gang => exact execGang_memWf h e
  | gangFormation => exact execGangFormation_memWf h e
  | ungang => exact execUngang_memWf h e
  | barinit => exact execBarinit_memWf h e
  | bararr => exact execBararr_memWf h e
  | barwait => exact execBarwait_memWf h e
  | barrierRelease => exact execBarrierRelease_memWf h e
  | barleave => exact execBarleave_memWf h e
  | send => exact execSend_memWf h e
  | mailboxDelivery => exact execMailboxDelivery_memWf h e
  | recv => exact execRecv_memWf h e
  | mbstat => exact execMbstat_memWf h e
  | nqHop => exact execNqHop_memWf h e
  | wqput => exact execWqput_memWf h e
  | wqget => exact execWqget_memWf h e
  | wqlen => exact execWqlen_memWf h e
  | turn => exact execTurn_memWf h e
  | turnReg => exact execTurnReg_memWf h e
  | poolid => exact execPoolid_memWf h e
  | omTurn => exact execOmTurn_memWf h e
  | trap => exact execTrap_memWf h e
  | eret => exact execEret_memWf h e
  | crd => exact execCrd_memWf h e
  | cwr => exact execCwr_memWf h e
  | brk => exact execBrk_memWf h e
  | lcset => exact execLcset_memWf h e
  | lcget => exact execLcget_memWf h e
  | halt => exact execHalt_memWf h e
  | vadd | vsub | vmul | vfma | vmin | vmax | vabs | vneg | vcmp | vsel | vand | vor | vxor | vtern | vshl | vshr
  | vcvt | vcvte | vlog2 | vexp2 | vrcp | vrsq | vtanh | vsigm | vimax | vpopc | vmand | vmor | vmxor | vmnot =>
    exact svu0_memWf h e
  | vaddScalar | vsubScalar | vmulScalar | vfmaScalar | vminScalar | vmaxScalar | vcmpScalar | vselScalar
  | vandScalar | vorScalar | vxorScalar | vshlScalar | vshrScalar | vimaxScalar | vsplat => exact svuB_memWf h e
  | vredadd | vredmax | vscan | vperm | vbcast => exact svuCross_memWf (keeps_svuPut ..) h e
  | vpermScalar | vbcastScalar => exact svuCross_memWf (keeps_bind (keeps_readReg _) fun _ => keeps_svuPut ..) h e
  | vld | vst | vbitsLd | vbitsSt => exact svuAB_memWf h e
  | vldx | vstx | vmset => exact svuA_memWf h e
  | vfence => exact execVfence_memWf h e
  | vbusy => exact execVbusy_memWf h e
  | vrel => exact execVrel_memWf h e
  | vmget => exact execVmget_memWf h e
  | vimaxs => exact execVimaxs_memWf h e
  | svuComplete => exact execSvuComplete_memWf h e
  | mfmt => exact execMfmt_memWf h e
  | trie => exact execTrie_memWf h e
  | udec => exact execUdec_memWf h e
  | uhold => exact execUhold_memWf h e
  | iqgetWaitServe => exact execIqgetWaitServe_memWf h e
  | dictionaryCode => exact execDictionaryCode_memWf h e
  | dictionaryLoad => exact execDictionaryLoad_memWf h e
  | chunkCommit => exact execChunkCommit_memWf h e
  | lockedReservation => exact execLockedReservation_memWf h e
  | steal => exact execSteal_memWf h e
  | strandArrival => exact execStrandArrival_memWf h e
  | remoteWordAccess => exact execRemoteWordAccess_memWf h e
  | remoteReply => exact execRemoteReply_memWf h e
  | translationWalk => exact execTranslationWalk_memWf h e
  | pageService => exact execPageService_memWf h e
  | pageMigration => exact execPageMigration_memWf h e
  | migrationEpoch => exact execMigrationEpoch_memWf h e
  | engineCompletion => exact execEngineCompletion_memWf h e
  | dmodeWrite | ptrootWrite | drtbaseWrite | plbflush | tcinv | migreq | hwake | meqidxWrite | meqAnswer
  | attctlGo | meqbaseWrite => exact next_memWf (State.hostReg_memWf h ..) e
  | hometabWrite => exact execHometabWrite_memWf h e
  | invalidationComplete => exact execInvalidationComplete_memWf h e
  | lqwidxWrite => exact execLqwidxWrite_memWf h e
  | lqnextWrite => exact execLqnextWrite_memWf h e
  | launchPacket => exact execLaunchPacket_memWf h e
  | fencePacket => exact execFencePacket_memWf h e
  | fencePacketRecheck => exact execFencePacketRecheck_memWf h e
  | signalPacket => exact execSignalPacket_memWf h e
  | copyPacket => exact execCopyPacket_memWf h e
  | modePacket => exact execModePacket_memWf h e
  | blockDeal => exact execBlockDeal_memWf h e
  | launchComplete => exact execLaunchComplete_memWf h e
  | sliceExpiry => exact execSliceExpiry_memWf h e
  | cspreWrite => exact execCspreWrite_memWf h e
  | idleThreshold => exact execIdleThreshold_memWf h e
  | blockSwapOut => exact execBlockSwapOut_memWf h e
  | denReadmit => exact execDenReadmit_memWf h e
  | omcfgWrite => exact execOmcfgWrite_memWf h e
  | attestationComplete => exact execAttestationComplete_memWf h e
  | powerCapTick => exact execPowerCapTick_memWf h e
  | registerWrite => exact execRegisterWrite_memWf h e
  | controlCoreStart => exact execControlCoreStart_memWf h e
  | controlCoreHalt => exact execControlCoreHalt_memWf h e
  | hostAccess => exact execHostAccess_memWf h e
  | peerRequest => exact execPeerRequest_memWf h e
  | peerStrandArrival => exact execPeerStrandArrival_memWf h e
  | linkRetransmit => exact execLinkRetransmit_memWf h e
  | linkRetrain => exact execLinkRetrain_memWf h e
  | scrubRead => exact execScrubRead_memWf h e
  | errorEntryExpiry => exact execErrorEntryExpiry_memWf h e
  | coldReset => exact execColdReset_memWf h e
  | functionLevelReset => exact execFunctionLevelReset_memWf h e
  | powerOn => exact execPowerOn_memWf h e
  | lqctlWrite => exact execLqctlWrite_memWf h e

/-! ### One step -/

theorem runUnit_memWf {u} (h : s.MemWf) (e : runUnit u s = .next t) : t.MemWf := by
  have hu : (s.withUnit u).MemWf := by rwa [State.MemWf, State.withUnit_mem]
  cases u with
  | instr i => exact exec_memWf hu e
  | never =>
    refine next_memWf ?_ e
    rwa [State.MemWf, State.retire_mem, State.openChunk_mem]
  | illegal r => exact State.illegalUnit_memWf hu e

theorem runCode_memWf {u} (h : s.MemWf) (e : runCode u s = .next t) : t.MemWf := by
  unfold runCode at e
  split at e
  · next hr =>
    have hu := runUnit_memWf h hr
    split at e
    · exact runUnit_memWf hu e
    · cases e; exact hu
  · cases e
  · cases e

theorem issueNext_memWf (h : s.MemWf) (e : issueNext s = .next t) : t.MemWf := by
  unfold issueNext at e
  have hf := State.fetch_memWf h
  dsimp only at e
  split at e
  · exact runCode_memWf hf e
  · next hr =>
    refine State.settle_memWf ?_ (State.fetch_safe hr) e
    rwa [State.MemWf, State.withUnit_mem]

@[simp] theorem State.turnBack_mem (s : State) (c q) : (s.turnBack c q).mem = s.mem := rfl

theorem turns_memWf {c n} {r} (h : s.MemWf) (e : turns c n s = .next r) : r.2.MemWf := by
  induction n generalizing s with
  | zero => grind [turns]
  | succ n ih => grind [turns, State.coreCycle_mem, issueNext_memWf, State.turnBack_mem]

theorem tick_memWf {c} (h : s.MemWf) (e : tick c s = .next t) : t.MemWf := by
  unfold tick at e
  split at e
  · next hr =>
    refine next_memWf ?_ e
    rw [State.MemWf, State.countCycle_mem]
    exact turns_memWf h hr
  · cases e
  · cases e

theorem complete_memWf {c k} (h : s.MemWf) (e : complete c k s = .next t) : t.MemWf := by
  unfold complete at e
  split at e
  · dsimp only at e
    split at e
    · exact issueNext_memWf (by exact h) e
    · exact runCode_memWf (by exact h) e
  · cases e; exact h

theorem ctrlTick_memWf {k} (h : s.MemWf) (e : ctrlTick k s = .next t) : t.MemWf := by
  have hc : (s.atCtrl k).MemWf := by rwa [State.MemWf, State.atCtrl_mem]
  unfold ctrlTick at e
  dsimp only at e
  split at e
  · split at e <;> rename_i hr
    · exact runUnit_memWf (State.fetchCtrl_inr_memWf hc hr) e
    · exact next_memWf (State.fetchCtrl_inl_memWf hc hr) e
  · exact next_memWf hc e

theorem move_memWf {m} (h : s.MemWf) (e : move m s = .next t) : t.MemWf := by
  unfold move at e
  split at e
  · exact tick_memWf h e
  · cases e
    rwa [State.MemWf, State.schedCycle_mem]
  · exact complete_memWf h e
  · exact ctrlTick_memWf h e
  · cases e
    exact State.performLate_memWf h _
  · split at e
    · exact exec_memWf h e
    · cases e; exact h

theorem firstMove_memWf {l} (h : s.MemWf) (e : firstMove s l = .next t) : t.MemWf := by
  induction l with
  | nil => grind [firstMove]
  | cons p ps ih => grind [firstMove, move_memWf]

theorem State.attend_memWf {old : State} (hs : s.MemWf) (ho : old.MemWf) : (s.attend old).MemWf := by
  grind [State.attend, State.meqDrain_memWf, State.parkGangs_mem, State.parkMergers_memWf, State.endReplays_mem,
    State.noteEmpty_mem, State.framesFreed_mem, State.keepFrames_memWf, State.sendHeld_memWf, State.lqRetry_memWf,
    State.retireDue_memWf]

theorem attended_memWf {old : State} {o} (h : old.MemWf) (ho : ∀ u, o = .next u → u.MemWf)
    (e : attended old o = .next t) : t.MemWf := by
  cases o with
  | next u =>
    cases e
    exact State.attend_memWf (ho u rfl) h
  | fault f => cases e
  | refused r => cases e

theorem step_memWf (h : s.MemWf) (e : step s = .next t) : t.MemWf := by
  refine attended_memWf h (fun u hu => ?_) e
  split at hu
  · exact move_memWf (by exact h) hu
  · exact firstMove_memWf h hu

end

/-- Settles O60: a step runs one move, or the first automatic one that changes the machine, and whatever a move runs
keeps memory canonical; `attended` then does the step's bookkeeping, which keeps it too. -/
theorem everyStepKeepsTheInvariant : Obligations.EveryStepKeepsTheInvariant := by
  unfold Obligations.EveryStepKeepsTheInvariant
  intro s t h e
  exact step_memWf h e

end Sys2Proof.Machine

/-! SUPPORT and O55. What the register window reads at reset. -/

namespace Sys2Proof.Machine

theorem State.deviceRead_reset {o : Nat} (h : o ≠ 0x1B8) : State.reset.deviceRead o = 0 := by
  unfold State.deviceRead
  dsimp only
  split
  case h_20 => exact absurd rfl h
  all_goals rfl

/-- No block is resident, so no strand is parked and no core is still to be emptied. -/
theorem State.clusterParked_reset (k : Nat) : State.reset.clusterParked k = 0 := rfl
theorem State.preBusy_reset (k : Nat) : State.reset.preBusy k = false := rfl

/-- OMCFG, KPARK and CAPCTL are the registers of a cluster that reset leaves other than 0. -/
theorem State.clusterRead_reset {b k o : Nat} (h : (b, o) ∉ [(0, 0), (1, 0x18), (2, 0)]) :
    State.reset.clusterRead b k o = 0 := by
  have hk : State.reset.clusterAt k = ClusterSt.reset := rfl
  unfold State.clusterRead
  dsimp only
  rw [hk, State.clusterParked_reset, State.preBusy_reset]
  split <;> simp [ClusterSt.reset, wordN] at h ⊢

theorem State.queueRead_reset (q o : Nat) : State.reset.queueRead q o = 0 := by
  unfold State.queueRead
  split <;> rfl

theorem State.trctl_reset (c : Nat) : State.reset.trctl c = 0 := by
  have hc : State.reset.coreAt c = CoreSt.reset := rfl
  rw [State.trctl, hc]
  decide

theorem State.homeEntry_reset (i : Nat) : State.reset.homeEntry i = 0x8000 := rfl

theorem State.windowRead_reset_hometab {o : Nat} (h : 0x1000 ≤ o) (h' : o < 0x3000) :
    State.reset.windowRead o = 0x8000800080008000 := by
  rw [State.windowRead, if_neg (by omega), if_pos h']
  simp only [State.homeEntry_reset]
  decide +kernel

/-- Where the window holds the registers of the clusters, one bank after another. -/
theorem State.windowRead_monitor (s : State) {o : Nat} (h : 0x8000 ≤ o) (h' : o < 0x9000) :
    s.windowRead o = s.clusterRead 0 ((o - 0x8000) / 0x40) (o % 0x40) := by
  unfold State.windowRead
  grind
theorem State.windowRead_scheduler (s : State) {o : Nat} (h : 0x11000 ≤ o) (h' : o < 0x12000) :
    s.windowRead o = s.clusterRead 1 ((o - 0x11000) / 0x40) (o % 0x40) := by
  unfold State.windowRead
  grind
theorem State.windowRead_capacity (s : State) {o : Nat} (h : 0x12000 ≤ o) (h' : o < 0x13000) :
    s.windowRead o = s.clusterRead 2 ((o - 0x12000) / 0x40) (o % 0x40) := by
  unfold State.windowRead
  grind

/-- No other doubleword has a reset value than 0. -/
theorem State.windowRead_reset_zero {o : Nat} (hm : o ≠ 0x1B8) (hh : o < 0x1000 ∨ 0x3000 ≤ o)
    (hk : ∀ k, k < 64 → o ≠ 0x8000 + 0x40 * k ∧ o ≠ 0x12000 + 0x40 * k ∧ o ≠ 0x11018 + 0x40 * k) :
    State.reset.windowRead o = 0 := by
  unfold State.windowRead
  refine ite_eq_iff'.2 ⟨fun _ => State.deviceRead_reset hm, fun _ => ?_⟩
  refine ite_eq_iff'.2 ⟨fun _ => by omega, fun _ => ?_⟩
  refine ite_eq_iff'.2 ⟨fun _ => rfl, fun _ => ?_⟩
  refine ite_eq_iff'.2 ⟨fun _ => State.trctl_reset _, fun _ => ?_⟩
  refine ite_eq_iff'.2 ⟨fun _ => rfl, fun _ => ?_⟩
  refine ite_eq_iff'.2 ⟨fun _ => State.clusterRead_reset (by have := hk ((o - 0x8000) / 0x40) (by omega); simp; omega), fun _ => ?_⟩
  refine ite_eq_iff'.2 ⟨fun _ => rfl, fun _ => ?_⟩
  refine ite_eq_iff'.2 ⟨fun _ => State.queueRead_reset .., fun _ => ?_⟩
  refine ite_eq_iff'.2 ⟨fun _ => State.clusterRead_reset (by have := hk ((o - 0x11000) / 0x40) (by omega); simp; omega), fun _ => ?_⟩
  refine ite_eq_iff'.2 ⟨fun _ => State.clusterRead_reset (by have := hk ((o - 0x12000) / 0x40) (by omega); simp; omega), fun _ => ?_⟩
  refine ite_eq_iff'.2 ⟨fun _ => rfl, fun _ => ?_⟩
  simp [State.reset, Regs.reset, leNat, wordN]

/-- Settles O55: the window is read bank by bank, each of which stands at its reset values. -/
theorem resetState : Obligations.ResetState := by
  unfold Obligations.ResetState
  refine ⟨rfl, fun i hi => State.windowRead_reset_hometab (by omega) (by omega), fun k hk => ⟨?_, ?_, ?_⟩,
    fun o _ hh hm hk => State.windowRead_reset_zero hm hh hk, fun _ _ => rfl, fun _ => rfl, rfl, rfl⟩
  · rw [State.windowRead_monitor _ (by omega) (by omega), show (0x8000 + 0x40 * k) % 0x40 = 0 by omega]
    rfl
  · rw [State.windowRead_capacity _ (by omega) (by omega), show (0x12000 + 0x40 * k) % 0x40 = 0 by omega]
    rfl
  · rw [State.windowRead_scheduler _ (by omega) (by omega), show (0x11018 + 0x40 * k) % 0x40 = 0x18 by omega]
    rfl

end Sys2Proof.Machine

/-! SUPPORT and O48. A write of TCINV can refill what it drops. -/

namespace Sys2Proof.Machine

/-- A page table that maps the low 128 MiB onto themselves, with all rights for domain 0. -/
def evictMemory : Memory :=
  Memory.writeNat (Memory.writeNat (Memory.writeNat [(3, 0x0F)] 0x100000 8 0x101001) 0x101000 8 0x102001)
    0x102000 8 (3 + 3 * 2 ^ 52)
/-- The translation of that page. -/
def evictPage : Xlat := { va := 0, bits := 27, key := 3, pa := 0, peer := none }

/-- The event ring stands in that page, and core 0 holds a dirty sector of it that its code cannot correct. -/
def evictState : State :=
  { State.reset with
    mem := evictMemory
    regs := { Regs.reset with ptroot := 0x100000, meqbase := 0x8000 }
    cores := [(0, { CoreSt.reset with
      l1 := [{ line := 0x90, key := 3, pa := 0x9000, valid := 1, dirty := 1, upd := false }] })]
    flaws := [{ unit := 0x9000, kind := .uncorrectable, store := 2, core := 0 }] }

theorem evictState_quiet : evictState.Quiet := ⟨rfl, rfl, rfl, rfl, rfl, rfl⟩

/-- The invalidation writes the sector back, finds it lost and has a KIND 9 record to post (R54, R345, R348). -/
theorem writeTcinv_evictState_records : (evictState.writeTcinv 0x8000).meqPend.map MeqRec.kind = [9] := by decide +kernel
/-- Up to there the page's translations are gone. -/
theorem writeTcinv_evictState_drops : ((evictState.writeTcinv 0x8000).dieAt 2).tc = [] := by decide +kernel
/-- The record goes out before the write is over, and its store into the ring has die 2 walk to the page again (R289). -/
theorem hostReg_tcinv_evictState_refills :
    evictPage ∈ ((evictState.hostReg 0x120 allBits 0x8000).dieAt 2).tc := by decide +kernel

theorem exec_tcinv (s : State) (v : Word) : exec (.tcinv v) s = .next (s.hostReg 0x120 allBits v) := rfl

/-- Refutes O48: TCINV of the page in which the event ring stands. The invalidation writes back a dirty sector that is lost, the record of
that is stored into the ring within the same write, and the store fills die 2's translation cache with the page that was invalidated. -/
theorem not_windowWritesTakeEffect : ¬ Obligations.WindowWritesTakeEffect := by
  unfold Obligations.WindowWritesTakeEffect
  intro h
  obtain ⟨-, -, -, -, ⟨t, ht, -, hdropped⟩, -⟩ := h evictState 0x8000 evictState_quiet
  rw [exec_tcinv] at ht
  cases ht
  have hcovers : evictPage.covers (bitsOf (0x8000 : Word).toNat 63 15 * 2 ^ 15) = true := by decide
  exact Bool.false_ne_true ((hdropped 2 evictPage hostReg_tcinv_evictState_refills).symm.trans hcovers)

end Sys2Proof.Machine

/-! SUPPORT. What an access to memory leaves of what the launch parsers go by. -/

namespace Sys2Proof.Machine

/-- What the parsers have in hand and what they have brought about: the launches, the packets in progress, the questions they still have to
ask, the vectors sent to the host, and the register window but for the two counters that any access may raise. -/
structure Desk where
  launches : List Launch
  launchSeq : Nat
  packets : List Packet
  due : Table Bool
  msix : List Nat
  regs : Regs

def State.desk (s : State) : Desk :=
  { launches := s.launches, launchSeq := s.launchSeq, packets := s.packets, due := s.lqDue, msix := s.msix
    regs := { s.regs with errcnt := 0, meqWidx := 0 } }

section
variable {s t : State}

theorem foldl_desk {α : Type} {f : State → α → State} (hf : ∀ s x, (f s x).desk = s.desk) (l : List α) (s : State) :
    (l.foldl f s).desk = s.desk := by
  induction l generalizing s with
  | nil => rfl
  | cons x l ih => exact (ih _).trans (hf s x)

/-! ### Poison, errors and caches -/

@[simp] theorem State.modCore_desk (s : State) (c f) : (s.modCore c f).desk = s.desk := rfl
@[simp] theorem State.modCluster_desk (s : State) (c f) : (s.modCluster c f).desk = s.desk := rfl
@[simp] theorem State.modDie_desk (s : State) (c f) : (s.modDie c f).desk = s.desk := rfl
@[simp] theorem State.drawBit_desk (s : State) : s.drawBit.2.desk = s.desk := rfl
@[simp] theorem State.tcFill_desk (s : State) (die x) : (s.tcFill die x).desk = s.desk := rfl
@[simp] theorem State.addPoison_desk (s : State) (u store) : (s.addPoison u store).desk = s.desk := rfl
@[simp] theorem State.cleanUnits_desk (s : State) (p) : (s.cleanUnits p).desk = s.desk := rfl
@[simp] theorem State.unpoison_desk (s : State) (sa n) : (s.unpoison sa n).desk = s.desk := rfl
@[simp] theorem State.errAdd_desk (s : State) (hi lo) : (s.errAdd hi lo).desk = s.desk := rfl
@[simp] theorem State.freshCopy_desk (s : State) (store a) : (s.freshCopy store a).desk = s.desk := rfl
@[simp] theorem State.keepOld_desk (s : State) (sa n) : (s.keepOld sa n).desk = s.desk := rfl
@[simp] theorem State.flagTouched_desk (s : State) (lines) : (s.flagTouched lines).desk = s.desk := rfl

theorem State.tcFind_desk {die va} {x} (e : s.tcFind die va = some (x, t)) : t.desk = s.desk := by
  grind [State.tcFind, State.modDie_desk]

@[simp] theorem State.cover_desk (s : State) (who sa n) : (s.cover who sa n).desk = s.desk := by
  refine foldl_desk (fun s u => ?_) _ _
  grind [State.cleanUnits_desk, State.desk]

@[simp] theorem State.noteUnit_desk (s : State) (unit va cluster) : (s.noteUnit unit va cluster).desk = s.desk := by
  grind [State.noteUnit, State.desk]
@[simp] theorem State.notePoison_desk (s : State) (unit va cluster) : (s.notePoison unit va cluster).desk = s.desk :=
  State.noteUnit_desk ..

@[simp] theorem State.countFrame_desk (s : State) (pa va lost) : (s.countFrame pa va lost).desk = s.desk := by
  grind [State.countFrame, State.desk]
@[simp] theorem State.ctrlLost_desk (s : State) (u) : (s.ctrlLost u).desk = s.desk := by
  grind [State.ctrlLost, State.modCluster_desk, State.desk]
@[simp] theorem State.dropSector_desk (s : State) (f) : (s.dropSector f).desk = s.desk := by
  grind [State.dropSector, State.modDie_desk, State.desk]

@[simp] theorem State.meetFlaw_desk (s : State) (f va copy) : (s.meetFlaw f va copy).desk = s.desk := by
  have hgone : ({ s with flaws := s.flaws.filter fun x => x != f } : State).desk = s.desk := rfl
  unfold State.meetFlaw
  grind [State.countFrame_desk, State.errAdd_desk, State.ctrlLost_desk, State.addPoison_desk, State.dropSector_desk]
@[simp] theorem State.found_desk (s : State) (f va) : (s.found f va).desk = s.desk := State.meetFlaw_desk ..
@[simp] theorem State.probe_desk (s : State) (va sa n) : (s.probe va sa n).2.desk = s.desk :=
  foldl_desk (fun _ _ => State.found_desk ..) _ _
@[simp] theorem State.tableProbe_desk (s : State) (sa n) : (s.tableProbe sa n).desk = s.desk := by
  have hp := State.probe_desk s none sa n
  grind [State.tableProbe, State.noteUnit_desk]

@[simp] theorem State.evictProbe_desk (s : State) (store cluster a) : (s.evictProbe store cluster a).desk = s.desk := by
  grind [State.evictProbe, State.meetFlaw_desk, foldl_desk, State.desk]
@[simp] theorem State.l2Back_desk (s : State) (y) : (s.l2Back y).desk = s.desk := by
  grind [State.l2Back, State.freshCopy_desk, State.evictProbe_desk, foldl_desk]
@[simp] theorem State.l2Put_desk (s : State) (pa dirty) : (s.l2Put pa dirty).desk = s.desk := by
  grind [State.l2Put, State.l2Back_desk, State.freshCopy_desk, State.modDie_desk]
@[simp] theorem State.hotCount_desk (s : State) (pa va die) : (s.hotCount pa va die).desk = s.desk := by
  grind [State.hotCount, State.modDie_desk]
@[simp] theorem State.fillProbe_desk (s : State) (va pa) : (s.fillProbe va pa).desk = s.desk := by
  grind [State.fillProbe, State.found_desk, State.meetFlaw_desk, foldl_desk]
@[simp] theorem State.l2Access_desk (s : State) (pa va die dirty) : (s.l2Access pa va die dirty).desk = s.desk := by
  simp [State.l2Access]
@[simp] theorem State.writeBack_desk (s : State) (core l) : (s.writeBack core l).desk = s.desk := by
  grind [State.writeBack, State.hotCount_desk, State.l2Put_desk, State.freshCopy_desk, State.evictProbe_desk, foldl_desk]
@[simp] theorem State.dirtied_desk (s : State) (die va sa n) : (s.dirtied die va sa n).desk = s.desk := by
  grind [State.dirtied, State.modCore_desk, State.l2Access_desk, foldl_desk]

/-! ### Writes to memory -/

@[simp] theorem State.freshCode_desk (s : State) (va sa n) : (s.freshCode va sa n).desk = s.desk := by
  grind [State.freshCode, State.found_desk, foldl_desk, State.desk]
@[simp] theorem State.plainCode_desk (s : State) (sa n) : (s.plainCode sa n).desk = s.desk := by
  grind [State.plainCode, State.desk]
/-- Bytes of memory are not the parsers'. -/
@[simp] theorem State.withMem_desk (s : State) (m : Memory) : ({ s with mem := m } : State).desk = s.desk := rfl
@[simp] theorem State.putBytes_desk (s : State) (va sa bytes) : (s.putBytes va sa bytes).desk = s.desk := by
  simp [State.putBytes]

/-! ### Update-only lines, the first-level cache and resolving an address -/

@[simp] theorem State.rightsAt_desk (s : State) (core dom key) : (s.rightsAt core dom key).2.desk = s.desk := by
  grind [State.rightsAt, State.modCore_desk, State.tableProbe_desk]

theorem UpdLine.mergeWord_desk (u : UpdLine) (r : Table Nat × State) (w) : (u.mergeWord r w).2.desk = r.2.desk := by
  have hp := State.probe_desk r.2 (some (256 * u.line + w.1)) (u.pa + w.1) u.size
  unfold UpdLine.mergeWord
  grind [State.notePoison_desk, State.dirtied_desk, State.withMem_desk, State.plainCode_desk, State.keepOld_desk]
theorem mergeWords_desk (u : UpdLine) (ws : List (Nat × Nat)) (r : Table Nat × State) :
    (ws.foldl u.mergeWord r).2.desk = r.2.desk := by
  induction ws generalizing r with
  | nil => rfl
  | cons w ws ih => exact (ih _).trans (u.mergeWord_desk r w)

@[simp] theorem State.traceEntry_desk (s : State) (home srcCore srcSlot commit va kind size) :
    (s.traceEntry home srcCore srcSlot commit va kind size).desk = s.desk := by
  grind [State.traceEntry, State.modCore_desk, State.flagTouched_desk, State.putBytes_desk]
@[simp] theorem State.mergeOne_desk (s : State) (u) : (s.mergeOne u).desk = s.desk := by
  have hw (r) := mergeWords_desk u u.words r
  unfold State.mergeOne
  grind [State.traceEntry_desk, State.modCore_desk, foldl_desk, State.desk]
@[simp] theorem State.arriving_desk (s : State) (us) : (s.arriving us).2.desk = s.desk := by
  induction us generalizing s with
  | nil => rfl
  | cons u us ih => cases us <;> grind [State.arriving, State.drawBit_desk]
@[simp] theorem State.mergeAll_desk (s : State) (n us) : (s.mergeAll n us).desk = s.desk := by
  induction n generalizing s us with
  | zero => rfl
  | succ n ih =>
    have ha := State.arriving_desk s us
    grind [State.mergeAll, State.mergeOne_desk]
@[simp] theorem State.recall_desk (s : State) (line) : (s.recall line).desk = s.desk := State.mergeAll_desk ..

@[simp] theorem State.l1Fill_desk (s : State) (core x) : (s.l1Fill core x).desk = s.desk := by
  grind [State.l1Fill, State.freshCopy_desk, State.modCore_desk, State.writeBack_desk, State.mergeOne_desk, foldl_desk]
@[simp] theorem State.walkProbe_desk (s : State) (va) : (s.walkProbe va).desk = s.desk :=
  foldl_desk (fun _ _ => State.tableProbe_desk ..) _ _
@[simp] theorem State.linkProbe_desk (s : State) (dev) : (s.linkProbe dev).desk = s.desk := by
  grind [State.linkProbe, State.walkProbe_desk, State.tableProbe_desk]
@[simp] theorem State.sendPeer_desk (s : State) (dev va dom op) : (s.sendPeer dev va dom op).desk = s.desk := by
  have hl := State.linkProbe_desk s dev
  grind [State.sendPeer, State.desk]
@[simp] theorem State.checked_desk (s : State) (core dom need key sa) : (s.checked core dom need key sa).2.desk = s.desk :=
  State.rightsAt_desk ..

@[simp] theorem State.resolve_desk (s : State) (core dom need va walkNow) :
    (s.resolve core dom need va walkNow).2.desk = s.desk := by
  unfold State.resolve
  split
  · simp
  · split
    · rename_i hf
      grind [State.checked_desk, State.tcFind_desk, State.l1Fill_desk, State.l2Access_desk]
    · grind [State.checked_desk, State.tcFill_desk, State.walkProbe_desk, State.l1Fill_desk, State.l2Access_desk]

/-! ### Accesses of the device, and a parser's -/

@[simp] theorem State.devResolve_desk (s : State) (dom need va) : (s.devResolve dom need va).2.desk = s.desk := by
  grind [State.devResolve, State.resolve_desk]
@[simp] theorem State.devWrite_desk (s : State) (va sa bytes) : (s.devWrite va sa bytes).desk = s.desk := by
  grind [State.devWrite, State.recall_desk, State.flagTouched_desk, State.putBytes_desk]
@[simp] theorem State.devRead_desk (s : State) (va sa n) : (s.devRead va sa n).2.desk = s.desk := by
  grind [State.devRead, State.recall_desk]
@[simp] theorem State.spotWrite_desk (s : State) (va sa bytes) : (s.spotWrite va sa bytes).desk = s.desk :=
  State.devWrite_desk ..
@[simp] theorem State.spotRead_desk (s : State) (va sa n) : (s.spotRead va sa n).2.desk = s.desk := State.devRead_desk ..
@[simp] theorem State.spotPut_desk (s : State) (who va sa bytes taint) : (s.spotPut who va sa bytes taint).desk = s.desk := by
  grind [State.spotPut, State.spotWrite_desk, State.addPoison_desk, State.cover_desk]
@[simp] theorem State.devSpot_desk (s : State) (r dom need va) : (s.devSpot r dom need va).2.desk = s.desk := by
  have hr := State.devResolve_desk s dom need va
  cases r with
  | bad info => rfl
  | window home sa => rfl
  | space => grind [State.devSpot]
@[simp] theorem State.parserSpot_desk (s : State) (dom need va ask) : (s.parserSpot dom need va ask).2.desk = s.desk := by
  have hd (r) := State.devSpot_desk s r dom need va
  grind [State.parserSpot, State.sendPeer_desk, State.drawBit_desk, foldl_desk]
@[simp] theorem State.parserRead_desk (s : State) (d va n) : (s.parserRead d va n).2.desk = s.desk := by
  cases d with
  | here sa => exact (State.spotRead_desk ..).trans (State.probe_desk ..)
  | fault cause info => rfl
  | absent => rfl
  | away dev => rfl
@[simp] theorem State.copySpot_desk (s : State) (host dom need a ask) : (s.copySpot host dom need a ask).2.desk = s.desk := by
  grind [State.copySpot, State.parserSpot_desk]

end

end Sys2Proof.Machine

/-! SUPPORT. Records that go out, packets that start and complete. -/

namespace Sys2Proof.Machine

section
variable {s t u : State}

/-! ### Records and questions -/

/-- What records that go out leave: they may send vectors to the host and settle what the parsers have to ask. -/
structure State.Grows (s t : State) : Prop where
  same : t.desk = { s.desk with due := t.lqDue, msix := t.msix }
  sent : s.msix ⊆ t.msix

theorem State.Grows.refl (s : State) : s.Grows s := ⟨rfl, List.Subset.refl _⟩
theorem State.Grows.trans (h : s.Grows t) (h' : t.Grows u) : s.Grows u :=
  ⟨by rw [h'.same, h.same], List.Subset.trans h.sent h'.sent⟩
theorem State.Grows.of_desk (h : t.desk = s.desk) : s.Grows t := by
  have hm : t.msix = s.msix := congrArg Desk.msix h
  exact ⟨by rw [← h]; rfl, hm ▸ List.Subset.refl _⟩
theorem State.Grows.after (h' : t.Grows u) (h : t.desk = s.desk) : s.Grows u := (State.Grows.of_desk h).trans h'

@[simp] theorem State.meqTake_desk (s : State) (n) : (s.meqTake n).desk = s.desk := by
  induction n generalizing s with
  | zero => rfl
  | succ n ih => grind [State.meqTake, State.desk]

theorem State.ringStore_desk {va bytes} (e : s.ringStore va bytes = some t) : t.desk = s.desk := by
  grind [State.ringStore, State.devResolve_desk, State.devWrite_desk, State.sendPeer_desk]

/-- A record that is written raises MEQWIDX and may send its vector. -/
theorem State.meqWrite_grows (e : s.meqWrite = some t) : s.Grows t := by
  obtain ⟨u, va, bytes, hu, hd, hm⟩ : ∃ u va bytes, s.ringStore va bytes = some u ∧
      t.desk = { u.desk with due := t.lqDue, msix := t.msix } ∧ u.msix ⊆ t.msix := by
    grind [State.meqWrite, State.desk]
  exact State.Grows.trans (.of_desk (State.ringStore_desk hu)) ⟨hd, hm⟩

theorem State.meqDrain_grows (s : State) (n) : s.Grows (s.meqDrain n) := by
  induction n generalizing s with
  | zero => exact .refl _
  | succ n ih =>
    unfold State.meqDrain
    dsimp only
    split
    · rename_i u hu
      exact ((State.meqWrite_grows hu).trans (ih u)).after (State.meqTake_desk ..)
    · exact .of_desk (State.meqTake_desk ..)

theorem State.post_grows (s : State) (kind cluster a b c) : s.Grows (s.post kind cluster a b c) :=
  (State.meqDrain_grows ..).after rfl

theorem State.faultOn_grows (s : State) (va cluster who) : s.Grows (s.faultOn va cluster who) := by
  unfold State.faultOn
  dsimp only
  split
  · exact .refl _
  · split
    · exact (State.post_grows ..).after rfl
    · exact .of_desk rfl
theorem State.awaitPage_grows (s : State) (va) : s.Grows (s.awaitPage va) := by
  unfold State.awaitPage
  split
  · exact .refl _
  · exact State.faultOn_grows ..

theorem State.lqPost_grows (s : State) (p) : s.Grows (s.lqPost p) := by
  unfold State.lqPost
  split
  · have hask : s.Grows { s with lqFresh := s.lqFresh.set p false, lqAsked := s.lqAsked.set p true, lqDue := s.lqDue.set p (!s.canPost) } :=
      ⟨rfl, List.Subset.refl _⟩
    dsimp only
    split
    · exact hask.trans (State.post_grows ..)
    · exact hask
  · exact .refl _

theorem State.lqSettle_grows (old s : State) : s.Grows (old.lqSettle s) := by
  unfold State.lqSettle
  refine List.foldlRecOn [0, 1] _ (motive := s.Grows) (.refl s) fun t ht p _ => ht.trans ?_
  dsimp only
  split
  · exact (State.lqPost_grows ..).after rfl
  · exact State.lqPost_grows ..

/-- The memory of `s`, and no parser has anything to ask. -/
structure State.Silent (s t : State) : Prop where
  mem : t.mem = s.mem
  arb : t.lqArb = false
  due : t.lqDue = []

/-- Where no parser has anything to ask, no question goes out. -/
theorem State.Silent.lqPost (h : s.Silent t) (p) : s.Silent (t.lqPost p) := by
  rwa [State.lqPost, if_neg (by simp [h.arb, h.due])]
theorem State.Silent.lqSettle (h : s.Silent t) (old : State) : s.Silent (old.lqSettle t) := by
  unfold State.lqSettle
  refine List.foldlRecOn [0, 1] _ (motive := s.Silent) h fun u hu p _ => ?_
  dsimp only
  split
  · refine State.Silent.lqPost ?_ p
    exact ⟨hu.mem, hu.arb, hu.due⟩
  · exact hu.lqPost p

/-! ### A parser reads counters -/

theorem State.fencePass_grows (s : State) (dom l) : s.Grows (s.fencePass dom l).2 := by
  induction l generalizing s with
  | nil => exact .refl _
  | cons e rest ih =>
    obtain ⟨i, cmp, v⟩ := e
    unfold State.fencePass
    dsimp only
    generalize hx : s.parserSpot .. = x
    have hs : x.2.desk = s.desk := hx ▸ State.parserSpot_desk ..
    obtain ⟨d, t⟩ := x
    cases d with
    | here sa => exact (ih _).after (by simpa using hs)
    | fault cause info => exact (ih _).after hs
    | absent => exact ((State.awaitPage_grows ..).trans (ih _)).after hs
    | away dev => exact (ih _).after (by simpa using hs)

end
end Sys2Proof.Machine

/-! SUPPORT. Packets that complete and packets that start. -/

namespace Sys2Proof.Machine

section
variable {s t u : State} {q : Nat}

/-! ### Packets that complete -/

/-- Queue `q` stands at index `n` with no packet in progress; the launches are `ls`, and the vectors of `vs` have been sent. -/
structure State.Done (t : State) (q : Nat) (n : BitVec 32) (ls : List Launch) (vs : List Nat) : Prop where
  index : t.regs.lqridx.get 0 q = n
  none : ∀ p ∈ t.packets, p.queue ≠ q
  launches : t.launches = ls
  sent : vs ⊆ t.msix

section
variable {n : BitVec 32} {ls : List Launch} {vs : List Nat}

theorem State.Grows.packets (h : s.Grows t) : t.packets = s.packets := congrArg Desk.packets h.same
theorem State.Grows.launches (h : s.Grows t) : t.launches = s.launches := congrArg Desk.launches h.same
theorem State.Grows.launchSeq (h : s.Grows t) : t.launchSeq = s.launchSeq := congrArg Desk.launchSeq h.same
theorem State.Grows.lqridx (h : s.Grows t) : t.regs.lqridx = s.regs.lqridx := congrArg (fun d => d.regs.lqridx) h.same
theorem State.Grows.dmode (h : s.Grows t) : t.regs.dmode = s.regs.dmode := congrArg (fun d => d.regs.dmode) h.same

theorem State.Done.grows (h : s.Done q n ls vs) (h' : s.Grows t) : t.Done q n ls vs :=
  ⟨h'.lqridx ▸ h.index, h'.packets ▸ h.none, h'.launches.trans h.launches, List.Subset.trans h.sent h'.sent⟩

@[simp] theorem State.markReady_desk (s : State) (q) : (s.markReady q).desk = s.desk := by
  unfold State.markReady
  split <;> rfl

/-- A packet of queue `q` has completed, which its parser has yet to note. -/
def State.completed (s : State) (q : Nat) : State :=
  { s.dropPkt q with regs := { s.regs with lqridx := s.regs.lqridx.set q (s.regs.lqridx.get 0 q + 1) } }
theorem State.completePkt_grows (s : State) (q) : (s.completed q).Grows (s.completePkt q) :=
  .of_desk (State.markReady_desk ..)

theorem State.completePkt_done (s : State) (q) :
    (s.completePkt q).Done q (s.regs.lqridx.get 0 q + 1) s.launches s.msix := by
  refine State.Done.grows ?_ (State.completePkt_grows s q)
  exact ⟨Table.get_set_same .., fun p hp => by simpa using (List.mem_filter.1 hp).2, rfl, List.Subset.refl _⟩

/-- A packet of another queue completes. -/
theorem State.Done.completePkt (h : s.Done q n ls vs) {x : Nat} (hx : x ≠ q) : (s.completePkt x).Done q n ls vs := by
  refine State.Done.grows ?_ (State.completePkt_grows s x)
  exact ⟨(Table.get_set_other _ _ _ hx.symm).trans h.index, fun p hp => h.none p (List.mem_filter.1 hp).1, h.launches, h.sent⟩

theorem State.Done.tryFence (h : s.Done q n ls vs) {x : Nat} (hx : x ≠ q) (l) : (s.tryFence x l).Done q n ls vs := by
  have hf := h.grows (State.fencePass_grows s (s.lqDom x) l)
  unfold State.tryFence
  dsimp only
  split
  · exact hf.completePkt hx
  · exact hf

theorem State.Done.recheckFences (h : s.Done q n ls vs) (p) : (s.recheckFences p).Done q n ls vs := by
  unfold State.recheckFences
  refine List.foldlRecOn _ _ (motive := fun t : State => t.Done q n ls vs) h fun u hu x hx => ?_
  have hxq : x.queue ≠ q := h.none x (List.mem_filter.1 hx).1
  split
  · exact hu.tryFence hxq _
  · exact hu
end

/-! ### Packets that start -/

theorem State.lqReady_of_lqPick {p} (h : s.lqPick p = some q) : s.lqReady q = true := by
  unfold State.lqPick at h
  dsimp only at h
  split at h
  · cases h
  · split at h
    · have hq := (Option.filter_eq_some_iff.1 h).2
      simp only [List.contains_eq_mem, List.mem_filter, decide_eq_true_eq] at hq
      exact hq.2
    · have hq := ((Option.orElse_eq_some ..).1 h).elim List.mem_of_find?_eq_some fun h => List.mem_of_head? h.2
      exact (List.mem_filter.1 (List.mem_filter.1 hq).1).2

/-- A queue that can be picked has no packet in progress. -/
theorem State.pktIn_of_lqReady (h : s.lqReady q = true) : s.pktIn q = none := by
  have hp : ∀ x ∈ s.packets, x.queue ≠ q := by simpa [State.lqReady] using ((Bool.and_eq_true ..).mp h).2
  simpa [State.pktIn] using hp

/-- A parser that turns to a queue starts the packet at its head. -/
theorem State.startHead_of_head {p : Pkt} (h : Head q s p u) (f : State → Pkt → List Byte → Option State) :
    ∃ b, pktOf b q (s.lqPrio q) s.launchSeq = .ok p ∧
      ∀ t, f (u.startedPkt q) p b = some t → s.startHead q f = .next (s.lqSettle t) := by
  obtain ⟨hq, hpick, hlo, hhi, sa, v, b, hspot, hread, hp⟩ := h
  refine ⟨b, hp, fun t ht => ?_⟩
  have hs : s.pktIn q = none := State.pktIn_of_lqReady (State.lqReady_of_lqPick hpick)
  have hu : u.pktIn q = none := by
    have : u.packets = s.packets := by
      have := State.parserSpot_desk s (s.lqDom q) 1 (s.pktVa q) (peerLoads 64 (s.pktVa q))
      have h2 := State.parserRead_desk v (.here sa) (s.pktVa q) 64
      rw [hspot] at this
      rw [hread] at h2
      exact congrArg Desk.packets (h2.trans this)
    rwa [State.pktIn, this]
  have hrs : s.reading q = false := by simp [State.reading, hs]
  have hru : u.reading q = false := by simp [State.reading, hu]
  unfold State.startHead
  rw [if_neg (by simp [hpick, hq]), if_neg (by rw [decide_eq_true hlo, decide_eq_true hhi]; decide)]
  dsimp only
  rw [hspot]
  dsimp only
  rw [hread]
  dsimp only
  rw [hp]
  dsimp only
  rw [hru]
  simp [ht]

end
end Sys2Proof.Machine

/-! SUPPORT. LAUNCH, FENCE, SIGNAL and MODE packets, and a launch's completion. -/

namespace Sys2Proof.Machine

section
variable {s t u v : State} {q : Nat}

/-- Clearing the bits of a mask by subtraction and setting them by addition carries nothing. -/
theorem bitVec_sub_and_add_and {w : Nat} (d m v : BitVec w) : d - (d &&& m) + (v &&& m) = (d &&& ~~~m) ||| (v &&& m) := by
  have hdisj (x : BitVec w) : (d &&& ~~~m) &&& (x &&& m) = 0 := by ext i; simp; grind
  have hd : (d &&& ~~~m) + (d &&& m) = d := by
    rw [BitVec.add_eq_or_of_and_eq_zero _ _ (hdisj d)]
    ext i; simp; grind
  rw [← BitVec.add_eq_or_of_and_eq_zero _ _ (hdisj v), show d - (d &&& m) = d &&& ~~~m by grind]

/-- Bits of a register of which a mask lets `v` replace some. -/
theorem getLsbD_masked {i d m v : Nat} (hi : i < 32) :
    (BitVec.ofNat 32 (d - (d &&& m) + (v &&& m))).getLsbD i = if m.testBit i then v.testBit i else d.testBit i := by
  have hsub : BitVec.ofNat 32 (d - (d &&& m)) = BitVec.ofNat 32 d - (BitVec.ofNat 32 d &&& BitVec.ofNat 32 m) := by
    have h : BitVec.ofNat 32 (d - (d &&& m)) + BitVec.ofNat 32 (d &&& m) = BitVec.ofNat 32 d := by
      rw [← BitVec.ofNat_add, Nat.sub_add_cancel Nat.and_le_left]
    rw [← BitVec.ofNat_and]
    grind
  rw [BitVec.ofNat_add, BitVec.ofNat_and (x := v), hsub, bitVec_sub_and_add_and]
  simp only [BitVec.getLsbD_or, BitVec.getLsbD_and, BitVec.getLsbD_not, BitVec.getLsbD_ofNat, hi, decide_true, Bool.true_and]
  cases m.testBit i <;> simp

theorem execLaunchPacket_of_head {l : Launch} (h : Head q s (.launch l) u) :
    ∃ t, execLaunchPacket q s = .next t ∧ t.launches = u.launches ++ [l] ∧ t.launchSeq = (u.launchSeq + 1) % 2 ^ 16 ∧
      ∃ p ∈ t.packets, p.queue = q ∧ p.launch = some l.num := by
  obtain ⟨b, -, hnext⟩ := State.startHead_of_head h _
  refine ⟨_, hnext _ rfl, ?_⟩
  have hg := State.lqSettle_grows s
  rw [(hg _).launches, (hg _).launchSeq, (hg _).packets]
  exact ⟨rfl, rfl, _, List.mem_append_right _ (List.mem_singleton.2 rfl), rfl, rfl⟩

theorem State.tryFence_of_pass {l} (h : s.fencePass (s.lqDom q) l = (true, v)) : s.tryFence q l = v.completePkt q := by
  rw [State.tryFence, h]
  rfl

/-- A fence whose counters all hold completes. -/
theorem State.tryFence_done {l} (h : s.fencePass (s.lqDom q) l = (true, v)) (old : State) :
    (old.lqSettle (s.tryFence q l)).Done q (v.regs.lqridx.get 0 q + 1) v.launches v.msix := by
  rw [State.tryFence_of_pass h]
  exact (State.completePkt_done v q).grows (State.lqSettle_grows ..)

theorem execFencePacket_of_head {l} {v : List Byte → State} (h : Head q s (.fence l) u)
    (hv : ∀ b x, x = (u.startedPkt q).setPkt (Packet.begun q b) → x.fencePass (x.lqDom q) l = (true, v b)) :
    ∃ t b, execFencePacket q s = .next t ∧ t.regs.lqridx.get 0 q = (v b).regs.lqridx.get 0 q + 1 ∧
      ∀ p ∈ t.packets, p.queue ≠ q := by
  obtain ⟨b, -, hnext⟩ := State.startHead_of_head h _
  have hd := State.tryFence_done (hv b _ rfl) s
  exact ⟨_, b, hnext _ rfl, hd.index, hd.none⟩

theorem execFencePacketRecheck_of_pass {p : Packet} {l} (hp : s.pktIn q = some p) (hl : pktOf p.bytes q 0 0 = .ok (.fence l))
    (hv : s.fencePass (s.lqDom q) l = (true, v)) :
    ∃ t, execFencePacketRecheck q s = .next t ∧ t.regs.lqridx.get 0 q = v.regs.lqridx.get 0 q + 1 ∧
      ∀ p ∈ t.packets, p.queue ≠ q := by
  have hd := State.tryFence_done hv s
  exact ⟨_, by simp [execFencePacketRecheck, hp, hl], hd.index, hd.none⟩

/-- Bytes that hold a packet are not empty: a packet's type is not 0. -/
theorem ne_nil_of_pktOf {b : List Byte} {q r n : Nat} {p : Pkt} (h : pktOf b q r n = .ok p) : b ≠ [] := by
  rintro rfl
  cases h

theorem State.pktBegun_of_pktIn {p : Packet} {x : Pkt} (hp : s.pktIn q = some p) (hx : pktOf p.bytes q 0 0 = .ok x) :
    s.pktBegun q = some p := by
  simp [State.pktBegun, hp, Option.filter, ne_nil_of_pktOf hx]

theorem execSignalPacket_of_counter {p : Packet} {add int vec idx w} (hp : s.pktIn q = some p) (hpage : p.page = none)
    (hx : pktOf p.bytes q 0 0 = .ok (.signal add int vec idx w)) (hc : s.counterAtomic (s.lqDom q) idx add w = (true, v)) :
    ∃ t, execSignalPacket q s = .next t ∧ t.regs.lqridx.get 0 q = v.regs.lqridx.get 0 q + 1 ∧
      (int = true → vec ∈ t.msix) ∧ ∀ p ∈ t.packets, p.queue ≠ q := by
  set m : State := { v with msix := if int then v.msix ++ [vec] else v.msix } with hm
  have hd := ((State.completePkt_done m q).recheckFences (q / 32)).grows (State.lqSettle_grows s _)
  refine ⟨_, ?_, hd.index, fun hi => hd.sent (by simp [hm, hi]), hd.none⟩
  simp [execSignalPacket, State.pktBegun_of_pktIn hp hx, hx, hpage, State.runSignal, hc, hm]

theorem State.startedPkt_dmode (s : State) (q) : (s.startedPkt q).regs.dmode = s.regs.dmode := by
  simp only [State.startedPkt]
  split <;> rfl
theorem State.startedPkt_lqridx (s : State) (q) : (s.startedPkt q).regs.lqridx = s.regs.lqridx := by
  simp only [State.startedPkt]
  split <;> rfl

theorem execModePacket_of_head {m n : Nat} (h : Head q s (.mode m n) u) :
    ∃ t, execModePacket q s = .next t ∧
      (∀ i, i < 6 → t.regs.dmode.getLsbD i = if m.testBit i then n.testBit i else u.regs.dmode.getLsbD i) ∧
      t.regs.lqridx.get 0 q = u.regs.lqridx.get 0 q + 1 := by
  obtain ⟨b, -, hnext⟩ := State.startHead_of_head h _
  have hg (x : State) := (State.completePkt_grows x q).trans (State.lqSettle_grows s _)
  refine ⟨_, hnext _ rfl, fun i hi => ?_, ?_⟩
  · have hbit : (u.regs.dmode.toNat % 2 ^ 6).testBit i = u.regs.dmode.getLsbD i := by
      rw [Nat.testBit_mod_two_pow, decide_eq_true hi, Bool.true_and]
      rfl
    rw [(hg _).dmode, ← hbit, ← State.startedPkt_dmode u q]
    exact getLsbD_masked (by omega)
  · rw [(hg _).lqridx, ← State.startedPkt_lqridx u q]
    exact Table.get_set_same ..

theorem execLaunchComplete_of_complete {l : Launch} (hl : s.launches = [l]) (hc : l.complete = l.count)
    (hd : l.doneEn = false) (hcmds : s.cmds = []) (hlate : s.late = []) :
    ∃ t, execLaunchComplete l.num s = .next t ∧ t.launches = [] ∧
      t.regs.lqridx.get 0 l.queue = s.regs.lqridx.get 0 l.queue + 1 := by
  have h := ((State.completePkt_done (s.endLaunch l.num) l.queue).recheckFences (l.queue / 32)).grows (State.lqSettle_grows s _)
  refine ⟨_, ?_, h.launches.trans ?_, h.index⟩
  · simp [execLaunchComplete, State.launch?, hl, hc, hd, hcmds, hlate]
  · simp [State.endLaunch, hl]

end
end Sys2Proof.Machine

/-! SUPPORT. COPY packets, by the piece. -/

namespace Sys2Proof.Machine

section
variable {s t u v w z : State} {q : Nat}

/-! ### Pieces of a COPY -/

/-- Two bus addresses lie no distance apart where they are one. -/
theorem ahead_eq_zero_iff {a b : Nat} (ha : a < 2 ^ 64) (hb : b < 2 ^ 64) : (b + 2 ^ 64 - a) % 2 ^ 64 = 0 ↔ b = a := by omega

/-- A piece whose source and destination stand on this device or the host's memory. -/
def State.Copies (s : State) (p : Packet) (sh dh : Bool) (a b k : Nat) (z : State) : Prop :=
  ∃ sa da u v w l, s.copySpot sh (s.lqDom p.queue) 1 a (peerLoads k a) = (.here sa, u) ∧
    u.parserRead (.here sa) a k = (l, v) ∧ v.copySpot dh (s.lqDom p.queue) 2 b [(b, .store l)] = (.here da, w) ∧
    z = w.spotPut (parserAgent p.queue) b da l (v.poisonedIn sa k).isSome

theorem State.Copies.desk {p : Packet} {sh dh a b k} (h : s.Copies p sh dh a b k z) : z.desk = s.desk := by
  obtain ⟨sa, da, u, v, w, l, hu, hv, hw, rfl⟩ := h
  have h1 := State.copySpot_desk s sh (s.lqDom p.queue) 1 a (peerLoads k a)
  have h2 := State.parserRead_desk u (.here sa) a k
  have h3 := State.copySpot_desk v dh (s.lqDom p.queue) 2 b [(b, .store l)]
  rw [hu] at h1
  rw [hv] at h2
  rw [hw] at h3
  exact (State.spotPut_desk ..).trans (h3.trans (h2.trans h1))

theorem State.copyPiece_of_copies {p : Packet} {sh dh src dst len a b k} (ha : a = (src + p.done) % 2 ^ 64)
    (hb : b = (dst + p.done) % 2 ^ 64)
    (hk : k = min (min (len - p.done) (min (128 - a % 128) (128 - b % 128))) (if b = a then 128 else (b + 2 ^ 64 - a) % 2 ^ 64))
    (h : s.Copies p sh dh a b k z) :
    s.copyPiece p sh dh src dst len =
      if p.done + k = len then z.completePkt p.queue else z.setPkt { p with done := p.done + k } := by
  obtain ⟨sa, da, u, v, w, l, hu, hv, hw, rfl⟩ := h
  have hahead : (b + 2 ^ 64 - a) % 2 ^ 64 = 0 ↔ b = a := ahead_eq_zero_iff (by omega) (by omega)
  unfold State.copyPiece
  dsimp only
  rw [← ha, ← hb]
  simp only [hahead]
  rw [← hk, hu]
  dsimp only
  rw [hv]
  dsimp only
  rw [hw]

theorem State.Silent.completePkt (h : s.Silent t) (q) : s.Silent (t.completePkt q) := by
  unfold State.completePkt State.markReady
  dsimp only
  split
  · exact ⟨h.mem, h.arb, h.due⟩
  · exact ⟨h.mem, h.arb, h.due⟩

theorem execCopyPacket_of_copies {p : Packet} {sh dh src dst len a b k} (hp : s.pktIn q = some p) (hq : p.queue = q)
    (hpage : p.page = none) (hx : pktOf p.bytes q 0 0 = .ok (.copy sh dh src dst len)) (ha : a = (src + p.done) % 2 ^ 64)
    (hb : b = (dst + p.done) % 2 ^ 64)
    (hk : k = min (min (len - p.done) (min (128 - a % 128) (128 - b % 128))) (if b = a then 128 else (b + 2 ^ 64 - a) % 2 ^ 64))
    (harb : s.lqArb = false) (hdue : s.lqDue = []) (h : s.Copies p sh dh a b k z) :
    ∃ t, execCopyPacket q s = .next t ∧ t.mem = z.mem ∧
      (p.done + k = len → t.regs.lqridx.get 0 q = z.regs.lqridx.get 0 q + 1 ∧ ∀ x ∈ t.packets, x.queue ≠ q) ∧
      (p.done + k ≠ len → ∃ x ∈ t.packets, x.queue = q ∧ x.done = p.done + k) := by
  have hz := h.desk
  have hdm : z.regs.dmode = s.regs.dmode := congrArg (fun d => d.regs.dmode) hz
  have hzs : z.Silent z := ⟨rfl, by rwa [State.lqArb, hdm], (congrArg Desk.due hz).trans hdue⟩
  refine ⟨_, by simp [execCopyPacket, State.pktBegun_of_pktIn hp hx, hx, hpage]; rfl, ?_, fun hlen => ?_, fun hlen => ?_⟩ <;>
    rw [State.copyPiece_of_copies ha hb hk h]
  · refine (State.Silent.lqSettle ?_ s).mem
    split
    · exact hzs.completePkt p.queue
    · exact ⟨rfl, hzs.arb, hzs.due⟩
  · rw [if_pos hlen, hq]
    have hd := (State.completePkt_done z q).grows (State.lqSettle_grows s _)
    exact ⟨hd.index, hd.none⟩
  · rw [if_neg hlen, (State.lqSettle_grows s _).packets]
    exact ⟨_, List.mem_append_right _ (List.mem_singleton.2 rfl), hq, rfl⟩

/-! ### Host memory, where a device without errors moves bytes alone -/

theorem State.probe_of_flaws (h : s.flaws = []) (va sa n) : (s.probe va sa n).2 = s := by
  simp [State.probe, h]
theorem State.parserRead_host (h : s.flaws = []) (a n : Nat) :
    s.parserRead (.here (hostSa a)) a n = (s.mem.readN (2 ^ 64 + a) n, s) := by
  have hr : ¬2 ^ 64 + a < 2 ^ 64 ∧ ¬2 ^ 64 + a < 2 ^ 56 := by omega
  simp only [State.parserRead, State.probe_of_flaws h, State.spotRead, State.devRead, hostSa, hr, if_false]

/-- Sectors of main memory alone are cached. -/
theorem State.dirtied_outside {va : Nat} (h : 2 ^ 56 ≤ va) (s : State) (die sa n) : s.dirtied die va sa n = s := by
  rw [State.dirtied, if_pos (by rw [decide_eq_true h, Bool.true_or])]

theorem State.putBytes_mem_of_flaws (h : s.flaws = []) {va : Nat} (hva : 2 ^ 56 ≤ va) (sa l) :
    (s.putBytes va sa l).mem = s.mem.writeN sa l := by
  have hf : (s.keepOld sa l.length).freshCode (some va) sa l.length = s.keepOld sa l.length := by
    have hk : (s.keepOld sa l.length).flaws = [] := h
    simp [State.freshCode, hk]
  rw [State.putBytes, State.dirtied_outside hva, State.unpoison_mem, hf, State.plainCode_mem, State.keepOld_mem]

theorem State.spotPut_host_mem (h : s.flaws = []) (who va a l taint) :
    (s.spotPut who va (hostSa a) l taint).mem = s.mem.writeN (2 ^ 64 + a) l := by
  have hr : ¬2 ^ 64 + a < 2 ^ 64 ∧ ¬2 ^ 64 + a < 2 ^ 56 := by omega
  have hw : (s.spotWrite va (hostSa a) l).mem = s.mem.writeN (2 ^ 64 + a) l := by
    simp only [State.spotWrite, State.devWrite, hostSa, hr, if_false, State.flagTouched_mem]
    exact State.putBytes_mem_of_flaws h (by omega) ..
  unfold State.spotPut
  dsimp only
  split
  · exact hw
  · rw [State.cover_mem, hw]

/-- Between two host addresses a piece always goes. -/
theorem State.copies_host (h : s.flaws = []) (p : Packet) (a b k : Nat) :
    ∃ z, s.Copies p true true a b k z ∧ z.mem = s.mem.writeN (2 ^ 64 + b) (s.mem.readN (2 ^ 64 + a) k) :=
  ⟨_, ⟨_, _, _, _, _, _, rfl, State.parserRead_host h .., rfl, rfl⟩, State.spotPut_host_mem h ..⟩

end
end Sys2Proof.Machine

/-! SUPPORT. Dealing a block: cores that are idle for it, or the shortest list of those that wait. -/

namespace Sys2Proof.Machine

section
variable {s t : State}

/-! ### The least of a list -/

theorem leastBy_mem {α : Type} {f : α → Nat} {l : List α} {x : α} (h : leastBy f l = some x) : x ∈ l := by
  induction l generalizing x with
  | nil => cases h
  | cons y l ih =>
    unfold leastBy at h
    split at h
    · simp_all
    · rename_i z hz
      have := ih hz
      split at h <;> simp_all

/-- Of numbers in rising order the first with the least measure is taken. -/
theorem leastBy_eq_some {f : Nat → Nat} {l : List Nat} {k : Nat} (hs : l.Pairwise (· < ·)) (hk : k ∈ l)
    (hmin : ∀ j ∈ l, j ≠ k → f k < f j ∨ (f k = f j ∧ k < j)) : leastBy f l = some k := by
  induction l with
  | nil => cases hk
  | cons x l ih =>
    obtain ⟨hx, hl⟩ := List.pairwise_cons.1 hs
    unfold leastBy
    by_cases hxk : x = k
    · subst hxk
      cases hy : leastBy f l with
      | none => rfl
      | some y =>
        have hyl := leastBy_mem hy
        have := hmin y (List.mem_cons_of_mem _ hyl) (hx y hyl).ne'
        simp only
        rw [if_pos (by omega)]
    · have hkl : k ∈ l := (List.mem_cons.1 hk).resolve_left (Ne.symm hxk)
      rw [ih hl hkl fun j hj => hmin j (List.mem_cons_of_mem _ hj)]
      have := hmin x (List.mem_cons_self ..) hxk
      have := hx k hkl
      simp only
      rw [if_neg (by omega)]

/-! ### Cores that a block takes -/

/-- No guest is there to leave the cores of a group. -/
structure State.Idle (s : State) (base n : Nat) : Prop where
  slots : ∀ i j, i < n → j < 16 → (s.slotAt (base + i) j).occ = .empty
  deques : ∀ i, i < n → (s.coreAt (base + i)).deque = []

theorem State.Idle.guestMoves {base n i j} (h : s.Idle base n) (hi : i < n) (hj : j < 16) :
    (s.slotAt (base + i) j).guestMoves = false := by
  simp [Slot.guestMoves, h.slots i j hi hj]

theorem State.Idle.groupClear {base n} (h : s.Idle base n) : s.groupClear base n = true := by
  simp only [State.groupClear, List.all_eq_true, List.mem_range]
  intro i hi j hj
  rw [h.guestMoves hi hj]
  rfl

theorem State.dequeHome_of_nil {c} {own} (h : (s.coreAt c).deque = []) :
    s.dequeHome c own = s.modCore c fun q => { q with deque := [] } := by
  simp [State.dequeHome, State.modCore, h]

/-- Emptying idle cores touches the cores alone. -/
theorem State.Idle.clearGroup {base n} (h : s.Idle base n) :
    s.clearGroup base n = { s with cores := (s.clearGroup base n).cores } := by
  unfold State.clearGroup
  refine (List.foldlRecOn _ _ (motive := fun t : State => t.Idle base n ∧ t = { s with cores := t.cores }) ⟨h, rfl⟩ ?_).2
  rintro t ⟨ht, hts⟩ i hi
  have hi := List.mem_range.1 hi
  have hstay : (List.range 16).foldl (fun s k =>
      if (s.slotAt (base + i) k).guestMoves then s.guestHome (base + i) k else s) t = t := by
    refine List.foldlRecOn _ _ (motive := (· = t)) rfl ?_
    rintro _ rfl k hk
    rw [ht.guestMoves hi (List.mem_range.1 hk)]
    rfl
  dsimp only
  rw [hstay, State.dequeHome_of_nil (ht.deques i hi)]
  refine ⟨⟨ht.slots, fun j hj => ?_⟩, by rw [hts]; rfl⟩
  by_cases hji : j = i
  · subst hji; simp
  · rw [State.coreAt_modCore_other _ _ (by omega)]; exact ht.deques j hj

/-- The first `n` cores from `base` are dealt to a block. -/
theorem dealCores_eq (s : State) (l b base n : Nat) :
    (List.range n).foldl (fun (s : State) i => s.dealCore (l, b, i) (base + i)) s =
      { s with
        cores := ((List.range n).foldl (fun (s : State) i => s.dealCore (l, b, i) (base + i)) s).cores
        full := ((List.range n).foldl (fun (s : State) i => s.dealCore (l, b, i) (base + i)) s).full } :=
  List.foldlRecOn _ _ (motive := fun t : State => t = { s with cores := t.cores, full := t.full }) rfl
    fun t ht i _ => by rw [ht]; rfl
theorem dealCores_owner (s : State) (l b base n : Nat) {i : Nat} (hi : i < n) :
    (((List.range n).foldl (fun (s : State) i => s.dealCore (l, b, i) (base + i)) s).coreAt (base + i)).owner = some (l, b, i) := by
  induction n with
  | zero => omega
  | succ n ih =>
    rw [List.range_succ, List.foldl_append]
    simp only [List.foldl_cons, List.foldl_nil, State.dealCore]
    by_cases hin : i = n
    · subst hin; simp
    · rw [State.coreAt_modCore_other _ _ (by omega)]
      exact ih (by omega)

/-- A block starts on idle cores: they are its own, and its entry strand runs in slot 0 of the first of them. -/
theorem State.Idle.startBlock {l : Launch} {base : Nat} (h : s.Idle base l.cores) (b : Nat) :
    (s.startBlock l b base).launches = s.launches ∧
      (∀ i, i < l.cores → ((s.startBlock l b base).coreAt (base + i)).owner = some (l.num, b, i)) ∧
      ((s.startBlock l b base).slotAt base 0).occ = .running ∧
      ∃ id x, ((s.startBlock l b base).slotAt base 0).ctx = State.seatCtx x base (l.entryCtx b id) := by
  have hslot : (s.slotAt base 0).occ = .empty := h.slots 0 0 (Nat.two_pow_pos _) (by omega)
  unfold State.startBlock
  dsimp only
  rw [h.clearGroup]
  generalize (s.clearGroup base l.cores).cores = cs
  have hd := dealCores_eq { s with cores := cs } l.num b base l.cores
  have ho (i : Nat) := dealCores_owner { s with cores := cs } l.num b base l.cores (i := i)
  generalize (List.range l.cores).foldl (fun (s : State) i => s.dealCore (l.num, b, i) (base + i)) { s with cores := cs } = u at hd ho
  have hu : (u.slotAt base 0).occ = .empty := by rw [hd]; exact hslot
  have hl : u.launches = s.launches := by rw [hd]
  generalize hm : State.newId _ = m
  have hms : m.2.slots = u.slots ∧ m.2.launches = u.launches ∧ m.2.cores = u.cores := by subst hm; exact ⟨rfl, rfl, rfl⟩
  obtain ⟨hslots, hlaunches, hcores⟩ := hms
  have hempty : (m.2.slotAt base 0).occ = .empty := by rwa [State.slotAt, hslots]
  rw [if_pos (by rw [hempty]; rfl)]
  refine ⟨hlaunches.trans hl, fun i hi => ?_, ?_, m.1, m.2, ?_⟩
  · rw [← ho i hi, State.coreAt, State.coreAt, ← hcores]
    rfl
  · rw [State.place, State.slotAt_setSlot]
  · rw [State.place, State.slotAt_setSlot]

/-! ### Dealing -/

theorem State.dealNext_of_dealt {l : Launch} (h : l.count ≤ l.dealt) : s.dealNext l = none := by
  rw [State.dealNext, if_pos h]

/-- Where no block waits for cores, a parser deals its first launch that has a block left. -/
theorem execBlockDeal_of_first {l : Launch} {r q : List Launch} (hl : s.launches = r ++ l :: q)
    (hr : ∀ x ∈ r, x.queue / 32 ≠ l.queue / 32 ∨ x.count ≤ x.dealt) (hwait : ∀ j, j < 64 → s.nextOn j = none)
    (ht : s.dealNext l = some t) : execBlockDeal (l.queue / 32) s = .next t := by
  have hfirst : ((s.launches.filter fun x => x.queue / 32 == l.queue / 32).findSome? s.dealNext) = some t := by
    have hnone : (r.filter fun x => x.queue / 32 == l.queue / 32).findSome? s.dealNext = none := by
      refine List.findSome?_eq_none_iff.2 fun x hx => ?_
      obtain ⟨hxr, hxq⟩ := List.mem_filter.1 hx
      exact State.dealNext_of_dealt ((hr x hxr).resolve_left (by simpa using hxq))
    rw [hl, List.filter_append, List.findSome?_append, hnone, List.filter_cons_of_pos (by simp)]
    simp [ht]
  simp only [execBlockDeal]
  split
  · rename_i hfresh
    obtain ⟨k, hk, hx⟩ := List.exists_of_findSome?_eq_some hfresh
    rw [hwait k (List.mem_range.1 hk)] at hx
    cases hx
  · rw [hfirst]
    rfl

/-- A launch counts its block. -/
theorem map_dealt {l : Launch} {r q : List Launch} (hnum : ∀ x ∈ r ++ q, x.num ≠ l.num) :
    (r ++ l :: q).map (fun x => if x.num == l.num then { x with dealt := x.dealt + 1 } else x) =
      r ++ { l with dealt := l.dealt + 1 } :: q := by
  have hsame (m : List Launch) (hm : ∀ x ∈ m, x.num ≠ l.num) :
      m.map (fun x => if x.num == l.num then { x with dealt := x.dealt + 1 } else x) = m :=
    (List.map_congr_left fun x hx => if_neg (by simpa using hm x hx)).trans (List.map_id' m)
  rw [List.map_append, List.map_cons, hsame r fun x hx => hnum x (List.mem_append_left _ hx),
    hsame q fun x hx => hnum x (List.mem_append_right _ hx), if_pos (by simp)]

theorem State.dealNext_cores {l : Launch} {k base} (hl : l.dealt < l.count) (hwait : ∀ j, j < 64 → s.nextOn j = none)
    (hk : s.dealCluster l = some k) (hbase : s.groupOn k l.cores = some base) (h : s.Idle base l.cores) :
    s.dealNext l = some (State.startBlock
      { s with launches := s.launches.map fun x => if x.num == l.num then { x with dealt := x.dealt + 1 } else x } l l.dealt base) := by
  have hk64 : k < 64 := List.mem_range.1 (List.mem_filter.1 (leastBy_mem hk)).1
  simp only [State.dealNext]
  rw [if_neg (by omega), hk]
  dsimp only
  rw [hwait k hk64, hbase]
  dsimp only
  rw [if_pos h.groupClear]
  rfl

theorem execBlockDeal_cores {l : Launch} {r q : List Launch} {k base} (hl : s.launches = r ++ l :: q) (hdealt : l.dealt < l.count)
    (hr : ∀ x ∈ r, x.queue / 32 ≠ l.queue / 32 ∨ x.count ≤ x.dealt) (hnum : ∀ x ∈ r ++ q, x.num ≠ l.num)
    (hwait : ∀ j, j < 64 → s.nextOn j = none) (hk : s.dealCluster l = some k) (hbase : s.groupOn k l.cores = some base)
    (h : s.Idle base l.cores) :
    ∃ t, execBlockDeal (l.queue / 32) s = .next t ∧ t.launches = r ++ { l with dealt := l.dealt + 1 } :: q ∧
      (∀ i, i < l.cores → (t.coreAt (base + i)).owner = some (l.num, l.dealt, i)) ∧ (t.slotAt base 0).occ = .running ∧
      (t.slotAt base 0).ctx.gpr[0] = l.param ∧ (t.slotAt base 0).ctx.gpr[1] = wordN l.dealt ∧
      (t.slotAt base 0).ctx.gpr[2] = wordN l.count ∧ (t.slotAt base 0).ctx.pc = l.entry := by
  have hidle : State.Idle
      { s with launches := s.launches.map fun x => if x.num == l.num then { x with dealt := x.dealt + 1 } else x } base l.cores :=
    ⟨h.slots, h.deques⟩
  obtain ⟨hlaunches, howner, hocc, id, x, hctx⟩ := hidle.startBlock l.dealt
  refine ⟨_, execBlockDeal_of_first hl hr hwait (State.dealNext_cores hdealt hwait hk hbase h), ?_, howner, hocc, ?_⟩
  · rw [hlaunches, hl, map_dealt hnum]
  · rw [hctx]
    exact ⟨rfl, rfl, rfl, rfl⟩

theorem State.dealNext_waits {l : Launch} {k} (hl : l.dealt < l.count) (hnone : s.dealCluster l = none)
    (hk : leastBy (fun k => (s.waitingOn k).length) (s.shortLists l) = some k) :
    ∃ b, s.dealNext l = some { s with
        launches := s.launches.map fun x => if x.num == l.num then { x with dealt := x.dealt + 1 } else x
        blocks := s.blocks ++ [b] } ∧ b.launch = l.num ∧ b.index = l.dealt ∧ b.place = .waiting k none := by
  simp only [State.dealNext]
  rw [if_neg (by omega), hnone]
  dsimp only
  rw [hk]
  exact ⟨_, rfl, rfl, rfl, rfl⟩

theorem execBlockDeal_waits {l : Launch} {r q : List Launch} {k} (hl : s.launches = r ++ l :: q) (hdealt : l.dealt < l.count)
    (hr : ∀ x ∈ r, x.queue / 32 ≠ l.queue / 32 ∨ x.count ≤ x.dealt) (hnum : ∀ x ∈ r ++ q, x.num ≠ l.num)
    (hwait : ∀ j, j < 64 → s.nextOn j = none) (hnone : s.dealCluster l = none) (hk : k < 64) (hp : l.permits k = true)
    (hroom : (s.waitingOn k).length < 4)
    (hmin : ∀ j, j < 64 → j ≠ k → l.permits j = true → (s.waitingOn k).length < (s.waitingOn j).length ∨
      ((s.waitingOn k).length = (s.waitingOn j).length ∧ k < j)) :
    ∃ t b, execBlockDeal (l.queue / 32) s = .next t ∧ t.launches = r ++ { l with dealt := l.dealt + 1 } :: q ∧
      t.blocks = s.blocks ++ [b] ∧ b.launch = l.num ∧ b.index = l.dealt ∧ b.place = .waiting k none := by
  have hleast : leastBy (fun k => (s.waitingOn k).length) (s.shortLists l) = some k := by
    refine leastBy_eq_some (List.pairwise_lt_range.filter _) (List.mem_filter.2 ⟨List.mem_range.2 hk, by simp [hp, hroom]⟩) ?_
    intro j hj hjk
    obtain ⟨hj64, hpj⟩ := List.mem_filter.1 hj
    exact hmin j (List.mem_range.1 hj64) hjk ((Bool.and_eq_true ..).mp hpj).1
  obtain ⟨b, hb, hlaunch, hindex, hplace⟩ := State.dealNext_waits hdealt hnone hleast
  exact ⟨_, b, execBlockDeal_of_first hl hr hwait hb, by rw [← map_dealt hnum, ← hl], rfl, hlaunch, hindex, hplace⟩

end
end Sys2Proof.Machine

/-! O49. -/

namespace Sys2Proof.Machine

/-- Settles O49, an operation at a time: the head of a queue starts as its packet says (`startHead_of_head`); the packet that completes
frees its place and moves the index (`State.Done`), and what follows in the same step, waits served and packets passed over, takes
nothing of that back (`State.Grows`). A block takes the cores that are idle for it, or joins the shortest list. -/
theorem packetsTakeEffect : Obligations.PacketsTakeEffect := by
  unfold Obligations.PacketsTakeEffect
  refine ⟨fun q s u => ⟨fun l h => execLaunchPacket_of_head h, fun l v h hv => execFencePacket_of_head h hv,
    fun p l v hp hl hv => execFencePacketRecheck_of_pass hp hl hv,
    fun p add int vec idx w v hp hpage hx hc => execSignalPacket_of_counter hp hpage hx hc, ?copy,
    fun m n h => execModePacket_of_head h⟩, ?deal, fun s l hl hc hd hcmds hlate => execLaunchComplete_of_complete hl hc hd hcmds hlate⟩
  case copy =>
    intro p sh dh src dst len a b k hp hq hpage hx ha hb hk harb hdue
    refine ⟨fun hs hd hf => ?_, fun sa da u v w z l hu hv hw hz => ?_⟩
    · subst hs hd
      obtain ⟨z, hcopies, hmem⟩ := State.copies_host hf p a b k
      obtain ⟨t, ht, htmem, -⟩ := execCopyPacket_of_copies hp hq hpage hx ha hb hk harb hdue hcopies
      exact ⟨t, ht, htmem.trans hmem⟩
    · subst hq
      exact execCopyPacket_of_copies hp rfl hpage hx ha hb hk harb hdue ⟨sa, da, u, v, w, l, hu, hv, hw, hz⟩
  case deal =>
    intro s l r q hl hdealt hr hnum hwait
    exact ⟨fun k base hk hbase hslots hdeques => execBlockDeal_cores hl hdealt hr hnum hwait hk hbase ⟨hslots, hdeques⟩,
      fun k hnone hk hp hroom hmin => execBlockDeal_waits hl hdealt hr hnum hwait hnone hk hp hroom hmin⟩

end Sys2Proof.Machine

/-! SUPPORT. What reading and writing a register, opening a chunk and retiring leave of the state. -/

namespace Sys2Proof.Machine

/-! ### What a meaning leads to -/

/-- Wherever a meaning ends, its end stands in a relation to its start. -/
def Leads {α : Type} (R : State → State → Prop) (m : M α) : Prop :=
  ∀ s x t, m.run s = .ok (x, t) → R s t

section
variable {α β : Type} {R : State → State → Prop} {m : M α} {f : α → M β}

theorem leads_pure (h : ∀ s, R s s) (x : α) : Leads R (pure x) := by
  rintro s y t e
  cases e
  exact h s

theorem leads_bind (trans : ∀ {s t u}, R s t → R t u → R s u) (hm : Leads R m) (hf : ∀ x, Leads R (f x)) :
    Leads R (m >>= f) := by
  intro s y u e
  rw [M.run_bind] at e
  cases hs : m.run s with
  | ok r => rw [hs] at e; exact trans (hm s r.1 r.2 hs) (hf r.1 r.2 y u e)
  | error x => rw [hs] at e; cases e

theorem leads_get_bind {f : State → M β} (hf : ∀ s y t, (f s).run s = .ok (y, t) → R s t) : Leads R (get >>= f) :=
  fun s y t e => hf s y t e

theorem leads_modify {f : State → State} (h : ∀ s, R s (f s)) : Leads R (modify f : M Unit) := by
  rintro s y t e
  cases e
  exact h s

theorem leads_stop (x : Stop) : Leads R (stop x : M α) := by rintro s y t e; cases e
theorem leads_stop_bind (x : Stop) : Leads R (stop x >>= f) := by rintro s y t e; cases e
theorem leads_waitFor (w : Wait) : Leads R (waitFor w : M α) := by rintro s y t e; cases e
theorem leads_waitFor_bind (w : Wait) : Leads R (waitFor w >>= f) := by rintro s y t e; cases e

theorem leads_ite {c : Prop} [Decidable c] {m' : M α} (hm : Leads R m) (hm' : Leads R m') : Leads R (if c then m else m') := by
  split
  · exact hm
  · exact hm'

end

/-! ### Slots -/

theorem State.slotAt_setCur_other (s : State) {c k : Nat} (x : Slot) (h : 16 * c + k ≠ 16 * s.core + s.slot) :
    (s.setCur x).slotAt c k = s.slotAt c k := State.slotAt_setSlot_other s x h
@[simp] theorem State.coreAt_setCur (s : State) (x : Slot) (c : Nat) : (s.setCur x).coreAt c = s.coreAt c := rfl
@[simp] theorem State.clusterAt_setCur (s : State) (x : Slot) (c : Nat) : (s.setCur x).clusterAt c = s.clusterAt c := rfl
@[simp] theorem State.slotAt_core_slot (s : State) : s.slotAt s.core s.slot = s.cur := rfl
@[simp] theorem State.cur_setStream (s : State) (t : Fin 4) (v : Option Stream) :
    (s.setStream t v).cur = { s.cur with streams := s.cur.streams.set t v } := State.cur_modCur ..

/-! ### What an operand takes and receives -/

/-- All that reading or writing a register changes: of the current slot general registers and PINQ, what its chunk holds and has
taken, its streams and what its instruction holds and has been answered; of cores what stands in upstream queues. -/
structure Operand (s t : State) : Prop where
  rest : t = { s with slots := t.slots, cores := t.cores }
  others : ∀ c k, 16 * c + k ≠ 16 * s.core + s.slot → t.slotAt c k = s.slotAt c k
  cur : t.cur = { s.cur with
    ctx := { s.cur.ctx with gpr := t.cur.ctx.gpr, pinq := t.cur.ctx.pinq }
    chunk := { s.cur.chunk with held := t.cur.chunk.held, takes := t.cur.chunk.takes }
    streams := t.cur.streams, kept := t.cur.kept, replies := t.cur.replies }
  cores : ∀ c, t.coreAt c = { s.coreAt c with nqUp := (t.coreAt c).nqUp }

namespace Operand
variable {s t u : State}

theorem refl (s : State) : Operand s s := ⟨rfl, fun _ _ _ => rfl, rfl, fun _ => rfl⟩

theorem core (h : Operand s t) : t.core = s.core := by rw [h.rest]
theorem slot (h : Operand s t) : t.slot = s.slot := by rw [h.rest]
theorem mem (h : Operand s t) : t.mem = s.mem := by rw [h.rest]
theorem isCtrl (h : Operand s t) : t.isCtrl = s.isCtrl := by rw [State.isCtrl, State.isCtrl, h.core]
theorem wait (h : Operand s t) : t.cur.wait = s.cur.wait := by rw [h.cur]
theorem ctx (h : Operand s t) : t.cur.ctx = { s.cur.ctx with gpr := t.cur.ctx.gpr, pinq := t.cur.ctx.pinq } :=
  by rw [h.cur]
theorem tmode (h : Operand s t) : t.cur.ctx.tmode = s.cur.ctx.tmode := by rw [h.ctx]
theorem pred (h : Operand s t) : t.cur.ctx.pred = s.cur.ctx.pred := by rw [h.ctx]
theorem pc (h : Operand s t) : t.cur.ctx.pc = s.cur.ctx.pc := by rw [h.ctx]
theorem divQ (h : Operand s t) (c : Nat) : (t.coreAt c).divQ = (s.coreAt c).divQ := by rw [h.cores]
theorem sfuQ (h : Operand s t) (c : Nat) : (t.coreAt c).sfuQ = (s.coreAt c).sfuQ := by rw [h.cores]
theorem normQ (h : Operand s t) (c : Nat) : (t.coreAt c).normQ = (s.coreAt c).normQ := by rw [h.cores]

theorem trans (h : Operand s t) (h' : Operand t u) : Operand s u where
  rest := by rw [h'.rest, h.rest]
  others c k hk := (h'.others c k (by rw [h.core, h.slot]; exact hk)).trans (h.others c k hk)
  cur := by rw [h'.cur, h.cur]
  cores c := by rw [h'.cores, h.cores]

end Operand

theorem operand_pure {α : Type} (x : α) : Leads Operand (pure x) := leads_pure Operand.refl x
theorem operand_bind {α β : Type} {m : M α} {f : α → M β} (hm : Leads Operand m) (hf : ∀ x, Leads Operand (f x)) :
    Leads Operand (m >>= f) := leads_bind Operand.trans hm hf

/-- A change of the current slot alone, of what an operand may change there. -/
theorem Operand.of_modCur (s : State) {f : Slot → Slot}
    (h : f s.cur = { s.cur with
      ctx := { s.cur.ctx with gpr := (f s.cur).ctx.gpr, pinq := (f s.cur).ctx.pinq }
      chunk := { s.cur.chunk with held := (f s.cur).chunk.held, takes := (f s.cur).chunk.takes }
      streams := (f s.cur).streams, kept := (f s.cur).kept, replies := (f s.cur).replies }) : Operand s (s.modCur f) where
  rest := rfl
  others _ _ hk := State.slotAt_setCur_other s _ hk
  cur := by rw [State.cur_modCur]; exact h
  cores _ := rfl

theorem Operand.of_modCore (s : State) (c : Nat) (l : List Word) : Operand s (s.modCore c fun k => { k with nqUp := l }) where
  rest := rfl
  others _ _ _ := rfl
  cur := rfl
  cores d := by
    by_cases h : d = c
    · subst h; rw [State.coreAt_modCore]
    · rw [State.coreAt_modCore_other s _ h]

theorem leads_guestHome : Leads Operand guestHome :=
  leads_get_bind fun s => by
    split
    · exact leads_stop _ s
    · exact operand_pure _ s

theorem leads_nqPop : Leads Operand nqPop := by
  unfold nqPop
  refine operand_bind leads_guestHome fun _ => leads_get_bind fun s => ?_
  split
  · rintro y t ⟨⟩
    exact .of_modCur s rfl
  · split
    · exact leads_waitFor _ s
    · rintro y t ⟨⟩
      exact (Operand.of_modCore s _ _).trans ((Operand.of_modCur _ rfl).trans (Operand.of_modCur _ rfl))

theorem leads_nqPush (w : Word) : Leads Operand (nqPush w) := by
  unfold nqPush
  refine operand_bind leads_guestHome fun _ => leads_get_bind fun s => ?_
  split
  · exact leads_waitFor_bind _ s
  · exact operand_bind (leads_modify fun s => .of_modCur s rfl) (fun _ => leads_modify fun s => .of_modCur s rfl) s

theorem leads_streamReport (t : Fin 4) (st : Stream) : Leads Operand (streamReport t st) := by
  unfold streamReport
  dsimp only
  split
  · exact leads_stop_bind _
  · split
    · exact leads_stop_bind _
    · split
      · exact leads_stop _
      · exact operand_pure _

theorem leads_nextReplyOf (p : Nat → Bool) : Leads Operand (nextReplyOf p) :=
  leads_get_bind fun s => by
    split <;>
    · rintro y t ⟨⟩
      exact .of_modCur s rfl

theorem leads_streamRead (t : Fin 4) : Leads Operand (streamRead t) :=
  leads_get_bind fun s => by
    split
    · exact leads_stop _ s
    · refine operand_bind (leads_streamReport _ _) (fun _ => ?_) s
      split
      · exact leads_stop _
      · split
        · exact leads_stop _
        · split
          · refine operand_bind (leads_nextReplyOf _) fun r => ?_
            split
            · exact operand_bind (leads_modify fun s => .of_modCur s rfl) fun _ => operand_pure _
            · exact leads_stop _
            · exact leads_stop _
            all_goals exact leads_waitFor _
          · exact operand_bind (leads_modify fun s => .of_modCur s rfl) fun _ => operand_pure _

theorem leads_streamWrite (t : Fin 4) (w : Word) : Leads Operand (streamWrite t w) :=
  leads_get_bind fun s => by
    have last (st : Stream) : Leads Operand (do
        if 16 ≤ st.buf.length then waitFor (.streamFull t)
        modify fun s => s.setStream t (some { st with pos := st.pos + 1 })
        hold (.streamOut t w)) := by
      split
      · exact leads_waitFor_bind _
      · exact operand_bind (leads_modify fun s => .of_modCur s rfl) fun _ => leads_modify fun s => .of_modCur s rfl
    split
    · exact leads_stop _ s
    · refine operand_bind (leads_streamReport _ _) (fun _ => ?_) s
      dsimp only
      split
      · exact leads_stop _
      · split
        · exact leads_stop _
        · split
          · exact leads_stop_bind _
          · exact last _
          · split
            · exact leads_stop_bind _
            · exact last _

theorem leads_readReg (r : Reg) : Leads Operand (readReg r) :=
  leads_get_bind fun s => by
    split
    · exact operand_pure _ s
    · split
      · split
        · exact leads_stop _ s
        · exact leads_nqPop s
      · split
        · exact leads_stop _ s
        · exact leads_streamRead _ s
      · split
        · exact leads_stop _ s
        · exact operand_pure _ s
      all_goals exact operand_pure _ s

theorem leads_writeReg (r : Reg) (v : Word) : Leads Operand (writeReg r v) :=
  leads_get_bind fun s => by
    split
    · exact leads_modify (fun s => .of_modCur s rfl) s
    · split
      · split
        · exact leads_stop _ s
        · exact leads_nqPush _ s
      · split
        · exact leads_stop _ s
        · exact leads_streamWrite _ _ s
      · exact leads_stop _ s
      all_goals exact operand_pure _ s

theorem Reads.operand {r : Reg} {s t : State} {v : Word} (h : Reads r s v t) : Operand s t := leads_readReg r s v t h
theorem Writes.operand {r : Reg} {s t : State} {v : Word} (h : Writes r v s t) : Operand s t := leads_writeReg r v s _ t h

end Sys2Proof.Machine

/-! SUPPORT, O11. Retiring: the slot it leaves, and what a gang's leader hands out. -/

namespace Sys2Proof.Machine

/-! ### Folds -/

/-- A relation that every step of a fold keeps holds between its ends. -/
theorem foldl_related {α β : Type} {R : α → α → Prop} (refl : ∀ a, R a a) (trans : ∀ {a b c}, R a b → R b c → R a c)
    {f : α → β → α} (l : List β) (h : ∀ a, ∀ b ∈ l, R a (f a b)) (a : α) : R a (l.foldl f a) := by
  induction l generalizing a with
  | nil => exact refl a
  | cons b l ih =>
    exact trans (h a b List.mem_cons_self) (ih (fun a c hc => h a c (List.mem_cons_of_mem b hc)) _)

theorem State.slotAt_congr (s : State) {c k d j : Nat} (h : 16 * c + k = 16 * d + j) : s.slotAt c k = s.slotAt d j := by
  rw [State.slotAt, State.slotAt, h]

/-! ### What a leader hands out -/

theorem Slot.BufferOnly.refl (x : Slot) : x.BufferOnly x := rfl
theorem Slot.BufferOnly.trans {x y z : Slot} (h : x.BufferOnly y) (h' : y.BufferOnly z) : x.BufferOnly z := by
  unfold Slot.BufferOnly at *
  rw [h', h]

/-- A hand-out changes buffers of other slots than the current one. -/
structure HandsOut (s t : State) : Prop where
  rest : t = { s with slots := t.slots }
  cur : t.cur = s.cur
  others : ∀ c k, (s.slotAt c k).BufferOnly (t.slotAt c k)

theorem HandsOut.refl (s : State) : HandsOut s s := ⟨rfl, rfl, fun _ _ => rfl⟩
theorem HandsOut.trans {s t u : State} (h : HandsOut s t) (h' : HandsOut t u) : HandsOut s u :=
  ⟨by rw [h'.rest, h.rest], h'.cur.trans h.cur, fun c k => (h.others c k).trans (h'.others c k)⟩
theorem HandsOut.core {s t : State} (h : HandsOut s t) : t.core = s.core := by rw [h.rest]
theorem HandsOut.slot {s t : State} (h : HandsOut s t) : t.slot = s.slot := by rw [h.rest]

theorem HandsOut.setSlot {s : State} {c k : Nat} {y : Slot} (hc : 16 * c + k ≠ 16 * s.core + s.slot)
    (h : (s.slotAt c k).BufferOnly y) : HandsOut s (s.setSlot c k y) where
  rest := rfl
  cur := State.slotAt_setSlot_other s y hc.symm
  others d j := by
    by_cases e : 16 * d + j = 16 * c + k
    · rw [State.slotAt_congr _ e, State.slotAt_congr _ e, State.slotAt_setSlot]
      exact h
    · rw [State.slotAt_setSlot_other s y e]
      exact .refl _

/-- The leader in the current slot hands an instruction to the member on one core, if a follower there has not executed it. -/
def State.handStep (e : GangEntry) (release : Bool) (s : State) (c : Nat) : State :=
  let y := s.slotAt c s.slot
  if c != s.core && y.occ == .running && y.isFollower && decide (y.gseq < e.seq) then
    s.setSlot c s.slot
      { y with gbuf := if y.gbuf.any fun f => f.seq == e.seq then y.gbuf else y.gbuf ++ [e], releasing := y.releasing || release }
  else s

theorem State.handOut_eq (s : State) (e : GangEntry) (release : Bool) :
    s.handOut e release = (s.cur.ctx.gangCores s.core).foldl (State.handStep e release) s := rfl

theorem State.handStep_handsOut (e : GangEntry) (release : Bool) (s : State) (c : Nat) : HandsOut s (s.handStep e release c) := by
  unfold State.handStep
  dsimp only
  split
  case isTrue hc =>
    have hc : c ≠ s.core := by
      intro heq
      simp [heq] at hc
    exact HandsOut.setSlot (by omega) rfl
  case isFalse => exact .refl s

theorem State.handSteps_handsOut (e : GangEntry) (release : Bool) (l : List Nat) (s : State) :
    HandsOut s (l.foldl (State.handStep e release) s) :=
  foldl_related HandsOut.refl HandsOut.trans l (fun t c _ => t.handStep_handsOut e release c) s

theorem State.handOut_handsOut (s : State) (e : GangEntry) (release : Bool) : HandsOut s (s.handOut e release) :=
  State.handSteps_handsOut ..

/-! ### The slot that retiring leaves -/

/-- The slot of a strand once its instruction has executed, before a member marked for release leaves its gang. -/
def Slot.passed (x : Slot) (target : Option Word) : Slot :=
  let e := if x.isFollower then x.gbuf.head? else none
  let leads := x.ctx.gang && x.ctx.leader
  let c := x.chunk
  { x with
    ctx := { x.ctx with pc := match e with | some e => e.next | none => target.getD x.nextPc }
    chunk := { c with
      count := c.count + 1
      ended := c.ended || decide (255 ≤ c.count) || decide (0 < x.lockLeft)
      gtaken := c.gtaken ++ e.toList
      gpushed := if leads then c.gpushed + 1 else c.gpushed }
    ticket := none, replies := [], begun := false, kept := [], dictWord := none
    gbuf := if x.isFollower then x.gbuf.drop 1 else x.gbuf
    gseq := if leads && x.gskip == 0 then x.gseq + 1 else match e with | some e => e.seq | none => x.gseq
    gskip := if leads then x.gskip - 1 else x.gskip }

theorem Slot.settleRelease_keeps (x : Slot) : ∃ (c : Ctx) (f : Bool), x.settleRelease = { x with
    ctx := { x.ctx with gang := c.gang, leader := c.leader, lane := c.lane, gsz := c.gsz }
    chunk := { x.chunk with freed := f }
    gbuf := x.settleRelease.gbuf, releasing := x.settleRelease.releasing, gskip := x.settleRelease.gskip } := by
  unfold Slot.settleRelease
  split
  · exact ⟨x.release.ctx, _, rfl⟩
  · exact ⟨x.ctx, _, rfl⟩

theorem State.retire_handsOut (s : State) (t : Option Word) (h : s.isCtrl = false) :
    ∃ u, HandsOut s u ∧ s.retire t = u.setCur (s.cur.passed t).settleRelease := by
  unfold State.retire
  simp only [h, Bool.false_eq_true, if_false]
  refine ⟨_, ?_, rfl⟩
  split
  · exact State.handOut_handsOut ..
  · exact .refl s

/-- Retiring changes slots alone: buffers of a gang's other members, and the current slot. -/
theorem State.cur_retire (s : State) (t : Option Word) (h : s.isCtrl = false) :
    (s.retire t).cur = (s.cur.passed t).settleRelease := by
  obtain ⟨u, hu, e⟩ := s.retire_handsOut t h
  rw [e, State.cur_setCur]

theorem State.retire_curOnly (s : State) (t : Option Word) : CurOnly s (s.retire t) := by
  cases h : s.isCtrl with
  | true =>
    unfold State.retire
    simp only [h, if_true]
    exact ⟨rfl, fun c k hk => by rw [State.slotAt_setCur_other s _ hk]; exact .refl _⟩
  | false =>
    obtain ⟨u, hu, e⟩ := s.retire_handsOut t h
    rw [e]
    refine ⟨?_, fun c k hk => ?_⟩
    · rw [hu.rest]; rfl
    · rw [State.slotAt_setCur_other u _ (by rw [hu.core, hu.slot]; exact hk)]
      exact hu.others c k

theorem State.retire_ctrl (s : State) (t : Option Word) (h : s.isCtrl = true) :
    s.retire t = s.modCtx fun x => { x with pc := t.getD (x.pc + 4) } := by
  unfold State.retire
  simp only [h, if_true]
  rfl

section
variable (x : Slot)

@[simp] theorem Slot.settleRelease_pc : x.settleRelease.ctx.pc = x.ctx.pc := by
  obtain ⟨c, f, h⟩ := x.settleRelease_keeps; rw [h]
@[simp] theorem Slot.settleRelease_gpr : x.settleRelease.ctx.gpr = x.ctx.gpr := by
  obtain ⟨c, f, h⟩ := x.settleRelease_keeps; rw [h]
@[simp] theorem Slot.settleRelease_pred : x.settleRelease.ctx.pred = x.ctx.pred := by
  obtain ⟨c, f, h⟩ := x.settleRelease_keeps; rw [h]
@[simp] theorem Slot.settleRelease_tmode : x.settleRelease.ctx.tmode = x.ctx.tmode := by
  obtain ⟨c, f, h⟩ := x.settleRelease_keeps; rw [h]
@[simp] theorem Slot.settleRelease_wait : x.settleRelease.wait = x.wait := by
  obtain ⟨c, f, h⟩ := x.settleRelease_keeps; rw [h]
@[simp] theorem Slot.settleRelease_count : x.settleRelease.chunk.count = x.chunk.count := by
  obtain ⟨c, f, h⟩ := x.settleRelease_keeps; rw [h]
@[simp] theorem Slot.settleRelease_held : x.settleRelease.chunk.held = x.chunk.held := by
  obtain ⟨c, f, h⟩ := x.settleRelease_keeps; rw [h]

end

/-! ### Frames -/

theorem CurOnly.refl (s : State) : CurOnly s s := ⟨rfl, fun _ _ _ => .refl _⟩
theorem CurOnly.core {s t : State} (h : CurOnly s t) : t.core = s.core := by rw [h.rest]
theorem CurOnly.slot {s t : State} (h : CurOnly s t) : t.slot = s.slot := by rw [h.rest]
theorem CurOnly.mem {s t : State} (h : CurOnly s t) : t.mem = s.mem := by rw [h.rest]
theorem CurOnly.cores {s t : State} (h : CurOnly s t) : t.cores = s.cores := by rw [h.rest]
theorem CurOnly.trans {s t u : State} (h : CurOnly s t) (h' : CurOnly t u) : CurOnly s u where
  rest := by rw [h'.rest, h.rest]
  others c k hk := (h.others c k hk).trans (h'.others c k (by rw [h.core, h.slot]; exact hk))
theorem CurOnly.modCur (s : State) (f : Slot → Slot) : CurOnly s (s.modCur f) :=
  ⟨rfl, fun c k hk => by rw [State.modCur, State.slotAt_setCur_other s _ hk]; exact .refl _⟩

theorem Ctx.ComputeOnly.trans {x y z : Ctx} (h : x.ComputeOnly y) (h' : y.ComputeOnly z) : x.ComputeOnly z := by
  unfold Ctx.ComputeOnly at *
  rw [h', h]

theorem Computes.trans {s t u : State} (h : Computes s t) (h' : Computes t u) : Computes s u where
  cur := h.cur.trans h'.cur
  ctx := h.ctx.trans h'.ctx
  trap := ⟨h'.trap.1.trans h.trap.1, h'.trap.2.1.trans h.trap.2.1, h'.trap.2.2.trans h.trap.2.2⟩
  vec := ⟨h'.vec.1.trans h.vec.1, h'.vec.2.trans h.vec.2⟩
  streams := h'.streams.trans h.streams
  occ := h'.occ.trans h.occ

theorem computes_openChunk (s : State) : Computes s s.openChunk := by
  obtain ⟨hctx, hvec, hstreams, hsvuQ, hocc, -, htepc, htcause, htaddr, -⟩ := s.cur.opened_keeps s.isCtrl
  refine ⟨CurOnly.modCur s _, ?_, ?_, ?_, ?_, ?_⟩ <;> rw [State.cur_openChunk]
  · rw [hctx]; rfl
  · exact ⟨htepc, htcause, htaddr⟩
  · exact ⟨hvec, hsvuQ⟩
  · exact hstreams
  · exact hocc

theorem Slot.settleRelease_computeOnly (x : Slot) : x.ctx.ComputeOnly x.settleRelease.ctx := by
  obtain ⟨c, f, h⟩ := x.settleRelease_keeps
  rw [h]
  rfl

theorem computes_retire (s : State) (t : Option Word) : Computes s (s.retire t) := by
  cases h : s.isCtrl with
  | true =>
    refine ⟨s.retire_curOnly t, ?_, ?_, ?_, ?_, ?_⟩ <;> rw [s.retire_ctrl t h, State.cur_modCtx]
    · rfl
    · exact ⟨rfl, rfl, rfl⟩
    · exact ⟨rfl, rfl⟩
  | false =>
    obtain ⟨c, f, hx⟩ := (s.cur.passed t).settleRelease_keeps
    refine ⟨s.retire_curOnly t, ?_, ?_, ?_, ?_, ?_⟩ <;> rw [s.cur_retire t h]
    · exact Ctx.ComputeOnly.trans (y := (s.cur.passed t).ctx) rfl (Slot.settleRelease_computeOnly _)
    all_goals rw [hx]
    · exact ⟨rfl, rfl, rfl⟩
    · exact ⟨rfl, rfl⟩
    · rfl
    · rfl

/-- Settles O11: retiring replaces the current slot by `Slot.passed`, but for a release from the gang, and touches of other slots what a
leader hands out (`State.retire_handsOut`). -/
theorem retireAdvancesThePc : Obligations.RetireAdvancesThePc := by
  unfold Obligations.RetireAdvancesThePc
  refine ⟨fun s t h => ?_, fun s t h => s.retire_ctrl t h⟩
  have hcur := s.cur_retire t h
  refine ⟨fun hf => ?_, fun e l hf hb => ?_, ?_, ?_, ?_, computes_retire s t⟩ <;> rw [hcur]
  · simp [Slot.passed, hf]
  · simp [Slot.passed, hf, hb]
  · exact Slot.settleRelease_count _
  · exact Slot.settleRelease_held _
  · exact Slot.settleRelease_gpr _

end Sys2Proof.Machine

/-! SUPPORT, O12 to O14. Meanings on plain operands, which never stop, and the frames of the instructions that compute. -/

namespace Sys2Proof.Machine

/-! ### Plain operands -/

/-- The state in which a plain destination has received a value. -/
def State.put (s : State) (d : Reg) (v : Word) : State :=
  match regIndex d with
  | some n => s.modCtx fun x => { x with gpr := x.gpr.set n v }
  | none => s

theorem eq_z_of_plain {r : Reg} (h : r.plain = true) (hn : regIndex r = none) : r = .z := by
  simpa [Reg.plain, hn] using h

theorem readReg_plain {r : Reg} (h : r.plain = true) (s : State) : (readReg r).run s = .ok (s.val r, s) := by
  unfold readReg State.val
  rw [M.run_bind_ok (M.run_get s)]
  cases hr : regIndex r with
  | some n => rfl
  | none => rw [eq_z_of_plain h hr]; rfl

theorem writeReg_plain {r : Reg} (h : r.plain = true) (v : Word) (s : State) :
    (writeReg r v).run s = .ok ((), s.put r v) := by
  unfold writeReg State.put
  rw [M.run_bind_ok (M.run_get s)]
  cases hr : regIndex r with
  | some n => rfl
  | none => rw [eq_z_of_plain h hr]; rfl

/-! ### Meanings that do not stop -/

/-- A meaning ends wherever it starts, and its end stands in a relation to its start. -/
def Ends {α : Type} (R : State → State → Prop) (m : M α) : Prop :=
  ∀ s, ∃ x t, m.run s = .ok (x, t) ∧ R s t

section
variable {α β : Type} {R : State → State → Prop} {m : M α}

theorem ends_pure (h : ∀ s, R s s) (x : α) : Ends R (pure x) := fun s => ⟨x, s, rfl, h s⟩
theorem ends_modify {f : State → State} (h : ∀ s, R s (f s)) : Ends R (modify f : M Unit) := fun s => ⟨_, f s, rfl, h s⟩

theorem ends_bind (trans : ∀ {s t u}, R s t → R t u → R s u) {f : α → M β} (hm : Ends R m) (hf : ∀ x, Ends R (f x)) :
    Ends R (m >>= f) := by
  intro s
  obtain ⟨x, t, hx, ht⟩ := hm s
  obtain ⟨y, u, hy, hu⟩ := hf x t
  exact ⟨y, u, by rw [M.run_bind_ok hx, hy], trans ht hu⟩

theorem ends_get_bind {f : State → M β} (hf : ∀ s, Ends R (f s)) : Ends R (get >>= f) := fun s => hf s s

end

/-! ### Frames of meanings that compute -/

/-- What a meaning on plain operands may change: general registers of `ds`, predicate `p`, sticky flags, what its slot waits for, and
the queues of the core's normaliser and special-function unit. -/
structure Alters (ds : List Reg) (p : Fin 16) (s t : State) : Prop where
  rest : t = { s with slots := t.slots, cores := t.cores }
  others : ∀ c k, 16 * c + k ≠ 16 * s.core + s.slot → (s.slotAt c k).BufferOnly (t.slotAt c k)
  ctx : s.cur.ctx.ComputeOnly t.cur.ctx
  gpr : ∀ n : Fin 24, (∀ d ∈ ds, regIndex d ≠ some n) → t.cur.ctx.gpr[n] = s.cur.ctx.gpr[n]
  pred : ∀ q : Fin 16, q ≠ p → t.cur.ctx.pred.getLsbD q.val = s.cur.ctx.pred.getLsbD q.val
  pred0 : p = 0 → t.cur.ctx.pred = s.cur.ctx.pred
  tmode : ∃ f : NFlags, t.cur.ctx.tmode = s.cur.ctx.tmode ||| (f &&& flAll)
  cores : ∀ c, t.coreAt c = { s.coreAt c with normQ := (t.coreAt c).normQ, sfuQ := (t.coreAt c).sfuQ }

namespace Alters
variable {ds : List Reg} {p : Fin 16} {s t u : State}

theorem core (h : Alters ds p s t) : t.core = s.core := by rw [h.rest]
theorem slot (h : Alters ds p s t) : t.slot = s.slot := by rw [h.rest]
theorem mem (h : Alters ds p s t) : t.mem = s.mem := by rw [h.rest]
theorem curOnly (h : Alters ds p s t) : CurOnly s { t with cores := s.cores } := ⟨by rw [h.rest], h.others⟩

theorem trans (h : Alters ds p s t) (h' : Alters ds p t u) : Alters ds p s u where
  rest := by rw [h'.rest, h.rest]
  others c k hk := (h.others c k hk).trans (h'.others c k (by rw [h.core, h.slot]; exact hk))
  ctx := h.ctx.trans h'.ctx
  gpr n hn := (h'.gpr n hn).trans (h.gpr n hn)
  pred q hq := (h'.pred q hq).trans (h.pred q hq)
  pred0 hp := (h'.pred0 hp).trans (h.pred0 hp)
  tmode := by
    obtain ⟨f, hf⟩ := h.tmode
    obtain ⟨f', hf'⟩ := h'.tmode
    exact ⟨f ||| f', by rw [hf', hf, BitVec.or_assoc, ← BitVec.and_or_distrib_right]⟩
  cores c := by rw [h'.cores, h.cores]

end Alters

/-- A state that differs in the current slot alone, with its registers, predicates and TMODE as they were. -/
theorem Computes.alters {s t : State} (h : Computes s t) (hg : t.cur.ctx.gpr = s.cur.ctx.gpr)
    (hp : t.cur.ctx.pred = s.cur.ctx.pred) (ht : t.cur.ctx.tmode = s.cur.ctx.tmode) (ds : List Reg) (p : Fin 16) :
    Alters ds p s t where
  rest := by rw [h.cur.rest]
  others := h.cur.others
  ctx := h.ctx
  gpr _ _ := by rw [hg]
  pred _ _ := by rw [hp]
  pred0 _ := hp
  tmode := ⟨0, by rw [ht]; simp⟩
  cores c := by rw [State.coreAt, State.coreAt, h.cur.cores]

theorem Alters.refl (ds : List Reg) (p : Fin 16) (s : State) : Alters ds p s s :=
  ⟨rfl, fun _ _ _ => .refl _, rfl, fun _ _ => rfl, fun _ _ => rfl, fun _ => rfl, ⟨0, by simp⟩, fun _ => rfl⟩

theorem alters_openChunk (ds : List Reg) (p : Fin 16) (s : State) : Alters ds p s s.openChunk := by
  refine (computes_openChunk s).alters ?_ ?_ ?_ ds p <;> rw [State.cur_openChunk, Slot.ctx_opened]

@[simp] theorem State.gpr_retire (s : State) (t : Option Word) : (s.retire t).cur.ctx.gpr = s.cur.ctx.gpr := by
  cases h : s.isCtrl with
  | true => rw [s.retire_ctrl t h, State.cur_modCtx]
  | false => rw [s.cur_retire t h, Slot.settleRelease_gpr]; rfl
@[simp] theorem State.pred_retire (s : State) (t : Option Word) : (s.retire t).cur.ctx.pred = s.cur.ctx.pred := by
  cases h : s.isCtrl with
  | true => rw [s.retire_ctrl t h, State.cur_modCtx]
  | false => rw [s.cur_retire t h, Slot.settleRelease_pred]; rfl
@[simp] theorem State.tmode_retire (s : State) (t : Option Word) : (s.retire t).cur.ctx.tmode = s.cur.ctx.tmode := by
  cases h : s.isCtrl with
  | true => rw [s.retire_ctrl t h, State.cur_modCtx]
  | false => rw [s.cur_retire t h, Slot.settleRelease_tmode]; rfl
@[simp] theorem State.held_retire (s : State) (t : Option Word) : (s.retire t).cur.chunk.held = s.cur.chunk.held := by
  cases h : s.isCtrl with
  | true => rw [s.retire_ctrl t h, State.cur_modCtx]
  | false => rw [s.cur_retire t h, Slot.settleRelease_held]; rfl

theorem alters_retire (ds : List Reg) (p : Fin 16) (s : State) (t : Option Word) : Alters ds p s (s.retire t) :=
  (computes_retire s t).alters (s.gpr_retire t) (s.pred_retire t) (s.tmode_retire t) ds p

/-- An instruction whose meaning never stops leaves what opening a chunk, the meaning and retiring leave. -/
theorem issue_alters {ds : List Reg} {p : Fin 16} {g : Guard} {body : M (Option Word)} {s t : State}
    (hb : Ends (Alters ds p) body) (h : issue g body s = .next t) : Alters ds p s t := by
  have hopen := alters_openChunk ds p s
  obtain ⟨x, u, hx, hu⟩ := hb s.openChunk
  obtain ⟨-, e⟩ | ⟨y, u', -, hy, e⟩ | ⟨e', -, he, -⟩ := issue_cases g body s
  · obtain rfl : s.openChunk.retire none = t := by rw [e] at h; exact Host.Outcome.next.inj h
    exact hopen.trans (alters_retire ..)
  · obtain rfl : u'.retire y = t := by rw [e] at h; exact Host.Outcome.next.inj h
    obtain ⟨rfl, rfl⟩ : x = y ∧ u = u' := by simpa [hx] using hy
    exact (hopen.trans hu).trans (alters_retire ..)
  · simp [hx] at he

theorem issueStrand_alters {ds : List Reg} {p : Fin 16} {g : Guard} {body : M (Option Word)} {s t : State}
    (hb : Ends (Alters ds p) body) (hc : s.isCtrl = false) (h : issueStrand g body s = .next t) : Alters ds p s t :=
  issue_alters hb (by simpa [issueStrand, hc] using h)

section
variable {ds : List Reg} {p : Fin 16}

theorem alters_pure {α : Type} (x : α) : Ends (Alters ds p) (pure x) := ends_pure (.refl ds p) x
theorem alters_bind {α β : Type} {m : M α} {f : α → M β} (hm : Ends (Alters ds p) m) (hf : ∀ x, Ends (Alters ds p) (f x)) :
    Ends (Alters ds p) (m >>= f) := ends_bind (R := Alters ds p) Alters.trans hm hf
theorem alters_get_bind {β : Type} {f : State → M β} (hf : ∀ s, Ends (Alters ds p) (f s)) :
    Ends (Alters ds p) (get >>= f) := ends_get_bind hf

theorem alters_readReg {r : Reg} (h : r.plain = true) : Ends (Alters ds p) (readReg r) :=
  fun s => ⟨_, s, readReg_plain h s, .refl ds p s⟩

/-- A change of the current slot alone. -/
theorem Alters.of_modCur {s : State} {f : Slot → Slot} (hctx : s.cur.ctx.ComputeOnly (f s.cur).ctx)
    (hg : ∀ n : Fin 24, (∀ d ∈ ds, regIndex d ≠ some n) → (f s.cur).ctx.gpr[n] = s.cur.ctx.gpr[n])
    (hp : ∀ q : Fin 16, q ≠ p → (f s.cur).ctx.pred.getLsbD q.val = s.cur.ctx.pred.getLsbD q.val)
    (hp0 : p = 0 → (f s.cur).ctx.pred = s.cur.ctx.pred)
    (ht : ∃ b : NFlags, (f s.cur).ctx.tmode = s.cur.ctx.tmode ||| (b &&& flAll)) : Alters ds p s (s.modCur f) := by
  refine ⟨rfl, (CurOnly.modCur s f).others, ?_, ?_, ?_, ?_, ?_, fun _ => rfl⟩ <;> rw [State.cur_modCur]
  · exact hctx
  · exact hg
  · exact hp
  · exact hp0
  · exact ht

theorem alters_put {d : Reg} (hd : d ∈ ds) (v : Word) (s : State) : Alters ds p s (s.put d v) := by
  unfold State.put
  cases hr : regIndex d with
  | none => exact .refl ds p s
  | some n =>
    refine .of_modCur rfl (fun m hm => ?_) (fun _ _ => rfl) (fun _ => rfl) ⟨0, by simp⟩
    have hne : n ≠ m := fun e => hm d hd (e ▸ hr)
    exact Vector.getElem_set_ne n.isLt m.isLt (fun e => hne (Fin.ext e))

theorem alters_writeReg {d : Reg} (h : d.plain = true) (hd : d ∈ ds) (v : Word) : Ends (Alters ds p) (writeReg d v) :=
  fun s => ⟨_, _, writeReg_plain h v s, alters_put hd v s⟩

theorem alters_raise (f : NFlags) : Ends (Alters ds p) (raise f) :=
  ends_modify fun _ => .of_modCur rfl (fun _ _ => rfl) (fun _ _ => rfl) (fun _ => rfl) ⟨f, rfl⟩

/-- A change of a core's queues for shared units. -/
theorem alters_modCore (s : State) (c : Nat) {f : CoreSt → CoreSt}
    (h : ∀ k, f k = { k with normQ := (f k).normQ, sfuQ := (f k).sfuQ }) : Alters ds p s (s.modCore c f) where
  rest := rfl
  others _ _ _ := .refl _
  ctx := rfl
  gpr _ _ := rfl
  pred _ _ := rfl
  pred0 _ := rfl
  tmode := ⟨0, by simp⟩
  cores d := by
    by_cases hd : d = c
    · subst hd; rw [State.coreAt_modCore]; exact h _
    · rw [State.coreAt_modCore_other s _ hd]

theorem alters_wait (s : State) (f : Slot → Option Wait) : Alters ds p s (s.modCur fun x => { x with wait := f x }) :=
  .of_modCur rfl (fun _ _ => rfl) (fun _ _ => rfl) (fun _ => rfl) ⟨0, by simp⟩

theorem alters_normalise (n : Nat) : Ends (Alters ds p) (normalise n) := by
  unfold normalise
  split
  · exact alters_bind (ends_modify fun s => alters_modCore s _ fun _ => rfl) fun _ => ends_modify fun s => alters_wait s _
  · exact alters_pure _

theorem combinePred_getLsbD_other (c : Combine) (w : BitVec 16) {p q : Fin 16} (h : q ≠ p) (v : Bool) :
    (combinePred c w p v).getLsbD q.val = w.getLsbD q.val := by
  have hne : p.val ≠ q.val := fun e => h (Fin.ext e.symm)
  have bit (b : Bool) : (if b then w ||| BitVec.twoPow 16 p.val else w &&& ~~~(BitVec.twoPow 16 p.val)).getLsbD q.val
      = w.getLsbD q.val := by
    cases b <;> simp [BitVec.getElem_twoPow, hne.symm]
  unfold combinePred
  dsimp only
  split
  · rfl
  · exact bit _

theorem combinePred_zero (c : Combine) (w : BitVec 16) (v : Bool) : combinePred c w 0 v = w := rfl

theorem alters_setPred (c : Combine) (v : Bool) : Ends (Alters ds p) (setPred c p v) :=
  ends_modify fun s => .of_modCur rfl (fun _ _ => rfl) (fun _ hq => combinePred_getLsbD_other c _ hq v)
    (fun h => by subst h; exact combinePred_zero c _ v) ⟨0, by simp⟩

end

/-! ### Instructions that compute a register -/

/-- A meaning on plain operands that does no more than write one value to its destination. -/
def Puts (d : Reg) (m : M (Option Word)) : Prop := ∀ s, ∃ v, m.run s = .ok (none, s.put d v)

section
variable {d a b : Reg} (hd : d.plain = true)
include hd

theorem puts_op1 (f : Word → Word) (ha : a.plain = true) : Puts d (op1 f d a) :=
  fun s => ⟨_, op1_run (readReg_plain ha s) (writeReg_plain hd _ s)⟩
theorem puts_op2 (f : Word → Word → Word) (ha : a.plain = true) (hb : b.plain = true) : Puts d (op2 f d a b) :=
  fun s => ⟨_, op2_run (readReg_plain ha s) (readReg_plain hb s) (writeReg_plain hd _ s)⟩
theorem puts_op3 (f : Word → Word → Word → Word) (ha : a.plain = true) (hb : b.plain = true) : Puts d (op3 f d a b) :=
  fun s => ⟨_, op3_run (readReg_plain ha s) (readReg_plain hb s) (readReg_plain hd s) (writeReg_plain hd _ s)⟩

theorem puts_writeReg (v : Word) : Puts d (do writeReg d v; return none) :=
  fun s => ⟨v, by rw [M.run_bind_ok (writeReg_plain hd v s), M.run_pure]⟩

theorem puts_pget : Puts d (do writeReg d (((← get).cur.ctx.pred ||| 1).setWidth 64); return none) :=
  fun s => ⟨_, by rw [M.run_bind_ok (M.run_get s), M.run_bind_ok (writeReg_plain hd _ s), M.run_pure]⟩

theorem puts_sel (p : Fin 16) (ha : a.plain = true) (hb : b.plain = true) : Puts d (do
    let x ← readReg a
    let y ← readReg b
    let c ← getPred p
    writeReg d (if c then x else y)
    return none) := fun s => ⟨_, by
  rw [M.run_bind_ok (readReg_plain ha s), M.run_bind_ok (readReg_plain hb s), getPred, bind_assoc, M.run_bind_ok (M.run_get s),
    pure_bind, M.run_bind_ok (writeReg_plain hd _ s), M.run_pure]⟩

end

theorem computes_put (s : State) (d : Reg) (v : Word) : Computes s (s.put d v) := by
  unfold State.put
  cases regIndex d with
  | none => exact ⟨.refl s, rfl, ⟨rfl, rfl, rfl⟩, ⟨rfl, rfl⟩, rfl, rfl⟩
  | some n =>
    refine ⟨CurOnly.modCur s _, ?_, ?_, ?_, ?_, ?_⟩ <;> rw [State.cur_modCtx]
    · rfl
    · exact ⟨rfl, rfl, rfl⟩
    · exact ⟨rfl, rfl⟩

theorem State.cur_put (s : State) (d : Reg) (v : Word) :
    (s.put d v).cur = { s.cur with ctx := { s.cur.ctx with gpr := (s.put d v).cur.ctx.gpr } } := by
  unfold State.put
  cases regIndex d with
  | none => rfl
  | some n => rw [State.cur_modCtx]

/-- The frame of an instruction that writes one register and nothing else. -/
theorem issue_puts {g : Guard} {d : Reg} {m : M (Option Word)} {s t : State} (hm : Puts d m) (h : issue g m s = .next t) :
    Computes s t ∧ t.cur.ctx.pred = s.cur.ctx.pred ∧ t.cur.ctx.tmode = s.cur.ctx.tmode ∧
    t.cur.chunk.held = s.openChunk.cur.chunk.held ∧
    (∀ n : Fin 24, regIndex d ≠ some n → t.cur.ctx.gpr[n] = s.cur.ctx.gpr[n]) ∧ ∀ a, t.mem.read a = s.mem.read a := by
  have hopen := computes_openChunk s
  have hctx : s.openChunk.cur.ctx = s.cur.ctx := by rw [State.cur_openChunk, Slot.ctx_opened]
  obtain ⟨v, hv⟩ := hm s.openChunk
  obtain ⟨-, e⟩ | ⟨y, u, -, hy, e⟩ | ⟨x, -, hx, -⟩ := issue_cases g m s
  · obtain rfl : s.openChunk.retire none = t := by rw [e] at h; exact Host.Outcome.next.inj h
    have hall := hopen.trans (computes_retire s.openChunk none)
    exact ⟨hall, by simp, by simp, by rw [State.held_retire], fun n _ => by simp, fun a => by rw [hall.cur.mem]⟩
  · obtain rfl : u.retire y = t := by rw [e] at h; exact Host.Outcome.next.inj h
    obtain ⟨rfl, rfl⟩ : none = y ∧ s.openChunk.put d v = u := by simpa [hv] using hy
    have hall := (hopen.trans (computes_put s.openChunk d v)).trans (computes_retire _ none)
    have hput := s.openChunk.cur_put d v
    refine ⟨hall, ?_, ?_, ?_, fun n hn => ?_, fun a => by rw [hall.cur.mem]⟩
    · rw [State.pred_retire, hput, hctx]
    · rw [State.tmode_retire, hput, hctx]
    · rw [State.held_retire, hput]
    · rw [State.gpr_retire, ← hctx]
      exact (alters_put (ds := [d]) (p := 0) List.mem_cons_self v s.openChunk).gpr n (by simpa using hn)
  · simp [hv] at hx

/-- Settles O12: on plain operands each of these instructions runs to its end and writes one register (`Puts`), whatever its guard says. -/
theorem computingInstructionsLeaveTheRest : Obligations.ComputingInstructionsLeaveTheRest := by
  unfold Obligations.ComputingInstructionsLeaveTheRest
  intro i l d s t hi hl hd h
  cases i <;> simp only [Instr.computes, reduceCtorEq, Option.some.injEq, Prod.mk.injEq] at hi <;>
    obtain ⟨rfl, rfl⟩ := hi
  case add | sub | and | or | xor | andn | orn | sll | srl | sra | rol | ror | min | max | minn | maxn | mul | mulh | mulhn | bfx | bfxs =>
    exact issue_puts (puts_op2 hd _ (hl _ (by simp)) (hl _ (by simp))) h
  case clz | ctz | popc | brev | bswap | sext | zext | addi | andi | ori | xori | shiSll | shiSrl | shiSra | shiRol | shiRor | lis =>
    exact issue_puts (puts_op1 hd _ (hl _ (by simp))) h
  case li => exact issue_puts (puts_writeReg hd _) h
  case pget => exact issue_puts (puts_pget hd) h
  case sel => exact issue_puts (puts_sel hd _ (hl _ (by simp)) (hl _ (by simp))) h
  case tern | bfi => exact issue_puts (puts_op3 hd _ (hl _ (by simp)) (hl _ (by simp))) h

end Sys2Proof.Machine

/-! SUPPORT, O13, O14. Units that a core's slots share, and the frames of float instructions and of those that write a predicate. -/

namespace Sys2Proof.Machine

/-! ### Handing an operation to a shared unit -/

/-- A core's unit receives an operation of the current slot, which waits for it, or first for the normaliser where it does already. -/
def State.handed (s : State) (u : SharedUnit) (o : UnitOp) : State :=
  (s.modCore s.core fun k => match u with
    | .divider => { k with divQ := k.divQ ++ [o] }
    | .sfu => { k with sfuQ := k.sfuQ ++ [o] }).modCur fun x =>
      { x with wait := some (match x.wait with
          | some w => w
          | none => match u with | .divider => .divider | .sfu => .sfu) }

section
variable {u : SharedUnit} {d : Reg} {v : Word} {f : NFlags} {s s1 : State}

theorem toUnit_run_reg (hc : s.isCtrl = false) (hd : (regIndex d).isSome = true) :
    (toUnit u d v f).run s = .ok ((), s.handed u { slot := s.slot, dst := d, value := v, flags := f }) := by
  have hn : (regIndex d).isNone = false := by simpa using hd
  unfold toUnit
  rw [M.run_bind_ok (M.run_get s)]
  simp only [hc, hn, Bool.false_eq_true, if_false]
  rfl

theorem toUnit_run_other (hc : s.isCtrl = false) (hd : (regIndex d).isNone = true) (hw : Writes d v s s1) :
    (toUnit u d v f).run s = .ok ((), s1.handed u { slot := s.slot, dst := .z, value := v, flags := f }) := by
  unfold toUnit
  rw [M.run_bind_ok (M.run_get s)]
  simp only [hc, hd, Bool.false_eq_true, if_false, if_true]
  rw [M.run_bind_ok hw]
  rfl

theorem toUnit_run_ctrl (hc : s.isCtrl = true) (hw : Writes d v s s1) : (toUnit u d v f).run s = .ok ((), s1) := by
  unfold toUnit
  rw [M.run_bind_ok (M.run_get s)]
  simp only [hc, if_true]
  exact hw

end

/-! ### Float instructions on plain operands -/

section
variable {ds : List Reg} {p : Fin 16} {d a b : Reg}

theorem alters_handed_sfu (s : State) (o : UnitOp) : Alters ds p s (s.handed .sfu o) :=
  (alters_modCore s s.core fun _ => rfl).trans (alters_wait _ _)

theorem alters_toUnit_sfu (hd : d.plain = true) (hds : d ∈ ds) (v : Word) (f : NFlags) :
    Ends (Alters ds p) (toUnit .sfu d v f) := by
  intro s
  have hw : Writes d v s (s.put d v) := writeReg_plain hd v s
  cases hc : s.isCtrl with
  | true => exact ⟨_, _, toUnit_run_ctrl hc hw, alters_put hds v s⟩
  | false =>
    cases hn : (regIndex d).isNone with
    | true => exact ⟨_, _, toUnit_run_other hc hn hw, (alters_put hds v s).trans (alters_handed_sfu ..)⟩
    | false => exact ⟨_, _, toUnit_run_reg hc (by simpa using hn), alters_handed_sfu ..⟩

section
variable (hd : d.plain = true) (hds : d ∈ ds) (ha : a.plain = true)
include hd hds ha

theorem alters_fop1 (F : FFmt) (f : Bool → Nat → Nat × NFlags) : Ends (Alters ds p) (fop1 F f d a) :=
  alters_bind (alters_readReg ha) fun _ => alters_get_bind fun _ => alters_bind (alters_normalise _) fun _ =>
    alters_bind (alters_raise _) fun _ => alters_bind (alters_writeReg hd hds _) fun _ => alters_pure _

theorem alters_fop2 (hb : b.plain = true) (F : FFmt) (f : Bool → Nat → Nat → Nat × NFlags) :
    Ends (Alters ds p) (fop2 F f d a b) :=
  alters_bind (alters_readReg ha) fun _ => alters_bind (alters_readReg hb) fun _ => alters_get_bind fun _ =>
    alters_bind (alters_normalise _) fun _ => alters_bind (alters_raise _) fun _ =>
    alters_bind (alters_writeReg hd hds _) fun _ => alters_pure _

theorem alters_sfuOp (f : SFn) : Ends (Alters ds p) (sfuOp f d a) :=
  alters_bind (alters_readReg ha) fun _ => alters_get_bind fun _ => alters_bind (alters_normalise _) fun _ =>
    alters_bind (alters_toUnit_sfu hd hds _ _) fun _ => alters_pure _

end
end

section
variable {s t : State} {d a b : Reg} (hd : d.plain = true) (ha : a.plain = true) (hc : s.isCtrl = false)
include hd ha hc

theorem execFma_alters {g r ty} (hb : b.plain = true) (h : execFma g r ty d a b s = .next t) : Alters [d] 0 s t :=
  issueStrand_alters (alters_bind (alters_readReg ha) fun _ => alters_bind (alters_readReg hb) fun _ =>
    alters_bind (alters_readReg hd) fun _ => alters_get_bind fun _ => alters_bind (alters_normalise _) fun _ =>
    alters_bind (alters_raise _) fun _ => alters_bind (alters_writeReg hd (by simp) _) fun _ => alters_pure _) hc h

theorem execCvt_alters {g r x y} (h : execCvt g r x y d a s = .next t) : Alters [d] 0 s t :=
  issueStrand_alters (alters_bind (alters_readReg ha) fun _ => alters_get_bind fun _ => alters_bind (alters_normalise _) fun _ =>
    alters_bind (alters_raise _) fun _ => alters_bind (alters_writeReg hd (by simp) _) fun _ => alters_pure _) hc h

theorem execCvte_alters {g r x} (hb : b.plain = true) (h : execCvte g r x d a b s = .next t) : Alters [d, b] 0 s t :=
  issueStrand_alters (alters_bind (alters_readReg ha) fun _ => alters_get_bind fun _ => alters_bind (alters_normalise _) fun _ =>
    alters_bind (alters_raise _) fun _ => alters_bind (alters_writeReg hd (by simp) _) fun _ =>
    alters_bind (alters_writeReg hb (by simp) _) fun _ => alters_pure _) hc h

end

/-- Settles O13: on plain operands a float instruction runs to its end, each step of it within `Alters`. -/
theorem floatInstructionsLeaveTheRest : Obligations.FloatInstructionsLeaveTheRest := by
  unfold Obligations.FloatInstructionsLeaveTheRest
  intro i l ds s t hi hl hds hc h
  suffices hall : Alters ds 0 s t from
    ⟨hall.curOnly, hall.ctx, hall.pred0 rfl, hall.tmode, hall.gpr, hall.cores, fun a => by rw [hall.mem]⟩
  cases i <;> simp only [Instr.floats, reduceCtorEq, Option.some.injEq, Prod.mk.injEq] at hi <;>
    obtain ⟨rfl, rfl⟩ := hi
  case fadd | fsub | fmul | fmin | fmax | fcpys =>
    exact issueStrand_alters (alters_fop2 (hds _ (by simp)) (by simp) (hl _ (by simp)) (hl _ (by simp)) _ _) hc h
  case fabs | fneg | fclass => exact issueStrand_alters (alters_fop1 (hds _ (by simp)) (by simp) (hl _ (by simp)) _ _) hc h
  case rcp | rsq | sqrt | log2 | exp2 | sin | cos | tanh | sigm =>
    exact issueStrand_alters (alters_sfuOp (hds _ (by simp)) (by simp) (hl _ (by simp)) _) hc h
  case fma => exact execFma_alters (hds _ (by simp)) (hl _ (by simp)) hc (hl _ (by simp)) h
  case cvt => exact execCvt_alters (hds _ (by simp)) (hl _ (by simp)) hc h
  case cvte => exact execCvte_alters (hds _ (by simp)) (hl _ (by simp)) hc (hds _ (by simp)) h

/-! ### Instructions that write a predicate -/

section
variable {s t : State} {a b : Reg} {p : Fin 16} {g : Guard} {c : Combine}

theorem execCmp_alters {n w} (ha : a.plain = true) (hb : b.plain = true) (h : execCmp g c n w p a b s = .next t) :
    Alters [] p s t :=
  issue_alters (alters_bind (alters_readReg ha) fun _ => alters_bind (alters_readReg hb) fun _ =>
    alters_bind (alters_setPred c _) fun _ => alters_pure _) h

theorem execCmpi_alters {n w i} (ha : a.plain = true) (h : execCmpi g c n w p a i s = .next t) : Alters [] p s t :=
  issue_alters (alters_bind (alters_readReg ha) fun _ => alters_bind (alters_setPred c _) fun _ => alters_pure _) h

theorem execFcmp_alters {n ty} (ha : a.plain = true) (hb : b.plain = true) (hc : s.isCtrl = false)
    (h : execFcmp g c n ty p a b s = .next t) : Alters [] p s t :=
  issueStrand_alters (alters_bind (alters_readReg ha) fun _ => alters_bind (alters_readReg hb) fun _ =>
    alters_get_bind fun _ => alters_bind (alters_normalise _) fun _ => alters_bind (alters_raise _) fun _ =>
    alters_bind (alters_setPred c _) fun _ => alters_pure _) hc h

theorem alters_getPred {ds : List Reg} (q : Fin 16) : Ends (Alters ds p) (getPred q) :=
  alters_get_bind fun _ => alters_pure _

theorem alters_predOp {ds : List Reg} (f : Bool → Bool → Bool) (q r : Fin 16) : Ends (Alters ds p) (predOp f p q r) :=
  alters_bind (alters_getPred q) fun _ => alters_bind (alters_getPred r) fun _ => alters_bind (alters_setPred _ _) fun _ =>
    alters_pure _

theorem execPnot_alters {q} (h : execPnot g p q s = .next t) : Alters [] p s t := issue_alters (alters_predOp _ _ _) h

end

/-- Settles O14: each of these instructions on plain operands runs to its end, each step of it within `Alters` with no register. -/
theorem predicateInstructionsLeaveTheRest : Obligations.PredicateInstructionsLeaveTheRest := by
  unfold Obligations.PredicateInstructionsLeaveTheRest
  intro i l p s t hi hl h hctrl
  suffices hall : Alters [] p s t from
    ⟨hall.curOnly, Vector.ext fun n hn => hall.gpr ⟨n, hn⟩ (by simp), hall.pred, hall.pred0, fun a => by rw [hall.mem]⟩
  cases i <;> simp only [Instr.predicates, reduceCtorEq, Option.some.injEq, Prod.mk.injEq] at hi <;>
    obtain ⟨rfl, rfl⟩ := hi
  case cmp => exact execCmp_alters (hl _ (by simp)) (hl _ (by simp)) h
  case cmpi => exact execCmpi_alters (hl _ (by simp)) h
  case fcmp =>
    have hc : s.isCtrl = false := by
      cases hc : s.isCtrl with
      | false => rfl
      | true => exact absurd rfl (hctrl hc _ _ _ _ _ _ _)
    exact execFcmp_alters (hl _ (by simp)) (hl _ (by simp)) hc h
  case pand | por | pxor => exact issue_alters (alters_predOp _ _ _) h
  case pnot => exact execPnot_alters h

end Sys2Proof.Machine

/-! O15, O10, O24. Suppressed instructions; the identity word; stores to memory that is not canonical. -/

namespace Sys2Proof.Machine

/-! ### Suppressed instructions -/

theorem holds_eq_predOf (g : Guard) (s : State) :
    g.holds s.cur.ctx.pred = (s.predOf ⟨g.p.val, by omega⟩ ^^ g.neg) := by
  unfold Guard.holds State.predOf
  rw [BitVec.getLsbD_or]
  obtain ⟨neg, p⟩ := g
  congr 1
  revert p
  have key (w : BitVec 16) : ∀ p : Fin 8, (w.getLsbD p.val || (1 : BitVec 16).getLsbD p.val)
      = ((⟨p.val, by omega⟩ : Fin 16) == 0 || w.getLsbD p.val) := by
    intro p
    fin_cases p <;> simp
  exact key _

section
variable {g : Guard} {s : State} (hg : g.holds s.cur.ctx.pred = false)
include hg

theorem issue_suppressed (body : M (Option Word)) : issue g body s = .next (s.openChunk.retire none) := by
  obtain ⟨-, e⟩ | ⟨_, _, h, -, -⟩ | ⟨_, h, -, -⟩ := issue_cases g body s
  · exact e
  · simp [hg] at h
  · simp [hg] at h

theorem issueStrand_suppressed (hc : s.isCtrl = false) (body : M (Option Word)) :
    issueStrand g body s = .next (s.openChunk.retire none) := by
  rw [issueStrand, hc, if_neg Bool.false_ne_true, issue_suppressed hg]

theorem svuCross_suppressed (hc : s.isCtrl = false) (hgang : s.cur.ctx.gang = false) (body : M (Option Word)) :
    svuCross g body s = .next (s.openChunk.retire none) := by
  simp [svuCross, hc, hgang, issue_suppressed hg]

theorem execVimaxs_suppressed (hc : s.isCtrl = false) (hgang : s.cur.ctx.gang = false) (t d a) :
    execVimaxs g t d a s = .next (s.openChunk.retire none) := by
  simp [execVimaxs, hgang, issueStrand_suppressed hg hc]

theorem execHalt_suppressed (hc : s.isCtrl = false) : execHalt g s = .next (s.openChunk.retire none) := by
  simp [execHalt, hc, issue_suppressed hg]

end

/-- Settles O15: every arm issues under its guard, through `issue`, `issueStrand` or `svuCross`. -/
theorem suppressedInstructionsOnlyCount : Obligations.SuppressedInstructionsOnlyCount := by
  unfold Obligations.SuppressedInstructionsOnlyCount
  intro i g s hc hi hp hx
  have hg : g.holds s.cur.ctx.pred = false := by rw [holds_eq_predOf, hp]
  refine ⟨?_, (computes_openChunk s).trans (computes_retire _ none)⟩
  cases i <;> cases hi
  case add | sub | and | or | xor | andn | orn | sll | srl | sra | rol | ror | min | max | minn | maxn | mul | mulh | mulhn
      | clz | ctz | popc | brev | bswap | sext | zext | addi | andi | ori | xori | shiSll | shiSrl | shiSra | shiRol | shiRor
      | li | lis | cmp | cmpi | pget | pset | sel | tern | bfx | bfxs | bfi | div | divn | rem
      | remn | br | bl | jmp | jmpl | ldn | lds | st | lcset | lcget => exact issue_suppressed hg _
  case pand | por | pxor => exact issue_suppressed hg (predOp _ _ _ _)
  case pnot p q => exact (issue_suppressed hg _ : execPnot g p q s = _)
  case vredadd | vredmax | vscan | vperm | vpermScalar | vbcast | vbcastScalar => exact svuCross_suppressed hg hc (hx rfl) _
  case vimaxs => exact execVimaxs_suppressed hg hc (hx rfl) ..
  case halt => exact execHalt_suppressed hg hc
  all_goals exact issueStrand_suppressed hg hc _

/-! ### The identity word -/

/-- Settles O10: the fields stand side by side in one number below 2^64. -/
theorem identityWordFields : Obligations.IdentityWordFields := by
  unfold Obligations.IdentityWordFields
  intro s hcore hslot hbcore hlane hgsz
  have hblock := s.cur.ctx.block.isLt
  have hlaunch := s.cur.ctx.launch.isLt
  unfold State.idWord wordN
  simp only [BitVec.toNat_ofNat, bitsOf, Nat.mod_eq_of_lt hcore, Nat.mod_eq_of_lt hslot, Nat.mod_eq_of_lt hbcore,
    Nat.mod_eq_of_lt hlane, Nat.mod_eq_of_lt hgsz]
  norm_num
  omega

/-! ### Stores -/

/-- A machine whose memory lists one address twice, which no run makes (O60). -/
def doubledState : State := { State.reset with mem := [(3, 1), (3, 1)] }

/-- Refutes O24: the statement takes memory in any form, canonical or not. Where an address stands twice in it, the byte 0 stored
there takes away its first entry alone, and the second is read. -/
theorem not_storesChangeOnlyTheirBytes : ¬ Obligations.StoresChangeOnlyTheirBytes := by
  unfold Obligations.StoresChangeOnlyTheirBytes
  intro h
  obtain ⟨-, hstrand, -⟩ := h { va := 3, size := 1, need := 2, way := .pred, op := .load 1 } 3 [0] false doubledState
  obtain ⟨-, hread, -⟩ := hstrand rfl
  exact absurd (hread 0 (by decide)) (by decide)

end Sys2Proof.Machine

/-! SUPPORT, O4, O8. The divider, the special-function unit and the normaliser. -/

namespace Sys2Proof.Machine

/-! ### Retiring, field by field -/

@[simp] theorem State.coreAt_retire (s : State) (t : Option Word) (c : Nat) : (s.retire t).coreAt c = s.coreAt c := by
  rw [State.coreAt, State.coreAt, (s.retire_curOnly t).cores]
@[simp] theorem State.wait_retire (s : State) (t : Option Word) : (s.retire t).cur.wait = s.cur.wait := by
  cases h : s.isCtrl with
  | true => rw [s.retire_ctrl t h, State.cur_modCtx]
  | false => rw [s.cur_retire t h, Slot.settleRelease_wait]; rfl

@[simp] theorem Slot.wait_opened (x : Slot) (b : Bool) : (x.opened b).wait = none := by
  unfold Slot.opened; split <;> rfl
@[simp] theorem State.coreAt_openChunk (s : State) (c : Nat) : s.openChunk.coreAt c = s.coreAt c := rfl

/-! ### Operations in a shared unit -/

theorem isCtrl_handed (s : State) (u : SharedUnit) (o : UnitOp) : (s.handed u o).isCtrl = s.isCtrl := rfl

theorem State.wait_handed (s : State) (u : SharedUnit) (o : UnitOp) : (s.handed u o).cur.wait =
    some (match s.cur.wait with
      | some w => w
      | none => match u with | .divider => .divider | .sfu => .sfu) := by
  cases u <;> exact congrArg Slot.wait (State.cur_modCur ..)

theorem State.divQ_handed (s : State) (o : UnitOp) :
    ((s.handed .divider o).coreAt s.core).divQ = (s.coreAt s.core).divQ ++ [o] := by
  rw [State.handed, State.coreAt_modCur, State.coreAt_modCore]
theorem State.sfuQ_handed (s : State) (o : UnitOp) :
    ((s.handed .sfu o).coreAt s.core).sfuQ = (s.coreAt s.core).sfuQ ++ [o] := by
  rw [State.handed, State.coreAt_modCur, State.coreAt_modCore]

/-- An operand's read or write after the chunk is opened leaves the slot waiting for nothing, and the divider's queue as it was. -/
theorem inUnit_divider {s u : State} (h : Operand s.openChunk u) (o : UnitOp) :
    InUnit s ((u.handed .divider o).retire none) .divider CoreSt.divQ o where
  waits := by
    rw [State.wait_retire, State.wait_handed, h.wait, State.cur_openChunk, Slot.wait_opened]
  queued := by
    have hcore : u.core = s.core := by rw [h.core, State.openChunk_core]
    rw [State.coreAt_retire, ← hcore, State.divQ_handed, h.divQ, State.coreAt_openChunk]

/-! ### Division -/

section
variable {i : Instr} {g : Guard} {d a b : Reg} {f : Word → Word → Word}

theorem divOp_run {s s1 s2 s3 : State} {x y : Word} (ha : Reads a s x s1) (hb : Reads b s1 y s2)
    (hu : (toUnit .divider d (f x y) 0).run s2 = .ok ((), s3)) : (divOp f d a b).run s = .ok (none, s3) := by
  unfold divOp
  rw [M.run_bind_ok ha, M.run_bind_ok hb, M.run_bind_ok hu, M.run_pure]

theorem divides_of_divOp (hi : ∀ s, exec i s = issue g (divOp f d a b) s) : Divides i g d a b f := by
  intro s x y s1 s2 s3 hg ha hb
  have hop : Operand s.openChunk s2 := ha.operand.trans hb.operand
  have hslot : s2.slot = s.slot := by rw [hop.slot, State.openChunk_slot]
  have hctrl : s2.isCtrl = s.isCtrl := by rw [hop.isCtrl, State.openChunk_isCtrl]
  refine ⟨fun hc hd => ?_, fun hc hd hw => ?_, fun hc hw => ?_⟩ <;> rw [hi]
  · refine ⟨_, issue_ok hg (divOp_run ha hb (toUnit_run_reg (by rw [hctrl, hc]) hd)), ?_⟩
    rw [hslot]
    exact inUnit_divider hop _
  · refine ⟨_, issue_ok hg (divOp_run ha hb (toUnit_run_other (by rw [hctrl, hc]) hd hw)), ?_⟩
    rw [hslot]
    exact inUnit_divider (hop.trans hw.operand) _
  · exact issue_ok hg (divOp_run ha hb (toUnit_run_ctrl (by rw [hctrl, hc]) hw))

end

/-! An operand at its width, as a bit vector: what `uns`, `sgn` and `res` say of it. -/

def lowPart (w : Bool) (x : Word) : BitVec (opWidth w) := x.setWidth (opWidth w)

theorem atWidth2_eq (w : Bool) (f : (n : Nat) → BitVec n → BitVec n → BitVec n) (x y : Word) :
    atWidth2 w f x y = (f (opWidth w) (lowPart w x) (lowPart w y)).signExtend 64 := by
  cases w <;> simp [atWidth2, opWidth, lowPart]

theorem uns_eq (w : Bool) (x : Word) : uns w x = (lowPart w x).toNat := by simp [uns, lowPart]

theorem opWidth_pos (w : Bool) : 0 < opWidth w := by cases w <;> decide

theorem signedOf_toNat {n : Nat} (hn : 0 < n) (v : Nat) : signedOf n v = (BitVec.ofNat n v).toInt := by
  obtain ⟨k, rfl⟩ := Nat.exists_eq_succ_of_ne_zero hn.ne'
  have hhalf (m : Nat) : m < 2 ^ (k + 1 - 1) ↔ 2 * m < 2 ^ (k + 1) := by rw [Nat.add_sub_cancel, pow_succ]; omega
  rw [signedOf, BitVec.toInt_eq_toNat_cond, BitVec.toNat_ofNat]
  simp only [Nat.succ_eq_add_one, hhalf, Nat.cast_pow, Nat.cast_ofNat]

theorem sextN_eq {n : Nat} (v : Nat) : sextN n v = (BitVec.ofNat n v).signExtend 64 := by
  rw [sextN, wordI, BitVec.signExtend, sextN.signed, BitVec.toInt_eq_toNat_cond, BitVec.toNat_ofNat]
  congr 1

theorem sgn_eq (w : Bool) (x : Word) : sgn w x = (lowPart w x).toInt := by
  rw [sgn, signedOf_toNat (opWidth_pos w), lowPart]
  congr 1
  exact BitVec.eq_of_toNat_eq (by simp)

theorem res_eq (w : Bool) (v : Nat) : res w v = (BitVec.ofNat (opWidth w) v).signExtend 64 := sextN_eq v

theorem resI_eq (w : Bool) (v : Int) : resI w v = (BitVec.ofInt (opWidth w) v).signExtend 64 := by
  rw [resI, res_eq]
  congr 1
  apply BitVec.eq_of_toNat_eq
  have hlt : (v % (2 : Int) ^ opWidth w).toNat < 2 ^ opWidth w := by
    have := Int.emod_lt_of_pos v (show (0 : Int) < 2 ^ opWidth w by positivity)
    have := Int.emod_nonneg v (show (2 : Int) ^ opWidth w ≠ 0 by positivity)
    zify
    omega
  simpa [BitVec.toNat_ofInt] using Nat.mod_eq_of_lt hlt

theorem signExtend_allOnes (w : Bool) : (BitVec.allOnes (opWidth w)).signExtend 64 = BitVec.allOnes 64 := by
  cases w <;> decide

theorem wordI_toInt {n : Nat} (x : BitVec n) : wordI x.toInt = x.signExtend 64 := rfl

theorem toInt_eq_zero_iff {n : Nat} (x : BitVec n) : x.toInt = 0 ↔ x = 0 := by
  rw [← BitVec.toInt_inj]; simp

theorem toNat_eq_zero_iff {n : Nat} (x : BitVec n) : x.toNat = 0 ↔ x = 0 := by
  rw [← BitVec.toNat_inj]; simp

theorem atWidth2_divS (w : Bool) : atWidth2 w divS =
    fun x y => if sgn w y = 0 then BitVec.allOnes 64 else resI w ((sgn w x).tdiv (sgn w y)) := by
  funext x y
  rw [atWidth2_eq, divS, sgn_eq, sgn_eq, resI_eq]
  simp only [toInt_eq_zero_iff]
  split
  · exact signExtend_allOnes w
  · rfl

theorem atWidth2_divU (w : Bool) : atWidth2 w divU =
    fun x y => if uns w y = 0 then BitVec.allOnes 64 else res w (uns w x / uns w y) := by
  funext x y
  rw [atWidth2_eq, divU, uns_eq, uns_eq, res_eq]
  simp only [toNat_eq_zero_iff]
  split
  · exact signExtend_allOnes w
  · rfl

/-- The remainder of R128 is that of truncated division. -/
theorem remS_eq {n : Nat} (x y : BitVec n) (h : y ≠ 0) : remS n x y = x.srem y := by
  rw [remS, if_neg h, ← BitVec.ofInt_toInt (x := x.srem y), BitVec.toInt_srem, Int.tmod_def, Int.mul_comm]

theorem atWidth2_remS (w : Bool) : atWidth2 w remS =
    fun x y => if sgn w y = 0 then res w (uns w x) else wordI ((sgn w x).tmod (sgn w y)) := by
  funext x y
  rw [atWidth2_eq, sgn_eq, sgn_eq, uns_eq, res_eq]
  simp only [toInt_eq_zero_iff, ← BitVec.toInt_srem, wordI_toInt, BitVec.ofNat_toNat, BitVec.setWidth_eq]
  split
  case isTrue h => rw [remS, if_pos h]
  case isFalse h => rw [remS_eq _ _ h]

theorem atWidth2_remU (w : Bool) : atWidth2 w remU =
    fun x y => if uns w y = 0 then res w (uns w x) else res w (uns w x % uns w y) := by
  funext x y
  rw [atWidth2_eq, remU, uns_eq, uns_eq, res_eq, res_eq]
  simp only [toNat_eq_zero_iff, BitVec.ofNat_toNat, BitVec.setWidth_eq]
  split <;> rfl

/-! ### Completion -/

/-- A unit's finished operation stands in its slot, and no other slot has changed. -/
theorem UnitOp.slotAt_finish (o : UnitOp) (c : Nat) (s : State) : (o.finish c s).slotAt c o.slot = (s.slotAt c o.slot).finished o :=
  State.slotAt_setSlot ..
theorem UnitOp.slotAt_finish_other (o : UnitOp) (s : State) {c e k : Nat} (h : 16 * e + k ≠ 16 * c + o.slot) :
    (o.finish c s).slotAt e k = s.slotAt e k := State.slotAt_setSlot_other s _ h
theorem UnitOp.coreAt_finish (o : UnitOp) (c : Nat) (s : State) (d : Nat) : (o.finish c s).coreAt d = s.coreAt d := rfl

/-- Settles O4: `divOp` at either width computes the quotients and remainders of R128, and the divider's queue is served from its head. -/
theorem divisionResults : Obligations.DivisionResults := by
  unfold Obligations.DivisionResults
  refine ⟨fun g w d a b => ⟨?_, ?_, ?_, ?_⟩, fun c s o l h => ?_⟩
  · exact atWidth2_divS w ▸ divides_of_divOp fun _ => rfl
  · exact atWidth2_divU w ▸ divides_of_divOp fun _ => rfl
  · exact atWidth2_remS w ▸ divides_of_divOp fun _ => rfl
  · exact atWidth2_remU w ▸ divides_of_divOp fun _ => rfl
  · have hexec : exec (.divideComplete c) s = .next (o.finish c (s.modCore c fun k => { k with divQ := l })) := by
      change execDivideComplete c s = _
      rw [execDivideComplete, h]
    refine ⟨_, hexec, ?_, UnitOp.slotAt_finish .., fun e k hk => UnitOp.slotAt_finish_other o _ hk⟩
    rw [UnitOp.coreAt_finish, State.coreAt_modCore]

/-! ### The normaliser -/

theorem normalise_run (n : Nat) (s : State) : (normalise n).run s = .ok ((), s.normalised n) := by
  unfold normalise State.normalised
  by_cases h : n = 0 <;> simp only [h, ne_eq, not_true_eq_false, not_false_eq_true, if_true, if_false] <;> rfl

theorem raise_run (f : NFlags) (s : State) : (raise f).run s = .ok ((), s.raised f) := rfl

theorem State.normalised_core (s : State) (n : Nat) : (s.normalised n).core = s.core := by
  unfold State.normalised; split <;> rfl
theorem State.normalised_slot (s : State) (n : Nat) : (s.normalised n).slot = s.slot := by
  unfold State.normalised; split <;> rfl
theorem State.normalised_isCtrl (s : State) (n : Nat) : (s.normalised n).isCtrl = s.isCtrl := by
  rw [State.isCtrl, State.isCtrl, State.normalised_core]
theorem State.sfuQ_normalised (s : State) (n c : Nat) : ((s.normalised n).coreAt c).sfuQ = (s.coreAt c).sfuQ := by
  unfold State.normalised
  split
  · rfl
  · rw [State.coreAt_modCur]
    by_cases h : c = s.core
    · subst h; rw [State.coreAt_modCore]
    · rw [State.coreAt_modCore_other s _ h]
theorem State.wait_normalised (s : State) (n : Nat) :
    (s.normalised n).cur.wait = if n = 0 then s.cur.wait else some (.normaliser n) := by
  unfold State.normalised
  split
  · rfl
  · rw [State.cur_modCur]

theorem subnormals_singleton (F : FFmt) (z : Bool) (v : Nat) : subnormals F z [v] = 0 ∨ subnormals F z [v] = 1 := by
  unfold subnormals
  cases z
  · cases h : F.isSub v <;> simp [h]
  · exact .inl rfl

/-! ### Special functions -/

theorem ctx_ftz (x : Ctx) : x.ftz = x.tmode.getLsbD 0 := rfl

section
variable {g : Guard} {d a : Reg} {f : SFn}

theorem sfuOp_run {s s1 s3 : State} {x : Word} (ha : Reads a s x s1)
    (hu : (toUnit .sfu d (wordN (special f fmtF32 s1.cur.ctx.ftz (lowBits fmtF32 x)).1)
      (special f fmtF32 s1.cur.ctx.ftz (lowBits fmtF32 x)).2).run
        (s1.normalised (subnormals fmtF32 s1.cur.ctx.ftz [lowBits fmtF32 x])) = .ok ((), s3)) :
    (sfuOp f d a).run s = .ok (none, s3) := by
  unfold sfuOp
  rw [M.run_bind_ok ha, M.run_bind_ok (M.run_get s1), M.run_bind_ok (normalise_run _ s1), M.run_bind_ok hu, M.run_pure]

theorem inUnit_sfu {s s1 u : State} {n : Nat} (h : Operand s.openChunk s1) (hu : Operand (s1.normalised n) u)
    (hn : n = 0 ∨ n = 1) (o : UnitOp) :
    InUnit s ((u.handed .sfu o).retire none) (if n = 0 then .sfu else .normaliser 1) CoreSt.sfuQ o where
  waits := by
    rw [State.wait_retire, State.wait_handed, hu.wait, State.wait_normalised, h.wait, State.cur_openChunk, Slot.wait_opened]
    obtain rfl | rfl := hn <;> rfl
  queued := by
    have hcore : u.core = s.core := by rw [hu.core, State.normalised_core, h.core, State.openChunk_core]
    rw [State.coreAt_retire, ← hcore, State.sfuQ_handed, hu.sfuQ, State.sfuQ_normalised, h.sfuQ, State.coreAt_openChunk]

theorem specialOf_sfuOp {i : Instr} (hi : ∀ s, exec i s = issueStrand g (sfuOp f d a) s) : SpecialOf i g d a f := by
  rintro s x s1 s2 v n ⟨hc, hg⟩ ha rfl rfl
  have hop := ha.operand
  have hz : s1.cur.ctx.ftz = s.cur.ctx.tmode.getLsbD 0 := by
    rw [ctx_ftz, hop.tmode, State.cur_openChunk, Slot.ctx_opened]
  have hctrl (m : Nat) : (s1.normalised m).isCtrl = false := by
    rw [State.normalised_isCtrl, hop.isCtrl, State.openChunk_isCtrl, hc]
  have hslot (m : Nat) : (s1.normalised m).slot = s.slot := by
    rw [State.normalised_slot, hop.slot, State.openChunk_slot]
  refine ⟨fun hd => ?_, fun hd hw => ?_⟩ <;> rw [hi, ← hz]
  · refine ⟨_, issueStrand_ok hc hg (sfuOp_run ha (toUnit_run_reg (hctrl _) hd)), ?_⟩
    rw [hslot]
    exact inUnit_sfu hop (.refl _) (subnormals_singleton ..) _
  · rw [← hz] at hw
    refine ⟨_, issueStrand_ok hc hg (sfuOp_run ha (toUnit_run_other (hctrl _) hd hw)), ?_⟩
    rw [hslot]
    exact inUnit_sfu hop hw.operand (subnormals_singleton ..) _

end

/-! ### Service and completion -/

section
variable {s : State} {c k n : Nat} {l : List Nat}

theorem execSfuComplete_of_served {o : UnitOp} {r : List UnitOp} (h : (s.coreAt c).sfuQ = o :: r)
    (hn : o.slot ∉ (s.coreAt c).normQ) :
    execSfuComplete c s = .next (o.finish c (s.modCore c fun q => { q with sfuQ := r })) := by
  unfold execSfuComplete
  simp [h, hn]

theorem execNormaliserService_vector (h : (s.coreAt c).normQ = (16 + k) :: l) :
    execNormaliserService c s =
      .next ((s.modCore c fun q => { q with normQ := l }).modSlot c k fun x => { x with vnorm := x.vnorm - 1 }) := by
  unfold execNormaliserService
  simp [h]

theorem execNormaliserService_more (hk : k < 16) (h : (s.coreAt c).normQ = k :: l)
    (hw : (s.slotAt c k).wait = some (.normaliser (n + 2))) :
    execNormaliserService c s = .next (s.modSlot c k fun x => { x with wait := some (.normaliser (n + 1)) }) := by
  unfold execNormaliserService
  simp [h, hw, hk]

theorem execNormaliserService_last (hk : k < 16) (h : (s.coreAt c).normQ = k :: l)
    (hw : (s.slotAt c k).wait = some (.normaliser n)) (hn : n ≤ 1) :
    execNormaliserService c s = .next ((s.modCore c fun q => { q with normQ := l }).modSlot c k fun x =>
      { x with wait := if (s.coreAt c).sfuQ.any (fun o => o.slot == k) then some .sfu else none }) := by
  unfold execNormaliserService
  obtain rfl | rfl : n = 0 ∨ n = 1 := by omega
  all_goals simp [h, hw, hk]

end

/-- Settles O8: `sfuOp` with the normaliser's service before the unit's; each unit serves the head of its queue. -/
theorem specialFunctionResults : Obligations.SpecialFunctionResults := by
  unfold Obligations.SpecialFunctionResults
  refine ⟨fun g d a => ?_, fun c s o l h hn => ?_, fun c k s l n hk => ⟨fun h hw => ?_, fun h => ?_⟩⟩
  · exact ⟨specialOf_sfuOp fun _ => rfl, specialOf_sfuOp fun _ => rfl, specialOf_sfuOp fun _ => rfl,
      specialOf_sfuOp fun _ => rfl, specialOf_sfuOp fun _ => rfl, specialOf_sfuOp fun _ => rfl,
      specialOf_sfuOp fun _ => rfl, specialOf_sfuOp fun _ => rfl, specialOf_sfuOp fun _ => rfl⟩
  · refine ⟨_, execSfuComplete_of_served h hn, ?_, UnitOp.slotAt_finish ..⟩
    rw [UnitOp.coreAt_finish, State.coreAt_modCore]
  · by_cases hn : n ≤ 1
    · refine ⟨_, execNormaliserService_last hk h hw hn, fun h1 => absurd hn (by omega), fun _ => ⟨?_, State.slotAt_setSlot ..⟩⟩
      rw [State.modSlot, State.coreAt_setSlot, State.coreAt_modCore]
    · obtain ⟨m, rfl⟩ : ∃ m, n = m + 2 := ⟨n - 2, by omega⟩
      exact ⟨_, execNormaliserService_more hk h hw, fun _ => ⟨rfl, State.slotAt_setSlot ..⟩, fun h1 => absurd h1 hn⟩
  · refine ⟨_, execNormaliserService_vector h, ?_, State.slotAt_setSlot ..⟩
    rw [State.modSlot, State.coreAt_setSlot, State.coreAt_modCore]

end Sys2Proof.Machine

/-! O6. Float functions. -/

namespace Sys2Proof.Machine

section
variable {g : Guard} {F : FFmt} {r : Rnd} {d a b : Reg} {i : Instr}

theorem Reads.tmode_openChunk {s s1 : State} {a : Reg} {x : Word} (h : Reads a s.openChunk x s1) :
    s1.cur.ctx.tmode = s.cur.ctx.tmode := by
  rw [h.operand.tmode, State.cur_openChunk, Slot.ctx_opened]

theorem lowBits_lt (F : FFmt) (x : Word) : x.toNat % 2 ^ F.width < 2 ^ F.width := Nat.mod_lt _ (by positivity)

/-- A float function of two operands, at the mode and FTZ of TMODE at its issue. -/
theorem floatBinary_of_fop2 {f : RMode → Bool → Nat → Nat → Nat × NFlags} {f' : State → Bool → Nat → Nat → Nat × NFlags}
    (hi : ∀ s, exec i s = issueStrand g (fop2 F (f' s) d a b) s)
    (hf : ∀ s z x y, y < 2 ^ F.width → f' s z x y = f (r.resolve s.cur.ctx.tmode) z x y) :
    FloatBinary i g F r d a b f := by
  rintro s x y s1 s2 s3 v ⟨hc, hg⟩ ha hb rfl hw
  have hz : s2.cur.ctx.ftz = s.cur.ctx.tmode.getLsbD 0 := by rw [ctx_ftz, hb.operand.tmode, ha.tmode_openChunk]
  rw [hi]
  refine issueStrand_ok hc hg ?_
  unfold fop2
  rw [M.run_bind_ok ha, M.run_bind_ok hb, M.run_bind_ok (M.run_get s2)]
  simp only [hz, lowBits, hf _ _ _ _ (lowBits_lt F y)]
  rw [M.run_bind_ok (normalise_run _ s2), M.run_bind_ok (raise_run _ _), M.run_bind_ok hw, M.run_pure]

theorem floatUnary_of_fop1 {f : Bool → Nat → Nat × NFlags} (hi : ∀ s, exec i s = issueStrand g (fop1 F f d a) s) :
    FloatUnary i g F d a f := by
  rintro s x s1 s2 v ⟨hc, hg⟩ ha rfl hw
  have hz : s1.cur.ctx.ftz = s.cur.ctx.tmode.getLsbD 0 := by rw [ctx_ftz, ha.tmode_openChunk]
  rw [hi]
  refine issueStrand_ok hc hg ?_
  unfold fop1
  rw [M.run_bind_ok ha, M.run_bind_ok (M.run_get s1)]
  simp only [hz, lowBits]
  rw [M.run_bind_ok (normalise_run _ s1), M.run_bind_ok (raise_run _ _), M.run_bind_ok hw, M.run_pure]

theorem execFma_of_reads {t : FType} {s s1 s2 s3 s4 : State} {x y z : Word} {v : Nat × NFlags} (hs : Strand g s)
    (ha : Reads a s.openChunk x s1) (hb : Reads b s1 y s2) (hd : Reads d s2 z s3)
    (hv : v = t.fmt.fma (r.resolve s.cur.ctx.tmode) (s.cur.ctx.tmode.getLsbD 0) (x.toNat % 2 ^ t.fmt.width)
      (y.toNat % 2 ^ t.fmt.width) (z.toNat % 2 ^ t.fmt.width))
    (hw : Writes d (wordN v.1) ((s3.normalised (subnormals t.fmt (s.cur.ctx.tmode.getLsbD 0)
      [x.toNat % 2 ^ t.fmt.width, y.toNat % 2 ^ t.fmt.width, z.toNat % 2 ^ t.fmt.width])).raised v.2) s4) :
    execFma g r t d a b s = .next (s4.retire none) := by
  subst hv
  have ht : s3.cur.ctx.tmode = s.cur.ctx.tmode := by rw [hd.operand.tmode, hb.operand.tmode, ha.tmode_openChunk]
  refine issueStrand_ok hs.strand hs.guard ?_
  rw [M.run_bind_ok ha, M.run_bind_ok hb, M.run_bind_ok hd, M.run_bind_ok (M.run_get s3)]
  simp only [ctx_ftz, Ctx.mode, ht, lowBits]
  rw [M.run_bind_ok (normalise_run _ s3), M.run_bind_ok (raise_run _ _), M.run_bind_ok hw, M.run_pure]

end

/-- The sign bit of a code of the format's width, as a bit and as a bound. -/
theorem signBit_le_iff (F : FFmt) {y : Nat} (h : y < 2 ^ F.width) :
    decide (F.signBit ≤ y) = y.testBit (F.width - 1) := by
  have hw : F.width = F.ebits + F.fbits + 1 := by rw [FFmt.width]; omega
  have hlt : y / 2 ^ (F.ebits + F.fbits) < 2 := by
    rw [Nat.div_lt_iff_lt_mul (by positivity), ← pow_succ', ← hw]; exact h
  rw [hw, Nat.add_sub_cancel, Nat.testBit_eq_decide_div_mod_eq, Nat.mod_eq_of_lt hlt, decide_eq_decide, FFmt.signBit]
  have := Nat.le_div_iff_mul_le (k := 2 ^ (F.ebits + F.fbits)) (x := 1) (y := y) (by positivity)
  omega

/-- Settles O6: the instructions run `fop2`, `fop1` and the steps of FMA; R81's NaN is the first case of each operation. -/
theorem floatFunctionResults : Obligations.FloatFunctionResults := by
  unfold Obligations.FloatFunctionResults
  refine ⟨fun g r t d a b => ⟨?_, ?_, ?_, ?_, ?_, ?_, ?_, ?_, ?_, ?_⟩, fun t m z a b c h => ?_⟩
  · exact floatBinary_of_fop2 (f' := fun s => t.fmt.add (s.mode r)) (fun _ => rfl) fun _ _ _ _ _ => rfl
  · exact floatBinary_of_fop2 (f' := fun s => t.fmt.sub (s.mode r)) (fun _ => rfl) fun _ _ _ _ _ => rfl
  · exact floatBinary_of_fop2 (f' := fun s => t.fmt.mul (s.mode r)) (fun _ => rfl) fun _ _ _ _ _ => rfl
  · exact floatBinary_of_fop2 (f' := fun _ => t.fmt.minmax false) (fun _ => rfl) fun _ _ _ _ _ => rfl
  · exact floatBinary_of_fop2 (f' := fun _ => t.fmt.minmax true) (fun _ => rfl) fun _ _ _ _ _ => rfl
  · exact floatBinary_of_fop2 (f' := fun _ z x y => t.fmt.setSign z x fun _ => decide (t.fmt.signBit ≤ y)) (fun _ => rfl)
      fun _ _ _ _ hy => by rw [signBit_le_iff t.fmt hy]
  · exact floatUnary_of_fop1 fun _ => rfl
  · exact floatUnary_of_fop1 fun _ => rfl
  · exact floatUnary_of_fop1 fun _ => rfl
  · exact fun s x y z s1 s2 s3 s4 v hs ha hb hd hv hw => execFma_of_reads hs ha hb hd hv hw
  · have hnan : ((t.fmt.read z a).isNan || (t.fmt.read z b).isNan) = true := by simpa using h
    simp [FFmt.add, FFmt.sub, FFmt.mul, FFmt.fma, hnan]

end Sys2Proof.Machine

/-! SUPPORT, O5. Traps of a fresh chunk, and transfers of control. -/

namespace Sys2Proof.Machine

/-! ### What issuing and operands leave of a transfer's conditions -/

@[simp] theorem Slot.nextPc_opened (x : Slot) (b : Bool) : (x.opened b).nextPc = x.nextPc := by
  unfold Slot.opened; split <;> rfl
@[simp] theorem Slot.kept_opened (x : Slot) (b : Bool) : (x.opened b).kept = x.kept := by
  unfold Slot.opened; split <;> rfl
@[simp] theorem Slot.gbuf_opened (x : Slot) (b : Bool) : (x.opened b).gbuf = x.gbuf := (x.opened_keeps b).2.2.2.2.2.1

/-- What decides whether control may pass to a target, of a state that differs in slots and cores alone. -/
theorem State.Enters.congr {s t : State} {x : Word} (h : s.Enters x) (hrest : t = { s with slots := t.slots, cores := t.cores })
    (hfollows : t.cur.isFollower = s.cur.isFollower) (hbuf : t.cur.gbuf = s.cur.gbuf) : t.Enters x := by
  have hcore : t.core = s.core := by rw [hrest]
  have hctrl : t.isCtrl = s.isCtrl := by rw [State.isCtrl, State.isCtrl, hcore]
  have htc (d : Nat) : (t.tcFind d x.toNat).isSome = (s.tcFind d x.toNat).isSome := by
    rw [hrest]; unfold State.tcFind State.dieAt; dsimp only; split <;> rfl
  have hwalk : t.walk x.toNat = s.walk x.toNat := by rw [hrest]; rfl
  unfold State.Enters at h ⊢
  rwa [hctrl, hfollows, hbuf, hcore, htc, hwalk]

theorem Operand.isFollower {s t : State} (h : Operand s t) : t.cur.isFollower = s.cur.isFollower := by rw [h.cur]; rfl
theorem Operand.gbuf {s t : State} (h : Operand s t) : t.cur.gbuf = s.cur.gbuf := by rw [h.cur]

theorem State.Enters.openChunk {s : State} {x : Word} (h : s.Enters x) : s.openChunk.Enters x :=
  h.congr (by rw [State.openChunk_rest]) (by simp [Slot.isFollower]) (by simp)
theorem State.Enters.operand {s t : State} {x : Word} (h : s.Enters x) (ht : Operand s t) : t.Enters x :=
  h.congr ht.rest ht.isFollower ht.gbuf

/-! ### Transfers -/

theorem jumpTo_run {s : State} {t : Word} (h : s.Enters t) : (jumpTo t).run s = .ok (some t, s) := by
  unfold jumpTo
  rw [M.run_bind_ok (M.run_get s)]
  split
  case isTrue => rfl
  case isFalse hc =>
    obtain h | ⟨hf, hb⟩ | ⟨hodd, hspace, hwalk⟩ := h
    · simp [h] at hc
    · have hbuf : s.cur.gbuf.head?.any (·.faulted) = false := by
        cases he : s.cur.gbuf.head? with
        | none => rfl
        | some e => exact hb e he
      simp [hf, hbuf] at hc
    · have hfound : ¬((s.tcFind (dieOf s.core) t.toNat).isNone && s.walk t.toNat == .malformed) := by
        obtain h | h := hwalk
        · simp [Option.isNone_eq_false_iff.mpr h]
        · simp [h]
      rw [if_neg (by omega), if_neg (by omega), if_neg hfound]
      rfl

/-- A transfer to an odd target stops at it: of a strand that does not follow a leader. -/
theorem jumpTo_odd {s : State} {t : Word} (hc : s.isCtrl = false) (hf : s.cur.isFollower = false) (ht : t.toNat % 2 = 1) :
    (jumpTo t).run s = .error (.after fun s => s.takeTrap 2 0 t s.cur.ctx.pc) := by
  unfold jumpTo
  rw [M.run_bind_ok (M.run_get s), if_neg (by simp [hc, hf]), if_pos ht]
  rfl

theorem branchTarget_eq (pc : Word) (o : BitVec 22) : branchTarget pc o = pc + wordI (2 * o.toInt) := by
  unfold branchTarget
  congr 1
  have h2 : (2 : Word) = BitVec.ofInt 64 2 := by decide
  rw [wordI, BitVec.ofInt_mul, ← h2, BitVec.mul_comm, BitVec.shiftLeft_eq_mul_twoPow]
  rfl

/-! ### A trap at a chunk's first instruction -/

theorem State.giveKept_of_none {s : State} {c k : Nat} (h : (s.slotAt c k).kept = []) : s.giveKept c k = s := by
  unfold State.giveKept; rw [h]

theorem State.reseat_of_none {s : State} {c k : Nat} (h : ∀ p ∈ (s.coreAt c).parkStore, p.own ≠ some k) : s.reseat c k = s := by
  have hnone : (s.coreAt c).parkStore.filter (fun p => p.own == some k && !p.slot.ctx.parked) = [] := by
    rw [List.filter_eq_nil_iff]
    intro p hp
    simp [h p hp]
  unfold State.reseat
  dsimp only
  rw [hnone]
  rfl

/-- The slot of R309's entry, its chunk having ended. -/
def Slot.trapped (x : Slot) (cause info : Nat) (addr epc handler : Word) : Slot :=
  { x with
    tepc := epc &&& ~~~1, tcause := wordN (info % 65536 * 65536 + cause), taddr := addr
    ctx := { x.ctx with intrap := true, pc := handler &&& ~~~1 }
    ticket := none, replies := [], begun := false, dictWord := none }

theorem State.takeTrap_of_handler {s : State} {cause info : Nat} {addr epc : Word} (hkept : s.cur.kept = [])
    (hout : s.cur.ctx.intrap = false) (halone : s.cur.ctx.gang = false) (hh : s.tvec ≠ 0) (hf : cause ≠ 7 ∨ s.tfut = 0) :
    s.takeTrap cause info addr epc = s.setCur (s.cur.trapped cause info addr epc s.tvec) := by
  have hhandler : (if cause == 7 && s.tfut != 0 then s.tfut else s.tvec) = s.tvec := by
    rw [if_neg]
    obtain h | h := hf <;> simp [h]
  unfold State.takeTrap State.takeTrapAt
  rw [State.giveKept_of_none hkept]
  simp only [hout, halone, Bool.false_eq_true, if_false]
  rw [show (((s.launchOf s.cur.ctx).map (·.tvec)).getD 0) = s.tvec from rfl,
    show (((s.launchOf s.cur.ctx).map (·.tfut)).getD 0) = s.tfut from rfl, hhandler]
  rw [if_neg (by simpa using hh)]
  simp [State.modCur, State.modCtx, Slot.trapped, State.cur_setCur, State.setCur_setCur]

/-- The current slot of a fresh chunk once the chunk has ended before its instruction. -/
def Slot.unopened (x : Slot) (ctrl : Bool) : Slot :=
  { x.opened ctrl with chunk := Chunk.none, reserved := [], begun := true }

theorem State.settle_after_of_fresh {s : State} {f : State → State} (h : s.openChunk.cur.chunk.count = 0) :
    s.openChunk.settle (.after f) = .next ((f (s.setCur (s.cur.unopened s.isCtrl))).reseat s.core s.slot) := by
  have hclose : s.openChunk.closeBefore =
      (true, s.openChunk.setCur { s.openChunk.cur with chunk := Chunk.none, reserved := [] }) := by
    unfold State.closeBefore
    exact if_pos h
  simp only [State.settle, hclose, Bool.true_or, if_true, State.openChunk_core, State.openChunk_slot]
  congr 3
  rw [State.modCur, State.cur_setCur, State.setCur_setCur, State.openChunk_eq, State.setCur_setCur, State.cur_setCur]
  rfl

theorem Slot.ctx_unopened (x : Slot) (b : Bool) : (x.unopened b).ctx = x.ctx := x.ctx_opened b
theorem Slot.kept_unopened (x : Slot) (b : Bool) : (x.unopened b).kept = x.kept := x.kept_opened b

theorem State.launchOf_setCur (s : State) (x : Slot) (c : Ctx) : (s.setCur x).launchOf c = s.launchOf c := rfl
theorem State.tvec_setCur {s : State} {x : Slot} (h : x.ctx = s.cur.ctx) : (s.setCur x).tvec = s.tvec := by
  rw [State.tvec, State.cur_setCur, h, State.launchOf_setCur, State.tvec]
theorem State.tfut_setCur {s : State} {x : Slot} (h : x.ctx = s.cur.ctx) : (s.setCur x).tfut = s.tfut := by
  rw [State.tfut, State.cur_setCur, h, State.launchOf_setCur, State.tfut]

/-- An instruction that stops with a trap, where `TakesTraps` holds, enters the handler. -/
theorem traps_of_stop {i : Instr} {g : Guard} {body : M (Option Word)} {s : State} {cause info : Nat} {addr : Word}
    (hi : exec i s = issue g body s) (hg : g.holds s.cur.ctx.pred = true) (ht : TakesTraps s)
    (hb : body.run s.openChunk = .error (.after fun s => s.takeTrap cause info addr s.cur.ctx.pc))
    (hf : cause ≠ 7 ∨ s.tfut = 0) (hinfo : info < 65536) : Traps i s cause info addr s.cur.ctx.pc := by
  have hctx := s.cur.ctx_unopened s.isCtrl
  have htrap : (s.setCur (s.cur.unopened s.isCtrl)).takeTrap cause info addr s.cur.ctx.pc =
      s.setCur ((s.cur.unopened s.isCtrl).trapped cause info addr s.cur.ctx.pc s.tvec) := by
    rw [State.takeTrap_of_handler, State.tvec_setCur hctx, State.cur_setCur, State.setCur_setCur] <;>
      simp only [State.cur_setCur, hctx, Slot.kept_unopened, State.tvec_setCur hctx, State.tfut_setCur hctx]
    · exact ht.holds
    · exact ht.outside
    · exact ht.alone
    · exact ht.handler
    · exact hf
  refine ⟨s.setCur ((s.cur.unopened s.isCtrl).trapped cause info addr s.cur.ctx.pc s.tvec), ?_, ?_⟩
  · have hrun : issue g body s = s.openChunk.settle (.after fun s => s.takeTrap cause info addr s.cur.ctx.pc) := by
      simp [issue, hg, hb]
    rw [hi, hrun, State.settle_after_of_fresh ht.fresh, State.cur_setCur, hctx, htrap, State.reseat_of_none (s := s.setCur _) ht.own]
  · refine ⟨?_, ?_, ?_, ?_, rfl, fun c k hk => State.slotAt_setCur_other s _ hk⟩ <;> rw [State.cur_setCur]
    · rfl
    · simp only [Slot.trapped, Nat.mod_eq_of_lt hinfo, Nat.reducePow]
    · rfl
    · simp only [Slot.trapped, hctx]

/-! ### O5 -/

section
variable {g : Guard} {s s1 s2 : State} {a d : Reg} {x : Word} (hg : g.holds s.cur.ctx.pred = true)
include hg

theorem execBr_of_enters {o : BitVec 22} (h : s.Enters (s.cur.ctx.pc + wordI (2 * o.toInt))) :
    execBr g o s = .next (s.openChunk.retire (some (s.cur.ctx.pc + wordI (2 * o.toInt)))) := by
  refine issue_ok hg ?_
  rw [M.run_bind_ok (M.run_get _), State.cur_openChunk, Slot.ctx_opened, branchTarget_eq]
  exact jumpTo_run h.openChunk

theorem execBl_of_enters {o : BitVec 22} (h : s.Enters (s.cur.ctx.pc + wordI (2 * o.toInt)))
    (hw : Writes (.m 15) s.cur.nextPc s.openChunk s1) :
    execBl g o s = .next (s1.retire (some (s.cur.ctx.pc + wordI (2 * o.toInt)))) := by
  refine issue_ok hg ?_
  rw [M.run_bind_ok (M.run_get _), State.cur_openChunk, Slot.nextPc_opened, M.run_bind_ok hw, Slot.ctx_opened, branchTarget_eq]
  exact jumpTo_run (h.openChunk.operand hw.operand)

theorem execJmp_of_enters (ha : Reads a s.openChunk x s1) (h : s1.Enters x) : execJmp g a s = .next (s1.retire (some x)) := by
  refine issue_ok hg ?_
  rw [M.run_bind_ok ha]
  exact jumpTo_run h

theorem execJmpl_of_enters (ha : Reads a s.openChunk x s1) (hd : Writes d s1.cur.nextPc s1 s2) (h : s2.Enters x) :
    execJmpl g d a s = .next (s2.retire (some x)) := by
  refine issue_ok hg ?_
  rw [M.run_bind_ok ha, M.run_bind_ok (M.run_get _), M.run_bind_ok hd]
  exact jumpTo_run h

end

/-- Settles O5: a target that `State.Enters` admits lets `jumpTo` through; an odd one traps at the chunk's first instruction. -/
theorem branchesTransferControl : Obligations.BranchesTransferControl := by
  unfold Obligations.BranchesTransferControl
  intro g o d a s s1 s2 x
  refine ⟨fun hg => ⟨execBr_of_enters hg, execBl_of_enters hg, execJmp_of_enters hg, execJmpl_of_enters hg, ?_⟩, fun hg => ?_, ?_, ?_⟩
  · intro hc ht ha hodd
    have hop := ha.operand
    have hctrl : s1.isCtrl = false := by rw [hop.isCtrl, State.openChunk_isCtrl, hc]
    refine ⟨traps_of_stop rfl hg ht ?_ (.inl (by decide)) (by decide), fun hd hf =>
      traps_of_stop rfl hg ht ?_ (.inl (by decide)) (by decide)⟩
    · have hfollows : s1.cur.isFollower = false := by
        rw [hop.isFollower, State.cur_openChunk]
        simp [Slot.isFollower, ht.alone]
      rw [M.run_bind_ok ha]
      exact jumpTo_odd hctrl hfollows hodd
    · rw [M.run_bind_ok ha, M.run_bind_ok (M.run_get _), M.run_bind_ok hd]
      exact jumpTo_odd (by rw [hd.operand.isCtrl, hctrl]) hf hodd
  · exact ⟨issue_suppressed hg _, issue_suppressed hg _, issue_suppressed hg _, issue_suppressed hg _⟩
  · intro hf
    refine ⟨fun hw => ?_, fun hw => ?_⟩
    · simp [Slot.nextPc, Slot.unitLen, hf, hw]
    · simp [Slot.nextPc, Slot.unitLen, hf, hw]
  · intro e l hf hb
    simp [Slot.nextPc, Slot.unitLen, hf, hb]

end Sys2Proof.Machine

/-! SUPPORT, O23, O29. Stores, waiting, and the SYNC group. -/

namespace Sys2Proof.Machine

/-! ### Stores -/

theorem storeTo_run (a : Acc) (p : Spot) (l : List Byte) (atomic : Bool) (s : State) :
    (storeTo a p l atomic).run s = .ok ((), p.stored a l atomic s) := by
  unfold storeTo Spot.stored
  cases p with
  | peer v => rfl
  | here sa =>
    rw [M.run_bind_ok (M.run_get s)]
    cases s.isCtrl <;> rfl

theorem storeAt_run {va v : Word} {z : Fin 4} {way : Way} {s s1 : State} {p : Spot} {l : List Byte} {c : Acc}
    (hl : l = leBytes (2 ^ z.val) v.toNat) (hc : c = { va, size := 2 ^ z.val, need := 2, way, op := .store l })
    (hp : Finds c s p s1) : (storeAt va z way v).run s = .ok (none, p.stored c l false s1) := by
  subst hl hc
  unfold storeAt sizeOf4
  dsimp only
  rw [M.run_bind_ok hp, M.run_bind_ok (storeTo_run ..), M.run_pure]

/-- A scaled index: a shift to the left multiplies. -/
theorem shiftLeft_eq_wordN (w : Word) (z : Nat) : w <<< z = wordN (w.toNat * 2 ^ z) := by
  apply BitVec.eq_of_toNat_eq
  simp [wordN, Nat.shiftLeft_eq]

theorem indexed_run {a b : Reg} {z : Fin 4} {s s1 s2 : State} {v w : Word} (ha : Reads a s v s1) (hb : Reads b s1 w s2) :
    (indexed z a b).run s = .ok (v + wordN (w.toNat * 2 ^ z.val), s2) := by
  unfold indexed
  rw [M.run_bind_ok ha, M.run_bind_ok hb, M.run_pure, shiftLeft_eq_wordN]

theorem offsetOf_eq (z : Fin 4) (o : BitVec 10) : offsetOf z o = wordI (o.toInt * 2 ^ z.val) := by
  rw [offsetOf, sizeOf4, Nat.cast_pow, Nat.cast_ofNat]

/-- Settles O23: `storeAt` reaches the place and stores the operand's low bytes there (`storeAt_run`). -/
theorem storeResults : Obligations.StoreResults := by
  unfold Obligations.StoreResults
  intro g z o m d a b s s1 s2 s3 s4 v w y va p l hg ha hl
  refine ⟨fun c hva hd hc hp => ?_, fun c hctrl hb hva hd hc hp => ?_⟩ <;> subst hva
  · refine issue_ok hg ?_
    rw [M.run_bind_ok ha, M.run_bind_ok hd, offsetOf_eq]
    exact storeAt_run hl hc hp
  · refine issueStrand_ok hctrl hg ?_
    rw [M.run_bind_ok (indexed_run ha hb), M.run_bind_ok hd]
    exact storeAt_run hl hc hp

/-! ### Waiting -/

theorem HandsOut.mem {s t : State} (h : HandsOut s t) : t.mem = s.mem := by rw [h.rest]

theorem State.giveAhead_keeps (s : State) : s.giveAhead.mem = s.mem ∧ s.giveAhead.core = s.core ∧ s.giveAhead.slot = s.slot ∧
    ∃ k q, s.giveAhead.cur = { s.cur with gskip := k, gseq := q } := by
  unfold State.giveAhead
  dsimp only
  split
  · have h (e : GangEntry) := s.handOut_handsOut e false
    refine ⟨(h _).mem, (h _).core, (h _).slot, 1, s.cur.gseq + 1, ?_⟩
    rw [State.cur_modCur, (h _).cur]
  · exact ⟨rfl, rfl, rfl, s.cur.gskip, s.cur.gseq, rfl⟩

/-- A wait for anything but a peer's answer. -/
def Wait.here (w : Wait) : Prop := ∀ dev r, w ≠ .peer dev r

theorem State.waitOn_keeps {w : Wait} (hw : w.here) (s : State) :
    (s.waitOn w).cur.wait = some w ∧ (s.waitOn w).cur.ctx = s.cur.ctx ∧ (s.waitOn w).mem = s.mem := by
  obtain ⟨hmem, -, -, k, q, hcur⟩ := s.giveAhead_keeps
  unfold State.waitOn
  dsimp only
  split
  next dev r => exact absurd rfl (hw dev r)
  next =>
    rw [State.cur_setCur]
    refine ⟨rfl, ?_, ?_⟩ <;> split
    · rw [hcur]
    · rfl
    · exact hmem
    · rfl

theorem Take.remove_cur (t : Take) (c : Nat) (s : State) : (t.remove c s).cur = s.cur := by cases t <;> rfl

theorem removeAll_keeps (l : List Take) (s : State) :
    (l.foldl (fun s t => t.remove s.core s) s).mem = s.mem ∧ (l.foldl (fun s t => t.remove s.core s) s).cur = s.cur :=
  foldl_related (R := fun s t : State => t.mem = s.mem ∧ t.cur = s.cur) (fun _ => ⟨rfl, rfl⟩)
    (fun h h' => ⟨h'.1.trans h.1, h'.2.trans h.2⟩) l (fun s t _ => ⟨Take.remove_mem .., t.remove_cur s.core s⟩) s

/-- Entries held through a wait leave their queues; a pop of `nq` pins the strand. -/
theorem State.keepTakes_keeps (s : State) (l : List Take) : (s.keepTakes l).mem = s.mem ∧
    (s.keepTakes l).cur.ctx = { s.cur.ctx with pinq := (s.keepTakes l).cur.ctx.pinq } ∧
    (s.cur.ctx.pinq = true → (s.keepTakes l).cur.ctx.pinq = true) := by
  unfold State.keepTakes
  split
  · exact ⟨rfl, rfl, id⟩
  · obtain ⟨hmem, hcur⟩ := removeAll_keeps (l.drop s.cur.chunk.takes.length) s
    rw [State.cur_modCur, hcur]
    exact ⟨hmem, rfl, fun hp => by simp [hp]⟩

theorem issue_error {g : Guard} {body : M (Option Word)} {s : State} {e : Stop} (hg : g.holds s.cur.ctx.pred = true)
    (hb : body.run s.openChunk = .error e) : issue g body s = s.openChunk.settle e := by
  simp [issue, hg, hb]
theorem issueStrand_error {g : Guard} {body : M (Option Word)} {s : State} {e : Stop} (hs : Strand g s)
    (hb : body.run s.openChunk = .error e) : issueStrand g body s = s.openChunk.settle e := by
  rw [issueStrand, hs.strand, if_neg (by decide), issue_error hs.guard hb]

/-- An instruction whose meaning stops with a wait waits. -/
theorem waits_of_stop {i : Instr} {g : Guard} {body : M (Option Word)} {s : State} {w : Wait} {l : List Take} (hs : Strand g s)
    (hi : exec i s = issueStrand g body s) (hw : w.here) (hb : body.run s.openChunk = .error (.wait w l)) : Waits i s w := by
  obtain ⟨hmem, hctx, hpin⟩ := s.openChunk.keepTakes_keeps l
  obtain ⟨hwait, hctx', hmem'⟩ := (s.openChunk.keepTakes l).waitOn_keeps hw
  have hopen : s.openChunk.cur.ctx = s.cur.ctx := by rw [State.cur_openChunk, Slot.ctx_opened]
  refine ⟨_, by rw [hi, issueStrand_error hs hb]; rfl, hwait, ?_, ?_, ?_⟩
  · rw [hctx', hctx, hopen]
  · rw [hctx', ← hopen]
    exact hpin
  · rw [hmem', hmem, State.openChunk_mem]

/-- One that has taken nothing is as it was but for the wait. -/
theorem waits_unpinned {i : Instr} {g : Guard} {body : M (Option Word)} {s : State} {w : Wait} {l : List Take} (hs : Strand g s)
    (hi : exec i s = issueStrand g body s) (hw : w.here) (hb : body.run s.openChunk = .error (.wait w l))
    (hl : l = s.openChunk.cur.chunk.takes) :
    ∃ t, exec i s = .next t ∧ t.cur.wait = some w ∧ t.cur.ctx = s.cur.ctx := by
  obtain ⟨hwait, hctx, -⟩ := (s.openChunk.keepTakes l).waitOn_keeps hw
  have hkeep : s.openChunk.keepTakes l = s.openChunk := by
    unfold State.keepTakes
    rw [hl, List.drop_length]
  refine ⟨_, by rw [hi, issueStrand_error hs hb]; rfl, hwait, ?_⟩
  rw [hctx, hkeep, State.cur_openChunk, Slot.ctx_opened]

/-! ### FENCE -/

/-- Read streams drop what they have fetched ahead (R66). -/
def State.readsDropped (s : State) : State := s.modCur fun x =>
  { x with streams := x.streams.map fun o => o.map fun t => if t.write then t else { t with buf := [] } }

theorem forM_run_same {α : Type} {l : List α} {f : α → M Unit} {s : State} (h : ∀ x ∈ l, (f x).run s = .ok ((), s)) :
    (l.forM f).run s = .ok ((), s) := by
  induction l with
  | nil => rfl
  | cons x l ih =>
    rw [show (x :: l).forM f = f x >>= fun _ => l.forM f from rfl, M.run_bind_ok (h x List.mem_cons_self)]
    exact ih fun y hy => h y (List.mem_cons_of_mem x hy)

theorem streamReport_run {t : Fin 4} {st : Stream} (href : st.refused = none) (habs : st.absent = none)
    (htaint : st.tainted = none) (s : State) : (streamReport t st).run s = .ok ((), s) := by
  unfold streamReport
  rw [href, habs, htaint]
  rfl

theorem drainStreams_run {s : State} (h : s.StreamsDry) : (drainStreams fun _ => true).run s = .ok ((), s) := by
  obtain ⟨hdry, hheld⟩ := h
  have hnone : s.cur.chunk.holdsStream (fun _ => true) = false := by
    rw [Chunk.holdsStream, List.any_eq_false]
    intro x hx
    cases x with
    | streamOut t w => exact absurd hx (hheld t w)
    | _ => simp
  unfold drainStreams
  rw [M.run_bind_ok (M.run_get s)]
  refine (M.run_bind_ok (forM_run_same fun t _ => ?_)).trans ?_
  · split
    next st ht =>
      split
      next hw =>
        obtain ⟨-, href, habs, htaint⟩ := hdry t st ht hw
        exact streamReport_run href habs htaint s
      next => rfl
    next => rfl
  · rw [hnone, if_neg (by decide), if_neg]
    · rfl
    · simp only [List.any_eq_true, not_exists, not_and]
      intro t _
      split
      next st ht => cases hw : st.write <;> simp [hw, hdry t st ht]
      next => simp

/-- The state in which FENCE looks for what is pending: its chunk ends where its scope is `.y`. -/
def State.fencing (s : State) (sc : Scope) : State := if sc = .y then s.ending else s

theorem State.StreamsDry.fencing {s : State} (h : s.StreamsDry) (sc : Scope) : (s.fencing sc).StreamsDry := by
  unfold State.fencing
  split
  · unfold State.ending State.modChunk
    simpa [State.StreamsDry] using h
  · exact h

theorem ownChunk_run {s : State} (h : s.cur.chunk.count = 0) : ownChunk.run s = .ok ((), s.ending) := by
  unfold ownChunk
  rw [M.run_bind_ok (M.run_get s)]
  simp only [h, ne_eq, not_true_eq_false, if_false]
  rfl

theorem State.fencing_readsDropped (s : State) (sc : Scope) :
    (s.fencing sc).readsDropped = { s with slots := (s.fencing sc).readsDropped.slots } ∧
    (s.fencing sc).readsDropped.cur.ctx = s.cur.ctx ∧ (s.fencing sc).readsDropped.cur.chunk.takes = s.cur.chunk.takes := by
  unfold State.readsDropped
  rw [State.cur_modCur]
  unfold State.fencing
  split
  · rw [State.ending, State.modChunk, State.cur_modCur]
    exact ⟨rfl, rfl, rfl⟩
  · exact ⟨rfl, rfl, rfl⟩

/-- What FENCE does once its streams have drained. -/
def fenceEnd (sc : Scope) : M (Option Word) := do
  if sc ≠ .s then
    let s ← get
    let ids := s.pendingOf s.cur.ctx.strandId
    if !s.fenced sc s.core ids then waitFor (.fence ids sc)
  return none

/-- FENCE, up to the question whether what it covers is done. -/
theorem fence_run {s : State} {sc : Scope} (hdry : s.StreamsDry) (hfirst : sc = .y → s.cur.chunk.count = 0) :
    (do
      if sc = .y then ownChunk
      drainStreams fun _ => true
      modify State.readsDropped
      fenceEnd sc : M (Option Word)).run s = (fenceEnd sc).run (s.fencing sc).readsDropped := by
  have hrest : (do
      drainStreams fun _ => true
      modify State.readsDropped
      fenceEnd sc : M (Option Word)).run (s.fencing sc) = (fenceEnd sc).run (s.fencing sc).readsDropped := by
    rw [M.run_bind_ok (drainStreams_run (hdry.fencing sc)), M.run_bind_ok (M.run_modify ..)]
  dsimp only
  split
  case isTrue h =>
    rw [M.run_bind_ok (ownChunk_run (hfirst h))]
    rwa [State.fencing, if_pos h] at hrest ⊢
  case isFalse h => rwa [State.fencing, if_neg h] at hrest ⊢

theorem fenceEnd_done {s : State} {sc : Scope} (h : sc ≠ .s → s.fenced sc s.core (s.pendingOf s.cur.ctx.strandId) = true) :
    (fenceEnd sc).run s = .ok (none, s) := by
  unfold fenceEnd
  dsimp only
  split
  case isTrue hs => rw [M.run_bind_ok (M.run_get s), h hs]; rfl
  case isFalse => rfl

theorem fenceEnd_waits {s : State} {sc : Scope} (hs : sc ≠ .s)
    (h : s.fenced sc s.core (s.pendingOf s.cur.ctx.strandId) = false) :
    (fenceEnd sc).run s = .error (.wait (.fence (s.pendingOf s.cur.ctx.strandId) sc) s.cur.chunk.takes) := by
  unfold fenceEnd
  dsimp only
  rw [if_pos hs, M.run_bind_ok (M.run_get s), h]
  rfl

/-- What is pending, and whether it is done, is asked of the state at issue. -/
theorem fencing_asks (s : State) (sc : Scope) :
    let u := (s.openChunk.fencing sc).readsDropped
    u.pendingOf u.cur.ctx.strandId = s.pendingOf s.cur.ctx.strandId ∧
    u.fenced sc u.core (u.pendingOf u.cur.ctx.strandId) = s.fenced sc s.core (s.pendingOf s.cur.ctx.strandId) := by
  intro u
  obtain ⟨hrest, hctx, -⟩ := s.openChunk.fencing_readsDropped sc
  have hid : u.cur.ctx.strandId = s.cur.ctx.strandId := by rw [hctx, State.cur_openChunk, Slot.ctx_opened]
  rw [hid, show u = { s.openChunk with slots := u.slots } from hrest]
  exact ⟨rfl, rfl⟩

section
variable {g : Guard} {sc : Scope} {s : State} (hs : Strand g s) (hdry : s.openChunk.StreamsDry)
  (hfirst : sc = .y → s.openChunk.cur.chunk.count = 0)
include hs hdry hfirst

theorem execFence_done (h : sc ≠ .s → s.fenced sc s.core (s.pendingOf s.cur.ctx.strandId) = true) :
    execFence g sc s = .next ((s.openChunk.fencing sc).readsDropped.retire none) :=
  issueStrand_ok hs.strand hs.guard
    ((fence_run hdry hfirst).trans (fenceEnd_done fun hsc => (fencing_asks s sc).2.trans (h hsc)))

theorem execFence_waits (hsc : sc ≠ .s) (h : s.fenced sc s.core (s.pendingOf s.cur.ctx.strandId) = false) :
    ∃ t, execFence g sc s = .next t ∧ t.cur.wait = some (.fence (s.pendingOf s.cur.ctx.strandId) sc) ∧
      t.cur.ctx = s.cur.ctx := by
  obtain ⟨hids, hdone⟩ := fencing_asks s sc
  refine waits_unpinned (i := .fence g sc) hs rfl (fun _ _ => nofun)
    ((fence_run hdry hfirst).trans ?_) (s.openChunk.fencing_readsDropped sc).2.2
  rw [fenceEnd_waits hsc (hdone.trans h), hids]

end

/-! ### CEND, STAY, HOME and MIGR -/

section
variable {g : Guard} {a d : Reg} {s s1 s2 : State} {x : Word} (hs : Strand g s)
include hs

theorem execHome_of_reads (ha : Reads a s.openChunk x s1) (hd : Writes d (s1.serves s1.core x.toNat) s1 s2) :
    execHome g d a s = .next (s2.retire none) := by
  refine issueStrand_ok hs.strand hs.guard ?_
  rw [M.run_bind_ok ha, M.run_bind_ok (M.run_get _), M.run_bind_ok hd]
  rfl

theorem execMigr_stays (ha : Reads a s.openChunk x s1)
    (h : ¬(decide (x.toNat < 2 ^ 56) && decide (s1.homeOf x.toNat ≠ s1.core) && s1.mayMove (s1.homeOf x.toNat)) = true) :
    execMigr g a s = .next (s1.retire none) := by
  refine issueStrand_ok hs.strand hs.guard ?_
  rw [M.run_bind_ok ha, M.run_bind_ok (M.run_get _)]
  dsimp only
  rw [if_neg h]
  rfl

theorem execMigr_moves (ha : Reads a s.openChunk x s1) (hfirst : s.openChunk.cur.chunk.count = 0)
    (h : (decide (x.toNat < 2 ^ 56) && decide (s1.homeOf x.toNat ≠ s1.core) && s1.mayMove (s1.homeOf x.toNat)) = true) :
    execMigr g a s = .next (((((s.setCur (s.cur.unopened s.isCtrl)).modCtx fun y => { y with pc := s.cur.nextPc }).migrateTo
      (s1.homeOf x.toNat) (s1.homeOf x.toNat) 3)).reseat s.core s.slot) := by
  refine (issueStrand_error (e := .after fun s => (s.modCtx fun y => { y with pc := s.cur.nextPc }).migrateTo
      (s1.homeOf x.toNat) (s1.homeOf x.toNat) 3) hs ?_).trans ?_
  · rw [M.run_bind_ok ha, M.run_bind_ok (M.run_get _)]
    dsimp only
    rw [if_pos h]
    rfl
  · rw [State.settle_after_of_fresh hfirst, State.cur_setCur]
    rw [show (s.cur.unopened s.isCtrl).nextPc = s.cur.nextPc from s.cur.nextPc_opened _]

end

theorem State.serves_eq (s : State) (core va : Nat) : s.serves core va =
    if va < 2 ^ 56 then wordN (s.homeOf va)
    else if va < 0xFF00000000000000 then BitVec.allOnes 64
    else if va < 0xFF00000008000000 then wordN ((va - 0xFF00000000000000) / 0x40000)
    else if va < 0xFF00000008040000 then wordN core
    else BitVec.allOnes 64 := by
  unfold State.serves regionOf scratchBase
  dsimp only
  by_cases h1 : va < 2 ^ 56
  · simp only [h1, if_true]
  by_cases h2 : va < 0xFF00000000000000
  · simp only [h1, h2, if_true, if_false]
  by_cases h3 : va < 0xFF00000008000000
  · simp only [h1, h2, h3, if_true, if_false, show va - 0xFF00000000000000 < 0x08000000 by omega]
  by_cases h4 : va < 0xFF00000008040000
  · simp only [h1, h2, h3, h4, if_true, if_false, show ¬va - 0xFF00000000000000 < 0x08000000 by omega,
      show va - 0xFF00000000000000 < 0x08040000 by omega]
  · simp only [h1, h2, h3, h4, if_false, show ¬va - 0xFF00000000000000 < 0x08000000 by omega,
      show ¬va - 0xFF00000000000000 < 0x08040000 by omega]
    split_ifs <;> rfl

theorem State.clearSlot_slotAt (s : State) (c k : Nat) : ((s.clearSlot c k).slotAt c k).occ = .empty := by
  rw [State.clearSlot, State.modSlot, State.slotAt_setSlot]
  rfl

/-- Settles O29: FENCE asks of the state at issue what is pending (`fencing_asks`); MIGR ends its chunk and moves past itself. -/
theorem synchronisationResults : Obligations.SynchronisationResults := by
  unfold Obligations.SynchronisationResults
  intro g sc d a s s1 s2 x hs
  refine ⟨fun hdry hfirst => ⟨fun _ hdone => ?_, fun hsc => ?_, execFence_waits hs hdry hfirst⟩, ?_, ?_, fun ha hd => ?_, fun ha => ?_⟩
  · refine (execFence_done hs hdry hfirst fun _ => hdone).trans ?_
    rfl
  · refine (execFence_done hs hdry hfirst fun h => absurd hsc h).trans ?_
    rw [State.fencing, if_neg (by rw [hsc]; decide)]
    rfl
  · exact issueStrand_ok hs.strand hs.guard rfl
  · exact issueStrand_ok hs.strand hs.guard rfl
  · have hcore : s1.core = s.core := by rw [ha.operand.core, State.openChunk_core]
    refine execHome_of_reads hs ha ?_
    rwa [State.serves_eq, hcore]
  · have hcore : s1.core = s.core := by rw [ha.operand.core, State.openChunk_core]
    refine ⟨fun h => execMigr_stays hs ha ?_, fun h hx hh hne hmove hfirst hown => ?_⟩
    · rw [hcore]
      obtain h | h | h := h
      · rw [decide_eq_false (Nat.not_lt.mpr h), Bool.false_and, Bool.false_and]
        exact Bool.false_ne_true
      · simp [h]
      · simp [h]
    · subst hh
      refine ⟨_, execMigr_moves hs ha hfirst (by rw [hcore, decide_eq_true hx, hmove]; simp [hne]), ?_⟩
      rw [State.reseat_of_none]
      · refine ⟨?_, ?_, rfl⟩
        · exact State.clearSlot_slotAt ..
        · rw [State.migrateTo, State.coreAt_modCore]
          dsimp only
          rw [State.modCtx, State.cur_modCur, State.cur_setCur, Slot.ctx_unopened]
          rfl
      · rw [State.migrateTo, State.coreAt_modCore_other _ _ hne.symm]
        exact hown

end Sys2Proof.Machine

/-! SUPPORT, O27. Updates that travel with their chunk, and the merging of an update-only line. -/

namespace Sys2Proof.Machine

/-! ### Accesses -/

theorem Finds.aligned {a : Acc} {s s' : State} {p : Spot} (h : Finds a s p s') (hc : s.isCtrl = false) :
    a.va.toNat % a.size = 0 := by
  by_contra hmis
  unfold Finds access at h
  rw [M.run_bind_ok (M.run_get s)] at h
  dsimp only at h
  rw [hc, if_neg Bool.false_ne_true, if_pos hmis] at h
  cases h

theorem regionOf_space {va : Nat} (h : va < 2 ^ 56) : regionOf va = .space := if_pos h

/-! ### CUPD -/

/-- The line of an update joins the write signature of the chunk's commit (R145). -/
def State.updating (s : State) (line : Nat) : State := s.modChunk fun c =>
  { c with upds := insertNat line c.upds, conflict := c.conflict || c.seen.contains line }

theorem cupd_run {op : CupdOp} {n : Nat} {a b : Reg} {s s1 s2 s3 : State} {va y : Word} {sa : Nat} (ha : Reads a s va s1)
    (hb : Reads b s1 y s2) (hva : va.toNat < 2 ^ 56) (hc : s2.isCtrl = false)
    (hp : Finds { va, size := n, need := 8, way := .stay, op := .cupd op.atomOp n y, upd := true } s2 (.here sa) s3)
    (hsa : sa < 2 ^ 64) (hroom : s3.cur.chunk.count = 0 ∨ s3.cur.chunk.written.length < 32) :
    (cupd op n a b).run s =
      .ok (none, (s3.updating (lineOf va.toNat)).withHeld (.cupd sa va.toNat op n (y.toNat % 2 ^ (8 * n)))) := by
  have hfull : ¬(!s3.cur.chunk.written.contains (lineOf va.toNat) && decide (32 ≤ s3.cur.chunk.written.length) &&
      decide (s3.cur.chunk.count ≠ 0)) = true := by
    obtain h | h := hroom
    · simp [h]
    · simp [Nat.not_le.mpr h]
  unfold cupd
  rw [M.run_bind_ok ha, M.run_bind_ok hb]
  dsimp only
  rw [if_neg (not_not.mpr (hp.aligned hc)), regionOf_space hva]
  dsimp only
  rw [M.run_bind_ok hp]
  dsimp only
  rw [if_neg (by omega), M.run_bind_ok (M.run_get s3), if_neg hfull]
  rfl

theorem updates_of_cupd {i : Instr} {g : Guard} {op : CupdOp} {n : Nat} {a b : Reg}
    (hi : ∀ s, exec i s = issueStrand g (cupd op n a b) s) : Updates i g op n a b := by
  intro s va y s1 s2 sa s3 hs ha hb hva hp hsa hroom
  have hc : s2.isCtrl = false := by rw [(ha.operand.trans hb.operand).isCtrl, State.openChunk_isCtrl, hs.strand]
  rw [hi]
  exact issueStrand_ok hs.strand hs.guard (cupd_run ha hb hva hc hp hsa hroom)

/-! ### Caches of a device without errors -/

/-- Sectors move between the caches of a device without errors: memory, update-only lines and what is traced stay. -/
structure CachesOnly (s t : State) : Prop where
  flaws : t.flaws = s.flaws
  mem : t.mem = s.mem
  upds : t.upds = s.upds
  trEn : ∀ c, (t.coreAt c).trEn = (s.coreAt c).trEn

theorem CachesOnly.refl (s : State) : CachesOnly s s := ⟨rfl, rfl, rfl, fun _ => rfl⟩
theorem CachesOnly.trans {s t u : State} (h : CachesOnly s t) (h' : CachesOnly t u) : CachesOnly s u :=
  ⟨h'.flaws.trans h.flaws, h'.mem.trans h.mem, h'.upds.trans h.upds, fun c => (h'.trEn c).trans (h.trEn c)⟩
theorem cachesOnly_modDie (s : State) (d : Nat) (f : DieSt → DieSt) : CachesOnly s (s.modDie d f) :=
  ⟨rfl, rfl, rfl, fun _ => rfl⟩
theorem cachesOnly_l1 (s : State) (c : Nat) (f : List L1Line → List L1Line) :
    CachesOnly s (s.modCore c fun q => { q with l1 := f q.l1 }) where
  flaws := rfl
  mem := rfl
  upds := rfl
  trEn d := by
    by_cases h : d = c
    · subst h; rw [State.coreAt_modCore]
    · rw [State.coreAt_modCore_other s _ h]

section
variable {s : State} (h : s.flaws = [])
include h

theorem State.evictProbe_of_flaws (store cluster a : Nat) : s.evictProbe store cluster a = s := by
  simp [State.evictProbe, h]
theorem State.freshCopy_of_flaws (store a : Nat) : s.freshCopy store a = s := by
  rw [State.freshCopy, h]
  exact (congrArg (fun l => { s with flaws := l }) h.symm).trans rfl
theorem State.l2Back_of_flaws (y : L2Line) : s.l2Back y = s := by
  refine foldl_related (R := fun s t : State => s.flaws = [] → t = s) (fun _ _ => rfl) (fun hst htu hs => ?_) _
    (fun t i _ ht => ?_) s h
  · rw [htu (by rw [hst hs, hs]), hst hs]
  · dsimp only
    rw [State.evictProbe_of_flaws ht, State.freshCopy_of_flaws ht, ite_self]
theorem State.fillProbe_of_flaws (va : Option Nat) (pa : Nat) : s.fillProbe va pa = s := by
  simp [State.fillProbe, h]

theorem cachesOnly_l2Put (pa : Nat) (dirty : Bool) : CachesOnly s (s.l2Put pa dirty) := by
  unfold State.l2Put
  dsimp only
  cases l2Evicted (s.dieAt (pa / 2 ^ 37)).l2 (pa / 256) with
  | some y =>
    dsimp only
    rw [State.l2Back_of_flaws h, State.freshCopy_of_flaws h, ite_self]
    exact cachesOnly_modDie ..
  | none =>
    dsimp only
    rw [State.freshCopy_of_flaws h, ite_self]
    exact cachesOnly_modDie ..

omit h in
theorem cachesOnly_hotCount (pa : Nat) (va : Option Nat) (die : Nat) : CachesOnly s (s.hotCount pa va die) := by
  unfold State.hotCount
  dsimp only
  split
  · exact cachesOnly_modDie ..
  · split
    · exact .refl s
    · exact cachesOnly_modDie ..

theorem cachesOnly_l2Access (pa : Nat) (va : Option Nat) (die : Nat) (dirty : Bool) :
    CachesOnly s (s.l2Access pa va die dirty) := by
  rw [State.l2Access, State.fillProbe_of_flaws h]
  exact (cachesOnly_l2Put h pa dirty).trans (cachesOnly_hotCount ..)

theorem cachesOnly_dirtied (die va sa n : Nat) : CachesOnly s (s.dirtied die va sa n) := by
  unfold State.dirtied
  split
  · exact .refl s
  · refine foldl_related (R := fun s t : State => s.flaws = [] → CachesOnly s t) (fun s _ => .refl s)
      (fun hst htu hs => (hst hs).trans (htu ((hst hs).flaws.trans hs))) _ (fun t i _ ht => ?_) s h
    dsimp only
    split
    · exact cachesOnly_l1 ..
    · exact cachesOnly_l2Access ht ..

end

/-! ### Merging -/

theorem leBytes_mod (n v : Nat) : leBytes n (v % 2 ^ (8 * n)) = leBytes n v := by
  induction n generalizing v with
  | zero => rfl
  | succ n ih =>
    have hpow : 2 ^ (8 * (n + 1)) = 256 * 2 ^ (8 * n) := by rw [Nat.mul_succ, Nat.pow_add]; omega
    rw [leBytes, leBytes, hpow, Nat.mod_mul_right_div_self, ih]
    congr 1
    apply BitVec.eq_of_toNat_eq
    rw [BitVec.toNat_ofNat, BitVec.toNat_ofNat]
    exact Nat.mod_mul_right_mod v 256 _

theorem Memory.writeNat_mod (m : Memory) (a n v : Nat) : m.writeNat a n (v % 2 ^ (8 * n)) = m.writeNat a n v := by
  rw [Memory.writeNat, leBytes_mod, Memory.writeNat]

/-- What an update-only line's operation makes of a word and an update, before it is cut to the word's size. -/
def CupdOp.merged (op : CupdOp) (size old v : Nat) : Nat :=
  match op with
  | .add => old + v
  | .min => if signedOf (8 * size) old ≤ signedOf (8 * size) v then old else v
  | .max => if signedOf (8 * size) old ≤ signedOf (8 * size) v then v else old
  | .or => old ||| v
  | .fadd => (fmtF32.add .rne false old v).1

theorem Memory.writeNat_apply (m : Memory) (a size old v : Nat) (op : CupdOp) :
    m.writeNat a size (op.apply size old v) = m.writeNat a size (op.merged size old v) := by
  cases op with
  | fadd => rfl
  | add => exact m.writeNat_mod ..
  | or => exact m.writeNat_mod ..
  | min => rw [← m.writeNat_mod a size (CupdOp.merged ..)]; unfold CupdOp.apply CupdOp.merged; dsimp only; split <;> rfl
  | max => rw [← m.writeNat_mod a size (CupdOp.merged ..)]; unfold CupdOp.apply CupdOp.merged; dsimp only; split <;> rfl

/-- Before an update-only line is merged it leaves the list and its holder's cache. -/
def State.unheld (s : State) (u : UpdLine) : State :=
  ({ s with upds := s.upds.filter fun x => x != u } : State).modCore u.core fun c =>
    { c with l1 := c.l1.filter fun y => !(y.upd && y.line == u.line) }

theorem UpdLine.mergeWord_of_sound {u : UpdLine} {s : State} {x y : Nat} (hf : s.flaws = [])
    (hp : s.poisonedIn (u.pa + x) u.size = none) :
    ∃ t, u.mergeWord ([], s) (x, y) = ([], t) ∧ t.upds = s.upds ∧ (∀ c, (t.coreAt c).trEn = (s.coreAt c).trEn) ∧
      t.mem = s.mem.writeNat (u.pa + x) u.size (u.op.merged u.size (s.mem.readNat (u.pa + x) u.size) y) := by
  have hprobe : s.probe (some (256 * u.line + x)) (u.pa + x) u.size = (none, s) := by
    rw [State.probe, hf]
    exact congrArg (·, s) hp
  unfold UpdLine.mergeWord
  dsimp only
  rw [hprobe]
  dsimp only
  have hplain : (s.keepOld (u.pa + x) u.size).plainCode (u.pa + x) u.size =
      { s with cmds := (s.keepOld (u.pa + x) u.size).cmds
               tolerant := ((s.keepOld (u.pa + x) u.size).plainCode (u.pa + x) u.size).tolerant } := by
    unfold State.plainCode
    split <;> rfl
  rw [hplain, State.keepOld_mem]
  refine ⟨_, rfl, ?_⟩
  have hc := cachesOnly_dirtied (s := { s with
    cmds := (s.keepOld (u.pa + x) u.size).cmds
    tolerant := ((s.keepOld (u.pa + x) u.size).plainCode (u.pa + x) u.size).tolerant
    mem := s.mem.writeNat (u.pa + x) u.size (u.op.apply u.size (s.mem.readNat (u.pa + x) u.size) y) }) hf
    (dieOf u.core) (256 * u.line + x) (u.pa + x) u.size
  exact ⟨hc.upds, hc.trEn, hc.mem.trans (Memory.writeNat_apply ..)⟩

theorem State.traceEntry_off {s : State} {home : Nat} (h : (s.coreAt home).trEn = false) (c k commit va kind size) :
    s.traceEntry home c k commit va kind size = s := by
  unfold State.traceEntry
  dsimp only
  rw [if_pos (by rw [h]; rfl)]

theorem State.mergeOne_single {u : UpdLine} {s : State} {x y : Nat} (htr : (s.coreAt (s.homeOf (256 * u.line))).trEn = false)
    (hw : u.words = [(x, y)]) (hf : s.flaws = []) (hp : s.poisonedIn (u.pa + x) u.size = none) :
    (s.mergeOne u).mem = s.mem.writeNat (u.pa + x) u.size (u.op.merged u.size (s.mem.readNat (u.pa + x) u.size) y) ∧
    (s.mergeOne u).upds = s.upds.filter fun z => z != u := by
  obtain ⟨t, ht, hupds, htren, hmem⟩ := UpdLine.mergeWord_of_sound (u := u) (s := s.unheld u) (x := x) (y := y) hf hp
  have hoff : (t.coreAt (s.homeOf (256 * u.line))).trEn = false := by
    rw [htren, ← htr]
    exact (cachesOnly_l1 { s with upds := _ } u.core _).trEn _
  have hfold : u.words.foldl u.mergeWord ([], s.unheld u) = ([], t) := by rw [hw]; exact ht
  unfold State.mergeOne
  dsimp only
  rw [show (State.modCore { s with upds := s.upds.filter fun x => x != u } u.core fun c =>
    { c with l1 := c.l1.filter fun y => !(y.upd && y.line == u.line) }) = s.unheld u from rfl, hfold]
  dsimp only
  rw [hw]
  split
  · exact ⟨hmem, hupds⟩
  · simp only [List.isEmpty_nil, if_true, List.filter_cons, List.filter_nil, List.contains_nil, Bool.not_false, List.foldl_cons,
      List.foldl_nil, State.traceEntry_off hoff]
    exact ⟨hmem, hupds⟩

/-- Settles O27: `cupd` holds the update and its line's signature; merging applies the operation to the line's word, since the
caches of a device without errors move no bytes (`CachesOnly`). -/
theorem commutativeUpdateResults : Obligations.CommutativeUpdateResults := by
  unfold Obligations.CommutativeUpdateResults
  refine ⟨fun g k a b => ⟨?_, ?_, ?_, ?_, ?_⟩, fun u s x y htr hw hf hp => ?_⟩
  · exact updates_of_cupd fun _ => rfl
  · exact updates_of_cupd fun _ => rfl
  · exact updates_of_cupd fun _ => rfl
  · exact updates_of_cupd fun _ => rfl
  · exact updates_of_cupd fun _ => rfl
  · obtain ⟨hmem, hupds⟩ := State.mergeOne_single htr hw hf hp
    refine ⟨hmem.trans ?_, ?_⟩
    · congr 1
    · rw [hupds]
      simp

end Sys2Proof.Machine

/-! SUPPORT, O31. Commands handed to engines. -/

namespace Sys2Proof.Machine

theorem checkDst_register {d : Reg} (h : (regIndex d).isSome = true) (s : State) : (checkDst d).run s = .ok ((), s) := by
  cases d with
  | st t => cases h
  | nq => cases h
  | _ => rfl

theorem ReadsOpt.operand {r : Option Reg} {s t : State} {v : Word} (h : ReadsOpt r s v t) : Operand s t := by
  cases r with
  | some r => exact Reads.operand h
  | none => obtain ⟨-, rfl⟩ := h; exact .refl _

section
variable {e : EngUnit} {op : EngOp} {q r : Flag} {d a : Reg} {src dst : Bool}

/-- What an engine's instruction does once its operands are read: it asks whether the engine's queue has room. -/
def engineEnd (e : EngUnit) (op : EngOp) (q r : Flag) (y x : Word) (d a : Reg) (dst : Bool) : M (Option Word) := do
  let s ← get
  if op ≠ .mqry && op ≠ .mrecl && !s.engRoom (clusterOf s.core) e then waitFor (.engineFull e)
  hold (.engine (s.newCmd e op q r y x (a == .z) (if dst then some d else none)))
  endAfter
  return none

/-- What it does once `a` and `d` are read: it checks a destination. -/
def engineDest (e : EngUnit) (op : EngOp) (q r : Flag) (y x : Word) (d a : Reg) (dst : Bool) : M (Option Word) := do
  if dst then checkDst d
  engineEnd e op q r y x d a dst

theorem engineDest_run {s : State} {x y : Word}
    (hdst : dst = true → (regIndex d).isSome = true ∨ (checkDst d).run s = .ok ((), s)) :
    (engineDest e op q r y x d a dst).run s = (engineEnd e op q r y x d a dst).run s := by
  unfold engineDest
  cases dst with
  | false => rfl
  | true => exact M.run_bind_ok ((hdst rfl).elim (checkDst_register · s) id)

theorem engineIssue_run {s s1 s2 : State} {x y : Word} (ha : Reads a s x s1) (hd : ReadsOpt (if src then some d else none) s1 y s2)
    (hdst : dst = true → (regIndex d).isSome = true ∨ (checkDst d).run s2 = .ok ((), s2)) :
    (engineIssue e op q r d a src dst).run s = (engineEnd e op q r y x d a dst).run s2 := by
  unfold engineIssue
  rw [M.run_bind_ok ha]
  dsimp only
  cases src with
  | true => exact (M.run_bind_ok hd).trans (engineDest_run hdst)
  | false =>
    obtain ⟨rfl, rfl⟩ := hd
    exact engineDest_run hdst

theorem issues_of_engineIssue {i : Instr} {g : Guard} (hi : ∀ s, exec i s = issueStrand g (engineIssue e op q r d a src dst) s) :
    Issues i g e op q r d a src dst := by
  intro s x y s1 s2 hs ha hd hdst
  have hrun := engineIssue_run (e := e) (op := op) (q := q) (r := r) ha hd hdst
  have hcore : s2.core = s.core := by rw [(ha.operand.trans hd.operand).core, State.openChunk_core]
  refine ⟨fun h => ?_, fun hq hr h => ?_⟩
  · rw [hi]
    refine issueStrand_ok hs.strand hs.guard (hrun.trans ?_)
    unfold engineEnd
    rw [M.run_bind_ok (M.run_get s2), hcore]
    dsimp only
    rw [if_neg]
    · rfl
    · obtain rfl | rfl | h := h
      · simp
      · simp
      · simp [h]
  · refine waits_of_stop hs (hi s) (fun _ _ => nofun) (hrun.trans ?_) (l := s2.cur.chunk.takes)
    unfold engineEnd
    rw [M.run_bind_ok (M.run_get s2), hcore]
    dsimp only
    rw [if_pos (by simp [hq, hr, h])]
    rfl

end

/-! ### Format words -/

/-- The operand that a format code names may be scaled where the code is 2, 3 or 4 (R194). -/
theorem ofCode_of_lt {n : Nat} (h : n < 7) : ∃ f, MFmt.ofCode n = some f ∧ (n = 2 ∨ n = 3 ∨ n = 4 → f.scalable = true) := by
  interval_cases n <;> exact ⟨_, rfl, by decide⟩

theorem bitOf_eq_testBit (v k : Nat) : bitOf v k = v.testBit k := by
  rw [Nat.testBit_eq_decide_div_mod_eq, bitOf]
  simp [beq_eq_decide]

theorem scalable_or {f : MFmt} {n : Nat} {b : Bool} (hf : n = 2 ∨ n = 3 ∨ n = 4 → f.scalable = true)
    (hb : b = true → n = 2 ∨ n = 3 ∨ n = 4) : (f.scalable || !b) = true := by
  cases b with
  | true => rw [hf (hb rfl)]; rfl
  | false => simp

theorem fmtWordOk_of_fields {w : Word} (h : w.toNat < 2 ^ 10) (ha : w.toNat % 16 < 7) (hb : w.toNat / 16 % 16 < 7)
    (hsa : w.toNat.testBit 8 = true → w.toNat % 16 = 2 ∨ w.toNat % 16 = 3 ∨ w.toNat % 16 = 4)
    (hsb : w.toNat.testBit 9 = true → w.toNat / 16 % 16 = 2 ∨ w.toNat / 16 % 16 = 3 ∨ w.toNat / 16 % 16 = 4) :
    fmtWordOk w = true := by
  obtain ⟨fa, hfa, hca⟩ := ofCode_of_lt ha
  obtain ⟨fb, hfb, hcb⟩ := ofCode_of_lt hb
  have hA : ctxOperand w false = some (fa, w.toNat.testBit 8) := by
    have hcode : bitsOf w.toNat 3 0 = w.toNat % 16 := by simp [bitsOf]
    simp only [ctxOperand, Bool.false_eq_true, if_false, hcode, hfa, bitOf_eq_testBit, Option.map_some]
  have hB : ctxOperand w true = some (fb, w.toNat.testBit 9) := by
    have hcode : bitsOf w.toNat 7 4 = w.toNat / 16 % 16 := rfl
    simp only [ctxOperand, if_true, hcode, hfb, bitOf_eq_testBit, Option.map_some]
  unfold fmtWordOk
  dsimp only
  rw [hA, hB]
  dsimp only
  rw [scalable_or hca hsa, scalable_or hcb hsb]
  simpa using h

theorem execMfmt_of_fmtWordOk {g : Guard} {c : Fin 4} {a : Reg} {s s1 : State} {v : Word} (hs : Strand g s)
    (ha : Reads a s.openChunk v s1) (hv : fmtWordOk v = true) :
    execMfmt g c a s = .next ((s1.withHeld (.mfmt c v)).retire none) := by
  refine issueStrand_ok hs.strand hs.guard ?_
  rw [M.run_bind_ok ha]
  dsimp only
  rw [hv]
  rfl

/-- Settles O31: every command instruction is `engineIssue` with its engine's operation. -/
theorem engineCommandsAreHanded : Obligations.EngineCommandsAreHanded := by
  unfold Obligations.EngineCommandsAreHanded
  refine ⟨fun g x y h p k q r d a => ⟨?_, ?_, ?_, ?_, ?_, ?_, ?_, ?_, ?_, ?_, ?_, ?_, fun c s s1 v hs ha h1 h2 h3 h4 h5 =>
    execMfmt_of_fmtWordOk hs ha (fmtWordOk_of_fields h1 h2 h3 h4 h5)⟩, fun g w q r d a => ⟨?_, ?_, ?_, ?_, ?_, ?_, ?_, ?_, ?_,
      ?_, ?_, ?_, ?_, ?_, ?_, ?_, ?_, ?_, ?_, ?_, ?_, ?_, ?_, ?_, ?_, ?_, ?_⟩⟩
  all_goals exact issues_of_engineIssue fun _ => rfl

end Sys2Proof.Machine

/-! SUPPORT, O40. Work queues, turns, and the occupancy monitor. -/

namespace Sys2Proof.Machine

theorem Reads.core_open {r : Reg} {s t : State} {v : Word} (h : Reads r s.openChunk v t) : t.core = s.core := by
  rw [h.operand.core, State.openChunk_core]

/-! ### Work queues -/

section
variable {g : Guard} {a b d : Reg} {s s1 s2 : State} {x y w : Word} {l : List Word} (hs : Strand g s)
include hs

theorem execPoolid_of_writes (hd : Writes d (wordN ((s.clusterAt (clusterOf s.core)).pool (s.core % 8))) s.openChunk s1) :
    execPoolid g d s = .next (s1.retire none) := by
  refine issueStrand_ok hs.strand hs.guard ?_
  rw [M.run_bind_ok (M.run_get _)]
  exact M.run_bind_ok hd

variable (ha : Reads a s.openChunk x s1)
include ha

theorem execTurnReg_of_reads : execTurnReg g a s = .next ((s1.withHeld (.turn (x.toNat % 2 ^ 32))).retire none) := by
  refine issueStrand_ok hs.strand hs.guard ?_
  rw [M.run_bind_ok ha]
  rfl

theorem execWqput_of_room (hb : Reads b s1 y s2) (hroom : s2.wqRoom (clusterOf s.core) (x.toNat % 16) = true) :
    execWqput g a b s = .next ((s2.withHeld (.wqput (x.toNat % 16) y)).retire none) := by
  have hcore : s2.core = s.core := by rw [hb.operand.core, ha.core_open]
  refine issueStrand_ok hs.strand hs.guard ?_
  rw [M.run_bind_ok ha, M.run_bind_ok hb, M.run_bind_ok (M.run_get _), hcore]
  dsimp only
  rw [hroom]
  rfl

theorem execWqput_waits (hb : Reads b s1 y s2) (hroom : s2.wqRoom (clusterOf s.core) (x.toNat % 16) = false) :
    Waits (.wqput g a b) s (.wqFull (x.toNat % 16)) := by
  have hcore : s2.core = s.core := by rw [hb.operand.core, ha.core_open]
  refine waits_of_stop hs rfl (fun _ _ => nofun) (l := s2.cur.chunk.takes) ?_
  rw [M.run_bind_ok ha, M.run_bind_ok hb, M.run_bind_ok (M.run_get _), hcore]
  dsimp only
  rw [hroom]
  rfl

theorem execWqget_takes (hkept : s1.HoldsNone)
    (hq : (s1.clusterAt (clusterOf s.core)).wqs.get [] (x.toNat % 16) = w :: l)
    (hturn : s1.aheadCluster (clusterOf s.core) (.wqEmpty (x.toNat % 16)) (myTicket s1) < l.length + 1)
    (hd : Writes d w ((s1.modCluster (clusterOf s.core) fun u => { u with wqs := u.wqs.set (x.toNat % 16) l }).modChunk fun c =>
      { c with takes := c.takes ++ [.wq (x.toNat % 16) w] }) s2) : execWqget g d a s = .next (s2.retire none) := by
  refine issueStrand_ok hs.strand hs.guard ?_
  rw [M.run_bind_ok ha, M.run_bind_ok (M.run_get _), ha.core_open]
  dsimp only
  rw [hkept, hq]
  dsimp only
  rw [if_neg (by simpa using hturn), M.run_bind_ok (M.run_modify ..)]
  exact M.run_bind_ok hd

theorem execWqget_waits (hkept : s1.HoldsNone) (hq : (s1.clusterAt (clusterOf s.core)).wqs.get [] (x.toNat % 16) = []) :
    Waits (.wqget g d a) s (.wqEmpty (x.toNat % 16)) := by
  refine waits_of_stop hs rfl (fun _ _ => nofun) (l := s1.cur.chunk.takes) ?_
  rw [M.run_bind_ok ha, M.run_bind_ok (M.run_get _), ha.core_open]
  dsimp only
  rw [hkept, hq]
  rfl

theorem execWqget_kept {n : Nat} {r : List Take} (hkept : s1.cur.kept = .wq n w :: r)
    (hd : Writes d w (s1.modCur fun z => { z with kept := r }) s2) : execWqget g d a s = .next (s2.retire none) := by
  have hdrop : (s1.modCur fun z => { z with kept := z.kept.drop 1 }) = s1.modCur fun z => { z with kept := r } := by
    rw [State.modCur, State.modCur, hkept]
    rfl
  refine issueStrand_ok hs.strand hs.guard ?_
  rw [M.run_bind_ok ha, M.run_bind_ok (M.run_get _)]
  dsimp only
  rw [hkept]
  dsimp only
  rw [M.run_bind_ok (M.run_modify ..), hdrop]
  exact M.run_bind_ok hd

theorem execWqlen_of_reads
    (hd : Writes d (wordN ((s1.clusterAt (clusterOf s.core)).wqs.get [] (x.toNat % 16)).length) s1 s2) :
    execWqlen g d a s = .next (s2.retire none) := by
  refine issueStrand_ok hs.strand hs.guard ?_
  rw [M.run_bind_ok ha, M.run_bind_ok (M.run_get _), ha.core_open]
  exact M.run_bind_ok hd

end

/-! ### Bit fields of a register -/

theorem bitsOf_testBit (v hi lo i : Nat) : (bitsOf v hi lo).testBit i = (decide (i < hi + 1 - lo) && v.testBit (lo + i)) := by
  rw [bitsOf, Nat.testBit_mod_two_pow, Nat.testBit_div_two_pow, Nat.add_comm i lo]

/-- Replacing a field of a number by another of its width. -/
theorem field_replaced {x n lo : Nat} (v : Nat) (hv : v < 2 ^ n) (i : Nat) :
    (x - x / 2 ^ lo % 2 ^ n * 2 ^ lo + v * 2 ^ lo).testBit i =
      if lo ≤ i ∧ i < lo + n then v.testBit (i - lo) else x.testBit i := by
  have hlow := Nat.mod_lt x (Nat.two_pow_pos lo)
  have hsplit : x - x / 2 ^ lo % 2 ^ n * 2 ^ lo + v * 2 ^ lo = 2 ^ lo * (2 ^ n * (x / 2 ^ lo / 2 ^ n) + v) + x % 2 ^ lo := by
    have h1 := Nat.div_add_mod x (2 ^ lo)
    have h2 := Nat.div_add_mod (x / 2 ^ lo) (2 ^ n)
    have h3 : x = 2 ^ lo * (2 ^ n * (x / 2 ^ lo / 2 ^ n)) + x / 2 ^ lo % 2 ^ n * 2 ^ lo + x % 2 ^ lo := by
      conv_lhs => rw [← h1, ← h2]
      ring
    rw [Nat.mul_add, Nat.mul_comm (2 ^ lo) v]
    omega
  have hhigh : x / 2 ^ lo / 2 ^ n = x / 2 ^ (lo + n) := by rw [Nat.div_div_eq_div_mul, pow_add]
  rw [hsplit, Nat.testBit_two_pow_mul_add _ hlow, hhigh]
  by_cases h1 : i < lo
  · rw [if_pos h1, if_neg (by omega), Nat.testBit_mod_two_pow]
    simp [h1]
  · rw [if_neg h1, Nat.testBit_two_pow_mul_add _ hv]
    by_cases h2 : i - lo < n
    · rw [if_pos h2, if_pos (by omega)]
    · rw [if_neg h2, if_neg (by omega), Nat.testBit_div_two_pow]
      congr 1
      omega

theorem putBits_testBit {w : Word} {hi lo v : Nat} (h : lo ≤ hi ∧ hi < 64) (i : Nat) :
    (putBits w hi lo v).toNat.testBit i = if lo ≤ i ∧ i ≤ hi then v.testBit (i - lo) else w.toNat.testBit i := by
  have hf := field_replaced (x := w.toNat) (n := hi + 1 - lo) (lo := lo) (v % 2 ^ (hi + 1 - lo))
    (Nat.mod_lt _ (Nat.two_pow_pos _)) i
  rw [putBits, wordN, BitVec.toNat_ofNat, Nat.testBit_mod_two_pow, bitsOf, hf]
  by_cases hi64 : i < 64
  · by_cases hin : lo ≤ i ∧ i ≤ hi
    · rw [if_pos (by omega), if_pos hin, Nat.testBit_mod_two_pow]
      simp [hi64, show i - lo < hi + 1 - lo by omega]
    · rw [if_neg (by omega), if_neg hin]
      simp [hi64]
  · have hbig : w.toNat.testBit i = false := Nat.testBit_lt_two_pow (lt_of_lt_of_le w.isLt (Nat.pow_le_pow_right (by decide) (by omega)))
    rw [if_neg (by omega : ¬(lo ≤ i ∧ i ≤ hi)), hbig]
    simp [hi64]

/-- The field put, and every field that it does not meet. -/
theorem bitsOf_putBits_same {w : Word} {hi lo v : Nat} (h : lo ≤ hi ∧ hi < 64) :
    bitsOf (putBits w hi lo v).toNat hi lo = v % 2 ^ (hi + 1 - lo) := by
  refine Nat.eq_of_testBit_eq fun i => ?_
  rw [bitsOf_testBit, putBits_testBit h, Nat.testBit_mod_two_pow]
  by_cases hlt : i < hi + 1 - lo
  · rw [if_pos (by omega), Nat.add_sub_cancel_left]
  · simp [hlt]

theorem bitsOf_putBits_other {w : Word} {hi lo v hi' lo' : Nat} (h : lo ≤ hi ∧ hi < 64) (h' : hi' < lo ∨ hi < lo') :
    bitsOf (putBits w hi lo v).toNat hi' lo' = bitsOf w.toNat hi' lo' := by
  refine Nat.eq_of_testBit_eq fun i => ?_
  rw [bitsOf_testBit, bitsOf_testBit, putBits_testBit h]
  by_cases hlt : i < hi' + 1 - lo'
  · rw [if_neg (by omega)]
  · simp [hlt]

/-! ### Pools -/

section
variable {u : ClusterSt}

theorem ClusterSt.pool_eq (u : ClusterSt) (k : Nat) : u.pool k = u.ompool.toNat / 4 ^ k % 4 := by
  rw [ClusterSt.pool, bitsOf, pow_mul, show 2 * k + 1 + 1 - 2 * k = 2 by omega]
  rfl
theorem ClusterSt.poolView_cores (u : ClusterSt) (p : Nat) : (u.poolView p).cores = u.poolCores p := by
  simp only [ClusterSt.poolView, ClusterSt.poolCores, ClusterSt.pool_eq]
theorem ClusterSt.poolView_depth (u : ClusterSt) (p : Nat) : (u.poolView p).depth = u.poolDepth p := by
  simp only [ClusterSt.poolView, ClusterSt.poolDepth, bitsOf]
  rw [show 8 * (p - 1) + 3 + 1 - 8 * (p - 1) = 4 by omega]
  rfl
theorem ClusterSt.poolView_least (u : ClusterSt) (p : Nat) : (u.poolView p).least = u.poolLeast p := by
  simp only [ClusterSt.poolView, ClusterSt.poolLeast, bitsOf]
  rw [show 8 * (p - 1) + 7 + 1 - (8 * (p - 1) + 4) = 4 by omega]
  rfl

theorem ClusterSt.ratio_eq (u : ClusterSt) (p : Nat) : (u.poolView p).ratio =
    if u.poolCores p = [] ∧ 0 < u.poolDepth p then (1, 0) else (u.poolDepth p, max 1 (u.poolCores p).length) := by
  unfold PoolView.ratio
  rw [ClusterSt.poolView_cores, ClusterSt.poolView_depth]
  by_cases hc : u.poolCores p = []
  · by_cases hd : 0 < u.poolDepth p
    · simp [hc, hd]
    · simp [hc, Nat.eq_zero_of_not_pos hd]
  · have hlen : max 1 (u.poolCores p).length = (u.poolCores p).length := max_eq_right (List.length_pos_iff.mpr hc)
    simp [hc, hlen]

/-- Ratios as the model keeps them compare as `RatioGe` says. -/
theorem ClusterSt.ratioGe_iff {n a b : Nat} (hn : 0 < n) :
    ratioGe n (u.poolView a).ratio (u.poolView b).ratio = true ↔ u.RatioGe n a b := by
  have hone : 0 < max 1 (u.poolCores a).length := lt_of_lt_of_le Nat.one_pos (le_max_left ..)
  unfold ratioGe ClusterSt.RatioGe
  rw [decide_eq_true_eq, ClusterSt.ratio_eq, ClusterSt.ratio_eq]
  by_cases ha : u.poolCores a = [] ∧ 0 < u.poolDepth a
  · simp [ha]
  · by_cases hb : u.poolCores b = [] ∧ 0 < u.poolDepth b
    · simp [ha, hb, Nat.pos_iff_ne_zero.mp hn]
    · simp only [ha, hb, if_false, false_or, not_false_eq_true, true_and]

theorem ClusterSt.ratioGe_of {n a b : Nat} (hn : 0 < n) (h : u.RatioGe n a b) :
    ratioGe n (u.poolView a).ratio (u.poolView b).ratio = true := (ClusterSt.ratioGe_iff hn).mpr h
theorem ClusterSt.not_ratioGe_of {n a b : Nat} (hn : 0 < n) (h : ¬u.RatioGe n a b) :
    ratioGe n (u.poolView a).ratio (u.poolView b).ratio = false := by
  rw [← Bool.not_eq_true, ClusterSt.ratioGe_iff hn]
  exact h

/-- Of two pools the one of the higher, or of the lower, ratio; of equals the first. -/
def higherPool (a b : PoolView) : PoolView := if ratioGe 1 a.ratio b.ratio then a else b
def lowerPool (a b : PoolView) : PoolView := if ratioGe 1 b.ratio a.ratio then a else b

theorem ClusterSt.highest_eq {p : Nat} (h : u.Highest p) :
    higherPool (higherPool (u.poolView 1) (u.poolView 2)) (u.poolView 3) = u.poolView p := by
  obtain ⟨⟨h1, h3⟩, hmost, hfirst⟩ := h
  obtain rfl | rfl | rfl : p = 1 ∨ p = 2 ∨ p = 3 := by omega
  · simp [higherPool, ClusterSt.ratioGe_of Nat.one_pos (hmost 2 (by decide) (by decide)),
      ClusterSt.ratioGe_of Nat.one_pos (hmost 3 (by decide) (by decide))]
  · simp [higherPool, ClusterSt.not_ratioGe_of Nat.one_pos (hfirst 1 (by decide) (by decide)),
      ClusterSt.ratioGe_of Nat.one_pos (hmost 3 (by decide) (by decide))]
  · have hl := ClusterSt.not_ratioGe_of Nat.one_pos (hfirst 1 (by decide) (by decide))
    have hm := ClusterSt.not_ratioGe_of Nat.one_pos (hfirst 2 (by decide) (by decide))
    unfold higherPool
    split <;> simp [hl, hm]

theorem ClusterSt.lowest_eq {q : Nat} (h : u.Lowest q) :
    lowerPool (lowerPool (u.poolView 1) (u.poolView 2)) (u.poolView 3) = u.poolView q := by
  obtain ⟨⟨h1, h3⟩, hleast, hfirst⟩ := h
  obtain rfl | rfl | rfl : q = 1 ∨ q = 2 ∨ q = 3 := by omega
  · simp [lowerPool, ClusterSt.ratioGe_of Nat.one_pos (hleast 2 (by decide) (by decide)),
      ClusterSt.ratioGe_of Nat.one_pos (hleast 3 (by decide) (by decide))]
  · simp [lowerPool, ClusterSt.not_ratioGe_of Nat.one_pos (hfirst 1 (by decide) (by decide)),
      ClusterSt.ratioGe_of Nat.one_pos (hleast 3 (by decide) (by decide))]
  · have hl := ClusterSt.not_ratioGe_of Nat.one_pos (hfirst 1 (by decide) (by decide))
    have hm := ClusterSt.not_ratioGe_of Nat.one_pos (hfirst 2 (by decide) (by decide))
    unfold lowerPool
    split <;> simp [hl, hm]

/-- The core and pool of a move, from the three pools. -/
def movedOf (l m c : PoolView) : Option (Nat × Nat) :=
  let p := higherPool (higherPool l m) c
  let q := lowerPool (lowerPool l m) c
  if p.pool ≠ q.pool && ratioGe 2 p.ratio q.ratio && decide (q.least < q.cores.length) then
    q.cores.getLast?.map fun k => (k, p.pool)
  else none

theorem ClusterSt.moved_eq_movedOf (u : ClusterSt) : u.moved = movedOf (u.poolView 1) (u.poolView 2) (u.poolView 3) := rfl

theorem ClusterSt.moved_eq {p q : Nat} (hp : u.Highest p) (hq : u.Lowest q) :
    u.moved = if p ≠ q ∧ u.RatioGe 2 p q ∧ u.poolLeast q < (u.poolCores q).length
      then (u.poolCores q).getLast?.map fun k => (k, p) else none := by
  rw [ClusterSt.moved_eq_movedOf, movedOf, ClusterSt.highest_eq hp, ClusterSt.lowest_eq hq, ClusterSt.poolView_cores, ClusterSt.poolView_least,
    show (u.poolView p).pool = p from rfl, show (u.poolView q).pool = q from rfl]
  simp only [Bool.and_eq_true, decide_eq_true_eq, ClusterSt.ratioGe_iff (Nat.succ_pos 1), and_assoc]

end

/-- The last of a filtered range is its greatest. -/
theorem getLast?_filter_range {n c : Nat} {f : Nat → Bool} (hc : c ∈ (List.range n).filter f)
    (hmax : ∀ e ∈ (List.range n).filter f, e ≤ c) : ((List.range n).filter f).getLast? = some c := by
  have hs : ((List.range n).filter f).Pairwise (· < ·) := List.pairwise_lt_range.filter _
  generalize (List.range n).filter f = l at hc hmax hs
  have hne : l ≠ [] := List.ne_nil_of_mem hc
  rw [List.getLast?_eq_some_getLast hne]
  have hlast := hmax _ (List.getLast_mem hne)
  obtain ⟨i, hi, rfl⟩ := List.getElem_of_mem hc
  have hge : l[i] ≤ l.getLast hne := by
    rw [List.getLast_eq_getElem]
    obtain h | h := Nat.lt_or_ge i (l.length - 1)
    · exact le_of_lt (List.pairwise_iff_getElem.mp hs i (l.length - 1) hi (by omega) h)
    · exact le_of_eq (by congr 1; omega)
  rw [le_antisymm hlast hge]

/-! ### Turns -/

/-- OMPOOL and OMSTAT hold these words. -/
def ClusterSt.withPools (u : ClusterSt) (x y : Word) : ClusterSt := { u with ompool := x, omstat := y }

theorem ClusterSt.withPools_fields (u : ClusterSt) (x y : Word) : (u.withPools x y).ompool = x ∧ (u.withPools x y).omstat = y ∧
    (u.withPools x y).omcfg = u.omcfg ∧ (u.withPools x y).wqs = u.wqs := ⟨rfl, rfl, rfl, rfl⟩

/-- A cluster that has seen turn `t` (R250). -/
def ClusterSt.saw (u : ClusterSt) (t : Nat) : ClusterSt := u.withPools u.ompool (putBits (putBits u.omstat 48 48 1) 31 0 t)

section
variable {u : ClusterSt} {s : State} {k t : Nat} {l : List Nat}

theorem ClusterSt.rebalance_capctl (u : ClusterSt) : u.rebalance.capctl = u.capctl := by
  unfold ClusterSt.rebalance; split <;> rfl

/-- A move of a core sets no bit of OMSTAT but in MOVES. -/
theorem ClusterSt.rebalance_testBit (u : ClusterSt) {i : Nat} (hi : i < 32 ∨ 48 ≤ i) :
    u.rebalance.omstat.toNat.testBit i = u.omstat.toNat.testBit i := by
  unfold ClusterSt.rebalance
  split
  · rfl
  · exact (putBits_testBit (by decide) i).trans (if_neg (by omega))

theorem ClusterSt.rebalance_low (u : ClusterSt) : bitsOf u.rebalance.omstat.toNat 31 0 = bitsOf u.omstat.toNat 31 0 := by
  unfold ClusterSt.rebalance
  split
  · rfl
  · exact bitsOf_putBits_other (by decide) (by decide)

theorem ClusterSt.saw_testBit (u : ClusterSt) (t : Nat) : (u.saw t).omstat.toNat.testBit 48 = true := by
  refine (putBits_testBit (by decide) 48).trans ?_
  rw [if_neg (by decide)]
  exact (putBits_testBit (by decide) 48).trans (if_pos (by decide))
theorem ClusterSt.saw_low (ht : t < 2 ^ 32) : bitsOf (u.saw t).omstat.toNat 31 0 = t :=
  (bitsOf_putBits_same (by decide)).trans (Nat.mod_eq_of_lt ht)
theorem ClusterSt.saw_moves (u : ClusterSt) (t : Nat) :
    bitsOf (u.saw t).omstat.toNat 47 32 = bitsOf u.omstat.toNat 47 32 :=
  (bitsOf_putBits_other (by decide) (by decide)).trans (bitsOf_putBits_other (by decide) (by decide))

theorem bitsOf_low (v : Nat) : bitsOf v 31 0 = v % 2 ^ 32 := by simp [bitsOf]
theorem bitsOf_moves (v : Nat) : bitsOf v 47 32 = v / 2 ^ 32 % 2 ^ 16 := rfl

theorem ClusterSt.withNamed (h : u.named = []) : { u with named := [] } = u := by rw [← h]

theorem State.retryNamed_of_none (h : (s.clusterAt k).named = []) : s.retryNamed k = s.modCluster k fun u => { u with named := [] } := by
  unfold State.retryNamed
  rw [h]
  rfl

variable (hu : u = s.clusterAt k) (hturns : u.turns = t :: l) (hnamed : u.named = [])
include hu hturns hnamed

theorem execOmTurn_seen (hseen : u.omstat.toNat.testBit 48 = true) (ht : t ≤ u.omstat.toNat % 2 ^ 32) :
    ∃ v, execOmTurn k s = .next v ∧ v.clusterAt k = { u with turns := l, turnSoft := none } := by
  subst hu
  have hback : (s.retryNamed k).clusterAt k = s.clusterAt k := by
    rw [State.retryNamed_of_none hnamed, State.clusterAt_modCluster, ClusterSt.withNamed hnamed]
  refine ⟨(s.retryNamed k).modCluster k fun u => { u with turns := l, turnSoft := none }, ?_, ?_⟩
  · unfold execOmTurn
    dsimp only
    rw [hback, hturns]
    dsimp only
    rw [bitOf_eq_testBit, bitsOf_low, hseen, decide_eq_true ht]
    rfl
  · rw [State.clusterAt_modCluster, hback]

theorem execOmTurn_acts (hnew : u.omstat.toNat.testBit 48 = false ∨ u.omstat.toNat % 2 ^ 32 < t)
    (hcap : u.capctl.toNat.testBit 16 = false) :
    ∃ v, execOmTurn k s = .next v ∧ v.clusterAt k = { (u.saw t).rebalance with turns := l, turnSoft := none } := by
  subst hu
  have hback : (s.retryNamed k).clusterAt k = s.clusterAt k := by
    rw [State.retryNamed_of_none hnamed, State.clusterAt_modCluster, ClusterSt.withNamed hnamed]
  have hacts : ¬((s.clusterAt k).omstat.toNat.testBit 48 && decide (t ≤ (s.clusterAt k).omstat.toNat % 2 ^ 32)) = true := by
    obtain h | h := hnew
    · rw [h]; simp
    · rw [decide_eq_false (Nat.not_le.mpr h)]; simp
  have hquiet (v : State) (hv : (v.clusterAt k).capctl.toNat.testBit 16 = false) : v.pressed k = (some false, v) := by
    unfold State.pressed
    dsimp only
    rw [bitOf_eq_testBit, hv]
    rfl
  refine ⟨((s.retryNamed k).modCluster k fun u => (u.saw t).rebalance).modCluster k fun u =>
    { u with turns := l, turnSoft := none }, ?_, ?_⟩
  · unfold execOmTurn
    dsimp only
    rw [hback, hturns]
    dsimp only
    rw [bitOf_eq_testBit, bitsOf_low, if_neg hacts, hquiet]
    · rfl
    · rw [State.clusterAt_modCluster, ClusterSt.rebalance_capctl, hback]
      exact hcap
  · rw [State.clusterAt_modCluster, State.clusterAt_modCluster, hback]

end

theorem ClusterSt.saw_ompool (u : ClusterSt) (t : Nat) : (u.saw t).ompool = u.ompool := (u.withPools_fields ..).1

theorem ClusterSt.moved_saw (u : ClusterSt) (t : Nat) : (u.saw t).moved = u.moved := by
  have hview (p : Nat) : (u.saw t).poolView p = u.poolView p := by
    obtain ⟨hpool, -, hcfg, hwqs⟩ := u.withPools_fields u.ompool (putBits (putBits u.omstat 48 48 1) 31 0 t)
    simp only [ClusterSt.poolView, ClusterSt.pool, ClusterSt.saw, hpool, hcfg, hwqs]
  rw [ClusterSt.moved_eq_movedOf, ClusterSt.moved_eq_movedOf, hview, hview, hview]

theorem ClusterSt.rebalance_eq (u : ClusterSt) : u.rebalance = match u.moved with
    | none => u
    | some (k, p) => u.withPools (putBits u.ompool (2 * k + 1) (2 * k) p)
        (putBits u.omstat 47 32 (bitsOf u.omstat.toNat 47 32 + 1)) := by
  unfold ClusterSt.rebalance
  cases u.moved <;> rfl
theorem ClusterSt.rebalance_none {u : ClusterSt} (h : u.moved = none) : u.rebalance = u := by
  rw [ClusterSt.rebalance_eq, h]
theorem ClusterSt.rebalance_some {u : ClusterSt} {k p : Nat} (h : u.moved = some (k, p)) :
    u.rebalance.ompool = putBits u.ompool (2 * k + 1) (2 * k) p ∧
    u.rebalance.omstat = putBits u.omstat 47 32 (bitsOf u.omstat.toNat 47 32 + 1) := by
  rw [ClusterSt.rebalance_eq, h]
  obtain ⟨hpool, hstat, -⟩ := u.withPools_fields (putBits u.ompool (2 * k + 1) (2 * k) p)
    (putBits u.omstat 47 32 (bitsOf u.omstat.toNat 47 32 + 1))
  exact ⟨hpool, hstat⟩

/-- The core that the monitor moves, if any. -/
theorem ClusterSt.moved_none {u : ClusterSt} {p q : Nat} (hp : u.Highest p) (hq : u.Lowest q)
    (h : p = q ∨ ¬u.RatioGe 2 p q ∨ (u.poolCores q).length ≤ u.poolLeast q) : u.moved = none := by
  rw [ClusterSt.moved_eq hp hq, if_neg]
  rintro ⟨hne, hge, hleast⟩
  obtain h | h | h := h
  · exact hne h
  · exact h hge
  · exact absurd hleast (Nat.not_lt.mpr h)
theorem ClusterSt.moved_some {u : ClusterSt} {p q c : Nat} (hp : u.Highest p) (hq : u.Lowest q) (hc : c ∈ u.poolCores q)
    (hmax : ∀ e ∈ u.poolCores q, e ≤ c) (hne : p ≠ q) (hge : u.RatioGe 2 p q) (hleast : u.poolLeast q < (u.poolCores q).length) :
    u.moved = some (c, p) := by
  rw [ClusterSt.moved_eq hp hq, if_pos ⟨hne, hge, hleast⟩, ClusterSt.poolCores, getLast?_filter_range hc hmax, Option.map_some]

/-- Two bits of a word of pools. -/
theorem poolField (v c : Nat) : v / 4 ^ c % 4 = bitsOf v (2 * c + 1) (2 * c) := by
  rw [bitsOf, pow_mul, show 2 * c + 1 + 1 - 2 * c = 2 by omega]
  rfl

/-- Settles O40: the queue instructions go by the room or the oldest word they find; a turn rebalances the pools that hold the highest
and the lowest ratio (`ClusterSt.moved_eq`), bit field by bit field. -/
theorem workQueueAndTurnResults : Obligations.WorkQueueAndTurnResults := by
  unfold Obligations.WorkQueueAndTurnResults
  refine ⟨fun g d a b k s s1 s2 x y w l hs => ⟨issueStrand_ok hs.strand hs.guard rfl, execPoolid_of_writes hs, fun ha =>
    ⟨execTurnReg_of_reads hs ha, execWqput_of_room hs ha, execWqput_waits hs ha, execWqget_takes hs ha, execWqget_waits hs ha,
      fun n r => execWqget_kept hs ha, execWqlen_of_reads hs ha⟩⟩,
    fun k t l s u hu hturns ht hnamed => ⟨execOmTurn_seen hu hturns hnamed, fun hnew hcap => ?_⟩⟩
  obtain ⟨v, hexec, hv⟩ := execOmTurn_acts hu hturns hnamed hnew hcap
  refine ⟨v, hexec, ?_⟩
  rw [hv]
  refine ⟨rfl, ?_, ?_, fun p q hp hq => ⟨fun h => ?_, fun c hc hmax hne hge hleast => ?_⟩⟩
  · exact ((u.saw t).rebalance_testBit (by decide)).trans (u.saw_testBit t)
  · exact (bitsOf_low _).symm.trans ((u.saw t).rebalance_low.trans (ClusterSt.saw_low ht))
  · rw [ClusterSt.rebalance_none ((u.moved_saw t).trans (ClusterSt.moved_none hp hq h))]
    exact ⟨u.saw_ompool t, u.saw_moves t⟩
  · have hc8 : c < 8 := List.mem_range.mp (List.mem_filter.mp hc).1
    have hfield : 2 * c ≤ 2 * c + 1 ∧ 2 * c + 1 < 64 := by omega
    have hp4 : p < 4 := by have := hp.range; omega
    obtain ⟨hpool, hstat⟩ :=
      ClusterSt.rebalance_some ((u.moved_saw t).trans (ClusterSt.moved_some hp hq hc hmax hne hge hleast))
    rw [hpool, hstat, ClusterSt.saw_ompool]
    refine ⟨?_, fun e he => ?_, ?_⟩
    · rw [poolField, bitsOf_putBits_same hfield, show 2 * c + 1 + 1 - 2 * c = 2 by omega]
      exact Nat.mod_eq_of_lt hp4
    · rw [poolField, poolField, bitsOf_putBits_other hfield (by omega)]
    · refine (bitsOf_putBits_same (by decide)).trans ?_
      rw [u.saw_moves t, bitsOf_moves]
      omega

end Sys2Proof.Machine

/-! SUPPORT, O42, O43. Commands handed to the SVU, and the instructions that wait for it. -/

namespace Sys2Proof.Machine

/-! ### Handing a command over -/

def readOpt : Option Reg → M Word
  | some r => readReg r
  | none => pure 0

theorem readOpt_run {r : Option Reg} {s t : State} {v : Word} (h : ReadsOpt r s v t) : (readOpt r).run s = .ok (v, t) := by
  cases r with
  | some r => exact h
  | none => obtain ⟨rfl, rfl⟩ := h; rfl

/-- What an instruction does with its command once the strand is pinned; `s` is the state in which it was made. -/
def svuHand (s : State) (c : SvuCmd) : M (Option Word) := do
  if c.op.isMem && (s.cur.svuSerial || decide (0 < s.cur.lockLeft)) then
    if !s.cur.svuQ.isEmpty then waitFor .svu
    if !s.svuNext s.core s.slot { c with since := s.cur.ticket.getD c.since } then waitFor .svuFull
    svuRun c
  else
    if 8 ≤ s.cur.svuQ.length then waitFor .svuFull
    modify fun s => s.modCur fun z => { z with svuQ := z.svuQ ++ [c] }
  return none

theorem svuPut_run {op : SvuOp} (hop : op ≠ .nothing) (x y : Word) (s : State) :
    (svuPut op x y).run s = (svuHand s (s.svuCmd op x y)).run s.vectorPinned := by
  have hpin (b : Bool) : (b || op != .nothing) = true := by simp [hop]
  have hpinned : (({ s with ticket := s.ticket + 1 } : State).modCtx fun x => { x with pinv := x.pinv || op != .nothing }) =
      s.vectorPinned := by simp only [hpin]; rfl
  unfold svuPut
  rw [M.run_bind_ok (M.run_get s)]
  dsimp only
  rw [M.run_bind_ok (M.run_modify ..), hpinned]
  rfl

section
variable {s : State} {c : SvuCmd} {v : State}

/-- A command that is queued, or waits for room. -/
theorem svuHand_queues (h : c.op.isMem = false ∨ (s.cur.svuSerial = false ∧ s.cur.lockLeft = 0)) (hroom : s.cur.svuQ.length < 8) :
    (svuHand s c).run v = .ok (none, v.modCur fun z => { z with svuQ := z.svuQ ++ [c] }) := by
  unfold svuHand
  dsimp only
  rw [if_neg (by obtain h | ⟨h, h'⟩ := h <;> simp_all), if_neg (by omega)]
  rfl
theorem svuHand_full (h : c.op.isMem = false ∨ (s.cur.svuSerial = false ∧ s.cur.lockLeft = 0)) (hfull : 8 ≤ s.cur.svuQ.length) :
    (svuHand s c).run v = .error (.wait .svuFull v.cur.chunk.takes) := by
  unfold svuHand
  dsimp only
  rw [if_neg (by obtain h | ⟨h, h'⟩ := h <;> simp_all), if_pos hfull]
  rfl

/-- A memory command that is carried out at once, in its turn, or waits for its turn. -/
theorem svuHand_waits (hm : c.op.isMem = true) (h : s.cur.svuSerial = true ∨ 0 < s.cur.lockLeft) (hq : s.cur.svuQ ≠ []) :
    (svuHand s c).run v = .error (.wait .svu v.cur.chunk.takes) := by
  unfold svuHand
  dsimp only
  rw [if_pos (by obtain h | h := h <;> simp [hm, h]), if_pos (by simpa using hq)]
  rfl
theorem svuHand_turn (hm : c.op.isMem = true) (h : s.cur.svuSerial = true ∨ 0 < s.cur.lockLeft) (hq : s.cur.svuQ = [])
    (hnext : s.svuNext s.core s.slot { c with since := s.cur.ticket.getD c.since } = false) :
    (svuHand s c).run v = .error (.wait .svuFull v.cur.chunk.takes) := by
  unfold svuHand
  dsimp only
  rw [if_pos (by obtain h | h := h <;> simp [hm, h]), hq, if_neg (by simp), hnext]
  rfl
theorem svuHand_runs {t : State} (hm : c.op.isMem = true) (h : s.cur.svuSerial = true ∨ 0 < s.cur.lockLeft)
    (hq : s.cur.svuQ = []) (hnext : s.svuNext s.core s.slot { c with since := s.cur.ticket.getD c.since } = true)
    (hrun : (svuRun c).run v = .ok ((), t)) : (svuHand s c).run v = .ok (none, t) := by
  unfold svuHand
  dsimp only
  rw [if_pos (by obtain h | h := h <;> simp [hm, h]), hq, if_neg (by simp), hnext, if_neg (by simp), M.run_bind_ok hrun]
  rfl

end

theorem queues_of_svuPut {i : Instr} {g : Guard} {op : SvuOp} {a b : Option Reg} (hop : op ≠ .nothing)
    (hi : ∀ s, Strand g s → exec i s = issueStrand g (do
      let x ← readOpt a
      let y ← readOpt b
      svuPut op x y) s) : Queues i g op a b := by
  intro s x y s1 s2 hs ha hb
  have hbody : (do
      let x ← readOpt a
      let y ← readOpt b
      svuPut op x y : M (Option Word)).run s.openChunk = (svuHand s2 (s2.svuCmd op x y)).run s2.vectorPinned := by
    rw [M.run_bind_ok (readOpt_run ha), M.run_bind_ok (readOpt_run hb), svuPut_run hop]
  have hok {t : State} (h : (svuHand s2 (s2.svuCmd op x y)).run s2.vectorPinned = .ok (none, t)) :
      exec i s = .next (t.retire none) := by
    rw [hi s hs]
    exact issueStrand_ok hs.strand hs.guard (hbody.trans h)
  have hwait {w : Wait} (hw : w.here)
      (h : (svuHand s2 (s2.svuCmd op x y)).run s2.vectorPinned = .error (.wait w s2.vectorPinned.cur.chunk.takes)) : Waits i s w :=
    waits_of_stop hs (hi s hs) hw (hbody.trans h)
  refine ⟨fun h => ⟨fun hroom => hok (svuHand_queues h hroom), fun hfull => hwait (fun _ _ => nofun) (svuHand_full h hfull)⟩,
    fun hm h => ⟨fun hq => hwait (fun _ _ => nofun) (svuHand_waits hm h hq), fun hq k hk => ?_⟩⟩
  subst hk
  exact ⟨fun hn => hwait (fun _ _ => nofun) (svuHand_turn hm h hq hn), fun hn s3 hrun => hok (svuHand_runs hm h hq hn hrun)⟩

/-- A cross-lane command of a strand whose guard holds is issued as any other. -/
theorem svuCross_strand {g : Guard} {s : State} (hs : Strand g s) (body : M (Option Word)) : svuCross g body s = issueStrand g body s := by
  unfold svuCross issueStrand
  rw [hs.strand, hs.guard, if_neg (by decide), if_neg (by simp), if_neg (by decide)]

theorem queues_of_svuCross {i : Instr} {g : Guard} {op : SvuOp} {a b : Option Reg} (hop : op ≠ .nothing)
    (hi : ∀ s, exec i s = svuCross g (do
      let x ← readOpt a
      let y ← readOpt b
      svuPut op x y) s) : Queues i g op a b :=
  queues_of_svuPut hop fun s hs => (hi s).trans (svuCross_strand hs _)

/-- Settles O42: every vector instruction is `svuPut` of its command with the operands it reads, cross-lane commands among them
(`svuCross_strand`). -/
theorem vectorCommandsAreQueued : Obligations.VectorCommandsAreQueued := by
  unfold Obligations.VectorCommandsAreQueued
  intro g t o x z y f c m v d a b r q
  refine ⟨⟨?_, ?_, ?_, ?_, ?_, ?_, ?_, ?_, ?_, ?_, ?_, ?_⟩, ⟨?_, ?_, ?_, ?_, ?_, ?_, ?_, ?_, ?_⟩,
    ⟨?_, ?_, ?_, ?_, ?_, ?_, ?_, ?_, ?_, ?_, ?_, ?_, ?_, ?_, ?_, ?_, ?_, ?_⟩, ?cross, ⟨?_, ?_, ?_, ?_, ?_, ?_⟩,
    fun e h => ⟨?_, ?_, ?_, ?_, ?_⟩⟩
  case cross =>
    refine ⟨?_, ?_, ?_, ?_, ?_, ?_, ?_, ?_, ?_⟩
    · exact queues_of_svuCross nofun fun _ => rfl
    · exact queues_of_svuCross nofun fun _ => rfl
    · exact queues_of_svuPut nofun fun _ _ => rfl
    · exact queues_of_svuPut nofun fun _ _ => rfl
    all_goals exact queues_of_svuCross nofun fun _ => rfl
  all_goals exact queues_of_svuPut nofun fun _ _ => rfl

/-! ### Predicates, bit by bit -/

/-- A word made of the bits that a function names. -/
theorem foldl_twoPow_getLsbD (f : Fin 16 → Bool) (l : List (Fin 16)) (w : BitVec 16) (j : Fin 16) :
    (l.foldl (fun w i => if f i then w ||| BitVec.twoPow 16 i.val else w) w).getLsbD j.val =
      (w.getLsbD j.val || (decide (j ∈ l) && f j)) := by
  induction l generalizing w with
  | nil => simp
  | cons i l ih =>
    rw [List.foldl_cons, ih]
    by_cases hij : j = i
    · subst hij
      cases f j <;> simp
    · have hne : i.val ≠ j.val := fun e => hij (Fin.ext e.symm)
      cases f i <;> simp [hij, BitVec.getElem_twoPow, hne.symm]

theorem setPred_run (p : Fin 16) (v : Bool) (s : State) : (setPred .set p v).run s = .ok ((), s.putPred p v) := by
  have hword (w : BitVec 16) : combinePred .set w p v = if p = 0 then w else (List.finRange 16).foldl (fun x i =>
      if (if i = p then v else w.getLsbD i.val) then x ||| BitVec.twoPow 16 i.val else x) 0 := by
    by_cases hp : p = 0
    · subst hp; rfl
    · rw [if_neg hp]
      refine BitVec.eq_of_getLsbD_eq fun i hi => ?_
      refine Eq.trans ?_ (foldl_twoPow_getLsbD (fun i => if i = p then v else w.getLsbD i.val) (List.finRange 16) 0 ⟨i, hi⟩).symm
      have hzero : BitVec.getLsbD (0 : BitVec 16) i = false := BitVec.getLsbD_zero
      simp only [List.mem_finRange, decide_true, Bool.true_and, hzero, Bool.false_or]
      by_cases hip : (⟨i, hi⟩ : Fin 16) = p
      · have hpv : p.val ≠ 0 := fun e => hp (Fin.ext e)
        subst hip
        cases v <;> simp_all [combinePred]
      · rw [if_neg hip]
        exact combinePred_getLsbD_other .set w hip v
  unfold setPred State.putPred
  simp only [hword]
  rfl

/-! ### Waiting for the SVU -/

theorem svuIdle_done {s : State} (h : s.cur.svuQ = []) : svuIdle.run s = .ok ((), s) := by
  unfold svuIdle
  rw [M.run_bind_ok (M.run_get s), h]
  rfl
theorem svuIdle_busy {s : State} (h : s.cur.svuQ ≠ []) : svuIdle.run s = .error (.wait .svu s.cur.chunk.takes) := by
  unfold svuIdle
  rw [M.run_bind_ok (M.run_get s), if_pos (by simpa using h)]
  rfl

theorem M.run_bind_error {α β : Type} {m : M α} {f : α → M β} {s : State} {e : Stop} (h : m.run s = .error e) :
    (m >>= f).run s = .error e := by rw [M.run_bind, h]

section
variable {g : Guard} {s s1 : State}

theorem svuQ_openChunk (s : State) : s.openChunk.cur.svuQ = s.cur.svuQ := by
  rw [State.cur_openChunk]; exact (s.cur.opened_keeps _).2.2.2.1
theorem vec_openChunk (s : State) : s.openChunk.cur.vec = s.cur.vec := by
  rw [State.cur_openChunk]; exact (s.cur.opened_keeps _).2.1

/-- An instruction that asks for an idle SVU first waits for it. -/
theorem waits_for_svu {i : Instr} {f : Unit → M (Option Word)} (hs : Strand g s) (hq : s.cur.svuQ ≠ [])
    (hi : exec i s = issueStrand g (svuIdle >>= f) s) : Waits i s .svu :=
  waits_of_stop hs hi (fun _ _ => nofun) (M.run_bind_error (svuIdle_busy (by rwa [svuQ_openChunk])))

theorem goes_when_idle {i : Instr} {f : Unit → M (Option Word)} {t : State} (hs : Strand g s) (hq : s.cur.svuQ = [])
    (hi : exec i s = issueStrand g (svuIdle >>= f) s) (hf : (f ()).run s.openChunk = .ok (none, t)) :
    exec i s = .next (t.retire none) := by
  rw [hi]
  exact issueStrand_ok hs.strand hs.guard ((M.run_bind_ok (svuIdle_done (by rwa [svuQ_openChunk]))).trans hf)

theorem execVbusy_of_writes {d : Reg} {v : Word} (hs : Strand g s) (hv : v = if s.cur.svuQ.isEmpty then 0 else 1)
    (hd : Writes d v s.openChunk s1) : execVbusy g d s = .next (s1.retire none) := by
  refine issueStrand_ok hs.strand hs.guard ?_
  rw [M.run_bind_ok (M.run_get _), svuQ_openChunk, ← hv]
  exact M.run_bind_ok hd

/-- What VIMAXS does once the SVU is idle; `own` is what its strand brings. -/
def vimaxsEnd (t : LType) (d : Reg) (a : Fin 8) (ins : List CrossIn) : M (Option Word) := do
  let x := (← get).cur
  let v := vimaxsOf t x.ctx.ftz ins
  normalise (vimaxsSub t x.ctx.ftz (x.vec.pair a))
  raise (vimaxsFlags t ins)
  setPred .set 7 (v.toNat % 2 ^ 32 == 0xFFFFFFFF)
  writeReg d v
  return none

/-- What the members of a gang bring, or the strand alone. -/
def vimaxsIns (t : LType) (a : Fin 8) : M (List CrossIn) := do
  let x := (← get).cur
  if !x.ctx.gang then return [x.vec.pair a]
  match x.crossOf (x.vec.pair a) with
  | some ins => return ins
  | none => waitFor (.vimaxs false x.nextSeq t a)

theorem execVimaxs_strand (hs : Strand g s) (t : LType) (d : Reg) (a : Fin 8) :
    execVimaxs g t d a s = issueStrand g (svuIdle >>= fun _ => vimaxsIns t a >>= vimaxsEnd t d a) s := by
  unfold execVimaxs
  dsimp only
  rw [if_neg (by rw [hs.guard]; simp)]
  congr 1
  exact bind_assoc svuIdle (fun _ => vimaxsIns t a) (vimaxsEnd t d a)

theorem execVimaxs_alone {t : LType} {d : Reg} {a : Fin 8} {z : Bool} {v : Word} (hs : Strand g s) (hq : s.cur.svuQ = [])
    (hgang : s.cur.ctx.gang = false) (hz : z = s.cur.ctx.tmode.getLsbD 0) (hv : v = vimaxsOf t z [s.cur.vec.pair a])
    (hd : Writes d v (((s.openChunk.normalised (vimaxsSub t z (s.cur.vec.pair a))).raised
      (vimaxsFlags t [s.cur.vec.pair a])).putPred 7 (v.toNat % 2 ^ 32 == 0xFFFFFFFF)) s1) :
    exec (.vimaxs g t d a) s = .next (s1.retire none) := by
  have hctx : s.openChunk.cur.ctx = s.cur.ctx := by rw [State.cur_openChunk, Slot.ctx_opened]
  subst hz hv
  refine goes_when_idle hs hq (execVimaxs_strand hs t d a) ?_
  have hins : (vimaxsIns t a).run s.openChunk = .ok ([s.cur.vec.pair a], s.openChunk) := by
    unfold vimaxsIns
    rw [M.run_bind_ok (M.run_get _)]
    dsimp only
    rw [hctx, hgang, vec_openChunk]
    rfl
  rw [M.run_bind_ok hins]
  unfold vimaxsEnd
  rw [M.run_bind_ok (M.run_get _)]
  dsimp only
  rw [hctx, vec_openChunk, ctx_ftz]
  rw [M.run_bind_ok (normalise_run ..), M.run_bind_ok (raise_run ..), M.run_bind_ok (setPred_run ..)]
  exact M.run_bind_ok hd

end

/-- Settles O43: with an empty queue `svuIdle` goes on, otherwise it waits. -/
theorem vectorControlResults : Obligations.VectorControlResults := by
  unfold Obligations.VectorControlResults
  intro g t k d a s s1 hs
  refine ⟨fun hq => ⟨goes_when_idle hs hq rfl rfl, goes_when_idle hs hq rfl rfl, execVbusy_of_writes hs (by rw [hq]; rfl), fun hd => ?_,
    fun v z hgang hz hv hd => execVimaxs_alone hs hq hgang hz hv hd⟩,
    fun hq => ⟨waits_for_svu hs hq rfl, waits_for_svu hs hq rfl, execVbusy_of_writes hs ?_, waits_for_svu hs hq rfl,
      waits_for_svu hs hq (execVimaxs_strand hs t d a)⟩⟩
  · refine goes_when_idle hs hq rfl ?_
    rw [M.run_bind_ok (M.run_get _), vec_openChunk]
    exact M.run_bind_ok hd
  · simp [hq]

end Sys2Proof.Machine

/-! SUPPORT, O9, O35. Operands of every form, and ids of new strands. -/

namespace Sys2Proof.Machine

/-! ### The neighbour queues -/

theorem M.run_bind_guest {α : Type} {f : Unit → M α} {s : State} (h : s.cur.ctx.guest = false) :
    (guestHome >>= f).run s = (f ()).run s := by
  unfold guestHome
  rw [bind_assoc, M.run_bind_ok (M.run_get s), h]
  rfl

theorem guestHome_stops {α : Type} {f : Unit → M α} {s : State} (h : s.cur.ctx.guest = true) :
    (guestHome >>= f).run s = .error (.after fun s => s.guestLeaves s.core s.slot) := by
  unfold guestHome
  rw [bind_assoc, M.run_bind_ok (M.run_get s), h]
  rfl

section
variable {s : State} {w : Word} {l : List Word} (hc : s.isCtrl = false)
include hc

theorem readReg_nq : (readReg .nq).run s = nqPop.run s := by
  unfold readReg
  rw [M.run_bind_ok (M.run_get s), hc]
  rfl
theorem readReg_st (t : Fin 4) : (readReg (.st t)).run s = (streamRead t).run s := by
  unfold readReg
  rw [M.run_bind_ok (M.run_get s), hc]
  rfl
theorem readReg_id : (readReg .id).run s = .ok (s.idWord, s) := by
  unfold readReg
  rw [M.run_bind_ok (M.run_get s), hc]
  rfl
theorem writeReg_nq (v : Word) : (writeReg .nq v).run s = (nqPush v).run s := by
  unfold writeReg
  rw [M.run_bind_ok (M.run_get s), hc]
  rfl
theorem writeReg_st (t : Fin 4) (v : Word) : (writeReg (.st t) v).run s = (streamWrite t v).run s := by
  unfold writeReg
  rw [M.run_bind_ok (M.run_get s), hc]
  rfl

end

/-- The state in which the oldest entry of the upstream queue has been taken, to be given back if the chunk is discarded (R158). -/
def State.nqTook (s : State) (w : Word) (l : List Word) : State :=
  ((s.modCore s.core fun k => { k with nqUp := l }).modChunk fun c => { c with takes := c.takes ++ [.nq w] }).modCtx
    fun x => { x with pinq := true }

section
variable {s : State} {w : Word} {l : List Word}

theorem State.cur_nqTook (s : State) (w : Word) (l : List Word) : (s.nqTook w l).cur = { s.cur with
    ctx := { s.cur.ctx with pinq := true }, chunk := { s.cur.chunk with takes := s.cur.chunk.takes ++ [.nq w] } } := by
  rw [State.nqTook, State.modCtx, State.cur_modCur, State.modChunk, State.cur_modCur]
  rfl
theorem State.nqUp_nqTook (s : State) (w : Word) (l : List Word) : ((s.nqTook w l).coreAt s.core).nqUp = l := by
  rw [State.nqTook, State.modCtx, State.coreAt_modCur, State.modChunk, State.coreAt_modCur, State.coreAt_modCore]

variable (hg : s.cur.ctx.guest = false)
include hg

theorem nqPop_takes (hkept : s.HoldsNone) (hq : (s.coreAt s.core).nqUp = w :: l) : nqPop.run s = .ok (w, s.nqTook w l) := by
  unfold nqPop
  rw [M.run_bind_guest hg, M.run_bind_ok (M.run_get s)]
  rw [hkept, hq]
  rfl
theorem nqPop_waits (hkept : s.HoldsNone) (hq : (s.coreAt s.core).nqUp = []) :
    nqPop.run s = .error (.wait .nqEmpty s.cur.chunk.takes) := by
  unfold nqPop
  rw [M.run_bind_guest hg, M.run_bind_ok (M.run_get s)]
  rw [hkept, hq]
  rfl
theorem nqPop_kept {r : List Take} (hkept : s.cur.kept = .nq w :: r) :
    nqPop.run s = .ok (w, s.modCur fun x => { x with kept := r }) := by
  unfold nqPop
  rw [M.run_bind_guest hg, M.run_bind_ok (M.run_get s)]
  rw [hkept]
  rfl

theorem nqPush_holds (hroom : s.nqRoom s.core = true) :
    (nqPush w).run s = .ok ((), (s.modCtx fun x => { x with pinq := true }).withHeld (.nqPush w)) := by
  unfold nqPush
  rw [M.run_bind_guest hg, M.run_bind_ok (M.run_get s)]
  dsimp only
  rw [hroom]
  rfl
theorem nqPush_waits (hroom : s.nqRoom s.core = false) : (nqPush w).run s = .error (.wait .nqFull s.cur.chunk.takes) := by
  unfold nqPush
  rw [M.run_bind_guest hg, M.run_bind_ok (M.run_get s)]
  dsimp only
  rw [hroom]
  rfl

end

theorem State.cur_withHeld (s : State) (h : Held) :
    (s.withHeld h).cur = { s.cur with chunk := { s.cur.chunk with held := s.cur.chunk.held ++ [h] } } := State.cur_modCur ..

/-! ### Streams -/

section
variable {s : State} {t : Fin 4} {st : Stream} {w : Word} {l : List Word} (hst : s.cur.streams[t] = some st)
  (href : st.refused = none) (habs : st.absent = none) (htaint : st.tainted = none) (hpos : st.pos < st.total)
include hst href habs htaint hpos

theorem streamRead_next (hr : st.write = false) (hbuf : st.buf = w :: l) :
    (streamRead t).run s = .ok (w, s.setStream t (some { st with buf := l, pos := st.pos + 1 })) := by
  unfold streamRead
  rw [M.run_bind_ok (M.run_get s), hst]
  dsimp only
  rw [M.run_bind_ok (streamReport_run href habs htaint s), hr, if_neg Bool.false_ne_true, if_neg (Nat.not_le.mpr hpos), hbuf]
  rfl

theorem streamWrite_next (hw : st.write = true) (hroom : st.buf.length < 16) (hva : (st.addr st.pos).toNat < 2 ^ 56)
    (hwalk : s.walk (st.addr st.pos).toNat ≠ .malformed) :
    (streamWrite t w).run s = .ok ((), (s.setStream t (some { st with pos := st.pos + 1 })).withHeld (.streamOut t w)) := by
  have hreach : s.reachOf s.cur.ctx s.core (st.addr st.pos).toNat = .space := by
    rw [State.reachOf, reachFrom, regionOf_space hva]
  unfold streamWrite
  rw [M.run_bind_ok (M.run_get s), hst]
  dsimp only
  rw [M.run_bind_ok (streamReport_run href habs htaint s), hw, if_neg (by decide), if_neg (Nat.not_le.mpr hpos), hreach]
  dsimp only
  rw [if_neg (by simpa using hwalk), if_neg (by omega)]
  rfl

end

theorem getElem_set_same {α : Type} (v : Vector α 4) (t : Fin 4) (x : α) : (v.set t x)[t] = x := by simp

/-- Settles O9, a form of operand at a time. -/
theorem operandForms : Obligations.OperandForms := by
  unfold Obligations.OperandForms
  refine ⟨fun s r t w l st => ⟨fun h => readReg_plain h s, readReg_id, fun hc hg hk hq => ?_, fun hc hg hk hq => ?_, fun r hc hg hk => ?_,
    fun hc hg => ?_, fun hc hst hr href habs htaint hpos hbuf => ?_⟩, fun s n r t w st => ⟨fun h => ?_, rfl, fun hc hg hroom => ?_,
    fun hc hg hroom => ?_, fun hc hg => ?_, fun hc hst hw href habs htaint hpos hlen hva hwalk => ?_⟩⟩
  · refine ⟨s.nqTook w l, (readReg_nq hc).trans (nqPop_takes hg hk hq), s.nqUp_nqTook w l, ?_, ?_, ?_⟩ <;> rw [State.cur_nqTook]
  · exact (readReg_nq hc).trans (nqPop_waits hg hk hq)
  · exact (readReg_nq hc).trans (nqPop_kept hg hk)
  · exact (readReg_nq hc).trans (guestHome_stops hg)
  · refine ⟨_, (readReg_st hc t).trans (streamRead_next hst href habs htaint hpos hr hbuf), ?_, ?_, rfl⟩ <;>
      rw [State.cur_setStream]
    exact getElem_set_same ..
  · unfold Writes writeReg
    rw [M.run_bind_ok (M.run_get s), h]
    rfl
  · refine ⟨_, (writeReg_nq hc w).trans (nqPush_holds hg hroom), ?_, ?_, ?_, rfl⟩ <;> rw [State.cur_withHeld, State.cur_modCtx]
  · exact (writeReg_nq hc w).trans (nqPush_waits hg hroom)
  · exact (writeReg_nq hc w).trans (guestHome_stops hg)
  · refine ⟨_, (writeReg_st hc t w).trans (streamWrite_next hst href habs htaint hpos hw hlen hva hwalk), ?_, ?_, ?_, rfl⟩ <;>
      rw [State.cur_withHeld, State.cur_setStream]
    exact getElem_set_same ..

/-! ### Ids -/

/-- Among more numbers in a row than a list has ids, some number is none of them. -/
theorem exists_ofNat_not_mem {live : List (BitVec 32)} (h : live.length < 2 ^ 32) (seq : Nat) :
    ∃ i ∈ List.range (live.length + 1), BitVec.ofNat 32 (seq + i) ∉ live := by
  by_contra hall
  push Not at hall
  have hinj : Set.InjOn (fun i => BitVec.ofNat 32 (seq + i)) (Finset.range (live.length + 1)) := by
    intro i hi j hj hij
    have hi : i < live.length + 1 := by simpa using hi
    have hj : j < live.length + 1 := by simpa using hj
    have heq : (seq + i) % 2 ^ 32 = (seq + j) % 2 ^ 32 := congrArg BitVec.toNat hij
    omega
  have hle : (Finset.range (live.length + 1)).card ≤ live.toFinset.card :=
    Finset.card_le_card_of_injOn _ (fun i hi => List.mem_toFinset.mpr (hall i (by simpa using hi))) hinj
  have hcard := List.toFinset_card_le live
  rw [Finset.card_range] at hle
  omega

/-- Settles O35: the first number in a row that no live strand has is found within one more try than there are live strands. -/
theorem newStrandIdsAreUnused : Obligations.NewStrandIdsAreUnused := by
  unfold Obligations.NewStrandIdsAreUnused
  intro s h
  obtain ⟨i, hi, hfree⟩ := exists_ofNat_not_mem h s.strandSeq
  unfold State.newId
  dsimp only
  cases hfind : (List.range (s.liveIds.length + 1)).find? fun i => !s.liveIds.contains (BitVec.ofNat 32 (s.strandSeq + i)) with
  | none => simpa [hfree] using List.find?_eq_none.mp hfind i hi
  | some n => simpa using List.find?_some hfind

end Sys2Proof.Machine

/-! SUPPORT, O34. Futures, and the instructions that start and end strands. -/

namespace Sys2Proof.Machine

/-! ### Futures -/

theorem readAt_run (va : Word) (sa n : Nat) (s : State) :
    (readAt va sa n).run s = .ok ((s.fetched va sa).view.readN sa n, s.fetched va sa) := by
  unfold readAt State.fetched
  split <;> rfl

theorem futureAccess_run {va : Word} {need : Need} {way : Way} {op : PeerOp} {off : Nat} {s s' : State} {p : Spot}
    (h : Shared va) (hp : Finds { va, size := 16, need, way, op, off } s p s') :
    (futureAccess va need way op off).run s = .ok (({ va, size := 16, need, way, op, off }, p), s') := by
  obtain ⟨halign, hplace⟩ := h
  unfold futureAccess
  dsimp only
  rw [if_neg (by omega)]
  obtain hva | ⟨c, o, hva⟩ := hplace
  · rw [regionOf_space hva, M.run_bind_ok hp]
    rfl
  · rw [hva, M.run_bind_ok hp]
    rfl

section
variable {va v : Word} {s s' : State} {sa : Nat} (h : Shared va)
  (hp : Finds { va, size := 16, need := 8, way := .stay, op := .fput v } s (.here sa) s')
include h hp

theorem fillFuture_empty (hempty : (s'.seen va sa 16).testBit 64 = false) :
    (fillFuture va v).run s = .ok ((), (Spot.here sa).stored { va, size := 16, need := 8, way := .stay, op := .fput v }
      (leBytes 8 v.toNat ++ leBytes 8 1) true (s'.fetched va sa)) := by
  unfold fillFuture
  rw [M.run_bind_ok (futureAccess_run h hp)]
  dsimp only
  rw [M.run_bind_ok (readAt_run ..), bitOf_eq_testBit]
  rw [show leNat ((s'.fetched va sa).view.readN sa 16) = s'.seen va sa 16 from rfl, hempty,
    if_neg Bool.false_ne_true]
  exact storeTo_run ..

theorem fillFuture_full (hfull : (s'.seen va sa 16).testBit 64 = true) :
    (fillFuture va v).run s = .error (.after fun s => s.takeTrap 8 0 va s.cur.ctx.pc) := by
  unfold fillFuture
  rw [M.run_bind_ok (futureAccess_run h hp)]
  dsimp only
  rw [M.run_bind_ok (readAt_run ..), bitOf_eq_testBit]
  rw [show leNat ((s'.fetched va sa).view.readN sa 16) = s'.seen va sa 16 from rfl, hfull]
  rfl

end

/-! ### FORK -/

/-- What FORK does once its place is known and its future empty. -/
def forkEnd (d : Reg) (parent : Ctx) (pc fut : Word) (spill : Bool) : M (Option Word) := do
  let id ← takeId
  hold (.fork (parent.child pc id fut) spill)
  writeReg d (wordN id.toNat)
  return none

theorem forkEnd_run {d : Reg} {parent : Ctx} {pc fut : Word} {spill : Bool} {u t : State}
    (hd : Writes d (wordN u.newId.1.toNat) (u.newId.2.withHeld (.fork (parent.child pc u.newId.1 fut) spill)) t) :
    (forkEnd d parent pc fut spill).run u = .ok (none, t) := by
  have hid : takeId.run u = .ok (u.newId.1, u.newId.2) := rfl
  unfold forkEnd
  rw [M.run_bind_ok hid, M.run_bind_ok (run_hold ..)]
  exact M.run_bind_ok hd

section
variable {g : Guard} {d a b : Reg} {s s1 s2 s3 u v : State} {x y : Word} {sa : Nat} {p : Bool} (hs : Strand g s)
  (ha : Reads a s.openChunk x s1)
include hs ha

theorem execFork_of_place (hb : Reads b s1 y s2) (hplace : s2.forkPlace s.core = some p)
    (hu : if b = .z then u = s2 else
      Shared y ∧ ∃ v, Finds { va := y, size := 16, need := 8, way := .stay, op := .clear, off := 8 } s2 (.here sa) v ∧
        u = (Spot.here (sa + 8)).stored
          { va := y + 8, size := 16, need := 8, way := .stay, op := .clear, off := 8 } (leBytes 8 0) true v)
    (hd : Writes d (wordN u.newId.1.toNat) (u.newId.2.withHeld (.fork (s2.cur.ctx.child x u.newId.1 y) p)) s3) :
    execFork g d a b s = .next (s3.retire none) := by
  have hcore : s2.core = s.core := by rw [hb.operand.core, ha.core_open]
  refine issueStrand_ok hs.strand hs.guard ?_
  rw [M.run_bind_ok ha, M.run_bind_ok hb, M.run_bind_ok (M.run_get _), hcore]
  dsimp only
  rw [hplace]
  dsimp only
  by_cases hz : b = .z
  · rw [if_pos hz] at hu
    subst hu
    rw [if_neg (not_not.mpr hz)]
    exact forkEnd_run hd
  · rw [if_neg hz] at hu
    obtain ⟨hshared, v, hv, rfl⟩ := hu
    rw [if_pos hz, M.run_bind_ok (futureAccess_run hshared hv)]
    dsimp only
    rw [M.run_bind_ok (storeTo_run ..)]
    exact forkEnd_run hd

/-! ### FGET, FPUT, EXIT and YIELD -/

omit ha in
theorem issueStrand_strand (body : M (Option Word)) : issueStrand g body s = issue g body s := by
  rw [issueStrand, hs.strand, if_neg Bool.false_ne_true]

section
variable (h : Shared x) (hp : Finds { va := x, size := 16, need := 1, way := .pred, op := .fget } s1 (.here sa) s2)
include h hp

theorem execFget_of_full (hk : (s2.seen x sa 16).testBit 64 = true)
    (hd : Writes d (wordN (s2.seen x sa 16)) (s2.fetched x sa) s3) : execFget g d a s = .next (s3.retire none) := by
  refine issueStrand_ok hs.strand hs.guard ?_
  rw [M.run_bind_ok ha, M.run_bind_ok (futureAccess_run h hp)]
  dsimp only
  rw [M.run_bind_ok (readAt_run ..), bitOf_eq_testBit,
    show leNat ((s2.fetched x sa).view.readN sa 16) = s2.seen x sa 16 from rfl, hk, if_pos rfl]
  exact M.run_bind_ok hd

theorem execFget_of_empty (hk : (s2.seen x sa 16).testBit 64 = false) (ht : TakesTraps s) (hf : s.tfut = 0) :
    Traps (.fget g d a) s 7 0 x s.cur.ctx.pc := by
  refine traps_of_stop (issueStrand_strand hs _) hs.guard ht ?_ (.inr hf) (by decide)
  rw [M.run_bind_ok ha, M.run_bind_ok (futureAccess_run h hp)]
  dsimp only
  rw [M.run_bind_ok (readAt_run ..), bitOf_eq_testBit,
    show leNat ((s2.fetched x sa).view.readN sa 16) = s2.seen x sa 16 from rfl, hk, if_neg Bool.false_ne_true]
  rfl

end

section
variable (hb : Reads b s1 y s2) (h : Shared x)
  (hp : Finds { va := x, size := 16, need := 8, way := .stay, op := .fput y } s2 (.here sa) s3)
include hb h hp

theorem execFput_of_empty (hk : (s3.seen x sa 16).testBit 64 = false) :
    execFput g a b s = .next (((Spot.here sa).stored { va := x, size := 16, need := 8, way := .stay, op := .fput y }
      (leBytes 8 y.toNat ++ leBytes 8 1) true (s3.fetched x sa)).retire none) := by
  refine issueStrand_ok hs.strand hs.guard ?_
  rw [M.run_bind_ok ha, M.run_bind_ok hb, M.run_bind_ok (fillFuture_empty h hp hk)]
  rfl

theorem execFput_of_full (hk : (s3.seen x sa 16).testBit 64 = true) (ht : TakesTraps s) :
    Traps (.fput g a b) s 8 0 x s.cur.ctx.pc := by
  refine traps_of_stop (issueStrand_strand hs _) hs.guard ht ?_ (.inl (by decide)) (by decide)
  rw [M.run_bind_ok ha, M.run_bind_ok hb]
  exact M.run_bind_error (fillFuture_full h hp hk)

end

section
variable (hdry : s1.StreamsDry) (hq : s1.cur.svuQ = [])
include hdry hq

theorem execExit_alone (hf : s1.cur.ctx.future = 0) : execExit g a s = .next (((s1.withHeld .exit).ending).retire none) := by
  refine issueStrand_ok hs.strand hs.guard ?_
  rw [M.run_bind_ok ha, M.run_bind_ok (M.run_get _), hq]
  dsimp only
  rw [if_neg (by simp), M.run_bind_ok (drainStreams_run hdry), M.run_bind_ok (M.run_get _), hf]
  rfl

theorem execExit_fills {f : Word} (hf : f = s1.cur.ctx.future) (hne : f ≠ 0) (h : Shared f)
    (hp : Finds { va := f, size := 16, need := 8, way := .stay, op := .fput x } s1 (.here sa) s2)
    (hk : (s2.seen f sa 16).testBit 64 = false) :
    execExit g a s = .next (((((Spot.here sa).stored { va := f, size := 16, need := 8, way := .stay, op := .fput x }
      (leBytes 8 x.toNat ++ leBytes 8 1) true (s2.fetched f sa)).withHeld .exit).ending).retire none) := by
  refine issueStrand_ok hs.strand hs.guard ?_
  rw [M.run_bind_ok ha, M.run_bind_ok (M.run_get _), hq]
  dsimp only
  rw [if_neg (by simp), M.run_bind_ok (drainStreams_run hdry), M.run_bind_ok (M.run_get _), ← hf, if_pos hne,
    M.run_bind_ok (fillFuture_empty h hp hk)]
  rfl

end

end

theorem staysAtYield_openChunk (s : State) : s.openChunk.staysAtYield = s.staysAtYield := by
  rw [State.staysAtYield, State.cur_openChunk, Slot.ctx_opened]
  rfl

section
variable {g : Guard} {s : State} (hs : Strand g s)
include hs

theorem execYield_outside (hi : s.cur.ctx.intrap = false) : execYield g s =
    .next (((if s.staysAtYield then s.openChunk else s.openChunk.withHeld .yield).ending).retire none) := by
  refine issueStrand_ok hs.strand hs.guard ?_
  rw [M.run_bind_ok (M.run_get _)]
  dsimp only
  rw [staysAtYield_openChunk, State.cur_openChunk, Slot.ctx_opened, hi, if_neg Bool.false_ne_true]
  cases s.staysAtYield <;> rfl

theorem execYield_inside (hi : s.cur.ctx.intrap = true) (he : s.openChunk.Enters s.cur.tepc) : execYield g s =
    .next (((if s.staysAtYield then s.openChunk.modCtx fun k => { k with intrap := false }
      else (s.openChunk.modCtx fun k => { k with intrap := false }).withHeld .yield).ending).retire (some s.cur.tepc)) := by
  have htepc : s.openChunk.eret.1 = s.cur.tepc := by
    rw [State.eret, State.cur_openChunk]
    exact (s.cur.opened_keeps _).2.2.2.2.2.2.1
  have hctx : s.openChunk.cur.ctx = s.cur.ctx := by rw [State.cur_openChunk, Slot.ctx_opened]
  refine issueStrand_ok hs.strand hs.guard ?_
  rw [M.run_bind_ok (M.run_get _)]
  dsimp only
  rw [staysAtYield_openChunk, hctx, hi, if_pos rfl, htepc, M.run_bind_ok (jumpTo_run he)]
  cases s.staysAtYield <;> rfl

end

/-- Settles O34, an instruction at a time: futures are reached by `futureAccess`, filled by `fillFuture`. -/
theorem strandAndFutureResults : Obligations.StrandAndFutureResults := by
  unfold Obligations.StrandAndFutureResults
  intro g d a b s s1 s2 s3 x y k sa p hs ha
  refine ⟨fun hb hplace u hu hd => execFork_of_place hs ha hb hplace hu hd, fun h hp hk => ?_,
    fun hb h hp => ⟨execFput_of_empty hs ha hb h hp, execFput_of_full hs ha hb h hp⟩,
    fun hdry hq => ⟨execExit_alone hs ha hdry hq, fun f hf hne h hp hempty => execExit_fills hs ha hdry hq hf hne h hp hempty⟩,
    execYield_outside hs, execYield_inside hs⟩
  rw [hk]
  exact ⟨execFget_of_full hs ha h hp, execFget_of_empty hs ha h hp⟩

end Sys2Proof.Machine

/-! SUPPORT. Slots of a manual block, and wakes (R165, R166, R334). -/

namespace Sys2Proof.Machine

/-! ### Reading a register holds nothing for the commit -/

/-- What the chunk of the current slot holds for its commit stays. -/
def HeldSame (s t : State) : Prop := t.cur.chunk.held = s.cur.chunk.held

theorem heldSame_pure {α : Type} (x : α) : Leads HeldSame (pure x) := leads_pure (R := HeldSame) (fun _ => rfl) x
theorem heldSame_bind {α β : Type} {m : M α} {f : α → M β} (hm : Leads HeldSame m) (hf : ∀ x, Leads HeldSame (f x)) :
    Leads HeldSame (m >>= f) := leads_bind (R := HeldSame) (fun h h' => Eq.trans h' h) hm hf
theorem heldSame_modCur (s : State) {f : Slot → Slot} (h : (f s.cur).chunk.held = s.cur.chunk.held) : HeldSame s (s.modCur f) := by
  rw [HeldSame, State.cur_modCur, h]

theorem heldSame_guestHome : Leads HeldSame guestHome :=
  leads_get_bind fun s => by
    split
    · exact leads_stop _ s
    · exact heldSame_pure _ s

theorem heldSame_nqPop : Leads HeldSame nqPop := by
  unfold nqPop
  refine heldSame_bind heldSame_guestHome fun _ => leads_get_bind fun s => ?_
  split
  · rintro y t ⟨⟩
    exact heldSame_modCur s rfl
  · split
    · exact leads_waitFor _ s
    · rintro y t ⟨⟩
      exact Eq.trans (heldSame_modCur _ rfl) (heldSame_modCur _ rfl)

theorem heldSame_streamReport (t : Fin 4) (st : Stream) : Leads HeldSame (streamReport t st) := by
  unfold streamReport
  dsimp only
  split
  · exact leads_stop_bind _
  · split
    · exact leads_stop_bind _
    · split
      · exact leads_stop _
      · exact heldSame_pure _

theorem heldSame_nextReplyOf (p : Nat → Bool) : Leads HeldSame (nextReplyOf p) :=
  leads_get_bind fun s => by
    split <;>
    · rintro y t ⟨⟩
      exact heldSame_modCur s rfl

theorem heldSame_setStream (t : Fin 4) (f : State → Option Stream) : Leads HeldSame (modify fun s => s.setStream t (f s)) :=
  leads_modify fun s => heldSame_modCur s rfl

theorem heldSame_streamRead (t : Fin 4) : Leads HeldSame (streamRead t) :=
  leads_get_bind fun s => by
    split
    · exact leads_stop _ s
    · refine heldSame_bind (heldSame_streamReport _ _) (fun _ => ?_) s
      split
      · exact leads_stop _
      · split
        · exact leads_stop _
        · split
          · refine heldSame_bind (heldSame_nextReplyOf _) fun r => ?_
            split
            · exact heldSame_bind (heldSame_setStream _ _) fun _ => heldSame_pure _
            · exact leads_stop _
            · exact leads_stop _
            all_goals exact leads_waitFor _
          · exact heldSame_bind (heldSame_setStream _ _) fun _ => heldSame_pure _

theorem heldSame_readReg (r : Reg) : Leads HeldSame (readReg r) :=
  leads_get_bind fun s => by
    split
    · exact heldSame_pure _ s
    · split
      · split
        · exact leads_stop _ s
        · exact heldSame_nqPop s
      · split
        · exact leads_stop _ s
        · exact heldSame_streamRead _ s
      · split
        · exact leads_stop _ s
        · exact heldSame_pure _ s
      all_goals exact heldSame_pure _ s

theorem Reads.held {r : Reg} {s t : State} {v : Word} (h : Reads r s v t) : t.cur.chunk.held = s.cur.chunk.held :=
  heldSame_readReg r s v t h

theorem Chunk.starts_eq_false {c : Chunk} {n : Nat} (h : ∀ x, Held.slstart n x ∉ c.held) : c.starts n = false := by
  rw [Chunk.starts, List.any_eq_false]
  intro e he
  cases e
  case slstart k x =>
    intro hk
    rw [eq_of_beq hk] at he
    exact h x he
  all_goals exact Bool.false_ne_true

/-! ### SLSTART, SLREAP, SLQUERY and WAKE -/

theorem headSlot_run {s : State} (hm : s.manualCore s.core = true) (h0 : s.slot = 0) : headSlot.run s = .ok ((), s) := by
  unfold headSlot
  rw [M.run_bind_ok (M.run_get _), hm, h0]
  rfl

section
variable {g : Guard} {d a b : Reg} {s s1 s2 s3 : State} {x y : Word} {n : Nat} (hs : Strand g s) (ha : Reads a s.openChunk x s1)
  (hn : n = x.toNat % 16)
include ha

theorem Reads.slot_open : s1.slot = s.slot := by rw [ha.operand.slot, State.openChunk_slot]

include hn in
theorem slotNamed_run : (slotNamed a).run s.openChunk = .ok (n, s1) := by
  subst hn
  exact M.run_bind_ok ha

include hs hn

theorem execSlstart_starts (hheld : ∀ c, Held.slstart n c ∉ s1.cur.chunk.held) (hb : Reads b s1 y s2)
    (hm : s2.manualCore s.core = true) (h0 : s.slot = 0) (hne : n ≠ 0) (hidle : s2.idleSlot s.core n = true)
    (hd : Writes d (wordN s2.newId.1.toNat) (s2.newId.2.withHeld (.slstart n (s2.cur.ctx.child y s2.newId.1 0))) s3) :
    exec (.slstart g d a b) s = .next (s3.retire none) := by
  have hcore : s2.core = s.core := by rw [hb.operand.core, ha.core_open]
  have hslot : s2.slot = 0 := by rw [hb.operand.slot, ha.slot_open, h0]
  have hid : takeId.run s2 = .ok (s2.newId.1, s2.newId.2) := rfl
  have hfree : s2.cur.chunk.starts n = false := Chunk.starts_eq_false (by rw [hb.held]; exact hheld)
  refine issueStrand_ok hs.strand hs.guard ?_
  rw [M.run_bind_ok (slotNamed_run ha hn), M.run_bind_ok hb, M.run_bind_ok (headSlot_run (by rw [hcore, hm]) hslot),
    M.run_bind_ok (M.run_get _), hcore, hidle, hfree, decide_eq_true hne]
  change (takeId >>= _).run s2 = _
  rw [M.run_bind_ok hid, M.run_bind_ok (run_hold ..)]
  exact M.run_bind_ok hd

theorem execSlstart_refuses (hb : Reads b s1 y s2) (hm : s2.manualCore s.core = true) (h0 : s.slot = 0)
    (hno : n = 0 ∨ s2.idleSlot s.core n = false) (hd : Writes d (BitVec.allOnes 64) s2 s3) :
    exec (.slstart g d a b) s = .next (s3.retire none) := by
  have hcore : s2.core = s.core := by rw [hb.operand.core, ha.core_open]
  have hslot : s2.slot = 0 := by rw [hb.operand.slot, ha.slot_open, h0]
  have hcond : (n ≠ 0 && s2.idleSlot s.core n && !s2.cur.chunk.starts n) = false := by
    rcases hno with h | h <;> simp [h]
  refine issueStrand_ok hs.strand hs.guard ?_
  rw [M.run_bind_ok (slotNamed_run ha hn), M.run_bind_ok hb, M.run_bind_ok (headSlot_run (by rw [hcore, hm]) hslot),
    M.run_bind_ok (M.run_get _), hcore, hcond]
  exact M.run_bind_ok hd

theorem execSlreap_frees (hm : s1.manualCore s.core = true) (h0 : s.slot = 0) (hocc : (s1.slotAt s.core n).occ = .finished)
    (hd : Writes d (wordN (s1.slotAt s.core n).ctx.strandId.toNat) (s1.withHeld (.slreap n)) s2) :
    exec (.slreap g d a) s = .next (s2.retire none) := by
  have hcore := ha.core_open
  refine issueStrand_ok hs.strand hs.guard ?_
  rw [M.run_bind_ok (slotNamed_run ha hn), M.run_bind_ok (headSlot_run (by rw [hcore, hm]) (ha.slot_open.trans h0)),
    M.run_bind_ok (M.run_get _), hcore]
  dsimp only
  rw [hocc]
  change (hold _ >>= _).run s1 = _
  rw [M.run_bind_ok (run_hold ..)]
  exact M.run_bind_ok hd

theorem execSlreap_refuses (hm : s1.manualCore s.core = true) (h0 : s.slot = 0) (hocc : (s1.slotAt s.core n).occ ≠ .finished)
    (hd : Writes d (BitVec.allOnes 64) s1 s2) : exec (.slreap g d a) s = .next (s2.retire none) := by
  have hcore := ha.core_open
  refine issueStrand_ok hs.strand hs.guard ?_
  rw [M.run_bind_ok (slotNamed_run ha hn), M.run_bind_ok (headSlot_run (by rw [hcore, hm]) (ha.slot_open.trans h0)),
    M.run_bind_ok (M.run_get _), hcore]
  dsimp only
  rw [beq_eq_false_iff_ne.mpr hocc]
  exact M.run_bind_ok hd

theorem execSlquery_of_code
    (hd : Writes d (if s1.slotCode s.core n = 0 then 0
      else wordN (s1.slotCode s.core n * 2 ^ 32 + (s1.slotAt s.core n).ctx.strandId.toNat)) s1 s2) :
    exec (.slquery g d a) s = .next (s2.retire none) := by
  refine issueStrand_ok hs.strand hs.guard ?_
  rw [M.run_bind_ok (slotNamed_run ha hn), M.run_bind_ok (M.run_get _), ha.core_open]
  exact M.run_bind_ok hd

omit hn in
theorem execWake_of_reads : exec (.wake g a) s = .next ((s1.withHeld (.wake (x.setWidth 32))).retire none) := by
  refine issueStrand_ok hs.strand hs.guard ?_
  rw [M.run_bind_ok ha]
  rfl

end

/-! ### The state of a slot -/

section
variable {s : State} {c k : Nat}

theorem State.parkedAt_eq_false (hp : (s.slotAt c k).ctx.parked = false) (hg : (s.slotAt c k).ctx.gang = true →
      ∀ e ∈ (s.slotAt c k).ctx.gangCores c, (s.slotAt e k).ctx.gang = true → (s.slotAt e k).ctx.parked = false) :
    s.parkedAt c k = false := by
  simp only [State.parkedAt, hp, Bool.false_or, Bool.and_eq_false_imp, List.any_eq_false, Bool.and_eq_true, not_and, Bool.not_eq_true]
  exact hg

theorem State.parkedAt_eq_true (h : (s.slotAt c k).ctx.parked = true ∨ ((s.slotAt c k).ctx.gang = true ∧
      ∃ e ∈ (s.slotAt c k).ctx.gangCores c, (s.slotAt e k).ctx.gang = true ∧ (s.slotAt e k).ctx.parked = true)) :
    s.parkedAt c k = true := by
  simpa only [State.parkedAt, Bool.or_eq_true, Bool.and_eq_true, List.any_eq_true] using h

theorem State.slotCode_empty (h : (s.slotAt c k).occ = .empty) : s.slotCode c k = 0 := by rw [State.slotCode]; simp only [h]
theorem State.slotCode_finished (h : (s.slotAt c k).occ = .finished) : s.slotCode c k = 4 := by rw [State.slotCode]; simp only [h]
theorem State.slotCode_parked (h : (s.slotAt c k).occ = .running) (hp : s.parkedAt c k = true) : s.slotCode c k = 3 := by
  rw [State.slotCode]; simp only [h, hp, if_true]

theorem State.slotCode_ready (h : (s.slotAt c k).occ = .running) (hp : s.parkedAt c k = false) (hv : (s.slotAt c k).vnorm = 0)
    (hw : ∀ w, (s.slotAt c k).wait = some w → s.waitOver c k w = true) : s.slotCode c k = 1 := by
  rw [State.slotCode]
  simp only [h, hp, Bool.false_eq_true, if_false]
  cases hx : (s.slotAt c k).wait with
  | none => exact if_pos hv
  | some w => simp [hw w hx, hv]

theorem State.slotCode_waiting (h : (s.slotAt c k).occ = .running) (hp : s.parkedAt c k = false)
    (hw : (s.slotAt c k).vnorm ≠ 0 ∨ ∃ w, (s.slotAt c k).wait = some w ∧ s.waitOver c k w = false) : s.slotCode c k = 2 := by
  rw [State.slotCode]
  simp only [h, hp, Bool.false_eq_true, if_false]
  rcases hw with hv | ⟨w, hx, hover⟩
  · cases (s.slotAt c k).wait with
    | none => exact if_neg hv
    | some w => simp [hv]
  · simp [hx, hover]

end

/-! ### A wake message -/

theorem Table.get_map_val {α : Type} (f : α → α) (t : Table α) (d : α) (n : Nat) (hd : f d = d) :
    Table.get d (List.map (fun e => (e.1, f e.2)) t : Table α) n = f (t.get d n) := by
  induction t with
  | nil => exact hd.symm
  | cons e t ih =>
    simp only [Table.get, List.map_cons]
    split
    · rfl
    · exact ih

theorem State.seatWoken_of_none {s : State} (h : ∀ e ∈ s.cores, e.2.parkStore = []) : s.seatWoken = s := by
  have howns : (s.cores.flatMap fun e => e.2.parkStore.filterMap fun q => q.own.map fun k => (e.1, k)) = [] := by
    rw [List.flatMap_eq_nil_iff]
    intro e he
    rw [h e he]
    rfl
  rw [State.seatWoken, howns]
  dsimp only [List.foldl_nil]
  suffices hfold : ∀ (l : List (Nat × CoreSt)) (F : State → Nat × CoreSt → State), (∀ e ∈ l, ∀ t, F t e = t) → l.foldl F s = s by
    refine hfold _ _ fun e he t => ?_
    rw [h e he]
    rfl
  intro l F hF
  induction l with
  | nil => rfl
  | cons e l ih => rw [List.foldl_cons, hF e List.mem_cons_self, ih fun e he => hF e (List.mem_cons_of_mem _ he)]

section
variable {s : State} (f : Slot → Slot) (hcores : ∀ e ∈ s.cores, e.2.parkStore = [])

include hcores in
theorem State.mapKept_parkStore : ∀ e ∈ (s.mapKept f).cores, e.2.parkStore = [] := by
  intro e he
  obtain ⟨e', he', rfl⟩ := List.mem_map.mp he
  change List.map _ e'.2.parkStore = []
  rw [hcores e' he', List.map_nil]

theorem State.slotAt_mapKept (hd : f Slot.empty = Slot.empty) (c k : Nat) : (s.mapKept f).slotAt c k = f (s.slotAt c k) :=
  Table.get_map_val f s.slots Slot.empty _ hd

end

/-- Whether a wake reaches the strand of a slot: it is parked, waits for no verdict, and is the one that the wake names. -/
def Wake.hits (w : Wake) (x : Slot) : Bool :=
  x.ctx.parked && x.wait != some .verdict && (x.ctx.strandId == w.id && (match w.launch with | some l => x.ctx.launch == l | none => true))

theorem Wake.hits_of {w : Wake} {x : Slot} (hp : x.ctx.parked = true) (hv : x.wait ≠ some .verdict) (hid : x.ctx.strandId = w.id)
    (hl : ∀ l, w.launch = some l → x.ctx.launch = l) : w.hits x = true := by
  rw [Wake.hits, hp, bne_iff_ne.mpr hv, hid, beq_self_eq_true]
  cases h : w.launch with
  | none => rfl
  | some l => exact beq_iff_eq.mpr (hl l h)

theorem Wake.not_hits_of {w : Wake} {x : Slot} (hid : x.ctx.strandId ≠ w.id) : w.hits x = false := by
  rw [Wake.hits, beq_eq_false_iff_ne.mpr hid, Bool.false_and, Bool.and_false]

theorem execWakeMessage_eq {n : Nat} {s : State} {w : Wake} (hw : s.wakes[n]? = some w) (hcores : ∀ e ∈ s.cores, e.2.parkStore = []) :
    execWakeMessage n s = .next (({ s with wakes := s.wakes.eraseIdx n } : State).mapKept fun x => if w.hits x then x.woken else x) := by
  rw [execWakeMessage, hw]
  exact congrArg _ (State.seatWoken_of_none (State.mapKept_parkStore (s := { s with wakes := s.wakes.eraseIdx n }) _ hcores))

/-- Settles O36: each instruction along its branches; a wake message changes a slot through `mapKept` alone, as no strand is in a
park store. -/
theorem slotAndWakeResults : Obligations.SlotAndWakeResults := by
  unfold Obligations.SlotAndWakeResults
  refine ⟨fun g d a b s s1 s2 s3 x y n hs ha hn hheld _ =>
      ⟨fun hb hm h0 => ⟨?_, ?_⟩, fun hm h0 => ⟨?_, ?_⟩, ?_, execWake_of_reads hs ha⟩,
    fun n c k s w hw _ hcores => ?_⟩
  · exact fun hne hidle hd => execSlstart_starts hs ha hn hheld hb hm h0 hne hidle hd
  · exact fun hno hd => execSlstart_refuses hs ha hn hb hm h0 hno hd
  · exact fun hocc hd => execSlreap_frees hs ha hn hm h0 hocc hd
  · exact fun hocc hd => execSlreap_refuses hs ha hn hm h0 hocc hd
  · rintro y rfl
    refine ⟨fun hocc hd => ?_, fun hocc hp hg ⟨hv, hw⟩ hd => ?_, fun hocc hp hg hw hd => ?_, fun hocc hp hd => ?_, fun hocc hd => ?_⟩ <;>
      refine execSlquery_of_code hs ha hn ?_
    · rwa [State.slotCode_empty hocc]
    · rwa [State.slotCode_ready hocc (State.parkedAt_eq_false hp hg) hv hw]
    · rwa [State.slotCode_waiting hocc (State.parkedAt_eq_false hp hg) hw]
    · rwa [State.slotCode_parked hocc (State.parkedAt_eq_true hp)]
    · rwa [State.slotCode_finished hocc]
  · refine ⟨_, execWakeMessage_eq hw hcores, rfl, rfl, fun hp hv hid hl => ?_, fun hid => ?_⟩ <;>
      rw [State.slotAt_mapKept _ (by rw [show w.hits Slot.empty = false from rfl]; rfl)]
    · exact if_pos (Wake.hits_of hp hv hid hl)
    · have hmiss : w.hits (s.slotAt c k) = false := Wake.not_hits_of hid
      exact if_neg (Bool.eq_false_iff.mp hmiss)

end Sys2Proof.Machine

/-! SUPPORT. Gangs: how one forms, and how its members leave (R34, R167). -/

namespace Sys2Proof.Machine

/-! ### Its other cores -/

theorem mem_gangOthers {n c e : Nat} (h : e ∈ gangOthers n c) : e ≠ c ∧ ∃ j < n, e = c / n * n + j := by
  obtain ⟨hm, hne⟩ := List.mem_filter.mp h
  obtain ⟨j, hj, rfl⟩ := List.mem_map.mp hm
  exact ⟨by simpa using hne, j, List.mem_range.mp hj, rfl⟩

theorem gangOthers_lane {n c e : Nat} (h : e ∈ gangOthers n c) : e - c / n * n = e % n := by
  obtain ⟨-, j, hj, rfl⟩ := mem_gangOthers h
  rw [Nat.add_sub_cancel_left, Nat.mul_add_mod_self_right, Nat.mod_eq_of_lt hj]

theorem State.slotAt_openChunk_other {s : State} {e : Nat} (h : e ≠ s.core) : s.openChunk.slotAt e s.slot = s.slotAt e s.slot := by
  rw [State.openChunk_eq, State.slotAt_setCur_other s _ (by omega)]

/-! ### Updating one slot of each core -/

@[simp] theorem State.slotAt_modSlot (s : State) (c k : Nat) (f : Slot → Slot) : (s.modSlot c k f).slotAt c k = f (s.slotAt c k) :=
  State.slotAt_setSlot ..
theorem State.slotAt_modSlot_other (s : State) {c k d j : Nat} (f : Slot → Slot) (h : 16 * d + j ≠ 16 * c + k) :
    (s.modSlot c k f).slotAt d j = s.slotAt d j := State.slotAt_setSlot_other s _ h

/-- Steps that each settle the slot of one core, and touch no other core's, settle those of all cores of a list. -/
theorem foldl_slotAt {F : State → Nat → State} {k : Nat} {P : Nat → Slot → Prop} {l : List Nat}
    (hsame : ∀ t, ∀ a ∈ l, P a ((F t a).slotAt a k)) (hother : ∀ t a e, e ≠ a → (F t a).slotAt e k = t.slotAt e k) (s : State) :
    (∀ e ∈ l, P e ((l.foldl F s).slotAt e k)) ∧ ∀ e, e ∉ l → (l.foldl F s).slotAt e k = s.slotAt e k := by
  induction l generalizing s with
  | nil => exact ⟨fun _ h => absurd h List.not_mem_nil, fun _ _ => rfl⟩
  | cons a l ih =>
    obtain ⟨hin, hout⟩ := ih (fun t e he => hsame t e (List.mem_cons_of_mem _ he)) (F s a)
    rw [List.foldl_cons]
    refine ⟨fun e he => ?_, fun e he => ?_⟩
    · by_cases hl : e ∈ l
      · exact hin e hl
      · obtain rfl : e = a := (List.mem_cons.mp he).resolve_right hl
        rw [hout e hl]
        exact hsame s e List.mem_cons_self
    · rw [hout e fun hl => he (List.mem_cons_of_mem _ hl), hother s a e fun h => he (h ▸ List.mem_cons_self)]

/-! ### GANG_FORMATION reserves -/

/-- The slot of a core is reserved where it is free. -/
def State.reserve (core slot : Nat) (s : State) (e : Nat) : State :=
  if s.slotFree e slot then s.modSlot e slot fun y => { y with occ := .reserved core slot } else s

theorem State.slotFree_congr {s t : State} {e k : Nat} (h : t.slotAt e k = s.slotAt e k) (h0 : t.slotAt e 0 = s.slotAt e 0) :
    t.slotFree e k = s.slotFree e k := by rw [State.slotFree, State.slotFree, h, h0]

theorem State.slotFree_of_occ {s : State} {e k : Nat} (h : (s.slotAt e k).occ ≠ .empty) : s.slotFree e k = false := by
  rw [State.slotFree, beq_eq_false_iff_ne.mpr h, Bool.false_and]

theorem reserve_foldl {c k : Nat} (hk : k < 16) (l : List Nat) (s : State) (e : Nat) :
    (l.foldl (State.reserve c k) s).slotAt e k =
      if e ∈ l ∧ s.slotFree e k = true then { s.slotAt e k with occ := .reserved c k } else s.slotAt e k := by
  induction l generalizing s with
  | nil => simp
  | cons a l ih =>
    rw [List.foldl_cons, ih, State.reserve]
    by_cases hfree : s.slotFree a k = true
    · rw [if_pos hfree]
      by_cases hea : e = a
      · subst hea
        have hocc : ((s.modSlot e k fun y => { y with occ := .reserved c k }).slotAt e k).occ ≠ .empty := by
          rw [State.slotAt_modSlot]; exact nofun
        rw [State.slotFree_of_occ hocc, if_neg (by simp), State.slotAt_modSlot, if_pos ⟨List.mem_cons_self, hfree⟩]
      · have hsame := State.slotAt_modSlot_other s (fun y : Slot => { y with occ := .reserved c k }) (show 16 * e + k ≠ 16 * a + k by omega)
        have hzero := State.slotAt_modSlot_other s (fun y : Slot => { y with occ := .reserved c k }) (show 16 * e + 0 ≠ 16 * a + k by omega)
        rw [State.slotFree_congr hsame hzero, hsame]
        simp only [List.mem_cons, hea, false_or]
    · rw [if_neg hfree]
      by_cases hea : e = a
      · subst hea; simp [hfree]
      · simp only [List.mem_cons, hea, false_or]

theorem reserve_mem (c k : Nat) (l : List Nat) (s : State) : (l.foldl (State.reserve c k) s).mem = s.mem :=
  foldl_mem (fun s e => by
    unfold State.reserve
    split <;> rfl) l s

section
variable {g : Guard} {n : GangN} {c k : Nat} {s : State} (hwait : (s.slotAt c k).wait = some .gang)
  (hunit : (s.slotAt c k).unit = .instr (.gang g n))
include hwait hunit

theorem execGangFormation_eq : execGangFormation c k s =
    if (gangOthers (gangSize n) c).all (fun e =>
        (((gangOthers (gangSize n) c).foldl (State.reserve c k) s).slotAt e k).occ == .reserved c k) then
      .next (((gangOthers (gangSize n) c).foldl (State.reserve c k) s).modSlot c k fun x => { x with wait := none })
    else .next ((gangOthers (gangSize n) c).foldl (State.reserve c k) s) := by
  unfold execGangFormation
  dsimp only
  rw [hwait, hunit]
  rfl

variable (hk : k < 16)
include hk

theorem execGangFormation_all (h : ∀ e ∈ gangOthers (gangSize n) c, s.slotFree e k = true ∨ (s.slotAt e k).occ = .reserved c k) :
    ∃ t, exec (.gangFormation c k) s = .next t ∧ t.slotAt c k = { s.slotAt c k with wait := none } ∧ t.mem = s.mem ∧
      ∀ e ∈ gangOthers (gangSize n) c, t.slotAt e k = { s.slotAt e k with occ := .reserved c k } := by
  have hslot : ∀ e ∈ gangOthers (gangSize n) c, ((gangOthers (gangSize n) c).foldl (State.reserve c k) s).slotAt e k =
      { s.slotAt e k with occ := .reserved c k } := by
    intro e he
    rw [reserve_foldl hk]
    split
    · rfl
    · next hno =>
      rw [← (h e he).resolve_left fun hfree => hno ⟨he, hfree⟩]
  have hself : ((gangOthers (gangSize n) c).foldl (State.reserve c k) s).slotAt c k = s.slotAt c k := by
    rw [reserve_foldl hk, if_neg fun hc => (mem_gangOthers hc.1).1 rfl]
  refine ⟨_, (execGangFormation_eq hwait hunit).trans (if_pos ?_), ?_, reserve_mem .., fun e he => ?_⟩
  · rw [List.all_eq_true]
    intro e he
    rw [hslot e he]
    exact beq_self_eq_true _
  · rw [State.slotAt_modSlot, hself]
  · rw [State.slotAt_modSlot_other _ _ (by have := (mem_gangOthers he).1; omega), hslot e he]

theorem execGangFormation_some (h : ∃ e ∈ gangOthers (gangSize n) c, s.slotFree e k = false ∧ (s.slotAt e k).occ ≠ .reserved c k) :
    ∃ t, exec (.gangFormation c k) s = .next t ∧ t.slotAt c k = s.slotAt c k ∧ t.mem = s.mem ∧
      ∀ e ∈ gangOthers (gangSize n) c, s.slotFree e k = true → (t.slotAt e k).occ = .reserved c k := by
  refine ⟨_, (execGangFormation_eq hwait hunit).trans (if_neg ?_), ?_, reserve_mem .., fun e he hfree => ?_⟩
  · obtain ⟨e, he, hbusy, hocc⟩ := h
    rw [List.all_eq_true]
    intro hall
    have hres := beq_iff_eq.mp (hall e he)
    rw [reserve_foldl hk, if_neg (by simp [hbusy])] at hres
    exact hocc hres
  · rw [reserve_foldl hk, if_neg fun hc => (mem_gangOthers hc.1).1 rfl]
  · rw [reserve_foldl hk, if_pos ⟨he, hfree⟩]

end

/-! ### GANG forms its gang -/

/-- A slot holds a follower of a gang that a context forms, at a place of the program, in a lane. -/
structure Follows (x : Ctx) (pc : Word) (lane : Nat) (y : Slot) : Prop where
  occ : y.occ = .running
  gpr : y.ctx.gpr = x.gpr
  pred : y.ctx.pred = x.pred
  pc : y.ctx.pc = pc
  gang : y.ctx.gang = true
  leader : y.ctx.leader = false
  lane : y.ctx.lane = lane
  future : y.ctx.future = 0

/-- The leader's context once its gang of `n` stands. -/
def Ctx.leading (x : Ctx) (n lane : Nat) : Ctx := { x with gang := true, pinv := true, leader := true, lane, gsz := bitLen (n - 1) }

/-- The context of a gang's leader in the current slot, and the slot then. -/
def State.ledCtx (s : State) (n : Nat) : Ctx := s.cur.ctx.leading n (s.core - s.core / n * n)
def State.led (s : State) (n : Nat) : State := s.modCur fun y =>
  { y with ctx := s.ledCtx n, gseq := 0, gskip := 1, chunk := { y.chunk with formed := true } }

/-- A follower, of a gang whose group of cores begins at `base`, is placed in slot `k` of core `e`. -/
def State.follow (k base : Nat) (x : Ctx) (pc : Word) (s : State) (e : Nat) : State :=
  (s.newId.2.place e k
    { x with pc, leader := false, lane := e - base, strandId := s.newId.1, future := 0, pinq := false, pins := false,
             intrap := false, fseq := none } 0 0).modSlot e k fun z => { z with formedBy := some (16 * s.core + k) }

theorem State.formGang_eq (s : State) (n : Nat) : s.formGang n =
    (gangOthers n s.core).foldl (State.follow s.slot (s.core / n * n) (s.ledCtx n) s.cur.nextPc) (s.led n) := by
  unfold State.formGang
  rfl

section
variable (k base : Nat) {x : Ctx} (pc : Word) (s : State)

theorem State.follow_same (e : Nat) (hx : x.gang = true) : Follows x pc (e - base) ((s.follow k base x pc e).slotAt e k) := by
  rw [State.follow, State.slotAt_modSlot, State.place, State.slotAt_setSlot]
  exact ⟨rfl, rfl, rfl, rfl, hx, rfl, rfl, rfl⟩

theorem State.follow_other {e d : Nat} (h : d ≠ e) : (s.follow k base x pc e).slotAt d k = s.slotAt d k := by
  rw [State.follow, State.slotAt_modSlot_other _ _ (by omega), State.place, State.slotAt_setSlot_other _ _ (by omega)]
  rfl

/-- Memory, and which slot is current, stay. -/
def State.SamePlace (s t : State) : Prop := t.mem = s.mem ∧ t.core = s.core ∧ t.slot = s.slot

theorem State.follow_rest (l : List Nat) : s.SamePlace (l.foldl (State.follow k base x pc) s) :=
  foldl_related (R := State.SamePlace) (fun _ => ⟨rfl, rfl, rfl⟩)
    (fun ⟨h1, h2, h3⟩ ⟨h1', h2', h3'⟩ => ⟨h1'.trans h1, h2'.trans h2, h3'.trans h3⟩)
    (f := State.follow k base x pc) l (fun _ _ _ => ⟨rfl, rfl, rfl⟩) s

end

theorem State.formGang_rest (s : State) (n : Nat) : s.SamePlace (s.formGang n) := by
  rw [State.formGang_eq]
  exact (s.led n).follow_rest s.slot (s.core / n * n) s.cur.nextPc (gangOthers n s.core)

/-- The leader's slot, and those of its followers. -/
theorem State.formGang_slots (s : State) (n : Nat) : (s.formGang n).cur = (s.led n).cur ∧
    ∀ e ∈ gangOthers n s.core, Follows s.cur.ctx s.cur.nextPc (e % n) ((s.formGang n).slotAt e s.slot) := by
  obtain ⟨-, hcore, hslot⟩ := s.formGang_rest n
  obtain ⟨hin, hout⟩ := foldl_slotAt (k := s.slot) (l := gangOthers n s.core)
    (F := State.follow s.slot (s.core / n * n) (s.ledCtx n) s.cur.nextPc)
    (P := fun e => Follows (s.ledCtx n) s.cur.nextPc (e - s.core / n * n))
    (fun t e _ => t.follow_same s.slot (s.core / n * n) s.cur.nextPc e rfl)
    (fun t a e h => t.follow_other s.slot (s.core / n * n) s.cur.nextPc h) (s.led n)
  rw [← State.formGang_eq] at hin hout
  refine ⟨?_, fun e he => ?_⟩
  · rw [State.cur, hcore, hslot]
    exact hout s.core fun h => (mem_gangOthers h).1 rfl
  · obtain ⟨hocc, hgpr, hpred, hpc, hgang, hleader, hlane, hfut⟩ := hin e he
    exact ⟨hocc, hgpr, hpred, hpc, hgang, hleader, hlane.trans (gangOthers_lane he), hfut⟩

section
variable {g : Guard} {n : GangN} {s : State} (hs : Strand g s)

theorem Slot.nextPc_of_alone {x y : Slot} (hpc : y.ctx.pc = x.ctx.pc) (hx : x.isFollower = false) (hy : y.isFollower = false)
    (hd : y.dictWord = x.dictWord) : y.nextPc = x.nextPc := by
  rw [Slot.nextPc, Slot.nextPc, Slot.unitLen, Slot.unitLen, hpc, hx, hy, hd, if_neg Bool.false_ne_true, if_neg Bool.false_ne_true]

theorem Slot.dictWord_opened (x : Slot) (b : Bool) : (x.opened b).dictWord = x.dictWord := by
  unfold Slot.opened
  split <;> rfl
theorem Slot.releasing_opened (x : Slot) (b : Bool) : (x.opened b).releasing = x.releasing := by
  unfold Slot.opened
  split <;> rfl
theorem Slot.gskip_opened (x : Slot) (b : Bool) : (x.opened b).gskip = x.gskip := by
  unfold Slot.opened
  split <;> rfl
theorem Slot.gseq_opened (x : Slot) (b : Bool) : (x.opened b).gseq = x.gseq := by
  unfold Slot.opened
  split <;> rfl

/-- What GANG does once its guard holds. -/
def gangBody (n : GangN) : M (Option Word) := do
  let s ← get
  let x := s.cur.ctx
  if x.gang then trap 0xA 0 0
  let others := gangOthers (gangSize n) s.core
  if !others.all (fun c => s.ownCore x c) || !s.ownCore x s.core then trap 0xA 1 0
  if !others.all (fun c => (s.slotAt c s.slot).occ == .reserved s.core s.slot) then waitFor .gang
  modify fun s => s.formGang (gangSize n)
  return none

theorem execGang_eq (s : State) : exec (.gang g n) s = issueStrand g (gangBody n) s := rfl

/-- An instruction of a strand that stands alone finds its slot as it was, but for its chunk. -/
theorem State.openChunk_ctx (s : State) : s.openChunk.cur.ctx = s.cur.ctx := by rw [State.cur_openChunk, Slot.ctx_opened]

/-- A member that is not to leave its gang stays in it as it retires. -/
theorem Slot.settleRelease_of_staying {x : Slot} (h : x.releasing = false) : x.settleRelease = x := by
  unfold Slot.settleRelease
  rw [h, Bool.false_and, if_neg Bool.false_ne_true]

/-- What a leader hands out as it retires. -/
def Slot.given (x : Slot) (t : Option Word) : GangEntry :=
  { unit := x.unit, code := x.dictWord.isSome, pc := x.ctx.pc
    next := match if x.isFollower then x.gbuf.head? else none with | some e => e.next | none => t.getD x.nextPc
    seq := x.gseq + 1, faulted := false }

theorem State.retire_eq (t : Option Word) (hc : s.isCtrl = false) : s.retire t =
    (if s.cur.ctx.gang && s.cur.ctx.leader && s.cur.gskip == 0 then s.handOut (s.cur.given t) s.cur.releasing else s).setCur
      (s.cur.passed t).settleRelease := by
  unfold State.retire
  simp only [hc, Bool.false_eq_true, if_false]
  rfl

/-- One that hands nothing out retires in its own slot. -/
theorem State.retire_of_kept {t : Option Word} (hc : s.isCtrl = false)
    (h : (s.cur.ctx.gang && s.cur.ctx.leader && s.cur.gskip == 0) = false) : s.retire t = s.setCur (s.cur.passed t).settleRelease := by
  rw [State.retire_eq t hc, if_neg (by rw [h]; exact Bool.false_ne_true)]

section
variable (hg : s.cur.ctx.gang = false)
include hg

/-- The new leader past its GANG. -/
theorem State.ctx_led_passed {n : Nat} : ((s.openChunk.led n).cur.passed none).ctx =
    { s.cur.ctx.leading n (s.core % n) with pc := s.cur.nextPc } := by
  have hlane : s.core - s.core / n * n = s.core % n := by
    have := Nat.mod_add_div s.core n
    rw [Nat.mul_comm] at this
    omega
  have hx : (s.openChunk.led n).cur.ctx = s.cur.ctx.leading n (s.core % n) := by
    rw [State.led, State.cur_modCur, State.ledCtx, State.openChunk_ctx, State.openChunk_core, hlane]
  have hpc : (s.openChunk.led n).cur.nextPc = s.cur.nextPc :=
    Slot.nextPc_of_alone (by rw [hx]; rfl) (by rw [Slot.isFollower, hg, Bool.false_and]) (by rw [Slot.isFollower, hx]; rfl)
      (by rw [State.led, State.cur_modCur, State.cur_openChunk]; exact s.cur.dictWord_opened _)
  have hlead : (s.openChunk.led n).cur.isFollower = false := by rw [Slot.isFollower, hx]; rfl
  simp only [Slot.passed, hlead, Bool.false_eq_true, if_false, Option.getD_none, hpc, hx]

theorem isFollower_of_alone : s.cur.isFollower = false := by rw [Slot.isFollower, hg, Bool.false_and]

section
variable (hown : s.openChunk.ownCore s.cur.ctx s.core = true)
  (howns : ∀ c ∈ gangOthers (gangSize n) s.core, s.openChunk.ownCore s.cur.ctx c = true)
include hown howns

/-- Past its checks a GANG asks whether the slots it needs are reserved. -/
theorem gangBody_run : (gangBody n).run s.openChunk =
    if (gangOthers (gangSize n) s.core).all (fun c => (s.slotAt c s.slot).occ == .reserved s.core s.slot) then
      .ok (none, s.openChunk.formGang (gangSize n))
    else .error (.wait .gang s.openChunk.cur.chunk.takes) := by
  have hall : (gangOthers (gangSize n) s.core).all (fun c => s.openChunk.ownCore s.cur.ctx c) = true := List.all_eq_true.mpr howns
  have hocc : (gangOthers (gangSize n) s.core).all (fun c => (s.openChunk.slotAt c s.slot).occ == .reserved s.core s.slot) =
      (gangOthers (gangSize n) s.core).all (fun c => (s.slotAt c s.slot).occ == .reserved s.core s.slot) := by
    rw [Bool.eq_iff_iff, List.all_eq_true, List.all_eq_true]
    exact forall₂_congr fun c hc => by rw [State.slotAt_openChunk_other (mem_gangOthers hc).1]
  unfold gangBody
  rw [M.run_bind_ok (M.run_get _)]
  simp only [State.openChunk_ctx, State.openChunk_core, State.openChunk_slot, hg, hall, hown, hocc]
  cases (gangOthers (gangSize n) s.core).all fun c => (s.slotAt c s.slot).occ == .reserved s.core s.slot <;> rfl

include hs

theorem execGang_waits (hbusy : ∃ c ∈ gangOthers (gangSize n) s.core, (s.slotAt c s.slot).occ ≠ .reserved s.core s.slot) :
    ∃ t, exec (.gang g n) s = .next t ∧ t.cur.wait = some .gang ∧ t.cur.ctx = s.cur.ctx := by
  obtain ⟨c, hc, hocc⟩ := hbusy
  refine waits_unpinned hs rfl (fun _ _ => nofun) ((gangBody_run hg hown howns).trans (if_neg fun hall => hocc ?_)) rfl
  exact beq_iff_eq.mp (List.all_eq_true.mp hall c hc)

/-- The gang stands: its leader goes on at the next unit, with followers in the other cores' slots. -/
theorem execGang_forms (hrel : s.cur.releasing = false)
    (hres : ∀ c ∈ gangOthers (gangSize n) s.core, (s.slotAt c s.slot).occ = .reserved s.core s.slot) :
    ∃ t, exec (.gang g n) s = .next t ∧
      t.cur.ctx = { s.cur.ctx.leading (gangSize n) (s.core % gangSize n) with pc := s.cur.nextPc } ∧ t.mem = s.mem ∧
      ∀ e ∈ gangOthers (gangSize n) s.core, Follows s.cur.ctx s.cur.nextPc (e % gangSize n) (t.slotAt e s.slot) := by
  obtain ⟨hmem, hcore, hslot⟩ := s.openChunk.formGang_rest (gangSize n)
  obtain ⟨hcur, hfollows⟩ := s.openChunk.formGang_slots (gangSize n)
  have hctrl : (s.openChunk.formGang (gangSize n)).isCtrl = false := by
    rw [State.isCtrl, hcore, ← State.isCtrl, State.openChunk_isCtrl, hs.strand]
  have hpc : s.openChunk.cur.nextPc = s.cur.nextPc := by rw [State.cur_openChunk, Slot.nextPc_opened]
  have hrun := (gangBody_run hg hown howns).trans (if_pos (List.all_eq_true.mpr fun c hc => beq_iff_eq.mpr (hres c hc)))
  simp only [State.openChunk_core, State.openChunk_slot, State.openChunk_mem, State.openChunk_ctx, hpc] at hmem hcore hslot hcur hfollows
  refine ⟨_, issueStrand_ok hs.strand hs.guard hrun, ?_, ?_, fun e he => ?_⟩
  · have hrel' : ((s.openChunk.led (gangSize n)).cur.passed none).releasing = false := by
      rw [State.led, State.cur_modCur, State.cur_openChunk]
      exact (s.cur.releasing_opened s.isCtrl).trans hrel
    rw [State.cur_retire _ _ hctrl, hcur, Slot.settleRelease_of_staying hrel', State.ctx_led_passed hg]
  · rw [(State.retire_curOnly ..).mem, hmem]
  · have hkeep : ((s.openChunk.formGang (gangSize n)).cur.ctx.gang && (s.openChunk.formGang (gangSize n)).cur.ctx.leader &&
        (s.openChunk.formGang (gangSize n)).cur.gskip == 0) = false := by
      rw [hcur, State.led, State.cur_modCur]
      rfl
    rw [State.retire_of_kept hctrl hkeep, State.slotAt_setCur_other _ _ (by rw [hcore, hslot]; have := (mem_gangOthers he).1; omega)]
    exact hfollows e he

end

end

theorem execGang_outside (ht : TakesTraps s) (hg : g.holds s.cur.ctx.pred = true)
    (hout : ∃ c ∈ gangOthers (gangSize n) s.core, s.openChunk.ownCore s.cur.ctx c = false) :
    Traps (.gang g n) s 0xA 1 0 s.cur.ctx.pc := by
  obtain ⟨c, hc, hno⟩ := hout
  have hall : (gangOthers (gangSize n) s.core).all (fun c => s.openChunk.ownCore s.cur.ctx c) = false :=
    List.all_eq_false.mpr ⟨c, hc, by rw [hno]; exact Bool.false_ne_true⟩
  refine traps_of_stop (issueStrand_strand ⟨ht.strand, hg⟩ _) hg ht ?_ (.inl (by decide)) (by decide)
  rw [M.run_bind_ok (M.run_get _)]
  simp only [State.openChunk_ctx, State.openChunk_core, ht.alone, hall]
  rfl

end

/-! ### UNGANG -/

/-- The leader asks for the release of its gang. -/
def State.releases (s : State) : State := s.modCur fun x => { x with releasing := true }

/-- A member marked for release, with nothing left to execute, leaves its gang. -/
theorem Slot.settleRelease_of_leaving {x : Slot} (h : x.releasing = true) (hb : x.gbuf = []) : x.settleRelease.ctx = x.ctx.ungang := by
  unfold Slot.settleRelease
  rw [h, hb]
  rfl

/-- A released follower stays so as others are. -/
theorem State.handSteps_releasing {e : GangEntry} {d k : Nat} (l : List Nat) (s : State) (h : (s.slotAt d k).releasing = true) :
    ((l.foldl (State.handStep e true) s).slotAt d k).releasing = true := by
  induction l generalizing s with
  | nil => exact h
  | cons c l ih =>
    refine ih _ ?_
    unfold State.handStep
    dsimp only
    split
    · by_cases hk : 16 * d + k = 16 * c + s.slot
      · rw [State.slotAt_congr _ hk, State.slotAt_setSlot]
        exact Bool.or_true _
      · rw [State.slotAt_setSlot_other _ _ hk, h]
    · exact h

theorem State.handStep_releases {s : State} {e : GangEntry} {d : Nat} (hne : d ≠ s.core)
    (hocc : (s.slotAt d s.slot).occ = .running) (hf : (s.slotAt d s.slot).isFollower = true) (hseq : (s.slotAt d s.slot).gseq < e.seq) :
    ((s.handStep e true d).slotAt d s.slot).releasing = true := by
  unfold State.handStep
  dsimp only
  rw [if_pos (by simp [hne, hocc, hf, hseq]), State.slotAt_setSlot]
  exact Bool.or_true _

/-- Every running follower that has not executed an instruction is released with it. -/
theorem State.handOut_releases {s : State} {e : GangEntry} {d : Nat} (hd : d ∈ s.cur.ctx.gangCores s.core) (hne : d ≠ s.core)
    (hocc : (s.slotAt d s.slot).occ = .running) (hf : (s.slotAt d s.slot).isFollower = true) (hseq : (s.slotAt d s.slot).gseq < e.seq) :
    ((s.handOut e true).slotAt d s.slot).releasing = true := by
  obtain ⟨l, r, hlist⟩ := List.append_of_mem hd
  rw [State.handOut_eq, hlist, List.foldl_append, List.foldl_cons]
  have hbefore := State.handSteps_handsOut e true l s
  have hbuf := hbefore.others d s.slot
  refine State.handSteps_releasing r _ ?_
  rw [← hbefore.slot]
  refine State.handStep_releases ?_ ?_ ?_ ?_
  · rw [hbefore.core]; exact hne
  all_goals rw [hbefore.slot, hbuf]
  · exact hocc
  · exact hf
  · exact hseq

section
variable {g : Guard} {s : State} (hs : Strand g s)
include hs

theorem execUngang_passes (h : (s.cur.ctx.gang && s.cur.ctx.leader) = false) : exec (.ungang g) s = .next (s.openChunk.retire none) := by
  refine issueStrand_ok hs.strand hs.guard ?_
  rw [M.run_bind_ok (M.run_get _), M.run_bind_ok (M.run_get _), State.openChunk_ctx, h]
  rfl

/-- A follower whose buffer holds the UNGANG alone, once it is released, leaves with it. -/
theorem execUngang_follower {e : GangEntry} (hf : s.cur.isFollower = true) (hb : s.cur.gbuf = [e]) (hr : s.cur.releasing = true) :
    (s.openChunk.retire none).cur.ctx.gang = false ∧ (s.openChunk.retire none).cur.ctx.pinv = s.cur.ctx.pinv := by
  have hf' : s.openChunk.cur.isFollower = true := by rw [Slot.isFollower, State.openChunk_ctx]; exact hf
  have hleave : (s.openChunk.retire none).cur.ctx = (s.openChunk.cur.passed none).ctx.ungang := by
    rw [State.cur_retire _ _ (by rw [State.openChunk_isCtrl, hs.strand])]
    refine Slot.settleRelease_of_leaving ?_ ?_
    · rw [State.cur_openChunk]
      exact (s.cur.releasing_opened _).trans hr
    · change (if s.openChunk.cur.isFollower then s.openChunk.cur.gbuf.drop 1 else s.openChunk.cur.gbuf) = []
      rw [hf', State.cur_openChunk, Slot.gbuf_opened, hb]
      rfl
  rw [hleave]
  refine ⟨rfl, ?_⟩
  change s.openChunk.cur.ctx.pinv = _
  rw [State.openChunk_ctx]

section
variable (hg : s.cur.ctx.gang = true) (hl : s.cur.ctx.leader = true)
include hg hl

theorem execUngang_leads : exec (.ungang g) s = .next (s.openChunk.releases.retire none) := by
  refine issueStrand_ok hs.strand hs.guard ?_
  rw [M.run_bind_ok (M.run_get _), M.run_bind_ok (M.run_get _), State.openChunk_ctx, hg, hl]
  rfl

/-- A leader with nothing in its buffer leaves at once, its pin kept. -/
theorem releases_leaves (hb : s.cur.gbuf = []) : (s.openChunk.releases.retire none).cur.ctx.gang = false ∧
    (s.openChunk.releases.retire none).cur.ctx.leader = false ∧
    (s.openChunk.releases.retire none).cur.ctx.pinv = s.cur.ctx.pinv := by
  have hcur : s.openChunk.releases.cur = { s.cur.opened s.isCtrl with releasing := true } := by
    rw [State.releases, State.cur_modCur, State.cur_openChunk]
  have hctx : s.openChunk.releases.cur.ctx = s.cur.ctx := by rw [hcur]; exact s.cur.ctx_opened _
  have hleave : (s.openChunk.releases.retire none).cur.ctx = (s.openChunk.releases.cur.passed none).ctx.ungang := by
    rw [State.cur_retire _ _ (by exact s.openChunk_isCtrl.trans hs.strand)]
    refine Slot.settleRelease_of_leaving ?_ ?_
    · rw [hcur]
      rfl
    · change (if s.openChunk.releases.cur.isFollower then _ else s.openChunk.releases.cur.gbuf) = []
      rw [Slot.isFollower, hctx, hg, hl, hcur]
      exact (s.cur.gbuf_opened _).trans hb
  rw [hleave]
  refine ⟨rfl, rfl, ?_⟩
  change s.openChunk.releases.cur.ctx.pinv = _
  rw [hctx]

/-- It releases the followers that have come no further. -/
theorem releases_followers {d : Nat} (hd : d ∈ s.cur.ctx.gangCores s.core) (hne : d ≠ s.core) (hskip : s.cur.gskip = 0)
    (hocc : (s.slotAt d s.slot).occ = .running) (hf : (s.slotAt d s.slot).isFollower = true)
    (hseq : (s.slotAt d s.slot).gseq ≤ s.cur.gseq) : ((s.openChunk.releases.retire none).slotAt d s.slot).releasing = true := by
  have hcur : s.openChunk.releases.cur = { s.cur.opened s.isCtrl with releasing := true } := by
    rw [State.releases, State.cur_modCur, State.cur_openChunk]
  have hctx : s.openChunk.releases.cur.ctx = s.cur.ctx := by rw [hcur]; exact s.cur.ctx_opened _
  have hslot : s.openChunk.releases.slot = s.slot := s.openChunk_slot
  have hcore : s.openChunk.releases.core = s.core := s.openChunk_core
  have hother : s.openChunk.releases.slotAt d s.slot = s.slotAt d s.slot := by
    rw [State.releases, State.modCur, State.slotAt_setCur_other _ _ (by rw [State.openChunk_core, State.openChunk_slot]; omega),
      State.slotAt_openChunk_other hne]
  have hgives : (s.openChunk.releases.cur.ctx.gang && s.openChunk.releases.cur.ctx.leader && s.openChunk.releases.cur.gskip == 0) = true := by
    rw [hctx, hg, hl, hcur]
    exact beq_iff_eq.mpr ((s.cur.gskip_opened _).trans hskip)
  have hrel : s.openChunk.releases.cur.releasing = true := by rw [hcur]
  have hq : s.openChunk.releases.cur.gseq = s.cur.gseq := by rw [hcur]; exact s.cur.gseq_opened _
  rw [State.retire_eq _ (by exact s.openChunk_isCtrl.trans hs.strand), if_pos hgives, hrel]
  have hgiven := State.handOut_releases (s := s.openChunk.releases) (e := s.openChunk.releases.cur.given none) (d := d)
    (by rw [hctx, hcore]; exact hd) (by rw [hcore]; exact hne) (by rw [hslot, hother]; exact hocc)
    (by rw [hslot, hother]; exact hf) (by rw [hslot, hother, Slot.given, hq]; exact Nat.lt_succ_of_le hseq)
  rw [hslot] at hgiven
  have hho := s.openChunk.releases.handOut_handsOut (s.openChunk.releases.cur.given none) true
  rw [State.slotAt_setCur_other _ _ (by rw [hho.core, hho.slot, hcore, hslot]; omega)]
  exact hgiven

end

end

/-- Settles O37: a gang forms by a fold over its other cores, whose slots differ; a leader that retires hands its release out by another. -/
theorem gangResults : Obligations.GangResults := by
  unfold Obligations.GangResults
  refine ⟨fun g n s hs => ⟨fun hg hown howns => ⟨execGang_waits hs hg hown howns, fun _ _ hrel hres => ?_⟩,
    fun ht hout => execGang_outside ht hs.guard hout, fun hg => execUngang_passes hs (by rw [hg, Bool.false_and]),
    fun hg hl => ⟨execUngang_leads hs hg hl, _, execUngang_leads hs hg hl, releases_leaves hs hg hl,
      fun d hd hne hskip hocc hf hseq => releases_followers hs hg hl hd hne hskip hocc hf hseq⟩,
    fun hf => ?_⟩, ?_⟩
  · obtain ⟨t, hrun, hctx, hmem, hfollows⟩ := execGang_forms hs hg hown howns hrel hres
    refine ⟨t, hrun, ?_, hmem, fun e he => ?_⟩
    · rw [hctx]
      cases n <;> rfl
    · obtain ⟨hocc, hgpr, hpred, hpc, hgang, hleader, hlane, hfut⟩ := hfollows e he
      exact ⟨hocc, hgpr, hpred, hpc, hgang, hleader, hlane, hfut⟩
  · have hpass := execUngang_passes hs (by rw [Slot.isFollower, Bool.and_eq_true, Bool.not_eq_true'] at hf; rw [hf.2, Bool.and_false])
    exact ⟨hpass, fun e hb hr => ⟨_, hpass, execUngang_follower hs hf hb hr⟩⟩
  · rintro g n c k s x _ hk rfl hwait hunit
    exact ⟨execGangFormation_all hwait hunit hk, execGangFormation_some hwait hunit hk⟩

end Sys2Proof.Machine

/-! O45. A chunk's discard in a state whose table of slots lists one slot twice. -/

namespace Sys2Proof.Machine

/-- A slot whose open chunk formed a gang, began at PC 4, and conflicts. -/
def formingSlot : Slot :=
  { Slot.empty with
    chunk := { Chunk.none with isOpen := true, conflict := true, formed := true, snapCtx := { Chunk.none.snapCtx with pc := 4 } } }
/-- A table may list a slot twice: its first entry is the one that is read, and slot 0 of core 0 here is bound to no gang. Its second entry
is that of a follower of the gang that slot 0 of core 0 formed. -/
def twiceListed : State := { State.reset with slots := [(0, formingSlot), (0, { Slot.empty with formedBy := some 0 })] }

/-- Refutes O45: the statement takes the table of slots in any form. Where a slot stands in it twice, the discard of its chunk, which undoes
the gang that it formed, finds the second entry as a follower of that gang, and clears the slot before its chunk's start is restored: PC is
then that of no chunk, 0, and not the 4 at which the chunk began. -/
theorem not_commitTakesEffect : ¬ Obligations.CommitTakesEffect := by
  unfold Obligations.CommitTakesEffect
  intro h
  obtain ⟨-, hdiscard, -⟩ := h 0 0 twiceListed formingSlot (by decide) (by decide) rfl
  obtain ⟨t, hrun, -, -, -, hpc, -⟩ := hdiscard rfl (.inl rfl) nofun
  have hdone : exec (.chunkCommit 0 0) twiceListed = .next (twiceListed.discardChunk 0 0 false) := by rfl
  obtain rfl : twiceListed.discardChunk 0 0 false = t := by simpa using hdone.symm.trans hrun
  have hzero : ((twiceListed.discardChunk 0 0 false).slotAt 0 0).ctx.pc = 0 := by rfl
  exact absurd (hzero.symm.trans hpc) (by decide)

end Sys2Proof.Machine

/-! SUPPORT, O46. Reading an instruction's bytes leaves slots and launches alone; dictionaries, steals, arrivals, accesses and walks. -/

namespace Sys2Proof.Machine

/-! ### What reading through the caches leaves -/

/-- Slots and launches stay. -/
structure SlotsStay (s t : State) : Prop where
  slots : t.slots = s.slots
  launches : t.launches = s.launches

namespace SlotsStay
variable {s t u : State}

theorem refl (s : State) : SlotsStay s s := ⟨rfl, rfl⟩
theorem trans (h : SlotsStay s t) (h' : SlotsStay t u) : SlotsStay s u := ⟨h'.slots.trans h.slots, h'.launches.trans h.launches⟩
theorem foldl {α : Type} {f : State → α → State} (h : ∀ s x, SlotsStay s (f s x)) (l : List α) (s : State) : SlotsStay s (l.foldl f s) :=
  foldl_related refl trans l (fun s x _ => h s x) s

theorem slotAt (h : SlotsStay s t) (c k : Nat) : t.slotAt c k = s.slotAt c k := by rw [State.slotAt, State.slotAt, h.slots]
theorem launchOf (h : SlotsStay s t) (x : Ctx) : t.launchOf x = s.launchOf x := by
  rw [State.launchOf, State.launchOf, State.launch?, State.launch?, h.launches]

/-- An error that is met leaves the list of those still to be met. -/
theorem of_gone {l : List Flaw} (h : SlotsStay { s with flaws := l } t) : SlotsStay s t := ⟨h.slots, h.launches⟩

theorem countFrame (s : State) (pa : Nat) (va : Option Nat) (lost : Bool) : SlotsStay s (s.countFrame pa va lost) := by
  unfold State.countFrame
  dsimp only
  split <;> exact ⟨rfl, rfl⟩

theorem ctrlLost (s : State) (u : Nat) : SlotsStay s (s.ctrlLost u) := by
  unfold State.ctrlLost
  dsimp only
  split <;> exact ⟨rfl, rfl⟩

theorem dropSector (s : State) (f : Flaw) : SlotsStay s (s.dropSector f) := by
  unfold State.dropSector
  dsimp only
  split <;> exact ⟨rfl, rfl⟩

theorem addPoison (s : State) (u store : Nat) : SlotsStay s (s.addPoison u store) := ⟨rfl, rfl⟩
theorem errAdd (s : State) (hi lo : Nat) : SlotsStay s (s.errAdd hi lo) := ⟨rfl, rfl⟩

theorem meetFlaw (s : State) (f : Flaw) (va : Option Nat) (copy : Option Bool) : SlotsStay s (s.meetFlaw f va copy) := by
  have hframe (s : State) (p lost : Bool) : SlotsStay s (if p then s.countFrame f.unit va lost else s) := by
    split
    · exact countFrame ..
    · exact .refl s
  unfold State.meetFlaw
  dsimp only
  split
  · exact ⟨rfl, rfl⟩
  · split
    · split
      · exact of_gone (((hframe _ _ _).trans (errAdd ..)).trans (ctrlLost ..))
      · split
        · exact of_gone ((hframe _ _ _).trans (errAdd ..))
        · exact of_gone (((hframe _ _ _).trans (errAdd ..)).trans (addPoison ..))
    · exact of_gone ((dropSector ..).trans (errAdd ..))
  · split
    · exact errAdd ..
    · exact of_gone ((hframe _ _ _).trans (errAdd ..))
  · exact of_gone ((hframe _ _ _).trans (errAdd ..))

theorem found (s : State) (f : Flaw) (va : Option Nat) : SlotsStay s (s.found f va) := meetFlaw ..

theorem probe (s : State) (va : Option Nat) (sa n : Nat) : SlotsStay s (s.probe va sa n).2 := foldl (fun s f => found s f va) _ s

theorem noteUnit (s : State) (u : Nat) (va : Option Nat) (cluster : Nat) : SlotsStay s (s.noteUnit u va cluster) := by
  unfold State.noteUnit
  dsimp only
  split <;> exact ⟨rfl, rfl⟩

theorem tableProbe (s : State) (sa n : Nat) : SlotsStay s (s.tableProbe sa n) := by
  have h := probe s none sa n
  unfold State.tableProbe
  split
  next u t e => rw [e] at h; exact h.trans (noteUnit ..)
  next t e => rw [e] at h; exact h

theorem walkProbe (s : State) (va : Nat) : SlotsStay s (s.walkProbe va) := foldl (fun s a => tableProbe s a 8) _ s

theorem evictProbe (s : State) (store cluster a : Nat) : SlotsStay s (s.evictProbe store cluster a) := by
  have h (l : List Flaw) := foldl (fun s f => meetFlaw s f none (some true)) l s
  unfold State.evictProbe
  dsimp only
  split
  · exact (h _).trans ⟨rfl, rfl⟩
  · exact h _

theorem ite {p : Prop} [Decidable p] (h : SlotsStay s t) (h' : SlotsStay s u) : SlotsStay s (if p then t else u) := by
  split
  · exact h
  · exact h'

theorem freshCopy (s : State) (store a : Nat) : SlotsStay s (s.freshCopy store a) := ⟨rfl, rfl⟩

theorem l2Back (s : State) (y : L2Line) : SlotsStay s (s.l2Back y) :=
  foldl (fun s i => ite ((evictProbe s 1 0xFFFF (256 * y.line + 128 * i)).trans (freshCopy _ 0 (256 * y.line + 128 * i))) (.refl s)) _ s

theorem l2Put (s : State) (pa : Nat) (dirty : Bool) : SlotsStay s (s.l2Put pa dirty) := by
  have hfresh (t : State) (p : Bool) : SlotsStay t (if p then t else t.freshCopy 1 pa) := ite (.refl t) ⟨rfl, rfl⟩
  unfold State.l2Put
  dsimp only
  cases l2Evicted (s.dieAt (pa / 2 ^ 37)).l2 (pa / 256) with
  | some y => exact ((l2Back s y).trans (hfresh _ _)).trans ⟨rfl, rfl⟩
  | none => exact (hfresh s _).trans ⟨rfl, rfl⟩

theorem hotCount (s : State) (pa : Nat) (va : Option Nat) (die : Nat) : SlotsStay s (s.hotCount pa va die) := by
  unfold State.hotCount
  exact ite ⟨rfl, rfl⟩ (ite (.refl s) ⟨rfl, rfl⟩)

theorem fillProbe (s : State) (va : Option Nat) (pa : Nat) : SlotsStay s (s.fillProbe va pa) := by
  have hsecond := fun l => ite (p := s.inSecond pa) (foldl (fun s f => found s f va) l s) (.refl s)
  exact ite (hsecond _) ((hsecond _).trans (foldl (fun s f => meetFlaw s f va (some true)) _ _))

theorem l2Access (s : State) (pa : Nat) (va : Option Nat) (die : Nat) (dirty : Bool) : SlotsStay s (s.l2Access pa va die dirty) :=
  ((fillProbe s va pa).trans (l2Put _ pa dirty)).trans (hotCount _ pa va die)

theorem icFill (s : State) (core key va pa : Nat) : SlotsStay s (s.icFill core key va pa) := by
  have h := (l2Access s (pa / 128 * 128) (some va) (dieOf core) false).trans (probe _ (some va) (pa / 128 * 128) 128)
  unfold State.icFill
  dsimp only
  generalize (s.l2Access (pa / 128 * 128) (some va) (dieOf core) false).probe (some va) (pa / 128 * 128) 128 = r at h ⊢
  obtain ⟨o, t⟩ := r
  cases o with
  | some u => exact h
  | none => exact h.trans ⟨rfl, rfl⟩

theorem icProbe (s : State) (core key va pa : Nat) : SlotsStay s (s.icProbe core key va pa) :=
  foldl (fun s f => by
    have hfill (t : State) (ht : SlotsStay s t) := ht.trans (icFill t core key va pa)
    exact ite (hfill _ ⟨rfl, rfl⟩) ⟨rfl, rfl⟩) _ s

theorem rightsAt (s : State) (core dom key : Nat) : SlotsStay s (s.rightsAt core dom key).2 := by
  unfold State.rightsAt
  cases (s.coreAt core).plb.find? fun e => e.1 == dom && e.2.1 == key with
  | some e => exact ⟨rfl, rfl⟩
  | none => exact (tableProbe s _ 1).trans ⟨rfl, rfl⟩

theorem checked (s : State) (core dom need key sa : Nat) : SlotsStay s (s.checked core dom need key sa).2 := rightsAt s core dom key

/-- A line that is found in the instruction cache becomes the one used last. -/
theorem icUsed (s : State) (core va : Nat) : SlotsStay s (match s.icFind core va with
    | some l => s.modCore core fun c => { c with icache := l :: c.icache.filter fun y => y != l }
    | none => s) := by
  cases s.icFind core va with
  | some l => exact ⟨rfl, rfl⟩
  | none => exact .refl s

theorem tcFind {x : Xlat} {die va : Nat} (h : s.tcFind die va = some (x, t)) : SlotsStay s t := by
  unfold State.tcFind at h
  split at h <;> cases h
  exact ⟨rfl, rfl⟩

theorem resolveFetch (s : State) (core dom va : Nat) : SlotsStay s (s.resolveFetch core dom va).2 := by
  unfold State.resolveFetch
  cases s.icFind core va with
  | some l => exact ((icProbe s core l.key va _).trans (icUsed _ core va)).trans (checked _ core dom 4 _ _)
  | none =>
    cases h : s.tcFind (dieOf core) va with
    | none => exact .refl s
    | some r =>
      obtain ⟨x, t⟩ := r
      dsimp only
      cases x.peer with
      | some d => exact tcFind h
      | none => exact ((tcFind h).trans (icFill t core _ _ _)).trans (checked _ core dom 4 _ _)

theorem resolveWalk (s : State) (core dom va : Nat) : SlotsStay s (s.resolveWalk core dom va).2 := by
  have h := resolveFetch s core dom va
  unfold State.resolveWalk
  generalize s.resolveFetch core dom va = r at h ⊢
  obtain ⟨res, t⟩ := r
  cases res
  case miss =>
    have hw := h.trans (walkProbe t va)
    dsimp only
    cases (t.walkProbe va).walk va with
    | leaf x =>
      have hfill : SlotsStay (t.walkProbe va) ((t.walkProbe va).tcFill (dieOf core) x) := ⟨rfl, rfl⟩
      exact (hw.trans hfill).trans (resolveFetch ..)
    | absent => exact hw
    | malformed => exact hw
  all_goals exact h

theorem codeAt (s : State) (core va sa n : Nat) : SlotsStay s (s.codeAt core va sa n).2 := by
  unfold State.codeAt
  dsimp only
  cases (s.icFind core va).bind fun l => l.sector va with
  | none => exact .refl s
  | some b =>
    dsimp only
    split <;> exact ⟨rfl, rfl⟩

theorem dictWords (core dom pc n va : Nat) (s : State) : SlotsStay s (s.dictWords core dom pc n va).2 := by
  induction n generalizing va s with
  | zero => exact .refl s
  | succ n ih =>
    have h := resolveWalk s core dom va
    unfold State.dictWords
    split
    · exact .refl s
    · generalize s.resolveWalk core dom va = r at h ⊢
      obtain ⟨res, t⟩ := r
      cases res
      case ok sa =>
        dsimp only
        cases if (t.icFind core va).isSome then none else t.poisonedIn sa 4 with
        | some u => exact h
        | none =>
          have hr := (h.trans (codeAt t core va sa 4)).trans (ih (va + 4) (t.codeAt core va sa 4).2)
          dsimp only
          generalize State.dictWords (t.codeAt core va sa 4).2 core dom pc n (va + 4) = q at hr ⊢
          obtain ⟨out, q⟩ := q
          cases out <;> exact hr
      all_goals exact h

end SlotsStay

end Sys2Proof.Machine

/-! O46. Dictionaries, stealing, arrivals, remote accesses and page walks. -/

namespace Sys2Proof.Machine

/-! ### Dictionary codes -/

section
variable {i : BitVec 10} {s : State} {l : Launch} {w : List (BitVec 32)} (hc : s.isCtrl = false)
  (hl : s.launchOf s.cur.ctx = some l) (hi : i.toNat < l.dcnt)

theorem State.launchOf_openChunk (s : State) (x : Ctx) : s.openChunk.launchOf x = s.launchOf x := by
  rw [State.openChunk_eq, State.launchOf_setCur]

/-- The dictionary that a code finds becomes the one used last, and its word the unit at the code's address. -/
def State.named (s : State) (n : Nat) (d : Nat × List (BitVec 32)) (w : BitVec 32) : State :=
  (s.modCore s.core fun q => { q with dicts := d :: q.dicts.filter fun e => e.1 != n }).modCur fun x => { x with dictWord := some w }

include hc hl hi

theorem execDictionaryCode_found (hd : (s.coreAt s.core).dicts.find? (fun d => d.1 == l.num) = some (l.num, w))
    (hw : (w.getD i.toNat 0).toNat % 64 ≠ 0x3E) :
    exec (.dictionaryCode i) s = .next (s.openChunk.named l.num (l.num, w) (w.getD i.toNat 0)) := by
  change execDictionaryCode i s = _
  unfold execDictionaryCode
  rw [hc, if_neg Bool.false_ne_true]
  dsimp only
  rw [State.launchOf_openChunk, State.openChunk_ctx, hl]
  simp only [Option.map_some, Option.getD_some, State.openChunk_core, State.coreAt_openChunk, hd]
  rw [if_neg (Nat.not_le.mpr hi), if_neg hw, State.named, State.openChunk_core]

theorem execDictionaryCode_waits (hd : (s.coreAt s.core).dicts.find? (fun d => d.1 == l.num) = none) :
    exec (.dictionaryCode i) s = .next (s.openChunk.waitOn .dictionary) := by
  change execDictionaryCode i s = _
  unfold execDictionaryCode
  rw [hc, if_neg Bool.false_ne_true]
  dsimp only
  rw [State.launchOf_openChunk, State.openChunk_ctx, hl]
  simp only [Option.map_some, Option.getD_some, State.openChunk_core, State.coreAt_openChunk, hd]
  rw [if_neg (Nat.not_le.mpr hi), State.settle, State.keepTakes, List.drop_nil]

end

/-! ### A dictionary's load -/

theorem Table.get_map_key {α : Type} (f : Nat → α → α) (t : Table α) (d : α) (n : Nat) (hd : f n d = d) :
    Table.get d (List.map (fun e => (e.1, f e.1 e.2)) t : Table α) n = f n (t.get d n) := by
  induction t with
  | nil => exact hd.symm
  | cons e t ih =>
    simp only [Table.get, List.map_cons]
    split
    next h => rw [h]
    next => exact ih

theorem State.slotAt_mapSlots {s : State} {f : Nat → Nat → Slot → Slot} {c k : Nat} (hk : k < 16) (hd : f c k Slot.empty = Slot.empty) :
    (s.mapSlots f).slotAt c k = f c k (s.slotAt c k) := by
  have hdiv : (16 * c + k) / 16 = c := by omega
  have hmod : (16 * c + k) % 16 = k := by omega
  have h := Table.get_map_key (fun n => f (n / 16) (n % 16)) s.slots Slot.empty (16 * c + k) (by rw [hdiv, hmod]; exact hd)
  simp only [hdiv, hmod] at h
  exact h

/-- The slots of a core that wait for a launch's dictionary go on. -/
def State.dictReady (s : State) (core n : Nat) : State := s.mapSlots fun c _ y =>
  if c == core && y.wait == some .dictionary && (s.launchOf y.ctx).any (fun z => z.num == n) then { y with wait := none } else y

section
variable {c k : Nat} {s u : State} {l : Launch} {w : List (BitVec 32)} (hl : s.launchOf (s.slotAt c k).ctx = some l)
  (hwait : (s.slotAt c k).wait = some .dictionary)
  (hd : s.dictWords c ((s.slotAt c k).ctx.tdom.toNat % 4096) (s.slotAt c k).ctx.pc.toNat l.dcnt l.dict = (.inr w, u))
include hl hwait hd

theorem execDictionaryLoad_eq : exec (.dictionaryLoad c k) s = .next ((u.modCore c fun q =>
    { q with dicts := ((l.num, w) :: q.dicts.filter fun d => d.1 != l.num).take 2 }).dictReady c l.num) := by
  change execDictionaryLoad c k s = _
  unfold execDictionaryLoad
  dsimp only
  rw [hl]
  dsimp only
  rw [if_neg (not_not.mpr hwait), hd]
  rfl

theorem dictReady_wait (hk : k < 16) (f : CoreSt → CoreSt) : (((u.modCore c f).dictReady c l.num).slotAt c k).wait = none := by
  have hstay := SlotsStay.dictWords c ((s.slotAt c k).ctx.tdom.toNat % 4096) (s.slotAt c k).ctx.pc.toNat l.dcnt l.dict s
  rw [hd] at hstay
  have hx : (u.modCore c f).slotAt c k = s.slotAt c k := (State.slotAt_modCore ..).trans (hstay.slotAt c k)
  have hlaunch : (u.modCore c f).launchOf (s.slotAt c k).ctx = some l := (hstay.launchOf _).trans hl
  rw [State.dictReady, State.slotAt_mapSlots hk (by simp [Slot.empty]), hx, hwait, hlaunch]
  simp

end

/-! ### Stealing and arrivals -/

section
variable {c k : Nat} {s : State}

theorem mem_set {α : Type} (t : Table α) (n : Nat) (x : α) : (n, x) ∈ t.set n x := by
  induction t with
  | nil => exact List.mem_cons_self
  | cons e t ih =>
    unfold Table.set
    split
    · exact List.mem_cons_self
    · split
      · next h => rw [h]; exact List.mem_cons_self
      · exact List.mem_cons_of_mem _ ih

theorem State.slotAt_place (s : State) (c k : Nat) (x : Ctx) (h n : Nat) : ((s.place c k x h n).slotAt c k).occ = .running ∧
    ((s.place c k x h n).slotAt c k).ctx = s.seatCtx c x ∧ ((s.place c k x h n).slotAt c k).predH = h ∧
    ((s.place c k x h n).slotAt c k).predN = n := by
  rw [State.place, State.slotAt_setSlot]
  exact ⟨rfl, rfl, rfl, rfl⟩

theorem State.liveIn_place {x : Ctx} {h n l b : Nat} (hx : x.isOf l b = true) : (s.place c k x h n).liveIn l b = true := by
  have hmem := mem_set s.slots (16 * c + k) { (s.slotAt c k).cleared with occ := .running, ctx := s.seatCtx c x, predH := h, predN := n }
  have hany : (s.place c k x h n).slots.any (fun p => p.2.occ == .running && p.2.ctx.isOf l b) = true :=
    List.any_eq_true.mpr ⟨_, hmem, hx⟩
  rw [State.liveIn, hany, Bool.true_or, Bool.true_or]

theorem State.settleBlock_of_live {l b : Nat} (h : s.liveIn l b = true) : s.settleBlock l b = s := by
  unfold State.settleBlock
  cases s.block? l b with
  | none => rfl
  | some blk =>
    dsimp only
    cases blk.base? with
    | none => rfl
    | some base => exact if_pos (by rw [h, Bool.true_or, Bool.true_or])

/-- A block one of whose strands has just been placed is live: its core keeps it. -/
theorem State.settleAt_place {x : Ctx} {d : Nat} (h : ∀ o, (s.coreAt d).owner = some o → x.isOf o.1 o.2.1 = true) :
    (s.place c k x 0 0).settleAt d = s.place c k x 0 0 := by
  unfold State.settleAt
  cases hb : (s.place c k x 0 0).blockAt d with
  | none => rfl
  | some b =>
    obtain ⟨o, ho, hfind⟩ := Option.bind_eq_some_iff.mp hb
    have hkey := List.find?_some hfind
    simp only [Bool.and_eq_true, beq_iff_eq] at hkey
    have hlive : (s.place c k x 0 0).liveIn b.launch b.index = true := by
      rw [hkey.1, hkey.2]
      exact State.liveIn_place (h o ho)
    exact State.settleBlock_of_live hlive

theorem execSteal_own {y : Ctx} (hc : c < 512) (hidle : s.idleSlot c k = true) (hstay : s.staying c = true)
    (harr : (s.coreAt c).arrivals = []) (hman : s.manualCore c = false)
    (hpark : ∀ p ∈ (s.coreAt c).parkStore, p.own = none → p.slot.ctx.parked = true) (hy : (s.coreAt c).deque.getLast? = some y)
    (hown : ∀ o, (s.coreAt c).owner = some o → y.isOf o.1 o.2.1 = true) :
    exec (.steal c k) s = .next ((s.modCore c fun q => { q with deque := q.deque.dropLast }).place c k y 0 0) := by
  have hbusy : (decide (512 ≤ c) || !s.idleSlot c k || !s.staying c || !(s.coreAt c).arrivals.isEmpty) = false := by
    rw [hidle, hstay, harr, decide_eq_false (Nat.not_le.mpr hc)]
    rfl
  have hguests : ((s.coreAt c).parkStore.any fun q => q.own.isNone && !q.slot.ctx.parked) = false := by
    rw [List.any_eq_false]
    intro p hp hq
    simp only [Bool.and_eq_true, Option.isNone_iff_eq_none, Bool.not_eq_true'] at hq
    exact Bool.false_ne_true (hq.2.symm.trans (hpark p hp hq.1))
  have htake : s.takeOwn c = some (y, s.modCore c fun q => { q with deque := q.deque.dropLast }) := by
    unfold State.takeOwn
    rw [hy]
  change execSteal c k s = _
  unfold execSteal
  dsimp only
  rw [hbusy, hguests, hman, htake]
  have hsettle : ((s.modCore c fun q => { q with deque := q.deque.dropLast }).place c k y 0 0).settleAt c =
      (s.modCore c fun q => { q with deque := q.deque.dropLast }).place c k y 0 0 :=
    State.settleAt_place fun o ho => hown o (by rwa [State.coreAt_modCore] at ho)
  exact congrArg Host.Outcome.next hsettle

theorem execStrandArrival_seats {a : Arrival} {l : List Arrival} (ha : (s.coreAt c).arrivals = a :: l) (hk : k < 16)
    (hidle : s.idleSlot c k = true) (hfirst : ∀ j, j < k → s.idleSlot c j = false) :
    exec (.strandArrival c) s = .next ((s.modCore c fun q => { q with arrivals := l }).place c k a.ctx a.predH a.predN) := by
  have hfind : (List.range 16).find? (fun k => s.idleSlot c k) = some k := by
    rw [List.find?_range_eq_some]
    exact ⟨hidle, List.mem_range.mpr hk, fun j hj => by rw [hfirst j hj]; rfl⟩
  change execStrandArrival c s = _
  unfold execStrandArrival
  rw [ha]
  dsimp only
  rw [hfind]

end

/-! ### Remote accesses -/

section
variable {c k : Nat} {s : State}

/-- A slot waits for what its access's home has made of it. -/
theorem execRemoteWordAccess_eq {r : Req} (hw : (s.slotAt c k).wait = some (.request r)) : exec (.remoteWordAccess c k) s =
    .next ((s.atHome (s.slotAt c k).ctx c r).2.modSlot c k fun x =>
      { x with wait := some (s.atHome (s.slotAt c k).ctx c r).1 }) := by
  change execRemoteWordAccess c k s = _
  unfold execRemoteWordAccess
  dsimp only
  rw [hw]

theorem atHome_window {x : Ctx} {r : Req} {h sa : Nat} (hr : s.reachOf x c r.va = .window h sa) :
    s.atHome x c r = (.reply (.ok r.va sa), s) := by
  unfold State.atHome
  rw [hr]
theorem atHome_bad {x : Ctx} {r : Req} {n : Nat} (hr : s.reachOf x c r.va = .bad n) :
    s.atHome x c r = (.reply (.fault 4 n (wordN r.va)), s) := by
  unfold State.atHome
  rw [hr]
theorem atHome_switches {x : Ctx} {r : Req} (hr : s.reachOf x c r.va = .space) (hs : s.switches r.va = true) :
    s.atHome x c r = (.request r, s) := by
  unfold State.atHome
  rw [hr]
  exact if_pos hs
theorem atHome_space {x : Ctx} {r : Req} {sa : Nat} {u : State} (hr : s.reachOf x c r.va = .space) (hs : s.switches r.va = false)
    (hu : s.resolve (s.homeOf r.va) (x.tdom.toNat % 4096) r.need r.va false = (.ok sa, u)) :
    s.atHome x c r = (.reply (.ok r.va sa), u) := by
  unfold State.atHome
  rw [hr]
  dsimp only
  rw [hs, if_neg Bool.false_ne_true, hu]

/-! ### Replies -/

/-- The slot has its answer and goes on. -/
def State.withReply (s : State) (c k : Nat) (r : Reply) : State :=
  s.modSlot c k fun x => { x with wait := none, replies := x.replies ++ [r] }

theorem execRemoteReply_home {r : Reply} (v : PeerAns) (hw : (s.slotAt c k).wait = some (.reply r)) :
    exec (.remoteReply c k v) s = .next (s.withReply c k r) := by
  change execRemoteReply c k v s = _
  unfold execRemoteReply
  dsimp only
  rw [hw]
  rfl

section
variable {d : Nat} {r : Req} (hw : (s.slotAt c k).wait = some (.peer d r))
include hw

theorem execRemoteReply_stalled (v : PeerAns) (hl : s.linkStalled d = true) : exec (.remoteReply c k v) s = .next s := by
  change execRemoteReply c k v s = _
  unfold execRemoteReply
  dsimp only
  rw [hw]
  exact if_pos hl
theorem execRemoteReply_value (w : Word) (hl : s.linkStalled d = false) :
    exec (.remoteReply c k (.value w)) s = .next (s.withReply c k (.peer r.va w)) := by
  change execRemoteReply c k (.value w) s = _
  unfold execRemoteReply
  dsimp only
  rw [hw]
  exact if_neg (by rw [hl]; exact Bool.false_ne_true)
theorem execRemoteReply_fault (n i : Nat) (hl : s.linkStalled d = false) :
    exec (.remoteReply c k (.fault n i)) s = .next (s.withReply c k (.fault n i (wordN r.va))) := by
  change execRemoteReply c k (.fault n i) s = _
  unfold execRemoteReply
  dsimp only
  rw [hw]
  exact if_neg (by rw [hl]; exact Bool.false_ne_true)

end

/-! ### Walks -/

theorem State.tableProbe_of_flaws (h : s.flaws = []) (sa n : Nat) : ∃ l, s.tableProbe sa n = { s with meqPend := l } := by
  have hprobe : s.probe none sa n = (s.poisonedIn sa n, s) := by
    rw [State.probe, h]
    rfl
  unfold State.tableProbe
  rw [hprobe]
  cases s.poisonedIn sa n with
  | none => exact ⟨s.meqPend, rfl⟩
  | some u =>
    dsimp only
    unfold State.noteUnit
    dsimp only
    split
    · exact ⟨s.meqPend, rfl⟩
    · exact ⟨_, rfl⟩

/-- In a device without errors a walk that reads its entries only records those that are poisoned. -/
theorem State.walkProbe_of_flaws (h : s.flaws = []) (va : Nat) : ∃ l, s.walkProbe va = { s with meqPend := l } := by
  refine foldl_related (R := fun s t : State => s.flaws = [] → ∃ l, t = { s with meqPend := l }) (fun s _ => ⟨s.meqPend, rfl⟩)
    (fun hst htu hs => ?_) _ (fun t a _ ht => State.tableProbe_of_flaws ht a 8) s h
  obtain ⟨l, rfl⟩ := hst hs
  exact htu hs

theorem execTranslationWalk_slot {va d : Nat} {r : Option Req} {e : Xlat} (hw : (s.slotAt c k).wait = some (.walk va d r))
    (hwalk : s.walking c k = true) (hf : s.flaws = []) (he : s.walk va = .leaf e) :
    ∃ l, exec (.translationWalk c k) s = .next ((State.tcFill { s with meqPend := l } d e).modSlot c k fun x =>
      { x with wait := r.map Wait.request }) := by
  obtain ⟨l, hl⟩ := State.walkProbe_of_flaws hf va
  refine ⟨l, ?_⟩
  have he' : ({ s with meqPend := l } : State).walk va = .leaf e := he
  change execTranslationWalk c k s = _
  unfold execTranslationWalk
  rw [hwalk, if_neg (by decide)]
  dsimp only
  rw [hw]
  dsimp only
  rw [hl, he']

theorem execTranslationWalk_fetch {va : Nat} {e : Xlat} (hw : (s.slotAt c k).wait = some (.fetch va))
    (hwalk : s.walking c k = true) (hf : s.flaws = []) (he : s.walk va = .leaf e) :
    ∃ l, exec (.translationWalk c k) s = .next ((State.tcFill { s with meqPend := l } (dieOf c) e).modSlot c k fun x =>
      { x with wait := none }) := by
  obtain ⟨l, hl⟩ := State.walkProbe_of_flaws hf va
  refine ⟨l, ?_⟩
  have he' : ({ s with meqPend := l } : State).walk va = .leaf e := he
  change execTranslationWalk c k s = _
  unfold execTranslationWalk
  rw [hwalk, if_neg (by decide)]
  dsimp only
  rw [hw]
  dsimp only
  rw [hl, he']

theorem mem_tc_tcFill (s : State) (d : Nat) (e : Xlat) : e ∈ ((s.tcFill d e).dieAt d).tc := by
  rw [State.tcFill, State.dieAt_modDie]
  exact List.mem_cons_self

end

/-- Settles O46: each event along the branch of its hypotheses. A dictionary's load leaves the slots it then releases (`SlotsStay`); a block
one of whose strands is seated is live; without errors a walk changes neither memory nor slots. -/
theorem coreEventsTakeEffect : Obligations.CoreEventsTakeEffect := by
  unfold Obligations.CoreEventsTakeEffect
  refine ⟨fun i s l w hc hl hi => ⟨fun hd hw => ⟨_, execDictionaryCode_found hc hl hi hd hw, ?_, ?_⟩, fun hd => ?_⟩, ?_⟩
  · rw [State.named, State.cur_modCur]
  · rw [State.named, State.cur_modCur, State.cur_modCore, State.openChunk_ctx]
  · obtain ⟨hwait, hctx, -⟩ := s.openChunk.waitOn_keeps (w := .dictionary) (fun _ _ => nofun)
    exact ⟨_, execDictionaryCode_waits hc hl hi hd, hwait, hctx.trans s.openChunk_ctx⟩
  rintro c k s x hc hk rfl
  refine ⟨fun l w u hl hw hd => ?_, fun y hidle hstay harr hman hpark hy hown => ?_, fun a l ha hidle hfirst => ?_,
    fun r hw => ⟨fun h sa hr => ?_, fun n hr => ?_, fun hr hs => ?_, fun u sa hr hs hu => ?_⟩,
    fun r v hw => ⟨_, execRemoteReply_home v hw, State.slotAt_modSlot .., rfl⟩,
    fun d r v hw => ⟨execRemoteReply_stalled hw v, fun hl => ?_⟩, fun va d r e hw hwalk hf he => ?_, fun va e hw hwalk hf he => ?_⟩
  · refine ⟨_, execDictionaryLoad_eq hl hw hd, ?_, ?_, dictReady_wait hl hw hd hk _⟩ <;>
      rw [show ∀ t : State, ((t.dictReady c l.num).coreAt c) = t.coreAt c from fun _ => rfl, State.coreAt_modCore]
    · rfl
    · exact List.length_take_le ..
  · obtain ⟨hocc, hctx, -⟩ := (s.modCore c fun q => { q with deque := q.deque.dropLast }).slotAt_place c k y 0 0
    refine ⟨_, execSteal_own hc hidle hstay harr hman hpark hy hown, hocc, hctx, ?_⟩
    rw [State.place, State.coreAt_setSlot, State.coreAt_modCore]
  · obtain ⟨hocc, hctx, hh, hn⟩ := (s.modCore c fun q => { q with arrivals := l }).slotAt_place c k a.ctx a.predH a.predN
    refine ⟨_, execStrandArrival_seats ha hk hidle hfirst, ?_, hocc, hctx, hh, hn⟩
    rw [State.place, State.coreAt_setSlot, State.coreAt_modCore]
  · refine ⟨_, execRemoteWordAccess_eq hw, ?_⟩
    rw [atHome_window hr, State.slotAt_modSlot]
  · refine ⟨_, execRemoteWordAccess_eq hw, ?_⟩
    rw [atHome_bad hr, State.slotAt_modSlot]
  · refine ⟨_, execRemoteWordAccess_eq hw, ?_⟩
    rw [atHome_switches hr hs, State.slotAt_modSlot, ← hw]
  · refine ⟨_, execRemoteWordAccess_eq hw, ?_⟩
    rw [atHome_space hr hs hu, State.slotAt_modSlot]
  · cases v with
    | value w => exact ⟨_, execRemoteReply_value hw w hl, State.slotAt_modSlot ..⟩
    | fault n i => exact ⟨_, execRemoteReply_fault hw n i hl, State.slotAt_modSlot ..⟩
  · obtain ⟨l, hrun⟩ := execTranslationWalk_slot hw hwalk hf he
    exact ⟨_, hrun, State.slotAt_modSlot .., mem_tc_tcFill _ d e⟩
  · obtain ⟨l, hrun⟩ := execTranslationWalk_fetch hw hwalk hf he
    exact ⟨_, hrun, State.slotAt_modSlot .., mem_tc_tcFill _ (dieOf c) e⟩

end Sys2Proof.Machine

/-! O54. A step runs the instruction that its fetch decodes. -/

namespace Sys2Proof.Machine

/-! ### A core's turn -/

section
variable {s u : State} {c k : Nat}

theorem coreCycle_some {l r : List Nat} (hp : s.regs.pwrK ≤ (s.coreAt c).cycle % 16) (hrot : (s.coreAt c).rot = l ++ k :: r)
    (hl : ∀ j ∈ l, s.eligible c j = false) (hk : s.eligible c k = true) :
    s.coreCycle c = (some k, { s.modCore c fun p =>
      { p with rot := p.rot.filter (fun n => n != k) ++ [k], issued := p.issued.set k (s.coreAt c).cycle } with core := c, slot := k }) := by
  have hfind : (s.coreAt c).rot.find? (fun k => s.eligible c k) = some k := by
    rw [hrot, List.find?_append, List.find?_eq_none.mpr fun j hj => by rw [hl j hj]; exact Bool.false_ne_true,
      List.find?_cons_of_pos hk]
    rfl
  unfold State.coreCycle
  dsimp only
  rw [if_neg (Nat.not_lt.mpr hp), hfind]

/-- The slot whose turn it is, as the turn finds it. -/
theorem cur_of_coreCycle (h : s.coreCycle c = (some k, u)) : u.cur = s.slotAt c k := by
  unfold State.coreCycle at h
  dsimp only at h
  split at h
  · cases h
  · split at h <;> cases h
    rfl

end

/-! ### Fetch -/

section
variable {s u v w : State} {pc : Word} {va sa : Nat}

theorem resolveFetch_miss {core dom : Nat} {x : Xlat} (hi : s.icFind core va = none) (ht : s.tcFind (dieOf core) va = some (x, v))
    (hp : x.peer = none) : s.resolveFetch core dom va =
      (v.icFill core x.key va (x.pa + (va - x.va))).checked core dom 4 x.key (x.pa + (va - x.va)) := by
  unfold State.resolveFetch
  rw [hi]
  dsimp only
  rw [ht]
  dsimp only
  rw [hp]

section
variable (hva : va < 2 ^ 56) (hr : s.resolveFetch s.core (s.cur.ctx.tdom.toNat % 4096) va = (.ok sa, w))
include hva hr

/-- A parcel of an address that resolves, in a sector that a cache holds or that is not poisoned. -/
theorem parcel_eq (h : (if (w.icFind s.core va).isSome then none else w.poisonedIn sa 2) = none) :
    s.parcel pc va = (.inr (w.codeAt s.core va sa 2).1, (w.codeAt s.core va sa 2).2) := by
  unfold State.parcel
  rw [if_neg (Nat.not_le.mpr hva)]
  dsimp only
  rw [hr]
  dsimp only
  rw [h]

theorem parcel_uncached (hi : w.icFind s.core va = none) (hp : w.poisonedIn sa 2 = none) :
    s.parcel pc va = (.inr (w.mem.readN sa 2), w) := by
  rw [parcel_eq hva hr (by rw [hi, hp, ite_self]), State.codeAt, hi]
  rfl

section
variable {l : ILine} {b : List Byte} (hi : w.icFind s.core va = some l) (hb : l.sector va = some b)
include hi hb

omit hva hr in
theorem codeAt_cached : w.codeAt s.core va sa 2 = if (b.drop (va % 128)).take 2 == w.mem.readN sa 2 then (w.mem.readN sa 2, w)
    else (if w.drawBit.1 then (b.drop (va % 128)).take 2 else w.mem.readN sa 2, w.drawBit.2) := by
  unfold State.codeAt
  rw [hi, Option.bind_some, hb]

theorem parcel_fresh (h : (b.drop (va % 128)).take 2 = w.mem.readN sa 2) : s.parcel pc va = (.inr (w.mem.readN sa 2), w) := by
  rw [parcel_eq hva hr (by rw [hi]; rfl), codeAt_cached hi hb, if_pos (beq_iff_eq.mpr h)]

/-- A parcel of a cached sector is the copy or what memory holds now (R103). -/
theorem parcel_cached : ∃ p u, s.parcel pc va = (.inr p, u) ∧ (p = (b.drop (va % 128)).take 2 ∨ p = w.mem.readN sa 2) := by
  refine ⟨_, _, parcel_eq hva hr (by rw [hi]; rfl), ?_⟩
  rw [codeAt_cached hi hb]
  split
  · exact .inr rfl
  · dsimp only
    split
    · exact .inl rfl
    · exact .inr rfl

end

end

theorem fetch_follower {e : GangEntry} {l : List GangEntry} (hf : u.cur.isFollower = true) (hb : u.cur.gbuf = e :: l) :
    u.fetch = (.unit e.unit, u) := by
  unfold State.fetch
  dsimp only
  rw [hf, if_pos rfl, hb]

theorem fetch_word {x : BitVec 32} (hf : u.cur.isFollower = false) (hd : u.cur.dictWord = some x) :
    u.fetch = (.unit (decodeWord x), u) := by
  unfold State.fetch
  dsimp only
  rw [hf, if_neg Bool.false_ne_true, hd]

/-- Whether a unit is a dictionary code stands in its first byte. -/
theorem leNat_cons_mod (b : Byte) (l : List Byte) : leNat (b :: l) % 64 = b.toNat % 64 := by
  rw [leNat]
  omega

theorem decodeBytes_code {p : List Byte} {i : Instr} (h : decodeBytes p = some (.instr i, 2)) : leNat p % 64 = 0x3E := by
  unfold decodeBytes at h
  split at h
  next b0 b1 rest =>
    dsimp only at h
    split at h
    next hc => rw [leNat_cons_mod]; omega
    next => split at h <;> simp at h
  next => cases h

theorem decodeBytes_word {p q : List Byte} {i : Instr} (h : decodeBytes (p ++ q) = some (.instr i, 4)) : leNat p % 64 ≠ 0x3E := by
  cases p with
  | nil => decide
  | cons b p =>
    rw [leNat_cons_mod]
    unfold decodeBytes at h
    split at h
    next b0 b1 rest e =>
      dsimp only at h
      split at h
      next => simp at h
      next hc =>
        obtain rfl : b = b0 := by simpa using congrArg List.head? e
        omega
    next => cases h

section
variable {p : List Byte} (hf : u.cur.isFollower = false) (hd : u.cur.dictWord = none) (heven : u.cur.ctx.pc.toNat % 2 = 0)
  (hp : u.parcel u.cur.ctx.pc u.cur.ctx.pc.toNat = (.inr p, v))
include hf hd heven hp

theorem fetch_code {i : Instr} (h : decodeBytes p = some (.instr i, 2)) : u.fetch = (.unit (.instr i), v) := by
  unfold State.fetch
  dsimp only
  rw [hf, if_neg Bool.false_ne_true, hd]
  dsimp only
  rw [if_neg (by omega), hp]
  dsimp only
  rw [if_pos (decodeBytes_code h), h]

theorem fetch_parcels {p' : List Byte} {i : Instr} (hp' : v.parcel u.cur.ctx.pc (u.cur.ctx.pc.toNat + 2) = (.inr p', w))
    (h : decodeBytes (p ++ p') = some (.instr i, 4)) : u.fetch = (.unit (.instr i), w) := by
  unfold State.fetch
  dsimp only
  rw [hf, if_neg Bool.false_ne_true, hd]
  dsimp only
  rw [if_neg (by omega), hp]
  dsimp only
  rw [if_neg (decodeBytes_word h), hp']
  dsimp only
  rw [h]

end

end

/-! ### Running what is fetched -/

section
variable {s t r : State} {i j : Instr} {w : BitVec 32} (ht : exec i (s.withUnit (.instr i)) = .next t)
include ht

theorem runCode_plain (h : t.cur.dictWord = none) : runCode (.instr i) s = .next t := by
  have hrun : runUnit (.instr i) s = .next t := ht
  unfold runCode
  rw [hrun]
  dsimp only
  rw [h]
  cases s.cur.dictWord <;> rfl

theorem runCode_named {x : BitVec 32} (h : s.cur.dictWord = some x) : runCode (.instr i) s = .next t := by
  have hrun : runUnit (.instr i) s = .next t := ht
  unfold runCode
  rw [hrun]
  dsimp only
  rw [h]

theorem runCode_word (hs : s.cur.dictWord = none) (hw : t.cur.dictWord = some w) (hj : decodeWord w = .instr j)
    (hr : exec j (t.withUnit (.instr j)) = .next r) : runCode (.instr i) s = .next r := by
  have hrun : runUnit (.instr i) s = .next t := ht
  unfold runCode
  rw [hrun]
  dsimp only
  rw [hs, hw]
  dsimp only
  rw [hj]
  exact hr

end

theorem issueNext_of_fetch {s t u : State} {d : Decoded} (hf : s.fetch = (.unit d, u)) (hr : runCode d u = .next t) :
    issueNext s = .next t := by
  unfold issueNext
  rw [hf]
  exact hr

/-- A cycle of a core in which a slot issues. -/
theorem step_of_issue {s t u : State} {c k : Nat} {ms : List Move} (ha : s.agenda = .tick c :: ms)
    (hu : ({ s with agenda := ms } : State).coreCycle c = (some k, u)) (hi : issueNext u = .next t) (hp : t.passes c k = false) :
    step s = .next ((t.countCycle c (some u.cur.ctx)).attend s) := by
  have hturns : turns c 16 { s with agenda := ms } = .next (some u.cur.ctx, t) := by
    rw [cur_of_coreCycle hu]
    unfold turns
    dsimp only
    rw [hu]
    dsimp only
    rw [hi]
    dsimp only
    rw [hp, if_neg Bool.false_ne_true]
  have htick : tick c { s with agenda := ms } = .next (t.countCycle c (some u.cur.ctx)) := by
    unfold tick
    rw [hturns]
  unfold step
  rw [ha]
  exact congrArg (attended s) htick

theorem step_finish {s u t : State} {c k : Nat} {ms : List Move} {i : Instr} (ha : s.agenda = .finish c k :: ms)
    (hu : u = { s with agenda := ms, core := c, slot := k }) (hf : u.finishes c k = true) (hi : u.cur.unit = .instr i)
    (ht : exec i (u.withUnit (.instr i)) = .next t) (hd : t.cur.dictWord = none) : step s = .next (t.attend s) := by
  have hcomplete : complete c k { s with agenda := ms } = .next t := by
    have hf' : ({ s with agenda := ms } : State).finishes c k = true := by
      rw [hu] at hf
      exact hf
    unfold complete
    rw [if_pos hf']
    dsimp only
    rw [← hu, hi, if_neg nofun]
    exact runCode_plain ht hd
  unfold step
  rw [ha]
  exact congrArg (attended s) hcomplete

theorem fetchCtrl_eq {u : State} {k : Nat} {i : Instr} (hcore : u.core = 512 + k) (heven : u.cur.ctx.pc.toNat % 2 = 0)
    (hroom : u.cur.ctx.pc.toNat + 4 ≤ 0xC000) (hf : u.flaws = [])
    (hi : decodeBytes (u.mem.readN (0xFF00000010000000 + 0x10000 * k + u.cur.ctx.pc.toNat) 4) = some (.instr i, 4)) :
    u.fetchCtrl = .inr (.instr i, u) := by
  have hsa : ctrlSa (clusterOf u.core) u.cur.ctx.pc.toNat = 0xFF00000010000000 + 0x10000 * k + u.cur.ctx.pc.toNat := by
    rw [hcore, clusterOf, if_neg (by omega), Nat.add_sub_cancel_left]
    rfl
  have hout : (decide (u.cur.ctx.pc.toNat % 2 = 1) || decide (0xC000 < u.cur.ctx.pc.toNat + 4)) = false := by
    rw [decide_eq_false (by omega), decide_eq_false (by omega)]
    rfl
  have hprobe (sa : Nat) : (u.probe none sa 4).2 = u := by
    rw [State.probe, hf]
    rfl
  have hclean (sa : Nat) : u.ctrlFlawed sa 4 = false := by
    rw [State.ctrlFlawed, hf]
    rfl
  unfold State.fetchCtrl
  dsimp only
  rw [hsa, hout, if_neg Bool.false_ne_true, hprobe, hclean, if_neg Bool.false_ne_true, hi]

theorem step_ctrl {s u t : State} {k : Nat} {ms : List Move} {i : Instr} (ha : s.agenda = .ctrl k :: ms)
    (hu : u = { s with agenda := ms, core := 512 + k, slot := 0 }) (hr : u.ctrlRuns k = true)
    (hf : u.fetchCtrl = .inr (.instr i, u)) (ht : exec i (u.withUnit (.instr i)) = .next t) : step s = .next (t.attend s) := by
  have htick : ctrlTick k { s with agenda := ms } = .next t := by
    unfold ctrlTick
    rw [show ({ s with agenda := ms } : State).atCtrl k = u from hu.symm]
    dsimp only
    rw [if_pos hr, hf]
    exact ht
  unfold step
  rw [ha]
  exact congrArg (attended s) htick

theorem step_event {s t : State} {i : Instr} {ms : List Move} (ha : s.agenda = .event i :: ms) (hi : i.isEvent = true)
    (ht : exec i { s with agenda := ms } = .next t) : step s = .next (t.attend s) := by
  have hmove : move (.event i) { s with agenda := ms } = .next t := (if_pos hi).trans ht
  unfold step
  rw [ha]
  exact congrArg (attended s) hmove

/-- Settles O54: the first eligible slot of the rotation, the parcels of its unit, and the run of what they decode to, each by the lemma
of its case. -/
theorem stepRunsTheDecodedInstruction : Obligations.StepRunsTheDecodedInstruction := by
  unfold Obligations.StepRunsTheDecodedInstruction
  refine ⟨fun s c k l r _ hp hrot hl hk => ⟨_, coreCycle_some hp hrot hl hk, rfl, rfl, rfl, rfl, ?_⟩,
    fun s v w pc va sa x hva => ⟨fun hi ht hx hc => (resolveFetch_miss hi ht hx).trans hc,
      fun hr => ⟨fun hi hn => parcel_uncached hva hr hi hn,
        fun l b hi hb => ⟨fun h => parcel_fresh hva hr hi hb h, parcel_cached hva hr hi hb⟩⟩⟩,
    ?_, fun s u t c k ms i ha hu hf hi ht hd => step_finish ha hu hf hi ht hd, ?_,
    fun s t i ms ha hi ht => step_event ha hi ht⟩
  · rw [show ∀ t : State, ({ t with core := c, slot := k } : State).coreAt c = t.coreAt c from fun _ => rfl, State.coreAt_modCore]
    dsimp only
    rw [hrot]
    simp
  · rintro s u c k ms x ha hu rfl
    refine ⟨fun e l i t hf hb hi ht hd hp => step_of_issue ha hu (issueNext_of_fetch (fetch_follower hf hb) ?_) hp,
      fun w i t hf hw hi ht hp => step_of_issue ha hu (issueNext_of_fetch (fetch_word hf hw) ?_) hp,
      fun p v hf hd heven hpar hv => ⟨fun i j w t r hi ht hw hj hr hp =>
          step_of_issue ha hu (issueNext_of_fetch (fetch_code hf hd heven hpar hi) (runCode_word ht hv hw hj hr)) hp,
        fun p' w i t hpar' hi ht hd' hp =>
          step_of_issue ha hu (issueNext_of_fetch (fetch_parcels hf hd heven hpar hpar' hi) (runCode_plain ht hd')) hp⟩⟩
    · rw [hi]
      exact runCode_plain ht hd
    · rw [hi]
      exact runCode_named ht hw
  · rintro s u t k ms _ i ha hu hr rfl heven hroom hf hi ht
    exact step_ctrl ha hu hr (fetchCtrl_eq (by rw [hu]) heven hroom hf hi) ht

end Sys2Proof.Machine

/-! SUPPORT, O22, O19. What an access answers, case by case (R42, R43, R138); loads; accesses that trap. -/

namespace Sys2Proof.Machine

/-! ### Loads -/

theorem loadFrom_run (a : Acc) (p : Spot) (s : State) : (loadFrom a p).run s = .ok (p.value a s, p.after a s) := by
  unfold loadFrom
  cases p with
  | peer v => rfl
  | here sa =>
    dsimp only
    rw [M.run_bind_ok (readAt_run ..)]
    rfl

theorem loadAt_run {va : Word} {z : Fin 4} {way : Way} {x : Bool} {d : Reg} {s s1 s2 : State} {p : Spot} {c : Acc}
    (hc : c = { va, size := 2 ^ z.val, need := 1, way, op := .load (2 ^ z.val) }) (hp : Finds c s p s1)
    (hd : Writes d (if x then sextN (8 * 2 ^ z.val) (p.value c s1) else wordN (p.value c s1)) (p.after c s1) s2) :
    (loadAt va z way x d).run s = .ok (none, s2) := by
  subst hc
  unfold loadAt loadAcc sizeOf4
  dsimp only
  rw [M.run_bind_ok hp, M.run_bind_ok (loadFrom_run ..), M.run_bind_ok hd, M.run_pure]

/-- Settles O22: `loadAt` reaches the place, reads it as the strand sees it and writes the extended value (`loadAt_run`). -/
theorem loadResults : Obligations.LoadResults := by
  unfold Obligations.LoadResults
  intro g z o m x d a b s s1 s2 s3 s4 v w va p c hg ha
  refine ⟨fun hva hc hp => ⟨fun hd => issue_ok hg ?_, fun hd => issue_ok hg ?_⟩,
    fun hctrl hb hva hc hp hd => issueStrand_ok hctrl hg ?_⟩ <;> subst hva
  · rw [M.run_bind_ok ha, offsetOf_eq]
    exact loadAt_run (x := false) hc hp hd
  · rw [M.run_bind_ok ha, offsetOf_eq]
    exact loadAt_run (x := true) hc hp hd
  · rw [M.run_bind_ok (indexed_run ha hb)]
    exact loadAt_run hc hp hd

/-! ### An access of a strand, case by case (R138) -/

theorem State.reachOf_space {va : Nat} (h : va < 2 ^ 56) (s : State) (x : Ctx) (c : Nat) : s.reachOf x c va = .space := by
  unfold State.reachOf reachFrom
  rw [regionOf_space h]

/-- What an access does at the bytes it has reached on its own core: its line joins the chunk's signatures, and poison is looked for. -/
def arrive (a : Acc) (line sa : Nat) : M Spot := do
  touch line (!a.upd && (bitOf a.need 0 || bitOf a.need 3)) (!a.upd && !a.ro && (bitOf a.need 1 || bitOf a.need 3))
  checkPoison a sa
  return .here sa

section
variable {a : Acc} {s : State} (hc : s.isCtrl = false)
include hc

theorem access_misaligned (h : a.va.toNat % a.size ≠ 0) :
    (access a).run s = .error (.after fun s => s.takeTrap 3 (bitLen (a.size - 1)) a.va s.cur.ctx.pc) := by
  unfold access
  rw [M.run_bind_ok (M.run_get s)]
  dsimp only
  rw [hc, if_neg Bool.false_ne_true, if_pos h]
  rfl

section
variable (hal : a.va.toNat % a.size = 0) (hway : a.way ≠ .y)
include hal hway

theorem access_bad {info : Nat} (h : s.reachOf s.cur.ctx s.core a.va.toNat = .bad info) :
    (access a).run s = .error (.after fun s => s.takeTrap 4 info a.va s.cur.ctx.pc) := by
  unfold access
  rw [M.run_bind_ok (M.run_get s)]
  dsimp only
  rw [hc, if_neg Bool.false_ne_true, if_neg (not_not.mpr hal), if_neg hway, h]
  rfl

theorem access_window {sa : Nat} (h : s.reachOf s.cur.ctx s.core a.va.toNat = .window s.core sa) :
    (access a).run s = (arrive a (lineOf sa) sa).run s := by
  unfold access
  rw [M.run_bind_ok (M.run_get s)]
  dsimp only
  rw [hc, if_neg Bool.false_ne_true, if_neg (not_not.mpr hal), if_neg hway, h]
  dsimp only
  rw [if_neg (not_not.mpr rfl)]
  rfl

section
variable (hva : a.va.toNat < 2 ^ 56) (hhome : s.homeOf a.va.toNat = s.core)
include hva hhome

theorem access_switches (h : s.switches a.va.toNat = true) :
    (access a).run s = .error (.wait (.home a.va.toNat) s.cur.chunk.takes) := by
  unfold access
  rw [M.run_bind_ok (M.run_get s)]
  dsimp only
  rw [hc, if_neg Bool.false_ne_true, if_neg (not_not.mpr hal), if_neg hway, State.reachOf_space hva]
  dsimp only
  rw [if_pos hhome, if_pos h]
  rfl

variable (hsw : s.switches a.va.toNat = false) {u : State}
include hsw

theorem access_resolved {sa : Nat}
    (h : s.resolve s.core (s.cur.ctx.tdom.toNat % 4096) a.need a.va.toNat false = (.ok sa, u)) :
    (access a).run s = (arrive a (lineOf a.va.toNat) sa).run u := by
  unfold access
  rw [M.run_bind_ok (M.run_get s)]
  dsimp only
  rw [hc, if_neg Bool.false_ne_true, if_neg (not_not.mpr hal), if_neg hway, State.reachOf_space hva]
  dsimp only
  rw [if_pos hhome, hsw, if_neg Bool.false_ne_true, h]
  rfl

theorem access_lacking {l : Nat}
    (h : s.resolve s.core (s.cur.ctx.tdom.toNat % 4096) a.need a.va.toNat false = (.lacks l, u)) :
    (access a).run s = .error (.after fun s => s.takeTrap 5 l a.va s.cur.ctx.pc) := by
  unfold access
  rw [M.run_bind_ok (M.run_get s)]
  dsimp only
  rw [hc, if_neg Bool.false_ne_true, if_neg (not_not.mpr hal), if_neg hway, State.reachOf_space hva]
  dsimp only
  rw [if_pos hhome, hsw, if_neg Bool.false_ne_true, h]
  rfl

end
end
end

/-! ### Accesses that trap -/

theorem bitLen_size : ∀ z : Fin 4, bitLen (2 ^ z.val - 1) = z.val := by decide
theorem bitLen_size48 (k : Bool) : bitLen (size48 k - 1) = if k then 3 else 2 := by cases k <;> decide

theorem access_misaligned_scaled {va : Word} {z : Fin 4} {need : Need} {way : Way} {op : PeerOp} {s : State} (hc : s.isCtrl = false)
    (h : va.toNat % 2 ^ z.val ≠ 0) :
    (access { va, size := 2 ^ z.val, need, way, op }).run s = .error (.after fun s => s.takeTrap 3 z.val va s.cur.ctx.pc) := by
  rw [access_misaligned hc h, bitLen_size]

/-- A meaning that makes an access once it has its operands stops where the access does. -/
theorem loadAt_stops {va : Word} {z : Fin 4} {way : Way} {x : Bool} {d : Reg} {s : State} {e : Stop}
    (h : (access { va, size := 2 ^ z.val, need := 1, way, op := .load (2 ^ z.val) }).run s = .error e) :
    (loadAt va z way x d).run s = .error e := by
  unfold loadAt loadAcc sizeOf4
  dsimp only
  rw [M.run_bind, h]

theorem storeAt_stops {va v : Word} {z : Fin 4} {way : Way} {s : State} {e : Stop}
    (h : (access { va, size := 2 ^ z.val, need := 2, way, op := .store (leBytes (2 ^ z.val) v.toNat) }).run s = .error e) :
    (storeAt va z way v).run s = .error e := by
  unfold storeAt sizeOf4
  dsimp only
  rw [M.run_bind, h]

/-- A strand's instruction that traps, of those the control core does not have. -/
theorem traps_of_strand_stop {i : Instr} {g : Guard} {body : M (Option Word)} {s : State} {cause info : Nat} {addr : Word}
    (hi : exec i s = issueStrand g body s) (hs : Strand g s) (ht : TakesTraps s)
    (hb : body.run s.openChunk = .error (.after fun s => s.takeTrap cause info addr s.cur.ctx.pc))
    (hf : cause ≠ 7 ∨ s.tfut = 0) (hinfo : info < 65536) : Traps i s cause info addr s.cur.ctx.pc :=
  traps_of_stop (hi.trans (if_neg (by simp [hs.strand]))) hs.guard ht hb hf hinfo

theorem Operand.strand {s t : State} (h : Operand s.openChunk t) (hc : s.isCtrl = false) : t.isCtrl = false := by
  rw [h.isCtrl, State.openChunk_isCtrl, hc]

/-- An atomic other than CAS reads two operands before its access. -/
theorem atom_stops {op : AtomOp} {m : AtMode} {n : Nat} {d a b : Reg} {s s1 s2 : State} {x y : Word} {e : Stop}
    (ha : Reads a s x s1) (hb : Reads b s1 y s2) (hop : op ≠ .cas)
    (h : (access { va := x, size := n, need := 9, way := atWay m, op := .atom op n y 0 }).run s2 = .error e) :
    (atom op m n d a b).run s = .error e := by
  unfold atom
  rw [M.run_bind_ok ha, M.run_bind_ok hb, if_neg hop, M.run_bind_ok (M.run_pure ..), M.run_bind, h]

section
variable {g : Guard} {z : Fin 4} {o : BitVec 10} {d a b : Reg} {s s1 s2 s3 : State} {x y v va : Word}
  (hs : Strand g s) (ht : TakesTraps s) (ha : Reads a s.openChunk x s1)
include hs ht ha

/-- LDN and LDS trap with what their access meets. -/
theorem traps_load {i : Instr} {signed : Bool} {cause info : Nat}
    (hi : exec i s = issue g (do loadAt ((← readReg a) + offsetOf z o) z .pred signed d) s)
    (hva : va = x + wordI (o.toInt * 2 ^ z.val)) (hcause : cause ≠ 7) (hinfo : info < 65536)
    (h : (access { va, size := 2 ^ z.val, need := 1, way := .pred, op := .load (2 ^ z.val) }).run s1 =
      .error (.after fun s => s.takeTrap cause info va s.cur.ctx.pc)) : Traps i s cause info va s.cur.ctx.pc := by
  refine traps_of_stop hi hs.guard ht ?_ (.inl hcause) hinfo
  rw [M.run_bind_ok ha, offsetOf_eq, ← hva]
  exact loadAt_stops h

theorem traps_load_misaligned {i : Instr} {signed : Bool}
    (hi : exec i s = issue g (do loadAt ((← readReg a) + offsetOf z o) z .pred signed d) s)
    (h : (x + wordI (o.toInt * 2 ^ z.val)).toNat % 2 ^ z.val ≠ 0) :
    Traps i s 3 z.val (x + wordI (o.toInt * 2 ^ z.val)) s.cur.ctx.pc :=
  traps_load hs ht ha hi rfl (by decide) (by omega) (access_misaligned_scaled (ha.operand.strand hs.strand) h)

theorem traps_st_misaligned (h : (x + wordI (o.toInt * 2 ^ z.val)).toNat % 2 ^ z.val ≠ 0) (hd : Reads d s1 v s2) :
    Traps (.st g z o d a) s 3 z.val (x + wordI (o.toInt * 2 ^ z.val)) s.cur.ctx.pc := by
  refine traps_of_stop rfl hs.guard ht ?_ (.inl (by decide)) (by omega)
  rw [M.run_bind_ok ha, M.run_bind_ok hd, offsetOf_eq]
  exact storeAt_stops (access_misaligned_scaled ((ha.operand.trans hd.operand).strand hs.strand) h)

section
variable (hb : Reads b s1 y s2)
include hb

theorem traps_ldx_misaligned (h : (x + wordN (y.toNat * 2 ^ z.val)).toNat % 2 ^ z.val ≠ 0) :
    Traps (.ldx g .pred false z d a b) s 3 z.val (x + wordN (y.toNat * 2 ^ z.val)) s.cur.ctx.pc := by
  refine traps_of_strand_stop rfl hs ht ?_ (.inl (by decide)) (by omega)
  rw [M.run_bind_ok (indexed_run ha hb)]
  exact loadAt_stops (access_misaligned_scaled ((ha.operand.trans hb.operand).strand hs.strand) h)

theorem traps_stx_misaligned (h : (x + wordN (y.toNat * 2 ^ z.val)).toNat % 2 ^ z.val ≠ 0) (hd : Reads d s2 v s3) :
    Traps (.stx g .pred z d a b) s 3 z.val (x + wordN (y.toNat * 2 ^ z.val)) s.cur.ctx.pc := by
  refine traps_of_strand_stop rfl hs ht ?_ (.inl (by decide)) (by omega)
  rw [M.run_bind_ok (indexed_run ha hb), M.run_bind_ok hd]
  exact storeAt_stops (access_misaligned_scaled (((ha.operand.trans hb.operand).trans hd.operand).strand hs.strand) h)

theorem traps_atom_misaligned {i : Instr} {op : AtomOp} {m : AtMode} {k : Bool}
    (hi : exec i s = issueStrand g (atom op m (size48 k) d a b) s) (hop : op ≠ .cas) (h : x.toNat % size48 k ≠ 0) :
    Traps i s 3 (if k then 3 else 2) x s.cur.ctx.pc := by
  refine traps_of_strand_stop hi hs ht (atom_stops ha hb hop ?_) (.inl (by decide)) (by split <;> decide)
  rw [access_misaligned ((ha.operand.trans hb.operand).strand hs.strand) h, bitLen_size48]

end
end

/-! ### Addresses that name nothing, and the register window (R42, R43) -/

theorem regionOf_gap {va : Nat} (h : 2 ^ 56 ≤ va) (h' : va < 0xFF00000000000000) : regionOf va = .unmapped := by
  exact (if_neg (by omega)).trans (if_pos h')

theorem regionOf_window {va : Nat} (h : 0xFF00000100000000 ≤ va) (h' : va < 0xFF00000101000000) :
    regionOf va = .window (va - 0xFF00000100000000) := by
  unfold regionOf scratchBase
  dsimp only
  rw [if_neg (by omega), if_neg (by omega), if_neg (by omega), if_neg (by omega), if_neg (by simp; omega), if_pos (by simp; omega),
    Nat.sub_sub]

/-- Settles O19: the operands leave the strand as it was (`Operand`), the access stops where it must (`access_misaligned`, `access_bad`,
`access_lacking`), and the instruction enters the handler with what stopped it (`traps_of_stop`). -/
theorem accessesThatTrap : Obligations.AccessesThatTrap := by
  unfold Obligations.AccessesThatTrap
  refine ⟨fun g z o d a b m k s s1 s2 s3 x y v hs ht ha => ⟨fun h => ?_, fun hb h => ?_, fun hb h => ?_⟩,
    fun g z o d a s s1 x va hs ht ha hva hal => ?_, fun g z o d a s s1 u x va l hs ht ha hva hal hspace hhome hsw hres hl => ?_⟩
  · exact ⟨traps_load_misaligned hs ht ha rfl h, traps_load_misaligned hs ht ha rfl h, traps_st_misaligned hs ht ha h⟩
  · exact ⟨traps_ldx_misaligned hs ht ha hb h, traps_stx_misaligned hs ht ha hb h⟩
  · exact ⟨traps_atom_misaligned (op := .add) hs ht ha hb rfl (by decide) h,
      traps_atom_misaligned (op := .swap) hs ht ha hb rfl (by decide) h⟩
  · have hbad {info : Nat} (hinfo : info < 65536) (hr : s1.reachOf s1.cur.ctx s1.core va.toNat = .bad info) :
        Traps (.ldn g z o d a) s 4 info va s.cur.ctx.pc := by
      refine traps_load hs ht ha rfl hva (by decide) hinfo ?_
      exact access_bad (ha.operand.strand hs.strand) hal (show Way.pred ≠ .y by decide) hr
    refine ⟨fun ⟨h, h'⟩ => hbad (by decide) ?_, fun ⟨h, h'⟩ => hbad (by decide) ?_⟩ <;> unfold State.reachOf reachFrom
    · rw [regionOf_gap h h']
    · rw [regionOf_window h h']
  · have hcore : s1.core = s.core := ha.operand.core.trans s.openChunk_core
    have htdom : s1.cur.ctx.tdom = s.cur.ctx.tdom := by rw [ha.operand.ctx, State.cur_openChunk, Slot.ctx_opened]
    rw [← hcore, ← htdom] at hres
    refine traps_load hs ht ha rfl hva (by decide) (by omega) ?_
    refine access_lacking (ha.operand.strand hs.strand) hal (show Way.pred ≠ .y by decide) hspace ?_ hsw hres
    exact hhome.trans hcore.symm

end Sys2Proof.Machine

/-! O21. Where an access's bytes stand. -/

namespace Sys2Proof.Machine

/-! ### Reaching bytes on the own core -/

/-- A chunk's signatures after an access to a line. -/
def State.touched (s : State) (line : Nat) (reads writes : Bool) : State := s.modChunk fun c =>
  { c with reads := if reads then insertNat line c.reads else c.reads
           writes := if writes then insertNat line c.writes else c.writes
           conflict := c.conflict || ((reads || writes) && c.seen.contains line) }

theorem checkPoison_run {a : Acc} {sa : Nat} {s : State} (hflaws : s.flaws = []) (hclean : s.poisonedIn sa a.size = none) :
    (checkPoison a sa).run s = .ok ((), s) := by
  have hprobe : s.probe (some a.va.toNat) sa a.size = (none, s) := by simp [State.probe, hflaws, hclean]
  unfold checkPoison
  dsimp only
  rw [M.run_bind_ok (M.run_get s), hprobe]
  rfl

section
variable {s : State} (hcount : s.cur.chunk.count = 0) (hlock : s.cur.lockLeft = 0)
include hcount hlock

theorem touch_run (line : Nat) (reads writes : Bool) : (touch line reads writes).run s = .ok ((), s.touched line reads writes) := by
  unfold touch
  rw [M.run_bind_ok (M.run_get s)]
  dsimp only
  rw [hcount, hlock, if_neg (by simp), if_neg (by simp), if_neg (by simp)]
  rfl

/-- A first access of an unlocked chunk, in a device without errors, to bytes that are not poisoned. -/
theorem arrive_run {a : Acc} {sa : Nat} (hflaws : s.flaws = []) (hclean : s.poisonedIn sa a.size = none) (line : Nat) :
    ∃ u, (arrive a line sa).run s = .ok (.here sa, u) ∧ u.cur.ctx = s.cur.ctx ∧ u.cur.chunk.held = s.cur.chunk.held ∧
      u.mem = s.mem ∧ u.cores = s.cores := by
  unfold arrive
  rw [M.run_bind_ok (touch_run hcount hlock ..)]
  refine ⟨_, M.run_bind_ok (checkPoison_run hflaws hclean), ?_, ?_, rfl, rfl⟩ <;> rw [State.touched, State.cur_modChunk]

end

/-! ### Scratchpads by both names (R42) -/

theorem regionOf_own {va : Nat} (h : 0xFF00000008000000 ≤ va) (h' : va < 0xFF00000008040000) :
    regionOf va = .own (va - 0xFF00000008000000) := by
  unfold regionOf scratchBase
  dsimp only
  rw [if_neg (by omega), if_neg (by omega), if_neg (by omega), if_pos (by omega), Nat.sub_sub]

theorem regionOf_scratch {va : Nat} (h : 0xFF00000000000000 ≤ va) (h' : va < 0xFF00000008000000) :
    regionOf va = .scratch ((va - 0xFF00000000000000) / 0x40000) ((va - 0xFF00000000000000) % 0x40000) := by
  unfold regionOf scratchBase
  dsimp only
  rw [if_neg (by omega), if_neg (by omega), if_pos (by omega)]

/-- A strand whose launch or block holds its core reaches the scratchpad there. -/
theorem State.reachOf_ownPad {s : State} {x : Ctx} {c va o : Nat} (hc : c < 512) (ho : o < 0x40000)
    (hva : va = 0xFF00000008000000 + o ∨ va = 0xFF00000000000000 + 0x40000 * c + o)
    (hopen : s.sameLaunch x c = true ∨ s.ownCore x c = true) :
    s.reachOf x c va = .window c (0xFF00000000000000 + 0x40000 * c + o) := by
  have hpad : (s.sameLaunch x c || (c == c && s.ownCore x c)) = true := by obtain h | h := hopen <;> simp [h]
  unfold State.reachOf reachFrom
  obtain h | h := hva
  · rw [regionOf_own (by omega) (by omega), show va - 0xFF00000008000000 = o by omega]
    exact if_pos hpad
  · rw [regionOf_scratch (by omega) (by omega), show (va - 0xFF00000000000000) / 0x40000 = c by omega,
      show (va - 0xFF00000000000000) % 0x40000 = o by omega]
    exact if_pos hpad

/-! ### Main memory, of which nothing is cached at the core yet -/

theorem State.l2Access_rest {s : State} (h : s.flaws = []) (pa : Nat) (va : Option Nat) (die : Nat) (dirty : Bool) :
    s.l2Access pa va die dirty = { s with dies := (s.l2Access pa va die dirty).dies } := by
  have hput : s.l2Put pa dirty = { s with dies := (s.l2Put pa dirty).dies } := by
    unfold State.l2Put
    dsimp only
    cases l2Evicted (s.dieAt (pa / 2 ^ 37)).l2 (pa / 256) with
    | some y =>
      dsimp only
      rw [State.l2Back_of_flaws h, State.freshCopy_of_flaws h, ite_self]
      rfl
    | none =>
      dsimp only
      rw [State.freshCopy_of_flaws h, ite_self]
      rfl
  have hcount (t : State) : t.hotCount pa va die = { t with dies := (t.hotCount pa va die).dies } := by
    unfold State.hotCount
    dsimp only
    split
    · rfl
    · split <;> rfl
  rw [State.l2Access, State.fillProbe_of_flaws h, hcount, hput]

theorem State.tableProbe_rest {s : State} (h : s.flaws = []) (sa n : Nat) :
    s.tableProbe sa n = { s with meqPend := (s.tableProbe sa n).meqPend } := by
  unfold State.tableProbe
  rw [show s.probe none sa n = (s.poisonedIn sa n, s) by simp [State.probe, h]]
  cases s.poisonedIn sa n with
  | none => rfl
  | some u =>
    dsimp only
    unfold State.noteUnit
    dsimp only
    split <;> rfl

theorem State.l1Fill_empty {s : State} {c : Nat} {x : L1Line} (hflaws : s.flaws = []) (hl1 : (s.coreAt c).l1 = [])
    (hupd : x.upd = false) : s.l1Fill c x = s.modCore c fun q => { q with l1 := [x] } := by
  have hfresh (t : State) (b : Bool) (a : Nat) (ht : t.flaws = []) : (if b then t.freshCopy 2 a else t) = t := by
    rw [State.freshCopy_of_flaws ht, ite_self]
  unfold State.l1Fill
  rw [hupd, if_neg Bool.false_ne_true]
  rw [show (List.range 2) = [0, 1] from rfl]
  simp only [List.foldl_cons, List.foldl_nil, hfresh _ _ _ hflaws, hl1]
  simp [evicted, State.modCore, hl1]

/-- Rights that the core's PLB does not hold are read from the table (R46). -/
theorem State.rightsAt_read {s : State} {c : Nat} (hflaws : s.flaws = []) (hplb : (s.coreAt c).plb = []) (dom key : Nat) :
    ∃ t, s.rightsAt c dom key = ((s.mem.read (bitsOf s.regs.drtbase.toNat 39 24 * 2 ^ 24 + 4096 * dom + key)).toNat, t) ∧
      t = { s with meqPend := t.meqPend, cores := t.cores } ∧ (t.coreAt c).l1 = (s.coreAt c).l1 := by
  unfold State.rightsAt
  rw [hplb]
  dsimp only [List.find?_nil]
  rw [State.tableProbe_rest hflaws]
  refine ⟨_, rfl, rfl, ?_⟩
  rw [State.coreAt_modCore]
  rfl

theorem State.resolve_fresh {s : State} {c dom need va k : Nat} {x : Xlat} (hflaws : s.flaws = []) (hl1 : (s.coreAt c).l1 = [])
    (hplb : (s.coreAt c).plb = []) (htc : (s.dieAt (dieOf c)).tc = [x]) (hcovers : x.covers va = true) (hpeer : x.peer = none)
    (hk : k = x.pa + (va - x.va))
    (hrights : lacking need (s.mem.read (bitsOf s.regs.drtbase.toNat 39 24 * 2 ^ 24 + 4096 * dom + x.key)).toNat = 0) :
    ∃ t, s.resolve c dom need va false = (.ok k, t) ∧ t = { s with meqPend := t.meqPend, cores := t.cores, dies := t.dies } ∧
      ∃ l ∈ (t.coreAt c).l1, l.line = lineOf va ∧ l.key = x.key := by
  have hfind : s.tcFind (dieOf c) va = some (x, s.modDie (dieOf c) fun d => { d with tc := x :: d.tc.filter fun y => y != x }) := by
    unfold State.tcFind
    rw [htc]
    simp [hcovers]
  unfold State.resolve
  rw [hl1, hfind]
  dsimp only [List.find?_nil]
  rw [hpeer]
  dsimp only
  rw [← hk]
  rw [State.l1Fill_empty (by exact hflaws) (by exact hl1) rfl, State.l2Access_rest (by exact hflaws)]
  generalize (State.l2Access _ _ _ _ _).dies = dies
  generalize hu : ({ State.modCore _ c _ with dies := dies } : State) = u
  have hcore : u.coreAt c = { s.coreAt c with
      l1 := [{ line := lineOf va, key := x.key, pa := k - va % 256, valid := sectorBit va, dirty := 0, upd := false }] } := by
    rw [← hu]
    exact Table.get_set_same ..
  have huflaws : u.flaws = [] := by rw [← hu]; exact hflaws
  obtain ⟨t, ht, hrest, ht1⟩ := State.rightsAt_read (c := c) huflaws (by rw [hcore]; exact hplb) dom x.key
  refine ⟨t, ?_, ?_, ?_⟩
  · unfold State.checked
    rw [ht]
    subst hu
    exact Prod.ext (if_pos hrights) rfl
  · rw [hrest, ← hu]
    rfl
  · rw [ht1, hcore]
    exact ⟨_, List.mem_singleton_self _, rfl, rfl⟩

theorem Finds.of_arrive {a : Acc} {s u : State} {line sa : Nat} (h : (access a).run s = (arrive a line sa).run u)
    (hcount : u.cur.chunk.count = 0) (hlock : u.cur.lockLeft = 0) (hflaws : u.flaws = []) (hclean : u.poisonedIn sa a.size = none) :
    ∃ v, Finds a s (.here sa) v ∧ v.cur.ctx = u.cur.ctx ∧ v.cur.chunk.held = u.cur.chunk.held ∧ v.mem = u.mem ∧
      v.cores = u.cores := by
  obtain ⟨v, hv, hrest⟩ := arrive_run hcount hlock hflaws hclean line
  exact ⟨v, h.trans hv, hrest⟩

/-- A control core's access to its own memory (R281). -/
theorem finds_ctrl {a : Acc} {s : State} (hc : s.isCtrl = true) (hal : a.va.toNat % a.size = 0) (hroom : a.va.toNat + a.size ≤ 0xC000)
    (hflaws : s.flaws = []) : Finds a s (.here (0xFF00000010000000 + 0x10000 * clusterOf s.core + a.va.toNat)) s := by
  unfold Finds access
  rw [M.run_bind_ok (M.run_get s)]
  dsimp only
  rw [hc, if_pos rfl, if_neg (by simp [hal]; omega)]
  rw [State.ctrlFlawed, hflaws, List.any_nil, if_neg Bool.false_ne_true, State.probe_of_flaws hflaws]
  rfl

/-- Settles O21: an access finds the bytes that its region names (`access_window`, `access_resolved`, `finds_ctrl`), where nothing stands
against its arrival there (`arrive_run`), or waits for the switch of its home (`access_switches`). -/
theorem accessesReachTheirBytes : Obligations.AccessesReachTheirBytes := by
  unfold Obligations.AccessesReachTheirBytes
  refine ⟨?_, ?_, ?_, ?_⟩
  · intro a s o hc hcore ho hal hway hva hopen hcount hlock hflaws hclean
    obtain ⟨u, hu, hctx, hheld, hmem, -⟩ := Finds.of_arrive
      (access_window hc hal hway (State.reachOf_ownPad hcore ho hva hopen)) hcount hlock hflaws hclean
    exact ⟨u, hu, hctx, hheld, hmem⟩
  · intro a s x k hc hva hal hway hhome hsw hl1 hplb htc hcovers hpeer hk hrights hcount hlock hflaws hclean
    obtain ⟨t, ht, hrest, hline⟩ := State.resolve_fresh hflaws hl1 hplb htc hcovers hpeer hk hrights
    have hcur : t.cur = s.cur := by rw [hrest]; rfl
    obtain ⟨u, hu, hctx, hheld, hmem, hcores⟩ := Finds.of_arrive (access_resolved hc hal hway hva hhome hsw ht)
      (by rw [hcur]; exact hcount) (by rw [hcur]; exact hlock) (by rw [hrest]; exact hflaws) (by rw [hrest]; exact hclean)
    refine ⟨u, hu, ?_, ?_, ?_, ?_⟩
    · rw [hctx, hcur]
    · rw [hheld, hcur]
    · rw [hmem, hrest]
    · rw [State.coreAt, hcores]
      exact hline
  · exact fun a s hc hva hal hway hhome hsw => access_switches hc hal hway hva hhome hsw
  · exact fun a s hc hal hroom hflaws => finds_ctrl hc hal hroom hflaws

end Sys2Proof.Machine

/-! O25. Full-empty loads and stores, and the retest that ends their waits. -/

namespace Sys2Proof.Machine

/-! ### Reaching a granule (R141, R316) -/

/-- An access that is made is one that the map admits. -/
theorem Finds.reaches {a : Acc} {s s' : State} {p : Spot} (h : Finds a s p s') (hc : s.isCtrl = false) (hway : a.way ≠ .y) (info : Nat) :
    s.reachOf s.cur.ctx s.core a.va.toNat ≠ .bad info := by
  intro hbad
  have hstop := access_bad hc (h.aligned hc) hway hbad
  exact nomatch hstop.symm.trans h

theorem needPad_run {va : Word} {s : State} (hpad : InPads va) (hreach : ∀ info, s.reachOf s.cur.ctx s.core va.toNat ≠ .bad info) :
    (needPad va true).run s = .ok ((), s) := by
  unfold needPad
  rw [M.run_bind_ok (M.run_get s)]
  obtain ⟨c, o, h | h⟩ := hpad <;>
  · dsimp only
    rw [h]
    cases hr : s.reachOf s.cur.ctx s.core va.toNat with
    | bad info => exact absurd hr (hreach info)
    | space => rfl
    | window home sa => rfl

theorem feAccess_run {va : Word} {z : Fin 4} {need : Need} {op : PeerOp} {s s' : State} {sa k : Nat} {c : Acc} (hctrl : s.isCtrl = false)
    (hpad : InPads va) (hk : granuleOf sa = some k) (hc : c = { va, size := 2 ^ z.val, need, way := .stay, op })
    (hp : Finds c s (.here sa) s') : (feAccess va z need op).run s = .ok ((c, sa, k), s') := by
  subst hc
  unfold feAccess sizeOf4
  dsimp only
  rw [if_neg (not_not.mpr (hp.aligned hctrl)), M.run_bind_ok (needPad_run hpad (hp.reaches hctrl (show Way.stay ≠ .y by decide))),
    M.run_bind_ok hp]
  dsimp only [Spot.sa]
  rw [hk]
  rfl

theorem needBit_run {k : Nat} {f : Bool} {s : State} (h : s.fullView k = f) : (needBit k f).run s = .ok ((), s) := by
  unfold needBit
  rw [M.run_bind_ok (M.run_get s), if_neg (not_not.mpr h)]
  rfl

theorem needBit_waits {k : Nat} {f : Bool} {s : State} (h : s.fullView k ≠ f) :
    (needBit k f).run s = .error (.wait (.fullEmpty k f) s.cur.chunk.takes) := by
  unfold needBit
  rw [M.run_bind_ok (M.run_get s), if_pos h]
  rfl

/-! ### LDFE and STFE -/

/-- What LDFE and STFE do at a granule that they have reached (R141, R142). -/
def ldfeAt (c : Acc) (sa k : Nat) (d : Reg) (wait take : Bool) : M (Option Word) := do
  if wait then needBit k true
  let v ← loadFrom c (.here sa)
  if take then hold (.fullBit k false)
  writeReg d (wordN v)
  return none
def stfeAt (c : Acc) (sa k : Nat) (l : List Byte) (wait : Bool) : M (Option Word) := do
  if wait then needBit k false
  storeTo c (.here sa) l false
  hold (.fullBit k true)
  return none

theorem ldfeAt_run {c : Acc} {sa k : Nat} {d : Reg} {wait take : Bool} {s s' : State} (hbit : wait = true → s.fullView k = true)
    (hd : Writes d (wordN (s.seen c.va sa c.size))
      (if take then (s.fetched c.va sa).withHeld (.fullBit k false) else s.fetched c.va sa) s') :
    (ldfeAt c sa k d wait take).run s = .ok (none, s') := by
  have hload : (do
      let v ← loadFrom c (.here sa)
      if take then hold (.fullBit k false)
      writeReg d (wordN v)
      return none : M (Option Word)).run s = .ok (none, s') := by
    rw [M.run_bind_ok (loadFrom_run ..)]
    cases take with
    | false => exact M.run_bind_ok hd
    | true => exact (M.run_bind_ok (run_hold ..)).trans (M.run_bind_ok hd)
  cases wait with
  | false => exact hload
  | true => exact (M.run_bind_ok (needBit_run (hbit rfl))).trans hload

theorem ldfeAt_waits {c : Acc} {sa k : Nat} {d : Reg} {take : Bool} {s : State} (h : s.fullView k = false) :
    (ldfeAt c sa k d true take).run s = .error (.wait (.fullEmpty k true) s.cur.chunk.takes) := by
  unfold ldfeAt
  rw [if_pos rfl, M.run_bind, needBit_waits (by simp [h])]

theorem stfeAt_run {c : Acc} {sa k : Nat} {l : List Byte} {wait : Bool} {s : State} (hbit : wait = true → s.fullView k = false) :
    (stfeAt c sa k l wait).run s = .ok (none, ((Spot.here sa).stored c l false s).withHeld (.fullBit k true)) := by
  have hstore : (do
      storeTo c (.here sa) l false
      hold (.fullBit k true)
      return none : M (Option Word)).run s = .ok (none, ((Spot.here sa).stored c l false s).withHeld (.fullBit k true)) := by
    rw [M.run_bind_ok (storeTo_run ..)]
    rfl
  cases wait with
  | false => exact hstore
  | true => exact (M.run_bind_ok (needBit_run (hbit rfl))).trans hstore

theorem stfeAt_waits {c : Acc} {sa k : Nat} {l : List Byte} {s : State} (h : s.fullView k = true) :
    (stfeAt c sa k l true).run s = .error (.wait (.fullEmpty k false) s.cur.chunk.takes) := by
  unfold stfeAt
  rw [if_pos rfl, M.run_bind, needBit_waits (by simp [h])]

section
variable {z : Fin 4} {d a b : Reg} {s s1 s2 s3 s4 : State} {va x y v : Word} {sa k : Nat} {c : Acc}
  (hctrl : s.isCtrl = false) (ha : Reads a s x s1) (hb : Reads b s1 y s2) (hva : va = x + wordN (y.toNat * 2 ^ z.val))
  (hpad : InPads va) (hk : granuleOf sa = some k)
include hctrl ha hb hva hpad hk

theorem ldfe_reaches {wait take : Bool}
    (hc : c = { va, size := 2 ^ z.val, need := if take then 3 else 1, way := .stay, op := .load (2 ^ z.val) })
    (hp : Finds c s2 (.here sa) s3) : (ldfe z d a b wait take).run s = (ldfeAt c sa k d wait take).run s3 := by
  have hctrl2 : s2.isCtrl = false := by rw [hb.operand.isCtrl, ha.operand.isCtrl, hctrl]
  unfold ldfe
  rw [M.run_bind_ok (indexed_run ha hb), ← hva]
  exact M.run_bind_ok (feAccess_run hctrl2 hpad hk hc hp)

theorem stfe_reaches {wait : Bool} (hd : Reads d s2 v s3)
    (hc : c = { va, size := 2 ^ z.val, need := if wait then 3 else 2, way := .stay, op := .store (leBytes (2 ^ z.val) v.toNat) })
    (hp : Finds c s3 (.here sa) s4) :
    (stfe z d a b wait).run s = (stfeAt c sa k (leBytes (2 ^ z.val) v.toNat) wait).run s4 := by
  have hctrl3 : s3.isCtrl = false := by rw [hd.operand.isCtrl, hb.operand.isCtrl, ha.operand.isCtrl, hctrl]
  unfold stfe sizeOf4
  rw [M.run_bind_ok (indexed_run ha hb), ← hva, M.run_bind_ok hd]
  dsimp only
  rw [M.run_bind_ok (feAccess_run hctrl3 hpad hk hc hp)]
  rfl

end

/-! ### The retest (R143) -/

theorem fullEmptyRetest_ends {c n k : Nat} {f : Bool} {s : State} (hn : n < 16) (hw : (s.slotAt c n).wait = some (.fullEmpty k f))
    (hbit : ({ s with core := c, slot := n } : State).fullView k = f) :
    ∃ t, exec (.fullEmptyRetest k) s = .next t ∧ t.slotAt c n = { s.slotAt c n with wait := none } ∧ t.mem = s.mem := by
  refine ⟨_, rfl, ?_, rfl⟩
  rw [State.slotAt_mapSlots hn rfl, hw]
  simp [hbit]

theorem execStfeClear_eq {g : Guard} {z : Fin 4} {a b : Reg} {s s1 s2 s3 : State} {va x y : Word} {sa k : Nat} (hs : Strand g s)
    (ha : Reads a s.openChunk x s1) (hb : Reads b s1 y s2) (hva : va = x + wordN (y.toNat * 2 ^ z.val)) (hpad : InPads va)
    (hk : granuleOf sa = some k)
    (hp : Finds { va, size := 2 ^ z.val, need := 2, way := .stay, op := .store [] } s2 (.here sa) s3) :
    execStfeClear g z a b s = .next ((s3.withHeld (.fullBit k false)).retire none) := by
  have hctrl : s2.isCtrl = false := (ha.operand.trans hb.operand).strand hs.strand
  refine issueStrand_ok hs.strand hs.guard ?_
  rw [M.run_bind_ok (indexed_run ha hb), ← hva, M.run_bind_ok (feAccess_run hctrl hpad hk rfl hp)]
  rfl

/-- Settles O25: each form reaches its granule and then does what its qualifier says (`ldfeAt_run`, `stfeAt_run`), or waits for its bit
(`ldfeAt_waits`, `stfeAt_waits`). -/
theorem fullEmptyResults : Obligations.FullEmptyResults := by
  unfold Obligations.FullEmptyResults
  refine ⟨fun g z d a b s s1 s2 s3 s4 s5 x y v va sa k l hs ha hb hva hpad hk => ?_,
    fun k c n f s hn hw hbit => fullEmptyRetest_ends hn hw hbit⟩
  have hctrl : s.openChunk.isCtrl = false := by rw [State.openChunk_isCtrl, hs.strand]
  have hhere (f : Bool) : (Wait.fullEmpty k f).here := fun _ _ => nofun
  refine ⟨fun c hc hp => ?_, fun c hc hp => ?_, fun hd hl => ⟨fun c hc hp => ?_, fun c hc hp => ?_⟩,
    execStfeClear_eq hs ha hb hva hpad hk⟩
  · have hld (wait : Bool) := ldfe_reaches (d := d) (wait := wait) (take := false) hctrl ha hb hva hpad hk hc hp
    refine ⟨fun hfull hd => issueStrand_ok hs.strand hs.guard ((hld true).trans (ldfeAt_run (fun _ => hfull) ?_)),
      fun hd => issueStrand_ok hs.strand hs.guard ((hld false).trans (ldfeAt_run nofun ?_)),
      fun hempty => waits_of_stop hs rfl (hhere true) ((hld true).trans (ldfeAt_waits hempty))⟩ <;>
    · rw [hc]
      exact hd
  · have hld := ldfe_reaches (d := d) (wait := true) (take := true) hctrl ha hb hva hpad hk hc hp
    refine ⟨fun hfull hd => issueStrand_ok hs.strand hs.guard (hld.trans (ldfeAt_run (fun _ => hfull) ?_)),
      fun hempty => waits_of_stop hs rfl (hhere true) (hld.trans (ldfeAt_waits hempty))⟩
    rw [hc]
    exact hd
  · rw [hl] at hc ⊢
    have hst := stfe_reaches (wait := true) hctrl ha hb hva hpad hk hd hc hp
    exact ⟨fun hempty => issueStrand_ok hs.strand hs.guard (hst.trans (stfeAt_run fun _ => hempty)),
      fun hfull => waits_of_stop hs rfl (hhere false) (hst.trans (stfeAt_waits hfull))⟩
  · rw [hl] at hc ⊢
    exact issueStrand_ok hs.strand hs.guard
      ((stfe_reaches (wait := false) hctrl ha hb hva hpad hk hd hc hp).trans (stfeAt_run nofun))

end Sys2Proof.Machine

/-! O30. The drain of an element that a request has gone out for. -/

namespace Sys2Proof.Machine

/-- A write stream of one byte at address 0, whose element 9 has been sent to a peer that owned its page. -/
def sentStream : Stream :=
  { base := 0, size := 1, write := true, counts := Vector.replicate 4 1, strides := Vector.replicate 4 0, pos := 1, buf := [9],
    seqs := [0], drained := 0, refused := none, absent := none, tainted := none, gen := 0, sent := true }
/-- The page at 0 is one of this device now: it is in the translation cache of die 0, and domain 0 has all rights to it. -/
def sentState : State :=
  { State.reset with
    slots := [(0, { Slot.empty with streams := Vector.replicate 4 (some sentStream) })]
    dies := [(0, { DieSt.reset with tc := [{ va := 0, bits := 15, key := 3, pa := 0x8000, peer := none }] })]
    mem := [(3, 0x0F)] }

/-- Where the element stands, and the state once it has been looked up. -/
def sentSpot : ElemSpot × State := sentState.elemSpot (sentState.slotAt 0 0).ctx 0 (sentStream.addr 0).toNat 1 2

theorem sentSpot_here : sentSpot.1 = .here 0x8000 := by decide +kernel
theorem sentSpot_unguarded : (sentSpot.2.cmds.any fun m => m.guardsRange 0x8000 1) = false := by decide +kernel

/-- The drain leaves the stream with nothing sent. -/
theorem streamDrain_sentState : ∃ v, exec (.streamDrain 0 0 0) sentState = .next v ∧
    (v.slotAt 0 0).streams[(0 : Fin 4)] = some { sentStream with buf := [], seqs := [], drained := 1, sent := false } := by
  refine ⟨_, rfl, ?_⟩
  decide +kernel

/-- Refutes O30: the statement has a drain leave `sent`, which says that the oldest element has gone out to a peer, as it was. An element
that was sent and whose page has since become one of this device is performed here, and with it `sent` is cleared: it spoke of that
element, and the next one has not gone out. -/
theorem not_streamResults : ¬ Obligations.StreamResults := by
  unfold Obligations.StreamResults
  intro ⟨_, _, _, hevents⟩
  obtain ⟨-, hdrain⟩ := hevents 0 0 0 sentState sentSpot.2 sentStream 0x8000 rfl
  obtain ⟨v, hv, hstream, -⟩ := hdrain 9 [] rfl rfl rfl (Prod.ext sentSpot_here rfl) sentSpot_unguarded
  obtain ⟨v', hv', hstream'⟩ := streamDrain_sentState
  obtain rfl : v' = v := by simpa using hv'.symm.trans hv
  exact absurd (hstream'.symm.trans hstream) (by decide)

end Sys2Proof.Machine

/-! SUPPORT. All that an access to memory, or a record that goes out, leaves of the state. -/

namespace Sys2Proof.Machine

/-- The state without what accesses and records may change: memory and what guards it, the caches, the slots and their conflicts, the
engines' old copies, the control cores that an error stops, the event queue, requests to peers, free values, and two counters of the window. -/
def State.apart (s : State) : State :=
  { s with
    free := 0, mem := [], slots := [], cores := [], clusters := [], dies := [], cmds := [], upds := []
    regs := { s.regs with errcnt := 0, meqWidx := 0 }
    meqWait := [], meqOpen := [], meqPend := [], meqSeq := 0, msix := [], peerOut := [], linkHeld := []
    poison := [], poisonStore := [], covering := [], flaws := [], corrected := [], tolerant := [] }

section
variable {s t : State}

theorem foldl_apart {α : Type} {f : State → α → State} (hf : ∀ s x, (f s x).apart = s.apart) (l : List α) (s : State) :
    (l.foldl f s).apart = s.apart :=
  List.foldlRecOn l f (motive := fun t : State => t.apart = s.apart) rfl fun t ht x _ => (hf t x).trans ht
theorem ite_apart {p : Prop} [Decidable p] (h : s.apart = t.apart) {u : State} (h' : u.apart = t.apart) :
    (if p then s else u).apart = t.apart := by
  split
  · exact h
  · exact h'

/-! ### Poison, errors and caches -/

theorem State.tcFind_apart {die va} {x} (e : s.tcFind die va = some (x, t)) : t.apart = s.apart := by
  unfold State.tcFind at e
  split at e <;> cases e
  rfl

theorem State.noteUnit_apart (s : State) (unit va cluster) : (s.noteUnit unit va cluster).apart = s.apart := by
  unfold State.noteUnit
  exact ite_apart rfl rfl
theorem State.countFrame_apart (s : State) (pa va lost) : (s.countFrame pa va lost).apart = s.apart := by
  unfold State.countFrame
  dsimp only
  split <;> rfl
theorem State.ctrlLost_apart (s : State) (u) : (s.ctrlLost u).apart = s.apart := by
  unfold State.ctrlLost
  exact ite_apart rfl rfl
theorem State.dropSector_apart (s : State) (f) : (s.dropSector f).apart = s.apart := by
  unfold State.dropSector
  exact ite_apart rfl rfl
theorem State.addPoison_apart (s : State) (u store) : (s.addPoison u store).apart = s.apart := rfl
theorem State.errAdd_apart (s : State) (hi lo) : (s.errAdd hi lo).apart = s.apart := rfl

theorem State.meetFlaw_apart (s : State) (f va copy) : (s.meetFlaw f va copy).apart = s.apart := by
  have hgone : ({ s with flaws := s.flaws.filter fun x => x != f } : State).apart = s.apart := rfl
  unfold State.meetFlaw
  grind [State.countFrame_apart, State.errAdd_apart, State.ctrlLost_apart, State.addPoison_apart, State.dropSector_apart]
theorem State.found_apart (s : State) (f va) : (s.found f va).apart = s.apart := State.meetFlaw_apart ..
theorem State.probe_apart (s : State) (va sa n) : (s.probe va sa n).2.apart = s.apart :=
  foldl_apart (fun _ _ => State.found_apart ..) _ _
theorem State.tableProbe_apart (s : State) (sa n) : (s.tableProbe sa n).apart = s.apart := by
  have hp := State.probe_apart s none sa n
  grind [State.tableProbe, State.noteUnit_apart]

theorem State.evictProbe_apart (s : State) (store cluster a) : (s.evictProbe store cluster a).apart = s.apart := by
  have hmet (l : List Flaw) := foldl_apart (fun t f => State.meetFlaw_apart t f none (some true)) l s
  unfold State.evictProbe
  dsimp only
  split
  · exact hmet _
  · exact hmet _
theorem State.freshCopy_apart (s : State) (store a) : (s.freshCopy store a).apart = s.apart := rfl
theorem State.l2Back_apart (s : State) (y) : (s.l2Back y).apart = s.apart := by
  refine foldl_apart (fun t i => ?_) _ s
  dsimp only
  split
  · exact State.evictProbe_apart ..
  · rfl
theorem State.modDie_apart (s : State) (d f) : (s.modDie d f).apart = s.apart := rfl
theorem State.l2Put_apart (s : State) (pa dirty) : (s.l2Put pa dirty).apart = s.apart := by
  grind [State.l2Put, State.l2Back_apart, State.freshCopy_apart, State.modDie_apart]
theorem State.hotCount_apart (s : State) (pa va die) : (s.hotCount pa va die).apart = s.apart := by
  unfold State.hotCount
  exact ite_apart rfl (ite_apart rfl rfl)
theorem State.fillProbe_apart (s : State) (va pa) : (s.fillProbe va pa).apart = s.apart := by
  have hsecond (l : List Flaw) := foldl_apart (fun t f => State.found_apart t f va) l s
  have hfirst (l : List Flaw) (u : State) := foldl_apart (fun t f => State.meetFlaw_apart t f va (some true)) l u
  grind [State.fillProbe]
theorem State.l2Access_apart (s : State) (pa va die dirty) : (s.l2Access pa va die dirty).apart = s.apart := by
  rw [State.l2Access, State.hotCount_apart, State.l2Put_apart, State.fillProbe_apart]
theorem State.writeBack_apart (s : State) (core l) : (s.writeBack core l).apart = s.apart :=
  foldl_apart (fun t _ => ite_apart (by
    rw [State.hotCount_apart, State.l2Put_apart, State.freshCopy_apart, State.evictProbe_apart]) rfl) _ s
theorem State.modCore_apart (s : State) (c f) : (s.modCore c f).apart = s.apart := rfl
theorem State.dirtied_apart (s : State) (die va sa n) : (s.dirtied die va sa n).apart = s.apart :=
  ite_apart rfl (foldl_apart (fun t _ => ite_apart (State.modCore_apart t ..) (State.l2Access_apart t ..)) _ s)

/-! ### Writes to memory -/

theorem State.freshCode_apart (s : State) (va sa n) : (s.freshCode va sa n).apart = s.apart := by
  refine foldl_apart (fun t f => ?_) _ s
  exact ite_apart rfl (State.found_apart t f va)
theorem State.plainCode_apart (s : State) (sa n) : (s.plainCode sa n).apart = s.apart := ite_apart rfl rfl
theorem State.keepOld_apart (s : State) (sa n) : (s.keepOld sa n).apart = s.apart := rfl
theorem State.putBytes_apart (s : State) (va sa bytes) : (s.putBytes va sa bytes).apart = s.apart := by
  have hmem (t : State) (m : Memory) : (({ t with mem := m } : State).unpoison sa bytes.length).apart = t.apart := rfl
  rw [State.putBytes, State.dirtied_apart, hmem, State.plainCode_apart, State.freshCode_apart, State.keepOld_apart]
theorem State.flagTouched_apart (s : State) (lines) : (s.flagTouched lines).apart = s.apart := rfl

/-! ### Update-only lines, the first-level cache and resolving an address -/

theorem State.rightsAt_apart (s : State) (core dom key) : (s.rightsAt core dom key).2.apart = s.apart := by
  grind [State.rightsAt, State.modCore_apart, State.tableProbe_apart]

theorem UpdLine.mergeWord_apart (u : UpdLine) (r : Table Nat × State) (w) : (u.mergeWord r w).2.apart = r.2.apart := by
  have hp := State.probe_apart r.2 (some (256 * u.line + w.1)) (u.pa + w.1) u.size
  have hmem (t : State) (m : Memory) : ({ t with mem := m } : State).apart = t.apart := rfl
  unfold UpdLine.mergeWord
  dsimp only
  split
  next x t e => rw [e] at hp; exact (State.noteUnit_apart ..).trans hp
  next t e => rw [e] at hp; rw [State.dirtied_apart, hmem, State.plainCode_apart, State.keepOld_apart]; exact hp
theorem mergeWords_apart (u : UpdLine) (ws : List (Nat × Nat)) (r : Table Nat × State) :
    (ws.foldl u.mergeWord r).2.apart = r.2.apart :=
  List.foldlRecOn ws u.mergeWord (motive := fun q : Table Nat × State => q.2.apart = r.2.apart) rfl
    fun q hq w _ => (u.mergeWord_apart q w).trans hq

theorem State.traceEntry_apart (s : State) (home srcCore srcSlot commit va kind size) :
    (s.traceEntry home srcCore srcSlot commit va kind size).apart = s.apart := by
  grind [State.traceEntry, State.modCore_apart, State.flagTouched_apart, State.putBytes_apart]
theorem State.mergeOne_apart (s : State) (u) : (s.mergeOne u).apart = s.apart := by
  have hupds (t : State) (l : List UpdLine) : ({ t with upds := l } : State).apart = t.apart := rfl
  have hw (r) := mergeWords_apart u u.words r
  unfold State.mergeOne
  grind [State.traceEntry_apart, State.modCore_apart, foldl_apart]
theorem State.arriving_apart (s : State) (us) : (s.arriving us).2.apart = s.apart := by
  induction us generalizing s with
  | nil => rfl
  | cons u us ih =>
    have hdraw : s.drawBit.2.apart = s.apart := rfl
    cases us <;> grind [State.arriving]
theorem State.mergeAll_apart (s : State) (n us) : (s.mergeAll n us).apart = s.apart := by
  induction n generalizing s us with
  | zero => rfl
  | succ n ih =>
    have ha := State.arriving_apart s us
    grind [State.mergeAll, State.mergeOne_apart]
theorem State.recall_apart (s : State) (line) : (s.recall line).apart = s.apart := State.mergeAll_apart ..

theorem State.l1Fill_apart (s : State) (core x) : (s.l1Fill core x).apart = s.apart := by
  grind [State.l1Fill, State.freshCopy_apart, State.modCore_apart, State.writeBack_apart, State.mergeOne_apart, foldl_apart]
theorem State.walkProbe_apart (s : State) (va) : (s.walkProbe va).apart = s.apart :=
  foldl_apart (fun _ _ => State.tableProbe_apart ..) _ _
theorem State.linkProbe_apart (s : State) (dev) : (s.linkProbe dev).apart = s.apart := by
  grind [State.linkProbe, State.walkProbe_apart, State.tableProbe_apart]
theorem State.sendPeer_apart (s : State) (dev va dom op) : (s.sendPeer dev va dom op).apart = s.apart :=
  ite_apart rfl (State.linkProbe_apart s dev)
theorem State.checked_apart (s : State) (core dom need key sa) : (s.checked core dom need key sa).2.apart = s.apart :=
  State.rightsAt_apart ..
theorem State.tcFill_apart (s : State) (die x) : (s.tcFill die x).apart = s.apart := rfl

theorem State.resolve_apart (s : State) (core dom need va walkNow) :
    (s.resolve core dom need va walkNow).2.apart = s.apart := by
  unfold State.resolve
  split
  · exact State.checked_apart ..
  · split
    · rename_i hf
      grind [State.checked_apart, State.tcFind_apart, State.l1Fill_apart, State.l2Access_apart]
    · grind [State.checked_apart, State.tcFill_apart, State.walkProbe_apart, State.l1Fill_apart, State.l2Access_apart]
theorem State.devResolve_apart (s : State) (dom need va) : (s.devResolve dom need va).2.apart = s.apart := by
  grind [State.devResolve, State.resolve_apart]
theorem State.devWrite_apart (s : State) (va sa bytes) : (s.devWrite va sa bytes).apart = s.apart := by
  grind [State.devWrite, State.recall_apart, State.flagTouched_apart, State.putBytes_apart]

/-! ### Records -/

theorem State.meqTake_apart (s : State) (n) : (s.meqTake n).apart = s.apart := by
  induction n generalizing s with
  | zero => rfl
  | succ n ih =>
    unfold State.meqTake
    split
    · rfl
    · exact ite_apart (ih _) rfl
theorem State.ringStore_apart {va bytes} (e : s.ringStore va bytes = some t) : t.apart = s.apart := by
  grind [State.ringStore, State.devResolve_apart, State.devWrite_apart, State.sendPeer_apart]
theorem State.meqWrite_apart (e : s.meqWrite = some t) : t.apart = s.apart := by
  unfold State.meqWrite at e
  split at e
  · cases e
  · dsimp only at e
    split at e
    · cases e
    · split at e
      · cases e
      · split at e
        next u hu => cases e; exact (State.ringStore_apart hu :)
        next => cases e
theorem State.meqDrain_apart (s : State) (n) : (s.meqDrain n).apart = s.apart := by
  induction n generalizing s with
  | zero => rfl
  | succ n ih =>
    unfold State.meqDrain
    dsimp only
    split
    next u hu => exact (ih u).trans ((State.meqWrite_apart hu).trans (State.meqTake_apart ..))
    next => exact State.meqTake_apart ..
/-- A record is posted: beyond the event queue, whatever its write to the ring brings with it stays within accesses. -/
theorem State.post_apart (s : State) (kind cluster a b c) : (s.post kind cluster a b c).apart = s.apart :=
  (State.meqDrain_apart ..).trans rfl

end
end Sys2Proof.Machine

/-! SUPPORT. The service of an absent page, in a device without errors and with no strand in a park store. -/

namespace Sys2Proof.Machine

/-- Memory, the errors in it, the recorded faults, and the strands in slots and at cores stay. -/
structure State.StrandsStay (s t : State) : Prop where
  mem : t.mem = s.mem
  flaws : t.flaws = s.flaws
  faults : t.faults = s.faults
  slots : t.slots = s.slots
  cores : t.cores = s.cores

theorem State.StrandsStay.refl (s : State) : s.StrandsStay s := ⟨rfl, rfl, rfl, rfl, rfl⟩
theorem State.StrandsStay.trans {s t u : State} (h : s.StrandsStay t) (h' : t.StrandsStay u) : s.StrandsStay u :=
  ⟨h'.mem.trans h.mem, h'.flaws.trans h.flaws, h'.faults.trans h.faults, h'.slots.trans h.slots, h'.cores.trans h.cores⟩

section
variable {s : State} (h : s.flaws = [])
include h

/-! ### Without errors, what a write or a request brings with it touches no strand -/

theorem State.l2Put_strandsStay (pa : Nat) (dirty : Bool) : s.StrandsStay (s.l2Put pa dirty) := by
  unfold State.l2Put
  dsimp only
  cases l2Evicted (s.dieAt (pa / 2 ^ 37)).l2 (pa / 256) with
  | some y =>
    dsimp only
    rw [State.l2Back_of_flaws h, State.freshCopy_of_flaws h, ite_self]
    exact ⟨rfl, rfl, rfl, rfl, rfl⟩
  | none =>
    dsimp only
    rw [State.freshCopy_of_flaws h, ite_self]
    exact ⟨rfl, rfl, rfl, rfl, rfl⟩

omit h in
theorem State.plainCode_strandsStay (s : State) (sa n : Nat) : s.StrandsStay (s.plainCode sa n) := by
  unfold State.plainCode
  split
  · exact .refl s
  · exact ⟨rfl, rfl, rfl, rfl, rfl⟩

theorem State.putPhys_strandsStay (pa : Nat) (l : List Byte) :
    ({ s with mem := s.mem.writeN pa l } : State).StrandsStay (s.putPhys pa l) := by
  have hkeep : s.StrandsStay (s.keepOld pa l.length) := ⟨rfl, rfl, rfl, rfl, rfl⟩
  have hfresh : (s.keepOld pa l.length).freshCode none pa l.length = s.keepOld pa l.length := by
    rw [State.freshCode, hkeep.flaws, h]
    rfl
  have hcode := hkeep.trans (State.plainCode_strandsStay (s.keepOld pa l.length) pa l.length)
  unfold State.putPhys
  rw [hfresh]
  generalize (s.keepOld pa l.length).plainCode pa l.length = u at hcode ⊢
  have hwrite : ({ s with mem := s.mem.writeN pa l } : State).StrandsStay
      (({ u with mem := u.mem.writeN pa l } : State).unpoison pa l.length) :=
    ⟨congrArg (·.writeN pa l) hcode.mem, hcode.flaws, hcode.faults, hcode.slots, hcode.cores⟩
  exact hwrite.trans (State.l2Put_strandsStay (hwrite.flaws.trans h) pa true)

theorem State.tableProbe_strandsStay (sa n : Nat) : s.StrandsStay (s.tableProbe sa n) := by
  obtain ⟨l, hl⟩ := State.tableProbe_of_flaws h sa n
  rw [hl]
  exact ⟨rfl, rfl, rfl, rfl, rfl⟩

theorem State.linkProbe_strandsStay (dev : Nat) : s.StrandsStay (s.linkProbe dev) := by
  unfold State.linkProbe
  dsimp only
  generalize bitsOf s.regs.lrtbase.toNat 63 15 * 2 ^ 15 + dev = va
  obtain ⟨l, hl⟩ := State.walkProbe_of_flaws h va
  have hwalk : s.StrandsStay (s.walkProbe va) := by
    rw [hl]
    exact ⟨rfl, rfl, rfl, rfl, rfl⟩
  split
  · split
    · exact hwalk.trans (State.tableProbe_strandsStay (hwalk.flaws.trans h) ..)
    · exact hwalk
  · exact hwalk
  · exact hwalk

theorem State.sendPeer_strandsStay (dev va dom : Nat) (op : PeerOp) : s.StrandsStay (s.sendPeer dev va dom op) := by
  have hlink := State.linkProbe_strandsStay h dev
  unfold State.sendPeer
  split
  · exact ⟨rfl, rfl, rfl, rfl, rfl⟩
  · exact ⟨hlink.mem, hlink.flaws, hlink.faults, hlink.slots, hlink.cores⟩

theorem State.wakeForeign_strandsStay (p : Nat → Bool) : s.StrandsStay (s.wakeForeign p) := by
  have hstart : s.StrandsStay { s with foreignParked := s.foreignParked.filter fun e => !p e.2.2 } := ⟨rfl, rfl, rfl, rfl, rfl⟩
  unfold State.wakeForeign
  exact List.foldlRecOn _ _ (motive := s.StrandsStay) hstart fun t ht e _ =>
    ht.trans (State.sendPeer_strandsStay (ht.flaws.trans h) ..)

end

/-! ### Whom the service lets go on -/

/-- A stream whose element waited for the page goes on. -/
def PageFault.freesStream (f : PageFault) (st : Stream) : Stream := if st.absent.any f.covers then { st with absent := none } else st
def PageFault.freesStreams (f : PageFault) (x : Slot) : Slot :=
  { x with streams := x.streams.map fun (o : Option Stream) => o.map f.freesStream }
/-- A strand that is parked on the page is woken. -/
def PageFault.parks (f : PageFault) (x : Slot) : Bool := match x.wait with | some (.page va) => f.covers va | _ => false
def PageFault.wakes (f : PageFault) (x : Slot) : Slot :=
  if x.ctx.parked && x.wait != some .verdict && f.parks x then x.woken else x

theorem PageFault.freesStreams_empty (f : PageFault) : f.freesStreams Slot.empty = Slot.empty := by
  simp [PageFault.freesStreams, Slot.empty]
theorem PageFault.wakes_empty (f : PageFault) : f.wakes Slot.empty = Slot.empty := rfl

theorem PageFault.wakes_of_page {f : PageFault} {x : Slot} {va : Nat} (hw : x.wait = some (.page va)) (hp : x.ctx.parked = true)
    (hc : f.covers va = true) : f.wakes x = x.woken := by
  have hparks : f.parks x = true := by rw [PageFault.parks, hw]; exact hc
  rw [PageFault.wakes, hparks, hp, hw]
  rfl

/-- Where no strand is in a park store, a wake changes slots through `mapKept` alone. -/
theorem State.wakeWhere_of_none {s : State} (h : ∀ e ∈ s.cores, e.2.parkStore = []) (p : Slot → Bool) :
    s.wakeWhere p = s.mapKept fun x => if x.ctx.parked && x.wait != some .verdict && p x then x.woken else x :=
  State.seatWoken_of_none (State.mapKept_parkStore _ h)

theorem State.pageServed_eq {s : State} (hflaws : s.flaws = []) (hstore : s.NoneStored) (f : PageFault) :
    ∃ t, (({ s with faults := s.faults.filter fun g => g != f } : State).mapKept f.freesStreams).StrandsStay t ∧
      s.pageServed f = t.mapKept f.wakes := by
  have hwake (u : State) (hu : (({ s with faults := s.faults.filter fun g => g != f } : State).mapKept f.freesStreams).StrandsStay u) :
      ∃ t, (({ s with faults := s.faults.filter fun g => g != f } : State).mapKept f.freesStreams).StrandsStay t ∧
        (u.wakeForeign f.covers).wakeWhere f.parks = t.mapKept f.wakes := by
    have hstay := hu.trans (State.wakeForeign_strandsStay (hu.flaws.trans hflaws) f.covers)
    refine ⟨_, hstay, State.wakeWhere_of_none ?_ _⟩
    rw [hstay.cores]
    exact State.mapKept_parkStore _ hstore
  exact hwake _ ⟨rfl, rfl, rfl, rfl, rfl⟩

section
variable {s : State} {f : PageFault}

theorem State.find_fault (hf : f ∈ s.faults) (hpost : f.posted = false) (hone : ∀ g ∈ s.faults, g.va = f.va → g = f) :
    (s.faults.find? fun g => g.va == f.va && !g.posted) = some f := by
  cases hg : s.faults.find? fun g => g.va == f.va && !g.posted with
  | none => exact absurd (List.find?_eq_none.mp hg f hf) (by simp [hpost])
  | some g =>
    have hmeets := List.find?_some (p := fun g : PageFault => g.va == f.va && !g.posted) hg
    simp only [Bool.and_eq_true, beq_iff_eq] at hmeets
    rw [hone g (List.mem_of_find?_eq_some hg) hmeets.1]

/-- The device serves a page: it sets P in the leaf (R333). -/
theorem execPageService_eq {ea e lo : Nat} (hf : f ∈ s.faults) (hpost : f.posted = false)
    (hone : ∀ g ∈ s.faults, g.va = f.va → g = f) (he : s.entryOf f.va = some (ea, e, lo)) (hp : e % 2 = 0) :
    exec (.pageService f.va) s = .next ((s.putPhys ea (leBytes 8 (e + 1))).pageServed f) := by
  have hbit : bitOf e 0 = false := by simp [bitOf, hp]
  change execPageService f.va s = _
  unfold execPageService
  rw [State.find_fault hf hpost hone]
  dsimp only
  rw [he]
  dsimp only
  rw [hbit, if_neg Bool.false_ne_true]

theorem execPageService_answers (va : Nat) (s : State) : ∃ t, exec (.pageService va) s = .next t := by
  change ∃ t, execPageService va s = .next t
  unfold execPageService
  dsimp only
  split
  · exact ⟨_, rfl⟩
  · split <;> exact ⟨_, rfl⟩

end

end Sys2Proof.Machine

/-! SUPPORT. Page moves. -/

namespace Sys2Proof.Machine

/-- A move that MIGREQ asked for ends its BUSY, and says whether it failed (R78). -/
def Mig.settled (m : Mig) (s : State) (fail : Bool) : State :=
  if m.asked then { s with regs := { s.regs with migBusy := false, migFail := fail } } else s

theorem Mig.settled_mem (m : Mig) (s : State) (fail : Bool) : (m.settled s fail).mem = s.mem := by
  unfold Mig.settled
  split <;> rfl
theorem Mig.settled_migs (m : Mig) (s : State) (fail : Bool) : (m.settled s fail).migs = s.migs := by
  unfold Mig.settled
  split <;> rfl
theorem Mig.settled_asked {m : Mig} (h : m.asked = true) (s : State) (fail : Bool) :
    (m.settled s fail).regs.migBusy = false ∧ (m.settled s fail).regs.migFail = fail := by
  rw [Mig.settled, if_pos h]
  exact ⟨rfl, rfl⟩

/-- The stack that a move goes to: the next one where the first has no free frame and either will do. -/
def Mig.target (m : Mig) (s : State) : Nat := if m.either && (s.freeHead m.stack).isNone then m.stack + 1 else m.stack

theorem execPageMigration_waits {s : State} (d : Nat) (h : s.switching ≠ none) : exec (.pageMigration d) s = .next s :=
  if_pos (Option.isSome_iff_ne_none.mpr h)

theorem execPageMigration_answers (d : Nat) (s : State) : ∃ t, exec (.pageMigration d) s = .next t := by
  change ∃ t, execPageMigration d s = .next t
  unfold execPageMigration
  dsimp only
  split
  · exact ⟨_, rfl⟩
  · split
    · exact ⟨_, rfl⟩
    · split
      · exact ⟨_, rfl⟩
      · split <;> exact ⟨_, rfl⟩

section
variable {s w : State} {m : Mig} {l : List Mig} (hmigs : s.migs = m :: l) (hm : m ∉ l) (hw : w = { s with migs := l })
  (hswitch : s.switching = none)
include hmigs hm hw hswitch

/-- The engine takes its oldest move off the list. -/
theorem execPageMigration_eq : exec (.pageMigration m.die) s = match w.canMove m.va (m.target w) with
    | none => .next (m.settled w true)
    | some old => match w.takeFrame (m.target w) with
      | some (new, u) => .next (m.settled ((u.movePage m.va old new).giveFrame old) false)
      | none => .next (m.settled w true) := by
  have hfind : (m :: l).find? (fun x => x.die == m.die) = some m := List.find?_cons_of_pos (by simp)
  have hrest : (m :: l).filter (fun x => x != m) = l := by
    rw [List.filter_cons_of_neg (by simp)]
    exact List.filter_eq_self.mpr fun x hx => bne_iff_ne.mpr fun h => hm (h ▸ hx)
  change execPageMigration m.die s = _
  unfold execPageMigration
  rw [if_neg (by simp [hswitch]), hmigs, hfind]
  subst hw
  dsimp only
  rw [hrest]
  rfl

theorem execPageMigration_fails (hcan : w.canMove m.va (m.target w) = none) :
    exec (.pageMigration m.die) s = .next (m.settled w true) := by
  rw [execPageMigration_eq hmigs hm hw hswitch, hcan]

theorem execPageMigration_moves {old new : Nat} {u : State} (hcan : w.canMove m.va (m.target w) = some old)
    (htake : w.takeFrame (m.target w) = some (new, u)) :
    exec (.pageMigration m.die) s = .next (m.settled ((u.movePage m.va old new).giveFrame old) false) := by
  rw [execPageMigration_eq hmigs hm hw hswitch, hcan]
  dsimp only
  rw [htake]

end

end Sys2Proof.Machine

/-! SUPPORT. The end of a migration epoch. -/

namespace Sys2Proof.Machine

/-! ### Candidates -/

theorem mem_insertDown {α : Type} {f : α → Nat} {x y : α} {l : List α} (h : y ∈ insertDown f x l) : y = x ∨ y ∈ l := by
  induction l with
  | nil => exact .inl (List.mem_singleton.mp h)
  | cons z l ih =>
    unfold insertDown at h
    split at h
    · exact List.mem_cons.mp h
    · rcases List.mem_cons.mp h with rfl | h
      · exact .inr List.mem_cons_self
      · exact (ih h).imp_right (List.mem_cons_of_mem z)

/-- Sorting by insertion brings nothing new. -/
theorem mem_foldl_insertDown {α : Type} {f : α → Nat} {y : α} {l : List α}
    (h : y ∈ l.foldl (fun r x => insertDown f x r) []) : y ∈ l :=
  List.foldlRecOn l _ (motive := fun r : List α => ∀ z ∈ r, z ∈ l) (fun _ hz => absurd hz List.not_mem_nil)
    (fun _ hr _ hx _ hz => (mem_insertDown hz).elim (fun h => h ▸ hx) (hr _)) y h

/-- R78's rule for a page of the hot table: another die has used it most, often enough and at least twice as often as the die it stands
at, and the address last used still maps to the frame. -/
def HotEntry.fits (e : HotEntry) (s : State) (die : Nat) : Bool :=
  e.top != die && decide (bitsOf s.regs.migctl.toNat 31 16 ≤ e.count e.top) && decide (2 * e.count die ≤ e.count e.top)
    && match e.va with
      | some va => s.smallFrame va == some (e.frame * frameSize)
      | none => false

theorem HotEntry.fits_iff {e : HotEntry} {s : State} {die : Nat} (h : e.fits s die = true) : ∃ va, e.va = some va ∧ e.top ≠ die ∧
    bitsOf s.regs.migctl.toNat 31 16 ≤ e.count e.top ∧ 2 * e.count die ≤ e.count e.top ∧
    s.smallFrame va = some (e.frame * frameSize) := by
  unfold HotEntry.fits at h
  cases hva : e.va with
  | none => simp [hva] at h
  | some va =>
    simp only [hva, Bool.and_eq_true, bne_iff_ne, decide_eq_true_eq, beq_iff_eq] at h
    obtain ⟨⟨⟨htop, hcount⟩, htwice⟩, hframe⟩ := h
    exact ⟨va, rfl, htop, hcount, htwice, hframe⟩

/-- The pages that an epoch picks: those used most, no more than MAX. -/
def State.epochPicks (s : State) (die : Nat) : List HotEntry :=
  (((s.dieAt die).hot.filter (HotEntry.fits · s die)).foldl (fun l e => insertDown (fun e => e.count e.top) e l) []).take
    (bitsOf s.regs.migctl.toNat 15 8)

theorem State.mem_epochPicks {s : State} {die : Nat} {e : HotEntry} (h : e ∈ s.epochPicks die) :
    e ∈ (s.dieAt die).hot ∧ e.fits s die = true :=
  List.mem_filter.mp (mem_foldl_insertDown (List.mem_of_mem_take h))

/-! ### Decided moves -/

/-- The move of a picked page: to the die that used it most, to either of its stacks, and of the engine's own accord. -/
structure Mig.For (m : Mig) (e : HotEntry) : Prop where
  asked : m.asked = false
  either : m.either = true
  va : m.va = e.va.getD 0
  stack : m.stack = 2 * e.top

/-- The engine decides on a picked page itself, or reports it to system software, which then decides (R20, R78). -/
def State.decidePick (s : State) (e : HotEntry) : State := s.addMig (e.va.getD 0) (2 * e.top) false true
def State.reportPick (s : State) (e : HotEntry) : State :=
  s.post 5 0xFFFF (wordN (e.va.getD 0)) (wordN (2 * e.top)) (wordN (e.count e.top))

theorem State.decidePick_migs (s : State) (e : HotEntry) : ∃ l, s.decidePick e = { s with migs := s.migs ++ l } ∧
    l.length ≤ 1 ∧ ∀ m ∈ l, m.For e := by
  have hnone : s = { s with migs := s.migs ++ [] } := by rw [List.append_nil]
  unfold State.decidePick State.addMig
  rw [if_pos rfl]
  split
  · split
    · exact ⟨[], hnone, Nat.zero_le 1, nofun⟩
    · refine ⟨_, rfl, Nat.le_refl 1, fun m hm => ?_⟩
      cases List.mem_singleton.mp hm
      exact ⟨rfl, rfl, rfl, rfl⟩
  · exact ⟨[], hnone, Nat.zero_le 1, nofun⟩

theorem State.decidePicks_migs (s : State) (es : List HotEntry) :
    ∃ l, es.foldl State.decidePick s = { s with migs := s.migs ++ l } ∧
      l.length ≤ es.length ∧ ∀ m ∈ l, ∃ e ∈ es, m.For e := by
  induction es generalizing s with
  | nil => exact ⟨[], by rw [List.append_nil]; rfl, Nat.le_refl 0, nofun⟩
  | cons e es ih =>
    obtain ⟨l, hl, hlen, hfor⟩ := s.decidePick_migs e
    obtain ⟨r, hr, hrlen, hrfor⟩ := ih { s with migs := s.migs ++ l }
    refine ⟨l ++ r, ?_, ?_, fun m hm => ?_⟩
    · rw [List.foldl_cons, hl, hr, List.append_assoc]
    · rw [List.length_append, List.length_cons]
      omega
    · rcases List.mem_append.mp hm with hm | hm
      · exact ⟨e, List.mem_cons_self, hfor m hm⟩
      · obtain ⟨e', he', hm'⟩ := hrfor m hm
        exact ⟨e', List.mem_cons_of_mem e he', hm'⟩

/-! ### The epoch -/

/-- Counts of the hot table halve, and entries of 0 are dropped. -/
def State.coolHot (s : State) (die : Nat) : State :=
  s.modDie die fun d =>
    { d with hot := (d.hot.map fun e => { e with counts := e.counts.map (· / 2) }).filter fun e => e.counts.toList.any (0 < ·) }

theorem State.reportPicks_apart (s : State) (es : List HotEntry) : (es.foldl State.reportPick s).apart = s.apart :=
  foldl_apart (fun t _ => State.post_apart t ..) es s

theorem execMigrationEpoch_eq (die : Nat) (s : State) : exec (.migrationEpoch die) s = .next (((s.epochPicks die).foldl
    (fun t e => if bitOf s.regs.dmode.toNat 4 then t.reportPick e else t.decidePick e) s).coolHot die) := rfl

section
variable {s : State} (die : Nat)

theorem execMigrationEpoch_decides (h : s.regs.dmode.toNat.testBit 4 = false) :
    exec (.migrationEpoch die) s = .next (((s.epochPicks die).foldl State.decidePick s).coolHot die) := by
  rw [execMigrationEpoch_eq, bitOf_eq_testBit, h]
  rfl
theorem execMigrationEpoch_reports (h : s.regs.dmode.toNat.testBit 4 = true) :
    exec (.migrationEpoch die) s = .next (((s.epochPicks die).foldl State.reportPick s).coolHot die) := by
  rw [execMigrationEpoch_eq, bitOf_eq_testBit, h]
  rfl

end

/-- Settles O47, an event at a time: without errors the service changes strands through its wake alone (`State.StrandsStay`); a move leaves
the list of those decided; an epoch adds the moves of its picks, or their records, which are no decisions (`State.post_apart`). -/
theorem pageEventsTakeEffect : Obligations.PageEventsTakeEffect := by
  unfold Obligations.PageEventsTakeEffect
  refine ⟨?service, ?answers, ?move, fun d s => ⟨?decides, ?reports⟩⟩
  case service =>
    intro s f ea e lo c k hf hpost hone he hp hstore hk hflaws
    have hput := State.putPhys_strandsStay hflaws ea (leBytes 8 (e + 1))
    have hnone : (s.putPhys ea (leBytes 8 (e + 1))).NoneStored := by rwa [State.NoneStored, hput.cores]
    obtain ⟨t, ht, hserved⟩ := State.pageServed_eq (hput.flaws.trans hflaws) hnone f
    refine ⟨t.mapKept f.wakes, (execPageService_eq hf hpost hone he hp).trans (congrArg _ hserved), ht.mem.trans hput.mem, ?_,
      fun va hw hparked hc => ?_⟩
    · have hfaults : (t.mapKept f.wakes).faults = (s.putPhys ea (leBytes 8 (e + 1))).faults.filter fun g => g != f := ht.faults
      simp [hfaults]
    · have hslot : t.slotAt c k = f.freesStreams (s.slotAt c k) := by
        rw [State.slotAt, ht.slots]
        refine (State.slotAt_mapKept _ f.freesStreams_empty c k).trans (congrArg f.freesStreams ?_)
        rw [State.slotAt, State.slotAt]
        exact congrArg (Table.get Slot.empty · (16 * c + k)) hput.slots
      have hwoken : f.wakes (f.freesStreams (s.slotAt c k)) = (f.freesStreams (s.slotAt c k)).woken :=
        PageFault.wakes_of_page hw hparked hc
      rw [State.slotAt_mapKept _ f.wakes_empty, hslot, hwoken]
      exact ⟨rfl, rfl⟩
  case answers =>
    exact fun va d s => ⟨execPageService_answers va s, execPageMigration_answers d s, execPageMigration_waits d,
      ⟨_, execMigrationEpoch_eq d s⟩⟩
  case move =>
    rintro d n s w m l hmigs rfl hm hw rfl hswitch
    refine ⟨fun hcan => ⟨_, execPageMigration_fails hmigs hm hw hswitch hcan, ?_, ?_, fun ha => Mig.settled_asked ha w true⟩,
      fun old new u hcan htake => ⟨_, execPageMigration_moves hmigs hm hw hswitch hcan htake, Mig.settled_mem .., fun ha =>
        Mig.settled_asked ha _ false⟩⟩
    · rw [Mig.settled_migs, hw]
    · rw [Mig.settled_mem, hw]
  case decides =>
    intro hsoft
    obtain ⟨l, hl, hlen, hfor⟩ := State.decidePicks_migs s (s.epochPicks d)
    refine ⟨_, l, execMigrationEpoch_decides d hsoft, ?_, hlen.trans (List.length_take_le ..), fun m hm => ?_, ?_⟩
    · rw [State.coolHot, State.modDie_migs, hl]
    · obtain ⟨e, he, hasked, heither, hva, hstack⟩ := hfor m hm
      obtain ⟨hhot, hfits⟩ := State.mem_epochPicks he
      obtain ⟨va, heva, htop, hcount, htwice, hframe⟩ := HotEntry.fits_iff hfits
      have hmva : m.va = va := by rw [hva, heva, Option.getD_some]
      exact ⟨hasked, heither, e, hhot, hmva ▸ heva, hstack, htop, hcount, htwice, hmva ▸ hframe⟩
    · rw [State.coolHot, State.dieAt_modDie, hl]
      rfl
  case reports =>
    intro hsoft
    exact ⟨_, execMigrationEpoch_reports d hsoft, (congrArg State.migs (State.reportPicks_apart s (s.epochPicks d)) :)⟩

end Sys2Proof.Machine

/-! SUPPORT. Requests and strands of peers: what waits, what is served, and who is admitted. -/

namespace Sys2Proof.Machine

/-! ### Requests -/

section
variable {s : State} {dom : Nat} {va : Word} {op : PeerOp}

/-- What a request that arrives adds to those that wait (R355). -/
theorem execPeerRequest_eq (hheld : s.peerHeld = []) (hop : op ≠ .load 0) : exec (.peerRequest dom va op) s =
    .next (({ s with peerHeld := [] } : State).retryPeers
      (if (s.links.get LinkSt.reset (dom / 4096)).flows then [(dom / 4096, dom % 4096, va, op)] else []) []) := by
  change execPeerRequest dom va op s = _
  unfold execPeerRequest
  dsimp only
  rw [hheld, List.nil_append]
  split
  · exact absurd rfl hop
  · rfl

theorem execPeerRequest_stalled (hheld : s.peerHeld = []) (hop : op ≠ .load 0)
    (hlink : (s.links.get LinkSt.reset (dom / 4096)).flows = false) : exec (.peerRequest dom va op) s = .next s := by
  rw [execPeerRequest_eq hheld hop, hlink, if_neg Bool.false_ne_true, State.retryPeers, ← hheld]

variable (hheld : s.peerHeld = []) (hop : op ≠ .load 0) (hlink : (s.links.get LinkSt.reset (dom / 4096)).flows = true)
include hheld hop hlink

theorem execPeerRequest_served {a : PeerAns} {u : State}
    (hserve : ({ s with peerHeld := [] } : State).servePeer (dom % 4096) va.toNat op = (some a, u)) :
    exec (.peerRequest dom va op) s = .next { u with peerIn := u.peerIn ++ [a] } := by
  rw [execPeerRequest_eq hheld hop, hlink, if_pos rfl]
  simp [State.retryPeers, hserve]

theorem execPeerRequest_held {u : State}
    (hserve : ({ s with peerHeld := [] } : State).servePeer (dom % 4096) va.toNat op = (none, u)) :
    exec (.peerRequest dom va op) s = .next { u with peerHeld := u.peerHeld ++ [(dom / 4096, dom % 4096, va, op)] } := by
  rw [execPeerRequest_eq hheld hop, hlink, if_pos rfl]
  simp [State.retryPeers, hserve]

end

/-- A load from outside the translated space is answered by an access fault (R286). -/
theorem State.servePeer_load_outside (s : State) {dom va n : Nat} (hva : 2 ^ 56 ≤ va) :
    s.servePeer dom va (.load n) = (some (.fault 4 0), s) := by
  simp only [State.servePeer, if_neg (Nat.not_lt.mpr hva), State.devSpot]

/-! ### Strands -/

section
variable {s : State} {dev : Nat} {x : Ctx}

theorem State.shippedAs_of_none (h : s.shipped = []) (dev : Nat) (x : Ctx) : s.shippedAs dev x = none := by
  simp [State.shippedAs, h]

/-- A welcome may free the classes and the dictionary of a launch; the home map, the launches, and who owns a core or waits at it stay. -/
structure State.Welcomed (s t : State) : Prop where
  regs : t.regs = s.regs
  launches : t.launches = s.launches
  owner : ∀ c, (t.coreAt c).owner = (s.coreAt c).owner
  arrivals : ∀ c, (t.coreAt c).arrivals = (s.coreAt c).arrivals

theorem State.welcome_welcomed (s : State) (dev : Nat) (x : Ctx) : s.Welcomed (s.welcome dev x) := by
  unfold State.welcome
  dsimp only
  split
  · exact ⟨rfl, rfl, fun _ => rfl, fun _ => rfl⟩
  · split
    · exact ⟨rfl, rfl, fun _ => rfl, fun _ => rfl⟩
    · generalize (Launch.ofPeer dev x.launch.toNat).num = num
      have hcore (c : Nat) := Table.get_map_val (fun q : CoreSt => { q with dicts := q.dicts.filter fun d => d.1 != num })
        s.cores CoreSt.reset c rfl
      exact ⟨rfl, rfl, fun c => (congrArg CoreSt.owner (hcore c) :), fun c => (congrArg CoreSt.arrivals (hcore c) :)⟩

theorem State.Welcomed.homeOf {t : State} (h : s.Welcomed t) (va : Nat) : t.homeOf va = s.homeOf va := by
  rw [State.homeOf, State.homeOf, h.regs]
theorem State.Welcomed.manualCore {t : State} (h : s.Welcomed t) (c : Nat) : t.manualCore c = s.manualCore c := by
  simp only [State.manualCore, h.owner, State.launch?, h.launches]
theorem State.Welcomed.admits {t : State} (h : s.Welcomed t) (va : Nat) : t.admits va = s.admits va := by
  rw [State.admits, State.admits, h.homeOf, h.arrivals, h.manualCore]

theorem State.arrivals_arrive (s : State) (x : Ctx) (va : Nat) : ((s.arrive x va).coreAt (s.homeOf va)).arrivals =
    (s.coreAt (s.homeOf va)).arrivals ++ [{ ctx := { x with guest := true }, predH := 0, predN := 0 }] := by
  rw [State.arrive, State.coreAt_modCore]

theorem execPeerStrandArrival_stalled {l : List Byte} {va : Word} (h : s.linkStalled dev = true) :
    exec (.peerStrandArrival dev l va) s = .next s :=
  if_pos h

theorem execPeerStrandArrival_admitted {l : List Byte} {va : Word} (hship : s.shipped = []) (hlink : s.linkStalled dev = false)
    (hadm : s.admits va.toNat = true) : exec (.peerStrandArrival dev l va) s =
      .next ((s.welcome dev (Ctx.ofLine l)).arrive { Ctx.ofLine l with foreign := some dev } va.toNat) := by
  change execPeerStrandArrival dev l va s = _
  unfold execPeerStrandArrival
  dsimp only
  rw [hlink, if_neg Bool.false_ne_true, State.shippedAs_of_none hship]
  dsimp only
  rw [(State.welcome_welcomed s dev (Ctx.ofLine l)).admits, hadm, if_pos rfl]

end

end Sys2Proof.Machine

/-! SUPPORT. Links that send again, retrain and go down; scrubbing and the tables of corrected errors. -/

namespace Sys2Proof.Machine

/-! ### Links -/

section
variable {s : State} {n k : Nat} (hn : n < 18) (hup : (s.links.get LinkSt.reset n).up = true)
include hn hup

theorem execLinkRetransmit_eq (hk : k < 8) (hr : (s.links.get LinkSt.reset n).replays < 16) : exec (.linkRetransmit n k) s =
    .next (s.setLink n { s.links.get LinkSt.reset n with
      replays := if 4 ≤ k then 0 else (s.links.get LinkSt.reset n).replays + 1 }) := by
  change execLinkRetransmit n k s = _
  unfold execLinkRetransmit
  dsimp only
  rw [if_neg (by simp [hup]; omega), Nat.min_eq_left hr]

omit hn hup in
theorem execLinkRetransmit_retrains (hr : 16 ≤ (s.links.get LinkSt.reset n).replays) : exec (.linkRetransmit n k) s = .next s :=
  if_pos (by rw [decide_eq_true hr, Bool.or_true])

variable (hr : 16 ≤ (s.links.get LinkSt.reset n).replays)
include hr

/-- The first retraining of an episode is counted (log 78). -/
def State.retrainCounted (s : State) (n : Nat) : State :=
  if (s.links.get LinkSt.reset n).failed = 0 then s.errAdd 63 56 else s

omit hn hup hr in
theorem State.retrainCounted_again (h : 0 < (s.links.get LinkSt.reset n).failed) : s.retrainCounted n = s := if_neg (Nat.ne_of_gt h)

theorem execLinkRetrain_eq (ok : Bool) : exec (.linkRetrain n ok) s =
    if ok then .next ((s.retrainCounted n).setLink n LinkSt.reset)
    else if (s.links.get LinkSt.reset n).failed < 2 then
      .next ((s.retrainCounted n).setLink n
        { s.links.get LinkSt.reset n with failed := (s.links.get LinkSt.reset n).failed + 1 })
    else .next ((((s.retrainCounted n).setLink n { up := false, replays := 0, failed := 0 }).linkLost n).report allOnes64 0 5 6
      (wordN n)) := by
  change execLinkRetrain n ok s = _
  unfold execLinkRetrain
  dsimp only
  rw [if_neg (by simp [hup]; omega), State.retrainCounted]

theorem execLinkRetrain_passes : exec (.linkRetrain n true) s = .next ((s.retrainCounted n).setLink n LinkSt.reset) := by
  rw [execLinkRetrain_eq hn hup hr, if_pos rfl]
theorem execLinkRetrain_fails (hf : (s.links.get LinkSt.reset n).failed < 2) : exec (.linkRetrain n false) s =
    .next ((s.retrainCounted n).setLink n
      { s.links.get LinkSt.reset n with failed := (s.links.get LinkSt.reset n).failed + 1 }) := by
  rw [execLinkRetrain_eq hn hup hr, if_neg Bool.false_ne_true, if_pos hf]
/-- The third failure in a row takes the link down and is reported (R355). -/
theorem execLinkRetrain_gives_up (hf : 2 ≤ (s.links.get LinkSt.reset n).failed) : exec (.linkRetrain n false) s =
    .next (((s.setLink n { up := false, replays := 0, failed := 0 }).linkLost n).post 9 0xFFFF (BitVec.allOnes 64)
      (wordN (5 * 2 ^ 32 + 6 * 2 ^ 40)) (wordN n)) := by
  rw [execLinkRetrain_eq hn hup hr, if_neg Bool.false_ne_true, if_neg (Nat.not_lt.mpr hf),
    State.retrainCounted_again (by omega), State.report]
  rfl

end

/-- A link that goes down with no strand here and none away leaves links and memory as they are. -/
theorem State.linkLost_of_none {s : State} (hslots : s.slots = []) (hship : s.shipped = []) (n : Nat) :
    (s.linkLost n).links = s.links ∧ (s.linkLost n).mem = s.mem := by
  have hlist : s.slotList = [] := by rw [State.slotList, hslots, List.map_nil]
  unfold State.linkLost
  rw [hlist]
  dsimp only [List.foldl_nil]
  generalize hu : List.foldl _ s (s.homing.filter fun e => s.linkOf e.1 == some n) = u
  have hfold : u.shipped = s.shipped ∧ u.links = s.links ∧ u.mem = s.mem := by
    subst hu
    exact List.foldlRecOn _ _ (motive := fun t : State => t.shipped = s.shipped ∧ t.links = s.links ∧ t.mem = s.mem) ⟨rfl, rfl, rfl⟩
      fun t ht _ _ => ht
  obtain ⟨hu1, hu2⟩ := hfold
  rw [hu1, hship]
  exact hu2

/-! ### Errors -/

/-- The entry that an error corrected by a scrub opens (R350). -/
def CorrEntry.opened (s : State) (pa : Nat) : CorrEntry :=
  { frame := pa / 2 ^ 15, count := 1, va := none, due := false, soft := s.regs.dmode.toNat.testBit 3, posted := false }

theorem State.countFrame_opens {s : State} (h : s.corrected = []) (pa : Nat) :
    s.countFrame pa none false = { s with corrected := [CorrEntry.opened s pa] } := by
  simp [State.countFrame, h, CorrEntry.opened, bitOf_eq_testBit]

theorem State.scrubbed_corrected {s : State} {f : Flaw} (hkind : f.kind = .corrected) (hstore : f.store = 0) (hunit : f.unit < 2 ^ 40)
    (h : s.corrected = []) : s.scrubbed f = ({ s with
      flaws := s.flaws.filter fun x => x != f
      corrected := [CorrEntry.opened s f.unit] } : State).errAdd 15 0 := by
  have hframe : (f.store == 0 && decide (f.unit < 2 ^ 40)) = true := by rw [hstore, decide_eq_true hunit]; rfl
  have hcopy : s.copyOf f = some true := by simp [State.copyOf, hstore]
  have hopen : ({ s with flaws := s.flaws.filter fun x => x != f } : State).corrected = [] := h
  have hfrees : (f.kind == .uncorrectable && s.hidden f) = false := by rw [hkind]; rfl
  rw [State.scrubbed, hfrees, if_neg Bool.false_ne_true, State.found, hcopy]
  unfold State.meetFlaw
  rw [hkind]
  dsimp only
  rw [if_pos hframe, State.countFrame_opens hopen]
  rfl

theorem execScrubRead_corrected {s : State} {f : Flaw} {a : Nat} (hf : s.flaws = [f]) (hkind : f.kind = .corrected)
    (hstore : f.store = 0) (hunit : f.unit = a / 128 * 128) (ha : a < 2 ^ 40) (h : s.corrected = []) :
    exec (.scrubRead a) s = .next
      (({ s with flaws := [], corrected := [CorrEntry.opened s (a / 128 * 128)] } : State).errAdd 15 0) := by
  have hlow : a / 128 * 128 < 2 ^ 40 := by omega
  have hhits : [f].filter (fun g => g.store == 0 && g.unit == a / 128 * 128 && decide (a / 128 * 128 < 2 ^ 40)) = [f] := by
    rw [decide_eq_true hlow]
    simp [hstore, hunit]
  have hgone : [f].filter (fun x => x != f) = [] := by simp
  change execScrubRead a s = _
  unfold execScrubRead
  dsimp only
  rw [hf, hhits, List.foldl_cons, List.foldl_nil,
    State.scrubbed_corrected hkind hstore (hunit ▸ hlow) h, hf, hgone, hunit, if_neg (by simp [hkind])]

/-- Settles O52, an event at a time: with nothing held, the retry of the held requests serves the one that arrives; a welcome changes
nothing that an admission asks (`State.Welcomed`); a link whose strands are none loses no access. -/
theorem peerAndErrorEventsTakeEffect : Obligations.PeerAndErrorEventsTakeEffect := by
  unfold Obligations.PeerAndErrorEventsTakeEffect
  refine ⟨?request, ?strand, ?link, ?scrub, ?expiry⟩
  case request =>
    intro s u dom va op a hheld hop
    refine ⟨execPeerRequest_stalled hheld hop, fun hlink => ⟨execPeerRequest_served hheld hop hlink,
      execPeerRequest_held hheld hop hlink, ?_⟩⟩
    rintro n rfl hva
    exact ⟨_, execPeerRequest_served hheld hop hlink (State.servePeer_load_outside _ hva), rfl, rfl⟩
  case strand =>
    rintro s dev h l va hship hva rfl hroom hman
    refine ⟨execPeerStrandArrival_stalled, fun hlink => ?_⟩
    have hadm : s.admits va.toNat = true := by
      rw [State.admits, decide_eq_true hva, decide_eq_true hroom, hman]
      rfl
    refine ⟨_, execPeerStrandArrival_admitted hship hlink hadm, ?_⟩
    have hw := State.welcome_welcomed s dev (Ctx.ofLine l)
    rw [← hw.homeOf, State.arrivals_arrive, hw.arrivals]
  case link =>
    rintro s n k x hn rfl hup
    refine ⟨fun hr hk => ?_, fun hr hk hk8 => ?_, execLinkRetransmit_retrains,
      fun hr => ⟨?_, fun hf => ?_, fun hf hslots hship => ?_⟩⟩
    · refine ⟨_, execLinkRetransmit_eq hn hup (by omega) hr, ?_, rfl⟩
      rw [State.setLink, Table.get_set_same, if_neg (by omega)]
    · refine ⟨_, execLinkRetransmit_eq hn hup hk8 hr, ?_⟩
      rw [State.setLink, Table.get_set_same, if_pos hk]
    · exact ⟨_, execLinkRetrain_passes hn hup hr, Table.get_set_same ..⟩
    · exact ⟨_, execLinkRetrain_fails hn hup hr hf, Table.get_set_same ..⟩
    · obtain ⟨hlinks, hmem⟩ := State.linkLost_of_none (s := s.setLink n { up := false, replays := 0, failed := 0 }) hslots hship n
      refine ⟨_, execLinkRetrain_gives_up hn hup hr hf, ?_, hmem⟩
      rw [hlinks, State.setLink, Table.get_set_same]
  case scrub =>
    intro s f a hf hkind hstore hunit ha hcorr
    refine ⟨_, execScrubRead_corrected hf hkind hstore hunit ha hcorr, rfl, rfl, rfl, ?_, bitsOf_putBits_same (by decide)⟩
    have hframe : a / 128 * 128 / 2 ^ 15 = a / 2 ^ 15 := by omega
    change [CorrEntry.opened s (a / 128 * 128)] = _
    rw [CorrEntry.opened, hframe]
  case expiry =>
    intro s e he
    refine ⟨_, rfl, fun hdue hmem => ?_, fun hdue => ?_, rfl⟩
    · have hkept := (List.mem_filter.mp hmem).2
      simp [hdue] at hkept
    · exact List.mem_filter.mpr ⟨he, by simp [hdue]⟩

end Sys2Proof.Machine

/-! O7. Float compares and conversions. -/

namespace Sys2Proof.Machine

/-! ### A compare's predicate -/

theorem combinePred_eq_set (c : Combine) (w : BitVec 16) (p : Fin 16) (v : Bool) :
    combinePred c w p v = combinePred .set w p (combined c (w.getLsbD p.val) v) := by
  cases c <;> rfl

/-- A compare's outcome is combined with the predicate's old value (R122). -/
theorem setPred_run_combined (c : Combine) (p : Fin 16) (v : Bool) (s : State) :
    (setPred c p v).run s = .ok ((), s.putPred p (combined c (s.cur.ctx.pred.getLsbD p.val) v)) := by
  rw [← setPred_run]
  simp only [setPred, M.run_modify, State.modCtx, State.modCur]
  rw [combinePred_eq_set c]

@[simp] theorem State.pred_raised (s : State) (f : NFlags) : (s.raised f).cur.ctx.pred = s.cur.ctx.pred := by
  rw [State.raised, State.cur_modCtx]
@[simp] theorem State.pred_normalised (s : State) (n : Nat) : (s.normalised n).cur.ctx.pred = s.cur.ctx.pred := by
  unfold State.normalised
  split
  · rfl
  · rw [State.cur_modCur, State.cur_modCore]

/-! ### The instructions -/

section
variable {g : Guard} {r : Rnd} {a b d : Reg} {s s1 s2 s3 : State} {v w : Word} (hs : Strand g s) (ha : Reads a s.openChunk v s1)
include hs ha

theorem execFcmp_of_reads {c : Combine} {n : FCond} {t : FType} {p : Fin 16} {o : Bool × NFlags} (hb : Reads b s1 w s2)
    (ho : o = t.fmt.cmp n (s.cur.ctx.tmode.getLsbD 0) (v.toNat % 2 ^ t.fmt.width) (w.toNat % 2 ^ t.fmt.width)) :
    execFcmp g c n t p a b s = .next ((((s2.normalised (subnormals t.fmt (s.cur.ctx.tmode.getLsbD 0)
      [v.toNat % 2 ^ t.fmt.width, w.toNat % 2 ^ t.fmt.width])).raised o.2).putPred p
      (combined c (s2.cur.ctx.pred.getLsbD p.val) o.1)).retire none) := by
  subst ho
  have ht : s2.cur.ctx.tmode = s.cur.ctx.tmode := by rw [hb.operand.tmode, ha.tmode_openChunk]
  refine issueStrand_ok hs.strand hs.guard ?_
  rw [M.run_bind_ok ha, M.run_bind_ok hb, M.run_bind_ok (M.run_get s2)]
  simp only [ctx_ftz, ht, lowBits]
  rw [M.run_bind_ok (normalise_run _ s2), M.run_bind_ok (raise_run _ _), M.run_bind_ok (setPred_run_combined ..), M.run_pure,
    State.pred_raised, State.pred_normalised]

theorem execCvt_of_reads {x y : NumType} {o : Nat × NFlags}
    (ho : o = convert x y (r.resolve s.cur.ctx.tmode) (s.cur.ctx.tmode.getLsbD 0) v.toNat)
    (hd : Writes d (wordN o.1) ((s1.normalised (NumTypeSub y (s.cur.ctx.tmode.getLsbD 0) v)).raised o.2) s2) :
    execCvt g r x y d a s = .next (s2.retire none) := by
  subst ho
  refine issueStrand_ok hs.strand hs.guard ?_
  rw [M.run_bind_ok ha, M.run_bind_ok (M.run_get s1)]
  simp only [ctx_ftz, Ctx.mode, ha.tmode_openChunk]
  rw [M.run_bind_ok (normalise_run _ s1), M.run_bind_ok (raise_run _ _), M.run_bind_ok hd, M.run_pure]

theorem execCvte_of_reads {k : NarrowType} {o : Nat × Nat × NFlags}
    (ho : o = convertWithResidual k (r.resolve s.cur.ctx.tmode) (s.cur.ctx.tmode.getLsbD 0) (v.toNat % 2 ^ 32))
    (hd : Writes d (wordN o.1)
      ((s1.normalised (subnormals fmtF32 (s.cur.ctx.tmode.getLsbD 0) [v.toNat % 2 ^ 32])).raised o.2.2) s2)
    (hb : Writes b (wordN o.2.1) s2 s3) : execCvte g r k d a b s = .next (s3.retire none) := by
  subst ho
  refine issueStrand_ok hs.strand hs.guard ?_
  rw [M.run_bind_ok ha, M.run_bind_ok (M.run_get s1)]
  simp only [ctx_ftz, Ctx.mode, ha.tmode_openChunk]
  exact (M.run_bind_ok (normalise_run _ s1)).trans ((M.run_bind_ok (raise_run _ _)).trans
    ((M.run_bind_ok hd).trans ((M.run_bind_ok hb).trans (M.run_pure ..))))

end

/-- Settles O7: each instruction runs its steps on the operands at TMODE's mode and FTZ, which reading them leaves; what combining does to a
predicate is what setting it to the combined outcome does (`combinePred_eq_set`). -/
theorem floatCompareAndConversionResults : Obligations.FloatCompareAndConversionResults := by
  unfold Obligations.FloatCompareAndConversionResults
  rintro g r c n t p x y k d a b s s1 s2 s3 v w z hs ha rfl
  refine ⟨fun o hb ho => execFcmp_of_reads hs ha hb ho, fun o ho hd => ?_, fun o ho hd hb => execCvte_of_reads hs ha ho hd hb⟩
  exact execCvt_of_reads hs ha ho hd

end Sys2Proof.Machine

/-! SUPPORT. All that an access to memory, or a record that goes out, leaves of the cores. -/

namespace Sys2Proof.Machine

/-- A core without what accesses and records may change: the rights and lines that its caches hold, and how far its trace ring is filled. -/
def CoreSt.apart (x : CoreSt) : CoreSt := { x with plb := [], l1 := [], trHead := 0 }
def State.coresApart (s : State) (c : Nat) : CoreSt := (s.coreAt c).apart

section
variable {s t : State}

theorem State.modCore_coresApart (s : State) (c : Nat) {f : CoreSt → CoreSt} (h : ∀ x, (f x).apart = x.apart) :
    (s.modCore c f).coresApart = s.coresApart := by
  funext d
  unfold State.coresApart
  by_cases hd : d = c
  · rw [hd, State.coreAt_modCore, h]
  · rw [State.coreAt_modCore_other s f hd]

theorem foldl_coresApart {α : Type} {f : State → α → State} (hf : ∀ s x, (f s x).coresApart = s.coresApart) (l : List α)
    (s : State) : (l.foldl f s).coresApart = s.coresApart :=
  List.foldlRecOn l f (motive := fun t : State => t.coresApart = s.coresApart) rfl fun t ht x _ => (hf t x).trans ht
theorem ite_coresApart {p : Prop} [Decidable p] (h : s.coresApart = t.coresApart) {u : State} (h' : u.coresApart = t.coresApart) :
    (if p then s else u).coresApart = t.coresApart := by
  split
  · exact h
  · exact h'

/-! ### Poison, errors and caches -/

theorem State.tcFind_coresApart {die va} {x} (e : s.tcFind die va = some (x, t)) : t.coresApart = s.coresApart := by
  unfold State.tcFind at e
  split at e <;> cases e
  rfl
theorem State.noteUnit_coresApart (s : State) (unit va cluster) : (s.noteUnit unit va cluster).coresApart = s.coresApart := by
  unfold State.noteUnit
  exact ite_coresApart rfl rfl
theorem State.countFrame_coresApart (s : State) (pa va lost) : (s.countFrame pa va lost).coresApart = s.coresApart := by
  unfold State.countFrame
  dsimp only
  split <;> rfl
theorem State.ctrlLost_coresApart (s : State) (u) : (s.ctrlLost u).coresApart = s.coresApart := by
  unfold State.ctrlLost
  exact ite_coresApart rfl rfl
theorem State.addPoison_coresApart (s : State) (u store) : (s.addPoison u store).coresApart = s.coresApart := rfl
theorem State.errAdd_coresApart (s : State) (hi lo) : (s.errAdd hi lo).coresApart = s.coresApart := rfl
theorem State.freshCopy_coresApart (s : State) (store a) : (s.freshCopy store a).coresApart = s.coresApart := rfl
theorem State.modDie_coresApart (s : State) (d f) : (s.modDie d f).coresApart = s.coresApart := rfl

theorem State.mapLines_coresApart (s : State) (f : L1Line → L1Line) :
    ({ s with cores := s.cores.map fun e => (e.1, { e.2 with l1 := e.2.l1.map f }) } : State).coresApart = s.coresApart :=
  funext fun c =>
    (congrArg CoreSt.apart (Table.get_map_val (fun x : CoreSt => { x with l1 := x.l1.map f }) s.cores CoreSt.reset c rfl) :)
theorem State.dropSector_coresApart (s : State) (f) : (s.dropSector f).coresApart = s.coresApart := by
  unfold State.dropSector
  exact ite_coresApart (State.mapLines_coresApart ..) rfl

theorem State.meetFlaw_coresApart (s : State) (f va copy) : (s.meetFlaw f va copy).coresApart = s.coresApart := by
  have hgone : ({ s with flaws := s.flaws.filter fun x => x != f } : State).coresApart = s.coresApart := rfl
  unfold State.meetFlaw
  grind [State.countFrame_coresApart, State.errAdd_coresApart, State.ctrlLost_coresApart, State.addPoison_coresApart,
    State.dropSector_coresApart]
theorem State.found_coresApart (s : State) (f va) : (s.found f va).coresApart = s.coresApart := State.meetFlaw_coresApart ..
theorem State.probe_coresApart (s : State) (va sa n) : (s.probe va sa n).2.coresApart = s.coresApart :=
  foldl_coresApart (fun _ _ => State.found_coresApart ..) _ _
theorem State.tableProbe_coresApart (s : State) (sa n) : (s.tableProbe sa n).coresApart = s.coresApart := by
  have hp := State.probe_coresApart s none sa n
  grind [State.tableProbe, State.noteUnit_coresApart]

theorem State.evictProbe_coresApart (s : State) (store cluster a) : (s.evictProbe store cluster a).coresApart = s.coresApart := by
  have hmet (l : List Flaw) := foldl_coresApart (fun t f => State.meetFlaw_coresApart t f none (some true)) l s
  unfold State.evictProbe
  dsimp only
  split
  · exact hmet _
  · exact hmet _
theorem State.l2Back_coresApart (s : State) (y) : (s.l2Back y).coresApart = s.coresApart := by
  refine foldl_coresApart (fun t i => ?_) _ s
  dsimp only
  split
  · exact State.evictProbe_coresApart ..
  · rfl
theorem State.l2Put_coresApart (s : State) (pa dirty) : (s.l2Put pa dirty).coresApart = s.coresApart := by
  grind [State.l2Put, State.l2Back_coresApart, State.freshCopy_coresApart, State.modDie_coresApart]
theorem State.hotCount_coresApart (s : State) (pa va die) : (s.hotCount pa va die).coresApart = s.coresApart := by
  unfold State.hotCount
  exact ite_coresApart rfl (ite_coresApart rfl rfl)
theorem State.fillProbe_coresApart (s : State) (va pa) : (s.fillProbe va pa).coresApart = s.coresApart := by
  have hsecond (l : List Flaw) := foldl_coresApart (fun t f => State.found_coresApart t f va) l s
  have hfirst (l : List Flaw) (u : State) := foldl_coresApart (fun t f => State.meetFlaw_coresApart t f va (some true)) l u
  grind [State.fillProbe]
theorem State.l2Access_coresApart (s : State) (pa va die dirty) : (s.l2Access pa va die dirty).coresApart = s.coresApart := by
  rw [State.l2Access, State.hotCount_coresApart, State.l2Put_coresApart, State.fillProbe_coresApart]
theorem State.writeBack_coresApart (s : State) (core l) : (s.writeBack core l).coresApart = s.coresApart :=
  foldl_coresApart (fun t _ => ite_coresApart (by
    rw [State.hotCount_coresApart, State.l2Put_coresApart, State.freshCopy_coresApart, State.evictProbe_coresApart]) rfl) _ s
theorem State.dirtied_coresApart (s : State) (die va sa n) : (s.dirtied die va sa n).coresApart = s.coresApart :=
  ite_coresApart rfl (foldl_coresApart (fun t _ => ite_coresApart (State.modCore_coresApart t _ (by intro; rfl))
    (State.l2Access_coresApart t ..)) _ s)

/-! ### Writes to memory -/

theorem State.freshCode_coresApart (s : State) (va sa n) : (s.freshCode va sa n).coresApart = s.coresApart := by
  refine foldl_coresApart (fun t f => ?_) _ s
  exact ite_coresApart rfl (State.found_coresApart t f va)
theorem State.plainCode_coresApart (s : State) (sa n) : (s.plainCode sa n).coresApart = s.coresApart := ite_coresApart rfl rfl
theorem State.keepOld_coresApart (s : State) (sa n) : (s.keepOld sa n).coresApart = s.coresApart := rfl
theorem State.putBytes_coresApart (s : State) (va sa bytes) : (s.putBytes va sa bytes).coresApart = s.coresApart := by
  have hmem (t : State) (m : Memory) : (({ t with mem := m } : State).unpoison sa bytes.length).coresApart = t.coresApart := rfl
  rw [State.putBytes, State.dirtied_coresApart, hmem, State.plainCode_coresApart, State.freshCode_coresApart, State.keepOld_coresApart]
theorem State.flagTouched_coresApart (s : State) (lines) : (s.flagTouched lines).coresApart = s.coresApart := rfl

/-! ### Update-only lines, the first-level cache and resolving an address -/

theorem State.rightsAt_coresApart (s : State) (core dom key) : (s.rightsAt core dom key).2.coresApart = s.coresApart := by
  unfold State.rightsAt
  split
  · exact State.modCore_coresApart _ _ (by intro; rfl)
  · exact (State.modCore_coresApart _ _ (by intro; rfl)).trans (State.tableProbe_coresApart ..)

theorem UpdLine.mergeWord_coresApart (u : UpdLine) (r : Table Nat × State) (w) : (u.mergeWord r w).2.coresApart = r.2.coresApart := by
  have hp := State.probe_coresApart r.2 (some (256 * u.line + w.1)) (u.pa + w.1) u.size
  have hmem (t : State) (m : Memory) : ({ t with mem := m } : State).coresApart = t.coresApart := rfl
  unfold UpdLine.mergeWord
  dsimp only
  split
  next x t e => rw [e] at hp; exact (State.noteUnit_coresApart ..).trans hp
  next t e =>
    rw [e] at hp
    rw [State.dirtied_coresApart, hmem, State.plainCode_coresApart, State.keepOld_coresApart]
    exact hp
theorem mergeWords_coresApart (u : UpdLine) (ws : List (Nat × Nat)) (r : Table Nat × State) :
    (ws.foldl u.mergeWord r).2.coresApart = r.2.coresApart :=
  List.foldlRecOn ws u.mergeWord (motive := fun q : Table Nat × State => q.2.coresApart = r.2.coresApart) rfl
    fun q hq w _ => (u.mergeWord_coresApart q w).trans hq

theorem State.traceEntry_coresApart (s : State) (home srcCore srcSlot commit va kind size) :
    (s.traceEntry home srcCore srcSlot commit va kind size).coresApart = s.coresApart := by
  unfold State.traceEntry
  refine ite_coresApart rfl ?_
  dsimp only
  split
  · refine ite_coresApart rfl ((State.modCore_coresApart _ _ (by intro; rfl)).trans ?_)
    rw [State.flagTouched_coresApart, State.putBytes_coresApart]
  · rfl
  · rfl

theorem State.mergeOne_coresApart (s : State) (u) : (s.mergeOne u).coresApart = s.coresApart := by
  have htag : (({ s with upds := s.upds.filter fun x => x != u } : State).modCore u.core fun c =>
      { c with l1 := c.l1.filter fun y => !(y.upd && y.line == u.line) }).coresApart = s.coresApart :=
    State.modCore_coresApart { s with upds := s.upds.filter fun x => x != u } _ (by intro; rfl)
  have hwords := (mergeWords_coresApart u u.words ([], _)).trans htag
  unfold State.mergeOne
  dsimp only
  have hstay (r : Table Nat × State) (l : List UpdLine) (h : r.2.coresApart = s.coresApart) :
      (if r.1.isEmpty then r.2 else { r.2 with upds := l } : State).coresApart = s.coresApart := ite_coresApart h h
  split
  · exact hstay _ _ hwords
  · exact (foldl_coresApart (fun _ _ => State.traceEntry_coresApart ..) _ _).trans (hstay _ _ hwords)
theorem State.arriving_coresApart (s : State) (us) : (s.arriving us).2.coresApart = s.coresApart := by
  induction us generalizing s with
  | nil => rfl
  | cons u us ih =>
    have hdraw : s.drawBit.2.coresApart = s.coresApart := rfl
    cases us <;> grind [State.arriving]
theorem State.mergeAll_coresApart (s : State) (n us) : (s.mergeAll n us).coresApart = s.coresApart := by
  induction n generalizing s us with
  | zero => rfl
  | succ n ih =>
    have ha := State.arriving_coresApart s us
    grind [State.mergeAll, State.mergeOne_coresApart]
theorem State.recall_coresApart (s : State) (line) : (s.recall line).coresApart = s.coresApart := State.mergeAll_coresApart ..

theorem State.l1Fill_coresApart (s : State) (core x) : (s.l1Fill core x).coresApart = s.coresApart := by
  have hput (t : State) (y : L1Line) : (t.modCore core fun c => { c with l1 := y :: c.l1 }).coresApart = t.coresApart :=
    State.modCore_coresApart t _ (by intro; rfl)
  have hdrop (t : State) (y : L1Line) :
      (t.modCore core fun c => { c with l1 := c.l1.filter fun z => z != y }).coresApart = t.coresApart :=
    State.modCore_coresApart t _ (by intro; rfl)
  have hfresh : (if x.upd then s else (List.range 2).foldl (fun s i =>
      if x.valid.getLsbD i then s.freshCopy 2 (x.pa + 128 * i) else s) s).coresApart = s.coresApart :=
    ite_coresApart rfl (foldl_coresApart (fun t _ => ite_coresApart (State.freshCopy_coresApart t ..) rfl) _ s)
  unfold State.l1Fill
  dsimp only
  generalize (if x.upd then s else _) = t at hfresh ⊢
  rw [← hfresh]
  split
  · refine ite_coresApart ((hput ..).trans (hdrop ..)) ((hput ..).trans ?_)
    rw [State.writeBack_coresApart, hdrop]
  · split
    · refine (hput ..).trans (ite_coresApart ?_ ?_)
      · rw [foldl_coresApart fun _ _ => State.mergeOne_coresApart .., hdrop]
      · rw [State.writeBack_coresApart, hdrop]
    · exact hput ..
theorem State.walkProbe_coresApart (s : State) (va) : (s.walkProbe va).coresApart = s.coresApart :=
  foldl_coresApart (fun _ _ => State.tableProbe_coresApart ..) _ _
theorem State.linkProbe_coresApart (s : State) (dev) : (s.linkProbe dev).coresApart = s.coresApart := by
  grind [State.linkProbe, State.walkProbe_coresApart, State.tableProbe_coresApart]
theorem State.sendPeer_coresApart (s : State) (dev va dom op) : (s.sendPeer dev va dom op).coresApart = s.coresApart :=
  ite_coresApart rfl (State.linkProbe_coresApart s dev)
theorem State.checked_coresApart (s : State) (core dom need key sa) : (s.checked core dom need key sa).2.coresApart = s.coresApart :=
  State.rightsAt_coresApart ..
theorem State.tcFill_coresApart (s : State) (die x) : (s.tcFill die x).coresApart = s.coresApart := rfl

theorem State.resolve_coresApart (s : State) (core dom need va walkNow) :
    (s.resolve core dom need va walkNow).2.coresApart = s.coresApart := by
  unfold State.resolve
  split
  · exact (State.checked_coresApart ..).trans (State.modCore_coresApart _ _ (by intro; rfl))
  · split
    · rename_i hf
      grind [State.checked_coresApart, State.tcFind_coresApart, State.l1Fill_coresApart, State.l2Access_coresApart]
    · grind [State.checked_coresApart, State.tcFill_coresApart, State.walkProbe_coresApart, State.l1Fill_coresApart,
        State.l2Access_coresApart]
theorem State.devResolve_coresApart (s : State) (dom need va) : (s.devResolve dom need va).2.coresApart = s.coresApart := by
  grind [State.devResolve, State.resolve_coresApart]
theorem State.devWrite_coresApart (s : State) (va sa bytes) : (s.devWrite va sa bytes).coresApart = s.coresApart := by
  grind [State.devWrite, State.recall_coresApart, State.flagTouched_coresApart, State.putBytes_coresApart]

/-! ### Records -/

theorem State.meqTake_coresApart (s : State) (n) : (s.meqTake n).coresApart = s.coresApart := by
  induction n generalizing s with
  | zero => rfl
  | succ n ih =>
    unfold State.meqTake
    split
    · rfl
    · exact ite_coresApart (ih _) rfl
theorem State.ringStore_coresApart {va bytes} (e : s.ringStore va bytes = some t) : t.coresApart = s.coresApart := by
  grind [State.ringStore, State.devResolve_coresApart, State.devWrite_coresApart, State.sendPeer_coresApart]
theorem State.meqWrite_coresApart (e : s.meqWrite = some t) : t.coresApart = s.coresApart := by
  unfold State.meqWrite at e
  split at e
  · cases e
  · dsimp only at e
    split at e
    · cases e
    · split at e
      · cases e
      · split at e
        next u hu => cases e; exact (State.ringStore_coresApart hu :)
        next => cases e
theorem State.meqDrain_coresApart (s : State) (n) : (s.meqDrain n).coresApart = s.coresApart := by
  induction n generalizing s with
  | zero => rfl
  | succ n ih =>
    unfold State.meqDrain
    dsimp only
    split
    next u hu => exact (ih u).trans ((State.meqWrite_coresApart hu).trans (State.meqTake_coresApart ..))
    next => exact State.meqTake_coresApart ..

/-- A record is posted: of the cores, its write to the ring changes caches and trace rings alone. -/
theorem State.post_coresApart (s : State) (kind cluster a b c) : (s.post kind cluster a b c).coresApart = s.coresApart :=
  State.meqDrain_coresApart ..
theorem State.post_parkStore (s : State) (kind cluster a b c) (core : Nat) :
    ((s.post kind cluster a b c).coreAt core).parkStore = (s.coreAt core).parkStore := by
  have h := congrFun (State.post_coresApart s kind cluster a b c) core
  exact (congrArg CoreSt.parkStore h :)

end
end Sys2Proof.Machine

/-! O41. Control registers, loop counts, the return from a trap, and HALT. -/

namespace Sys2Proof.Machine

/-! ### TMODE as a write leaves it (R89) -/

/-- The sticky flags stand above FTZ and RM. -/
theorem flAll_getLsbD_low {i : Nat} (h : i < 4) : flAll.getLsbD i = false := by
  interval_cases i <;> decide

section
variable (old v : BitVec 32)

theorem writeTmode_ftz : (writeTmode old v).getLsbD 0 = v.getLsbD 0 := by
  have hflags : flAll.getLsbD 0 = false := flAll_getLsbD_low (by decide)
  simp only [writeTmode, BitVec.getLsbD_or, BitVec.getLsbD_and, hflags]
  simp

theorem writeTmode_rounding : (writeTmode old v).extractLsb' 1 3 =
    if (v.extractLsb' 1 3).toNat < 5 then v.extractLsb' 1 3 else old.extractLsb' 1 3 := by
  unfold writeTmode
  dsimp only
  generalize (if (v.extractLsb' 1 3).toNat < 5 then v.extractLsb' 1 3 else old.extractLsb' 1 3) = rm
  refine BitVec.eq_of_getLsbD_eq fun i hi => ?_
  have hflags : flAll.getLsbD (1 + i) = false := flAll_getLsbD_low (by omega)
  have hin : 1 + i < 32 ∧ i < 32 := by omega
  simp only [BitVec.getLsbD_extractLsb', BitVec.getLsbD_or, BitVec.getLsbD_and, BitVec.getLsbD_shiftLeft, BitVec.getLsbD_setWidth, hflags]
  simp [hi, hin]

theorem writeTmode_flags {i : Nat} (h : 4 ≤ i) :
    (writeTmode old v).getLsbD i = (flAll.getLsbD i && old.getLsbD i && !v.getLsbD i) := by
  unfold writeTmode
  dsimp only
  generalize (if (v.extractLsb' 1 3).toNat < 5 then v.extractLsb' 1 3 else old.extractLsb' 1 3) = rm
  have hrm : rm.getLsbD (i - 1) = false := BitVec.getLsbD_of_ge rm (i - 1) (by omega)
  have hone : (1 : BitVec 32).getLsbD i = false := by
    have : i ≠ 0 := by omega
    simp [BitVec.getLsbD_one, this]
  by_cases hi : i < 32
  · simp only [BitVec.getLsbD_or, BitVec.getLsbD_and, BitVec.getLsbD_shiftLeft, BitVec.getLsbD_setWidth, BitVec.getLsbD_not, hrm, hone, hi]
    simp [Bool.and_comm]
  · simp [BitVec.getLsbD_of_ge _ i (by omega : 32 ≤ i)]

end

/-! ### Control registers -/

theorem State.ctrlReg_openChunk (s : State) (n : CtrlReg) : s.openChunk.ctrlReg n = s.ctrlReg n := by
  obtain ⟨-, -, -, -, -, -, htepc, htcause, htaddr, -⟩ := s.cur.opened_keeps s.isCtrl
  unfold State.ctrlReg
  dsimp only
  rw [State.cur_openChunk, Slot.ctx_opened, htepc, htcause, htaddr]
  rfl

theorem State.ctrlReg_tmode (s : State) : s.ctrlReg .tmode = wordN (s.cur.ctx.tmode.toNat &&& 0x00FE000F) := rfl
theorem State.ctrlReg_tdom (s : State) : s.ctrlReg .tdom = wordN (s.cur.ctx.tdom.toNat % 4096) :=
  congrArg wordN (Nat.and_two_pow_sub_one_eq_mod _ 12)

section
variable {g : Guard} {n : CtrlReg} {d : Reg} {s s1 : State} {x : Word} (hs : Strand g s)
include hs

/-- In a handler control goes back to TEPC (R309). -/
theorem execEret_returns (hin : s.cur.ctx.intrap = true) (h : s.openChunk.Enters s.cur.tepc) :
    execEret g s = .next ((s.openChunk.modCtx fun c => { c with intrap := false }).retire (some s.cur.tepc)) := by
  have htepc : s.openChunk.eret.1 = s.cur.tepc := by
    obtain ⟨-, -, -, -, -, -, htepc, -⟩ := s.cur.opened_keeps s.isCtrl
    rw [State.eret, State.cur_openChunk, htepc]
  refine issueStrand_ok hs.strand hs.guard ?_
  rw [M.run_bind_ok (M.run_get _), State.cur_openChunk, Slot.ctx_opened, if_neg (by simp [hin]), htepc]
  exact M.run_bind_ok (jumpTo_run h)

theorem execCrd_of_writes (hd : Writes d (s.ctrlReg n) s.openChunk s1) : execCrd g n d s = .next (s1.retire none) := by
  refine issueStrand_ok hs.strand hs.guard ?_
  rw [M.run_bind_ok (M.run_get _), State.ctrlReg_openChunk]
  exact M.run_bind_ok hd

variable (hd : Reads d s.openChunk x s1)
include hd

theorem execCwr_tmode : execCwr g .tmode d s =
    .next ((s1.modCtx fun c => { c with tmode := writeTmode s1.cur.ctx.tmode (x.setWidth 32) }).retire none) :=
  issueStrand_ok hs.strand hs.guard (M.run_bind_ok hd)

theorem execCwr_tepc : execCwr g .tepc d s = .next ((s1.modCur fun c => { c with tepc := x &&& ~~~1 }).retire none) :=
  issueStrand_ok hs.strand hs.guard (M.run_bind_ok hd)

/-- The other registers have no field that a write changes (R175). -/
theorem execCwr_other (htmode : n ≠ .tmode) (htepc : n ≠ .tepc) : execCwr g n d s = .next (s1.retire none) := by
  refine issueStrand_ok hs.strand hs.guard ((M.run_bind_ok hd).trans ?_)
  cases n
  case tmode => exact absurd rfl htmode
  case tepc => exact absurd rfl htepc
  all_goals rfl

end

/-! ### Loop counts -/

theorem State.lcView_of_unheld {s : State} {n : Fin 16} (h : ∀ v, Held.lcset n v ∉ s.cur.chunk.held) :
    s.lcView n = (s.clusterAt (clusterOf s.core)).lcs[n] := by
  refine List.foldlRecOn s.cur.chunk.held _ (motive := (· = (s.clusterAt (clusterOf s.core)).lcs[n])) rfl fun v hv e he => ?_
  split
  next m w =>
    have hne : m ≠ n := fun hm => h w (hm ▸ he)
    rwa [if_neg hne]
  next => exact hv

section
variable {g : Guard} {k : Fin 16} {a d : Reg} {s s1 : State} {x : Word} (hg : g.holds s.cur.ctx.pred = true)
include hg

theorem execLcset_strand (hc : s.isCtrl = false) (ha : Reads a s.openChunk x s1) :
    execLcset g k a s = .next ((s1.withHeld (.lcset k (x.setWidth 32))).retire none) := by
  have hctrl : s1.isCtrl = false := by rw [ha.operand.isCtrl, State.openChunk_isCtrl, hc]
  refine issue_ok hg ?_
  rw [M.run_bind_ok ha, M.run_bind_ok (M.run_get _), hctrl]
  rfl

/-- A control core has no chunk to hold the count: it is set at once (R281). -/
theorem execLcset_ctrl (hc : s.isCtrl = true) (ha : Reads a s.openChunk x s1) : execLcset g k a s =
    .next ((s1.modCluster (clusterOf s1.core) fun u => { u with lcs := u.lcs.set k (x.setWidth 32) }).retire none) := by
  have hctrl : s1.isCtrl = true := by rw [ha.operand.isCtrl, State.openChunk_isCtrl, hc]
  refine issue_ok hg ?_
  rw [M.run_bind_ok ha, M.run_bind_ok (M.run_get _), hctrl]
  rfl

theorem execLcget_of_writes (h : ∀ v, Held.lcset k v ∉ s.openChunk.cur.chunk.held)
    (hd : Writes d (wordN ((s.clusterAt (clusterOf s.core)).lcs[k]).toNat) s.openChunk s1) :
    execLcget g k d s = .next (s1.retire none) := by
  refine issue_ok hg ?_
  rw [M.run_bind_ok (M.run_get _), State.lcView_of_unheld h]
  exact M.run_bind_ok hd

end

theorem Slot.held_opened {x : Slot} (h : x.chunk.held = []) (b : Bool) : (x.opened b).chunk.held = [] := by
  unfold Slot.opened
  split
  · exact h
  · rfl

/-! ### HALT -/

/-- A leader that hands its unit out ahead changes slots alone. -/
theorem State.giveAhead_rest (s : State) : s.giveAhead = { s with slots := s.giveAhead.slots } := by
  unfold State.giveAhead
  dsimp only
  split
  · have h (e : GangEntry) := (s.handOut_handsOut e false).rest
    rw [h]
    rfl
  · rfl

/-- A unit that is done with leaves the strand's context; what is handed out of it stands in slots. -/
theorem State.passUnit_keeps (s : State) : s.passUnit = { s with slots := s.passUnit.slots } ∧ s.passUnit.cur.ctx = s.cur.ctx := by
  obtain ⟨-, -, -, k, q, hcur⟩ := s.giveAhead_keeps
  constructor
  · unfold State.passUnit
    rw [s.giveAhead_rest]
    rfl
  · rw [State.passUnit, State.cur_modCur, hcur]

/-- The strand is parked for system software's answer, and its record has not yet been posted. -/
def State.halted (s : State) (pc : Word) : State := s.modCur fun x =>
  { x with ctx := { x.ctx with parked := true, pc := pc }, wait := some .verdict, ticket := none, replies := [],
           begun := false, dictWord := none }

theorem State.haltStrand_eq (s : State) (pc : Word) :
    s.haltStrand pc = (s.halted pc).post 7 (clusterOf s.core) (wordN s.cur.ctx.strandId.toNat) pc 0 := by
  have hid : (s.halted pc).cur.ctx.strandId = s.cur.ctx.strandId := by rw [State.halted, State.cur_modCur]
  rw [← hid]
  rfl

/-- What HALT leaves of a strand at the first instruction of its chunk, but for its record: the unit is done with, and the strand is parked
past it. -/
def State.haltedPast (s : State) : State := (s.setCur (s.cur.unopened s.isCtrl)).passUnit.halted s.cur.nextPc

section
variable (s : State)

theorem State.passUnit_unopened_rest : (s.setCur (s.cur.unopened s.isCtrl)).passUnit =
    { s with slots := (s.setCur (s.cur.unopened s.isCtrl)).passUnit.slots } := (State.passUnit_keeps _).1
theorem State.passUnit_unopened_ctx : (s.setCur (s.cur.unopened s.isCtrl)).passUnit.cur.ctx = s.cur.ctx := by
  rw [(State.passUnit_keeps _).2, State.cur_setCur, Slot.ctx_unopened]

theorem State.haltedPast_rest : s.haltedPast = { s with slots := s.haltedPast.slots } := by
  rw [State.haltedPast, State.halted, s.passUnit_unopened_rest]
  rfl
theorem State.haltedPast_ctx : s.haltedPast.cur.ctx = { s.cur.ctx with parked := true, pc := s.cur.nextPc } := by
  rw [State.haltedPast, State.halted, State.cur_modCur, State.passUnit_unopened_ctx]
theorem State.haltedPast_wait : s.haltedPast.cur.wait = some .verdict := by
  rw [State.haltedPast, State.halted, State.cur_modCur]

end

/-- A strand at the first instruction of its chunk halts past it, and no woken owner takes its slot (R174). -/
theorem execHalt_strand {g : Guard} {s : State} (hs : Strand g s) (hfresh : s.openChunk.cur.chunk.count = 0)
    (hown : ∀ p ∈ (s.coreAt s.core).parkStore, p.own ≠ some s.slot) :
    execHalt g s = .next (s.haltedPast.post 7 (clusterOf s.core) (wordN s.cur.ctx.strandId.toNat) s.cur.nextPc 0) := by
  have hrun : execHalt g s = s.openChunk.settle (.after fun s => s.passUnit.haltStrand s.cur.nextPc) := by
    simp [execHalt, hs.strand, issue, hs.guard]
  have hpc : (s.setCur (s.cur.unopened s.isCtrl)).cur.nextPc = s.cur.nextPc := by
    rw [State.cur_setCur]
    exact s.cur.nextPc_opened s.isCtrl
  have hcore : (s.setCur (s.cur.unopened s.isCtrl)).passUnit.core = s.core := by rw [s.passUnit_unopened_rest]
  rw [hrun, State.settle_after_of_fresh hfresh, hpc, State.haltStrand_eq, hcore, s.passUnit_unopened_ctx]
  refine congrArg _ (State.reseat_of_none ?_)
  rw [State.post_parkStore]
  change ∀ p ∈ (s.haltedPast.coreAt s.core).parkStore, p.own ≠ some s.slot
  rw [s.haltedPast_rest]
  exact hown

/-- A control core's HALT stops it (R281). -/
theorem execHalt_ctrl {g : Guard} {s : State} (hc : s.isCtrl = true) (hg : g.holds s.cur.ctx.pred = true) :
    execHalt g s = .next (s.modCluster (clusterOf s.core) fun u => { u with ccHalting := true }) := by
  rw [execHalt, if_pos hc, if_pos hg]

/-- Settles O41: the control registers by `State.ctrlReg`, a write of TMODE bit by bit (`writeTmode_flags`), loop counts as the chunk holds
them; HALT's record leaves the park store as it was (`State.post_parkStore`), so that the strand keeps its slot. -/
theorem controlRegisterResults : Obligations.ControlRegisterResults := by
  unfold Obligations.ControlRegisterResults
  intro g n k d a s s1 x
  refine ⟨fun hs => ⟨execEret_returns hs, fun hd => ?crd, fun hd => ⟨?tmode, execCwr_tepc hs hd, execCwr_other hs hd⟩,
      execLcset_strand hs.guard hs.strand, execLcget_of_writes hs.guard, fun hfresh hown =>
      ⟨_, execHalt_strand hs hfresh hown, s.haltedPast_ctx, s.haltedPast_wait, s.haltedPast_rest⟩⟩,
    fun hc hg => ⟨execLcset_ctrl hg hc, fun hd hheld => execLcget_of_writes hg ?held hd, execHalt_ctrl hc hg⟩⟩
  case crd =>
    refine execCrd_of_writes hs ?_
    cases n
    case tmode => rwa [State.ctrlReg_tmode]
    case tdom => rwa [State.ctrlReg_tdom]
    all_goals exact hd
  case tmode =>
    refine ⟨_, execCwr_tmode hs hd, ?_, ?_, fun i hi => ?_⟩
    · rw [writeTmode_ftz]
      simp
    · have hrm : (x.setWidth 32).extractLsb' 1 3 = x.extractLsb' 1 3 := by
        refine BitVec.eq_of_getLsbD_eq fun i hi => ?_
        have h32 : 1 + i < 32 := by omega
        simp [h32]
      rw [writeTmode_rounding, hrm]
    · rw [writeTmode_flags _ _ hi, BitVec.getLsbD_setWidth]
      by_cases h32 : i < 32
      · simp [h32]
      · simp [BitVec.getLsbD_of_ge flAll i (by omega)]
  case held =>
    intro v
    rw [State.cur_openChunk, Slot.held_opened hheld]
    exact List.not_mem_nil

end Sys2Proof.Machine

/-! SUPPORT, O57, O58. Codes of fields, what the parts of a decoder answer, and words as fields. -/

namespace Sys2Proof

/-! ### Codes of registers, guards and enumerations (R104, R107 to R110) -/

theorem Reg.code_lt (r : Reg) : r.code < 31 := by
  cases r <;> simp only [Reg.code] <;> omega

theorem Reg.ofCode_code (r : Reg) : Reg.ofCode r.code = r := by
  cases r with
  | m n | s n | l n | st n => revert n; decide
  | z | nq | id => rfl

theorem Reg.code_ofCode {n : Nat} (h : n < 31) : (Reg.ofCode n).code = n := by
  revert n; decide

theorem Guard.code_lt (g : Guard) : g.code < 16 := by
  obtain ⟨n, p⟩ := g
  revert n p; decide

theorem Guard.ofCode_code (g : Guard) : Guard.ofCode g.code = g := by
  obtain ⟨n, p⟩ := g
  revert n p; decide

theorem Guard.code_ofCode {n : Nat} (h : n < 16) : (Guard.ofCode n).code = n := by
  revert n; decide

/-! An enumeration's value is read from exactly its own code. -/

theorem FType.ofCode_iff {n : Nat} {t : FType} : FType.ofCode n = some t ↔ n = t.code :=
  ⟨fun h => by unfold FType.ofCode at h; split at h <;> cases h <;> rfl, by rintro rfl; cases t <;> rfl⟩
theorem NumType.ofCode_iff {n : Nat} {t : NumType} : NumType.ofCode n = some t ↔ n = t.code :=
  ⟨fun h => by unfold NumType.ofCode at h; split at h <;> cases h <;> rfl, by rintro rfl; cases t <;> rfl⟩
theorem NarrowType.ofCode_iff {n : Nat} {t : NarrowType} : NarrowType.ofCode n = some t ↔ n = t.code :=
  ⟨fun h => by unfold NarrowType.ofCode at h; split at h <;> cases h <;> rfl, by rintro rfl; cases t <;> rfl⟩
theorem NarrowType.ofVcode_iff {n : Nat} {t : NarrowType} : NarrowType.ofVcode n = some t ↔ n = t.vcode :=
  ⟨fun h => by unfold NarrowType.ofVcode at h; split at h <;> cases h <;> rfl, by rintro rfl; cases t <;> rfl⟩
theorem Rnd.ofCode_iff {n : Nat} {r : Rnd} : Rnd.ofCode n = some r ↔ n = r.code :=
  ⟨fun h => by unfold Rnd.ofCode at h; split at h <;> cases h <;> rfl, by rintro rfl; cases r <;> rfl⟩
theorem Scope.ofCode_iff {n : Nat} {sc : Scope} : Scope.ofCode n = some sc ↔ n = sc.code :=
  ⟨fun h => by unfold Scope.ofCode at h; split at h <;> cases h <;> rfl, by rintro rfl; cases sc <;> rfl⟩
theorem flagOfCode_iff {n : Nat} {q : Flag} : flagOfCode n = some q ↔ n = flagCode q :=
  ⟨fun h => by unfold flagOfCode at h; split at h <;> cases h <;> rfl, by rintro rfl; obtain _ | sc := q; exacts [rfl, by cases sc <;> rfl]⟩
theorem ICond.ofCode_iff {n : Nat} {c : ICond} : ICond.ofCode n = some c ↔ n = c.code :=
  ⟨fun h => by unfold ICond.ofCode at h; split at h <;> cases h <;> rfl, by rintro rfl; cases c <;> rfl⟩
theorem FCond.ofCode_iff {n : Nat} {c : FCond} : FCond.ofCode n = some c ↔ n = c.code :=
  ⟨fun h => by unfold FCond.ofCode at h; split at h <;> cases h <;> rfl, by rintro rfl; cases c <;> rfl⟩
theorem Combine.ofCode_iff {n : Nat} {c : Combine} : Combine.ofCode n = some c ↔ n = c.code :=
  ⟨fun h => by unfold Combine.ofCode at h; split at h <;> cases h <;> rfl, by rintro rfl; cases c <;> rfl⟩
theorem ExtW.ofCode_iff {n : Nat} {c : ExtW} : ExtW.ofCode n = some c ↔ n = c.code :=
  ⟨fun h => by unfold ExtW.ofCode at h; split at h <;> cases h <;> rfl, by rintro rfl; cases c <;> rfl⟩
theorem LdMode.ofCode_iff {n : Nat} {m : LdMode} : LdMode.ofCode n = some m ↔ n = m.code :=
  ⟨fun h => by unfold LdMode.ofCode at h; split at h <;> cases h <;> rfl, by rintro rfl; cases m <;> rfl⟩
theorem StMode.ofCode_iff {n : Nat} {m : StMode} : StMode.ofCode n = some m ↔ n = m.code :=
  ⟨fun h => by unfold StMode.ofCode at h; split at h <;> cases h <;> rfl, by rintro rfl; cases m <;> rfl⟩
theorem GangN.ofCode_iff {n : Nat} {c : GangN} : GangN.ofCode n = some c ↔ n = c.code :=
  ⟨fun h => by unfold GangN.ofCode at h; split at h <;> cases h <;> rfl, by rintro rfl; cases c <;> rfl⟩
theorem CtrlReg.ofCode_iff {n : Nat} {c : CtrlReg} : CtrlReg.ofCode n = some c ↔ n = c.code :=
  ⟨fun h => by unfold CtrlReg.ofCode at h; split at h <;> cases h <;> rfl, by rintro rfl; cases c <;> rfl⟩
theorem LType.ofCode_iff {n : Nat} {t : LType} : LType.ofCode n = some t ↔ n = t.code :=
  ⟨fun h => by unfold LType.ofCode at h; split at h <;> cases h <;> rfl, by rintro rfl; cases t <;> rfl⟩
theorem VType.ofCode_iff {n : Nat} {t : VType} : VType.ofCode n = some t ↔ n = t.code :=
  ⟨fun h => by unfold VType.ofCode at h; split at h <;> cases h <;> rfl, by rintro rfl; cases t <;> rfl⟩
theorem ElSize.ofCode_iff {n : Nat} {c : ElSize} : ElSize.ofCode n = some c ↔ n = c.code :=
  ⟨fun h => by unfold ElSize.ofCode at h; split at h <;> cases h <;> rfl, by rintro rfl; cases c <;> rfl⟩
theorem KeySrc.ofCode_iff {n : Nat} {c : KeySrc} : KeySrc.ofCode n = some c ↔ n = c.code :=
  ⟨fun h => by unfold KeySrc.ofCode at h; split at h <;> cases h <;> rfl, by rintro rfl; cases c <;> rfl⟩
theorem AtMode.ofCode_code (m : AtMode) : AtMode.ofCode m.code = m := by cases m <;> rfl
theorem AtMode.code_ofCode {n : Nat} (h : n < 4) : (AtMode.ofCode n).code = n := by revert n; decide

/-! Each code fits the bits its field gives it. -/

theorem FType.code_lt (t : FType) : t.code < 3 := by cases t <;> decide
theorem NumType.code_lt (t : NumType) : t.code < 16 := by cases t <;> decide
theorem NarrowType.code_lt (t : NarrowType) : t.code < 16 := by cases t <;> decide
theorem NarrowType.vcode_lt (t : NarrowType) : t.vcode < 5 := by cases t <;> decide
theorem Rnd.code_lt (r : Rnd) : r.code < 8 := by cases r <;> decide
theorem Scope.code_lt (sc : Scope) : sc.code < 5 := by cases sc <;> decide
theorem flagCode_lt : ∀ q : Flag, flagCode q < 6
  | none => by decide
  | some sc => by
    have := sc.code_lt
    simp only [flagCode]
    omega
theorem ICond.code_lt (c : ICond) : c.code < 8 := by cases c <;> decide
theorem FCond.code_lt (c : FCond) : c.code < 8 := by cases c <;> decide
theorem Combine.code_lt (c : Combine) : c.code < 3 := by cases c <;> decide
theorem ExtW.code_lt (c : ExtW) : c.code < 3 := by cases c <;> decide
theorem LdMode.code_lt (m : LdMode) : m.code < 8 := by cases m <;> decide
theorem StMode.code_lt (m : StMode) : m.code < 8 := by cases m <;> decide
theorem AtMode.code_lt (m : AtMode) : m.code < 4 := by cases m <;> decide
theorem GangN.code_lt (c : GangN) : c.code < 4 := by cases c <;> decide
theorem CtrlReg.code_lt (c : CtrlReg) : c.code < 32 := by cases c <;> decide
theorem LType.code_lt (t : LType) : t.code < 3 := by cases t <;> decide
theorem VType.code_lt (t : VType) : t.code < 16 := by cases t <;> decide
theorem ElSize.code_lt (c : ElSize) : c.code < 3 := by cases c <;> decide
theorem KeySrc.code_lt (c : KeySrc) : c.code < 3 := by cases c <;> decide

/-! One bit of a field. -/

theorem bit_toNat (n k : Nat) : (bit n k).toNat = n / 2 ^ k % 2 := by
  obtain h | h := Nat.mod_two_eq_zero_or_one (n / 2 ^ k) <;> simp [bit, h]

theorem bit_of_toNat {n k : Nat} {w : Bool} (h : n / 2 ^ k % 2 = w.toNat) : bit n k = w := by
  cases w <;> simp [bit, h]

theorem bit_clear {n k : Nat} (h : n / 2 ^ k % 2 = 0) : bit n k = false := bit_of_toNat h
theorem bit_set {n k : Nat} (h : n / 2 ^ k % 2 = 1) : bit n k = true := bit_of_toNat h

theorem mod_of_bit_clear {n k : Nat} (h : bit n k = false) : n / 2 ^ k % 2 = 0 := by
  rw [← bit_toNat, h, Bool.toNat_false]
theorem mod_of_bit_set {n k : Nat} (h : bit n k = true) : n / 2 ^ k % 2 = 1 := by
  rw [← bit_toNat, h, Bool.toNat_true]

/-! ### Registers that a field may name (R107, R314) -/

/-- Whether an instruction may use a register in a role. -/
def Role.fits : Role → Reg → Bool
  | .src, _ => true
  | .dst, r => r.dst
  | .adr, r => r.adr

/-- What the decoder asks of a register field in its role (R373). -/
def Role.Admits (r : Role) (n : Nat) : Prop := n ≠ 31 ∧ (r = .dst → n ≠ 30) ∧ (r = .adr → n < 25 ∨ 29 < n)

theorem Reg.dst_iff (a : Reg) : a.dst = true ↔ a.code ≠ 30 := by
  cases a with
  | id => decide
  | z | nq => decide
  | m n | s n | l n | st n => simp only [Reg.dst, Reg.code, true_iff]; omega

theorem Reg.adr_iff (a : Reg) : a.adr = true ↔ a.code < 25 ∨ 29 < a.code := by
  cases a with
  | z | nq | id => decide
  | m n | s n | l n => simp only [Reg.adr, Reg.code, true_iff]; omega
  | st n => simp only [Reg.adr, Reg.code, Bool.false_eq_true, false_iff]; omega

theorem Role.admits_code {r : Role} {a : Reg} (h : r.fits a = true) : r.Admits a.code :=
  ⟨Nat.ne_of_lt a.code_lt, by rintro rfl; exact a.dst_iff.mp h, by rintro rfl; exact a.adr_iff.mp h⟩

/-- A register field that is admitted names a register that fits. -/
theorem Role.Admits.code_ofCode {r : Role} {n : Nat} (h : r.Admits n) (hn : n < 32) : (Reg.ofCode n).code = n :=
  Reg.code_ofCode (by have := h.1; omega)

theorem Role.Admits.fits {r : Role} {n : Nat} (h : r.Admits n) (hn : n < 32) : r.fits (.ofCode n) = true := by
  have hcode := h.code_ofCode hn
  obtain ⟨-, hdst, hadr⟩ := h
  cases r with
  | src => rfl
  | dst => exact (Reg.dst_iff _).mpr (hcode.symm ▸ hdst rfl)
  | adr => exact (Reg.adr_iff _).mpr (hcode.symm ▸ hadr rfl)

/-- The three checks of the decoder, in their order, are what the fields' roles ask. -/
theorem admits_iff {l : List (Role × Nat)} : (∀ p ∈ l, p.1.Admits p.2) ↔
    ¬(l.any fun p => p.2 == 31) = true ∧ ¬(l.any fun p => p.1 == .dst && p.2 == 30) = true ∧
      ¬(l.any fun p => p.1 == .adr && decide (25 ≤ p.2) && decide (p.2 ≤ 29)) = true := by
  simp only [List.any_eq_true, not_exists, not_and, ← forall_and, Role.Admits]
  refine forall₂_congr fun p _ => ?_
  obtain ⟨r, n⟩ := p
  cases r with
  | src | dst => simp
  | adr => simp; omega

theorem mkInstr_eq_instr {l : List (Role × Nat)} {i j : Instr} :
    mkInstr l i = .instr j ↔ (∀ p ∈ l, p.1.Admits p.2) ∧ i = j := by
  rw [admits_iff, mkInstr]
  split_ifs with h31 h30 hq
  · simp [h31]
  · simp [h30]
  · simp [hq]
  · exact Decoded.instr.injEq i j ▸ (and_iff_right ⟨h31, h30, hq⟩).symm

/-! ### What the parts of a decoder answer

`x.Faithful y`: an instruction that `y` gives is well formed, and its fields are `x`. Each part of a decoder has a rule of that kind,
and one (`f_eq`) that says what it gives on the fields of an instruction. -/

/-- The instruction is well formed and has these fields. -/
structure Fields.Holds (x : Fields) (i : Instr) : Prop where
  wf : i.wf = true
  fields : encodeFields i = some x

def Fields.Faithful (x : Fields) (y : Decoded) : Prop := ∀ i, y = .instr i → x.Holds i

theorem need_eq {c : Bool} {y z : Decoded} (hc : c = true) (h : y = z) : need c y = z := by
  rw [need, if_pos hc, h]

theorem withCode_eq {α : Type} {o : Option α} {t : α} {k : α → Decoded} {z : Decoded} (ho : o = some t) (h : k t = z) :
    withCode o k = z := by
  rw [ho, withCode, h]

section
variable {r r' r'' : Role} {a b c : Reg} (ha : r.fits a = true) (hb : r'.fits b = true) (hc : r''.fits c = true)
include ha

theorem mkInstr1_eq {k : Reg → Instr} : mkInstr [(r, a.code)] (k (.ofCode a.code)) = .instr (k a) := by
  simp [mkInstr_eq_instr, Role.admits_code ha, Reg.ofCode_code]

include hb

theorem mkInstr2_eq {k : Reg → Reg → Instr} :
    mkInstr [(r, a.code), (r', b.code)] (k (.ofCode a.code) (.ofCode b.code)) = .instr (k a b) := by
  simp [mkInstr_eq_instr, Role.admits_code ha, Role.admits_code hb, Reg.ofCode_code]

include hc

theorem mkInstr3_eq {k : Reg → Reg → Reg → Instr} :
    mkInstr [(r, a.code), (r', b.code), (r'', c.code)] (k (.ofCode a.code) (.ofCode b.code) (.ofCode c.code)) = .instr (k a b c) := by
  simp [mkInstr_eq_instr, Role.admits_code ha, Role.admits_code hb, Role.admits_code hc, Reg.ofCode_code]

end

section
variable {x : Fields}

theorem faithful_instr {i : Instr} (h : x.Holds i) : x.Faithful (.instr i) := by
  rintro _ ⟨⟩
  exact h

theorem faithful_illegal {r : Illegal} : x.Faithful (.illegal r) := fun _ h => nomatch h

theorem faithful_need {c : Bool} {y : Decoded} (h : c = true → x.Faithful y) : x.Faithful (need c y) := by
  unfold need
  split
  · exact h ‹_›
  · exact faithful_illegal

theorem faithful_withCode {α : Type} {o : Option α} {k : α → Decoded} (h : ∀ t, o = some t → x.Faithful (k t)) :
    x.Faithful (withCode o k) := by
  cases o with
  | none => exact faithful_illegal
  | some t => exact h t rfl

/-- A register that a field names in a role. -/
structure Role.Names (r : Role) (n : Nat) (a : Reg) : Prop where
  code : a.code = n
  fits : r.fits a = true

theorem Role.Admits.names {r : Role} {n : Nat} (h : r.Admits n) (hn : n < 32) : r.Names n (.ofCode n) :=
  ⟨h.code_ofCode hn, h.fits hn⟩

variable {r r' r'' : Role} {n n' n'' : Nat} (hn : n < 32) (hn' : n' < 32) (hn'' : n'' < 32)
include hn

theorem faithful_mkInstr1 {k : Reg → Instr} (h : ∀ a, r.Names n a → x.Holds (k a)) : x.Faithful (mkInstr [(r, n)] (k (.ofCode n))) := by
  intro i hi
  obtain ⟨hl, rfl⟩ := mkInstr_eq_instr.mp hi
  simp only [List.forall_mem_cons] at hl
  exact h _ (hl.1.names hn)

include hn'

theorem faithful_mkInstr2 {k : Reg → Reg → Instr} (h : ∀ a b, r.Names n a → r'.Names n' b → x.Holds (k a b)) :
    x.Faithful (mkInstr [(r, n), (r', n')] (k (.ofCode n) (.ofCode n'))) := by
  intro i hi
  obtain ⟨hl, rfl⟩ := mkInstr_eq_instr.mp hi
  simp only [List.forall_mem_cons] at hl
  obtain ⟨ha, hb, -⟩ := hl
  exact h _ _ (ha.names hn) (hb.names hn')

include hn''

theorem faithful_mkInstr3 {k : Reg → Reg → Reg → Instr}
    (h : ∀ a b c, r.Names n a → r'.Names n' b → r''.Names n'' c → x.Holds (k a b c)) :
    x.Faithful (mkInstr [(r, n), (r', n'), (r'', n'')] (k (.ofCode n) (.ofCode n') (.ofCode n''))) := by
  intro i hi
  obtain ⟨hl, rfl⟩ := mkInstr_eq_instr.mp hi
  simp only [List.forall_mem_cons] at hl
  obtain ⟨ha, hb, hc, -⟩ := hl
  exact h _ _ _ (ha.names hn) (hb.names hn') (hc.names hn'')

end

/-! ### From fields to their word and back -/

theorem fieldsOf_ok (w : Half) : (fieldsOf w).ok := by
  simp only [Fields.ok, fieldsOf]
  omega

theorem pack_fieldsOf (w : Half) : (fieldsOf w).pack = w := by
  have := w.isLt
  refine BitVec.eq_of_toNat_eq ?_
  simp only [Fields.pack, fieldsOf, BitVec.toNat_ofNat]
  omega

theorem pack_toNat {x : Fields} (h : x.ok) :
    x.pack.toNat = x.op + 64 * x.g + 1024 * x.d + 32768 * x.a + 1048576 * x.b + 33554432 * x.f := by
  obtain ⟨h1, h2, h3, h4, h5, h6⟩ := h
  rw [Fields.pack, BitVec.toNat_ofNat]
  omega

theorem fieldsOf_pack {x : Fields} (h : x.ok) : fieldsOf x.pack = x := by
  have hn := pack_toNat h
  obtain ⟨h1, h2, h3, h4, h5, h6⟩ := h
  obtain ⟨op, g, d, a, b, f⟩ := x
  simp only [fieldsOf, hn, Fields.mk.injEq] at *
  omega

theorem some_rrr {x : Fields} {g : Guard} {op d a b f : Nat} (hop : x.op = op) (hg : g.code = x.g) (hd : d = x.d) (ha : a = x.a)
    (hb : b = x.b) (hf : f = x.f) : some (rrr op g d a b f) = some x := by
  subst hop hd ha hb hf
  rw [rrr, hg]

end Sys2Proof

/-! O58. Every format and every group reads only well-formed instructions, and ignores no bit. -/

namespace Sys2Proof

/-! ### The formats (R105) -/

section
variable {x : Fields} (hx : x.ok)
include hx

theorem faithful_fmt3 {k : Reg → Reg → Reg → Instr}
    (h : ∀ d a b, d.dst = true → d.code = x.d → a.code = x.a → b.code = x.b → x.Holds (k d a b)) : x.Faithful (fmt3 x k) := by
  obtain ⟨-, -, hd, ha, hb, -⟩ := hx
  exact faithful_mkInstr3 hd ha hb fun d a b nd na nb => h d a b nd.fits nd.code na.code nb.code

theorem faithful_fmt2 {k : Reg → Reg → Instr}
    (h : ∀ d a, d.dst = true → d.code = x.d → a.code = x.a → 0 = x.b → x.Holds (k d a)) : x.Faithful (fmt2 x k) := by
  obtain ⟨-, -, hd, ha, -, -⟩ := hx
  exact faithful_need fun hb => faithful_mkInstr2 hd ha fun d a nd na => h d a nd.fits nd.code na.code (beq_iff_eq.mp hb).symm

theorem faithful_fmtA {k : Reg → Instr} (h : ∀ a, 0 = x.d → a.code = x.a → 0 = x.b → x.Holds (k a)) : x.Faithful (fmtA x k) := by
  obtain ⟨-, -, -, ha, -, -⟩ := hx
  refine faithful_need fun hz => faithful_mkInstr1 ha fun a na => ?_
  simp only [Bool.and_eq_true, beq_iff_eq] at hz
  exact h a hz.1.symm na.code hz.2.symm

theorem faithful_fmtD {k : Reg → Instr} (h : ∀ d, d.dst = true → d.code = x.d → 0 = x.a → 0 = x.b → x.Holds (k d)) :
    x.Faithful (fmtD x k) := by
  obtain ⟨-, -, hd, -, -, -⟩ := hx
  refine faithful_need fun hz => faithful_mkInstr1 hd fun d nd => ?_
  simp only [Bool.and_eq_true, beq_iff_eq] at hz
  exact h d nd.fits nd.code hz.1.symm hz.2.symm

omit hx in
theorem faithful_fmtNone {i : Instr} (h : 0 = x.d → 0 = x.a → 0 = x.b → x.Holds i) : x.Faithful (fmtNone x i) := by
  refine faithful_need fun hz => faithful_instr ?_
  simp only [Bool.and_eq_true, beq_iff_eq] at hz
  exact h hz.1.1.symm hz.1.2.symm hz.2.symm

theorem faithful_fmtAB {ra : Role} {k : Reg → Reg → Instr}
    (h : ∀ a b, ra.fits a = true → 0 = x.d → a.code = x.a → b.code = x.b → x.Holds (k a b)) : x.Faithful (fmtAB ra x k) := by
  obtain ⟨-, -, -, ha, hb, -⟩ := hx
  exact faithful_need fun hd => faithful_mkInstr2 ha hb fun a b na nb => h a b na.fits (beq_iff_eq.mp hd).symm na.code nb.code

theorem faithful_fmtDAddr {k : Reg → Reg → Instr}
    (h : ∀ d a, (d.dst && a.adr) = true → d.code = x.d → a.code = x.a → 0 = x.b → x.Holds (k d a)) : x.Faithful (fmtDAddr x k) := by
  obtain ⟨-, -, hd, ha, -, -⟩ := hx
  exact faithful_need fun hb => faithful_mkInstr2 hd ha fun d a nd na =>
    h d a (Bool.and_eq_true_iff.mpr ⟨nd.fits, na.fits⟩) nd.code na.code (beq_iff_eq.mp hb).symm

theorem faithful_fmtIdx {rd : Role} {k : Reg → Reg → Reg → Instr}
    (h : ∀ d a b, (rd.fits d && a.adr && b.adr) = true → d.code = x.d → a.code = x.a → b.code = x.b → x.Holds (k d a b)) :
    x.Faithful (fmtIdx rd x k) := by
  obtain ⟨-, -, hd, ha, hb, -⟩ := hx
  exact faithful_mkInstr3 hd ha hb fun d a b nd na nb =>
    h d a b (Bool.and_eq_true_iff.mpr ⟨Bool.and_eq_true_iff.mpr ⟨nd.fits, na.fits⟩, nb.fits⟩) nd.code na.code nb.code

theorem faithful_fmtAtom {k : Reg → Reg → Reg → Instr}
    (h : ∀ d a b, (d.dst && a.adr) = true → d.code = x.d → a.code = x.a → b.code = x.b → x.Holds (k d a b)) :
    x.Faithful (fmtAtom x k) := by
  obtain ⟨-, -, hd, ha, hb, -⟩ := hx
  exact faithful_mkInstr3 hd ha hb fun d a b nd na nb =>
    h d a b (Bool.and_eq_true_iff.mpr ⟨nd.fits, na.fits⟩) nd.code na.code nb.code

/-- The flags of an E format, whose code for the release flag lies in two fields. -/
theorem faithful_withFlags {k : Flag → Flag → Decoded}
    (h : ∀ q r, flagCode q + 8 * (flagCode r % 4) = x.b → flagCode r / 4 = x.f % 2 → x.Faithful (k q r)) :
    x.Faithful (withFlags x k) := by
  obtain ⟨-, -, -, -, hb, -⟩ := hx
  refine faithful_withCode fun q hq => faithful_withCode fun r hr => h q r ?_ ?_ <;>
    (have hq := flagOfCode_iff.mp hq; have hr := flagOfCode_iff.mp hr; omega)

theorem faithful_fmtE {rd : Role} {k : Flag → Flag → Reg → Reg → Instr}
    (h : ∀ q r d a, rd.fits d = true → d.code = x.d → a.code = x.a → flagCode q + 8 * (flagCode r % 4) = x.b → flagCode r / 4 = x.f % 2 →
      x.Holds (k q r d a)) : x.Faithful (fmtE rd x k) := by
  obtain ⟨-, -, hd, ha, -, -⟩ := id hx
  exact faithful_withFlags hx fun q r hq hr => faithful_mkInstr2 hd ha fun d a nd na => h q r d a nd.fits nd.code na.code hq hr

theorem faithful_fmtEA {k : Flag → Flag → Reg → Instr}
    (h : ∀ q r a, 24 = x.d → a.code = x.a → flagCode q + 8 * (flagCode r % 4) = x.b → flagCode r / 4 = x.f % 2 → x.Holds (k q r a)) :
    x.Faithful (fmtEA x k) := by
  obtain ⟨-, -, -, ha, -, -⟩ := id hx
  exact faithful_withFlags hx fun q r hq hr => faithful_need fun hd => faithful_mkInstr1 ha fun a na =>
    h q r a (beq_iff_eq.mp hd).symm na.code hq hr

theorem faithful_fmtRRI {k : Reg → Reg → BitVec 12 → Instr}
    (h : ∀ d a i, d.dst = true → d.code = x.d → a.code = x.a → i.toNat % 32 = x.b → i.toNat / 32 = x.f → x.Holds (k d a i)) :
    x.Faithful (fmtRRI x k) := by
  obtain ⟨-, -, hd, ha, hb, hf⟩ := hx
  refine faithful_mkInstr2 (k := fun d a => k d a _) hd ha fun d a nd na => h d a _ nd.fits nd.code na.code ?_ ?_ <;>
    (rw [BitVec.toNat_ofNat]; omega)

theorem faithful_fmtRI {k : Reg → BitVec 17 → Instr}
    (h : ∀ d i, d.dst = true → d.code = x.d → i.toNat % 32 = x.a → i.toNat / 32 % 32 = x.b → i.toNat / 1024 = x.f → x.Holds (k d i)) :
    x.Faithful (fmtRI x k) := by
  obtain ⟨-, -, hd, ha, hb, hf⟩ := hx
  refine faithful_mkInstr1 (k := fun d => k d _) hd fun d nd => h d _ nd.fits nd.code ?_ ?_ ?_ <;>
    (rw [BitVec.toNat_ofNat]; omega)

theorem faithful_fmtM {rd : Role} {k : Fin 4 → BitVec 10 → Reg → Reg → Instr}
    (h : ∀ s o d a, (rd.fits d && a.adr) = true → d.code = x.d → a.code = x.a → o.toNat % 32 = x.b → o.toNat / 32 + 32 * s.val = x.f →
      x.Holds (k s o d a)) : x.Faithful (fmtM rd x k) := by
  obtain ⟨-, -, hd, ha, hb, hf⟩ := hx
  refine faithful_mkInstr2 hd ha fun d a nd na =>
    h _ _ d a (Bool.and_eq_true_iff.mpr ⟨nd.fits, na.fits⟩) nd.code na.code ?_ ?_ <;>
    (simp only [BitVec.toNat_ofNat, Fin.val_ofNat]; omega)

theorem faithful_fmtV3 {k : Fin 4 → Fin 8 → Fin 8 → Fin 8 → Instr}
    (h : ∀ m d a b, d.val + 8 * m.val = x.d → a.val = x.a → b.val = x.b → x.Holds (k m d a b)) : x.Faithful (fmtV3 x k) := by
  obtain ⟨-, -, hd, -, -, -⟩ := hx
  refine faithful_need fun ha => faithful_need fun hb => faithful_instr (h _ _ _ _ ?_ ?_ ?_) <;>
    (simp only [Fin.val_ofNat, decide_eq_true_eq] at *; omega)

theorem faithful_fmtV2 {k : Fin 4 → Fin 8 → Fin 8 → Instr}
    (h : ∀ m d a, d.val + 8 * m.val = x.d → a.val = x.a → 0 = x.b → x.Holds (k m d a)) : x.Faithful (fmtV2 x k) := by
  obtain ⟨-, -, hd, -, -, -⟩ := hx
  refine faithful_need fun ha => faithful_need fun hb => faithful_instr (h _ _ _ ?_ ?_ (beq_iff_eq.mp hb).symm) <;>
    (simp only [Fin.val_ofNat, decide_eq_true_eq] at *; omega)

theorem faithful_fmtVS {k : Fin 4 → Fin 8 → Fin 8 → Reg → Instr}
    (h : ∀ m d a b, d.val + 8 * m.val = x.d → a.val = x.a → b.code = x.b → x.Holds (k m d a b)) : x.Faithful (fmtVS x k) := by
  obtain ⟨-, -, hd, -, hb, -⟩ := hx
  refine faithful_need fun ha => faithful_mkInstr1 hb fun b nb => h _ _ _ b ?_ ?_ nb.code <;>
    (simp only [Fin.val_ofNat, decide_eq_true_eq] at *; omega)

end

/-! ### The groups (R110) -/

section
variable {x : Fields} {g : Guard} (hx : x.ok) (hg : g.code = x.g)
include hx hg

theorem decodeAlu_faithful (hop : x.op = 0x00) : x.Faithful (decodeAlu g x) := by
  obtain ⟨-, -, hd, ha, hb, hf⟩ := id hx
  have hw := bit_toNat x.f 6
  unfold decodeAlu
  dsimp only
  split
  case h_20 | h_21 | h_22 | h_23 | h_24 =>
    exact faithful_fmt2 hx fun d a wd ed ea eb => ⟨wd, some_rrr hop hg ed ea eb (by omega)⟩
  case h_25 | h_26 =>
    exact faithful_withCode fun n hn => faithful_need fun hw => faithful_mkInstr2 hd ha fun d a nd na =>
      ⟨Bool.and_eq_true_iff.mpr ⟨nd.fits, hw⟩, some_rrr hop hg nd.code na.code (ExtW.ofCode_iff.mp hn).symm (by omega)⟩
  case h_27 => exact faithful_illegal
  all_goals exact faithful_fmt3 hx fun d a b wd ed ea eb => ⟨wd, some_rrr hop hg ed ea eb (by omega)⟩

omit hg in
/-- A shift by an immediate, whose amount and width `decodeShi` has found to agree. -/
theorem faithful_shi {k : Reg → Reg → BitVec 6 → Instr} {i : BitVec 6}
    (h : ∀ d a, d.dst = true → d.code = x.d → a.code = x.a → x.Holds (k d a i)) :
    x.Faithful (mkInstr [(.dst, x.d), (.src, x.a)] (k (.ofCode x.d) (.ofCode x.a) i)) := by
  obtain ⟨-, -, hd, ha, -, -⟩ := hx
  exact faithful_mkInstr2 (k := fun d a => k d a i) hd ha fun d a nd na => h d a nd.fits nd.code na.code

theorem decodeShi_faithful (hop : x.op = 0x05) : x.Faithful (decodeShi g x) := by
  obtain ⟨-, -, -, -, hb, -⟩ := id hx
  have hw := bit_toNat x.f 4
  unfold decodeShi
  dsimp only
  refine faithful_need fun hc => ?_
  obtain ⟨hf5, hc⟩ := Bool.and_eq_true_iff.mp hc
  rw [decide_eq_true_eq] at hf5
  have hi := BitVec.toNat_ofNat (x.b + 32 * (x.f % 2)) 6
  generalize BitVec.ofNat 6 (x.b + 32 * (x.f % 2)) = i at hc hi
  split
  case h_6 => exact faithful_illegal
  all_goals exact faithful_shi hx fun d a wd ed ea =>
    ⟨Bool.and_eq_true_iff.mpr ⟨wd, hc⟩, some_rrr hop hg ed ea (by omega) (by omega)⟩

theorem decodeCmp_faithful (hop : x.op = 0x08) : x.Faithful (decodeCmp g x) := by
  obtain ⟨-, -, hd, ha, hb, hf⟩ := hx
  have hw := bit_toNat x.d 4
  refine faithful_need fun hf5 => faithful_withCode fun c hc => faithful_withCode fun n hn => faithful_mkInstr2 ha hb fun a b na nb =>
    ⟨rfl, some_rrr hop hg ?_ na.code nb.code ?_⟩
  · rw [Fin.val_ofNat]
    omega
  · rw [← Combine.ofCode_iff.mp hc, ← ICond.ofCode_iff.mp hn]
    omega

theorem decodeCmpi_faithful (hop : x.op = 0x09) : x.Faithful (decodeCmpi g x) := by
  obtain ⟨-, -, hd, ha, hb, hf⟩ := hx
  have hw := bit_toNat x.d 4
  refine faithful_withCode fun c hc => faithful_withCode fun n hn => faithful_mkInstr1 (k := fun a => .cmpi g c n _ _ a _) ha fun a na =>
    ⟨rfl, some_rrr hop hg ?_ na.code ?_ ?_⟩
  · rw [Fin.val_ofNat]
    omega
  · rw [← Combine.ofCode_iff.mp hc, ← ICond.ofCode_iff.mp hn]
    omega
  · rw [BitVec.toNat_ofNat]
    omega

theorem decodePred_faithful (hop : x.op = 0x0A) : x.Faithful (decodePred g x) := by
  unfold decodePred
  dsimp only
  split
  case h_5 => exact faithful_fmtD hx fun d wd ed ea eb => ⟨wd, some_rrr hop hg ed ea eb (by omega)⟩
  case h_6 => exact faithful_fmtA hx fun a ed ea eb => ⟨rfl, some_rrr hop hg ed ea eb (by omega)⟩
  case h_7 => exact faithful_illegal
  all_goals
    refine faithful_need fun hc => ?_
    simp only [Bool.and_eq_true, decide_eq_true_eq, beq_iff_eq] at hc
    obtain ⟨⟨hd, ha⟩, hb⟩ := hc
  case h_4 => exact faithful_instr ⟨rfl, some_rrr hop hg (Nat.mod_eq_of_lt hd) (Nat.mod_eq_of_lt ha) hb.symm (by omega)⟩
  all_goals exact faithful_instr ⟨rfl, some_rrr hop hg (Nat.mod_eq_of_lt hd) (Nat.mod_eq_of_lt ha) (Nat.mod_eq_of_lt hb) (by omega)⟩

theorem decodeSel_faithful (hop : x.op = 0x0B) : x.Faithful (need (decide (x.f < 16)) (fmt3 x (.sel g (Fin.ofNat 16 x.f)))) := by
  exact faithful_need fun hf => faithful_fmt3 hx fun d a b wd ed ea eb =>
    ⟨wd, some_rrr hop hg ed ea eb (Nat.mod_eq_of_lt (of_decide_eq_true hf))⟩

theorem decodeTern_faithful {n : Nat} (hn : n < 2) (hop : x.op = 0x0C + n) : x.Faithful (fmt3 x (.tern g (.ofNat 8 (x.f + 128 * n)))) := by
  obtain ⟨-, -, -, -, -, hf⟩ := id hx
  refine faithful_fmt3 hx fun d a b wd ed ea eb => ⟨wd, some_rrr ?_ hg ed ea eb ?_⟩ <;> rw [BitVec.toNat_ofNat] <;> omega

theorem decodeBf_faithful (hop : x.op = 0x0E) : x.Faithful (decodeBf g x) := by
  unfold decodeBf
  split
  case h_4 => exact faithful_illegal
  all_goals exact faithful_fmt3 hx fun d a b wd ed ea eb => ⟨wd, some_rrr hop hg ed ea eb (by omega)⟩

theorem decodeDiv_faithful (hop : x.op = 0x0F) : x.Faithful (decodeDiv g x) := by
  obtain ⟨-, -, -, -, -, hf⟩ := id hx
  have hw := bit_toNat x.f 6
  unfold decodeDiv
  dsimp only
  split
  case h_5 => exact faithful_illegal
  all_goals exact faithful_fmt3 hx fun d a b wd ed ea eb => ⟨wd, some_rrr hop hg ed ea eb (by omega)⟩

/-- The offset of a branch, in its four fields. -/
theorem some_encB {op : Nat} (hop : x.op = op) : some (encB op g (off22Of x)) = some x := by
  obtain ⟨-, -, hd, ha, hb, hf⟩ := hx
  refine some_rrr hop hg ?_ ?_ ?_ ?_ <;> rw [off22Of, BitVec.toNat_ofNat] <;> omega

theorem decodeJmp_faithful (hop : x.op = 0x12) : x.Faithful (decodeJmp g x) := by
  obtain ⟨-, -, -, ha, -, -⟩ := id hx
  unfold decodeJmp
  split
  · refine faithful_need fun hz => faithful_mkInstr1 ha fun a na => ?_
    simp only [Bool.and_eq_true, beq_iff_eq] at hz
    exact ⟨na.fits, some_rrr hop hg hz.1.symm na.code hz.2.symm (by omega)⟩
  · exact faithful_fmtDAddr hx fun d a w ed ea eb => ⟨w, some_rrr hop hg ed ea eb (by omega)⟩
  · exact faithful_illegal

theorem decodeFalu_faithful (hop : x.op = 0x13) : x.Faithful (decodeFalu g x) := by
  obtain ⟨-, -, -, -, -, hf⟩ := id hx
  refine faithful_withCode fun t ht => ?_
  have ht := FType.ofCode_iff.mp ht
  split
  case h_4 h0 h1 h2 =>
    have h3 : x.f % 4 = 3 := by
      have : x.f % 4 ≠ 0 ∧ x.f % 4 ≠ 1 ∧ x.f % 4 ≠ 2 := ⟨h0, h1, h2⟩
      omega
    split
    case h_3 | h_4 | h_6 => exact faithful_fmt2 hx fun d a wd ed ea eb => ⟨wd, some_rrr hop hg ed ea eb (by omega)⟩
    case h_7 => exact faithful_illegal
    all_goals exact faithful_fmt3 hx fun d a b wd ed ea eb => ⟨wd, some_rrr hop hg ed ea eb (by omega)⟩
  all_goals
    refine faithful_withCode fun r hr => ?_
    have hr := Rnd.ofCode_iff.mp hr
    exact faithful_fmt3 hx fun d a b wd ed ea eb => ⟨wd, some_rrr hop hg ed ea eb (by omega)⟩

theorem decodeFma_faithful (hop : x.op = 0x14) : x.Faithful (decodeFma g x) := by
  refine faithful_need fun _ => faithful_withCode fun t ht => faithful_withCode fun r hr => ?_
  have ht := FType.ofCode_iff.mp ht
  have hr := Rnd.ofCode_iff.mp hr
  exact faithful_fmt3 hx fun d a b wd ed ea eb => ⟨wd, some_rrr hop hg ed ea eb (by omega)⟩

theorem decodeFcmp_faithful (hop : x.op = 0x15) : x.Faithful (decodeFcmp g x) := by
  obtain ⟨-, -, -, ha, hb, hf⟩ := hx
  refine faithful_need fun hd => faithful_withCode fun t ht => faithful_withCode fun n hn => faithful_withCode fun c hc =>
    faithful_mkInstr2 ha hb fun a b na nb => ⟨rfl, some_rrr hop hg ?_ na.code nb.code ?_⟩
  · exact Nat.mod_eq_of_lt (of_decide_eq_true hd)
  · rw [← FType.ofCode_iff.mp ht, ← FCond.ofCode_iff.mp hn, ← Combine.ofCode_iff.mp hc]
    omega

theorem decodeCvt_faithful (hop : x.op = 0x16) : x.Faithful (decodeCvt g x) := by
  obtain ⟨-, -, hd, ha, -, -⟩ := hx
  refine faithful_withCode fun t ht => faithful_withCode fun s hs => faithful_withCode fun r hr =>
    faithful_mkInstr2 hd ha fun d a nd na => ⟨nd.fits, some_rrr hop hg nd.code na.code (NumType.ofCode_iff.mp hs).symm ?_⟩
  rw [← NumType.ofCode_iff.mp ht, ← Rnd.ofCode_iff.mp hr]
  omega

theorem decodeCvte_faithful (hop : x.op = 0x17) : x.Faithful (decodeCvte g x) := by
  obtain ⟨-, -, hd, ha, hb, -⟩ := hx
  refine faithful_withCode fun t ht => faithful_withCode fun r hr => faithful_mkInstr3 hd ha hb fun d a b nd na nb =>
    ⟨Bool.and_eq_true_iff.mpr ⟨nd.fits, nb.fits⟩, some_rrr hop hg nd.code na.code nb.code ?_⟩
  rw [← NarrowType.ofCode_iff.mp ht, ← Rnd.ofCode_iff.mp hr]
  omega

theorem decodeSfu_faithful (hop : x.op = 0x18) : x.Faithful (decodeSfu g x) := by
  unfold decodeSfu
  split
  case h_10 => exact faithful_illegal
  all_goals exact faithful_fmt2 hx fun d a wd ed ea eb => ⟨wd, some_rrr hop hg ed ea eb (by omega)⟩

theorem decodeLdx_faithful (hop : x.op = 0x1C) : x.Faithful (decodeLdx g x) := by
  have hz := bit_toNat x.f 3
  unfold decodeLdx
  dsimp only
  split
  case isTrue h =>
    refine faithful_need fun hn => faithful_withCode fun m hm => faithful_fmtIdx hx fun d a b w ed ea eb =>
      ⟨w, some_rrr hop hg ed ea eb ?_⟩
    have hm := StMode.ofCode_iff.mp hm
    have h2 := mod_of_bit_set h
    have h3 := mod_of_bit_clear (Bool.eq_false_of_not_eq_true' hn)
    rw [Fin.val_ofNat]
    omega
  case isFalse h =>
    refine faithful_withCode fun m hm => faithful_fmtIdx hx fun d a b w ed ea eb => ⟨w, some_rrr hop hg ed ea eb ?_⟩
    have hm := LdMode.ofCode_iff.mp hm
    have h2 := mod_of_bit_clear (Bool.eq_false_of_not_eq_true h)
    rw [Fin.val_ofNat]
    omega

theorem decodeLdfe_faithful (hop : x.op = 0x1D) : x.Faithful (decodeLdfe g x) := by
  have hs : (Fin.ofNat 4 x.f).val = x.f % 4 := Fin.val_ofNat 4 x.f
  unfold decodeLdfe
  dsimp only
  split
  case h_4 => exact faithful_illegal
  all_goals exact faithful_fmtIdx hx fun d a b w ed ea eb => ⟨w, some_rrr hop hg ed ea eb (by omega)⟩

theorem decodeStfe_faithful (hop : x.op = 0x1E) : x.Faithful (decodeStfe g x) := by
  obtain ⟨-, -, -, ha, hb, -⟩ := id hx
  have hs : (Fin.ofNat 4 x.f).val = x.f % 4 := Fin.val_ofNat 4 x.f
  unfold decodeStfe
  dsimp only
  split
  case h_3 =>
    exact faithful_need fun hd => faithful_mkInstr2 ha hb fun a b na nb =>
      ⟨Bool.and_eq_true_iff.mpr ⟨na.fits, nb.fits⟩, some_rrr hop hg (beq_iff_eq.mp hd).symm na.code nb.code (by omega)⟩
  case h_4 => exact faithful_illegal
  all_goals exact faithful_fmtIdx hx fun d a b w ed ea eb => ⟨w, some_rrr hop hg ed ea eb (by omega)⟩

theorem decodeAtom_faithful (hop : x.op = 0x1F) : x.Faithful (decodeAtom g x) := by
  obtain ⟨-, -, -, -, -, hf⟩ := id hx
  have hz := bit_toNat x.f 4
  have hm := AtMode.code_ofCode (n := x.f / 32) (by omega)
  unfold decodeAtom
  dsimp only
  split
  case h_11 =>
    refine faithful_need fun hn => faithful_fmtAtom hx fun d a b w ed ea eb => ⟨w, some_rrr hop hg ed ea eb ?_⟩
    have h4 := mod_of_bit_clear (Bool.eq_false_of_not_eq_true' hn)
    simp only [Bool.toNat_false]
    omega
  case h_12 => exact faithful_illegal
  all_goals exact faithful_fmtAtom hx fun d a b w ed ea eb => ⟨w, some_rrr hop hg ed ea eb (by omega)⟩

theorem decodeCupd_faithful (hop : x.op = 0x20) : x.Faithful (decodeCupd g x) := by
  obtain ⟨-, -, -, ha, hb, -⟩ := id hx
  have hz := bit_toNat x.f 3
  unfold decodeCupd
  dsimp only
  refine faithful_need fun hc => ?_
  simp only [Bool.and_eq_true, decide_eq_true_eq, beq_iff_eq] at hc
  split
  case h_5 =>
    refine faithful_need fun hn => faithful_mkInstr2 ha hb fun a b na nb =>
      ⟨na.fits, some_rrr hop hg hc.2.symm na.code nb.code ?_⟩
    have h3 := mod_of_bit_clear (Bool.eq_false_of_not_eq_true' hn)
    omega
  case h_6 => exact faithful_illegal
  all_goals exact faithful_mkInstr2 ha hb fun a b na nb => ⟨na.fits, some_rrr hop hg hc.2.symm na.code nb.code (by omega)⟩

theorem decodeSync_faithful (hop : x.op = 0x21) : x.Faithful (decodeSync g x) := by
  unfold decodeSync
  split
  case h_1 =>
    refine faithful_need fun _ => faithful_withCode fun sc hsc => faithful_fmtNone fun ed ea eb =>
      ⟨rfl, some_rrr hop hg ed ea eb ?_⟩
    rw [← Scope.ofCode_iff.mp hsc]
    omega
  case h_3 => exact faithful_need fun hf => faithful_fmt2 hx fun d a wd ed ea eb =>
    ⟨wd, some_rrr hop hg ed ea eb (beq_iff_eq.mp hf).symm⟩
  case h_4 => exact faithful_need fun hf => faithful_fmtA hx fun a ed ea eb =>
    ⟨rfl, some_rrr hop hg ed ea eb (beq_iff_eq.mp hf).symm⟩
  case h_6 => exact faithful_illegal
  all_goals exact faithful_need fun hf => faithful_fmtNone fun ed ea eb => ⟨rfl, some_rrr hop hg ed ea eb (beq_iff_eq.mp hf).symm⟩

theorem decodeList_faithful (hop : x.op = 0x22) : x.Faithful (decodeList g x) := by
  obtain ⟨-, -, -, ha, -, -⟩ := id hx
  unfold decodeList
  split
  case h_1 =>
    refine faithful_need fun hz => faithful_mkInstr1 ha fun a na => ?_
    simp only [Bool.and_eq_true, beq_iff_eq] at hz
    exact ⟨na.fits, some_rrr hop hg hz.1.symm na.code hz.2.symm (by omega)⟩
  case h_2 => exact faithful_fmtIdx hx fun d a b w ed ea eb => ⟨w, some_rrr hop hg ed ea eb (by omega)⟩
  case h_3 => exact faithful_fmtDAddr hx fun d a w ed ea eb => ⟨w, some_rrr hop hg ed ea eb (by omega)⟩
  case h_4 => exact faithful_illegal

theorem decodeStream_faithful (hop : x.op = 0x23) : x.Faithful (decodeStream g x) := by
  obtain ⟨-, -, hd, ha, -, -⟩ := hx
  refine faithful_need fun hb => ?_
  simp only [Bool.and_eq_true, decide_eq_true_eq] at hb
  have ht : 26 + (Fin.ofNat 4 (x.b - 26)).val = x.b := by
    rw [Fin.val_ofNat]
    omega
  split
  case h_1 => exact faithful_need fun hz => faithful_mkInstr1 ha fun a na =>
    ⟨na.fits, some_rrr hop hg (beq_iff_eq.mp hz).symm na.code ht (by omega)⟩
  case h_2 =>
    refine faithful_need fun hz => faithful_instr ?_
    simp only [Bool.and_eq_true, beq_iff_eq] at hz
    exact ⟨rfl, some_rrr hop hg hz.1.symm hz.2.symm ht (by omega)⟩
  case h_3 => exact faithful_need fun hz => faithful_mkInstr1 hd fun d nd =>
    ⟨nd.fits, some_rrr hop hg nd.code (beq_iff_eq.mp hz).symm ht (by omega)⟩
  case h_4 => exact faithful_illegal
end

section
variable {x : Fields} {g : Guard} (hx : x.ok) (hg : g.code = x.g)
include hg

theorem some_encE {op fn d a : Nat} {q r : Flag} (hop : x.op = op) (hd : d = x.d) (ha : a = x.a)
    (hq : flagCode q + 8 * (flagCode r % 4) = x.b) (hf : 2 * fn + flagCode r / 4 = x.f) : some (encE op fn g q r d a) = some x :=
  some_rrr hop hg hd ha hq hf

include hx

theorem decodeXcopy_faithful (hop : x.op = 0x24) : x.Faithful (decodeXcopy g x) := by
  have h2 := bit_toNat (x.f / 2) 2
  have h3 := bit_toNat (x.f / 2) 3
  have h4 := bit_toNat (x.f / 2) 4
  obtain ⟨-, -, -, -, -, hf⟩ := id hx
  unfold decodeXcopy
  dsimp only
  refine faithful_need fun hn => ?_
  have h5 := mod_of_bit_clear (Bool.eq_false_of_not_eq_true' hn)
  split
  case h_4 k0 k1 k2 =>
    have k3 : x.f / 2 % 4 = 3 := by
      have : x.f / 2 % 4 ≠ 0 ∧ x.f / 2 % 4 ≠ 1 ∧ x.f / 2 % 4 ≠ 2 := ⟨k0, k1, k2⟩
      omega
    exact faithful_fmtE hx fun q r d a _ ed ea hq hr => ⟨rfl, some_encE hg hop ed ea hq (by omega)⟩
  all_goals exact faithful_fmtE hx fun q r d a _ ed ea hq hr => ⟨rfl, some_encE hg hop ed ea hq (by omega)⟩

theorem decodeFork_faithful (hop : x.op = 0x25) : x.Faithful (decodeFork g x) := by
  unfold decodeFork
  split
  · exact faithful_fmt3 hx fun d a b wd ed ea eb => ⟨wd, some_rrr hop hg ed ea eb (by omega)⟩
  · exact faithful_fmtDAddr hx fun d a w ed ea eb => ⟨w, some_rrr hop hg ed ea eb (by omega)⟩
  · exact faithful_fmtAB hx fun a b wa ed ea eb => ⟨wa, some_rrr hop hg ed ea eb (by omega)⟩
  · exact faithful_fmtA hx fun a ed ea eb => ⟨rfl, some_rrr hop hg ed ea eb (by omega)⟩
  · exact faithful_fmtNone fun ed ea eb => ⟨rfl, some_rrr hop hg ed ea eb (by omega)⟩
  · exact faithful_illegal

theorem decodeSlot_faithful (hop : x.op = 0x26) : x.Faithful (decodeSlot g x) := by
  unfold decodeSlot
  split
  · exact faithful_fmt3 hx fun d a b wd ed ea eb => ⟨wd, some_rrr hop hg ed ea eb (by omega)⟩
  · exact faithful_fmt2 hx fun d a wd ed ea eb => ⟨wd, some_rrr hop hg ed ea eb (by omega)⟩
  · exact faithful_fmt2 hx fun d a wd ed ea eb => ⟨wd, some_rrr hop hg ed ea eb (by omega)⟩
  · exact faithful_fmtA hx fun a ed ea eb => ⟨rfl, some_rrr hop hg ed ea eb (by omega)⟩
  · exact faithful_illegal

omit hx in
theorem decodeGang_faithful (hop : x.op = 0x27) : x.Faithful (decodeGang g x) := by
  refine faithful_need fun _ => ?_
  split
  case isTrue => exact faithful_need fun hf => faithful_fmtNone fun ed ea eb =>
    ⟨rfl, some_rrr hop hg ed ea eb (beq_iff_eq.mp hf).symm⟩
  case isFalse h =>
    refine faithful_withCode fun n hn => faithful_fmtNone fun ed ea eb => ⟨rfl, some_rrr hop hg ed ea eb ?_⟩
    rw [← GangN.ofCode_iff.mp hn]
    have h0 := mod_of_bit_clear (Bool.eq_false_of_not_eq_true h)
    omega

theorem decodeBar_faithful (hop : x.op = 0x28) : x.Faithful (decodeBar g x) := by
  obtain ⟨-, -, -, ha, -, -⟩ := id hx
  unfold decodeBar
  split
  · exact faithful_fmtAB hx fun a b wa ed ea eb => ⟨wa, some_rrr hop hg ed ea eb (by omega)⟩
  · exact faithful_fmtDAddr hx fun d a w ed ea eb => ⟨w, some_rrr hop hg ed ea eb (by omega)⟩
  · exact faithful_fmtAB hx fun a b wa ed ea eb => ⟨wa, some_rrr hop hg ed ea eb (by omega)⟩
  · refine faithful_need fun hz => faithful_mkInstr1 ha fun a na => ?_
    simp only [Bool.and_eq_true, beq_iff_eq] at hz
    exact ⟨na.fits, some_rrr hop hg hz.1.symm na.code hz.2.symm (by omega)⟩
  · exact faithful_illegal

theorem decodeMbox_faithful (hop : x.op = 0x29) : x.Faithful (decodeMbox g x) := by
  unfold decodeMbox
  split
  · exact faithful_fmtAB hx fun a b _ ed ea eb => ⟨rfl, some_rrr hop hg ed ea eb (by omega)⟩
  · exact faithful_fmt2 hx fun d a wd ed ea eb => ⟨wd, some_rrr hop hg ed ea eb (by omega)⟩
  · exact faithful_fmt2 hx fun d a wd ed ea eb => ⟨wd, some_rrr hop hg ed ea eb (by omega)⟩
  · exact faithful_illegal

/-- A number in the three register fields. -/
theorem some_encImm15 {f : Nat} (hop : x.op = if f = 3 then 0x2A else 0x2B) (hf : f = x.f) :
    some (encImm15 f g (imm15Of x)) = some x := by
  obtain ⟨-, -, hd, ha, hb, -⟩ := hx
  refine some_rrr hop hg ?_ ?_ ?_ hf <;> rw [imm15Of, BitVec.toNat_ofNat] <;> omega

theorem decodeWq_faithful (hop : x.op = 0x2A) : x.Faithful (decodeWq g x) := by
  unfold decodeWq
  split
  case h_1 => exact faithful_fmtAB hx fun a b _ ed ea eb => ⟨rfl, some_rrr hop hg ed ea eb (by omega)⟩
  case h_2 | h_3 => exact faithful_fmt2 hx fun d a wd ed ea eb => ⟨wd, some_rrr hop hg ed ea eb (by omega)⟩
  case h_4 => exact faithful_instr ⟨rfl, some_encImm15 hx hg hop (by omega)⟩
  case h_5 => exact faithful_fmtD hx fun d wd ed ea eb => ⟨wd, some_rrr hop hg ed ea eb (by omega)⟩
  case h_6 => exact faithful_fmtA hx fun a ed ea eb => ⟨rfl, some_rrr hop hg ed ea eb (by omega)⟩
  case h_7 => exact faithful_illegal

omit hg in
/-- A control register's number, in two fields. -/
theorem ctrlReg_fields {n : CtrlReg} (h : CtrlReg.ofCode (x.a + 32 * x.b) = some n) : n.code % 32 = x.a ∧ n.code / 32 = x.b := by
  obtain ⟨-, -, -, ha, -, -⟩ := hx
  have hn := CtrlReg.ofCode_iff.mp h
  omega

theorem decodeSys_faithful (hop : x.op = 0x2B) : x.Faithful (decodeSys g x) := by
  obtain ⟨-, -, hd, ha, -, -⟩ := id hx
  unfold decodeSys
  dsimp only
  split
  case h_1 => exact faithful_instr ⟨rfl, some_encImm15 hx hg hop (by omega)⟩
  case h_3 =>
    split
    case h_1 n hn =>
      obtain ⟨ea, eb⟩ := ctrlReg_fields hx hn
      exact faithful_mkInstr1 hd fun d nd => ⟨nd.fits, some_rrr hop hg nd.code ea eb (by omega)⟩
    case h_2 => exact faithful_illegal
  case h_4 =>
    split
    case h_1 n hn =>
      obtain ⟨ea, eb⟩ := ctrlReg_fields hx hn
      exact faithful_mkInstr1 hd fun d nd => ⟨rfl, some_rrr hop hg nd.code ea eb (by omega)⟩
    case h_2 => exact faithful_illegal
  case h_6 =>
    refine faithful_need fun hc => faithful_mkInstr1 ha fun a na => ?_
    simp only [Bool.and_eq_true, decide_eq_true_eq, beq_iff_eq] at hc
    exact ⟨rfl, some_rrr hop hg hc.2.symm na.code (Nat.mod_eq_of_lt hc.1) (by omega)⟩
  case h_7 =>
    refine faithful_need fun hc => faithful_mkInstr1 hd fun d nd => ?_
    simp only [Bool.and_eq_true, decide_eq_true_eq, beq_iff_eq] at hc
    exact ⟨nd.fits, some_rrr hop hg nd.code hc.2.symm (Nat.mod_eq_of_lt hc.1) (by omega)⟩
  case h_9 => exact faithful_illegal
  all_goals exact faithful_fmtNone fun ed ea eb => ⟨rfl, some_rrr hop hg ed ea eb (by omega)⟩

/-! Vector instructions (R181). -/

omit hx in
theorem some_encV {op k b : Nat} {t : LType} {m : Fin 4} {d a : Fin 8} (hop : x.op = op) (ht : LType.ofCode (x.f / 32) = some t)
    (hk : x.f % 32 = k) (hd : d.val + 8 * m.val = x.d) (ha : a.val = x.a) (hb : b = x.b) : some (encV op k g t m d a b) = some x := by
  have ht := LType.ofCode_iff.mp ht
  exact some_rrr hop hg hd ha hb (by omega)

omit hx in
/-- The functions of one type: their encoding names F32, whose code is 0. -/
theorem some_encV_f32 {k : Nat} {m : Fin 4} {d a : Fin 8} (hop : x.op = 0x2C) (hf : x.f < 32)
    (hk : x.f % 32 = k) (hd : d.val + 8 * m.val = x.d) (ha : a.val = x.a) (hb : 0 = x.b) : some (encV 0x2C k g .f32 m d a 0) = some x :=
  some_encV hg hop (by rw [Nat.div_eq_of_lt hf]; rfl) hk hd ha hb

omit hg hx in
/-- A vector compare's condition, of which there is one more for floats. -/
theorem cond_lt {t : LType} {n : Nat} (h : n < if t.isF32 then 20 else 16) : n / 4 < 5 ∧ (t.isF32 || decide (n / 4 < 4)) = true := by
  cases t <;> simp only [LType.isF32, Bool.false_eq_true, if_true, if_false] at h <;> simp [LType.isF32] <;> omega

theorem decodeVrr_faithful (hop : x.op = 0x2C) : x.Faithful (decodeVrr g x) := by
  obtain ⟨-, -, hd, ha, hb, hf⟩ := id hx
  unfold decodeVrr
  dsimp only
  split
  case h_7 | h_8 | h_25 | h_26 =>
    exact faithful_withCode fun t ht => faithful_fmtV2 hx fun m d a ed ea eb => ⟨rfl, some_encV hg hop ht ‹_› ed ea eb⟩
  case h_9 =>
    refine faithful_withCode fun t ht => faithful_need fun hc => ?_
    simp only [Bool.and_eq_true, decide_eq_true_eq] at hc
    obtain ⟨⟨hd, ha⟩, hb⟩ := hc
    obtain ⟨hc, hwf⟩ := cond_lt hd
    have ht := LType.ofCode_iff.mp ht
    have hcond : (Fin.ofNat 5 (x.d / 4)).val = x.d / 4 := Nat.mod_eq_of_lt hc
    have hv : (Fin.ofNat 4 x.d).val = x.d % 4 := rfl
    refine faithful_instr ⟨?_, some_rrr hop hg (by omega) (Nat.mod_eq_of_lt ha) (Nat.mod_eq_of_lt hb) (by omega)⟩
    rw [← hcond] at hwf
    exact hwf
  case h_14 =>
    refine faithful_instr ⟨rfl, some_rrr hop hg ?_ ?_ ?_ ?_⟩ <;> simp only [BitVec.toNat_ofNat, Fin.val_ofNat] <;> omega
  case h_15 | h_16 =>
    exact faithful_withCode fun t ht => faithful_need fun hc => faithful_fmtV3 hx fun m d a b ed ea eb =>
      ⟨hc, some_encV hg hop ht ‹_› ed ea eb⟩
  case h_17 =>
    refine faithful_withCode fun t ht => faithful_need fun ha => faithful_withCode fun o ho => faithful_instr
      ⟨rfl, some_encV hg hop ht ‹_› ?_ (Nat.mod_eq_of_lt (of_decide_eq_true ha)) ?_⟩
    · simp only [Fin.val_ofNat]
      omega
    · rw [← VType.ofCode_iff.mp ho, bit_toNat]
      omega
  case h_18 =>
    refine faithful_need fun ha => faithful_need fun hb => faithful_withCode fun n hn => faithful_instr
      ⟨rfl, some_rrr hop hg ?_ (Nat.mod_eq_of_lt (of_decide_eq_true ha)) (Nat.mod_eq_of_lt (of_decide_eq_true hb)) ?_⟩
    · rw [← NarrowType.ofVcode_iff.mp hn, Fin.val_ofNat]
      omega
    · rw [← NarrowType.ofVcode_iff.mp hn]
      omega
  case h_19 | h_20 | h_21 | h_22 | h_23 | h_24 =>
    exact faithful_need fun hf => faithful_fmtV2 hx fun m d a ed ea eb =>
      ⟨rfl, some_encV_f32 hg hop (of_decide_eq_true hf) ‹_› ed ea eb⟩
  case h_27 =>
    refine faithful_withCode fun t ht => faithful_need fun hc => faithful_fmtV3 hx fun m d a b ed ea eb =>
      ⟨decide_eq_true ?_, some_encV hg hop ht ‹_› ed ea eb⟩
    have hc := beq_iff_eq.mp hc
    omega
  case h_28 =>
    refine faithful_withCode fun t ht => faithful_need fun ha => faithful_need fun hc => ?_
    simp only [Bool.and_eq_true, decide_eq_true_eq, beq_iff_eq] at hc
    exact faithful_instr ⟨rfl, some_encV hg hop ht ‹_› (Nat.mod_eq_of_lt hc.1) (Nat.mod_eq_of_lt (of_decide_eq_true ha)) hc.2.symm⟩
  case h_31 =>
    exact faithful_withCode fun t ht => faithful_need fun hc => faithful_fmtV2 hx fun m d a ed ea eb =>
      ⟨hc, some_encV hg hop ht ‹_› ed ea eb⟩
  case h_32 => exact faithful_illegal
  all_goals exact faithful_withCode fun t ht => faithful_fmtV3 hx fun m d a b ed ea eb =>
    ⟨rfl, some_encV hg hop ht ‹_› ed ea eb⟩

theorem decodeVrs_faithful (hop : x.op = 0x2D) : x.Faithful (decodeVrs g x) := by
  obtain ⟨-, -, hd, -, hb, -⟩ := id hx
  refine faithful_withCode fun t ht => ?_
  split
  case h_7 =>
    refine faithful_need fun hc => faithful_mkInstr1 hb fun b nb => ?_
    simp only [Bool.and_eq_true, decide_eq_true_eq] at hc
    obtain ⟨hd, ha⟩ := hc
    obtain ⟨hc, hwf⟩ := cond_lt hd
    have ht := LType.ofCode_iff.mp ht
    have hcond : (Fin.ofNat 5 (x.d / 4)).val = x.d / 4 := Nat.mod_eq_of_lt hc
    have hv : (Fin.ofNat 4 x.d).val = x.d % 4 := rfl
    rw [← hcond] at hwf
    exact ⟨hwf, some_rrr hop hg (by omega) (Nat.mod_eq_of_lt ha) nb.code (by omega)⟩
  case h_12 | h_13 => exact faithful_need fun hc => faithful_fmtVS hx fun m d a b ed ea eb => ⟨hc, some_encV hg hop ht ‹_› ed ea eb⟩
  case h_14 =>
    refine faithful_need fun hc => faithful_fmtVS hx fun m d a b ed ea eb => ⟨decide_eq_true ?_, some_encV hg hop ht ‹_› ed ea eb⟩
    have hc := beq_iff_eq.mp hc
    omega
  case h_17 =>
    refine faithful_need fun ha => faithful_mkInstr1 hb fun b nb =>
      ⟨rfl, some_encV hg hop ht ‹_› ?_ (beq_iff_eq.mp ha).symm nb.code⟩
    simp only [Fin.val_ofNat]
    omega
  case h_18 => exact faithful_illegal
  all_goals exact faithful_fmtVS hx fun m d a b ed ea eb => ⟨rfl, some_encV hg hop ht ‹_› ed ea eb⟩

theorem decodeVmem_faithful (hop : x.op = 0x2E) : x.Faithful (decodeVmem g x) := by
  obtain ⟨-, -, hd, ha, hb, -⟩ := hx
  have hs := bit_toNat x.f 5
  have em : (Fin.ofNat 8 x.d).val + 8 * (Fin.ofNat 4 (x.d / 8)).val = x.d := by
    simp only [Fin.val_ofNat]
    omega
  unfold decodeVmem
  dsimp only
  split
  case h_1 =>
    refine faithful_need fun hf => faithful_withCode fun s es => faithful_need fun hc => faithful_mkInstr2 ha hb fun a b na nb =>
      ⟨Bool.and_eq_true_iff.mpr ⟨Bool.and_eq_true_iff.mpr ⟨na.fits, nb.fits⟩, hc⟩, some_rrr hop hg em na.code nb.code ?_⟩
    rw [decide_eq_true_eq] at hf
    rw [← ElSize.ofCode_iff.mp es]
    omega
  case h_2 =>
    refine faithful_need fun hf => faithful_withCode fun s es => faithful_need fun hc => faithful_mkInstr2 ha hb fun a b na nb =>
      ⟨Bool.and_eq_true_iff.mpr ⟨na.fits, nb.fits⟩, some_rrr hop hg em na.code nb.code ?_⟩
    rw [decide_eq_true_eq] at hf
    have h5 := mod_of_bit_clear (Bool.eq_false_of_not_eq_true' hc)
    rw [← ElSize.ofCode_iff.mp es]
    omega
  case h_3 =>
    refine faithful_need fun hf => faithful_withCode fun s es => faithful_need fun hc => ?_
    obtain ⟨hc, hb⟩ := Bool.and_eq_true_iff.mp hc
    refine faithful_mkInstr1 (k := fun a => .vldx g _ s _ _ a _) ha fun a na =>
      ⟨Bool.and_eq_true_iff.mpr ⟨na.fits, hc⟩, some_rrr hop hg em na.code (Nat.mod_eq_of_lt (of_decide_eq_true hb)) ?_⟩
    rw [decide_eq_true_eq] at hf
    rw [← ElSize.ofCode_iff.mp es]
    omega
  case h_4 =>
    refine faithful_need fun hf => faithful_withCode fun s es => faithful_need fun hc => ?_
    obtain ⟨hc, hb⟩ := Bool.and_eq_true_iff.mp hc
    refine faithful_mkInstr1 (k := fun a => .vstx g s _ _ a _) ha fun a na =>
      ⟨na.fits, some_rrr hop hg em na.code (Nat.mod_eq_of_lt (of_decide_eq_true hb)) ?_⟩
    rw [decide_eq_true_eq] at hf
    have h5 := mod_of_bit_clear (Bool.eq_false_of_not_eq_true' hc)
    rw [← ElSize.ofCode_iff.mp es]
    omega
  case h_5 =>
    refine faithful_need fun hv => ?_
    unfold decodeVmem.mkInstr'
    split
    case h_3 => exact faithful_illegal
    all_goals exact faithful_mkInstr2 ha hb fun a b na nb => ⟨Bool.and_eq_true_iff.mpr ⟨na.fits, nb.fits⟩,
      some_rrr hop hg (Nat.mod_eq_of_lt (of_decide_eq_true hv)) na.code nb.code (by omega)⟩
  case h_6 => exact faithful_illegal

theorem decodeVctl_faithful (hop : x.op = 0x2F) : x.Faithful (decodeVctl g x) := by
  obtain ⟨-, -, hd, ha, -, -⟩ := id hx
  unfold decodeVctl
  dsimp only
  split
  case h_1 =>
    refine faithful_withCode fun t ht => faithful_need fun hc => ?_
    simp only [Bool.and_eq_true, decide_eq_true_eq, beq_iff_eq] at hc
    obtain ⟨⟨h8, heven⟩, hb⟩ := hc
    have ea : (Fin.ofNat 8 x.a).val = x.a := Nat.mod_eq_of_lt h8
    refine faithful_mkInstr1 (k := fun d => .vimaxs g t d _) hd fun d nd =>
      ⟨Bool.and_eq_true_iff.mpr ⟨nd.fits, decide_eq_true (ea.symm ▸ heven)⟩, some_rrr hop hg nd.code ea hb.symm ?_⟩
    rw [← LType.ofCode_iff.mp ht]
    omega
  case h_2 =>
    split
    case h_2 => exact faithful_fmtD hx fun d wd ed ea eb => ⟨wd, some_rrr hop hg ed ea eb (by omega)⟩
    case h_4 | h_5 | h_6 =>
      refine faithful_need fun hc => ?_
      simp only [Bool.and_eq_true, decide_eq_true_eq] at hc
      exact faithful_instr
        ⟨rfl, some_rrr hop hg (Nat.mod_eq_of_lt hc.1.1) (Nat.mod_eq_of_lt hc.1.2) (Nat.mod_eq_of_lt hc.2) (by omega)⟩
    case h_7 =>
      refine faithful_need fun hc => ?_
      simp only [Bool.and_eq_true, decide_eq_true_eq, beq_iff_eq] at hc
      exact faithful_instr ⟨rfl, some_rrr hop hg (Nat.mod_eq_of_lt hc.1.1) (Nat.mod_eq_of_lt hc.1.2) hc.2.symm (by omega)⟩
    case h_8 =>
      refine faithful_need fun hc => faithful_mkInstr1 (k := fun d => .vmget g d _) hd fun d nd => ?_
      simp only [Bool.and_eq_true, decide_eq_true_eq, beq_iff_eq] at hc
      exact ⟨nd.fits, some_rrr hop hg nd.code (Nat.mod_eq_of_lt hc.1) hc.2.symm (by omega)⟩
    case h_9 =>
      refine faithful_need fun hc => faithful_mkInstr1 ha fun a na => ?_
      simp only [Bool.and_eq_true, decide_eq_true_eq, beq_iff_eq] at hc
      exact ⟨rfl, some_rrr hop hg (Nat.mod_eq_of_lt hc.1) na.code hc.2.symm (by omega)⟩
    case h_10 => exact faithful_illegal
    all_goals exact faithful_fmtNone fun ed ea eb => ⟨rfl, some_rrr hop hg ed ea eb (by omega)⟩

/-! Engine commands (R105). -/

theorem decodeMfmt_faithful (hop : x.op = 0x30) : x.Faithful (decodeMfmt g x) := by
  obtain ⟨-, -, -, ha, -, -⟩ := hx
  refine faithful_need fun hc => faithful_mkInstr1 ha fun a na => ?_
  simp only [Bool.and_eq_true, decide_eq_true_eq, beq_iff_eq] at hc
  exact ⟨rfl, some_rrr hop hg (Nat.mod_eq_of_lt hc.1.2) na.code hc.2.symm hc.1.1.symm⟩

theorem decodeMma_faithful (hop : x.op = 0x31) : x.Faithful (decodeMma g x) := by
  obtain ⟨-, -, -, -, -, hf⟩ := id hx
  refine faithful_fmtE hx fun q r d a _ ed ea hq hr => ⟨rfl, some_encE hg hop ed ea hq ?_⟩
  simp only [bit_toNat, Fin.val_ofNat]
  omega

theorem decodeMacc_faithful (hop : x.op = 0x32) : x.Faithful (decodeMacc g x) := by
  unfold decodeMacc
  split
  case h_3 => exact faithful_fmtEA hx fun q r a ed ea hq hr => ⟨rfl, some_encE hg hop ed ea hq (by omega)⟩
  case h_4 | h_5 => exact faithful_fmtE hx fun q r d a wd ed ea hq hr => ⟨wd, some_encE hg hop ed ea hq (by omega)⟩
  case h_6 => exact faithful_illegal
  all_goals exact faithful_fmtE hx fun q r d a _ ed ea hq hr => ⟨rfl, some_encE hg hop ed ea hq (by omega)⟩

theorem decodeAttn_faithful (hop : x.op = 0x33) : x.Faithful (decodeAttn g x) := by
  unfold decodeAttn
  dsimp only
  split
  case isTrue =>
    refine faithful_need fun hf => faithful_fmtE hx fun q r d a _ ed ea hq hr => ⟨rfl, some_encE hg hop ed ea hq ?_⟩
    have hf := beq_iff_eq.mp hf
    omega
  case isFalse h =>
    refine faithful_need fun hf => faithful_withCode fun s hs => faithful_fmtE hx fun q r d a _ ed ea hq hr =>
      ⟨rfl, some_encE hg hop ed ea hq ?_⟩
    have h0 := mod_of_bit_clear (Bool.eq_false_of_not_eq_true h)
    rw [decide_eq_true_eq] at hf
    rw [← KeySrc.ofCode_iff.mp hs, bit_toNat, bit_toNat]
    omega

theorem decodeKv_faithful (hop : x.op = 0x34) : x.Faithful (decodeKv g x) := by
  have hw := bit_toNat (x.f / 2) 3
  unfold decodeKv
  dsimp only
  refine faithful_need fun hf => ?_
  rw [decide_eq_true_eq] at hf
  split
  case h_4 =>
    refine faithful_need fun hn => faithful_fmtE hx fun q r d a wd ed ea hq hr => ⟨wd, some_encE hg hop ed ea hq ?_⟩
    have h3 := mod_of_bit_clear (Bool.eq_false_of_not_eq_true' hn)
    omega
  case h_5 =>
    refine faithful_need fun hn => faithful_fmtEA hx fun q r a ed ea hq hr => ⟨rfl, some_encE hg hop ed ea hq ?_⟩
    have h3 := mod_of_bit_clear (Bool.eq_false_of_not_eq_true' hn)
    omega
  case h_6 => exact faithful_illegal
  all_goals exact faithful_fmtE hx fun q r d a wd ed ea hq hr => ⟨wd, some_encE hg hop ed ea hq (by omega)⟩

theorem decodeRedit_faithful (hop : x.op = 0x35) : x.Faithful (decodeRedit g x) := by
  unfold decodeRedit
  split
  case h_5 => exact faithful_illegal
  all_goals exact faithful_fmtE hx fun q r d a wd ed ea hq hr => ⟨wd, some_encE hg hop ed ea hq (by omega)⟩

theorem decodeRope_faithful (hop : x.op = 0x36) : x.Faithful (decodeRope g x) := by
  unfold decodeRope
  split
  case h_6 => exact faithful_fmtEA hx fun q r a ed ea hq hr => ⟨rfl, some_encE hg hop ed ea hq (by omega)⟩
  case h_9 => exact faithful_fmtE hx fun q r d a _ ed ea hq hr => ⟨rfl, some_encE hg hop ed ea hq (by omega)⟩
  case h_10 => exact faithful_illegal
  all_goals exact faithful_fmtE hx fun q r d a wd ed ea hq hr => ⟨wd, some_encE hg hop ed ea hq (by omega)⟩

theorem decodeText_faithful (hop : x.op = 0x37) : x.Faithful (decodeText g x) := by
  unfold decodeText
  split
  · exact faithful_fmtAtom hx fun d a b w ed ea eb => ⟨w, some_rrr hop hg ed ea eb (by omega)⟩
  · exact faithful_fmt2 hx fun d a wd ed ea eb => ⟨wd, some_rrr hop hg ed ea eb (by omega)⟩
  · exact faithful_fmtAtom hx fun d a b w ed ea eb => ⟨w, some_rrr hop hg ed ea eb (by omega)⟩
  · exact faithful_illegal

theorem decodeIq_faithful (hop : x.op = 0x38) : x.Faithful (decodeIq g x) := by
  unfold decodeIq
  split
  case h_2 | h_3 => exact faithful_fmtE hx fun q r d a wd ed ea hq hr =>
    ⟨wd, some_encE hg hop ed ea hq (by simp only [Bool.toNat_false, Bool.toNat_true]; omega)⟩
  case h_6 => exact faithful_illegal
  all_goals exact faithful_fmtE hx fun q r d a wd ed ea hq hr => ⟨wd, some_encE hg hop ed ea hq (by omega)⟩

theorem decodeIqctl_faithful (hop : x.op = 0x39) : x.Faithful (decodeIqctl g x) := by
  unfold decodeIqctl
  split
  case h_6 => exact faithful_illegal
  all_goals exact faithful_fmtE hx fun q r d a wd ed ea hq hr => ⟨wd, some_encE hg hop ed ea hq (by omega)⟩

/-- Whatever the opcode map reads as an instruction is well formed and has the fields that were read. -/
theorem decodeGroup_faithful : x.Faithful (decodeGroup g x) := by
  unfold decodeGroup
  split
  case h_1 hop => exact decodeAlu_faithful hx hg hop
  case h_2 hop | h_3 hop | h_4 hop | h_5 hop =>
    exact faithful_fmtRRI hx fun d a i wd ed ea eb ef => ⟨wd, some_rrr hop hg ed ea eb ef⟩
  case h_6 hop => exact decodeShi_faithful hx hg hop
  case h_7 hop | h_8 hop => exact faithful_fmtRI hx fun d i wd ed ea eb ef => ⟨wd, some_rrr hop hg ed ea eb ef⟩
  case h_9 hop => exact decodeCmp_faithful hx hg hop
  case h_10 hop => exact decodeCmpi_faithful hx hg hop
  case h_11 hop => exact decodePred_faithful hx hg hop
  case h_12 hop => exact decodeSel_faithful hx hg hop
  case h_13 hop => exact decodeTern_faithful (n := 0) hx hg (by decide) hop
  case h_14 hop => exact decodeTern_faithful (n := 1) hx hg (by decide) hop
  case h_15 hop => exact decodeBf_faithful hx hg hop
  case h_16 hop => exact decodeDiv_faithful hx hg hop
  case h_17 hop | h_18 hop => exact faithful_instr ⟨rfl, some_encB hx hg hop⟩
  case h_19 hop => exact decodeJmp_faithful hx hg hop
  case h_20 hop => exact decodeFalu_faithful hx hg hop
  case h_21 hop => exact decodeFma_faithful hx hg hop
  case h_22 hop => exact decodeFcmp_faithful hx hg hop
  case h_23 hop => exact decodeCvt_faithful hx hg hop
  case h_24 hop => exact decodeCvte_faithful hx hg hop
  case h_25 hop => exact decodeSfu_faithful hx hg hop
  case h_26 hop | h_27 hop | h_28 hop => exact faithful_fmtM hx fun s o d a w ed ea eb ef => ⟨w, some_rrr hop hg ed ea eb ef⟩
  case h_29 hop => exact decodeLdx_faithful hx hg hop
  case h_30 hop => exact decodeLdfe_faithful hx hg hop
  case h_31 hop => exact decodeStfe_faithful hx hg hop
  case h_32 hop => exact decodeAtom_faithful hx hg hop
  case h_33 hop => exact decodeCupd_faithful hx hg hop
  case h_34 hop => exact decodeSync_faithful hx hg hop
  case h_35 hop => exact decodeList_faithful hx hg hop
  case h_36 hop => exact decodeStream_faithful hx hg hop
  case h_37 hop => exact decodeXcopy_faithful hx hg hop
  case h_38 hop => exact decodeFork_faithful hx hg hop
  case h_39 hop => exact decodeSlot_faithful hx hg hop
  case h_40 hop => exact decodeGang_faithful hg hop
  case h_41 hop => exact decodeBar_faithful hx hg hop
  case h_42 hop => exact decodeMbox_faithful hx hg hop
  case h_43 hop => exact decodeWq_faithful hx hg hop
  case h_44 hop => exact decodeSys_faithful hx hg hop
  case h_45 hop => exact decodeVrr_faithful hx hg hop
  case h_46 hop => exact decodeVrs_faithful hx hg hop
  case h_47 hop => exact decodeVmem_faithful hx hg hop
  case h_48 hop => exact decodeVctl_faithful hx hg hop
  case h_49 hop => exact decodeMfmt_faithful hx hg hop
  case h_50 hop => exact decodeMma_faithful hx hg hop
  case h_51 hop => exact decodeMacc_faithful hx hg hop
  case h_52 hop => exact decodeAttn_faithful hx hg hop
  case h_53 hop => exact decodeKv_faithful hx hg hop
  case h_54 hop => exact decodeRedit_faithful hx hg hop
  case h_55 hop => exact decodeRope_faithful hx hg hop
  case h_56 hop => exact decodeText_faithful hx hg hop
  case h_57 hop => exact decodeIq_faithful hx hg hop
  case h_58 hop => exact decodeIqctl_faithful hx hg hop
  case h_59 => exact faithful_illegal
end

/-! ### Words and bytes (R4, R100) -/

theorem decodeWord_eq_instr {w : Half} {i : Instr} (h : decodeWord w = .instr i) :
    decodeGroup (.ofCode (fieldsOf w).g) (fieldsOf w) = .instr i := by
  unfold decodeWord at h
  dsimp only at h
  split at h
  · cases h
  · split at h
    · cases h
    · split at h <;> cases h
    · exact h

theorem decodeWord_holds {w : Half} {i : Instr} (h : decodeWord w = .instr i) : (fieldsOf w).Holds i :=
  have hok := fieldsOf_ok w
  decodeGroup_faithful hok (Guard.code_ofCode hok.2.1) i (decodeWord_eq_instr h)

/-- An instruction that has fields is encoded as their word, byte by byte. -/
theorem encode_of_fields {i : Instr} {x : Fields} (h : encodeFields i = some x) :
    encode i = some (encode.leBytesOfNat 4 x.pack.toNat) := by
  unfold encode
  split
  · cases h
  · rw [h, Option.map_some]

/-- Bytes are the last digits of the number they make. -/
theorem leBytesOfNat_two (b0 b1 : Byte) : encode.leBytesOfNat 2 (b0.toNat + 256 * b1.toNat) = [b0, b1] := by
  have := b0.isLt
  have := b1.isLt
  simp only [encode.leBytesOfNat, List.cons.injEq, and_true]
  constructor <;> (refine BitVec.eq_of_toNat_eq ?_; rw [BitVec.toNat_ofNat]; omega)

theorem leBytesOfNat_four (b0 b1 b2 b3 : Byte) :
    encode.leBytesOfNat 4 (b0.toNat + 256 * b1.toNat + 65536 * b2.toNat + 16777216 * b3.toNat) = [b0, b1, b2, b3] := by
  have := b0.isLt
  have := b1.isLt
  have := b2.isLt
  have := b3.isLt
  simp only [encode.leBytesOfNat, List.cons.injEq, and_true]
  refine ⟨?_, ?_, ?_, ?_⟩ <;> (refine BitVec.eq_of_toNat_eq ?_; rw [BitVec.toNat_ofNat]; omega)

/-- Settles O58: a dictionary code's two bytes are its index and 0x3E; a word's fields are those of the instruction that its group reads
(`decodeGroup_faithful`), so that its bytes are that instruction's. -/
theorem decodedInstructionsAreWellFormed : Obligations.DecodedInstructionsAreWellFormed := by
  unfold Obligations.DecodedInstructionsAreWellFormed
  intro b i n h
  unfold decodeBytes at h
  split at h
  case h_2 => cases h
  case h_1 b0 b1 rest =>
    have h0 := b0.isLt
    have h1 := b1.isLt
    dsimp only at h
    split at h
    case isTrue hcode =>
      cases h
      refine ⟨rfl, congrArg some ?_⟩
      rw [BitVec.toNat_ofNat, List.take_succ_cons, List.take_succ_cons, List.take_zero, ← leBytesOfNat_two]
      congr 1
      omega
    case isFalse hword =>
      split at h
      case h_2 => cases h
      case h_1 b2 b3 rest =>
        have h2 := b2.isLt
        have h3 := b3.isLt
        obtain ⟨hi, rfl⟩ := Prod.mk.inj (Option.some.inj h)
        obtain ⟨hwf, hfields⟩ := decodeWord_holds hi
        refine ⟨hwf, ?_⟩
        rw [encode_of_fields hfields, pack_fieldsOf, BitVec.toNat_ofNat, Nat.mod_eq_of_lt (by omega), leBytesOfNat_four]
        rfl

end Sys2Proof

/-! SUPPORT, O57. What the fields of an instruction of each format decode to. -/

namespace Sys2Proof

/-! ### The formats (R105)

What an instruction's fields decode to, per format: of a group's own decoder only the arm that the function bits `f` choose is asked. -/

/-- Every field of an instruction is within its width, and its group's decoder reads the instruction from them. -/
def Instr.Reads (i : Instr) : Prop :=
  i.wf = true → ∀ x, encodeFields i = some x → x.ok ∧ decodeGroup (.ofCode x.g) x = .instr i

section
variable {g : Guard} {op d a b f : Nat}

theorem reads_rrr {i : Instr} (he : encodeFields i = some (rrr op g d a b f)) (hop : op < 64) (hd : d < 32) (ha : a < 32)
    (hb : b < 32) (hf : f < 128) (h : i.wf = true → decodeGroup g (rrr op g d a b f) = .instr i) : i.Reads := by
  intro hwf x hx
  obtain rfl := Option.some.inj (he.symm.trans hx)
  refine ⟨⟨hop, g.code_lt, hd, ha, hb, hf⟩, ?_⟩
  rw [show (rrr op g d a b f).g = g.code from rfl, Guard.ofCode_code]
  exact h hwf

theorem reads_group {i : Instr} {dec : Guard → Fields → Decoded} (he : encodeFields i = some (rrr op g d a b f))
    (hgrp : decodeGroup g (rrr op g d a b f) = dec g (rrr op g d a b f)) (hop : op < 64) (hd : d < 32) (ha : a < 32)
    (hb : b < 32) (hf : f < 128) (h : i.wf = true → dec g (rrr op g d a b f) = .instr i) : i.Reads :=
  reads_rrr he hop hd ha hb hf fun hw => hgrp.trans (h hw)

end

theorem Reg.code_lt32 (r : Reg) : r.code < 32 := Nat.lt_succ_of_lt r.code_lt

section
variable {g : Guard} {op f : Nat} {dec : Guard → Fields → Decoded} {d a b : Reg} (hop : op < 64) (hf : f < 128)

section
variable {k : Reg → Reg → Reg → Instr} (he : encodeFields (k d a b) = some (rrr op g d.code a.code b.code f))
  (hgrp : decodeGroup g (rrr op g d.code a.code b.code f) = dec g (rrr op g d.code a.code b.code f))
include hop hf he hgrp

theorem reads_fmt3 (hwf : (k d a b).wf = d.dst) (hdec : ∀ x : Fields, x.f = f → dec g x = fmt3 x k) : (k d a b).Reads :=
  reads_rrr he hop d.code_lt32 a.code_lt32 b.code_lt32 hf fun hw =>
    hgrp.trans ((hdec _ rfl).trans (mkInstr3_eq (r := .dst) (r' := .src) (r'' := .src) (hwf.symm.trans hw) rfl rfl))

theorem reads_fmtIdx {rd : Role} (hwf : (k d a b).wf = (rd.fits d && a.adr && b.adr))
    (hdec : ∀ x : Fields, x.f = f → dec g x = fmtIdx rd x k) : (k d a b).Reads := by
  refine reads_rrr he hop d.code_lt32 a.code_lt32 b.code_lt32 hf fun hw => hgrp.trans ((hdec _ rfl).trans ?_)
  simp only [hwf, Bool.and_eq_true] at hw
  exact mkInstr3_eq (r' := .adr) (r'' := .adr) hw.1.1 hw.1.2 hw.2

theorem reads_fmtAtom (hwf : (k d a b).wf = (d.dst && a.adr)) (hdec : ∀ x : Fields, x.f = f → dec g x = fmtAtom x k) :
    (k d a b).Reads := by
  refine reads_rrr he hop d.code_lt32 a.code_lt32 b.code_lt32 hf fun hw => hgrp.trans ((hdec _ rfl).trans ?_)
  simp only [hwf, Bool.and_eq_true] at hw
  exact mkInstr3_eq (r := .dst) (r' := .adr) (r'' := .src) hw.1 hw.2 rfl

end

section
variable {k : Reg → Reg → Instr} (he : encodeFields (k d a) = some (rrr op g d.code a.code 0 f))
  (hgrp : decodeGroup g (rrr op g d.code a.code 0 f) = dec g (rrr op g d.code a.code 0 f))
include hop hf he hgrp

theorem reads_fmt2 (hwf : (k d a).wf = d.dst) (hdec : ∀ x : Fields, x.f = f → dec g x = fmt2 x k) : (k d a).Reads :=
  reads_rrr he hop d.code_lt32 a.code_lt32 (by decide) hf fun hw =>
    hgrp.trans ((hdec _ rfl).trans (need_eq rfl (mkInstr2_eq (r := .dst) (r' := .src) (hwf.symm.trans hw) rfl)))

theorem reads_fmtDAddr (hwf : (k d a).wf = (d.dst && a.adr)) (hdec : ∀ x : Fields, x.f = f → dec g x = fmtDAddr x k) :
    (k d a).Reads := by
  refine reads_rrr he hop d.code_lt32 a.code_lt32 (by decide) hf fun hw => hgrp.trans ((hdec _ rfl).trans (need_eq rfl ?_))
  rw [hwf, Bool.and_eq_true] at hw
  exact mkInstr2_eq (r := .dst) (r' := .adr) hw.1 hw.2

end

theorem reads_fmtAB {ra : Role} {k : Reg → Reg → Instr} (he : encodeFields (k a b) = some (rrr op g 0 a.code b.code f))
    (hgrp : decodeGroup g (rrr op g 0 a.code b.code f) = dec g (rrr op g 0 a.code b.code f))
    (hop : op < 64) (hf : f < 128) (hwf : (k a b).wf = ra.fits a) (hdec : ∀ x : Fields, x.f = f → dec g x = fmtAB ra x k) :
    (k a b).Reads :=
  reads_rrr he hop (by decide) a.code_lt32 b.code_lt32 hf fun hw =>
    hgrp.trans ((hdec _ rfl).trans (need_eq rfl (mkInstr2_eq (r' := .src) (hwf.symm.trans hw) rfl)))

end

theorem finOfNat_eq {n k : Nat} [NeZero n] {m : Fin n} (h : k % n = m.val) : Fin.ofNat n k = m := Fin.ext h

theorem bvOfNat_eq {n k : Nat} {v : BitVec n} (h : k = v.toNat) : BitVec.ofNat n k = v :=
  BitVec.eq_of_toNat_eq (by rw [BitVec.toNat_ofNat, h, Nat.mod_eq_of_lt v.isLt])

section
variable {g : Guard} {op f : Nat} {dec : Guard → Fields → Decoded} {d a b : Reg}

theorem reads_fmtA {k : Reg → Instr} (hop : op < 64) (hf : f < 128) (he : encodeFields (k a) = some (rrr op g 0 a.code 0 f))
    (hgrp : decodeGroup g (rrr op g 0 a.code 0 f) = dec g (rrr op g 0 a.code 0 f)) (hdec : ∀ x : Fields, x.f = f → dec g x = fmtA x k) :
    (k a).Reads :=
  reads_rrr he hop (by decide) a.code_lt32 (by decide) hf fun _ =>
    hgrp.trans ((hdec _ rfl).trans (need_eq rfl (mkInstr1_eq (r := .src) rfl)))

/-- Only an address. -/
theorem reads_fmtAddr {k : Reg → Instr} {n : Nat} (hop : op < 64) (hf : f < 128) (hn : n < 32)
    (he : encodeFields (k a) = some (rrr op g n a.code 0 f)) (hwf : (k a).wf = a.adr)
    (hdec : decodeGroup g (rrr op g n a.code 0 f) = mkInstr [(.adr, a.code)] (k (.ofCode a.code))) : (k a).Reads :=
  reads_rrr he hop hn a.code_lt32 (by decide) hf fun hw => hdec.trans (mkInstr1_eq (r := .adr) (hwf.symm.trans hw))

theorem reads_fmtD {k : Reg → Instr} (hop : op < 64) (hf : f < 128) (he : encodeFields (k d) = some (rrr op g d.code 0 0 f))
    (hgrp : decodeGroup g (rrr op g d.code 0 0 f) = dec g (rrr op g d.code 0 0 f)) (hwf : (k d).wf = d.dst)
    (hdec : ∀ x : Fields, x.f = f → dec g x = fmtD x k) : (k d).Reads :=
  reads_rrr he hop d.code_lt32 (by decide) (by decide) hf fun hw =>
    hgrp.trans ((hdec _ rfl).trans (need_eq rfl (mkInstr1_eq (r := .dst) (hwf.symm.trans hw))))

theorem reads_fmtNone {i : Instr} (hop : op < 64) (hf : f < 128) (he : encodeFields i = some (rrr op g 0 0 0 f))
    (hgrp : decodeGroup g (rrr op g 0 0 0 f) = dec g (rrr op g 0 0 0 f)) (hdec : ∀ x : Fields, x.f = f → dec g x = fmtNone x i) :
    i.Reads :=
  reads_rrr he hop (by decide) (by decide) (by decide) hf fun _ => hgrp.trans ((hdec _ rfl).trans (need_eq rfl rfl))

theorem reads_fmtRRI {k : Reg → Reg → BitVec 12 → Instr} {i : BitVec 12} (hop : op < 64)
    (he : encodeFields (k d a i) = some (encRRI op g d a i)) (hwf : (k d a i).wf = d.dst)
    (hdec : decodeGroup g (encRRI op g d a i) = fmtRRI (encRRI op g d a i) k) : (k d a i).Reads := by
  have hi := i.isLt
  refine reads_rrr he hop d.code_lt32 a.code_lt32 (by omega) (by omega) fun hw => hdec.trans ?_
  have himm : BitVec.ofNat 12 (i.toNat % 32 + 32 * (i.toNat / 32)) = i := bvOfNat_eq (by omega)
  simp only [fmtRRI, encRRI, rrr, himm]
  exact mkInstr2_eq (k := fun d a => k d a i) (r := .dst) (r' := .src) (hwf.symm.trans hw) rfl

theorem reads_fmtRI {k : Reg → BitVec 17 → Instr} {i : BitVec 17} (hop : op < 64)
    (he : encodeFields (k d i) = some (encRI op g d i)) (hwf : (k d i).wf = d.dst)
    (hdec : decodeGroup g (encRI op g d i) = fmtRI (encRI op g d i) k) : (k d i).Reads := by
  have hi := i.isLt
  refine reads_rrr he hop d.code_lt32 (by omega) (by omega) (by omega) fun hw => hdec.trans ?_
  have himm : BitVec.ofNat 17 (i.toNat % 32 + 32 * (i.toNat / 32 % 32) + 1024 * (i.toNat / 1024)) = i := bvOfNat_eq (by omega)
  simp only [fmtRI, encRI, rrr, himm]
  exact mkInstr1_eq (k := fun d => k d i) (r := .dst) (hwf.symm.trans hw)

theorem reads_fmtM {rd : Role} {k : Fin 4 → BitVec 10 → Reg → Reg → Instr} {s : Fin 4} {o : BitVec 10} (hop : op < 64)
    (he : encodeFields (k s o d a) = some (encM op g s o d a)) (hwf : (k s o d a).wf = (rd.fits d && a.adr))
    (hdec : decodeGroup g (encM op g s o d a) = fmtM rd (encM op g s o d a) k) : (k s o d a).Reads := by
  have ho := o.isLt
  refine reads_rrr he hop d.code_lt32 a.code_lt32 (by omega) (by omega) fun hw => hdec.trans ?_
  have hoff : BitVec.ofNat 10 (o.toNat % 32 + 32 * ((o.toNat / 32 + 32 * s.val) % 32)) = o := bvOfNat_eq (by omega)
  have hsize : Fin.ofNat 4 ((o.toNat / 32 + 32 * s.val) / 32) = s := finOfNat_eq (by omega)
  rw [hwf, Bool.and_eq_true] at hw
  simp only [fmtM, encM, rrr, hoff, hsize]
  exact mkInstr2_eq (r' := .adr) hw.1 hw.2

/-! The E format, whose function bits stand above the release flag's top bit. -/

section
variable {fn n : Nat} {q r : Flag}

theorem encE_f_div : (encE op fn g q r n a.code).f / 2 = fn := by
  have := flagCode_lt r
  simp only [encE]
  omega

theorem withFlags_encE {k : Flag → Flag → Decoded} : withFlags (encE op fn g q r n a.code) k = k q r := by
  have := flagCode_lt q
  have := flagCode_lt r
  refine withCode_eq (flagOfCode_iff.mpr ?_) (withCode_eq (flagOfCode_iff.mpr ?_) rfl) <;> simp only [encE] <;> omega

variable (hop : op < 64) (hfn : fn < 64)
include hop hfn

theorem reads_encE {i : Instr} (he : encodeFields i = some (encE op fn g q r n a.code)) (hn : n < 32)
    (h : i.wf = true → decodeGroup g (encE op fn g q r n a.code) = .instr i) : i.Reads := by
  have := flagCode_lt q
  have := flagCode_lt r
  exact reads_rrr he hop hn a.code_lt32 (by omega) (by omega) h

theorem reads_fmtE {rd : Role} {k : Flag → Flag → Reg → Reg → Instr}
    (he : encodeFields (k q r d a) = some (encE op fn g q r d.code a.code))
    (hgrp : decodeGroup g (encE op fn g q r d.code a.code) = dec g (encE op fn g q r d.code a.code))
    (hwf : (k q r d a).wf = rd.fits d) (hdec : ∀ x : Fields, x.f / 2 = fn → dec g x = fmtE rd x k) : (k q r d a).Reads := by
  refine reads_encE hop hfn he d.code_lt32 fun hw => hgrp.trans ((hdec _ encE_f_div).trans (withFlags_encE.trans ?_))
  exact mkInstr2_eq (r' := .src) (hwf.symm.trans hw) rfl

theorem reads_fmtEA {k : Flag → Flag → Reg → Instr} (he : encodeFields (k q r a) = some (encE op fn g q r 24 a.code))
    (hgrp : decodeGroup g (encE op fn g q r 24 a.code) = dec g (encE op fn g q r 24 a.code))
    (hdec : ∀ x : Fields, x.f / 2 = fn → dec g x = fmtEA x k) : (k q r a).Reads := by
  refine reads_encE hop hfn he (by decide) fun _ => hgrp.trans ((hdec _ encE_f_div).trans (withFlags_encE.trans (need_eq rfl ?_)))
  exact mkInstr1_eq (r := .src) rfl

end

/-! Vector forms: the mask register and the destination share a field, the lane type and the function another. -/

section
variable {k : Nat} {t : LType} {m : Fin 4} {v u : Fin 8}

theorem encV_f_div (hk : k < 32) {b : Nat} : (encV op k g t m v u b).f / 32 = t.code ∧ (encV op k g t m v u b).f % 32 = k := by
  simp only [encV, rrr]
  omega

theorem mask_eq : Fin.ofNat 4 ((v.val + 8 * m.val) / 8) = m ∧ Fin.ofNat 8 (v.val + 8 * m.val) = v :=
  ⟨finOfNat_eq (by omega), finOfNat_eq (by omega)⟩

theorem finOfNat_val {n : Nat} [NeZero n] (j : Fin n) : Fin.ofNat n j.val = j := finOfNat_eq (Nat.mod_eq_of_lt j.isLt)

theorem reads_encV {i : Instr} {b : Nat} (hop : op < 64) (hk : k < 32) (hb : b < 32) (he : encodeFields i = some (encV op k g t m v u b))
    (h : i.wf = true → decodeGroup g (encV op k g t m v u b) = .instr i) : i.Reads := by
  have := t.code_lt
  exact reads_rrr he hop (by omega) (by omega) hb (by omega) h

theorem reads_fmtV3 {z : Fin 8} {con : Fin 4 → Fin 8 → Fin 8 → Fin 8 → Instr} (hop : op < 64) (hk : k < 32)
    (he : encodeFields (con m v u z) = some (encV op k g t m v u z.val))
    (hgrp : decodeGroup g (encV op k g t m v u z.val) = dec g (encV op k g t m v u z.val))
    (hdec : (con m v u z).wf = true → ∀ x : Fields, x.f / 32 = t.code → x.f % 32 = k → x.d % 2 = v.val % 2 → dec g x = fmtV3 x con) :
    (con m v u z).Reads := by
  refine reads_encV hop hk (by omega) he fun hw => hgrp.trans ((hdec hw _ (encV_f_div hk).1 (encV_f_div hk).2 ?_).trans ?_)
  · simp only [encV, rrr]
    omega
  · simp only [fmtV3, vform, encV, rrr, mask_eq, finOfNat_val]
    exact need_eq (decide_eq_true u.isLt) (need_eq (decide_eq_true z.isLt) rfl)

theorem reads_fmtV2 {con : Fin 4 → Fin 8 → Fin 8 → Instr} (hop : op < 64) (hk : k < 32)
    (he : encodeFields (con m v u) = some (encV op k g t m v u 0))
    (hgrp : decodeGroup g (encV op k g t m v u 0) = dec g (encV op k g t m v u 0))
    (hdec : (con m v u).wf = true → ∀ x : Fields, x.f / 32 = t.code → x.f % 32 = k → dec g x = fmtV2 x con) : (con m v u).Reads := by
  refine reads_encV hop hk (by decide) he fun hw => hgrp.trans ((hdec hw _ (encV_f_div hk).1 (encV_f_div hk).2).trans ?_)
  simp only [fmtV2, vform, encV, rrr, mask_eq, finOfNat_val]
  exact need_eq (decide_eq_true u.isLt) rfl

theorem reads_fmtVS {con : Fin 4 → Fin 8 → Fin 8 → Reg → Instr} (hop : op < 64) (hk : k < 32)
    (he : encodeFields (con m v u b) = some (encV op k g t m v u b.code))
    (hgrp : decodeGroup g (encV op k g t m v u b.code) = dec g (encV op k g t m v u b.code))
    (hdec : (con m v u b).wf = true → ∀ x : Fields, x.f / 32 = t.code → x.f % 32 = k → x.d % 2 = v.val % 2 → dec g x = fmtVS x con) :
    (con m v u b).Reads := by
  refine reads_encV hop hk b.code_lt32 he fun hw => hgrp.trans ((hdec hw _ (encV_f_div hk).1 (encV_f_div hk).2 ?_).trans ?_)
  · simp only [encV, rrr]
    omega
  · simp only [fmtVS, vform, encV, rrr, mask_eq, finOfNat_val]
    exact need_eq (decide_eq_true u.isLt) (mkInstr1_eq (k := con m v u) (r := .src) rfl)

end
end

end Sys2Proof

/-! O57. Every instruction's fields decode to it, group by group. -/

namespace Sys2Proof

/-! ### Groups 0x00 to 0x20 (R110) -/

theorem reads_alu3 (g : Guard) (w : Bool) (d a b : Reg) :
    (Instr.add g w d a b).Reads ∧ (Instr.sub g w d a b).Reads ∧ (Instr.and g w d a b).Reads ∧ (Instr.or g w d a b).Reads ∧
    (Instr.xor g w d a b).Reads ∧ (Instr.andn g w d a b).Reads ∧ (Instr.orn g w d a b).Reads ∧ (Instr.sll g w d a b).Reads ∧
    (Instr.srl g w d a b).Reads ∧ (Instr.sra g w d a b).Reads ∧ (Instr.rol g w d a b).Reads ∧ (Instr.ror g w d a b).Reads ∧
    (Instr.min g w d a b).Reads ∧ (Instr.max g w d a b).Reads ∧ (Instr.minn g w d a b).Reads ∧ (Instr.maxn g w d a b).Reads ∧
    (Instr.mul g w d a b).Reads ∧ (Instr.mulh g w d a b).Reads ∧ (Instr.mulhn g w d a b).Reads := by
  have hw := w.toNat_lt
  and_intros
  all_goals
    refine reads_fmt3 (dec := decodeAlu) (by decide) (by omega) rfl rfl rfl fun x hf => ?_
    have hbit : bit x.f 6 = w := bit_of_toNat (by omega)
    simp [decodeAlu, ↓hbit, hf]

theorem reads_alu2 (g : Guard) (w : Bool) (d a : Reg) :
    (Instr.clz g w d a).Reads ∧ (Instr.ctz g w d a).Reads ∧ (Instr.popc g w d a).Reads ∧ (Instr.brev g w d a).Reads ∧
    (Instr.bswap g w d a).Reads := by
  have hw := w.toNat_lt
  and_intros
  all_goals
    refine reads_fmt2 (dec := decodeAlu) (by decide) (by omega) rfl rfl rfl fun x hf => ?_
    have hbit : bit x.f 6 = w := bit_of_toNat (by omega)
    simp [decodeAlu, ↓hbit, hf]

theorem reads_ext (g : Guard) (w : Bool) (n : ExtW) (d a : Reg) : (Instr.sext g w n d a).Reads ∧ (Instr.zext g w n d a).Reads := by
  have hw := w.toNat_lt
  have := n.code_lt
  constructor
  all_goals
    refine reads_group (dec := decodeAlu) rfl rfl (by decide) d.code_lt32 a.code_lt32 (by omega) (by omega) fun hwf => ?_
    obtain ⟨hd, hn⟩ := Bool.and_eq_true_iff.mp hwf
    have hbit : ∀ k < 64, bit (k + 64 * w.toNat) 6 = w := fun k hk => bit_of_toNat (by omega)
    simp only [decodeAlu, rrr, Nat.add_mul_mod_self_left, Nat.reduceMod, hbit, Nat.reduceLT]
    exact withCode_eq (ExtW.ofCode_iff.mpr rfl) (need_eq hn (mkInstr2_eq (r := .dst) (r' := .src) hd rfl))

theorem reads_rri (g : Guard) (d a : Reg) (i : BitVec 12) :
    (Instr.addi g d a i).Reads ∧ (Instr.andi g d a i).Reads ∧ (Instr.ori g d a i).Reads ∧ (Instr.xori g d a i).Reads := by
  and_intros
  all_goals exact reads_fmtRRI (by decide) rfl rfl rfl

theorem reads_shi (g : Guard) (w : Bool) (d a : Reg) (i : BitVec 6) :
    (Instr.shiSll g w d a i).Reads ∧ (Instr.shiSrl g w d a i).Reads ∧ (Instr.shiSra g w d a i).Reads ∧
    (Instr.shiRol g w d a i).Reads ∧ (Instr.shiRor g w d a i).Reads := by
  have hw := w.toNat_lt
  have hi := i.isLt
  have hbit : ∀ k < 8, bit (i.toNat / 32 + 2 * k + 16 * w.toNat) 4 = w := fun k hk => bit_of_toNat (by omega)
  have himm : ∀ k, BitVec.ofNat 6 (i.toNat % 32 + 32 * ((i.toNat / 32 + 2 * k + 16 * w.toNat) % 2)) = i := fun k => bvOfNat_eq (by omega)
  have hkind : ∀ k < 8, (i.toNat / 32 + 2 * k + 16 * w.toNat) / 2 % 8 = k := fun k hk => by omega
  and_intros
  all_goals
    refine reads_group (dec := decodeShi) rfl rfl (by decide) d.code_lt32 a.code_lt32 (by omega) (by omega) fun hwf => ?_
    obtain ⟨hd, hamount⟩ := Bool.and_eq_true_iff.mp hwf
    simp only [decodeShi, rrr, hbit, himm, hkind, Nat.reduceLT, Reg.ofCode_code]
    refine need_eq (Bool.and_eq_true_iff.mpr ⟨decide_eq_true (by omega), hamount⟩) ?_
    exact mkInstr2_eq (k := fun _ _ => _) (r := .dst) (r' := .src) hd rfl

theorem reads_ri (g : Guard) (d : Reg) (i : BitVec 17) : (Instr.li g d i).Reads ∧ (Instr.lis g d i).Reads :=
  ⟨reads_fmtRI (by decide) rfl rfl rfl, reads_fmtRI (by decide) rfl rfl rfl⟩

theorem reads_cmp (g : Guard) (c : Combine) (n : ICond) (w : Bool) (p : Fin 16) (a b : Reg) : (Instr.cmp g c n w p a b).Reads := by
  have hw := w.toNat_lt
  have := c.code_lt
  have := n.code_lt
  refine reads_group (dec := decodeCmp) rfl rfl (by decide) (by omega) a.code_lt32 b.code_lt32 (by omega) fun _ => ?_
  have hbit : bit (p.val + 16 * w.toNat) 4 = w := bit_of_toNat (by omega)
  have hp : Fin.ofNat 16 (p.val + 16 * w.toNat) = p := finOfNat_eq (by omega)
  simp only [decodeCmp, rrr, hbit, hp]
  exact need_eq (decide_eq_true (by omega)) (withCode_eq (Combine.ofCode_iff.mpr (by omega)) (withCode_eq
    (ICond.ofCode_iff.mpr (by omega)) (mkInstr2_eq (r := .src) (r' := .src) rfl rfl)))

theorem reads_cmpi (g : Guard) (c : Combine) (n : ICond) (w : Bool) (p : Fin 16) (a : Reg) (i : BitVec 7) :
    (Instr.cmpi g c n w p a i).Reads := by
  have hw := w.toNat_lt
  have := c.code_lt
  have := n.code_lt
  refine reads_group (dec := decodeCmpi) rfl rfl (by decide) (by omega) a.code_lt32 (by omega) i.isLt fun _ => ?_
  have hbit : bit (p.val + 16 * w.toNat) 4 = w := bit_of_toNat (by omega)
  have hp : Fin.ofNat 16 (p.val + 16 * w.toNat) = p := finOfNat_eq (by omega)
  simp only [decodeCmpi, rrr, hbit, hp, bvOfNat_eq (rfl : i.toNat = i.toNat)]
  exact withCode_eq (Combine.ofCode_iff.mpr (by omega)) (withCode_eq (ICond.ofCode_iff.mpr (by omega))
    (mkInstr1_eq (k := fun a => .cmpi g c n w p a i) (r := .src) rfl))

theorem reads_pred3 (g : Guard) (d a b : Fin 16) :
    (Instr.pand g d a b).Reads ∧ (Instr.por g d a b).Reads ∧ (Instr.pxor g d a b).Reads := by
  and_intros
  all_goals
    refine reads_group (dec := decodePred) rfl rfl (by decide) (by omega) (by omega) (by omega) (by decide) fun _ => ?_
    simp only [decodePred, rrr, finOfNat_val]
    exact need_eq (by simp) rfl

theorem reads_pnot (g : Guard) (d a : Fin 16) : (Instr.pnot g d a).Reads := by
  refine reads_group (dec := decodePred) rfl rfl (by decide) (by omega) (by omega) (by decide) (by decide) fun _ => ?_
  simp only [decodePred, rrr, finOfNat_val]
  exact need_eq (by simp) rfl

theorem reads_predReg (g : Guard) (d : Reg) : (Instr.pget g d).Reads ∧ (Instr.pset g d).Reads :=
  ⟨reads_fmtD (dec := decodePred) (by decide) (by decide) rfl rfl rfl fun x hf => by simp only [decodePred, hf],
    reads_fmtA (dec := decodePred) (by decide) (by decide) rfl rfl fun x hf => by simp only [decodePred, hf]⟩

theorem reads_sel (g : Guard) (p : Fin 16) (d a b : Reg) : (Instr.sel g p d a b).Reads := by
  refine reads_fmt3 (dec := fun g x => need (decide (x.f < 16)) (fmt3 x (.sel g (Fin.ofNat 16 x.f)))) (by decide) (by omega) rfl rfl rfl
    fun x hf => need_eq (decide_eq_true (by omega)) ?_
  rw [hf, finOfNat_val]

theorem reads_tern (g : Guard) (t : BitVec 8) (d a b : Reg) : (Instr.tern g t d a b).Reads := by
  have := t.isLt
  refine reads_rrr rfl (by omega) d.code_lt32 a.code_lt32 b.code_lt32 (by omega) fun hd => ?_
  have hhalf : t.toNat / 128 = 0 ∨ t.toNat / 128 = 1 := by omega
  obtain h | h := hhalf <;> rw [h]
  · change fmt3 _ (.tern g (.ofNat 8 (t.toNat % 128))) = _
    rw [bvOfNat_eq (v := t) (by omega)]
    exact mkInstr3_eq (r := .dst) (r' := .src) (r'' := .src) hd rfl rfl
  · change fmt3 _ (.tern g (.ofNat 8 (t.toNat % 128 + 128))) = _
    rw [bvOfNat_eq (v := t) (by omega)]
    exact mkInstr3_eq (r := .dst) (r' := .src) (r'' := .src) hd rfl rfl

theorem reads_bf (g : Guard) (d a b : Reg) : (Instr.bfx g d a b).Reads ∧ (Instr.bfxs g d a b).Reads ∧ (Instr.bfi g d a b).Reads := by
  and_intros
  all_goals exact reads_fmt3 (dec := decodeBf) (by decide) (by decide) rfl rfl rfl fun x hf => by simp only [decodeBf, hf]

theorem reads_div (g : Guard) (w : Bool) (d a b : Reg) :
    (Instr.div g w d a b).Reads ∧ (Instr.divn g w d a b).Reads ∧ (Instr.rem g w d a b).Reads ∧ (Instr.remn g w d a b).Reads := by
  have hw := w.toNat_lt
  and_intros
  all_goals
    refine reads_fmt3 (dec := decodeDiv) (by decide) (by omega) rfl rfl rfl fun x hf => ?_
    have hbit : bit x.f 6 = w := bit_of_toNat (by omega)
    simp [decodeDiv, ↓hbit, hf]

theorem reads_branch (g : Guard) (o : BitVec 22) : (Instr.br g o).Reads ∧ (Instr.bl g o).Reads := by
  have := o.isLt
  constructor
  all_goals
    refine reads_rrr rfl (by decide) (by omega) (by omega) (by omega) (by omega) fun _ => congrArg _ (congrArg _ (bvOfNat_eq ?_))
    simp only [rrr]
    omega

theorem reads_jump (g : Guard) : (∀ a, (Instr.jmp g a).Reads) ∧ ∀ d a, (Instr.jmpl g d a).Reads :=
  ⟨fun a => reads_fmtAddr (by decide) (by decide) (by decide) rfl rfl rfl,
    fun d a => reads_fmtDAddr (dec := decodeJmp) (by decide) (by decide) rfl rfl rfl fun x hf => by simp only [decodeJmp, hf]⟩

theorem reads_faluRounded (g : Guard) (r : Rnd) (t : FType) (d a b : Reg) :
    (Instr.fadd g r t d a b).Reads ∧ (Instr.fsub g r t d a b).Reads ∧ (Instr.fmul g r t d a b).Reads := by
  have := r.code_lt
  have := t.code_lt
  have harm : ∀ k < 3, (k + 4 * t.code + 16 * r.code) % 4 = k := fun k hk => by omega
  and_intros
  all_goals
    refine reads_fmt3 (dec := decodeFalu) (by decide) (by omega) rfl rfl rfl fun x hf =>
      withCode_eq (t := t) (FType.ofCode_iff.mpr (by omega)) ?_
    simp only [hf, harm, Nat.reduceLT]
    exact withCode_eq (t := r) (Rnd.ofCode_iff.mpr (by omega)) rfl

theorem reads_falu3 (g : Guard) (t : FType) (d a b : Reg) :
    (Instr.fmin g t d a b).Reads ∧ (Instr.fmax g t d a b).Reads ∧ (Instr.fcpys g t d a b).Reads := by
  have := t.code_lt
  and_intros
  all_goals
    refine reads_fmt3 (dec := decodeFalu) (by decide) (by omega) rfl rfl rfl fun x hf => ?_
    cases t <;> simp [decodeFalu, withCode, FType.ofCode, FType.code, hf]

theorem reads_falu2 (g : Guard) (t : FType) (d a : Reg) :
    (Instr.fabs g t d a).Reads ∧ (Instr.fneg g t d a).Reads ∧ (Instr.fclass g t d a).Reads := by
  have := t.code_lt
  and_intros
  all_goals
    refine reads_fmt2 (dec := decodeFalu) (by decide) (by omega) rfl rfl rfl fun x hf => ?_
    cases t <;> simp [decodeFalu, withCode, FType.ofCode, FType.code, hf]

theorem reads_fma (g : Guard) (r : Rnd) (t : FType) (d a b : Reg) : (Instr.fma g r t d a b).Reads := by
  have := r.code_lt
  have := t.code_lt
  exact reads_fmt3 (dec := decodeFma) (by decide) (by omega) rfl rfl rfl fun x hf => need_eq (decide_eq_true (by omega))
    (withCode_eq (t := t) (FType.ofCode_iff.mpr (by omega)) (withCode_eq (t := r) (Rnd.ofCode_iff.mpr (by omega)) rfl))

theorem reads_fcmp (g : Guard) (c : Combine) (n : FCond) (t : FType) (p : Fin 16) (a b : Reg) : (Instr.fcmp g c n t p a b).Reads := by
  have := c.code_lt
  have := n.code_lt
  have := t.code_lt
  refine reads_group (dec := decodeFcmp) rfl rfl (by decide) (by omega) a.code_lt32 b.code_lt32 (by omega) fun _ => ?_
  simp only [decodeFcmp, rrr, finOfNat_val]
  exact need_eq (decide_eq_true p.isLt) (withCode_eq (FType.ofCode_iff.mpr (by omega)) (withCode_eq (FCond.ofCode_iff.mpr (by omega))
    (withCode_eq (Combine.ofCode_iff.mpr (by omega)) (mkInstr2_eq (r := .src) (r' := .src) rfl rfl))))

theorem reads_cvt (g : Guard) (r : Rnd) (x s : NumType) (d a : Reg) : (Instr.cvt g r x s d a).Reads := by
  have := r.code_lt
  have := x.code_lt
  have := s.code_lt
  refine reads_group (dec := decodeCvt) rfl rfl (by decide) d.code_lt32 a.code_lt32 (by omega) (by omega) fun hd => ?_
  simp only [decodeCvt, rrr]
  exact withCode_eq (NumType.ofCode_iff.mpr (by omega)) (withCode_eq (NumType.ofCode_iff.mpr rfl)
    (withCode_eq (Rnd.ofCode_iff.mpr (by omega)) (mkInstr2_eq (r := .dst) (r' := .src) hd rfl)))

theorem reads_cvte (g : Guard) (r : Rnd) (x : NarrowType) (d a b : Reg) : (Instr.cvte g r x d a b).Reads := by
  have := r.code_lt
  have := x.code_lt
  refine reads_group (dec := decodeCvte) rfl rfl (by decide) d.code_lt32 a.code_lt32 b.code_lt32 (by omega) fun hwf => ?_
  obtain ⟨hd, hb⟩ := Bool.and_eq_true_iff.mp hwf
  simp only [decodeCvte, rrr]
  exact withCode_eq (NarrowType.ofCode_iff.mpr (by omega)) (withCode_eq (Rnd.ofCode_iff.mpr (by omega))
    (mkInstr3_eq (r := .dst) (r' := .src) (r'' := .dst) hd rfl hb))

theorem reads_sfu (g : Guard) (d a : Reg) :
    (Instr.rcp g d a).Reads ∧ (Instr.rsq g d a).Reads ∧ (Instr.sqrt g d a).Reads ∧ (Instr.log2 g d a).Reads ∧
    (Instr.exp2 g d a).Reads ∧ (Instr.sin g d a).Reads ∧ (Instr.cos g d a).Reads ∧ (Instr.tanh g d a).Reads ∧ (Instr.sigm g d a).Reads := by
  and_intros
  all_goals exact reads_fmt2 (dec := decodeSfu) (by decide) (by decide) rfl rfl rfl fun x hf => by simp only [decodeSfu, hf]

theorem reads_memory (g : Guard) (s : Fin 4) (o : BitVec 10) (d a : Reg) :
    (Instr.ldn g s o d a).Reads ∧ (Instr.lds g s o d a).Reads ∧ (Instr.st g s o d a).Reads :=
  ⟨reads_fmtM (rd := .dst) (by decide) rfl rfl rfl, reads_fmtM (rd := .dst) (by decide) rfl rfl rfl,
    reads_fmtM (rd := .src) (by decide) rfl rfl rfl⟩

theorem reads_ldx (g : Guard) (m : LdMode) (z : Bool) (s : Fin 4) (d a b : Reg) : (Instr.ldx g m z s d a b).Reads := by
  have := m.code_lt
  have hz := z.toNat_lt
  refine reads_fmtIdx (dec := decodeLdx) (rd := .dst) (by decide) (by omega) rfl rfl rfl fun x hf => ?_
  have hload : bit x.f 2 = false := bit_clear (by omega)
  have hzero : bit x.f 3 = z := bit_of_toNat (by omega)
  have hs : Fin.ofNat 4 x.f = s := finOfNat_eq (by omega)
  simp only [decodeLdx, hload, hzero, hs, Bool.false_eq_true, if_false]
  exact withCode_eq (t := m) (LdMode.ofCode_iff.mpr (by omega)) rfl

theorem reads_stx (g : Guard) (m : StMode) (s : Fin 4) (d a b : Reg) : (Instr.stx g m s d a b).Reads := by
  have := m.code_lt
  refine reads_fmtIdx (dec := decodeLdx) (rd := .src) (by decide) (by omega) rfl rfl rfl fun x hf => ?_
  have hstore : bit x.f 2 = true := bit_set (by omega)
  have hzero : bit x.f 3 = false := bit_clear (by omega)
  have hs : Fin.ofNat 4 x.f = s := finOfNat_eq (by omega)
  simp only [decodeLdx, hstore, hzero, hs, if_true]
  exact need_eq rfl (withCode_eq (t := m) (StMode.ofCode_iff.mpr (by omega)) rfl)

theorem reads_ldfe (g : Guard) (s : Fin 4) (d a b : Reg) :
    (Instr.ldfeKeep g s d a b).Reads ∧ (Instr.ldfeTake g s d a b).Reads ∧ (Instr.ldfePeek g s d a b).Reads := by
  have hkind : s.val / 4 = 0 ∧ (s.val + 4) / 4 = 1 ∧ (s.val + 8) / 4 = 2 := by omega
  and_intros
  all_goals
    refine reads_fmtIdx (dec := decodeLdfe) (rd := .dst) (by decide) (by omega) rfl rfl rfl fun x hf => ?_
    have hs : Fin.ofNat 4 x.f = s := finOfNat_eq (by omega)
    simp only [decodeLdfe, hs]
    simp only [hf, hkind]

theorem reads_stfe (g : Guard) (s : Fin 4) (d a b : Reg) : (Instr.stfeFill g s d a b).Reads ∧ (Instr.stfeForce g s d a b).Reads := by
  have hkind : s.val / 4 = 0 ∧ (s.val + 4) / 4 = 1 := by omega
  constructor
  all_goals
    refine reads_fmtIdx (dec := decodeStfe) (rd := .src) (by decide) (by omega) rfl rfl rfl fun x hf => ?_
    have hs : Fin.ofNat 4 x.f = s := finOfNat_eq (by omega)
    simp only [decodeStfe, hs]
    simp only [hf, hkind]

theorem reads_stfeClear (g : Guard) (s : Fin 4) (a b : Reg) : (Instr.stfeClear g s a b).Reads := by
  refine reads_group (dec := decodeStfe) rfl rfl (by decide) (by decide) a.code_lt32 b.code_lt32 (by omega) fun hwf => ?_
  obtain ⟨ha, hb⟩ := Bool.and_eq_true_iff.mp hwf
  have hkind : (s.val + 8) / 4 = 2 := by omega
  have hs : Fin.ofNat 4 (s.val + 8) = s := finOfNat_eq (by omega)
  simp only [decodeStfe, rrr, hkind, hs]
  exact need_eq rfl (mkInstr2_eq (r := .adr) (r' := .adr) ha hb)

theorem reads_atom (g : Guard) (m : AtMode) (z : Bool) (d a b : Reg) :
    (Instr.atomAdd g m z d a b).Reads ∧ (Instr.atomMin g m z d a b).Reads ∧ (Instr.atomMax g m z d a b).Reads ∧
    (Instr.atomMinn g m z d a b).Reads ∧ (Instr.atomMaxn g m z d a b).Reads ∧ (Instr.atomAnd g m z d a b).Reads ∧
    (Instr.atomOr g m z d a b).Reads ∧ (Instr.atomXor g m z d a b).Reads ∧ (Instr.atomSwap g m z d a b).Reads ∧
    (Instr.atomCas g m z d a b).Reads := by
  have := m.code_lt
  have hz := z.toNat_lt
  have harm : ∀ k < 16, (k + 16 * z.toNat + 32 * m.code) % 16 = k := fun k hk => by omega
  and_intros
  all_goals
    refine reads_fmtAtom (dec := decodeAtom) (by decide) (by omega) rfl rfl rfl fun x hf => ?_
    have hsize : bit x.f 4 = z := bit_of_toNat (by omega)
    have hmode : x.f / 32 = m.code := by omega
    simp only [decodeAtom, hsize, hmode, AtMode.ofCode_code]
    simp only [hf, harm, Nat.reduceLT]

theorem reads_atomFaddF32 (g : Guard) (m : AtMode) (d a b : Reg) : (Instr.atomFaddF32 g m d a b).Reads := by
  have := m.code_lt
  refine reads_fmtAtom (dec := decodeAtom) (by decide) (by simp only [Bool.toNat_false]; omega) rfl rfl rfl fun x hf => ?_
  rw [Bool.toNat_false] at hf
  have hsize : bit x.f 4 = false := bit_clear (by omega)
  have hmode : x.f / 32 = m.code := by omega
  have harm : x.f % 16 = 10 := by omega
  simp only [decodeAtom, hsize, hmode, harm, AtMode.ofCode_code]
  exact need_eq rfl rfl

theorem reads_cupd (g : Guard) (z : Bool) (a b : Reg) :
    (Instr.cupdAdd g z a b).Reads ∧ (Instr.cupdMin g z a b).Reads ∧ (Instr.cupdMax g z a b).Reads ∧ (Instr.cupdOr g z a b).Reads := by
  have hz := z.toNat_lt
  have hbit : ∀ k < 8, bit (k + 8 * z.toNat) 3 = z := fun k hk => bit_of_toNat (by omega)
  and_intros
  all_goals
    refine reads_group (dec := decodeCupd) rfl rfl (by decide) (by decide) a.code_lt32 b.code_lt32 (by omega) fun ha => ?_
    simp only [decodeCupd, rrr, hbit, Nat.add_mul_mod_self_left, Nat.reduceMod, Nat.reduceLT]
    exact need_eq (Bool.and_eq_true_iff.mpr ⟨decide_eq_true (by omega), rfl⟩) (mkInstr2_eq (r := .adr) (r' := .src) ha rfl)

theorem reads_cupdFaddF32 (g : Guard) (a b : Reg) : (Instr.cupdFaddF32 g a b).Reads := by
  refine reads_group (dec := decodeCupd) rfl rfl (by decide) (by decide) a.code_lt32 b.code_lt32 (by decide) fun ha => ?_
  simp only [decodeCupd, rrr, Nat.reduceMod]
  exact need_eq rfl (need_eq rfl (mkInstr2_eq (r := .adr) (r' := .src) ha rfl))

/-! ### Groups 0x21 to 0x2B (R110) -/

theorem reads_fence (g : Guard) (sc : Scope) : (Instr.fence g sc).Reads := by
  have := sc.code_lt
  refine reads_fmtNone (dec := decodeSync) (by decide) (by omega) rfl rfl fun x hf => ?_
  have harm : x.f % 8 = 0 := by omega
  simp only [decodeSync, harm]
  exact need_eq (decide_eq_true (by omega)) (withCode_eq (t := sc) (Scope.ofCode_iff.mpr (by omega)) rfl)

theorem reads_sync (g : Guard) :
    (Instr.cend g).Reads ∧ (Instr.stay g).Reads ∧ (∀ d a, (Instr.home g d a).Reads) ∧ ∀ a, (Instr.migr g a).Reads :=
  ⟨reads_fmtNone (dec := decodeSync) (by decide) (by decide) rfl rfl fun x hf => by simp [decodeSync, need, hf],
    reads_fmtNone (dec := decodeSync) (by decide) (by decide) rfl rfl fun x hf => by simp [decodeSync, need, hf],
    fun d a => reads_fmt2 (dec := decodeSync) (by decide) (by decide) rfl rfl rfl fun x hf => by simp [decodeSync, need, hf],
    fun a => reads_fmtA (dec := decodeSync) (by decide) (by decide) rfl rfl fun x hf => by simp [decodeSync, need, hf]⟩

theorem reads_list (g : Guard) :
    (∀ a, (Instr.linit g a).Reads) ∧ (∀ d a b, (Instr.lmove g d a b).Reads) ∧ ∀ d a, (Instr.lpop g d a).Reads :=
  ⟨fun a => reads_fmtAddr (by decide) (by decide) (by decide) rfl rfl rfl,
    fun d a b => reads_fmtIdx (dec := decodeList) (rd := .dst) (by decide) (by decide) rfl rfl rfl fun x hf => by simp only [decodeList, hf],
    fun d a => reads_fmtDAddr (dec := decodeList) (by decide) (by decide) rfl rfl rfl fun x hf => by simp only [decodeList, hf]⟩

theorem reads_stream (g : Guard) (t : Fin 4) :
    (∀ a, (Instr.stbind g t a).Reads) ∧ (Instr.stfree g t).Reads ∧ ∀ d, (Instr.ststat g t d).Reads := by
  have ht : Fin.ofNat 4 (26 + t.val - 26) = t := finOfNat_eq (by omega)
  have hin : (decide (26 ≤ 26 + t.val) && decide (26 + t.val ≤ 29)) = true :=
    Bool.and_eq_true_iff.mpr ⟨decide_eq_true (by omega), decide_eq_true (by omega)⟩
  refine ⟨fun a => ?_, ?_, fun d => ?_⟩
  · refine reads_group (dec := decodeStream) rfl rfl (by decide) (by decide) a.code_lt32 (by omega) (by decide) fun ha => ?_
    simp only [decodeStream, rrr, ht]
    exact need_eq hin (need_eq rfl (mkInstr1_eq (r := .adr) ha))
  · refine reads_group (dec := decodeStream) rfl rfl (by decide) (by decide) (by decide) (by omega) (by decide) fun _ => ?_
    simp only [decodeStream, rrr, ht]
    exact need_eq hin (need_eq rfl rfl)
  · refine reads_group (dec := decodeStream) rfl rfl (by decide) d.code_lt32 (by decide) (by omega) (by decide) fun hd => ?_
    simp only [decodeStream, rrr, ht]
    exact need_eq hin (need_eq rfl (mkInstr1_eq (r := .dst) hd))

theorem reads_xcopy (g : Guard) (e l h : Bool) (q r : Flag) (d a : Reg) :
    (Instr.xcopyCopy g e l h q r d a).Reads ∧ (Instr.xcopyFill g e l h q r d a).Reads ∧ (Instr.xcopyPack g e l h q r d a).Reads ∧
    (Instr.xcopyUnpack g e l h q r d a).Reads := by
  have := e.toNat_lt
  have := l.toNat_lt
  have := h.toNat_lt
  have harm : ∀ k < 4, (k + 4 * h.toNat + 8 * l.toNat + 16 * e.toNat) % 4 = k := fun k hk => by omega
  and_intros
  all_goals
    refine reads_fmtE (dec := decodeXcopy) (rd := .src) (by decide) (by omega) rfl rfl rfl fun x hf => ?_
    have h2 : bit (x.f / 2) 2 = h := bit_of_toNat (by omega)
    have h3 : bit (x.f / 2) 3 = l := bit_of_toNat (by omega)
    have h4 : bit (x.f / 2) 4 = e := bit_of_toNat (by omega)
    have h5 : bit (x.f / 2) 5 = false := bit_clear (by omega)
    simp only [decodeXcopy, h2, h3, h4, h5]
    simp only [hf, harm, Nat.reduceLT]
    exact need_eq rfl rfl

theorem reads_fork (g : Guard) :
    (∀ d a b, (Instr.fork g d a b).Reads) ∧ (∀ d a, (Instr.fget g d a).Reads) ∧ (∀ a b, (Instr.fput g a b).Reads) ∧
    (∀ a, (Instr.exit g a).Reads) ∧ (Instr.yield g).Reads :=
  ⟨fun d a b => reads_fmt3 (dec := decodeFork) (by decide) (by decide) rfl rfl rfl fun x hf => by simp only [decodeFork, hf],
    fun d a => reads_fmtDAddr (dec := decodeFork) (by decide) (by decide) rfl rfl rfl fun x hf => by simp only [decodeFork, hf],
    fun a b => reads_fmtAB (dec := decodeFork) (ra := .adr) rfl rfl (by decide) (by decide) rfl fun x hf => by simp only [decodeFork, hf],
    fun a => reads_fmtA (dec := decodeFork) (by decide) (by decide) rfl rfl fun x hf => by simp only [decodeFork, hf],
    reads_fmtNone (dec := decodeFork) (by decide) (by decide) rfl rfl fun x hf => by simp only [decodeFork, hf]⟩

theorem reads_slot (g : Guard) :
    (∀ d a b, (Instr.slstart g d a b).Reads) ∧ (∀ d a, (Instr.slreap g d a).Reads) ∧ (∀ d a, (Instr.slquery g d a).Reads) ∧
    ∀ a, (Instr.wake g a).Reads :=
  ⟨fun d a b => reads_fmt3 (dec := decodeSlot) (by decide) (by decide) rfl rfl rfl fun x hf => by simp only [decodeSlot, hf],
    fun d a => reads_fmt2 (dec := decodeSlot) (by decide) (by decide) rfl rfl rfl fun x hf => by simp only [decodeSlot, hf],
    fun d a => reads_fmt2 (dec := decodeSlot) (by decide) (by decide) rfl rfl rfl fun x hf => by simp only [decodeSlot, hf],
    fun a => reads_fmtA (dec := decodeSlot) (by decide) (by decide) rfl rfl fun x hf => by simp only [decodeSlot, hf]⟩

theorem reads_ungang (g : Guard) : (Instr.ungang g).Reads :=
  reads_fmtNone (dec := decodeGang) (by decide) (by decide) rfl rfl fun x hf => by simp [decodeGang, bit, need, hf]

theorem reads_gang (g : Guard) (n : GangN) : (Instr.gang g n).Reads := by
  have := n.code_lt
  refine reads_fmtNone (dec := decodeGang) (by decide) (by omega) rfl rfl fun x hf => ?_
  have hbit : bit x.f 0 = false := bit_clear (by omega)
  simp only [decodeGang, hbit, Bool.false_eq_true, if_false]
  exact need_eq (decide_eq_true (by omega)) (withCode_eq (t := n) (GangN.ofCode_iff.mpr (by omega)) rfl)

theorem reads_bar (g : Guard) :
    (∀ a b, (Instr.barinit g a b).Reads) ∧ (∀ d a, (Instr.bararr g d a).Reads) ∧ (∀ a b, (Instr.barwait g a b).Reads) ∧
    ∀ a, (Instr.barleave g a).Reads :=
  ⟨fun a b => reads_fmtAB (dec := decodeBar) (ra := .adr) rfl rfl (by decide) (by decide) rfl fun x hf => by simp only [decodeBar, hf],
    fun d a => reads_fmtDAddr (dec := decodeBar) (by decide) (by decide) rfl rfl rfl fun x hf => by simp only [decodeBar, hf],
    fun a b => reads_fmtAB (dec := decodeBar) (ra := .adr) rfl rfl (by decide) (by decide) rfl fun x hf => by simp only [decodeBar, hf],
    fun a => reads_fmtAddr (by decide) (by decide) (by decide) rfl rfl rfl⟩

theorem reads_mbox (g : Guard) :
    (∀ a b, (Instr.send g a b).Reads) ∧ (∀ d a, (Instr.recv g d a).Reads) ∧ ∀ d a, (Instr.mbstat g d a).Reads :=
  ⟨fun a b => reads_fmtAB (dec := decodeMbox) (ra := .src) rfl rfl (by decide) (by decide) rfl fun x hf => by simp only [decodeMbox, hf],
    fun d a => reads_fmt2 (dec := decodeMbox) (by decide) (by decide) rfl rfl rfl fun x hf => by simp only [decodeMbox, hf],
    fun d a => reads_fmt2 (dec := decodeMbox) (by decide) (by decide) rfl rfl rfl fun x hf => by simp only [decodeMbox, hf]⟩

theorem reads_wq (g : Guard) :
    (∀ a b, (Instr.wqput g a b).Reads) ∧ (∀ d a, (Instr.wqget g d a).Reads) ∧ (∀ d a, (Instr.wqlen g d a).Reads) ∧
    (∀ a, (Instr.turnReg g a).Reads) ∧ ∀ d, (Instr.poolid g d).Reads :=
  ⟨fun a b => reads_fmtAB (dec := decodeWq) (ra := .src) rfl rfl (by decide) (by decide) rfl fun x hf => by simp only [decodeWq, hf],
    fun d a => reads_fmt2 (dec := decodeWq) (by decide) (by decide) rfl rfl rfl fun x hf => by simp only [decodeWq, hf],
    fun d a => reads_fmt2 (dec := decodeWq) (by decide) (by decide) rfl rfl rfl fun x hf => by simp only [decodeWq, hf],
    fun a => reads_fmtA (dec := decodeWq) (by decide) (by decide) rfl rfl fun x hf => by simp only [decodeWq, hf],
    fun d => reads_fmtD (dec := decodeWq) (by decide) (by decide) rfl rfl rfl fun x hf => by simp only [decodeWq, hf]⟩

/-- The number in three fields (R110). -/
theorem imm15Of_eq (t : BitVec 15) {op f : Nat} {g : Guard} :
    imm15Of (rrr op g (t.toNat % 32) (t.toNat / 32 % 32) (t.toNat / 1024) f) = t :=
  bvOfNat_eq (by simp only [rrr]; omega)

theorem reads_imm15 (g : Guard) (t : BitVec 15) : (Instr.turn g t).Reads ∧ (Instr.trap g t).Reads := by
  have := t.isLt
  constructor
  · exact reads_group (dec := decodeWq) rfl rfl (by decide) (by omega) (by omega) (by omega) (by decide) fun _ =>
      congrArg (fun t => Decoded.instr (.turn g t)) (imm15Of_eq t)
  · exact reads_group (dec := decodeSys) rfl rfl (by decide) (by omega) (by omega) (by omega) (by decide) fun _ =>
      congrArg (fun t => Decoded.instr (.trap g t)) (imm15Of_eq t)

theorem reads_sys (g : Guard) : (Instr.eret g).Reads ∧ (Instr.brk g).Reads ∧ (Instr.halt g).Reads := by
  and_intros
  all_goals exact reads_fmtNone (dec := decodeSys) (by decide) (by decide) rfl rfl fun x hf => by simp only [decodeSys, hf]

theorem reads_ctrl (g : Guard) (n : CtrlReg) (d : Reg) : (Instr.crd g n d).Reads ∧ (Instr.cwr g n d).Reads := by
  have := n.code_lt
  have hn : CtrlReg.ofCode (n.code % 32 + 32 * (n.code / 32)) = some n := CtrlReg.ofCode_iff.mpr (by omega)
  constructor
  · refine reads_group (dec := decodeSys) rfl rfl (by decide) d.code_lt32 (by omega) (by omega) (by decide) fun hd => ?_
    simp only [decodeSys, rrr, hn]
    exact mkInstr1_eq (r := .dst) hd
  · refine reads_group (dec := decodeSys) rfl rfl (by decide) d.code_lt32 (by omega) (by omega) (by decide) fun _ => ?_
    simp only [decodeSys, rrr, hn]
    exact mkInstr1_eq (r := .src) rfl

theorem reads_lc (g : Guard) (n : Fin 16) (a : Reg) : (Instr.lcset g n a).Reads ∧ (Instr.lcget g n a).Reads := by
  have hn : (decide (n.val < 16) && (0 == 0)) = true := by simp
  constructor
  · refine reads_group (dec := decodeSys) rfl rfl (by decide) (by decide) a.code_lt32 (by omega) (by decide) fun _ => ?_
    simp only [decodeSys, rrr, finOfNat_val]
    exact need_eq hn (mkInstr1_eq (r := .src) rfl)
  · refine reads_group (dec := decodeSys) rfl rfl (by decide) a.code_lt32 (by decide) (by omega) (by decide) fun hd => ?_
    simp only [decodeSys, rrr, finOfNat_val]
    exact need_eq hn (mkInstr1_eq (r := .dst) hd)

/-! ### Vector groups (R114, R181 to R190) -/

theorem reads_vector3 (g : Guard) (t : LType) (m : Fin 4) (d a b : Fin 8) :
    (Instr.vadd g t m d a b).Reads ∧ (Instr.vsub g t m d a b).Reads ∧ (Instr.vmul g t m d a b).Reads ∧ (Instr.vfma g t m d a b).Reads ∧
    (Instr.vmin g t m d a b).Reads ∧ (Instr.vmax g t m d a b).Reads ∧ (Instr.vsel g t m d a b).Reads ∧ (Instr.vand g t m d a b).Reads ∧
    (Instr.vor g t m d a b).Reads ∧ (Instr.vxor g t m d a b).Reads ∧ (Instr.vperm g t m d a b).Reads ∧ (Instr.vbcast g t m d a b).Reads := by
  and_intros
  all_goals
    refine reads_fmtV3 (dec := decodeVrr) (by decide) (by decide) rfl rfl fun _ x ht hk _ => ?_
    simp only [decodeVrr, hk]
    exact withCode_eq (LType.ofCode_iff.mpr ht) rfl

theorem reads_vectorInt (g : Guard) (t : LType) (m : Fin 4) (d a b : Fin 8) :
    (Instr.vshl g t m d a b).Reads ∧ (Instr.vshr g t m d a b).Reads ∧ (Instr.vimax g t m d a b).Reads := by
  refine ⟨?_, ?_, ?_⟩
  case refine_3 =>
    refine reads_fmtV3 (dec := decodeVrr) (by decide) (by decide) rfl rfl fun hwf x ht hk hd => ?_
    have heven : d.val % 2 = 0 := of_decide_eq_true hwf
    simp only [decodeVrr, hk]
    exact withCode_eq (LType.ofCode_iff.mpr ht) (need_eq (beq_iff_eq.mpr (hd.trans heven)) rfl)
  all_goals
    refine reads_fmtV3 (dec := decodeVrr) (by decide) (by decide) rfl rfl fun hwf x ht hk _ => ?_
    simp only [decodeVrr, hk]
    exact withCode_eq (LType.ofCode_iff.mpr ht) (need_eq hwf rfl)

theorem reads_vpopc (g : Guard) (t : LType) (m : Fin 4) (d a : Fin 8) : (Instr.vpopc g t m d a).Reads := by
  refine reads_fmtV2 (dec := decodeVrr) (by decide) (by decide) rfl rfl fun hwf x ht hk => ?_
  simp only [decodeVrr, hk]
  exact withCode_eq (LType.ofCode_iff.mpr ht) (need_eq hwf rfl)

theorem reads_vector2 (g : Guard) (t : LType) (m : Fin 4) (d a : Fin 8) :
    (Instr.vabs g t m d a).Reads ∧ (Instr.vneg g t m d a).Reads ∧ (Instr.vredadd g t m d a).Reads ∧ (Instr.vredmax g t m d a).Reads := by
  and_intros
  all_goals
    refine reads_fmtV2 (dec := decodeVrr) (by decide) (by decide) rfl rfl fun _ x ht hk => ?_
    simp only [decodeVrr, hk]
    exact withCode_eq (LType.ofCode_iff.mpr ht) rfl

theorem reads_vectorF32 (g : Guard) (m : Fin 4) (d a : Fin 8) :
    (Instr.vlog2 g m d a).Reads ∧ (Instr.vexp2 g m d a).Reads ∧ (Instr.vrcp g m d a).Reads ∧ (Instr.vrsq g m d a).Reads ∧
    (Instr.vtanh g m d a).Reads ∧ (Instr.vsigm g m d a).Reads := by
  and_intros
  all_goals
    refine reads_fmtV2 (dec := decodeVrr) (t := .f32) (by decide) (by decide) rfl rfl fun _ x ht hk => ?_
    have hf : x.f < 32 := (Nat.div_eq_zero_iff_lt (by decide)).mp ht
    simp only [decodeVrr, hk]
    exact need_eq (decide_eq_true hf) rfl

/-- A vector compare's condition and predicate share a field. -/
theorem cond_eq (c : Fin 5) (v : Fin 4) : Fin.ofNat 5 ((v.val + 4 * c.val) / 4) = c ∧ Fin.ofNat 4 (v.val + 4 * c.val) = v :=
  ⟨finOfNat_eq (by omega), finOfNat_eq (by omega)⟩

theorem cond_lt_of_wf {t : LType} {c : Fin 5} (v : Fin 4) (h : (t.isF32 || decide (c.val < 4)) = true) :
    v.val + 4 * c.val < if t.isF32 then 20 else 16 := by
  cases t <;> simp [LType.isF32] at h ⊢ <;> omega

theorem reads_vcmp (g : Guard) (t : LType) (c : Fin 5) (v : Fin 4) (a b : Fin 8) : (Instr.vcmp g t c v a b).Reads := by
  have := t.code_lt
  refine reads_group (dec := decodeVrr) rfl rfl (by decide) (by omega) (by omega) (by omega) (by omega) fun hwf => ?_
  have hk : (8 + 32 * t.code) % 32 = 8 := by omega
  simp only [decodeVrr, rrr, hk, cond_eq, finOfNat_val]
  refine withCode_eq (t := t) (LType.ofCode_iff.mpr (by omega)) (need_eq ?_ rfl)
  simp only [Bool.and_eq_true]
  exact ⟨⟨decide_eq_true (cond_lt_of_wf v hwf), decide_eq_true a.isLt⟩, decide_eq_true b.isLt⟩

theorem reads_vcmpScalar (g : Guard) (t : LType) (c : Fin 5) (v : Fin 4) (a : Fin 8) (b : Reg) : (Instr.vcmpScalar g t c v a b).Reads := by
  have := t.code_lt
  refine reads_group (dec := decodeVrs) rfl rfl (by decide) (by omega) (by omega) b.code_lt32 (by omega) fun hwf => ?_
  have hk : (8 + 32 * t.code) % 32 = 8 := by omega
  simp only [decodeVrs, rrr, hk, cond_eq, finOfNat_val]
  exact withCode_eq (t := t) (LType.ofCode_iff.mpr (by omega)) (need_eq
    (Bool.and_eq_true_iff.mpr ⟨decide_eq_true (cond_lt_of_wf v hwf), decide_eq_true a.isLt⟩) (mkInstr1_eq (r := .src) rfl))

theorem reads_vtern (g : Guard) (t : BitVec 8) (d a b : Fin 8) : (Instr.vtern g t d a b).Reads := by
  have := t.isLt
  refine reads_group (dec := decodeVrr) rfl rfl (by decide) (by omega) (by omega) (by omega) (by omega) fun _ => ?_
  have hk : (13 + 32 * (t.toNat / 64)) % 32 = 13 := by omega
  simp only [decodeVrr, rrr, hk]
  rw [bvOfNat_eq (v := t) (by omega), finOfNat_eq (m := d) (by omega), finOfNat_eq (m := a) (by omega), finOfNat_eq (m := b) (by omega)]

theorem reads_vcvt (g : Guard) (t : LType) (k : Bool) (o : VType) (m : Fin 4) (d a : Fin 8) : (Instr.vcvt g t k o m d a).Reads := by
  have := o.code_lt
  have hkk := k.toNat_lt
  refine reads_encV (k := 16) (by decide) (by decide) (by omega) rfl fun _ => ?_
  have hbit : bit (o.code + 16 * k.toNat) 4 = k := bit_of_toNat (by omega)
  have ht := encV_f_div (g := g) (op := 0x2C) (t := t) (m := m) (v := d) (u := a) (b := o.code + 16 * k.toNat) (k := 16) (by decide)
  simp only [encV, rrr] at ht
  change decodeVrr g _ = _
  simp only [decodeVrr, encV, rrr, ht, hbit, mask_eq, finOfNat_val]
  exact withCode_eq (LType.ofCode_iff.mpr rfl) (need_eq (decide_eq_true a.isLt)
    (withCode_eq (t := o) (VType.ofCode_iff.mpr (by omega)) rfl))

theorem reads_vcvte (g : Guard) (n : NarrowType) (d a b : Fin 8) : (Instr.vcvte g n d a b).Reads := by
  have := n.vcode_lt
  refine reads_group (dec := decodeVrr) rfl rfl (by decide) (by omega) (by omega) (by omega) (by omega) fun _ => ?_
  have hk : (17 + 32 * (n.vcode / 4)) % 32 = 17 := by omega
  have hd : Fin.ofNat 8 (d.val + 8 * (n.vcode % 4)) = d := finOfNat_eq (by omega)
  simp only [decodeVrr, rrr, hk, hd, finOfNat_val]
  exact need_eq (decide_eq_true a.isLt) (need_eq (decide_eq_true b.isLt) (withCode_eq (NarrowType.ofVcode_iff.mpr (by omega)) rfl))

theorem reads_vscan (g : Guard) (t : LType) (d a : Fin 8) : (Instr.vscan g t d a).Reads := by
  have := t.code_lt
  refine reads_group (dec := decodeVrr) rfl rfl (by decide) (by simp only [Fin.val_zero]; omega) (by omega) (by decide) (by omega)
    fun _ => ?_
  have hk : (27 + 32 * t.code) % 32 = 27 := by omega
  simp only [decodeVrr, rrr, hk, Fin.val_zero, Nat.mul_zero, Nat.add_zero, finOfNat_val]
  exact withCode_eq (LType.ofCode_iff.mpr (by omega)) (need_eq (decide_eq_true a.isLt)
    (need_eq (Bool.and_eq_true_iff.mpr ⟨decide_eq_true d.isLt, rfl⟩) rfl))

theorem reads_vectorScalar (g : Guard) (t : LType) (m : Fin 4) (d a : Fin 8) (b : Reg) :
    (Instr.vaddScalar g t m d a b).Reads ∧ (Instr.vsubScalar g t m d a b).Reads ∧ (Instr.vmulScalar g t m d a b).Reads ∧
    (Instr.vfmaScalar g t m d a b).Reads ∧ (Instr.vminScalar g t m d a b).Reads ∧ (Instr.vmaxScalar g t m d a b).Reads ∧
    (Instr.vselScalar g t m d a b).Reads ∧ (Instr.vandScalar g t m d a b).Reads ∧ (Instr.vorScalar g t m d a b).Reads ∧
    (Instr.vxorScalar g t m d a b).Reads ∧ (Instr.vpermScalar g t m d a b).Reads ∧ (Instr.vbcastScalar g t m d a b).Reads := by
  and_intros
  all_goals
    refine reads_fmtVS (dec := decodeVrs) (by decide) (by decide) rfl rfl fun _ x ht hk _ =>
      withCode_eq (LType.ofCode_iff.mpr ht) ?_
    simp only [hk]

theorem reads_vectorScalarInt (g : Guard) (t : LType) (m : Fin 4) (d a : Fin 8) (b : Reg) :
    (Instr.vshlScalar g t m d a b).Reads ∧ (Instr.vshrScalar g t m d a b).Reads ∧ (Instr.vimaxScalar g t m d a b).Reads := by
  refine ⟨?_, ?_, ?_⟩
  case refine_3 =>
    refine reads_fmtVS (dec := decodeVrs) (by decide) (by decide) rfl rfl fun hwf x ht hk hd =>
      withCode_eq (LType.ofCode_iff.mpr ht) ?_
    have heven : d.val % 2 = 0 := of_decide_eq_true hwf
    simp only [hk]
    exact need_eq (beq_iff_eq.mpr (hd.trans heven)) rfl
  all_goals
    refine reads_fmtVS (dec := decodeVrs) (by decide) (by decide) rfl rfl fun hwf x ht hk _ =>
      withCode_eq (LType.ofCode_iff.mpr ht) ?_
    simp only [hk]
    exact need_eq hwf rfl

theorem reads_vsplat (g : Guard) (t : LType) (m : Fin 4) (d : Fin 8) (b : Reg) : (Instr.vsplat g t m d b).Reads := by
  have := t.code_lt
  refine reads_group (dec := decodeVrs) rfl rfl (by decide) (by omega) (by decide) b.code_lt32 (by omega) fun _ => ?_
  have hk : (30 + 32 * t.code) % 32 = 30 := by omega
  simp only [decodeVrs, rrr, hk, mask_eq]
  exact withCode_eq (LType.ofCode_iff.mpr (by omega)) (need_eq rfl (mkInstr1_eq (r := .src) rfl))

/-! Vector memory: function, element size and sign in `f`. -/

theorem vmem_f {s : ElSize} {k : Nat} (x : Bool) (hk : k < 8) : (k + 8 * s.code + 32 * x.toNat) % 8 = k ∧
    (k + 8 * s.code + 32 * x.toNat) / 8 % 4 = s.code ∧ bit (k + 8 * s.code + 32 * x.toNat) 5 = x ∧ k + 8 * s.code + 32 * x.toNat < 64 := by
  have := s.code_lt
  have := x.toNat_lt
  exact ⟨by omega, by omega, bit_of_toNat (by omega), by omega⟩

theorem reads_vld (g : Guard) (x : Bool) (s : ElSize) (m : Fin 4) (d : Fin 8) (a b : Reg) : (Instr.vld g x s m d a b).Reads := by
  obtain ⟨hk, hs, hx, hf⟩ := vmem_f (s := s) (k := 0) x (by decide)
  refine reads_group (dec := decodeVmem) rfl rfl (by decide) (by omega) a.code_lt32 b.code_lt32 (by omega) fun hwf => ?_
  obtain ⟨hab, hsize⟩ := Bool.and_eq_true_iff.mp hwf
  obtain ⟨ha, hb⟩ := Bool.and_eq_true_iff.mp hab
  simp only [decodeVmem, rrr, hk, hs, hx, mask_eq]
  exact need_eq (decide_eq_true hf) (withCode_eq (ElSize.ofCode_iff.mpr rfl) (need_eq hsize (mkInstr2_eq (r := .adr) (r' := .adr) ha hb)))

theorem reads_vst (g : Guard) (s : ElSize) (m : Fin 4) (d : Fin 8) (a b : Reg) : (Instr.vst g s m d a b).Reads := by
  obtain ⟨hk, hs, hx, hf⟩ := vmem_f (s := s) (k := 1) false (by decide)
  simp only [Bool.toNat_false, Nat.mul_zero, Nat.add_zero] at hk hs hx hf
  refine reads_group (dec := decodeVmem) rfl rfl (by decide) (by omega) a.code_lt32 b.code_lt32 (by omega) fun hwf => ?_
  obtain ⟨ha, hb⟩ := Bool.and_eq_true_iff.mp hwf
  simp only [decodeVmem, rrr, hk, hs, hx, mask_eq]
  exact need_eq (decide_eq_true hf) (withCode_eq (ElSize.ofCode_iff.mpr rfl) (need_eq rfl (mkInstr2_eq (r := .adr) (r' := .adr) ha hb)))

theorem reads_vldx (g : Guard) (x : Bool) (s : ElSize) (m : Fin 4) (d : Fin 8) (a : Reg) (b : Fin 8) :
    (Instr.vldx g x s m d a b).Reads := by
  obtain ⟨hk, hs, hx, hf⟩ := vmem_f (s := s) (k := 2) x (by decide)
  refine reads_group (dec := decodeVmem) rfl rfl (by decide) (by omega) a.code_lt32 (by omega) (by omega) fun hwf => ?_
  obtain ⟨ha, hsize⟩ := Bool.and_eq_true_iff.mp hwf
  simp only [decodeVmem, rrr, hk, hs, hx, mask_eq, finOfNat_val]
  exact need_eq (decide_eq_true hf) (withCode_eq (ElSize.ofCode_iff.mpr rfl) (need_eq
    (Bool.and_eq_true_iff.mpr ⟨hsize, decide_eq_true b.isLt⟩) (mkInstr1_eq (k := fun a => .vldx g x s m d a b) (r := .adr) ha)))

theorem reads_vstx (g : Guard) (s : ElSize) (m : Fin 4) (d : Fin 8) (a : Reg) (b : Fin 8) : (Instr.vstx g s m d a b).Reads := by
  obtain ⟨hk, hs, hx, hf⟩ := vmem_f (s := s) (k := 3) false (by decide)
  simp only [Bool.toNat_false, Nat.mul_zero, Nat.add_zero] at hk hs hx hf
  refine reads_group (dec := decodeVmem) rfl rfl (by decide) (by omega) a.code_lt32 (by omega) (by omega) fun ha => ?_
  simp only [decodeVmem, rrr, hk, hs, hx, mask_eq, finOfNat_val]
  exact need_eq (decide_eq_true hf) (withCode_eq (ElSize.ofCode_iff.mpr rfl) (need_eq
    (Bool.and_eq_true_iff.mpr ⟨rfl, decide_eq_true b.isLt⟩) (mkInstr1_eq (k := fun a => .vstx g s m d a b) (r := .adr) ha)))

theorem reads_vbits (g : Guard) (v : Fin 4) (a b : Reg) : (Instr.vbitsLd g v a b).Reads ∧ (Instr.vbitsSt g v a b).Reads := by
  constructor
  all_goals
    refine reads_group (dec := decodeVmem) rfl rfl (by decide) (by omega) a.code_lt32 b.code_lt32 (by decide) fun hwf => ?_
    obtain ⟨ha, hb⟩ := Bool.and_eq_true_iff.mp hwf
    simp only [decodeVmem, decodeVmem.mkInstr', rrr, Nat.reduceMod, Nat.reduceDiv, finOfNat_val]
    exact need_eq (decide_eq_true v.isLt) (mkInstr2_eq (r := .adr) (r' := .adr) ha hb)

theorem reads_vctl (g : Guard) :
    (Instr.vfence g).Reads ∧ (Instr.vrel g).Reads ∧ ∀ d, (Instr.vbusy g d).Reads :=
  ⟨reads_fmtNone (dec := decodeVctl) (by decide) (by decide) rfl rfl fun x hf => by simp [decodeVctl, hf],
    reads_fmtNone (dec := decodeVctl) (by decide) (by decide) rfl rfl fun x hf => by simp [decodeVctl, hf],
    fun d => reads_fmtD (dec := decodeVctl) (by decide) (by decide) rfl rfl rfl fun x hf => by simp [decodeVctl, hf]⟩

theorem reads_vmask (g : Guard) (d a b : Fin 4) :
    (Instr.vmand g d a b).Reads ∧ (Instr.vmor g d a b).Reads ∧ (Instr.vmxor g d a b).Reads := by
  and_intros
  all_goals
    refine reads_group (dec := decodeVctl) rfl rfl (by decide) (by omega) (by omega) (by omega) (by decide) fun _ => ?_
    simp only [decodeVctl, rrr, Nat.reduceMod, finOfNat_val]
    exact need_eq (by simp) rfl

theorem reads_vmnot (g : Guard) (d a : Fin 4) : (Instr.vmnot g d a).Reads := by
  refine reads_group (dec := decodeVctl) rfl rfl (by decide) (by omega) (by omega) (by decide) (by decide) fun _ => ?_
  simp only [decodeVctl, rrr, Nat.reduceMod, finOfNat_val]
  exact need_eq (by simp) rfl

theorem reads_vmaskReg (g : Guard) (d : Reg) (a : Fin 4) : (Instr.vmget g d a).Reads ∧ (Instr.vmset g a d).Reads := by
  have ha : (decide (a.val < 4) && (0 == 0)) = true := by simp
  constructor
  · refine reads_group (dec := decodeVctl) rfl rfl (by decide) d.code_lt32 (by omega) (by decide) (by decide) fun hd => ?_
    simp only [decodeVctl, rrr, Nat.reduceMod, finOfNat_val]
    exact need_eq ha (mkInstr1_eq (k := fun d => .vmget g d a) (r := .dst) hd)
  · refine reads_group (dec := decodeVctl) rfl rfl (by decide) (by omega) d.code_lt32 (by decide) (by decide) fun _ => ?_
    simp only [decodeVctl, rrr, Nat.reduceMod, finOfNat_val]
    exact need_eq ha (mkInstr1_eq (r := .src) rfl)

theorem reads_vimaxs (g : Guard) (t : LType) (d : Reg) (a : Fin 8) : (Instr.vimaxs g t d a).Reads := by
  have := t.code_lt
  refine reads_group (dec := decodeVctl) rfl rfl (by decide) d.code_lt32 (by omega) (by decide) (by omega) fun hwf => ?_
  obtain ⟨hd, heven⟩ := Bool.and_eq_true_iff.mp hwf
  have hk : (9 + 32 * t.code) % 32 = 9 := by omega
  simp only [decodeVctl, rrr, hk, finOfNat_val]
  refine withCode_eq (t := t) (LType.ofCode_iff.mpr (by omega)) (need_eq ?_ (mkInstr1_eq (k := fun d => .vimaxs g t d a) (r := .dst) hd))
  simpa using heven

theorem reads_mfmt (g : Guard) (c : Fin 4) (a : Reg) : (Instr.mfmt g c a).Reads := by
  refine reads_group (dec := decodeMfmt) rfl rfl (by decide) (by omega) a.code_lt32 (by decide) (by decide) fun _ => ?_
  simp only [decodeMfmt, rrr, finOfNat_val]
  exact need_eq (by simp) (mkInstr1_eq (r := .src) rfl)

/-! ### Engine commands, text (R110) -/

theorem reads_mma (g : Guard) (v c : Bool) (p : Fin 16) (q r : Flag) (d a : Reg) : (Instr.mma g v c p q r d a).Reads := by
  have := v.toNat_lt
  have := c.toNat_lt
  refine reads_fmtE (dec := decodeMma) (rd := .src) (by decide) (by omega) rfl rfl rfl fun x hf => ?_
  have hv : bit x.f 6 = v := bit_of_toNat (by omega)
  have hc : bit x.f 5 = c := bit_of_toNat (by omega)
  rw [decodeMma, hv, hc, finOfNat_eq (m := p) (by omega)]

theorem reads_macc (g : Guard) :
    (∀ q r d a, (Instr.mld g q r d a).Reads) ∧ (∀ q r d a, (Instr.mst g q r d a).Reads) ∧ (∀ q r d a, (Instr.mqry g q r d a).Reads) ∧
    (∀ q r d a, (Instr.mrecl g q r d a).Reads) ∧ ∀ q r a, (Instr.mclr g q r a).Reads :=
  ⟨fun q r d a => reads_fmtE (dec := decodeMacc) (rd := .src) (by decide) (by decide) rfl rfl rfl fun x hf => by simp only [decodeMacc, hf],
    fun q r d a => reads_fmtE (dec := decodeMacc) (rd := .src) (by decide) (by decide) rfl rfl rfl fun x hf => by simp only [decodeMacc, hf],
    fun q r d a => reads_fmtE (dec := decodeMacc) (rd := .dst) (by decide) (by decide) rfl rfl rfl fun x hf => by simp only [decodeMacc, hf],
    fun q r d a => reads_fmtE (dec := decodeMacc) (rd := .dst) (by decide) (by decide) rfl rfl rfl fun x hf => by simp only [decodeMacc, hf],
    fun q r a => reads_fmtEA (dec := decodeMacc) (by decide) (by decide) rfl rfl fun x hf => by simp only [decodeMacc, hf]⟩

theorem reads_attn (g : Guard) (l f : Bool) (s : KeySrc) (q r : Flag) (d a : Reg) : (Instr.attn g l f s q r d a).Reads := by
  have := l.toNat_lt
  have := f.toNat_lt
  have := s.code_lt
  refine reads_fmtE (dec := decodeAttn) (rd := .src) (by decide) (by omega) rfl rfl rfl fun x hf => ?_
  have h0 : bit (x.f / 2) 0 = false := bit_clear (by omega)
  have h3 : bit (x.f / 2) 3 = f := bit_of_toNat (by omega)
  have h4 : bit (x.f / 2) 4 = l := bit_of_toNat (by omega)
  simp only [decodeAttn, h0, h3, h4, Bool.false_eq_true, if_false]
  exact need_eq (decide_eq_true (by omega)) (withCode_eq (t := s) (KeySrc.ofCode_iff.mpr (by omega)) rfl)

theorem reads_maskset (g : Guard) (q r : Flag) (d a : Reg) : (Instr.maskset g q r d a).Reads :=
  reads_fmtE (dec := decodeAttn) (rd := .src) (by decide) (by decide) rfl rfl rfl fun x hf => by simp [decodeAttn, bit, need, hf]

theorem reads_kv (g : Guard) (w : Bool) (q r : Flag) (d a : Reg) :
    (Instr.kvapp g w q r d a).Reads ∧ (Instr.kvcommit g w q r d a).Reads ∧ (Instr.kvtrunc g w q r d a).Reads := by
  have := w.toNat_lt
  have harm : ∀ k < 8, (k + 8 * w.toNat) % 8 = k := fun k hk => by omega
  and_intros
  all_goals
    refine reads_fmtE (dec := decodeKv) (rd := .dst) (by decide) (by omega) rfl rfl rfl fun x hf => ?_
    have hbit : bit (x.f / 2) 3 = w := bit_of_toNat (by omega)
    have hlt : x.f / 2 < 16 := by omega
    simp only [decodeKv, hbit]
    refine need_eq (decide_eq_true hlt) ?_
    simp only [hf, harm, Nat.reduceLT]

theorem reads_kvRest (g : Guard) :
    (∀ q r d a, (Instr.linfold g q r d a).Reads) ∧ ∀ q r a, (Instr.pref g q r a).Reads :=
  ⟨fun q r d a => reads_fmtE (dec := decodeKv) (rd := .dst) (by decide) (by decide) rfl rfl rfl fun x hf => by simp [decodeKv, bit, need, hf],
    fun q r a => reads_fmtEA (dec := decodeKv) (by decide) (by decide) rfl rfl fun x hf => by simp [decodeKv, bit, need, hf]⟩

theorem reads_redit (g : Guard) (q r : Flag) (d a : Reg) :
    (Instr.rcat g q r d a).Reads ∧ (Instr.rsplitLo g q r d a).Reads ∧ (Instr.rsplitHi g q r d a).Reads ∧ (Instr.rsplice g q r d a).Reads := by
  and_intros
  all_goals exact reads_fmtE (dec := decodeRedit) (rd := .dst) (by decide) (by decide) rfl rfl rfl fun x hf => by simp only [decodeRedit, hf]

theorem reads_rope (g : Guard) (q r : Flag) (d a : Reg) :
    (Instr.rleaf g q r d a).Reads ∧ (Instr.ridx g q r d a).Reads ∧ (Instr.rsum g q r d a).Reads ∧ (Instr.rsumFix g q r d a).Reads ∧
    (Instr.rlen g q r d a).Reads ∧ (Instr.rdrop g q r d a).Reads ∧ (Instr.rwalk g q r d a).Reads := by
  and_intros
  all_goals exact reads_fmtE (dec := decodeRope) (rd := .dst) (by decide) (by decide) rfl rfl rfl fun x hf => by simp only [decodeRope, hf]

theorem reads_ropeRest (g : Guard) :
    (∀ q r a, (Instr.rref g q r a).Reads) ∧ ∀ q r d a, (Instr.rclass g q r d a).Reads :=
  ⟨fun q r a => reads_fmtEA (dec := decodeRope) (by decide) (by decide) rfl rfl fun x hf => by simp only [decodeRope, hf],
    fun q r d a => reads_fmtE (dec := decodeRope) (rd := .src) (by decide) (by decide) rfl rfl rfl fun x hf => by simp only [decodeRope, hf]⟩

theorem reads_text (g : Guard) :
    (∀ d a b, (Instr.trie g d a b).Reads) ∧ (∀ d a, (Instr.udec g d a).Reads) ∧ ∀ d a b, (Instr.uhold g d a b).Reads :=
  ⟨fun d a b => reads_fmtAtom (dec := decodeText) (by decide) (by decide) rfl rfl rfl fun x hf => by simp only [decodeText, hf],
    fun d a => reads_fmt2 (dec := decodeText) (by decide) (by decide) rfl rfl rfl fun x hf => by simp only [decodeText, hf],
    fun d a b => reads_fmtAtom (dec := decodeText) (by decide) (by decide) rfl rfl rfl fun x hf => by simp only [decodeText, hf]⟩

theorem reads_iqget (g : Guard) (w : Bool) (q r : Flag) (d a : Reg) : (Instr.iqget g w q r d a).Reads := by
  cases w
  all_goals
    refine reads_fmtE (dec := decodeIq) (rd := .dst) (by decide) (by decide) rfl rfl rfl fun x hf => ?_
    simp only [decodeIq, hf, Bool.toNat_false, Bool.toNat_true, Nat.mul_zero, Nat.mul_one, Nat.reduceAdd]

theorem reads_iq (g : Guard) (q r : Flag) (d a : Reg) :
    (Instr.iqput g q r d a).Reads ∧ (Instr.iqwave g q r d a).Reads ∧ (Instr.iqcons g q r d a).Reads := by
  and_intros
  all_goals exact reads_fmtE (dec := decodeIq) (rd := .dst) (by decide) (by decide) rfl rfl rfl fun x hf => by simp only [decodeIq, hf]

theorem reads_iqctl (g : Guard) (q r : Flag) (d a : Reg) :
    (Instr.iqbind g q r d a).Reads ∧ (Instr.iqbindStage g q r d a).Reads ∧ (Instr.iqprobe g q r d a).Reads ∧ (Instr.iqupd g q r d a).Reads ∧
    (Instr.iqquiet g q r d a).Reads := by
  and_intros
  all_goals exact reads_fmtE (dec := decodeIqctl) (rd := .dst) (by decide) (by decide) rfl rfl rfl fun x hf => by simp only [decodeIqctl, hf]

/-! ### Every instruction -/

theorem reads_of_none {i : Instr} (h : encodeFields i = none) : i.Reads := fun _ _ hx => nomatch h.symm.trans hx

/-- Every instruction reads back, group by group; a dictionary code and an event have no fields. -/
theorem instr_reads (i : Instr) : i.Reads := by
  cases i
  case divideComplete | sfuComplete | normaliserService | fullEmptyRetest | streamElementArrival | streamDrain | wakeMessage
      | gangFormation | barrierRelease | mailboxDelivery | nqHop | omTurn | svuComplete | iqgetWaitServe | dictionaryCode
      | dictionaryLoad | chunkCommit | lockedReservation | steal | strandArrival | remoteWordAccess | remoteReply
      | translationWalk | pageService | pageMigration | migrationEpoch | engineCompletion | dmodeWrite | ptrootWrite
      | drtbaseWrite | plbflush | tcinv | hometabWrite | invalidationComplete | migreq | lqwidxWrite | lqnextWrite
      | launchPacket | fencePacket | fencePacketRecheck | signalPacket | copyPacket | modePacket | blockDeal | launchComplete
      | sliceExpiry | cspreWrite | idleThreshold | blockSwapOut | denReadmit | hwake | omcfgWrite | meqidxWrite | meqAnswer
      | attctlGo | attestationComplete | powerCapTick | registerWrite | controlCoreStart | controlCoreHalt | hostAccess
      | peerRequest | peerStrandArrival | linkRetransmit | linkRetrain | scrubRead | errorEntryExpiry | coldReset
      | functionLevelReset | powerOn | lqctlWrite | meqbaseWrite => exact reads_of_none rfl
  all_goals simp only [reads_alu3, reads_alu2, reads_ext, reads_rri, reads_shi, reads_ri, reads_cmp, reads_cmpi, reads_pred3, reads_pnot,
    reads_predReg, reads_sel, reads_tern, reads_bf, reads_div, reads_branch, reads_jump, reads_faluRounded, reads_falu3, reads_falu2, reads_fma,
    reads_fcmp, reads_cvt, reads_cvte, reads_sfu, reads_memory, reads_ldx, reads_stx, reads_ldfe, reads_stfe, reads_stfeClear,
    reads_atom, reads_atomFaddF32, reads_cupd, reads_cupdFaddF32, reads_fence, reads_sync, reads_list, reads_stream, reads_xcopy, reads_fork,
    reads_slot, reads_gang, reads_ungang, reads_bar, reads_mbox, reads_wq, reads_imm15, reads_sys, reads_ctrl, reads_lc, reads_vector3,
    reads_vectorInt, reads_vpopc, reads_vector2, reads_vectorF32, reads_vcmp, reads_vcmpScalar, reads_vtern, reads_vcvt, reads_vcvte,
    reads_vscan, reads_vectorScalar, reads_vectorScalarInt, reads_vsplat, reads_vld, reads_vst, reads_vldx, reads_vstx,
    reads_vbits, reads_vctl, reads_vmask, reads_vmnot, reads_vmaskReg, reads_vimaxs, reads_mfmt, reads_mma, reads_macc, reads_attn,
    reads_maskset, reads_kv, reads_kvRest, reads_redit, reads_rope, reads_ropeRest, reads_text, reads_iqget, reads_iq, reads_iqctl]

/-! ### Words and bytes (R4, R100) -/

theorem decodeWord_of_group {w : Half} {i : Instr} (hop : (fieldsOf w).op ≠ 0x3E)
    (h : decodeGroup (.ofCode (fieldsOf w).g) (fieldsOf w) = .instr i) : decodeWord w = .instr i := by
  have hcode : ((fieldsOf w).op == 0x3E) = false := beq_eq_false_iff_ne.mpr hop
  simp only [decodeWord, hcode, h, Bool.false_eq_true, if_false]

/-- The opcode map has no group 0x3E, whose words are dictionary codes (R101). -/
theorem op_ne_of_decodeGroup {g : Guard} {x : Fields} {i : Instr} (h : decodeGroup g x = .instr i) : x.op ≠ 0x3E := by
  intro hop
  simp only [decodeGroup, hop, reduceCtorEq] at h

theorem decodeBytes_word_append (w : Half) (rest : List Byte) (h : w.toNat % 64 ≠ 0x3E) :
    decodeBytes (encode.leBytesOfNat 4 w.toNat ++ rest) = some (decodeWord w, 4) := by
  have hw := w.isLt
  have hlow : (w.toNat % 256 + 256 * (w.toNat / 256 % 256)) % 64 ≠ 0x3E := by omega
  have hall : w.toNat % 256 + 256 * (w.toNat / 256 % 256) + 65536 * (w.toNat / 256 / 256 % 256) +
      16777216 * (w.toNat / 256 / 256 / 256 % 256) = w.toNat := by omega
  simp only [encode.leBytesOfNat, List.cons_append, List.nil_append, decodeBytes, BitVec.toNat_ofNat, Nat.reducePow, if_neg hlow, hall]
  rw [BitVec.ofNat_toNat, BitVec.setWidth_eq]

theorem decodeBytes_code_append (j : BitVec 10) (rest : List Byte) :
    decodeBytes (encode.leBytesOfNat 2 (0x3E + 64 * j.toNat) ++ rest) = some (.instr (.dictionaryCode j), 2) := by
  have hj := j.isLt
  have hcode : ((0x3E + 64 * j.toNat) % 256 + 256 * ((0x3E + 64 * j.toNat) / 256 % 256)) % 64 = 0x3E := by omega
  have hidx : ((0x3E + 64 * j.toNat) % 256 + 256 * ((0x3E + 64 * j.toNat) / 256 % 256)) / 64 = j.toNat := by omega
  simp only [encode.leBytesOfNat, List.cons_append, List.nil_append, decodeBytes, BitVec.toNat_ofNat, Nat.reducePow, if_pos hcode, hidx]
  rw [BitVec.ofNat_toNat, BitVec.setWidth_eq]

/-- Settles O57: a dictionary code by its index; a word because its fields, which its bytes hold, read back (`instr_reads`). -/
theorem decodeEncodeAgree : Obligations.DecodeEncodeAgree := by
  unfold Obligations.DecodeEncodeAgree
  intro i b rest hwf hb
  unfold encode at hb
  split at hb
  case h_1 j =>
    cases hb
    exact decodeBytes_code_append j rest
  case h_2 =>
    obtain ⟨x, hx, rfl⟩ := Option.map_eq_some_iff.mp hb
    obtain ⟨hok, hgroup⟩ := instr_reads i hwf x hx
    have hop := op_ne_of_decodeGroup hgroup
    have hword : decodeWord x.pack = .instr i := by
      have hback := fieldsOf_pack hok
      exact decodeWord_of_group (hback.symm ▸ hop) (hback.symm ▸ hgroup)
    have hlow : x.pack.toNat % 64 ≠ 0x3E := by
      have h64 := hok.1
      rw [pack_toNat hok]
      omega
    rw [decodeBytes_word_append _ _ hlow, hword]
    rfl

end Sys2Proof

/-! SUPPORT, O18. Software traps, bad targets, and instructions that may not run where they stand. -/

namespace Sys2Proof.Machine

/-! ### TRAP, which returns past itself (R174) -/

theorem State.nextPc_unopened (s : State) : (s.setCur (s.cur.unopened s.isCtrl)).cur.nextPc = s.cur.nextPc := by
  rw [State.cur_setCur]
  exact s.cur.nextPc_opened s.isCtrl

theorem State.takeTrap_unopened {s : State} (ht : TakesTraps s) {cause info : Nat} {addr epc : Word} (hf : cause ≠ 7) :
    (s.setCur (s.cur.unopened s.isCtrl)).takeTrap cause info addr epc =
      s.setCur ((s.cur.unopened s.isCtrl).trapped cause info addr epc s.tvec) := by
  have hctx := s.cur.ctx_unopened s.isCtrl
  rw [State.takeTrap_of_handler, State.tvec_setCur hctx, State.cur_setCur, State.setCur_setCur]
  · rw [State.cur_setCur, Slot.kept_unopened]
    exact ht.holds
  · rw [State.cur_setCur, hctx]
    exact ht.outside
  · rw [State.cur_setCur, hctx]
    exact ht.alone
  · rw [State.tvec_setCur hctx]
    exact ht.handler
  · exact .inl hf

theorem traps_trap {g : Guard} {c : BitVec 15} {s : State} (hs : Strand g s) (ht : TakesTraps s) :
    Traps (.trap g c) s 0xC c.toNat 0 s.cur.nextPc := by
  have hctx := s.cur.ctx_unopened s.isCtrl
  have hcode : c.toNat < 65536 := Nat.lt_trans c.isLt (by decide)
  refine ⟨s.setCur ((s.cur.unopened s.isCtrl).trapped 0xC c.toNat 0 s.cur.nextPc s.tvec), ?_, ?_⟩
  · have hrun : exec (.trap g c) s = s.openChunk.settle (.after fun s => s.takeTrap 0xC c.toNat 0 s.cur.nextPc) := by
      refine (issueStrand_strand hs _).trans ?_
      simp only [issue, State.cur_openChunk, Slot.ctx_opened, hs.guard, if_true]
      rfl
    rw [hrun, State.settle_after_of_fresh ht.fresh, s.nextPc_unopened, State.takeTrap_unopened ht (by decide),
      State.reseat_of_none (s := s.setCur _) ht.own]
  · refine ⟨?_, ?_, ?_, ?_, rfl, fun c k hk => State.slotAt_setCur_other s _ hk⟩ <;> rw [State.cur_setCur]
    · rfl
    · simp only [Slot.trapped, Nat.mod_eq_of_lt hcode, Nat.reducePow]
    · rfl
    · simp only [Slot.trapped, hctx]

/-! ### Traps that return to their instruction -/

theorem traps_brk {g : Guard} {s : State} (hs : Strand g s) (ht : TakesTraps s) : Traps (.brk g) s 0xD 0 0 s.cur.ctx.pc :=
  traps_of_strand_stop rfl hs ht rfl (.inl (by decide)) (by decide)

/-- ERET outside a handler is illegal where it stands (R174). -/
theorem traps_eret {g : Guard} {s : State} (hs : Strand g s) (ht : TakesTraps s) : Traps (.eret g) s 1 6 s.cur.ctx.pc s.cur.ctx.pc := by
  refine traps_of_strand_stop rfl hs ht ?_ (.inl (by decide)) (by decide)
  rw [M.run_bind_ok (M.run_get _), State.cur_openChunk, Slot.ctx_opened, ht.outside]
  rfl

/-- A transfer outside the translated space stops at it: of a strand that does not follow a leader. -/
theorem jumpTo_outside {s : State} {t : Word} (hc : s.isCtrl = false) (hf : s.cur.isFollower = false) (heven : t.toNat % 2 = 0)
    (ht : 2 ^ 56 ≤ t.toNat) : (jumpTo t).run s = .error (.after fun s => s.takeTrap 2 1 t s.cur.ctx.pc) := by
  unfold jumpTo
  rw [M.run_bind_ok (M.run_get s), if_neg (by simp [hc, hf]), if_neg (by omega), if_pos ht]
  rfl

/-- A strand in no gang follows no leader. -/
theorem TakesTraps.isFollower {s t : State} (ht : TakesTraps s) (h : Operand s.openChunk t) : t.cur.isFollower = false := by
  rw [h.isFollower, State.cur_openChunk, Slot.isFollower, Slot.ctx_opened, ht.alone]
  rfl

/-- What says whether a core's block is placed by hand is no operand's to change. -/
theorem Operand.manualCore {s t : State} (h : Operand s.openChunk t) : t.manualCore t.core = s.manualCore s.core := by
  have howner : (t.coreAt s.core).owner = (s.coreAt s.core).owner := by
    rw [h.cores]
    rfl
  have hlaunch (n : Nat) : t.launch? n = s.launch? n := by rw [h.rest, s.openChunk_rest]; rfl
  rw [State.manualCore, State.manualCore, h.core, State.openChunk_core, howner]
  simp only [hlaunch]

/-- SLSTART and SLREAP outside a manual block, and outside its slot 0 (R165). -/
theorem headSlot_outside {s : State} (h : s.manualCore s.core = false) :
    headSlot.run s = .error (.after fun s => s.takeTrap 0xB 0 0 s.cur.ctx.pc) := by
  unfold headSlot
  rw [M.run_bind_ok (M.run_get _), h]
  rfl

theorem headSlot_otherSlot {s : State} (h : s.manualCore s.core = true) (hslot : s.slot ≠ 0) :
    headSlot.run s = .error (.after fun s => s.takeTrap 0xB 1 0 s.cur.ctx.pc) := by
  unfold headSlot
  rw [M.run_bind_ok (M.run_get _), h, if_pos hslot]
  rfl

section
variable {g : Guard} {d a b : Reg} {s s1 s2 : State} {x y : Word} (hs : Strand g s) (ht : TakesTraps s) (ha : Reads a s.openChunk x s1)
include hs ht ha

/-- JMP traps where its transfer stops. -/
theorem traps_jmp {info : Nat} (hinfo : info < 65536)
    (h : (jumpTo x).run s1 = .error (.after fun s => s.takeTrap 2 info x s.cur.ctx.pc)) : Traps (.jmp g a) s 2 info x s.cur.ctx.pc := by
  refine traps_of_stop rfl hs.guard ht ?_ (.inl (by decide)) hinfo
  rw [M.run_bind_ok ha]
  exact h

theorem traps_slreap {info : Nat} (hinfo : info < 65536)
    (h : headSlot.run s1 = .error (.after fun s => s.takeTrap 0xB info 0 s.cur.ctx.pc)) :
    Traps (.slreap g d a) s 0xB info 0 s.cur.ctx.pc := by
  refine traps_of_strand_stop rfl hs ht ?_ (.inl (by decide)) hinfo
  rw [M.run_bind_ok (slotNamed_run ha rfl), M.run_bind, h]

theorem traps_slstart (hb : Reads b s1 y s2) {info : Nat} (hinfo : info < 65536)
    (h : headSlot.run s2 = .error (.after fun s => s.takeTrap 0xB info 0 s.cur.ctx.pc)) :
    Traps (.slstart g d a b) s 0xB info 0 s.cur.ctx.pc := by
  refine traps_of_strand_stop rfl hs ht ?_ (.inl (by decide)) hinfo
  rw [M.run_bind_ok (slotNamed_run ha rfl), M.run_bind_ok hb, M.run_bind, h]

theorem traps_fork (hb : Reads b s1 y s2) (hplace : s2.forkPlace s.core = none) : Traps (.fork g d a b) s 9 0 0 s.cur.ctx.pc := by
  refine traps_of_strand_stop rfl hs ht ?_ (.inl (by decide)) (by decide)
  rw [M.run_bind_ok ha, M.run_bind_ok hb, M.run_bind_ok (M.run_get _), hb.operand.core, ha.core_open]
  dsimp only
  rw [hplace]
  rfl

end

/-- Settles O18: what each instruction stops with, from which `traps_of_stop` and `traps_trap` enter the handler; operands leave what
decides it as it was (`TakesTraps.isFollower`, `Operand.manualCore`). -/
theorem instructionsThatTrap : Obligations.InstructionsThatTrap := by
  unfold Obligations.InstructionsThatTrap
  refine ⟨fun g c s hs ht => ⟨traps_trap hs ht, traps_brk hs ht⟩, fun g a s s1 x hs ht ha => ⟨fun hodd => ?_, fun heven hout => ?_⟩,
    fun g d a b s s1 s2 x y hs ht ha hb => ⟨fun hm _ => ?_, fun hm hslot _ => ?_, traps_fork hs ht ha hb, traps_eret hs ht⟩⟩
  · exact traps_jmp hs ht ha (by decide) (jumpTo_odd (ha.operand.strand hs.strand) (ht.isFollower ha.operand) hodd)
  · exact traps_jmp hs ht ha (by decide) (jumpTo_outside (ha.operand.strand hs.strand) (ht.isFollower ha.operand) heven hout)
  · exact ⟨traps_slstart hs ht ha hb (by decide) (headSlot_outside ((ha.operand.trans hb.operand).manualCore.trans hm)),
      traps_slreap hs ht ha (by decide) (headSlot_outside (ha.operand.manualCore.trans hm))⟩
  · have hslot1 : s1.slot ≠ 0 := ha.slot_open ▸ hslot
    have hslot2 : s2.slot ≠ 0 := hb.operand.slot ▸ hslot1
    exact ⟨traps_slstart hs ht ha hb (by decide) (headSlot_otherSlot ((ha.operand.trans hb.operand).manualCore.trans hm) hslot2),
      traps_slreap hs ht ha (by decide) (headSlot_otherSlot (ha.operand.manualCore.trans hm) hslot1)⟩

/-! ### O56 -/

/-- Settles O56: each word is a closed term, which the decoder evaluates. -/
theorem specWordsDecode : Obligations.SpecWordsDecode := by
  unfold Obligations.SpecWordsDecode
  iterate 39 refine ⟨by decide +kernel, ?_⟩
  exact ⟨⟨by decide +kernel, rfl⟩, ⟨.writeId, by decide +kernel, rfl⟩, ⟨.addrQueue, by decide +kernel, rfl⟩⟩

end Sys2Proof.Machine
